-- ==== Sys2Proof/Word.lean ====
section
/-!
DEFINITION. The words the manual computes with (R2: little-endian, bit 0 the least significant) and their plainest arithmetic.
-/

namespace Sys2Proof

/-- One byte of memory (R2). -/
abbrev Byte := BitVec 8

/-- One 32-bit register, memory word or instruction word. -/
abbrev Word := BitVec 32

/-- A 64-bit pointer, pair or register of the host's (R182, R59). -/
abbrev DWord := BitVec 64

/-- One 128-byte line (R193). -/
abbrev Line := BitVec 1024

/-- A 32-bit mask with one bit per lane of a skein, or per word of a line. -/
abbrev Mask := BitVec 32

end Sys2Proof
end

