-- ==== Sys2Proof/Syntax.lean ====
section
/-!
DEFINITION. The words of the GK16 as syntax: one record per body format (R60, R62) with every field the format has, the
extension words (R64, R66, R67), and `Instr`, one constructor per row of the opcode table. A row that is a step of the
device and no word carries as operands what that step is told from outside.
-/

namespace Sys2Proof

/-- The reasons an ILLEGAL carries (R75). -/
inductive Reason where
  | opcode | xbit | reserved | zerobits | type | register | queue | operand
  deriving DecidableEq, Repr

/-- XM, the modifier word (R64). -/
structure Xm where
  c : BitVec 7
  p : BitVec 3
  n : Bool
  rm : BitVec 3
  sat : Bool
  neg : BitVec 3
  abs : BitVec 3
  ty : BitVec 4
  opx : BitVec 7
  deriving DecidableEq, Repr

/-- XW, the memory word (R67). -/
structure Xw where
  p : BitVec 3
  n : Bool
  ty : BitVec 4
  pol : BitVec 3
  sc : BitVec 3
  sub : BitVec 4
  disp : BitVec 14
  deriving DecidableEq, Repr

/-- LR and UR: destination, two sources, F, and XM when X = 1 (R60, R62, R63). -/
structure Lr where
  w : Bool
  d : BitVec 7
  a : BitVec 7
  b : BitVec 7
  f : Bool
  xm : Option Xm
  deriving DecidableEq, Repr

/-- LK and UK: destination, source, 8-bit immediate, and XL when X = 1 (R60, R62, R66). -/
structure Lk where
  w : Bool
  d : BitVec 7
  a : BitVec 7
  k : BitVec 8
  xl : Option Word
  deriving DecidableEq, Repr

/-- LP and UC: destination predicate or condition, comparison code, sources, F, and XM when X = 1 (R60, R62). -/
structure Lp where
  w : Bool
  pd : BitVec 3
  cc : BitVec 4
  a : BitVec 7
  b : BitVec 7
  f : Bool
  xm : Option Xm
  deriving DecidableEq, Repr

/-- LV: vector, predicate destination and source, negate, mode, five zero bits, and XM when X = 1 (R60). -/
structure Lv where
  w : Bool
  d : BitVec 7
  pd : BitVec 3
  ps : BitVec 3
  n : Bool
  mode : BitVec 3
  z : BitVec 5
  xm : Option Xm
  deriving DecidableEq, Repr

/-- The variant layout of PLOP and CLOP: destination, three sources, truth table, two zero bits (R126, R161). -/
structure Plop where
  w : Bool
  pd : BitVec 3
  pa : BitVec 3
  pb : BitVec 3
  pc : BitVec 3
  lut : BitVec 8
  z : BitVec 2
  xm : Option Xm
  deriving DecidableEq, Repr

/-- LM and UM: data register, index register, base register, one zero bit, and the XW word they require (R60, R62, R63). -/
structure Lm where
  w : Bool
  d : BitVec 7
  a : BitVec 7
  sb : BitVec 7
  z : Bool
  xw : Xw
  deriving DecidableEq, Repr

/-- LB and UJ: predicate or condition, negate, signed word offset (R60, R62, R61). -/
structure Lb where
  w : Bool
  p : BitVec 3
  n : Bool
  off : BitVec 18
  deriving DecidableEq, Repr

/-- LN and UN: 22 zero bits (R60, R62). -/
structure Ln where
  w : Bool
  z : BitVec 22
  deriving DecidableEq, Repr

/-- UE: register operand, tag or index, opcode-specific bits (R62). -/
structure Ue where
  w : Bool
  sp : BitVec 7
  tag : BitVec 6
  sub : BitVec 9
  deriving DecidableEq, Repr

/-- UE with the XL literal that only EVENT with WR = 1 defines (R63, R180). -/
structure Ux where
  ue : Ue
  xl : Word
  deriving DecidableEq, Repr

/-- The causes of an XLATE (R188). -/
inductive XlateCause where
  | noncanon | unmapped | badpte | badpa
  deriving DecidableEq, Repr

/-- Why a fetch fails (R55, R218). -/
inductive FetchCause where
  | xlate (c : XlateCause)
  | perm
  | dataerr
  deriving DecidableEq, Repr

/-- The two register windows the host writes: BAR0 (management) and BAR2 (doorbell pages) (R327, R328). -/
inductive Bar where
  | bar0 | bar2
  deriving DecidableEq, Repr

/-- Where a register write goes: the offset in its window and how many bytes it writes (R327). -/
structure RegAt where
  off : Nat
  bytes : Nat
  deriving DecidableEq, Repr

/-- A source of work that needs a slot: a submission queue or a reel trigger register of a context (R41). -/
inductive Source where
  | queue (ctx n : Nat)
  | trig (ctx n : Nat)
  deriving DecidableEq, Repr

/-- What the host keeps of a half it reads or writes through CXL.mem: nothing, a shared copy, or ownership (R322). -/
inductive HostKeep where
  | none | shared | owned
  deriving DecidableEq, Repr

/-- What the device asks the host for, per half of a host line (R319). -/
inductive HostReq where
  | rdShared | rdOwn | rdCurr
  deriving DecidableEq, Repr

/-- The CXL.io AtomicOps (R316). -/
inductive PeerOp where
  | fetchAdd | swap | cas
  deriving DecidableEq, Repr

/-- What is power-gated: a spindle (0 to 767) or a slice of a die (R325). -/
inductive GateUnit where
  | spindle (n : Nat)
  | slice (die n : Nat)
  deriving DecidableEq, Repr

/-- What a start finds: the images it runs and, step by step, which units fail (R465, R468). (PRESUMED: notes/assumptions/76) -/
structure StartReport where
  stage1 : List (BitVec 8)
  stage2 : List (BitVec 8)
  config : List (BitVec 8)
  portPeer : BitVec 4
  saveGb : Option Nat
  failed : List (BitVec 8 × Nat)
  links : BitVec 4
  deriving DecidableEq, Repr

/-- The instructions and the device's own steps: one constructor per row of the opcode table (R72, R73; for a step of the
device, the rule its comment names). -/
inductive Instr where
  /-- IADD, lane 0x01 (R114). Adds two integer sources in each executing lane, wrapping or saturating. -/
  | iadd (o : Lr)
  /-- ISUB, lane 0x02 (R114). Subtracts two integer sources in each executing lane, wrapping or saturating. -/
  | isub (o : Lr)
  /-- IADDK, lane 0x03 (R114). Adds an immediate to a 32-bit integer in each executing lane. -/
  | iaddk (o : Lk)
  /-- IMUL, lane 0x04 (R114). Multiplies two integers and keeps the low half, wrapping or saturating. -/
  | imul (o : Lr)
  /-- IMULH, lane 0x05 (R114). Writes the high half of the exact integer product. -/
  | imulh (o : Lr)
  /-- IMAD, lane 0x06 (R114). Computes a*b+c on integers in each executing lane. -/
  | imad (o : Lr)
  /-- IDIV, lane 0x07 (R115). Divides integers toward zero, giving quotient or remainder without faulting. -/
  | idiv (o : Lr)
  /-- IMIN, lane 0x08 (R114). Writes the integer minimum of two sources. -/
  | imin (o : Lr)
  /-- IMAX, lane 0x09 (R114). Writes the integer maximum of two sources. -/
  | imax (o : Lr)
  /-- AND, lane 0x0C (R116). Bitwise AND of two sources. -/
  | and (o : Lr)
  /-- OR, lane 0x0D (R116). Bitwise OR of two sources. -/
  | or (o : Lr)
  /-- XOR, lane 0x0E (R116). Bitwise XOR of two sources. -/
  | xor (o : Lr)
  /-- ANDN, lane 0x0F (R116). Bitwise A AND NOT B. -/
  | andn (o : Lr)
  /-- ANDK, lane 0x10 (R116). Bitwise AND with an immediate. -/
  | andk (o : Lk)
  /-- ORK, lane 0x11 (R116). Bitwise OR with an immediate. -/
  | ork (o : Lk)
  /-- XORK, lane 0x12 (R116). Bitwise XOR with an immediate. -/
  | xork (o : Lk)
  /-- SHL, lane 0x13 (R117). Shifts left by a register amount. -/
  | shl (o : Lr)
  /-- SHR, lane 0x14 (R117). Logical right shift by a register amount. -/
  | shr (o : Lr)
  /-- SAR, lane 0x15 (R117). Arithmetic right shift by a register amount. -/
  | sar (o : Lr)
  /-- SHLK, lane 0x16 (R117). Shifts left by an immediate amount. -/
  | shlk (o : Lk)
  /-- SHRK, lane 0x17 (R117). Logical right shift by an immediate amount. -/
  | shrk (o : Lk)
  /-- SARK, lane 0x18 (R117). Arithmetic right shift by an immediate amount. -/
  | sark (o : Lk)
  /-- POPC, lane 0x1A (R118). Counts the one bits of the source. -/
  | popc (o : Lr)
  /-- CLZ, lane 0x1B (R118). Counts leading zero bits of the source. -/
  | clz (o : Lr)
  /-- BREV, lane 0x1C (R118). Reverses the bit order of the source. -/
  | brev (o : Lr)
  /-- BFE, lane 0x1D (R119). Extracts a signed or natural bit field. -/
  | bfe (o : Lr)
  /-- BFI, lane 0x1E (R120). Inserts a bit field of one source into another. -/
  | bfi (o : Lr)
  /-- LEA, lane 0x1F (R121). Forms an address as base plus shifted index. -/
  | lea (o : Lr)
  /-- ISETP, lane 0x20 (R122). Compares integers and writes a lane predicate. -/
  | isetp (o : Lp)
  /-- SEL, lane 0x21 (R123). Selects one of two sources by a predicate in every bundle lane. -/
  | sel (o : Lr)
  /-- MOV, lane 0x22 (R124). Copies a register, pair or quad, or pushes to or pops from a queue register. -/
  | mov (o : Lr)
  /-- MOVK, lane 0x23 (R124). Writes an immediate to a vector register. -/
  | movk (o : Lk)
  /-- MOVSV, lane 0x24 (R124). Broadcasts a uniform register to every executing lane. -/
  | movsv (o : Lr)
  /-- PLOP, lane 0x25 (R126). Combines three predicates through an 8-bit truth table. -/
  | plop (o : Plop)
  /-- PMOV, lane 0x26 (R127). Moves values between predicates and vector registers by mode. -/
  | pmov (o : Lv)
  /-- FADD, lane 0x28 (R129). Floating-point addition with one rounding. -/
  | fadd (o : Lr)
  /-- FMUL, lane 0x2A (R129). Floating-point multiplication with one rounding. -/
  | fmul (o : Lr)
  /-- FFMA, lane 0x2B (R129). Fused multiply-add with one rounding. -/
  | ffma (o : Lr)
  /-- FMIN, lane 0x2C (R130). IEEE minimumNumber of two floats. -/
  | fmin (o : Lr)
  /-- FMAX, lane 0x2D (R130). IEEE maximumNumber of two floats. -/
  | fmax (o : Lr)
  /-- FSETP, lane 0x2E (R122). Compares floats and writes a lane predicate. -/
  | fsetp (o : Lp)
  /-- FDIV, lane 0x2F (R131). Correctly rounded floating-point division. -/
  | fdiv (o : Lr)
  /-- RCP, lane 0x30 (R131). Correctly rounded reciprocal. -/
  | rcp (o : Lr)
  /-- RSQ, lane 0x31 (R131). Correctly rounded reciprocal square root. -/
  | rsq (o : Lr)
  /-- SQRT, lane 0x32 (R131). Correctly rounded square root. -/
  | sqrt (o : Lr)
  /-- EX2, lane 0x33 (R131). Correctly rounded power of two. -/
  | ex2 (o : Lr)
  /-- LG2, lane 0x34 (R131). Correctly rounded base-2 logarithm. -/
  | lg2 (o : Lr)
  /-- SINPI, lane 0x35 (R131). Correctly rounded sin(pi x). -/
  | sinpi (o : Lr)
  /-- COSPI, lane 0x36 (R131). Correctly rounded cos(pi x). -/
  | cospi (o : Lr)
  /-- FRND, lane 0x37 (R132). Rounds a float to an integral value in the given direction. -/
  | frnd (o : Lr)
  /-- FCLASS, lane 0x38 (R133). Writes a one-hot class mask of a float. -/
  | fclass (o : Lr)
  /-- FSCALE, lane 0x39 (R134). Multiplies a float by a power of two with one rounding. -/
  | fscale (o : Lr)
  /-- FDOT2, lane 0x3A (R135). Two-element 16-bit dot product added to an FP32 value, rounded once. -/
  | fdot2 (o : Lr)
  /-- CVT, lane 0x3B (R137). Converts one value between integer, IEEE and narrow float formats. -/
  | cvt (o : Lr)
  /-- CVTP, lane 0x3C (R138). Converts two FP32 values and packs them. -/
  | cvtp (o : Lr)
  /-- PRMT, lane 0x3D (R139). Builds result bytes from a pool of eight bytes. -/
  | prmt (o : Lr)
  /-- FLGRD, lane 0x3E (R140). Reads the sticky IEEE flags into a register. -/
  | flgrd (o : Lr)
  /-- FLGCLR, lane 0x3F (R140). Clears selected sticky IEEE flags in every bundle lane. -/
  | flgclr (o : Lk)
  /-- SHFL, lane 0x40 (R142). Copies a value from an indexed lane within a segment. -/
  | shfl (o : Lr)
  /-- SHFLUP, lane 0x41 (R142). Copies a value from a lower lane within a segment. -/
  | shflup (o : Lr)
  /-- SHFLDN, lane 0x42 (R142). Copies a value from a higher lane within a segment. -/
  | shfldn (o : Lr)
  /-- SHFLX, lane 0x43 (R142). Copies a value from the XOR-indexed lane. -/
  | shflx (o : Lr)
  /-- VOTE, lane 0x44 (R143). Reduces a predicate over contributing lanes into a predicate. -/
  | vote (o : Lv)
  /-- BALLOT, lane 0x45 (R143). Writes the mask of contributing lanes whose predicate is true. -/
  | ballot (o : Lv)
  /-- LRED, lane 0x46 (R144). Reduces a value over contributing lanes in ascending order. -/
  | lred (o : Lr)
  /-- LSCAN, lane 0x47 (R144). Inclusive or exclusive prefix scan over contributing lanes. -/
  | lscan (o : Lr)
  /-- MATCH, lane 0x48 (R145). Writes the mask of contributing lanes holding an equal value. -/
  | matchLanes (o : Lr)
  /-- RDSR, lane 0x49 (R146). Lane read of a special register. -/
  | rdsr (o : Lk)
  /-- BRL, lane 0x70 (R147). Per-thread predicated branch. -/
  | brl (o : Lb)
  /-- CALL, lane 0x71 (R148). Pushes a return address on the thread's call stack and branches. -/
  | call (o : Lb)
  /-- RET, lane 0x72 (R149). Pops a return address from the call stack and jumps to it. -/
  | ret (o : Ln)
  /-- JMPL, lane 0x73 (R150). Indirect jump that writes the link address. -/
  | jmpl (o : Lr)
  /-- EXIT, lane 0x74 (R151). Ends every thread of the bundle. -/
  | exit (o : Ln)
  /-- REORDER, lane 0x75 (R152). Makes the bundle's threads wait at a reorder point with a key. -/
  | reorder (o : Lr)
  /-- SVC, lane 0x76 (R153). Releases at system scope, writes argument blocks to the request ring, raises the host vector and parks the skein. -/
  | svc (o : Lk)
  /-- BKPT, lane 0x77 (R154). Raises BKPT precisely for the bundle. -/
  | bkpt (o : Lk)
  /-- LD, lane 0x50 (R227). Loads from global memory in each executing lane. -/
  | ld (o : Lm)
  /-- ST, lane 0x51 (R227). Stores to global memory in each executing lane. -/
  | st (o : Lm)
  /-- LDB, lane 0x52 (R227). Bounds-checked load through a buffer descriptor. -/
  | ldb (o : Lm)
  /-- STB, lane 0x53 (R227). Bounds-checked store through a buffer descriptor. -/
  | stb (o : Lm)
  /-- LDS, lane 0x54 (R227). Loads from the group's scratchpad. -/
  | lds (o : Lm)
  /-- STS, lane 0x55 (R227). Stores to the group's scratchpad. -/
  | sts (o : Lm)
  /-- ATOM, lane 0x56 (R230). Global atomic read-modify-write, combining lanes per address in lane order. -/
  | atom (o : Lm)
  /-- ATOMB, lane 0x57 (R230). Atomic through a buffer descriptor. -/
  | atomb (o : Lm)
  /-- ATOMS, lane 0x58 (R230). Atomic on the scratchpad. -/
  | atoms (o : Lm)
  /-- PRF, lane 0x59 (R233). Prefetches lines to the L1 or caching L2 without any visible effect. -/
  | prf (o : Lm)
  /-- LDG, lane 0x5A (R234). Reads the guard tag of a granule. -/
  | ldg (o : Lm)
  /-- STG, lane 0x5B (R234). Sets the guard tag of a granule. -/
  | stg (o : Lm)
  /-- STQ, lane 0x5C (R236). Quantises the bundle's values into one staple, choosing the selector of least error. -/
  | stq (o : Lm)
  /-- LDQ, lane 0x5D (R237). Loads, checks and decodes one staple into the lanes. -/
  | ldq (o : Lm)
  /-- LDPX, lane 0x60 (R426). Reads reconstructed pixel components from a predictive surface. -/
  | ldpx (o : Lm)
  /-- STPX, lane 0x61 (R427). Delivers pixel writes per block to a predictive surface, optionally ordered by quad key. -/
  | stpx (o : Lm)
  /-- LDCF, lane 0x62 (R429). Reads a coefficient or level of a coded block. -/
  | ldcf (o : Lm)
  /-- STCF, lane 0x63 (R430). Delivers a coefficient write to a coded block. -/
  | stcf (o : Lm)
  /-- SMP, lane 0x64 (R431). Samples an image through a filter program. -/
  | smp (o : Lm)
  /-- DSCL, lane 0x65 (R432). Looks up keys in the decoupled sampling cache, giving hit, miss or pending. -/
  | dscl (o : Lm)
  /-- DSCF, lane 0x66 (R433). Fills reserved decoupled sampling cache entries. -/
  | dscf (o : Lm)
  /-- NOP, uniform 0x00 (R58). Uniform no-operation, optionally with the wait marker. -/
  | nop (o : Ln)
  /-- SADD, uniform 0x01 (R157). Uniform integer addition. -/
  | sadd (o : Lr)
  /-- SSUB, uniform 0x02 (R157). Uniform integer subtraction. -/
  | ssub (o : Lr)
  /-- SADDK, uniform 0x03 (R157). Uniform addition of an immediate. -/
  | saddk (o : Lk)
  /-- SMUL, uniform 0x04 (R157). Uniform integer multiplication. -/
  | smul (o : Lr)
  /-- SMAD, uniform 0x06 (R157). Uniform integer multiply-add. -/
  | smad (o : Lr)
  /-- SMIN, uniform 0x07 (R157). Uniform integer minimum. -/
  | smin (o : Lr)
  /-- SMAX, uniform 0x08 (R157). Uniform integer maximum. -/
  | smax (o : Lr)
  /-- SAND, uniform 0x09 (R157). Uniform bitwise AND. -/
  | sand (o : Lr)
  /-- SOR, uniform 0x0A (R157). Uniform bitwise OR. -/
  | sor (o : Lr)
  /-- SXOR, uniform 0x0B (R157). Uniform bitwise XOR. -/
  | sxor (o : Lr)
  /-- SSHL, uniform 0x0F (R157). Uniform left shift by a register. -/
  | sshl (o : Lr)
  /-- SSHR, uniform 0x10 (R157). Uniform logical right shift by a register. -/
  | sshr (o : Lr)
  /-- SSAR, uniform 0x11 (R157). Uniform arithmetic right shift by a register. -/
  | ssar (o : Lr)
  /-- SSHLK, uniform 0x12 (R157). Uniform left shift by an immediate. -/
  | sshlk (o : Lk)
  /-- SSHRK, uniform 0x13 (R157). Uniform logical right shift by an immediate. -/
  | sshrk (o : Lk)
  /-- SPOPC, uniform 0x14 (R157). Uniform population count. -/
  | spopc (o : Lr)
  /-- SCLZ, uniform 0x15 (R157). Uniform leading-zero count. -/
  | sclz (o : Lr)
  /-- SLEA, uniform 0x17 (R157). Uniform address formation. -/
  | slea (o : Lr)
  /-- SSETC, uniform 0x18 (R158). Compares uniform integers and writes a condition. -/
  | ssetc (o : Lp)
  /-- SSEL, uniform 0x19 (R159). Selects one of two uniform sources by a condition. -/
  | ssel (o : Lr)
  /-- SMOV, uniform 0x1A (R160). Copies uniform registers, or pushes or pops one queue element. -/
  | smov (o : Lr)
  /-- SMOVK, uniform 0x1B (R157). Writes an immediate to a uniform register. -/
  | smovk (o : Lk)
  /-- CLOP, uniform 0x1C (R161). Combines three conditions through a truth table. -/
  | clop (o : Plop)
  /-- SFADD, uniform 0x20 (R162). Uniform floating-point addition. -/
  | sfadd (o : Lr)
  /-- SFMUL, uniform 0x21 (R162). Uniform floating-point multiplication. -/
  | sfmul (o : Lr)
  /-- SFFMA, uniform 0x22 (R162). Uniform fused multiply-add. -/
  | sffma (o : Lr)
  /-- SFSETC, uniform 0x23 (R158). Compares uniform floats and writes a condition. -/
  | sfsetc (o : Lp)
  /-- SCVT, uniform 0x24 (R163). Uniform conversion between formats. -/
  | scvt (o : Lr)
  /-- MOVVS, uniform 0x28 (R164). Copies one lane's vector register to a uniform register. -/
  | movvs (o : Lk)
  /-- RDSR_UNIFORM, uniform 0x29 (R166). Uniform read of a special register. -/
  | rdsrUniform (o : Lk)
  /-- WRSR, uniform 0x2A (R167). Writes %fpmode or %gublock. -/
  | wrsr (o : Lk)
  /-- SLD, uniform 0x2B (R168). One uniform load for the bundle. -/
  | sld (o : Lm)
  /-- SST, uniform 0x2C (R168). One uniform store for the bundle. -/
  | sst (o : Lm)
  /-- PTOC, uniform 0x2D (R165). Reduces a lane predicate over the bundle into a condition. -/
  | ptoc (o : Lp)
  /-- BRA, uniform 0x30 (R171). Conditional branch of the whole bundle. -/
  | bra (o : Lb)
  /-- JMP, uniform 0x31 (R172). Indirect jump of the whole bundle. -/
  | jmp (o : Lr)
  /-- BRX, uniform 0x32 (R173). Branches through a bounds-checked table of relative offsets. -/
  | brx (o : Lr)
  /-- YIELD, uniform 0x34 (R95). Gives the quarter to other skeins under the issue policy. -/
  | yield (o : Ln)
  /-- REGION, uniform 0x35 (R175). Opens an idempotent region and records its entry and live-in set. -/
  | region (o : Lk)
  /-- SPAWN, uniform 0x60 (R177). Pushes a spool record onto a priority queue, optionally after a release. -/
  | spawn (o : Ue)
  /-- JOIN, uniform 0x61 (R179). Waits until a join counter is at most zero. -/
  | join (o : Ue)
  /-- EVENT, uniform 0x62 (R180). Releases, optionally writes an event word and raises a host vector. -/
  | event (o : Ue)
  /-- EVENT_LITERAL, uniform 0x62 (R180). EVENT with WR and an XL literal as the value written. -/
  | eventLiteral (o : Ux)
  /-- RTRIG, uniform 0x63 (R181). Requests a reel run as a write to a trigger register. -/
  | rtrig (o : Ue)
  /-- BAR, uniform 0x40 (R353). Arrives at a group barrier and waits for its completion. -/
  | bar (o : Ue)
  /-- BARP, uniform 0x41 (R353). Arrives at a counted barrier, with or without waiting. -/
  | barp (o : Ue)
  /-- FENCE, uniform 0x42 (R355). Release, acquire or both at a scope on the spindle's L1. -/
  | fence (o : Ue)
  /-- LOCKL, uniform 0x43 (R358). Requests a line lock, queueing and parking until granted or timed out. -/
  | lockl (o : Lm)
  /-- UNLOCKL, uniform 0x44 (R359). Releases a line lock and hands line and lock to the next present waiter. -/
  | unlockl (o : Lm)
  /-- PINL, uniform 0x45 (R360). Pins a line in the L1 and possibly its caching slice. -/
  | pinl (o : Lm)
  /-- UNPINL, uniform 0x46 (R360). Releases the skein's pins of a line. -/
  | unpinl (o : Lm)
  /-- WAITX, uniform 0x47 (R363). Waits on an external word until a condition holds. -/
  | waitx (o : Lm)
  /-- WAITV, uniform 0x48 (R363). Waits on an internal word until a condition holds. -/
  | waitv (o : Lm)
  /-- LSTAT, uniform 0x49 (R361). Reads the lock and pin state of a line. -/
  | lstat (o : Lm)
  /-- CPY, uniform 0x50 (R269). Hands a copy command to the copy engine. -/
  | cpy (o : Ue)
  /-- CPYG, uniform 0x51 (R271). Hands a gather copy command to the copy engine. -/
  | cpyg (o : Ue)
  /-- CPYD, uniform 0x52 (R221). Hands a packed-stream decode command to the copy engine. -/
  | cpyd (o : Ue)
  /-- MXA, uniform 0x53 (R274). Hands a matrix multiply-accumulate command to the matrix engine. -/
  | mxa (o : Ue)
  /-- MXC, uniform 0x54 (R274). Hands a chained product from an accumulator tile to the matrix engine. -/
  | mxc (o : Ue)
  /-- MXZ, uniform 0x55 (R276). Zeroes an accumulator tile through the matrix engine. -/
  | mxz (o : Ue)
  /-- MXLD, uniform 0x56 (R276). Loads an accumulator tile from memory. -/
  | mxld (o : Ue)
  /-- MXST, uniform 0x57 (R276). Stores an accumulator tile, converted or quantised. -/
  | mxst (o : Ue)
  /-- TWAIT, uniform 0x58 (R287). Waits on all or any tags of a mask, then acquires their destinations. -/
  | twait (o : Ue)
  /-- TFIRST, uniform 0x59 (R288). Writes the lowest ready tag of a mask, or 64. -/
  | tfirst (o : Lr)
  /-- TSTAT, uniform 0x5A (R289). Reads a tag's status entry or the tag bitmap. -/
  | tstat (o : Lk)
  /-- QBIND, uniform 0x5B (R291). Binds a queue register to an endpoint. -/
  | qbind (o : Ue)
  /-- QFREE, uniform 0x5C (R292). Unbinds a queue register. -/
  | qfree (o : Ue)
  /-- QSTAT, uniform 0x5D (R293). Reads the state of a queue register. -/
  | qstat (o : Lk)
  /-- TDESC, uniform 0x5E (R295). Writes a tile descriptor from four uniform registers. -/
  | tdesc (o : Ue)
  /-- SEAL, uniform 0x64 (R435). Seals a surface after pending writes and optionally queues it for egress. -/
  | seal (o : Ue)
  /-- STMV, uniform 0x65 (R436). Sets a tile's mode and motion and re-bases it. -/
  | stmv (o : Ue)
  /-- SURFCLR, uniform 0x66 (R437). Clears a rectangle of tiles of an open surface. -/
  | surfclr (o : Ue)
  /-- TBEGIN, uniform 0x67 (R438). Opens a binning pass on the die's tiler. -/
  | tbegin (o : Ue)
  /-- TFLUSH, uniform 0x68 (R439). Closes the open pass and launches its tile groups. -/
  | tflush (o : Ue)
  /-- ILLEGAL_WORD (R74). A word that is not an instruction raises ILLEGAL when it would issue. -/
  | illegalWord (w0 ext : BitVec 32) (r : Reason)
  /-- FETCH_FAULT (R55). An instruction fetch that fails translation or permission faults precisely. -/
  | fetchFault (c : FetchCause) (addr : BitVec 64)
  /-- RESULT_WRITEBACK (R96). A register result is written when its latency has elapsed or its data returns. -/
  | resultWriteback (skein k : Nat)
  /-- ISSUE_ROTATION (R90). When the rotation count reaches 64 the next issue goes to the longest-waiting other bundle. -/
  | issueRotation (skein : Nat)
  /-- FENCE_COMPLETE (R300). A release or acquire completes once write-backs and acknowledgements have drained. -/
  | fenceComplete (skein : Nat)
  /-- RUN_AHEAD_END (R456). Run-ahead ends at a breaker, a fetch fault, the 512th issue or 32 pages, and one record is posted. -/
  | runAheadEnd (skein : Nat)
  /-- INVALIDATION (R205). An L1 receives an invalidation, acknowledges with dirty words and queues the clean copy. -/
  | invalidation (spindle line : Nat)
  /-- EVICTION_NOTICE (R204). A directory receives an eviction notice and counts the copy absent. -/
  | evictionNotice (spindle line : Nat)
  /-- WRITEBACK_MERGE (R217). Dirty words arriving at the caching slice are merged word by word and the line recompressed. -/
  | writebackMerge (spindle line : Nat)
  /-- QDOOR_WRITE (R36). A doorbell write sets a submission queue's tail and starts packet processing. -/
  | qdoorWrite (ctx n : Nat) (v : BitVec 64)
  /-- TRIGGER_WRITE (R30). A trigger register write requests a reel run, replacing any pending request. -/
  | triggerWrite (ctx n : Nat) (v : BitVec 64)
  /-- QCFG_WRITE (R36). Writes a submission-queue configuration; setting EN again resumes a stopped queue. -/
  | qcfgWrite (ctx n : Nat) (hi : Bool) (v : BitVec 64)
  /-- REGISTER_WRITE (R476). Write to a doorbell or management register without its own row, refused when out of range. -/
  | registerWrite (bar : Bar) (at_ : RegAt) (v : BitVec 64)
  /-- XINV (R192). Removes translations of a context's page range from TLBs and L1 lines. -/
  | xinv (cmd : BitVec 256)
  /-- HARVEST (R210). Copies and clears written-page bitmap bits. -/
  | harvest (cmd : BitVec 256)
  /-- MMCMD_DONE (R191). A memory-management command completes and writes 1 or 2 to DONE at system scope. -/
  | mmcmdDone (cmd : BitVec 256) (ok : Bool)
  /-- IMAGE (R472). Mailbox command that reads a firmware image or configuration for the next start. -/
  | image (cmd : BitVec 64)
  /-- ATTEST (R474). Mailbox command that returns a signed attestation report for a nonce. -/
  | attest (cmd : BitVec 64)
  /-- IDENTITY (R472). Mailbox command that returns the device's SM2 public key. -/
  | identity (cmd : BitVec 64)
  /-- READLOG (R472). Mailbox command that returns start-log entries. -/
  | readlog (cmd : BitVec 64)
  /-- CLEARLOG (R472). Mailbox command that removes failure entries for the next start. -/
  | clearlog (cmd : BitVec 64)
  /-- STREAMTAB (R472). Mailbox command that names a die's stream table. -/
  | streamtab (cmd : BitVec 64)
  /-- STREAMSTART (R473). Mailbox command that reads a stream record and starts the stream. -/
  | streamstart (cmd : BitVec 64)
  /-- STREAMSTOP (R473). Mailbox command that stops a stream after the current frame. -/
  | streamstop (cmd : BitVec 64)
  /-- MAILBOX_COMPLETE (R471). A mailbox command completes, sets STATE and posts device event 1,158. -/
  | mailboxComplete (st : BitVec 8) (detail : BitVec 32) (outlen : Nat)
  /-- PACKET_NOP (R37). The Distaff takes a NOP packet and advances HEAD. -/
  | packetNop (ctx n : Nat)
  /-- PACKET_LAUNCH (R37). The Distaff reads a LAUNCH packet, copies and checks the header, and accepts the launch. -/
  | packetLaunch (ctx n : Nat)
  /-- PACKET_WAIT (R37). A WAIT packet holds the queue until a word reaches a value. -/
  | packetWait (ctx n : Nat)
  /-- WAIT_PACKET_WAKE (R37). A write to the waited line makes the Distaff re-read and possibly complete the WAIT. -/
  | waitPacketWake (ctx n : Nat)
  /-- REEL_RUN_BEGIN (R31). A reel run begins: node records and patch list are read, patches applied and DONE reset. -/
  | reelRunBegin (ctx n : Nat)
  /-- SPOOL_POP (R38). A die Distaff pops a spool record and starts it as a one-skein group. -/
  | spoolPop (die ctx prio : Nat)
  /-- SLOT_GRANT (R42). A waiting source takes a free slot or one of a lower-class holder. -/
  | slotGrant (src : Source)
  /-- QUANTUM_EXPIRY (R42). At the end of a slot's quantum the slot passes to an equal or higher-class waiter. -/
  | quantumExpiry (slot : Nat)
  /-- PLY_DISPATCH (R45). The lead Distaff offers the next ply to dies and places it whole. -/
  | plyDispatch (launch : Nat)
  /-- PREEMPT_COMPLETE (R452). A pre-empted skein finishes draining and writes its save area. -/
  | preemptComplete (skein : Nat)
  /-- GROUP_SAVE (R454). The group save area is written once all skeins and engine commands are done. -/
  | groupSave (group : Nat)
  /-- GROUP_REPLACE (R455). A pre-empted group is placed again on its die and restored. -/
  | groupReplace (group : Nat)
  /-- GROUP_RETIRE (R460). A group retires after its skeins and commands: commit, release, event word, DONE, report, frees. -/
  | groupRetire (group : Nat)
  /-- FAULT_RECORD (R446). The lead Distaff writes a fault record to the queue when slots are free and starts a handler or vector. -/
  | faultRecord (rec : Nat)
  /-- RETRY (R448). Response that resumes the stopped skein at its PC or region entry. -/
  | retry (rec : Nat)
  /-- SKIP (R448). Response that resumes after the faulting instruction with no destination written. -/
  | skip (rec : Nat)
  /-- SUPPLY (R448). Response that writes the handler's value as the result of a DETVIOL read. -/
  | supply (rec : Nat)
  /-- KILL_SKEIN (R449). Response that kills the named skein. -/
  | killSkein (rec : Nat)
  /-- KILL_LAUNCH (R449). Response that kills the skein's launch. -/
  | killLaunch (rec : Nat)
  /-- KILL_CONTEXT (R449). Response that kills every work of the context and disables its queues. -/
  | killContext (rec : Nat)
  /-- SVC_RESUME (R458). Host DONE of 1 resumes the service-calling skein with response words. -/
  | svcResume (skein : Nat)
  /-- SVC_KILL (R458). Host DONE other than 1 kills the service-calling skein. -/
  | svcKill (skein : Nat)
  /-- WATCHDOG_EXPIRY (R350). A stalled context's count reaches its limit and raises WATCHDOG or reports ALL-EXTERNAL. -/
  | watchdogExpiry (ctx : Nat)
  /-- DEADLOCK_CHECK (R344). After 2^16 slice cycles queued, the slices follow wait edges and report a cycle. -/
  | deadlockCheck (skein : Nat)
  /-- LOCK_TIMEOUT (R338). A waiter's timeout expires and its entry is removed unless a grant came first. -/
  | lockTimeout (skein : Nat)
  /-- WAIT_WAKE (R348). A write to a line wakes registered waiters, which read and test again. -/
  | waitWake (line : Nat)
  /-- ENGINE_START (R258). An engine starts its next command in arrival order. -/
  | engineStart (eng : Nat)
  /-- ENGINE_COMPLETE (R263). A command completes: status entry written, tag bit set, status stream fed. -/
  | engineComplete (eng : Nat)
  /-- ENGINE_STOP (R263). A command stops on DATAERR, SELECTOR or PERM, posts a record and frees its tag. -/
  | engineStop (eng : Nat)
  /-- SURFACE_OP_APPLY (R382). The home slice applies one registered surface operation whole. -/
  | surfaceOpApply (op : Nat)
  /-- PARTIAL_RENDER_END (R396). After the partial render's groups retire the bins are reset and the record accepted. -/
  | partialRenderEnd (die : Nat)
  /-- TILE_ROUND_START (R398). A later round of a tile starts after the previous round's group retires. -/
  | tileRoundStart (die tile : Nat)
  /-- FRAME_DUE (R390). The egress engine posts the frame-due event before a deadline. -/
  | frameDue (die stream : Nat)
  /-- FRAME_DEADLINE (R390). At a frame deadline the oldest sealed surface is emitted or a miss recorded. -/
  | frameDeadline (die stream : Nat)
  /-- TILE_ROW_EMIT (R391). A paced tile row is emitted into the ring and status updated. -/
  | tileRowEmit (die stream : Nat)
  /-- SURFACE_WRITE_REGISTERED (R425). A surface write's operation takes its place in the arbiter order of the descriptor's caching slice, and the held skein issues again. -/
  | surfaceWriteRegistered (skein : Nat)
  /-- REQUEST_RING_WRITE (R457). An SVC parked for lack of 1 + NBLK free request-ring slots writes its header and argument blocks, advances TAIL and raises the service vector once software has freed the slots. -/
  | requestRingWrite (skein : Nat)
  /-- SNPDATA (R320). Host snoop that takes data and leaves the half shared. -/
  | snpdata (half : Nat)
  /-- SNPINV (R320). Host snoop that invalidates a half and wakes its line's waiters. -/
  | snpinv (half : Nat)
  /-- SNPCUR (R320). Host snoop that returns current data without state change. -/
  | snpcur (half : Nat)
  /-- HOST_MEM_READ (R322). CXL.mem read of device memory, setting the half's host state. -/
  | hostMemRead (half : Nat) (keep : HostKeep)
  /-- HOST_MEM_WRITE (R322). CXL.mem write of device memory, setting the half's host state. -/
  | hostMemWrite (half : Nat) (data : BitVec 512) (keep : HostKeep)
  /-- HOST_LINE_GRANT (R319). The host answers RdShared, RdOwn or RdCurr with data and state. -/
  | hostLineGrant (half : Nat) (req : HostReq) (excl : Bool) (data : BitVec 512)
  /-- PEER_MEM_WRITE (R326). A peer's write arrives at the holder slice as a system-level write. -/
  | peerMemWrite (pa : Nat) (bytes : List (BitVec 8))
  /-- PEER_MEM_READ (R316). A peer reads device memory over CXL.io. -/
  | peerMemRead (pa n : Nat)
  /-- PEER_ATOMIC_IN (R316). A peer performs a CXL.io AtomicOp on device memory. -/
  | peerAtomicIn (op : PeerOp) (wide : Bool) (pa : Nat) (x y : BitVec 64)
  /-- POWER_GATE (R325). A spindle or slice is power-gated after flushing or evicting host halves. -/
  | powerGate (u : GateUnit)
  /-- RESET (R325). Reset writes back modified host halves and back-invalidates device halves. -/
  | reset
  /-- LINKERR_WRITE (R328). A write to LINKERR clears the count. -/
  | linkerrWrite (v : BitVec 64)
  /-- DETCTL_WRITE (R329). Changes the deterministic mode, accepted only while the context has no work. -/
  | detctlWrite (ctx : Nat) (v : BitVec 64)
  /-- DIECAP_WRITE (R475). Sets a die's power cap; the controller moves its clock step. -/
  | diecapWrite (die : Nat) (v : BitVec 64)
  /-- UNCORRECTABLE_ERROR (R218). An uncorrectable error marks the line POISON. -/
  | uncorrectableError (line : Nat)
  /-- LINK_DOWN (R318). A port's link goes down; a device event is posted and its host halves poisoned. -/
  | linkDown (port : Nat)
  /-- CLOCK_STEP (R13). Power capping changes a die's spindle clock step. -/
  | clockStep (die step : Nat)
  /-- THERMAL_HOLD (R475). A die held at its thermal limit posts device event 1,153. -/
  | thermalHold (die : Nat)
  /-- CRITICAL_TEMPERATURE (R475). A die at critical temperature resets the whole module. -/
  | criticalTemperature (die : Nat)
  /-- DEVICE_START (R465). A start runs stages 0 to 2, verifying and training the device. -/
  | deviceStart (r : StartReport)
  /-- PARTITION_WRITE (R49). Writes a context's partition, refusing illegal ones and pre-empting newly excluded groups. -/
  | partitionWrite (ctx die : Nat) (v : BitVec 64)
  /-- BISNP_RESPONSE (R323). The host answers a back-invalidate snoop and its data is merged. -/
  | bisnpResponse (half : Nat) (data : BitVec 512)
  deriving DecidableEq, Repr

end Sys2Proof
end

