-- ==== Sys2Proof/Machine/Checks.lean ====
section
/-!
DEFINITION. The checks of R74: which instructions of the syntax are words the device accepts, and the reason an ILLEGAL
reports when one is not (R75: the lowest code of those that hold). They depend on the word and on the allocation of the
skein (R20, R21) alone.
-/

namespace Sys2Proof.Machine

/-- What a word is checked against: the vector and uniform registers of the allocation, the barrier slots and the tag range
of the group (R20, R21, R352, R281). -/
structure Alloc where
  v : Nat
  s : Nat
  bars : Nat
  tagBase : Nat
  tagCnt : Nat
  deriving DecidableEq, Repr

/-- The widest allocation a header can ask for (R18, R59). -/
def fullAlloc : Alloc := { v := 120, s := 120, bars := 32, tagBase := 0, tagCnt := 64 }

/-- A condition of R74 and the reason it carries. -/
abbrev Viol := Bool × Reason

/-- The conditions of all the lists. -/
def cat (l : List (List Viol)) : List Viol := l.flatten

/-- The code of a reason (R75). -/
def reasonCode : Reason → Nat
  | .opcode => 1 | .xbit => 2 | .reserved => 3 | .zerobits => 4 | .type => 5 | .register => 6 | .queue => 7 | .operand => 8

/-- Whether some condition that holds carries the reason `r`. -/
def reasonHolds (l : List Viol) (r : Reason) : Bool := l.any fun v => v.1 && v.2 == r

/-- The reason of the lowest code among those that hold (R75). -/
def lowestReason (l : List Viol) : Option Reason :=
  if reasonHolds l .opcode then some .opcode
  else if reasonHolds l .xbit then some .xbit
  else if reasonHolds l .reserved then some .reserved
  else if reasonHolds l .zerobits then some .zerobits
  else if reasonHolds l .type then some .type
  else if reasonHolds l .register then some .register
  else if reasonHolds l .queue then some .queue
  else if reasonHolds l .operand then some .operand
  else none

/-- Registers a value of a type occupies (R59). -/
def tyRegs (ty : BitVec 4) : Nat :=
  match ty.toNat with
  | 2 | 3 | 5 | 14 => 2
  | 15 => 4
  | _ => 1

/-- The XM an instruction without one acts as (R65). -/
def xmDefault (ty : BitVec 4) : Xm :=
  { c := 0, p := 7, n := false, rm := 0, sat := false, neg := 0, abs := 0, ty := ty, opx := 0 }

/-- How many registers an operand field names: none, so the field is zero by definition; one; two; as many as the type. -/
inductive Wd where
  | z | w1 | w2 | wt
  deriving DecidableEq, Repr

/-- The registers of an operand width under type `ty`. -/
def wdRegs (ty : BitVec 4) : Wd → Nat
  | .z => 0 | .w1 => 1 | .w2 => 2 | .wt => tyRegs ty

/-- `n` registers from `code` on, aligned to `al`, below `lim` (R59, R20); a queue code is not accepted (R74). -/
def blockOk (lim : Nat) (code : BitVec 7) (n al : Nat) : List Viol :=
  [(decide (120 ≤ code.toNat), .queue),
   (decide (code.toNat < 120) && (code.toNat % al != 0 || decide (lim < code.toNat + n)), .register)]

/-- An operand of `n` registers: none (zero by definition), one, a pair or a quad. -/
def regOk (lim : Nat) (code : BitVec 7) (n : Nat) : List Viol :=
  if n = 0 then [(code != 0, .zerobits)] else blockOk lim code n n

/-- As `regOk`, where the field also accepts a queue code (R125, R160). -/
def regOrQueueOk (lim : Nat) (code : BitVec 7) (n : Nat) : List Viol :=
  if 120 ≤ code.toNat then [] else regOk lim code n

/-- The operand form of an LR or UR entry: the width of each register field, which of XM's fields it uses (R65), whether it
requires XM (R63) and whether it honours F (R60). -/
structure LrForm where
  d : Wd := .wt
  a : Wd := .wt
  b : Wd := .z
  c : Wd := .z
  xmReq : Bool := false
  f : Bool := false
  rm : Bool := false
  sat : Bool := false
  opx : Bool := false
  na : BitVec 3 := 0
  deriving DecidableEq, Repr

/-- XM's fields an entry does not use, and the reserved rounding codes (R65, R69). -/
def xmFieldsOk (x : Xm) (c rm sat opx : Bool) (na : BitVec 3) : List Viol :=
  [(!c && x.c != 0, .zerobits), (!rm && x.rm != 0, .zerobits), (!sat && x.sat, .zerobits), (!opx && x.opx != 0, .zerobits),
   ((x.neg ||| x.abs) &&& ~~~na != 0, .zerobits), (decide (5 < x.rm.toNat), .reserved)]

/-- The checks an LR or UR entry shares: XM, F, type, registers. -/
def lrOk (al : Alloc) (u : Bool) (o : Lr) (dty : BitVec 4) (types : List Nat) (s : LrForm) : List Viol :=
  let x := o.xm.getD (xmDefault dty)
  let lim := if u then al.s else al.v
  cat [[(s.xmReq && o.xm.isNone, .xbit), (!s.f && o.f, .zerobits), (!types.contains x.ty.toNat, .type)],
      xmFieldsOk x (s.c != .z) s.rm s.sat s.opx s.na, regOk lim o.d (wdRegs x.ty s.d), regOk lim o.a (wdRegs x.ty s.a),
      regOk lim o.b (wdRegs x.ty s.b), (if s.c == .z then [] else regOk lim x.c (wdRegs x.ty s.c))]

/-- Type lists of R112, R124, R128. -/
def tysInt : List Nat := [0, 1, 2, 3]
def tysBits : List Nat := [0, 14]
def tysMov : List Nat := [0, 14, 15]
def tysF6 : List Nat := [4, 5, 6, 7, 8, 9]
def tysF4 : List Nat := [4, 5, 6, 7]
def tysF2 : List Nat := [4, 5]
def tysCvt : List Nat := [0, 1, 2, 3, 4, 5, 6, 7, 10, 11, 12, 13]

/-- Two sources of the type (R112, R157). -/
def intRR (al : Alloc) (u : Bool) (o : Lr) (sat : Bool) : List Viol := lrOk al u o 0 tysInt { b := .wt, sat := sat }
def bitRR (al : Alloc) (u : Bool) (o : Lr) : List Viol := lrOk al u o 0 tysBits { b := .wt }
/-- Shifts and address forms: b is one register (R112). -/
def shiftRR (al : Alloc) (u : Bool) (o : Lr) : List Viol := lrOk al u o 0 tysBits { b := .w1 }
def leaOk (al : Alloc) (u : Bool) (o : Lr) : List Viol :=
  cat [lrOk al u o 0 tysBits { b := .w1, xmReq := true, opx := true },
      [((o.xm.getD (xmDefault 0)).opx.getLsbD 6, .zerobits)]]
def countOk (al : Alloc) (u : Bool) (o : Lr) : List Viol := lrOk al u o 0 tysBits { d := .w1 }
def madOk (al : Alloc) (u : Bool) (o : Lr) : List Viol :=
  lrOk al u o 0 tysInt { b := .wt, c := .wt, xmReq := true, sat := true }
/-- SEL and SSEL (R123, R159). -/
def selOk (al : Alloc) (u : Bool) (o : Lr) : List Viol := lrOk al u o 0 tysBits { b := .wt, xmReq := true }

/-- MOV and SMOV: a queue code in d or in a, not in both (R125, R160). -/
def movOk (al : Alloc) (u : Bool) (o : Lr) : List Viol :=
  let x := o.xm.getD (xmDefault 0)
  let lim := if u then al.s else al.v
  cat [[(o.f, .zerobits), (!tysMov.contains x.ty.toNat, .type), (o.b != 0, .zerobits),
   (decide (120 ≤ o.d.toNat) && decide (120 ≤ o.a.toNat), .queue)], xmFieldsOk x false false false false 0,
       regOrQueueOk lim o.d (tyRegs x.ty), regOrQueueOk lim o.a (tyRegs x.ty)]

/-- MOVSV: d is a vector operand, a a uniform one (R124). -/
def movsvOk (al : Alloc) (o : Lr) : List Viol :=
  let x := o.xm.getD (xmDefault 0)
  cat [[(o.f, .zerobits), (!tysBits.contains x.ty.toNat, .type)], xmFieldsOk x false false false false 0,
      regOk al.v o.d (tyRegs x.ty), regOk al.s o.a (tyRegs x.ty)]

/-- FADD's and FFMA's forms (R128, R162). -/
def floatRR (al : Alloc) (u : Bool) (o : Lr) (types : List Nat) (rm : Bool) : List Viol :=
  lrOk al u o 4 types { b := .wt, f := true, rm := rm, na := 6 }
def fmaOk (al : Alloc) (u : Bool) (o : Lr) (types : List Nat) : List Viol :=
  lrOk al u o 4 types { b := .wt, c := .wt, xmReq := true, f := true, rm := true, na := 7 }
def floatR (al : Alloc) (o : Lr) (types : List Nat) : List Viol := lrOk al false o 4 types { f := true, rm := true, na := 4 }

/-- FDOT2: packed sources, .f32 accumulator and result (R135). -/
def fdot2Ok (al : Alloc) (o : Lr) : List Viol :=
  lrOk al false o 8 [8, 9] { d := .w1, a := .w1, b := .w1, c := .w1, xmReq := true, f := true, rm := true, na := 7 }

/-- The destination codes of CVT and CVTP (R136, R138). -/
def cvtDsts : List Nat := [0, 1, 2, 3, 4, 5, 6, 7, 10, 11, 12, 13, 16, 17, 18, 19, 20]
def cvtpDsts : List Nat := [6, 7, 16, 17, 18, 19, 20]

/-- CVT and SCVT: the destination's width follows opx; neg and abs on a float source only (R136, R163). -/
def cvtOk (al : Alloc) (u : Bool) (o : Lr) : List Viol :=
  let x := o.xm.getD (xmDefault 0)
  let lim := if u then al.s else al.v
  let dst := x.opx.toNat
  let flt := tysF4.contains x.ty.toNat
  cat [[(o.xm.isNone, .xbit), (!tysCvt.contains x.ty.toNat, .type), (!cvtDsts.contains dst, .reserved),
      (o.b != 0, .zerobits)], xmFieldsOk x false true true true (if flt then 4 else 0),
      regOk lim o.d (if dst == 2 || dst == 3 || dst == 5 then 2 else 1), regOk lim o.a (tyRegs x.ty)]

/-- CVTP: c is a register for the narrow destinations, zero for the 16-bit ones (R138). -/
def cvtpOk (al : Alloc) (o : Lr) : List Viol :=
  let x := o.xm.getD (xmDefault 4)
  let dst := x.opx.toNat
  cat [[(o.xm.isNone, .xbit), (x.ty != 4, .type), (!cvtpDsts.contains dst, .reserved)], xmFieldsOk x true true true true 6,
      regOk al.v o.d 1, regOk al.v o.a 1, regOk al.v o.b 1, regOk al.v x.c (if dst == 6 || dst == 7 then 0 else 1)]

/-- PRMT: c names a register when XM is present (R139). The entry uses no type, so ty is zero by definition. -/
def prmtOk (al : Alloc) (o : Lr) : List Viol :=
  let x := o.xm.getD (xmDefault 0)
  cat [[(o.f, .zerobits), (x.ty != 0, .zerobits)], xmFieldsOk x true false false false 0, regOk al.v o.d 1, regOk al.v o.a 1,
      regOk al.v o.b 1, (if o.xm.isSome then regOk al.v x.c 1 else [])]

/-- An LR entry whose XM serves the guard only, so that it names no type: registers of d, a and b (R65). -/
def guardLr (al : Alloc) (o : Lr) (d a b : Nat) : List Viol :=
  let x := o.xm.getD (xmDefault 0)
  cat [[(o.f, .zerobits), (x.ty != 0, .zerobits)], xmFieldsOk x false false false false 0, regOk al.v o.d d,
      regOk al.v o.a a, regOk al.v o.b b]

/-- The SHFL family: seg codes 0 to 5 (R142). -/
def shflOk (al : Alloc) (o : Lr) : List Viol :=
  let x := o.xm.getD (xmDefault 0)
  cat [lrOk al false o 0 tysBits { b := .w1, opx := true },
      [(decide (5 < x.opx.toNat % 8), .reserved), (decide (8 ≤ x.opx.toNat), .zerobits)]]

/-- LRED and LSCAN: operation codes, the types of each, and .excl for LSCAN only (R144). -/
def lredOk (al : Alloc) (o : Lr) (scan : Bool) : List Viol :=
  let x := o.xm.getD (xmDefault 0)
  let op := x.opx.toNat % 16
  let flt := tysF2.contains x.ty.toNat
  let form : LrForm := { xmReq := true, f := true, rm := true, opx := true, na := if flt then 4 else 0 }
  cat [lrOk al false o 0 [0, 1, 2, 3, 4, 5, 14] form, [(decide (5 < op), .reserved),
      (decide (32 ≤ x.opx.toNat) || (!scan && x.opx.getLsbD 4), .zerobits),
        (decide (op < 3) && x.ty == 14, .type), (decide (2 < op) && decide (op < 6) && flt, .type)]]

/-- REORDER: .n32 only and unguarded (R152). -/
def reorderOk (al : Alloc) (o : Lr) : List Viol :=
  let x := o.xm.getD (xmDefault 1)
  cat [lrOk al false o 1 [1] { d := .z, a := .w1 }, [(x.p != 7 || x.n, .operand)]]

/-- An LK or UK word: k8 is zero beside XL (R66). -/
def lkOk (o : Lk) : List Viol := [(o.xl.isSome && o.k != 0, .zerobits)]

/-- The natural value of the immediate: k8 or the XL literal (R66). -/
def lkNat (o : Lk) : Nat := (o.xl.map BitVec.toNat).getD o.k.toNat

/-- d and a one register each (R112, R157). -/
def lk11 (al : Alloc) (u : Bool) (o : Lk) : List Viol :=
  let lim := if u then al.s else al.v
  cat [lkOk o, regOk lim o.d 1, regOk lim o.a 1]

/-- d one register, a zero. (DESIGN CHOICE: notes/assumptions/95) -/
def lk10 (al : Alloc) (u : Bool) (o : Lk) : List Viol :=
  let lim := if u then al.s else al.v
  cat [lkOk o, regOk lim o.d 1, regOk lim o.a 0]

/-- d and a zero. -/
def lk00 (o : Lk) : List Viol := cat [lkOk o, [(o.d != 0, .zerobits), (o.a != 0, .zerobits)]]

/-- Special registers of 64 bits, and those of the lane set only (R103). -/
def sr64 (k : Nat) : Bool := [0x01, 0x0D, 0x10, 0x11, 0x16].contains k
def srLaneOnly (k : Nat) : Bool := [0x00, 0x01, 0x02, 0x0D, 0x0E].contains k

/-- RDSR of either set (R103, R146, R166). -/
def rdsrOk (al : Alloc) (u : Bool) (o : Lk) : List Viol :=
  let k := lkNat o
  cat [lkOk o, [(decide (0x1B ≤ k), .reserved), (u && srLaneOnly k, .operand)], regOk 0 o.a 0,
      regOk (if u then al.s else al.v) o.d (if sr64 k then 2 else 1)]

/-- WRSR: only %fpmode and %gublock are writable (R104, R167). -/
def wrsrOk (al : Alloc) (o : Lk) : List Viol :=
  let k := lkNat o
  cat [lkOk o, [(decide (0x1B ≤ k), .reserved), (decide (k < 0x1B) && k != 0x0F && k != 0x11, .operand),
      (o.d != 0, .zerobits)], regOk al.s o.a (if k == 0x11 then 2 else 1)]

/-- MOVVS: a names a vector register (R164). -/
def movvsOk (al : Alloc) (o : Lk) : List Viol :=
  let k := lkNat o
  let pair := if k.testBit 6 then 2 else 1
  cat [lkOk o, [(decide (256 ≤ k) || k.testBit 5 || (k.testBit 7 && k % 32 != 0), .zerobits)], regOk al.s o.d pair,
      regOk al.v o.a pair]

/-- REGION: counts within the allocation (R175). -/
def regionOk (al : Alloc) (o : Lk) : List Viol :=
  cat [lkOk o, [(decide (2 ≤ lkNat o), .zerobits), (decide (al.v < o.d.toNat) || decide (al.s < o.a.toNat), .operand)]]

/-- TSTAT: the bitmap into a pair, or the entry of a tag of the group's range into a quad (R289). -/
def tstatOk (al : Alloc) (o : Lk) : List Viol :=
  let k := lkNat o
  let map := k.testBit 7
  let tag := k % 64
  cat [lkOk o, [(decide (256 ≤ k) || k.testBit 6 || (map && tag != 0), .zerobits), (o.a != 0, .zerobits),
      (!map && (decide (tag < al.tagBase) || decide (al.tagBase + al.tagCnt ≤ tag)), .operand)],
          regOk al.s o.d (if map then 2 else 4)]

/-- QSTAT (R293). -/
def qstatOk (al : Alloc) (o : Lk) : List Viol := cat [lk10 al true o, [(decide (8 ≤ lkNat o), .zerobits)]]

/-- ISETP, FSETP and their uniform kin: `cmax` is the greatest comparison code (R122, R158). -/
def setpOk (al : Alloc) (u : Bool) (o : Lp) (dty : BitVec 4) (types : List Nat) (cmax : Nat) (flt : Bool) : List Viol :=
  let x := o.xm.getD (xmDefault dty)
  let lim := if u then al.s else al.v
  cat [[(!flt && o.f, .zerobits), (!types.contains x.ty.toNat, .type), (decide (cmax < o.cc.toNat), .reserved)],
      xmFieldsOk x false false false false (if flt then 6 else 0), regOk lim o.a (tyRegs x.ty), regOk lim o.b (tyRegs x.ty)]

/-- PTOC: a names a predicate (R165). -/
def ptocOk (o : Lp) : List Viol :=
  let x := o.xm.getD (xmDefault 0)
  cat [[(o.f, .zerobits), (o.b != 0, .zerobits), (x.ty != 0, .zerobits), (decide (2 < o.cc.toNat), .reserved),
   (decide (120 ≤ o.a.toNat), .queue), (decide (16 ≤ o.a.toNat) && decide (o.a.toNat < 120), .operand)],
       xmFieldsOk x false false false false 0]

/-- The checks LV words share: the zero bits and an XM for the guard only (R60, R65). -/
def lvOk (o : Lv) : List Viol :=
  let x := o.xm.getD (xmDefault 0)
  cat [[(o.z != 0, .zerobits), (x.ty != 0, .zerobits)], xmFieldsOk x false false false false 0]

/-- PMOV (R127). -/
def pmovOk (al : Alloc) (o : Lv) : List Viol :=
  let m := o.mode.toNat
  cat [lvOk o, [(decide (3 < m), .reserved), (m != 1 && o.pd != 0, .zerobits), (m != 0 && o.ps != 0, .zerobits),
      (decide (2 ≤ m) && o.n, .zerobits)], regOk al.v o.d 1]

/-- VOTE and BALLOT (R143). -/
def voteOk (o : Lv) : List Viol := cat [lvOk o, [(decide (2 < o.mode.toNat), .reserved), (o.d != 0, .zerobits)]]
def ballotOk (al : Alloc) (o : Lv) : List Viol :=
  cat [lvOk o, [(o.mode != 0, .reserved), (o.pd != 0, .zerobits)], regOk al.v o.d 1]

/-- PLOP and CLOP (R126, R161). -/
def plopOk (o : Plop) : List Viol :=
  let x := o.xm.getD (xmDefault 0)
  cat [[(o.z != 0, .zerobits), (x.ty != 0, .zerobits)], xmFieldsOk x false false false false 0]

/-- XW's fields an entry does not use, and its reserved codes (R67, R70, R71). -/
def xwOk (o : Lm) (types : List Nat) (pol sc sub disp : Bool) : List Viol :=
  let x := o.xw
  [(o.z, .zerobits), (!types.contains x.ty.toNat, .type), (!pol && x.pol != 0, .zerobits), (!sc && x.sc != 0, .zerobits),
   (!sub && x.sub != 0, .zerobits), (!disp && x.disp != 0, .zerobits), (decide (5 < x.pol.toNat), .reserved),
   (decide (5 < x.sc.toNat), .reserved)]

/-- The sixteen type codes. -/
def tysAll : List Nat := [0, 1, 2, 3, 4, 5, 6, 7, 8, 9, 10, 11, 12, 13, 14, 15]

/-- A register when the form has one, else zero by definition. -/
def indexOk (lim : Nat) (code : BitVec 7) (ix : Bool) : List Viol := regOk lim code (if ix then 1 else 0)

/-- The global address forms, AM in sub[3:2] (R223). -/
def amOk (al : Alloc) (o : Lm) : List Viol :=
  match o.xw.sub.toNat / 4 with
  | 0 => cat [regOk al.s o.sb 2, regOk al.v o.a 0]
  | 1 => cat [regOk al.s o.sb 2, regOk al.v o.a 1]
  | 2 => cat [regOk al.v o.a 2, regOk al.s o.sb 0]
  | _ => [(true, .reserved)]

/-- Policy 5 on a store (R209). -/
def storePol (o : Lm) : List Viol := [(o.xw.pol == 5, .operand)]

/-- LD and ST (R226). -/
def globalOk (al : Alloc) (o : Lm) (store : Bool) : List Viol :=
  cat [xwOk o tysAll true false true true, amOk al o, [(o.xw.sub.toNat % 4 != 0, .zerobits)],
      regOk al.v o.d (tyRegs o.xw.ty), (if store then storePol o else [])]

/-- LDB and STB (R226): sD is a multiple of 4 (R223). -/
def bufferOk (al : Alloc) (o : Lm) (store : Bool) : List Viol :=
  cat [xwOk o tysAll true false true true, [(o.xw.sub.toNat % 8 != 0, .zerobits)], regOk al.v o.d (tyRegs o.xw.ty),
      indexOk al.v o.a (o.xw.sub.getLsbD 3), regOk al.s o.sb 4, (if store then storePol o else [])]

/-- LDS and STS: pol is zero by definition, but that policy 5 on STS has a reason of its own (R226). -/
def scratchOk (al : Alloc) (o : Lm) (store : Bool) : List Viol :=
  cat [xwOk o tysAll (store && o.xw.pol == 5) false true true, [(o.xw.sub.toNat % 8 != 0, .zerobits)],
      regOk al.v o.d (tyRegs o.xw.ty), indexOk al.v o.a (o.xw.sub.getLsbD 3), regOk al.s o.sb 0,
      (if store then storePol o else [])]

/-- The types an atomic operation accepts (R229). -/
def atomTys (op : Nat) : List Nat :=
  match op with
  | 0 => [0, 1, 2, 3, 4, 5, 8, 9]
  | 1 | 2 => [0, 1, 2, 3, 4, 5]
  | _ => [0, 14]

/-- What the three atomics share (R228): `scs` are the scopes accepted. -/
def atomOk (al : Alloc) (o : Lm) (scs : List Nat) : List Viol :=
  let op := o.xw.sub.toNat % 8
  cat [xwOk o (atomTys op) true true true true, [(decide (0 < o.xw.pol.toNat) && decide (o.xw.pol.toNat < 6), .operand),
        (!scs.contains o.xw.sc.toNat && decide (o.xw.sc.toNat < 6), .operand)],
            regOk al.v o.d (if op = 7 then (if o.xw.ty = 0 then 2 else 4) else tyRegs o.xw.ty)]

/-- The address forms of ATOM (R228). -/
def atomGlobalOk (al : Alloc) (o : Lm) : List Viol :=
  cat [atomOk al o [1, 2, 3, 4, 5], (if o.xw.sub.getLsbD 3 then cat [regOk al.v o.a 2,
      regOk al.s o.sb 0] else cat [regOk al.v o.a 1, regOk al.s o.sb 2])]
def atomBufferOk (al : Alloc) (o : Lm) : List Viol :=
  cat [atomOk al o [1, 2, 3, 4, 5], indexOk al.v o.a (o.xw.sub.getLsbD 3), regOk al.s o.sb 4]
def atomScratchOk (al : Alloc) (o : Lm) : List Viol :=
  cat [atomOk al o [1, 2], indexOk al.v o.a (o.xw.sub.getLsbD 3), regOk al.s o.sb 0]

/-- PRF: ty is zero by definition (R233). -/
def prfOk (al : Alloc) (o : Lm) : List Viol :=
  cat [xwOk o tysAll false false true true, [(o.xw.ty != 0, .zerobits), (o.d != 0, .zerobits),
      (decide (1 < o.xw.sub.toNat % 4), .reserved)], amOk al o]

/-- LDG and STG (R234). -/
def guardTagOk (al : Alloc) (o : Lm) : List Viol :=
  cat [xwOk o [0] false false true true, [(o.xw.sub.toNat % 4 != 0, .zerobits)], amOk al o, regOk al.v o.d 1]

/-- STQ and LDQ (R235): k vector registers aligned to k; the candidate mask stands in a. -/
def stapleOk (al : Alloc) (o : Lm) (store : Bool) : List Viol :=
  let gc := o.xw.sub.toNat / 4
  let wc := o.xw.sub.toNat % 4
  let k := 2 ^ (gc % 3)
  cat [xwOk o [4] true false true true, [(gc == 3, .reserved), (wc == 3, .reserved)], blockOk al.v o.d k k,
      regOk al.s o.sb 2, (if store then
          cat [storePol o, [(decide (16 ≤ o.a.toNat), .zerobits), (o.a.toNat % 16 == 0, .operand),
            (o.a.getLsbD 3 && (wc == 1 || wc == 2), .operand)]]
        else [(o.a != 0, .zerobits)])]

/-- The lane surface entries (R423): `n` registers from d on, aligned to `dal`, and `na` from a on. -/
def surfOk (al : Alloc) (o : Lm) (types : List Nat) (sub disp : Bool) (n dal na : Nat) : List Viol :=
  cat [xwOk o types false false sub disp, blockOk al.v o.d n dal, blockOk al.v o.a na 1, regOk al.s o.sb 2]
def ldpxOk (al : Alloc) (o : Lm) : List Viol := surfOk al o [1, 4] true false (o.xw.sub.toNat / 4 + 1) 1 1
def stpxOk (al : Alloc) (o : Lm) : List Viol :=
  cat [surfOk al o [1, 4] true true (o.xw.sub.toNat / 4 + 1 + o.xw.disp.toNat % 2) 1 1,
      [(decide (2 ≤ o.xw.disp.toNat), .zerobits)]]
def ldcfOk (al : Alloc) (o : Lm) : List Viol := cat [surfOk al o [0] true true 1 1 1,
    [(decide (8 ≤ o.xw.disp.toNat), .zerobits)]]
def stcfOk (al : Alloc) (o : Lm) : List Viol := cat [surfOk al o [0] true true 1 1 1,
    [(decide (4 ≤ o.xw.disp.toNat), .zerobits)]]
def smpOk (al : Alloc) (o : Lm) : List Viol := surfOk al o [4] true false 4 4 3
def dscOk (al : Alloc) (o : Lm) (n : Nat) : List Viol :=
  cat [xwOk o [4] false false true false, [(decide (4 ≤ o.xw.sub.toNat), .zerobits), (o.sb != 0, .zerobits)],
      blockOk al.v o.d n 4, blockOk al.v o.a 4 4]

/-- SLD and SST (R168). -/
def uniAccessOk (al : Alloc) (o : Lm) (store : Bool) : List Viol :=
  cat [xwOk o [0, 1, 2, 3, 10, 11, 12, 13, 14, 15] true false true true, [(o.xw.sub.toNat % 8 != 0, .zerobits)],
      regOk al.s o.d (tyRegs o.xw.ty), indexOk al.s o.a (o.xw.sub.getLsbD 3), regOk al.s o.sb 2,
      (if store then storePol o else [])]

/-- The line instructions (R356): scopes accepted, `none` where sc is zero by definition. -/
def lineOk (al : Alloc) (o : Lm) (scs : Option (List Nat)) (sub d : Bool) : List Viol :=
  cat [xwOk o [0] true scs.isSome sub true, [(decide (0 < o.xw.pol.toNat) && decide (o.xw.pol.toNat < 6), .operand),
        (scs.isSome && !(scs.getD []).contains o.xw.sc.toNat && decide (o.xw.sc.toNat < 6), .operand)],
            regOk al.s o.d (if d then 1 else 0), regOk al.s o.sb 2]
def locklOk (al : Alloc) (o : Lm) : List Viol :=
  cat [lineOk al o (some [2, 3, 4, 5]) true true, [(o.xw.sub.toNat % 8 != 0, .zerobits)],
      indexOk al.s o.a (o.xw.sub.getLsbD 3)]
def lineNoA (al : Alloc) (o : Lm) (scs : Option (List Nat)) (d : Bool) : List Viol :=
  cat [lineOk al o scs false d, regOk al.s o.a 0]

/-- WAITX and WAITV (R362). -/
def waitOk (al : Alloc) (o : Lm) : List Viol :=
  let acq := o.xw.sub.getLsbD 3
  cat [xwOk o tysInt false true true true, [(acq && o.xw.sc == 0, .operand), (!acq && o.xw.sc != 0, .zerobits),
      (decide (5 < o.xw.sub.toNat % 8), .reserved)], regOk al.s o.d (tyRegs o.xw.ty), regOk al.s o.a (tyRegs o.xw.ty),
      regOk al.s o.sb 2]

/-- UE fields an entry leaves zero: bits of sub outside `subs`, and the tag (R62). -/
def ueOk (o : Ue) (tag : Bool) (subs : BitVec 9) : List Viol :=
  [(o.sub &&& ~~~subs != 0, .zerobits), (!tag && o.tag != 0, .zerobits)]

/-- The engine commands (R280, R281). -/
def commandOk (al : Alloc) (o : Ue) : List Viol :=
  cat [ueOk o true 3, regOk al.s o.sp (if o.sub.getLsbD 1 then 1 else 2),
      [(decide (o.tag.toNat < al.tagBase) || decide (al.tagBase + al.tagCnt ≤ o.tag.toNat), .operand)]]

/-- EVENT (R180): with WR, sp is a pair; with IRQ, tag is a vector 0 to 15. -/
def eventOk (al : Alloc) (o : Ue) : List Viol :=
  let irq := o.sub.getLsbD 3
  let sc := o.sub.toNat % 8
  cat [ueOk o true 0x1F, regOk al.s o.sp (if o.sub.getLsbD 4 then 2 else 0),
      [(decide (sc < 4) || (irq && decide (15 < o.tag.toNat)), .operand), (decide (5 < sc), .reserved),
        (!irq && o.tag != 0, .zerobits)]]

def spawnOk (al : Alloc) (o : Ue) : List Viol := cat [ueOk o false 7, blockOk al.s o.sp 8 4]
def barOk (al : Alloc) (o : Ue) : List Viol :=
  cat [ueOk o true 0, regOk al.s o.sp 0, [(decide (al.bars ≤ o.tag.toNat), .operand)]]
def barpOk (al : Alloc) (o : Ue) : List Viol :=
  cat [ueOk o true 1, regOk al.s o.sp 1, [(decide (al.bars ≤ o.tag.toNat), .operand)]]
def fenceOk (o : Ue) : List Viol :=
  cat [ueOk o false 0x1F, regOk 0 o.sp 0, [(o.sub.toNat / 8 % 4 == 0, .reserved), (decide (5 < o.sub.toNat % 8), .reserved),
    (o.sub.toNat % 8 == 0, .operand)]]
def qbindOk (o : Ue) : List Viol :=
  let ep := o.tag.toNat % 16
  cat [ueOk o true 0, [(decide (o.sp.toNat < 120), .operand), (decide (6 < ep), .reserved),
    (ep != 1 && decide (16 ≤ o.tag.toNat), .zerobits)]]
def rtrigOk (al : Alloc) (o : Ue) : List Viol := cat [ueOk o true 1, regOk al.s o.sp 2,
    [(decide (15 < o.tag.toNat), .operand)]]
def sealOk (al : Alloc) (o : Ue) : List Viol :=
  cat [ueOk o true 1, regOk al.s o.sp 2, [(decide (16 ≤ o.tag.toNat) || (!o.sub.getLsbD 0 && o.tag != 0), .zerobits)]]

/-- The conditions of R74 for one instruction; none for the device's own steps. -/
def violations (al : Alloc) : Instr → List Viol
  | .iadd o | .isub o | .imul o => intRR al false o true
  | .imulh o | .imin o | .imax o => intRR al false o false
  | .imad o => madOk al false o
  | .idiv o => cat [lrOk al false o 0 tysInt { b := .wt, opx := true },
      [(decide (1 < (o.xm.getD (xmDefault 0)).opx.toNat), .reserved)]]
  | .iaddk o | .andk o | .ork o | .xork o | .shlk o | .shrk o | .sark o => lk11 al false o
  | .and o | .or o | .xor o | .andn o => bitRR al false o
  | .shl o | .shr o | .sar o => shiftRR al false o
  | .popc o | .clz o => countOk al false o
  | .brev o => lrOk al false o 0 tysBits {}
  | .bfe o => lrOk al false o 1 [1, 0] { d := .w1, a := .w1, b := .w1 }
  | .bfi o => lrOk al false o 0 [0] { d := .w1, a := .w1, b := .w1, c := .w1, xmReq := true }
  | .lea o => leaOk al false o
  | .isetp o => setpOk al false o 0 tysInt 5 false
  | .sel o => selOk al false o
  | .mov o => movOk al false o
  | .movk o => lk10 al false o
  | .movsv o => movsvOk al o
  | .plop o | .clop o => plopOk o
  | .pmov o => pmovOk al o
  | .fadd o | .fmul o => floatRR al false o tysF6 true
  | .ffma o => fmaOk al false o tysF6
  | .fmin o | .fmax o => floatRR al false o tysF6 false
  | .fsetp o => setpOk al false o 4 tysF4 13 true
  | .fdiv o => floatRR al false o tysF2 true
  | .rcp o | .rsq o | .sqrt o => floatR al o tysF2
  | .ex2 o | .lg2 o | .sinpi o | .cospi o => floatR al o [4]
  | .frnd o => floatR al o tysF4
  | .fclass o => lrOk al false o 4 tysF4 { d := .w1 }
  | .fscale o => lrOk al false o 4 tysF2 { b := .w1, f := true, rm := true, na := 4 }
  | .fdot2 o => fdot2Ok al o
  | .cvt o => cvtOk al false o
  | .cvtp o => cvtpOk al o
  | .prmt o => prmtOk al o
  | .flgrd o => guardLr al o 1 0 0
  | .flgclr o => cat [lk00 o, [(decide (32 ≤ lkNat o), .zerobits)]]
  | .shfl o | .shflup o | .shfldn o | .shflx o => shflOk al o
  | .vote o => voteOk o
  | .ballot o => ballotOk al o
  | .lred o => lredOk al o false
  | .lscan o => lredOk al o true
  | .matchLanes o => countOk al false o
  | .rdsr o => rdsrOk al false o
  | .brl _ | .call _ | .bra _ => []
  | .ret o | .exit o | .nop o | .yield o => [(o.z != 0, .zerobits)]
  | .jmpl o => guardLr al o 2 2 0
  | .reorder o => reorderOk al o
  | .svc o | .bkpt o => lk00 o
  | .ld o => globalOk al o false
  | .st o => globalOk al o true
  | .ldb o => bufferOk al o false
  | .stb o => bufferOk al o true
  | .lds o => scratchOk al o false
  | .sts o => scratchOk al o true
  | .atom o => atomGlobalOk al o
  | .atomb o => atomBufferOk al o
  | .atoms o => atomScratchOk al o
  | .prf o => prfOk al o
  | .ldg o | .stg o => guardTagOk al o
  | .stq o => stapleOk al o true
  | .ldq o => stapleOk al o false
  | .ldpx o => ldpxOk al o
  | .stpx o => stpxOk al o
  | .ldcf o => ldcfOk al o
  | .stcf o => stcfOk al o
  | .smp o => smpOk al o
  | .dscl o => dscOk al o 5
  | .dscf o => dscOk al o 4
  | .sadd o | .ssub o | .smul o => intRR al true o true
  | .saddk o | .sshlk o | .sshrk o => lk11 al true o
  | .smad o => madOk al true o
  | .smin o | .smax o => intRR al true o false
  | .sand o | .sor o | .sxor o => bitRR al true o
  | .sshl o | .sshr o | .ssar o => shiftRR al true o
  | .spopc o | .sclz o => countOk al true o
  | .slea o => leaOk al true o
  | .ssetc o => setpOk al true o 0 tysInt 5 false
  | .ssel o => selOk al true o
  | .smov o => movOk al true o
  | .smovk o => lk10 al true o
  | .sfadd o | .sfmul o => floatRR al true o tysF4 true
  | .sffma o => fmaOk al true o tysF4
  | .sfsetc o => setpOk al true o 4 tysF4 13 true
  | .scvt o => cvtOk al true o
  | .movvs o => movvsOk al o
  | .rdsrUniform o => rdsrOk al true o
  | .wrsr o => wrsrOk al o
  | .sld o => uniAccessOk al o false
  | .sst o => uniAccessOk al o true
  | .ptoc o => ptocOk o
  | .jmp o => lrOk al true o 14 [14] { d := .z, a := .w2 }
  | .brx o => lrOk al true o 1 [1] { d := .w1, a := .w2, b := .w1 }
  | .region o => regionOk al o
  | .spawn o => spawnOk al o
  | .join o => cat [ueOk o false 0, regOk al.s o.sp 2]
  | .event o => eventOk al o
  | .eventLiteral o => cat [eventOk al o.ue, [(!o.ue.sub.getLsbD 4, .xbit)]]
  | .rtrig o => rtrigOk al o
  | .bar o => barOk al o
  | .barp o => barpOk al o
  | .fence o => fenceOk o
  | .lockl o => locklOk al o
  | .unlockl o => lineNoA al o (some [2, 3, 4, 5]) false
  | .pinl o => lineNoA al o (some [0, 3, 4]) true
  | .unpinl o => lineNoA al o none false
  | .lstat o => lineNoA al o none true
  | .waitx o | .waitv o => waitOk al o
  | .cpy o | .cpyg o | .cpyd o | .mxa o | .mxc o | .mxz o | .mxld o | .mxst o => commandOk al o
  | .twait o => cat [ueOk o false 1, regOk al.s o.sp 2]
  | .tfirst o => lrOk al true o 14 [14] { d := .w1, a := .w2 }
  | .tstat o => tstatOk al o
  | .qbind o => qbindOk o
  | .qfree o => cat [ueOk o false 0, [(decide (o.sp.toNat < 120), .operand)]]
  | .qstat o => qstatOk al o
  | .tdesc o => cat [ueOk o true 0, regOk al.s o.sp 4, [(decide (16 ≤ o.tag.toNat), .zerobits)]]
  | .seal o => sealOk al o
  | .stmv o | .surfclr o => cat [ueOk o false 0, regOk al.s o.sp 4]
  | .tbegin o => cat [ueOk o false 0, regOk al.s o.sp 2]
  | .tflush o => cat [ueOk o false 0, regOk al.s o.sp 0]
  | .illegalWord _ _ _ | .fetchFault _ _ | .resultWriteback _ _ | .issueRotation _ | .fenceComplete _
  | .runAheadEnd _ | .invalidation _ _ | .evictionNotice _ _ | .writebackMerge _ _ | .uncorrectableError _
  | .qdoorWrite _ _ _ | .triggerWrite _ _ _ | .qcfgWrite _ _ _ _ | .registerWrite _ _ _ | .linkerrWrite _
  | .detctlWrite _ _ | .partitionWrite _ _ _ | .diecapWrite _ _ | .xinv _ | .harvest _ | .mmcmdDone _ _ | .image _
  | .attest _ | .identity _ | .readlog _ | .clearlog _ | .streamtab _ | .streamstart _ | .streamstop _
  | .mailboxComplete _ _ _ | .packetNop _ _ | .packetLaunch _ _ | .packetWait _ _ | .waitPacketWake _ _
  | .reelRunBegin _ _ | .spoolPop _ _ _ | .slotGrant _ | .quantumExpiry _ | .plyDispatch _ | .preemptComplete _
  | .groupSave _ | .groupReplace _ | .groupRetire _ | .faultRecord _ | .retry _ | .skip _ | .supply _ | .killSkein _
  | .killLaunch _ | .killContext _ | .svcResume _ | .svcKill _ | .watchdogExpiry _ | .deadlockCheck _
  | .lockTimeout _ | .waitWake _ | .engineStart _ | .engineComplete _ | .engineStop _ | .surfaceOpApply _
  | .partialRenderEnd _ | .tileRoundStart _ _ | .frameDue _ _ | .frameDeadline _ _ | .tileRowEmit _ _ | .snpdata _
  | .snpinv _ | .snpcur _ | .hostMemRead _ _ | .hostMemWrite _ _ _ | .hostLineGrant _ _ _ _ | .bisnpResponse _ _
  | .peerMemWrite _ _ | .peerMemRead _ _ | .peerAtomicIn _ _ _ _ _ | .linkDown _ | .clockStep _ _ | .thermalHold _
  | .criticalTemperature _ | .powerGate _ | .reset | .deviceStart _ | .surfaceWriteRegistered _ | .requestRingWrite _ => []

/-- The reason an instruction is no word of a skein with allocation `al` (R74, R75); `none` when it is one.
(DEDUCED: notes/assumptions/19, 44) -/
def illegalReason (al : Alloc) (i : Instr) : Option Reason := lowestReason (violations al i)

end Sys2Proof.Machine
end

