-- ==== Sys2Proof/Machine/Flags.lean ====
section
/-!
DEFINITION. Numbers and the exceptions their rounding signals: the floating formats (R240 to R244), exact values, Round of R107
and R246 with the overflow rules of R137 and the flags of R104 and R110, and the flag computations of every float entry.
-/

namespace Sys2Proof.Machine

/-! ## Flags -/

/-- The sticky flags (R104), from bit 0: invalid, divide-by-zero, overflow, underflow, inexact. -/
abbrev FFlags := BitVec 5

def fInvalid : FFlags := 1
def fDivZero : FFlags := 2
def fOverflow : FFlags := 4
def fUnderflow : FFlags := 8
def fInexact : FFlags := 16

/-- A flag when a condition holds. -/
def fWhen (c : Bool) (f : FFlags) : FFlags := if c then f else 0

/-! ## Formats -/

/-- What a format has beyond numbers (R241, R243): ∞ and NaN, E4M3's one NaN, or neither. -/
inductive Special where
  | ieee | e4m3 | none
  deriving DecidableEq, Repr

/-- A binary floating format (R240, R242): exponent bits, fraction bits, bias, specials, and whether its NaNs may signal. -/
structure Fmt where
  e : Nat
  f : Nat
  bias : Nat
  sp : Special
  sig : Bool
  deriving DecidableEq, Repr

def fmtF64 : Fmt := { e := 11, f := 52, bias := 1023, sp := .ieee, sig := true }
def fmtF32 : Fmt := { e := 8, f := 23, bias := 127, sp := .ieee, sig := true }
def fmtF16 : Fmt := { e := 5, f := 10, bias := 15, sp := .ieee, sig := true }
def fmtBF16 : Fmt := { e := 8, f := 7, bias := 127, sp := .ieee, sig := true }
def fmtE5M2 : Fmt := { e := 5, f := 2, bias := 15, sp := .ieee, sig := false }
def fmtE4M3 : Fmt := { e := 4, f := 3, bias := 7, sp := .e4m3, sig := false }
def fmtE3M2 : Fmt := { e := 3, f := 2, bias := 3, sp := .none, sig := false }
def fmtE2M3 : Fmt := { e := 2, f := 3, bias := 1, sp := .none, sig := false }
def fmtE2M1 : Fmt := { e := 2, f := 1, bias := 1, sp := .none, sig := false }

/-- The width of a format in bits. -/
def fmtWidth (k : Fmt) : Nat := 1 + k.e + k.f

/-- An exact value: NaN (signalling or not, with its sign), ±∞, or ±m·2^e. -/
inductive FVal where
  | nan (sig neg : Bool)
  | inf (neg : Bool)
  | fin (neg : Bool) (m : Nat) (e : Int)
  deriving DecidableEq, Repr

/-- The value of a bit pattern (R241, R243); a narrow format's NaN is the canonical one, without its sign. -/
def fdecode (k : Fmt) (x : Nat) : FVal :=
  let neg := x.testBit (k.e + k.f)
  let ex := x / 2 ^ k.f % 2 ^ k.e
  let fr := x % 2 ^ k.f
  let top := 2 ^ k.e - 1
  let num : FVal :=
    if ex = 0 then .fin neg fr (1 - (k.bias : Int) - k.f) else .fin neg (2 ^ k.f + fr) ((ex : Int) - k.bias - k.f)
  match k.sp with
  | .none => num
  | .e4m3 => if ex = top ∧ fr = 2 ^ k.f - 1 then .nan false false else num
  | .ieee =>
    if ex = top then
      if fr = 0 then .inf neg else .nan (k.sig && !fr.testBit (k.f - 1)) (k.sig && neg)
    else num

/-- The sign bit of a format. -/
def fsignBit (k : Fmt) (neg : Bool) : Nat := if neg then 2 ^ (k.e + k.f) else 0

/-- The canonical NaN of a format (R110); of E4M3 and E5M2 with the sign of its source (R137). A format without NaN has none. -/
def fnan (k : Fmt) (neg : Bool) : Nat :=
  match k.sp with
  | .none => 0
  | .e4m3 => fsignBit k neg + 2 ^ (k.e + k.f) - 1
  | .ieee =>
    if k.sig then (2 ^ k.e - 1) * 2 ^ k.f + 2 ^ (k.f - 1) else fsignBit k neg + (2 ^ k.e - 1) * 2 ^ k.f + 2 ^ (k.f - 1)

/-- ±∞ of a format that has it. -/
def finf (k : Fmt) (neg : Bool) : Nat := fsignBit k neg + (2 ^ k.e - 1) * 2 ^ k.f

/-- The pattern of the largest finite magnitude (R240, R242). -/
def fmaxMag (k : Fmt) : Nat :=
  match k.sp with
  | .ieee => (2 ^ k.e - 1) * 2 ^ k.f - 1
  | .e4m3 => 2 ^ (k.e + k.f) - 2
  | .none => 2 ^ (k.e + k.f) - 1

/-- ± the largest finite value. -/
def fmaxPat (k : Fmt) (neg : Bool) : Nat := fsignBit k neg + fmaxMag k

/-- Bits needed for a natural number. -/
def bitLen (n : Nat) : Nat := if n = 0 then 0 else n.log2 + 1

/-- Whether a magnitude cut to `n`, with remainder `rem` of `2^s` and something below it when `sticky`, goes up by one in rounding
code `rm` (R69). -/
def roundsUp (rm : Nat) (neg : Bool) (n rem s : Nat) (sticky : Bool) : Bool :=
  let half := 2 ^ s / 2
  let exact := rem == 0 && !sticky
  match rm with
  | 1 => false
  | 2 => !neg && !exact
  | 3 => neg && !exact
  | 4 => s != 0 && decide (half ≤ rem)
  | _ => s != 0 && (decide (half < rem) || (rem == half && (sticky || n % 2 == 1)))

/-- A magnitude m·2^e, a little more when `sticky`, in whole units of 2^q: the units and whether anything was lost. -/
def roundUnits (rm : Nat) (neg : Bool) (m : Nat) (e q : Int) (sticky : Bool) : Nat × Bool :=
  if q ≤ e then (m * 2 ^ (e - q).toNat, sticky)
  else
    let s := (q - e).toNat
    let n := m / 2 ^ s
    let rem := m % 2 ^ s
    (if roundsUp rm neg n rem s sticky then n + 1 else n, rem != 0 || sticky)

/-- The result of a value that overflows (R137): ∞ or the largest value by rounding code, E4M3's NaN, the largest value. -/
def foverflow (k : Fmt) (rm : Nat) (sat neg : Bool) : Nat :=
  if sat then fmaxPat k neg
  else match k.sp with
    | .none => fmaxPat k neg
    | .e4m3 => fnan k neg
    | .ieee =>
      let away := match rm with
        | 1 => false
        | 2 => !neg
        | 3 => neg
        | _ => true
      if away then finf k neg else fmaxPat k neg

/-- Round (R107, R246): the pattern and the flags of ±m·2^e, plus something smaller than 2^e when `sticky`. A caller that sets
`sticky` gives more bits than the format has. -/
def fround (k : Fmt) (rm : Nat) (sat neg : Bool) (m : Nat) (e : Int) (sticky : Bool) : Nat × FFlags :=
  if m = 0 then
    if sticky then
      let up := roundsUp rm neg 0 1 2 true
      (fsignBit k neg + (if up then 1 else 0), fUnderflow ||| fInexact)
    else (fsignBit k neg, 0)
  else
    let emin : Int := 1 - (k.bias : Int)
    let top : Int := (bitLen m : Int) - 1 + e
    let q0 := top - k.f
    let q := max q0 (emin - k.f)
    let (n, lost) := roundUnits rm neg m e q sticky
    let (n0, _) := roundUnits rm neg m e q0 sticky
    let tiny := decide (top < emin) && !(decide (top = emin - 1) && n0 == 2 ^ (k.f + 1))
    let mag : Int := (q + k.f + k.bias - 1) * 2 ^ k.f + n
    if mag > fmaxMag k then (foverflow k rm sat neg, fOverflow ||| fInexact)
    else (fsignBit k neg + mag.toNat, fWhen lost fInexact ||| fWhen (tiny && lost) fUnderflow)

/-! ## Float arithmetic of one element -/

/-- The rounding code and FTZ an operation runs under (R69, R104, R110). -/
structure FEnv where
  rm : Nat
  ftz : Bool
  deriving DecidableEq, Repr

/-- A source of format `k`, read under FTZ when it is .f32 (R110). -/
def fread (k : Fmt) (env : FEnv) (x : Nat) : FVal :=
  match fdecode k x with
  | .fin neg m e => if env.ftz && k == fmtF32 && decide (m < 2 ^ k.f) then .fin neg 0 e else .fin neg m e
  | v => v

/-- A result under FTZ: an .f32 subnormal becomes zero of its sign and signals underflow and inexact (R110). -/
def fflush (k : Fmt) (env : FEnv) (r : Nat × FFlags) : Nat × FFlags :=
  let mag := r.1 % 2 ^ (k.e + k.f)
  if env.ftz && k == fmtF32 && mag != 0 && decide (mag < 2 ^ k.f) then
    (r.1 - mag, r.2 ||| fUnderflow ||| fInexact)
  else r

/-- Round under an environment, FTZ included. -/
def frnd' (k : Fmt) (env : FEnv) (neg : Bool) (m : Nat) (e : Int) (sticky : Bool) : Nat × FFlags :=
  fflush k env (fround k env.rm false neg m e sticky)

/-- Whether a value is a NaN, and whether a signalling one. -/
def fisNan : FVal → Bool
  | .nan _ _ => true
  | _ => false
def fisSig : FVal → Bool
  | .nan s _ => s
  | _ => false
def fneg : FVal → FVal
  | .nan s n => .nan s (!n)
  | .inf n => .inf (!n)
  | .fin n m e => .fin (!n) m e
def fsign : FVal → Bool
  | .nan _ n => n
  | .inf n => n
  | .fin n _ _ => n
def fisZero : FVal → Bool
  | .fin _ m _ => m == 0
  | _ => false

/-- The exact signed integer of a finite value in units of 2^u, with u at most its exponent. -/
def funits (neg : Bool) (m : Nat) (e u : Int) : Int :=
  let x : Int := (m * 2 ^ (e - u).toNat : Nat)
  if neg then -x else x

/-- The exact sum of two finite values: its signed units and their exponent. -/
def fsumExact (n1 : Bool) (m1 : Nat) (e1 : Int) (n2 : Bool) (m2 : Nat) (e2 : Int) : Int × Int :=
  let u := min e1 e2
  (funits n1 m1 e1 u + funits n2 m2 e2 u, u)

/-- A NaN result (R110). -/
def fnanRes (k : Fmt) (fl : FFlags) : Nat × FFlags := (fnan k false, fl)

/-- A + B for values of any format, rounded once into `k` (R129): signs of exact zero sums as IEEE 754 has them. -/
def faddVal (k : Fmt) (env : FEnv) (a b : FVal) : Nat × FFlags :=
  match a, b with
  | .fin n1 m1 e1, .fin n2 m2 e2 =>
    let (x, u) := fsumExact n1 m1 e1 n2 m2 e2
    if x = 0 then
      let neg := if n1 == n2 then n1 else env.rm == 3
      (fsignBit k neg, 0)
    else frnd' k env (decide (x < 0)) x.natAbs u false
  | .inf n1, .inf n2 => if n1 == n2 then (finf k n1, 0) else fnanRes k fInvalid
  | .inf n, .fin _ _ _ => (finf k n, 0)
  | .fin _ _ _, .inf n => (finf k n, 0)
  | x, y => fnanRes k (fWhen (fisSig x || fisSig y) fInvalid)

/-- The exact product of two values: NaN only for 0 × ∞ or a NaN. -/
def fmulExact (a b : FVal) : FVal × FFlags :=
  match a, b with
  | .fin n1 m1 e1, .fin n2 m2 e2 => (.fin (n1 != n2) (m1 * m2) (e1 + e2), 0)
  | .inf n1, .inf n2 => (.inf (n1 != n2), 0)
  | .inf n1, .fin n2 m _ => if m = 0 then (.nan false false, fInvalid) else (.inf (n1 != n2), 0)
  | .fin n1 m _, .inf n2 => if m = 0 then (.nan false false, fInvalid) else (.inf (n1 != n2), 0)
  | x, y => (.nan false false, fWhen (fisSig x || fisSig y) fInvalid)

/-- A value of any size rounded into `k`. -/
def froundVal (k : Fmt) (env : FEnv) (v : FVal) (fl : FFlags) : Nat × FFlags :=
  match v with
  | .nan _ _ => fnanRes k fl
  | .inf n => (finf k n, fl)
  | .fin n m e =>
    let r := frnd' k env n m e false
    (r.1, r.2 ||| fl)

/-- A × B (R129). -/
def fmulVal (k : Fmt) (env : FEnv) (a b : FVal) : Nat × FFlags :=
  let (p, fl) := fmulExact a b
  froundVal k env p fl

/-- A × B + C with one rounding; invalid for 0 × ∞ even when C is a quiet NaN (R129). -/
def ffmaVal (k : Fmt) (env : FEnv) (a b c : FVal) : Nat × FFlags :=
  let (p, fl) := fmulExact a b
  match p with
  | .nan _ _ => fnanRes k (fl ||| fWhen (fisSig c) fInvalid)
  | p =>
    let r := faddVal k env p c
    (r.1, r.2 ||| fl)

/-- A0·B0 + A1·B1 + C, exact, rounded once (R135). -/
def fdot2Val (k : Fmt) (env : FEnv) (a0 b0 a1 b1 c : FVal) : Nat × FFlags :=
  let (p, f1) := fmulExact a0 b0
  let (q, f2) := fmulExact a1 b1
  let fl := f1 ||| f2 ||| fWhen (fisSig c) fInvalid
  match p, q, c with
  | .nan _ _, _, _ => fnanRes k fl
  | _, .nan _ _, _ => fnanRes k fl
  | _, _, .nan _ _ => fnanRes k fl
  | .fin n1 m1 e1, .fin n2 m2 e2, .fin n3 m3 e3 =>
    let u := min e1 (min e2 e3)
    let x := funits n1 m1 e1 u + funits n2 m2 e2 u + funits n3 m3 e3 u
    if x = 0 then
      let neg := if n1 == n2 && n2 == n3 then n1 else env.rm == 3
      (fsignBit k neg, 0)
    else frnd' k env (decide (x < 0)) x.natAbs u false
  | p, q, c =>
    let infs := [p, q, c].filter fun v => match v with | .inf _ => true | _ => false
    if infs.any fsign && infs.any (fun v => !fsign v) then fnanRes k (fl ||| fInvalid)
    else (finf k (infs.any fsign), fl)

/-- Comparison of finite or infinite values: less, equal or greater; zeros are equal. `none` when unordered. -/
def fcmp (a b : FVal) : Option Ordering :=
  match a, b with
  | .nan _ _, _ => none
  | _, .nan _ _ => none
  | .inf n1, .inf n2 => some (if n1 == n2 then .eq else if n1 then .lt else .gt)
  | .inf n, .fin _ _ _ => some (if n then .lt else .gt)
  | .fin _ _ _, .inf n => some (if n then .gt else .lt)
  | .fin n1 m1 e1, .fin n2 m2 e2 =>
    let u := min e1 e2
    some (compare (funits n1 m1 e1 u) (funits n2 m2 e2 u))

/-- minimumNumber and maximumNumber (R130): −0 below +0, one NaN gives the other source. Sources and result are patterns; `x`
and `y` are the patterns after abs, neg and FTZ. -/
def fminmax (k : Fmt) (env : FEnv) (mx : Bool) (x y : Nat) : Nat × FFlags :=
  let a := fread k env x
  let b := fread k env y
  let fl := fWhen (fisSig a || fisSig b) fInvalid
  let pat (v : FVal) (p : Nat) : Nat := if fisZero v then fsignBit k (fsign v) else p
  match fisNan a, fisNan b with
  | true, true => (fnan k false, fl)
  | true, false => (pat b y, fl)
  | false, true => (pat a x, fl)
  | false, false =>
    let less := match fcmp a b with
      | some .lt => true
      | some .eq => fsign a && !fsign b
      | _ => false
    (if less != mx then pat a x else pat b y, fl)

/-- FSETP (R122): the result and flags of comparison code `cc`. -/
def fcompare (cc : Nat) (a b : FVal) : Bool × FFlags :=
  let o := fcmp a b
  let rel (c : Nat) : Bool :=
    match o with
    | none => false
    | some o => match c with
      | 0 => o == .eq
      | 1 => o != .eq
      | 2 => o == .lt
      | 3 => o != .gt
      | 4 => o == .gt
      | _ => o != .lt
  let un := o.isNone
  let r := if cc < 6 then rel cc else if cc = 6 then !un else if cc = 7 then un else un || rel (cc - 8)
  (r, fWhen (fisSig a || fisSig b || (decide (2 ≤ cc) && decide (cc ≤ 5) && un)) fInvalid)

/-! ## Division, roots and the transcendental functions (R131), each correctly rounded -/

/-- Bits carried beyond the widest format by a quotient or a root. -/
def guardBits : Nat := 128

/-- The largest r with r·r ≤ n, found bit by bit from bit `i` down. -/
def isqrtFrom (n i r : Nat) : Nat :=
  let r' := if (r + 2 ^ i) * (r + 2 ^ i) ≤ n then r + 2 ^ i else r
  match i with
  | 0 => r'
  | j + 1 => isqrtFrom n j r'

/-- The integer square root. -/
def isqrt (n : Nat) : Nat := isqrtFrom n (bitLen n / 2 + 1) 0

/-- Division (R131). -/
def fdivVal (k : Fmt) (env : FEnv) (a b : FVal) : Nat × FFlags :=
  match a, b with
  | .fin n1 m1 e1, .fin n2 m2 e2 =>
    let neg := n1 != n2
    if m2 = 0 then
      if m1 = 0 then fnanRes k fInvalid else (finf k neg, fDivZero)
    else
      let s := guardBits + bitLen m2
      frnd' k env neg (m1 * 2 ^ s / m2) (e1 - e2 - s) (m1 * 2 ^ s % m2 != 0)
  | .inf _, .inf _ => fnanRes k fInvalid
  | .inf n1, .fin n2 _ _ => (finf k (n1 != n2), 0)
  | .fin n1 _ _, .inf n2 => (fsignBit k (n1 != n2), 0)
  | x, y => fnanRes k (fWhen (fisSig x || fisSig y) fInvalid)

/-- 1/A. -/
def frcpVal (k : Fmt) (env : FEnv) (a : FVal) : Nat × FFlags := fdivVal k env (.fin false 1 0) a

/-- √A. -/
def fsqrtVal (k : Fmt) (env : FEnv) (a : FVal) : Nat × FFlags :=
  match a with
  | .nan s _ => fnanRes k (fWhen s fInvalid)
  | .inf n => if n then fnanRes k fInvalid else (finf k false, 0)
  | .fin n m e =>
    if m = 0 then (fsignBit k n, 0)
    else if n then fnanRes k fInvalid
    else
      let (m, e) := if e % 2 = 0 then (m, e) else (2 * m, e - 1)
      let w := m * 2 ^ (2 * guardBits)
      let r := isqrt w
      frnd' k env false r (e / 2 - guardBits) (r * r != w)

/-- 1/√A. -/
def frsqVal (k : Fmt) (env : FEnv) (a : FVal) : Nat × FFlags :=
  match a with
  | .nan s _ => fnanRes k (fWhen s fInvalid)
  | .inf n => if n then fnanRes k fInvalid else (fsignBit k false, 0)
  | .fin n m e =>
    if m = 0 then (finf k n, fDivZero)
    else if n then fnanRes k fInvalid
    else
      let (m, e) := if e % 2 = 0 then (m, e) else (2 * m, e - 1)
      let s := 2 * guardBits + 2 * bitLen m
      let w := 2 ^ s / m
      let r := isqrt w
      frnd' k env false r (-(e / 2) - (s / 2 : Nat)) (r * r * m != 2 ^ s)

/-- Fraction bits of the fixed-point evaluations below: their error is far below the distance of any .f32 argument's result
from a rounding boundary. -/
def fpBits : Nat := 400

/-- Σ over j < n of (±1)^j · z^(2j+1)/(2j+1), in fixed point, with `pw` = z^(2j+1). -/
def atanSeries (alt : Bool) (z2 : Nat) : Nat → Nat → Nat → Int
  | 0, _, _ => 0
  | n + 1, j, pw =>
    let t : Int := (pw / (2 * j + 1) : Nat)
    (if alt && j % 2 == 1 then -t else t) + atanSeries alt z2 n (j + 1) (pw * z2 / 2 ^ fpBits)

/-- ln 2 = 2·artanh(1/3). -/
def ln2Fixed : Nat :=
  let z := 2 ^ fpBits / 3
  (2 * atanSeries false (z * z / 2 ^ fpBits) 140 0 z).toNat

/-- π = 16·arctan(1/5) − 4·arctan(1/239). -/
def piFixed : Nat :=
  let z5 := 2 ^ fpBits / 5
  let z239 := 2 ^ fpBits / 239
  (16 * atanSeries true (z5 * z5 / 2 ^ fpBits) 100 0 z5 - 4 * atanSeries true (z239 * z239 / 2 ^ fpBits) 40 0 z239).toNat

/-- Σ over j of y^j/j!, from the term `t` of number `j` on. -/
def expSeries (y : Nat) : Nat → Nat → Nat → Nat
  | 0, _, _ => 0
  | n + 1, j, t => t + expSeries y n (j + 1) (t * y / 2 ^ fpBits / (j + 1))

/-- Σ over j of (−1)^j·y^(2j+1)/(2j+1)!. -/
def sinSeries (y2 : Nat) : Nat → Nat → Nat → Int
  | 0, _, _ => 0
  | n + 1, j, t =>
    (if j % 2 == 0 then (t : Int) else -(t : Int)) + sinSeries y2 n (j + 1) (t * y2 / 2 ^ fpBits / ((2 * j + 2) * (2 * j + 3)))

/-- A fixed-point result whose lowest bits are not exact, rounded: those bits are dropped and the rest is inexact. -/
def frndApprox (k : Fmt) (env : FEnv) (neg : Bool) (x : Nat) (scale : Int) : Nat × FFlags :=
  frnd' k env neg (x / 2 ^ 40) (scale + 40) true

/-- 2^A (R131). -/
def fex2Val (k : Fmt) (env : FEnv) (a : FVal) : Nat × FFlags :=
  match a with
  | .nan s _ => fnanRes k (fWhen s fInvalid)
  | .inf n => if n then (fsignBit k false, 0) else (finf k false, 0)
  | .fin n m e =>
    if m = 0 then frnd' k env false 1 0 false
    else if 10 < (bitLen m : Int) + e then
      if n then frnd' k env false 1 (-2000) true else frnd' k env false 1 2000 true
    else if (bitLen m : Int) + e < -100 then
      if n then frnd' k env false (2 ^ 128 - 1) (-128) true else frnd' k env false (2 ^ 128) (-128) true
    else
      let x : Int := funits n m e (min e 0)
      let u : Nat := 2 ^ (-(min e 0)).toNat
      let ip := x.fdiv u
      let fr := (x.fmod u).toNat
      if fr = 0 then frnd' k env false 1 ip false
      else
        let y := fr * 2 ^ fpBits / u * ln2Fixed / 2 ^ fpBits
        frndApprox k env false (expSeries y 100 0 (2 ^ fpBits)) (ip - fpBits)

/-- log2 A (R131). -/
def flg2Val (k : Fmt) (env : FEnv) (a : FVal) : Nat × FFlags :=
  match a with
  | .nan s _ => fnanRes k (fWhen s fInvalid)
  | .inf n => if n then fnanRes k fInvalid else (finf k false, 0)
  | .fin n m e =>
    if m = 0 then (finf k true, fDivZero)
    else if n then fnanRes k fInvalid
    else
      let l := bitLen m - 1
      let ex : Int := (l : Int) + e
      if m = 2 ^ l then frnd' k env (decide (ex < 0)) ex.natAbs 0 false
      else
        let z := (m - 2 ^ l) * 2 ^ fpBits / (m + 2 ^ l)
        let ln := (2 * atanSeries false (z * z / 2 ^ fpBits) 140 0 z).toNat
        let t : Int := ex * 2 ^ fpBits + (ln * 2 ^ fpBits / ln2Fixed : Nat)
        frndApprox k env (decide (t < 0)) t.natAbs (-(fpBits : Int))

/-- sin(π·r/u) for 0 ≤ r/u ≤ 1/2, with sign `neg`. -/
def sinPiReduced (k : Fmt) (env : FEnv) (neg : Bool) (r u : Nat) : Nat × FFlags :=
  if r = 0 then (fsignBit k neg, 0)
  else if 2 * r = u then frnd' k env neg 1 0 false
  else
    let y := r * 2 ^ fpBits / u * piFixed / 2 ^ fpBits
    frndApprox k env neg (sinSeries (y * y / 2 ^ fpBits) 80 0 y).toNat (-(fpBits : Int))

/-- sin πA and cos πA (R131). -/
def fsinpiVal (k : Fmt) (env : FEnv) (cos : Bool) (a : FVal) : Nat × FFlags :=
  match a with
  | .nan s _ => fnanRes k (fWhen s fInvalid)
  | .inf _ => fnanRes k fInvalid
  | .fin n m e =>
    let u := 2 ^ (-(min e 0)).toNat
    let x := m * 2 ^ (max e 0).toNat
    let r := x % (2 * u)
    if cos then
      if m = 0 then frnd' k env false 1 0 false
      else if 2 * r = u ∨ 2 * r = 3 * u then (fsignBit k false, 0)
      else
        -- cos(πr) on [0, 2) through sin of the distance to the nearest zero, at double scale
        let q := if r ≤ u then r else 2 * u - r
        if 2 * q ≤ u then sinPiReduced k env false (u - 2 * q) (2 * u) else sinPiReduced k env true (2 * q - u) (2 * u)
    else if x % u = 0 then (fsignBit k n, 0)
    else
      let neg := n != decide (u < r)
      let q := r % u
      if 2 * q ≤ u then sinPiReduced k env neg q u else sinPiReduced k env neg (u - q) u

/-- FRND (R132): an integral value in direction `rm`, never inexact. -/
def ffrndVal (k : Fmt) (env : FEnv) (a : FVal) : Nat × FFlags :=
  match a with
  | .nan s _ => fnanRes k (fWhen s fInvalid)
  | .inf n => (finf k n, 0)
  | .fin n m e =>
    let (r, _) := roundUnits env.rm n m e 0 false
    ((fround k 1 false n r 0 false).1, 0)

/-- A × 2^n with one rounding (R134). -/
def fscaleVal (k : Fmt) (env : FEnv) (a : FVal) (n : Int) : Nat × FFlags :=
  match a with
  | .nan s _ => fnanRes k (fWhen s fInvalid)
  | .inf neg => (finf k neg, 0)
  | .fin neg m e => if m = 0 then (fsignBit k neg, 0) else frnd' k env neg m (e + max (-5000) (min 5000 n)) false

/-- FCLASS (R133): a one-hot mask; FTZ does not change the class. -/
def fclassOf (k : Fmt) (x : Nat) : Nat :=
  match fdecode k x with
  | .nan true _ => 1
  | .nan false _ => 2
  | .inf true => 4
  | .inf false => 512
  | .fin n m _ =>
    if m = 0 then (if n then 32 else 64)
    else if m < 2 ^ k.f then (if n then 16 else 128)
    else (if n then 8 else 256)

/-! ## Conversions (R137) -/

/-- float → float. -/
def cvtFF (dst : Fmt) (env : FEnv) (sat : Bool) (a : FVal) : Nat × FFlags :=
  match a with
  | .nan s n =>
    match dst.sp with
    | .none => (0, fInvalid)
    | _ => (fnan dst n, fWhen s fInvalid)
  | .inf n =>
    if sat then (fmaxPat dst n, fInvalid)
    else match dst.sp with
      | .ieee => (finf dst n, 0)
      | .e4m3 => (fnan dst n, fInvalid)
      | .none => (fmaxPat dst n, fInvalid)
  | .fin n m e => fflush dst env (fround dst env.rm sat n m e false)

/-- float → integer: rounded by rm and clamped to [lo, hi]. -/
def cvtFI (env : FEnv) (lo hi : Int) (a : FVal) : Int × FFlags :=
  match a with
  | .nan _ _ => (0, fInvalid)
  | .inf n => (if n then lo else hi, fInvalid)
  | .fin n m e =>
    let (r, lost) := roundUnits env.rm n m e 0 false
    let x : Int := if n then -(r : Int) else r
    if x < lo then (lo, fInvalid) else if hi < x then (hi, fInvalid) else (x, fWhen lost fInexact)

/-- integer → float. -/
def cvtIF (dst : Fmt) (env : FEnv) (sat : Bool) (x : Int) : Nat × FFlags :=
  fflush dst env (fround dst env.rm sat (decide (x < 0)) x.natAbs 0 false)

/-- RNE32 and RNE16 of R107, of a value known exactly. -/
def envRne : FEnv := { rm := 0, ftz := false }

end Sys2Proof.Machine
end

