-- ==== Sys2Proof/WellFormed.lean ====
section
/-!
DEFINITION. Which instructions are well formed: those the checks of R74 pass under the widest allocation, and the device's own
steps whose operands lie in the device (00_scope, R7, R10, R35).
-/

namespace Sys2Proof

/-- Whether a step of the device names parts the device has: 16 dies, 64 contexts, 32 queues, 16 triggers, 4 ports. -/
def inRange : Instr → Bool
  | .qdoorWrite c n _ | .qcfgWrite c n _ _ => decide (c < 64) && decide (n < 32)
  | .triggerWrite c n _ => decide (c < 64) && decide (n < 16)
  | .detctlWrite c _ | .watchdogExpiry c => decide (c < 64)
  | .partitionWrite c d _ => decide (c < 64) && decide (d < 16)
  | .diecapWrite d _ | .thermalHold d | .criticalTemperature d | .partialRenderEnd d => decide (d < 16)
  | .clockStep d s => decide (d < 16) && decide (s < 9)
  | .tileRoundStart d _ | .frameDue d _ | .frameDeadline d _ | .tileRowEmit d _ => decide (d < 16)
  | .packetNop c n | .packetLaunch c n | .packetWait c n | .waitPacketWake c n => decide (c < 64) && decide (n < 32)
  | .spoolPop d c p => decide (d < 16) && decide (c < 64) && decide (p < 4)
  | .linkDown p => decide (p < 4)
  | _ => true

/-- An instruction a skein with every register may issue, or a step of a part the device has. -/
def WellFormed (i : Instr) : Bool := (Machine.illegalReason Machine.fullAlloc i).isNone && inRange i

end Sys2Proof
end

