-- ==== Sys2Proof/Decode.lean ====
section
/-!
DEFINITION. From words to instructions and back: the fields of word 0 and of the extension words (R57, R60 to R67), the opcode
maps of R72 and R73, the decoder, which answers an instruction or the reason of an ILLEGAL (R74 to R76), and the encoder.
-/

namespace Sys2Proof

/-- The `n` bits of `w` from bit `lo` on. -/
def field (w : Word) (lo n : Nat) : BitVec n := w.extractLsb' lo n

/-- One bit of a word. -/
def flag (w : Word) (i : Nat) : Bool := w.getLsbD i

/-- XM (R64). -/
def xmOf (e : Word) : Xm :=
  { c := field e 25 7, p := field e 22 3, n := flag e 21, rm := field e 18 3, sat := flag e 17, neg := field e 14 3,
    abs := field e 11 3, ty := field e 7 4, opx := field e 0 7 }

/-- XW (R67). -/
def xwOf (e : Word) : Xw :=
  { p := field e 29 3, n := flag e 28, ty := field e 24 4, pol := field e 21 3, sc := field e 18 3, sub := field e 14 4,
    disp := field e 0 14 }

/-- The bodies of R60 and R62, with the extension word the format takes when X = 1 (R63). -/
def lrOf (w e : Word) : Lr :=
  { w := flag w 30, d := field w 15 7, a := field w 8 7, b := field w 1 7, f := flag w 0,
    xm := if flag w 29 then some (xmOf e) else none }
def lkOf (w e : Word) : Lk :=
  { w := flag w 30, d := field w 15 7, a := field w 8 7, k := field w 0 8, xl := if flag w 29 then some e else none }
def lpOf (w e : Word) : Lp :=
  { w := flag w 30, pd := field w 19 3, cc := field w 15 4, a := field w 8 7, b := field w 1 7, f := flag w 0,
    xm := if flag w 29 then some (xmOf e) else none }
def lvOf (w e : Word) : Lv :=
  { w := flag w 30, d := field w 15 7, pd := field w 12 3, ps := field w 9 3, n := flag w 8, mode := field w 5 3,
    z := field w 0 5, xm := if flag w 29 then some (xmOf e) else none }
def plopOf (w e : Word) : Plop :=
  { w := flag w 30, pd := field w 19 3, pa := field w 16 3, pb := field w 13 3, pc := field w 10 3, lut := field w 2 8,
    z := field w 0 2, xm := if flag w 29 then some (xmOf e) else none }
def lmOf (w e : Word) : Lm :=
  { w := flag w 30, d := field w 15 7, a := field w 8 7, sb := field w 1 7, z := flag w 0, xw := xwOf e }
def lbOf (w : Word) : Lb := { w := flag w 30, p := field w 19 3, n := flag w 18, off := field w 0 18 }
def lnOf (w : Word) : Ln := { w := flag w 30, z := field w 0 22 }
def ueOf (w : Word) : Ue := { w := flag w 30, sp := field w 15 7, tag := field w 9 6, sub := field w 0 9 }

/-- The format of an opcode and the instruction it makes of a body (R72, R73); EVENT alone defines a literal (R63, R180). -/
inductive Shape where
  | lr (mk : Lr → Instr)
  | lk (mk : Lk → Instr)
  | lp (mk : Lp → Instr)
  | lv (mk : Lv → Instr)
  | plop (mk : Plop → Instr)
  | lm (mk : Lm → Instr)
  | lb (mk : Lb → Instr)
  | ln (mk : Ln → Instr)
  | ue (mk : Ue → Instr)
  | event

/-- The lane set (R72). -/
def laneShape (op : Nat) : Option Shape :=
  match op with
  | 0x01 => some (.lr .iadd)
  | 0x02 => some (.lr .isub)
  | 0x03 => some (.lk .iaddk)
  | 0x04 => some (.lr .imul)
  | 0x05 => some (.lr .imulh)
  | 0x06 => some (.lr .imad)
  | 0x07 => some (.lr .idiv)
  | 0x08 => some (.lr .imin)
  | 0x09 => some (.lr .imax)
  | 0x0C => some (.lr .and)
  | 0x0D => some (.lr .or)
  | 0x0E => some (.lr .xor)
  | 0x0F => some (.lr .andn)
  | 0x10 => some (.lk .andk)
  | 0x11 => some (.lk .ork)
  | 0x12 => some (.lk .xork)
  | 0x13 => some (.lr .shl)
  | 0x14 => some (.lr .shr)
  | 0x15 => some (.lr .sar)
  | 0x16 => some (.lk .shlk)
  | 0x17 => some (.lk .shrk)
  | 0x18 => some (.lk .sark)
  | 0x1A => some (.lr .popc)
  | 0x1B => some (.lr .clz)
  | 0x1C => some (.lr .brev)
  | 0x1D => some (.lr .bfe)
  | 0x1E => some (.lr .bfi)
  | 0x1F => some (.lr .lea)
  | 0x20 => some (.lp .isetp)
  | 0x21 => some (.lr .sel)
  | 0x22 => some (.lr .mov)
  | 0x23 => some (.lk .movk)
  | 0x24 => some (.lr .movsv)
  | 0x25 => some (.plop .plop)
  | 0x26 => some (.lv .pmov)
  | 0x28 => some (.lr .fadd)
  | 0x2A => some (.lr .fmul)
  | 0x2B => some (.lr .ffma)
  | 0x2C => some (.lr .fmin)
  | 0x2D => some (.lr .fmax)
  | 0x2E => some (.lp .fsetp)
  | 0x2F => some (.lr .fdiv)
  | 0x30 => some (.lr .rcp)
  | 0x31 => some (.lr .rsq)
  | 0x32 => some (.lr .sqrt)
  | 0x33 => some (.lr .ex2)
  | 0x34 => some (.lr .lg2)
  | 0x35 => some (.lr .sinpi)
  | 0x36 => some (.lr .cospi)
  | 0x37 => some (.lr .frnd)
  | 0x38 => some (.lr .fclass)
  | 0x39 => some (.lr .fscale)
  | 0x3A => some (.lr .fdot2)
  | 0x3B => some (.lr .cvt)
  | 0x3C => some (.lr .cvtp)
  | 0x3D => some (.lr .prmt)
  | 0x3E => some (.lr .flgrd)
  | 0x3F => some (.lk .flgclr)
  | 0x40 => some (.lr .shfl)
  | 0x41 => some (.lr .shflup)
  | 0x42 => some (.lr .shfldn)
  | 0x43 => some (.lr .shflx)
  | 0x44 => some (.lv .vote)
  | 0x45 => some (.lv .ballot)
  | 0x46 => some (.lr .lred)
  | 0x47 => some (.lr .lscan)
  | 0x48 => some (.lr .matchLanes)
  | 0x49 => some (.lk .rdsr)
  | 0x70 => some (.lb .brl)
  | 0x71 => some (.lb .call)
  | 0x72 => some (.ln .ret)
  | 0x73 => some (.lr .jmpl)
  | 0x74 => some (.ln .exit)
  | 0x75 => some (.lr .reorder)
  | 0x76 => some (.lk .svc)
  | 0x77 => some (.lk .bkpt)
  | 0x50 => some (.lm .ld)
  | 0x51 => some (.lm .st)
  | 0x52 => some (.lm .ldb)
  | 0x53 => some (.lm .stb)
  | 0x54 => some (.lm .lds)
  | 0x55 => some (.lm .sts)
  | 0x56 => some (.lm .atom)
  | 0x57 => some (.lm .atomb)
  | 0x58 => some (.lm .atoms)
  | 0x59 => some (.lm .prf)
  | 0x5A => some (.lm .ldg)
  | 0x5B => some (.lm .stg)
  | 0x5C => some (.lm .stq)
  | 0x5D => some (.lm .ldq)
  | 0x60 => some (.lm .ldpx)
  | 0x61 => some (.lm .stpx)
  | 0x62 => some (.lm .ldcf)
  | 0x63 => some (.lm .stcf)
  | 0x64 => some (.lm .smp)
  | 0x65 => some (.lm .dscl)
  | 0x66 => some (.lm .dscf)
  | _ => none

/-- The uniform set (R73). -/
def uniformShape (op : Nat) : Option Shape :=
  match op with
  | 0x00 => some (.ln .nop)
  | 0x01 => some (.lr .sadd)
  | 0x02 => some (.lr .ssub)
  | 0x03 => some (.lk .saddk)
  | 0x04 => some (.lr .smul)
  | 0x06 => some (.lr .smad)
  | 0x07 => some (.lr .smin)
  | 0x08 => some (.lr .smax)
  | 0x09 => some (.lr .sand)
  | 0x0A => some (.lr .sor)
  | 0x0B => some (.lr .sxor)
  | 0x0F => some (.lr .sshl)
  | 0x10 => some (.lr .sshr)
  | 0x11 => some (.lr .ssar)
  | 0x12 => some (.lk .sshlk)
  | 0x13 => some (.lk .sshrk)
  | 0x14 => some (.lr .spopc)
  | 0x15 => some (.lr .sclz)
  | 0x17 => some (.lr .slea)
  | 0x18 => some (.lp .ssetc)
  | 0x19 => some (.lr .ssel)
  | 0x1A => some (.lr .smov)
  | 0x1B => some (.lk .smovk)
  | 0x1C => some (.plop .clop)
  | 0x20 => some (.lr .sfadd)
  | 0x21 => some (.lr .sfmul)
  | 0x22 => some (.lr .sffma)
  | 0x23 => some (.lp .sfsetc)
  | 0x24 => some (.lr .scvt)
  | 0x28 => some (.lk .movvs)
  | 0x29 => some (.lk .rdsrUniform)
  | 0x2A => some (.lk .wrsr)
  | 0x2B => some (.lm .sld)
  | 0x2C => some (.lm .sst)
  | 0x2D => some (.lp .ptoc)
  | 0x30 => some (.lb .bra)
  | 0x31 => some (.lr .jmp)
  | 0x32 => some (.lr .brx)
  | 0x34 => some (.ln .yield)
  | 0x35 => some (.lk .region)
  | 0x60 => some (.ue .spawn)
  | 0x61 => some (.ue .join)
  | 0x62 => some .event
  | 0x63 => some (.ue .rtrig)
  | 0x40 => some (.ue .bar)
  | 0x41 => some (.ue .barp)
  | 0x42 => some (.ue .fence)
  | 0x43 => some (.lm .lockl)
  | 0x44 => some (.lm .unlockl)
  | 0x45 => some (.lm .pinl)
  | 0x46 => some (.lm .unpinl)
  | 0x47 => some (.lm .waitx)
  | 0x48 => some (.lm .waitv)
  | 0x49 => some (.lm .lstat)
  | 0x50 => some (.ue .cpy)
  | 0x51 => some (.ue .cpyg)
  | 0x52 => some (.ue .cpyd)
  | 0x53 => some (.ue .mxa)
  | 0x54 => some (.ue .mxc)
  | 0x55 => some (.ue .mxz)
  | 0x56 => some (.ue .mxld)
  | 0x57 => some (.ue .mxst)
  | 0x58 => some (.ue .twait)
  | 0x59 => some (.lr .tfirst)
  | 0x5A => some (.lk .tstat)
  | 0x5B => some (.ue .qbind)
  | 0x5C => some (.ue .qfree)
  | 0x5D => some (.lk .qstat)
  | 0x5E => some (.ue .tdesc)
  | 0x64 => some (.ue .seal)
  | 0x65 => some (.ue .stmv)
  | 0x66 => some (.ue .surfclr)
  | 0x67 => some (.ue .tbegin)
  | 0x68 => some (.ue .tflush)
  | _ => none

/-- The opcode map that S selects (R58). -/
def shapeOf (w : Word) : Option Shape :=
  if flag w 31 then uniformShape (field w 22 7).toNat else laneShape (field w 22 7).toNat

/-- Whether an extension word is fetched after word 0 (R63, R76). (DESIGN CHOICE: notes/assumptions/89) -/
def extFollows (w : Word) : Bool :=
  flag w 29 &&
    match shapeOf w with
    | some (.lr _) | some (.lk _) | some (.lp _) | some (.lv _) | some (.plop _) | some (.lm _) | some .event => true
    | _ => false

/-- The instruction whose fields the words hold, before the checks that need an allocation (R72, R73, R63). -/
def instrOf (w e : Word) : Except Reason Instr :=
  match shapeOf w with
  | none => .error .opcode
  | some (.lr mk) => .ok (mk (lrOf w e))
  | some (.lk mk) => .ok (mk (lkOf w e))
  | some (.lp mk) => .ok (mk (lpOf w e))
  | some (.lv mk) => .ok (mk (lvOf w e))
  | some (.plop mk) => .ok (mk (plopOf w e))
  | some (.lm mk) => if flag w 29 then .ok (mk (lmOf w e)) else .error .xbit
  | some (.lb mk) => if flag w 29 then .error .xbit else .ok (mk (lbOf w))
  | some (.ln mk) => if flag w 29 then .error .xbit else .ok (mk (lnOf w))
  | some (.ue mk) => if flag w 29 then .error .xbit else .ok (mk (ueOf w))
  | some .event =>
    if flag w 29 then .ok (.eventLiteral { ue := ueOf w, xl := e }) else .ok (.event (ueOf w))

/-- The instruction two words are for a skein of allocation `al`, or the reason of the ILLEGAL they raise (R74, R75).
(DEDUCED: notes/assumptions/19) -/
def decodeWords (al : Machine.Alloc) (w e : Word) : Except Reason Instr :=
  match instrOf w e with
  | .error r => .error r
  | .ok i =>
    match Machine.illegalReason al i with
    | some r => .error r
    | none => .ok i

/-- Why bytes are no instruction: too few of them, or an ILLEGAL (R75). -/
inductive Reject where
  | truncated
  | illegal (r : Reason)
  deriving DecidableEq, Repr

/-- Four bytes as a word, the first the least significant (R2). -/
def wordOfBytes (b0 b1 b2 b3 : Byte) : Word := b3 ++ b2 ++ b1 ++ b0

/-- A word as four bytes, the least significant first (R2). -/
def bytesOfWord (w : Word) : List Byte :=
  [w.extractLsb' 0 8, w.extractLsb' 8 8, w.extractLsb' 16 8, w.extractLsb' 24 8]

/-- The instruction at the head of a list of bytes, and the bytes after it. (DEDUCED: notes/assumptions/19) -/
def decodeBytes (al : Machine.Alloc) (bs : List Byte) : Except Reject (Instr × List Byte) :=
  match bs with
  | b0 :: b1 :: b2 :: b3 :: rest =>
    let w := wordOfBytes b0 b1 b2 b3
    if extFollows w then
      match rest with
      | e0 :: e1 :: e2 :: e3 :: rest' =>
        match decodeWords al w (wordOfBytes e0 e1 e2 e3) with
        | .ok i => .ok (i, rest')
        | .error r => .error (.illegal r)
      | _ => .error .truncated
    else
      match decodeWords al w 0 with
      | .ok i => .ok (i, rest)
      | .error r => .error (.illegal r)
  | _ => .error .truncated

/-- The bytes of an instruction whose bits are `w`, numbered from the first word's bit 0, zero above. -/
def tableBytes (w : Nat) : List Byte :=
  bytesOfWord (BitVec.ofNat 32 w) ++ bytesOfWord (BitVec.ofNat 32 (w / 2 ^ 32))

/-- The instruction the decoder reads from bits numbered as the opcode table numbers them, under the widest allocation. The
bits above `nbits` are zero. -/
def decodeTableWord (nbits w : Nat) : Option Instr :=
  match decodeBytes Machine.fullAlloc (tableBytes (w % 2 ^ nbits)) with
  | .ok (i, _) => some i
  | .error _ => none

/-! The encoder, from the same tables. -/

/-- The bits `b` placed from bit `lo` of a word on. -/
def put {n : Nat} (b : BitVec n) (lo : Nat) : Word := b.setWidth 32 <<< lo

/-- One bit placed at bit `lo` of a word. -/
def putBit (b : Bool) (lo : Nat) : Word := put (BitVec.ofBool b) lo

/-- Word 0: S and OP from an eight-bit key, W, X and the body (R57). -/
def word0 (key : BitVec 8) (w x : Bool) (body : Word) : Word :=
  put (key.extractLsb' 7 1) 31 ||| putBit w 30 ||| putBit x 29 ||| put (key.extractLsb' 0 7) 22 ||| body

/-- XM as a word (R64). -/
def xmWord (x : Xm) : Word :=
  put x.c 25 ||| put x.p 22 ||| putBit x.n 21 ||| put x.rm 18 ||| putBit x.sat 17 ||| put x.neg 14 ||| put x.abs 11
    ||| put x.ty 7 ||| put x.opx 0

/-- XW as a word (R67). -/
def xwWord (x : Xw) : Word :=
  put x.p 29 ||| putBit x.n 28 ||| put x.ty 24 ||| put x.pol 21 ||| put x.sc 18 ||| put x.sub 14 ||| put x.disp 0

/-- Bodies (R60, R62). -/
def lrBody (o : Lr) : Word := put o.d 15 ||| put o.a 8 ||| put o.b 1 ||| putBit o.f 0
def lkBody (o : Lk) : Word := put o.d 15 ||| put o.a 8 ||| put o.k 0
def lpBody (o : Lp) : Word := put o.pd 19 ||| put o.cc 15 ||| put o.a 8 ||| put o.b 1 ||| putBit o.f 0
def lvBody (o : Lv) : Word :=
  put o.d 15 ||| put o.pd 12 ||| put o.ps 9 ||| putBit o.n 8 ||| put o.mode 5 ||| put o.z 0
def plopBody (o : Plop) : Word :=
  put o.pd 19 ||| put o.pa 16 ||| put o.pb 13 ||| put o.pc 10 ||| put o.lut 2 ||| put o.z 0
def lmBody (o : Lm) : Word := put o.d 15 ||| put o.a 8 ||| put o.sb 1 ||| putBit o.z 0
def lbBody (o : Lb) : Word := put o.p 19 ||| putBit o.n 18 ||| put o.off 0
def ueBody (o : Ue) : Word := put o.sp 15 ||| put o.tag 9 ||| put o.sub 0

/-- Word 0 and the extension word where there is one (R63). -/
def lrWords (key : BitVec 8) (o : Lr) : List Word := word0 key o.w o.xm.isSome (lrBody o) :: (o.xm.map xmWord).toList
def lkWords (key : BitVec 8) (o : Lk) : List Word := word0 key o.w o.xl.isSome (lkBody o) :: o.xl.toList
def lpWords (key : BitVec 8) (o : Lp) : List Word := word0 key o.w o.xm.isSome (lpBody o) :: (o.xm.map xmWord).toList
def lvWords (key : BitVec 8) (o : Lv) : List Word := word0 key o.w o.xm.isSome (lvBody o) :: (o.xm.map xmWord).toList
def plopWords (key : BitVec 8) (o : Plop) : List Word := word0 key o.w o.xm.isSome (plopBody o) :: (o.xm.map xmWord).toList
def lmWords (key : BitVec 8) (o : Lm) : List Word := [word0 key o.w true (lmBody o), xwWord o.xw]
def lbWords (key : BitVec 8) (o : Lb) : List Word := [word0 key o.w false (lbBody o)]
def lnWords (key : BitVec 8) (o : Ln) : List Word := [word0 key o.w false (put o.z 0)]
def ueWord (key : BitVec 8) (x : Bool) (o : Ue) : Word := word0 key o.w x (ueBody o)
def ueWords (key : BitVec 8) (o : Ue) : List Word := [ueWord key false o]

/-- The words of an instruction; a step of the device has none. -/
def encode : Instr → List Word
  | .iadd o => lrWords 0x01 o
  | .isub o => lrWords 0x02 o
  | .iaddk o => lkWords 0x03 o
  | .imul o => lrWords 0x04 o
  | .imulh o => lrWords 0x05 o
  | .imad o => lrWords 0x06 o
  | .idiv o => lrWords 0x07 o
  | .imin o => lrWords 0x08 o
  | .imax o => lrWords 0x09 o
  | .and o => lrWords 0x0C o
  | .or o => lrWords 0x0D o
  | .xor o => lrWords 0x0E o
  | .andn o => lrWords 0x0F o
  | .andk o => lkWords 0x10 o
  | .ork o => lkWords 0x11 o
  | .xork o => lkWords 0x12 o
  | .shl o => lrWords 0x13 o
  | .shr o => lrWords 0x14 o
  | .sar o => lrWords 0x15 o
  | .shlk o => lkWords 0x16 o
  | .shrk o => lkWords 0x17 o
  | .sark o => lkWords 0x18 o
  | .popc o => lrWords 0x1A o
  | .clz o => lrWords 0x1B o
  | .brev o => lrWords 0x1C o
  | .bfe o => lrWords 0x1D o
  | .bfi o => lrWords 0x1E o
  | .lea o => lrWords 0x1F o
  | .isetp o => lpWords 0x20 o
  | .sel o => lrWords 0x21 o
  | .mov o => lrWords 0x22 o
  | .movk o => lkWords 0x23 o
  | .movsv o => lrWords 0x24 o
  | .plop o => plopWords 0x25 o
  | .pmov o => lvWords 0x26 o
  | .fadd o => lrWords 0x28 o
  | .fmul o => lrWords 0x2A o
  | .ffma o => lrWords 0x2B o
  | .fmin o => lrWords 0x2C o
  | .fmax o => lrWords 0x2D o
  | .fsetp o => lpWords 0x2E o
  | .fdiv o => lrWords 0x2F o
  | .rcp o => lrWords 0x30 o
  | .rsq o => lrWords 0x31 o
  | .sqrt o => lrWords 0x32 o
  | .ex2 o => lrWords 0x33 o
  | .lg2 o => lrWords 0x34 o
  | .sinpi o => lrWords 0x35 o
  | .cospi o => lrWords 0x36 o
  | .frnd o => lrWords 0x37 o
  | .fclass o => lrWords 0x38 o
  | .fscale o => lrWords 0x39 o
  | .fdot2 o => lrWords 0x3A o
  | .cvt o => lrWords 0x3B o
  | .cvtp o => lrWords 0x3C o
  | .prmt o => lrWords 0x3D o
  | .flgrd o => lrWords 0x3E o
  | .flgclr o => lkWords 0x3F o
  | .shfl o => lrWords 0x40 o
  | .shflup o => lrWords 0x41 o
  | .shfldn o => lrWords 0x42 o
  | .shflx o => lrWords 0x43 o
  | .vote o => lvWords 0x44 o
  | .ballot o => lvWords 0x45 o
  | .lred o => lrWords 0x46 o
  | .lscan o => lrWords 0x47 o
  | .matchLanes o => lrWords 0x48 o
  | .rdsr o => lkWords 0x49 o
  | .brl o => lbWords 0x70 o
  | .call o => lbWords 0x71 o
  | .ret o => lnWords 0x72 o
  | .jmpl o => lrWords 0x73 o
  | .exit o => lnWords 0x74 o
  | .reorder o => lrWords 0x75 o
  | .svc o => lkWords 0x76 o
  | .bkpt o => lkWords 0x77 o
  | .ld o => lmWords 0x50 o
  | .st o => lmWords 0x51 o
  | .ldb o => lmWords 0x52 o
  | .stb o => lmWords 0x53 o
  | .lds o => lmWords 0x54 o
  | .sts o => lmWords 0x55 o
  | .atom o => lmWords 0x56 o
  | .atomb o => lmWords 0x57 o
  | .atoms o => lmWords 0x58 o
  | .prf o => lmWords 0x59 o
  | .ldg o => lmWords 0x5A o
  | .stg o => lmWords 0x5B o
  | .stq o => lmWords 0x5C o
  | .ldq o => lmWords 0x5D o
  | .ldpx o => lmWords 0x60 o
  | .stpx o => lmWords 0x61 o
  | .ldcf o => lmWords 0x62 o
  | .stcf o => lmWords 0x63 o
  | .smp o => lmWords 0x64 o
  | .dscl o => lmWords 0x65 o
  | .dscf o => lmWords 0x66 o
  | .nop o => lnWords 0x80 o
  | .sadd o => lrWords 0x81 o
  | .ssub o => lrWords 0x82 o
  | .saddk o => lkWords 0x83 o
  | .smul o => lrWords 0x84 o
  | .smad o => lrWords 0x86 o
  | .smin o => lrWords 0x87 o
  | .smax o => lrWords 0x88 o
  | .sand o => lrWords 0x89 o
  | .sor o => lrWords 0x8A o
  | .sxor o => lrWords 0x8B o
  | .sshl o => lrWords 0x8F o
  | .sshr o => lrWords 0x90 o
  | .ssar o => lrWords 0x91 o
  | .sshlk o => lkWords 0x92 o
  | .sshrk o => lkWords 0x93 o
  | .spopc o => lrWords 0x94 o
  | .sclz o => lrWords 0x95 o
  | .slea o => lrWords 0x97 o
  | .ssetc o => lpWords 0x98 o
  | .ssel o => lrWords 0x99 o
  | .smov o => lrWords 0x9A o
  | .smovk o => lkWords 0x9B o
  | .clop o => plopWords 0x9C o
  | .sfadd o => lrWords 0xA0 o
  | .sfmul o => lrWords 0xA1 o
  | .sffma o => lrWords 0xA2 o
  | .sfsetc o => lpWords 0xA3 o
  | .scvt o => lrWords 0xA4 o
  | .movvs o => lkWords 0xA8 o
  | .rdsrUniform o => lkWords 0xA9 o
  | .wrsr o => lkWords 0xAA o
  | .sld o => lmWords 0xAB o
  | .sst o => lmWords 0xAC o
  | .ptoc o => lpWords 0xAD o
  | .bra o => lbWords 0xB0 o
  | .jmp o => lrWords 0xB1 o
  | .brx o => lrWords 0xB2 o
  | .yield o => lnWords 0xB4 o
  | .region o => lkWords 0xB5 o
  | .spawn o => ueWords 0xE0 o
  | .join o => ueWords 0xE1 o
  | .event o => ueWords 0xE2 o
  | .eventLiteral o => [ueWord 0xE2 true o.ue, o.xl]
  | .rtrig o => ueWords 0xE3 o
  | .bar o => ueWords 0xC0 o
  | .barp o => ueWords 0xC1 o
  | .fence o => ueWords 0xC2 o
  | .lockl o => lmWords 0xC3 o
  | .unlockl o => lmWords 0xC4 o
  | .pinl o => lmWords 0xC5 o
  | .unpinl o => lmWords 0xC6 o
  | .waitx o => lmWords 0xC7 o
  | .waitv o => lmWords 0xC8 o
  | .lstat o => lmWords 0xC9 o
  | .cpy o => ueWords 0xD0 o
  | .cpyg o => ueWords 0xD1 o
  | .cpyd o => ueWords 0xD2 o
  | .mxa o => ueWords 0xD3 o
  | .mxc o => ueWords 0xD4 o
  | .mxz o => ueWords 0xD5 o
  | .mxld o => ueWords 0xD6 o
  | .mxst o => ueWords 0xD7 o
  | .twait o => ueWords 0xD8 o
  | .tfirst o => lrWords 0xD9 o
  | .tstat o => lkWords 0xDA o
  | .qbind o => ueWords 0xDB o
  | .qfree o => ueWords 0xDC o
  | .qstat o => lkWords 0xDD o
  | .tdesc o => ueWords 0xDE o
  | .seal o => ueWords 0xE4 o
  | .stmv o => ueWords 0xE5 o
  | .surfclr o => ueWords 0xE6 o
  | .tbegin o => ueWords 0xE7 o
  | .tflush o => ueWords 0xE8 o
  | .illegalWord _ _ _ | .fetchFault _ _ | .resultWriteback _ _ | .issueRotation _ | .fenceComplete _
  | .runAheadEnd _ | .invalidation _ _ | .evictionNotice _ _ | .writebackMerge _ _ | .uncorrectableError _
  | .qdoorWrite _ _ _ | .triggerWrite _ _ _ | .qcfgWrite _ _ _ _ | .registerWrite _ _ _ | .linkerrWrite _
  | .detctlWrite _ _ | .partitionWrite _ _ _ | .diecapWrite _ _ | .xinv _ | .harvest _ | .mmcmdDone _ _ | .image _
  | .attest _ | .identity _ | .readlog _ | .clearlog _ | .streamtab _ | .streamstart _ | .streamstop _
  | .mailboxComplete _ _ _ | .packetNop _ _ | .packetLaunch _ _ | .packetWait _ _ | .waitPacketWake _ _
  | .reelRunBegin _ _ | .spoolPop _ _ _ | .slotGrant _ | .quantumExpiry _ | .plyDispatch _ | .preemptComplete _
  | .groupSave _ | .groupReplace _ | .groupRetire _ | .faultRecord _ | .retry _ | .skip _ | .supply _ | .killSkein _
  | .killLaunch _ | .killContext _ | .svcResume _ | .svcKill _ | .watchdogExpiry _ | .deadlockCheck _
  | .lockTimeout _ | .waitWake _ | .engineStart _ | .engineComplete _ | .engineStop _ | .surfaceOpApply _
  | .partialRenderEnd _ | .tileRoundStart _ _ | .frameDue _ _ | .frameDeadline _ _ | .tileRowEmit _ _ | .snpdata _
  | .snpinv _ | .snpcur _ | .hostMemRead _ _ | .hostMemWrite _ _ _ | .hostLineGrant _ _ _ _ | .bisnpResponse _ _
  | .peerMemWrite _ _ | .peerMemRead _ _ | .peerAtomicIn _ _ _ _ _ | .linkDown _ | .clockStep _ _ | .thermalHold _
  | .criticalTemperature _ | .powerGate _ | .reset | .deviceStart _ | .surfaceWriteRegistered _ | .requestRingWrite _ => []

/-- Whether a row of the opcode table is an instruction word, and not a step of the device. -/
def isWord (i : Instr) : Bool := !(encode i).isEmpty

/-- The length of an instruction in bytes: 4, or 8 with an extension word (R56). -/
def lengthOf (i : Instr) : Nat := 4 * (encode i).length

/-- The bytes of an instruction in memory. -/
def encodeBytes (i : Instr) : List Byte := (encode i).flatMap bytesOfWord

end Sys2Proof
end

