-- ==== Sys2Proof/Config.lean ====
section
/-!
DEFINITION. The values the manual leaves open (R6, R5). Each is a constant without a body: nothing can evaluate it, so a
statement about it holds for every value (notes/assumptions/3).
-/

namespace Sys2Proof.Config

/-- The free value number `k` drawn at count `n` of the model's counter: an undefined value of R6, or a choice R5 leaves.
(DESIGN CHOICE: notes/assumptions/3) -/
opaque freeBits (n k : Nat) : BitVec 64

/-- How far a spindle's %clock stands from the model's count of cycles (R12: counters of different blocks carry no order).
(DESIGN CHOICE: notes/assumptions/3) -/
opaque clockSkew (spindle : Nat) : BitVec 64

/-- What the device reads over CXL.io for an image of `len` bytes at host address `a` in the `n`-th step; none when the read fails (R472).
(DESIGN CHOICE: notes/assumptions/71) -/
opaque hostImage (n a len : Nat) : Option (List (BitVec 8))

/-- The ports that an uploaded configuration names PEER, and SAVEGB where it names one (R467); the layout of its fields is not in the
manual. (DESIGN CHOICE: notes/assumptions/71) -/
opaque configPeers (config : List (BitVec 8)) : BitVec 4
opaque configSaveGb (config : List (BitVec 8)) : Option Nat

/-- The SM3 digest of an image (R474); SM3 is not described by the manual. (PRESUMED: notes/assumptions/78) -/
opaque sm3 (image : List Byte) : BitVec 256

/-- The identity key's signature over the bytes of a report (R474); SM2 is not described by the manual.
(PRESUMED: notes/assumptions/78) -/
opaque sm2Sign (report : List Byte) : BitVec 512

/-- The public half of the identity key, x then y (R472, R474). (PRESUMED: notes/assumptions/78) -/
opaque identityKey : BitVec 512

/-- The bytes of Adener's stream format that frame item `k` of a stream (R391); the format has its own document.
(DEDUCED: notes/assumptions/32) -/
opaque streamFraming (kind k : Nat) : List Byte

end Sys2Proof.Config
end

