-- ==== Sys2Proof/Machine/Table.lean ====
section
/-!
DEFINITION. Sparse tables: a list of key and value pairs with strictly rising keys, in one canonical form, so that equal tables
are equal lists. A table with a default lists no key at its default.
-/

namespace Sys2Proof.Machine

/-- Values by key, keys strictly rising. -/
abbrev Table (α : Type) := List (Nat × α)

/-- The value at a key, if the table lists one. -/
def tget? {α : Type} (t : Table α) (k : Nat) : Option α :=
  match t with
  | [] => none
  | (j, v) :: r => if j = k then some v else tget? r k

/-- The value at a key, or the default. (DESIGN CHOICE: notes/assumptions/4) -/
def tget {α : Type} (t : Table α) (k : Nat) (dflt : α) : α := (tget? t k).getD dflt

/-- The table with `v` at `k`, keys kept rising. -/
def tset {α : Type} (t : Table α) (k : Nat) (v : α) : Table α :=
  match t with
  | [] => [(k, v)]
  | (j, w) :: r => if k < j then (k, v) :: (j, w) :: r else if j = k then (k, v) :: r else (j, w) :: tset r k v

/-- The table without `k`. -/
def tdel {α : Type} (t : Table α) (k : Nat) : Table α :=
  match t with
  | [] => []
  | (j, w) :: r => if j = k then tdel r k else (j, w) :: tdel r k

/-- The table with `v` at `k`, unlisted when it is the default. (DESIGN CHOICE: notes/assumptions/4) -/
def tput {α : Type} [DecidableEq α] (t : Table α) (k : Nat) (v dflt : α) : Table α :=
  if v = dflt then tdel t k else tset t k v

/-- Whether the keys rise strictly from above `lo` on. -/
def trising {α : Type} (lo : Option Nat) (t : Table α) : Bool :=
  match t with
  | [] => true
  | (j, _) :: r => (match lo with | none => true | some l => decide (l < j)) && trising (some j) r

/-- The canonical form of a table whose unlisted keys read as `dflt`. -/
def twf {α : Type} [DecidableEq α] (t : Table α) (dflt : α) : Bool := trising none t && t.all fun e => !decide (e.2 = dflt)

end Sys2Proof.Machine
end

