-- ==== Sys2Proof/Machine/State.lean ====
section
/-!
DEFINITION. The state of a GK16-A module as plain data: the management registers of its contexts, and everything else the
device holds. `State.reset` is the module right after reset.
-/

namespace Sys2Proof.Machine

/-! ## Management registers -/

/-- The registers of one context that only register writes change (R35, R328). -/
structure Ctx where
  ptbase : DWord
  ctxclass : DWord
  quantum : DWord
  nlt : BitVec 128
  pinquota : DWord
  watchdog : DWord
  sigwin : DWord
  termt : DWord
  faultq : DWord
  ring : DWord
  detctl : DWord
  reeltab : DWord
  part : Vector DWord 16
  spoolcfg : Vector DWord 4
  deriving DecidableEq, Repr

/-- The management registers of the 64 contexts. -/
structure Mgmt where
  ctxs : Vector Ctx 64
  deriving DecidableEq, Repr

/-! ## Faults of the device (R442, R443) -/

/-- The causes of R442. -/
inductive Cause where
  | illegal | align | guard | bounds | xlate | perm | selector | check | detviol | hazard | lockuse | nulltgt | queueuse
  | dataerr | bkpt | svc | watchdog | deadlock | allExternal
  deriving DecidableEq, Repr

/-- A fault record (R443, R444) and where it stands in its delivery: not yet written, in a slot, or `lost` where no queue takes it;
`ans` is its response, `due` says that a kill it asks for is still to be carried out, `hand` that its handler is still to be started,
`byHandler` that a handler skein raised it. `bundle` and `next` are the lanes that issued and the address after the instruction, for
SKIP; `sup` is where a value that SUPPLY gives goes: lane set or not, register, registers (R448). -/
structure Rec where
  id : Nat
  ctx : Nat
  cause : Cause
  sub : BitVec 8
  addr : DWord
  pc : DWord
  lanes : Mask
  data : DWord
  skein : Option Nat
  group : Option Nat
  gindex : Option (Nat × Nat)
  launch : Option Nat
  hdr : DWord
  label : Word
  ra : Bool
  eng : Bool
  reorder : Bool
  more : List (BitVec 512)
  bundle : Mask
  next : DWord
  sup : Option (Bool × Nat × Nat)
  slot : Option Nat
  ans : Option (BitVec 8)
  due : Bool
  lost : Bool
  hand : Bool
  byHandler : Bool
  deriving DecidableEq, Repr

/-! ## Threads, skeins and groups -/

/-- Why a thread is not ready (R89): it has exited, waits at a reorder point with a key and
the address it goes on at, or waits at a barrier slot. -/
inductive ThreadSt where
  | ready
  | exited
  | reorder (key : Word) (next : DWord)
  | bar (slot : Nat)
  deriving DecidableEq, Repr

/-- The explicit region a thread is in: its entry and live-in counts (R175). -/
structure Region where
  entry : DWord
  nv : Nat
  ns : Nat
  acc : Bool
  deriving DecidableEq, Repr

/-- A thread (R88): `num0` is its number at group start, which fixes its stack region (R22); `last` is the tick at which it last issued. -/
structure Thread where
  wid : DWord
  num0 : Nat
  pc : DWord
  stk : DWord
  v : Vector Word 120
  p : BitVec 8
  flags : BitVec 5
  st : ThreadSt
  region : Option Region
  last : Nat
  deriving DecidableEq, Repr

/-- A register result in flight to one destination (R96, R98). -/
inductive PWrite where
  | v (lane r : Nat) (x : Word)
  | s (r : Nat) (x : Word)
  | p (lane i : Nat) (x : Bool)
  | c (i : Nat) (x : Bool)
  | t (i : Nat) (x : BitVec 128)
  deriving DecidableEq, Repr

/-- The results of one instruction: its number in program order, the cycle of its die at which they are written, and them. -/
structure Pend where
  id : Nat
  due : Nat
  ws : List PWrite
  deriving DecidableEq, Repr

/-- A queue register (R278, R291, R293): its binding, a spool half pushed or still to pop, the words of a tiler record, the
elements of a status or miss stream. -/
structure QReg where
  bound : Bool
  ep : Nat
  prio : Nat
  half : Option (BitVec 128)
  popHalf : Option (BitVec 128)
  words : List Word
  elems : List DWord
  ovf : Bool
  deriving DecidableEq, Repr

/-- A lock held: the line, the L1 set it stood in, and whether the way is reserved and still empty after the group was placed
again (R331, R341). -/
structure HeldLock where
  line : Nat
  va : Nat
  set : Nat
  empty : Bool
  deriving DecidableEq, Repr

/-- A pin of a line (R345). -/
structure Pin where
  line : Nat
  va : Nat
  deriving DecidableEq, Repr

/-- One entry of the deterministic store buffer (R313): the writer and the threads whose own store it is (by their numbers at group
start), the bytes that some of these have given up since, the word by both addresses, the masked bytes, the policy, and the tick of the
store. -/
structure SBuf where
  thread : Nat
  owners : List Nat
  taken : List (Nat × BitVec 4)
  va : DWord
  pa : Nat
  seq : Nat
  mask : BitVec 4
  data : Word
  pol : Nat
  deriving DecidableEq, Repr

/-- Run-ahead of a bundle (R456): its lanes, which no other of the skein has, the record of its first fault and the address after
that instruction, issues so far, and the pages recorded. -/
structure RunAhead where
  lanes : Mask
  pc : DWord
  addr : DWord
  flanes : Mask
  sub : BitVec 8
  entry : DWord
  next : DWord
  issues : Nat
  pages : List DWord
  deriving DecidableEq, Repr

/-- A wait on a word that is registered and parked (R348, R179): what is read, compared and written when it is satisfied. -/
structure WaitReq where
  external : Bool
  join : Bool
  line : Nat
  va : DWord
  ty : Nat
  cc : Nat
  v : DWord
  d : Nat
  acq : Nat
  deriving DecidableEq, Repr

/-- Why a skein is parked. The first group executes its instruction again when it wakes; the second completes by an event. -/
inductive Park where
  /-- a busy tag, with the command that waits for it: tag, operation, release, block and its address (R282) -/
  | tag (t op : Nat) (rel : Bool) (addr : DWord) (blk : BitVec 512)
  /-- a queue register without room or element, or a full spool (R125, R160, R177) -/
  | queue
  /-- a line an engine owns (R260) -/
  | recall (line : Nat)
  /-- a host half asked for (R319) or a back-invalidate snoop out (R322) -/
  | half (h : Nat)
  /-- the tiler holds another pass, or a partial render runs (R438, R396) -/
  | tiler
  /-- a full egress input queue (R390) -/
  | egress (die stream : Nat)
  /-- a wait on a word (R348) -/
  | wait (w : WaitReq)
  /-- a line lock: line, destination, scope, L1 set (R358) -/
  | lock (line va d sc set : Nat)
  /-- a TWAIT: mask, any (R287) -/
  | twait (m : DWord) (any : Bool)
  /-- a fence: kind and scope (R355) -/
  | fence (kind sc : Nat)
  /-- a surface write not yet registered (R425) -/
  | surf
  /-- a SEAL registered, waiting for earlier writes (R388): operation, stream -/
  | seal (op : Nat) (stream : Option Nat)
  /-- the request ring lacks free slots (R457): service number and lanes -/
  | ring (service : Word) (lanes : Mask) (pc : DWord)
  /-- a service call waits for its response (R458): first slot, lanes -/
  | svc (slot : Nat) (lanes : Mask) (pc : DWord)
  deriving DecidableEq, Repr

/-- A skein (R91, R101). `uid` names it for its whole life; `idx` is its number in the group. While it is parked, `parkLanes`
are the lanes that wait, `parkNext` the address after their instruction and `parkEnds` those whose region it ends (R65, R175); until
cycle `hold` of its die it issues nothing (R173). -/
structure Skein where
  uid : Nat
  gid : Nat
  idx : Nat
  quarter : Nat
  slot : Nat
  resident : Bool
  threads : Vector Thread 32
  s : Vector Word 120
  c : BitVec 8
  fpmode : BitVec 4
  td : Vector (BitVec 128) 16
  acc : Table (BitVec 32768)
  q : Vector QReg 8
  rot : Nat
  marker : Bool
  pend : List Pend
  park : Option Park
  parkLanes : Mask
  parkNext : DWord
  parkEnds : Mask
  stops : List Nat
  preempt : Bool
  locks : List HeldLock
  pins : List Pin
  sbuf : List SBuf
  spilled : Nat
  runAhead : List RunAhead
  age : Nat
  hold : Nat
  deriving DecidableEq, Repr

/-- What a group is: a group of a launch or of a node's launch, a spool skein, a handler skein, a tile group (R34, R447, R397). -/
inductive GroupKind where
  | launch
  | spool (recAddr joinAddr : DWord) (prio : Nat)
  | handler (recAddr joinAddr : DWord)
  | tile (die : Nat)
  deriving DecidableEq, Repr

/-- A barrier phase (R353): its kind (true for BARP), its count, the threads arrived. -/
structure Phase where
  barp : Bool
  n : Nat
  arrived : List Nat
  deriving DecidableEq, Repr

/-- The tile a tile group shades (R397 to R402): tile number, round, whether it is the last, quad entries as (quad, mask), and
the writes already passed by the interlock as (entry, pixel); `across` is how many tiles the colour surface has in a row. -/
structure TileRound where
  tile : Nat
  across : Nat
  round : Nat
  last : Bool
  quads : List (Nat × BitVec 4)
  done : List (Nat × Nat)
  deriving DecidableEq, Repr

/-- A group (R16, R25, R26, R263, R454). `resident` is false while it is saved; `saveReq` while it is being pre-empted; `saveAt` is
where its save area lies. `gublockNext` is a block address written in this cycle, which holds from the next one on (R167). -/
structure Group where
  gid : Nat
  ctx : Nat
  launch : Nat
  index : Nat
  kind : GroupKind
  header : BitVec 1024
  hdrAddr : DWord
  cls : Nat
  die : Nat
  spindle : Nat
  resident : Bool
  saveReq : Bool
  saveAt : Nat
  gublock : DWord
  gublockNext : Option DWord
  tags : DWord
  busy : DWord
  status : Table (BitVec 128)
  bars : Table Phase
  scratch : List Host.Cell
  tile : Option TileRound
  place : Nat
  before : Bool
  killed : Bool
  deriving DecidableEq, Repr

/-! ## Work (R18 to R54) -/

/-- Where a launch comes from. -/
inductive LaunchSrc where
  | queue (n : Nat)
  | node (run node : Nat)
  | spool (prio : Nat)
  | handler
  | tile (die : Nat)
  deriving DecidableEq, Repr

/-- An accepted launch: header and its address, the next group to start, the groups retired, the die that took the last ply. -/
structure Launch where
  id : Nat
  ctx : Nat
  src : LaunchSrc
  header : BitVec 1024
  hdrAddr : DWord
  args : BitVec 512
  cls : Nat
  next : Nat
  retired : List Nat
  lastDie : Option Nat
  deriving DecidableEq, Repr

/-- A node of a run: its number, its record as read, its launch once begun, and whether it has completed. -/
structure RunNode where
  node : Nat
  record : BitVec 2048
  launch : Nat
  complete : Bool
  deriving DecidableEq, Repr

/-- A reel run in progress (R30, R31). -/
structure Run where
  id : Nat
  ctx : Nat
  trig : Nat
  reel : Nat
  nodes : List RunNode
  deriving DecidableEq, Repr

/-- A submission queue: QCFG, the tail QDOOR set, and whether its WAIT packet is registered (R36, R37). -/
structure SubQ where
  base : DWord
  logn : Nat
  qclass : Nat
  en : Bool
  head : Word
  tail : Word
  waiting : Bool
  deriving DecidableEq, Repr

/-- A trigger register: its pending request and when the arbiter saw it (R30). -/
structure Trig where
  pending : Option DWord
  seen : Nat
  deriving DecidableEq, Repr

/-- Push and pop counts of a spool queue (R177). -/
structure Spool where
  push : Nat
  pop : Nat
  deriving DecidableEq, Repr

/-- A hardware queue slot: its source, and its place in the order of mappings (R41, R42). -/
structure Slot where
  src : Source
  order : Nat
  deriving DecidableEq, Repr

/-- What a quarter issued last: the skein, its policy group (0 GTO, 1 RR, 2 DET), whether by YIELD, and the slot; the current
DET skein is kept until a switching point (R93, R94). -/
structure QuarterSt where
  skein : Nat
  policy : Nat
  gtoLast : Option Nat
  rrSlot : Option Nat
  detCur : Option Nat
  detYield : Option Nat
  fp64Until : Nat
  deriving DecidableEq, Repr

/-! ## Memory (R182 to R218, R319 to R323) -/

/-- The fields of a leaf an access needs (R186): the physical base of the page, its size, its bits. -/
structure Leaf where
  base : Nat
  size : Nat
  pol : Nat
  sys : Bool
  cmp : Bool
  rp : Bool
  tg : Bool
  xn : Bool
  w : Bool
  deriving DecidableEq, Repr

/-- A TLB entry (R189): in the miss TLB of a spindle or the cluster TLB of a cluster. -/
structure TlbEntry where
  cluster : Bool
  unit : Nat
  asid : Nat
  va : Nat
  leaf : Leaf
  deriving DecidableEq, Repr

/-- State codes of an L1 line (R194); `e` is ownership. -/
inductive LineSt where
  | s | d | e
  deriving DecidableEq, Repr

/-- An L1 line (R193, R194): spindle, address space and virtual line, physical line, words, which are filled and which dirty,
guard tags, leaf, origin, pins and lock, state, and whether an invalidation of it is queued (R205). `stale` asks for fresh
permissions (R192). -/
structure L1Line where
  spindle : Nat
  asid : Nat
  va : Nat
  pa : Nat
  data : Line
  filled : Mask
  dirty : Mask
  tags : BitVec 16
  leaf : Leaf
  home : Bool
  pin : Bool
  lock : Bool
  st : LineSt
  queued : Bool
  stale : Bool
  deriving DecidableEq, Repr

/-- A replicable mapping (R203): the physical address of the entry that makes it, the range that the entry can map, and whether the
entry still stands. -/
structure RpPage where
  pte : Nat
  base : Nat
  size : Nat
  live : Bool
  deriving DecidableEq, Repr

/-- State of a host half at its port slice (R319). -/
inductive HalfSt where
  | i | s | e | m
  deriving DecidableEq, Repr

/-- A message that leaves for the host or a peer (R316, R319, R326): an answer to a request of theirs, of no bytes when poisoned; a half
evicted; a read, a write of masked bytes, or an AtomicOp, of peer memory. -/
inductive Msg where
  | answer (bytes : List Byte)
  | dirtyEvict (half : Nat) (data : BitVec 512)
  | cleanEvict (half : Nat)
  | peerRead (line : Nat) (halves : List Nat)
  | peerWrite (line : Nat) (mask : BitVec 128) (data : Line)
  | peerAtomic (op : PeerOp) (wide : Bool) (pa : Nat) (x y : DWord)
  deriving DecidableEq, Repr

/-- A host half: its state, its bytes, poison (R318), and the answer of an RdCurr not yet used. -/
structure Half where
  st : HalfSt
  data : BitVec 512
  poison : Bool
  curr : Option (BitVec 512)
  deriving DecidableEq, Repr

/-- Host state of a half of a device line (R322); I is not listed. -/
inductive HostSt where
  | s | a
  deriving DecidableEq, Repr

/-- A waiter of a lock queue (R331): the skein, its scope, present or not. -/
structure LockWait where
  skein : Nat
  sc : Nat
  present : Bool
  deriving DecidableEq, Repr

/-- The lock state of a line (R331). -/
structure LockSt where
  holder : Option Nat
  broken : Bool
  queue : List LockWait
  reported : List (List Nat)
  deriving DecidableEq, Repr

/-- Who waits on a line at its slice (R348, R37, R448): a skein, a WAIT packet, a record's response word. -/
inductive Waiter where
  | skein (uid : Nat)
  | packet (ctx n : Nat)
  | resp (rec : Nat)
  | svc (uid : Nat)
  deriving DecidableEq, Repr

/-! ## Engines (R258 to R277) -/

/-- A command handed to an engine: opcode, the copies of block and tile descriptors, tag, who issued it and where. -/
structure Cmd where
  op : Nat
  block : BitVec 512
  blockAddr : DWord
  tag : Nat
  skein : Nat
  gid : Nat
  ctx : Nat
  pc : DWord
  tds : List (BitVec 128)
  nlt : BitVec 128
  deriving DecidableEq, Repr

/-- An engine of a spindle: commands in arrival order; the first runs while `running`, owning destination lines (R260). -/
structure Engine where
  queue : List Cmd
  running : Bool
  owned : List (Nat × Bool)
  deriving DecidableEq, Repr

/-! ## Surfaces, tiler, sampler, egress (R367 to R441) -/

/-- What a surface operation does to a tile: pixel writes and coefficient writes by block, a clear, a re-base, a seal. -/
inductive SurfAct where
  /-- one block: component, block index, mask, sixteen values -/
  | pixels (comp blk : Nat) (mask : BitVec 16) (vals : List Nat)
  | coef (comp blk s : Nat) (v : Int)
  | clear
  | rebase (mode mvx mvy : Nat)
  | seal
  deriving DecidableEq, Repr

/-- One lane's pixel of an ordered STPX (R428): its entry, its pixel in the 32×32 tile, its block and place, its values. -/
structure OrdPix where
  entry : Nat
  px : Nat
  blk : Nat
  pos : Nat
  vals : List Nat
  deriving DecidableEq, Repr

/-- A surface operation (R382, R388): the writer and its lanes, the descriptor's address and its number in memory by 64 bytes, the
tile, its actions; `ord` are pixels that the interlock still holds (R402), from component `comp0` on, `marks` the pairs it releases
when applied; `placed` once it stands before every later SEAL, `reg` once it may be applied. -/
structure SurfOp where
  id : Nat
  skein : Nat
  gid : Nat
  ctx : Nat
  lanes : Mask
  desc : DWord
  dhalf : Nat
  tile : Nat
  acts : List SurfAct
  comp0 : Nat
  ord : List OrdPix
  marks : List (Nat × Nat)
  placed : Bool
  reg : Bool
  deriving DecidableEq, Repr

/-- A reconstructed block held by its home slice (R372, R385): its header's number in memory by 16 bytes, component, block, pixels. -/
structure SCache where
  header : Nat
  comp : Nat
  blk : Nat
  pix : List Nat
  deriving DecidableEq, Repr

/-- A line of a filter program as samplers may hold it (R422): the launches that have sampled with it, and each content it had before
a write, with the launches that were running then. -/
structure Sampled where
  users : List Nat
  olds : List (Line × List Nat)
  deriving DecidableEq, Repr

/-- A record of a pass, as received: sequence number, arrival number, its sixteen words, the tiles it is binned into. -/
structure TRec where
  seq : Nat
  arrival : Nat
  words : BitVec 512
  tiles : List Nat
  deriving DecidableEq, Repr

/-- A round of a tile still to launch (R398): the bytes of its tile input and its entries. -/
structure RoundReq where
  tile : Nat
  round : TileRound
  input : List Byte
  deriving DecidableEq, Repr

/-- A binning pass of a die's tiler (R393 to R406): its number, the block, its context and class, the launch of its groups and the
launch whose class they take, whether it is open, records and counts, rounds to launch, and whether a partial render runs with the
records that wait for it. -/
structure Pass where
  ctx : Nat
  launch : Nat
  by_ : Nat
  block : BitVec 512
  header : BitVec 1024
  cls : Nat
  hdrAddr : DWord
  open_ : Bool
  recs : List TRec
  used : Nat
  arrivals : Nat
  records : Nat
  discarded : Nat
  partials : Nat
  groups : Nat
  rounds : List RoundReq
  rendering : Bool
  held : List TRec
  id : Nat
  deriving DecidableEq, Repr

/-- State of an entry of the decoupled sampling cache (R410). -/
inductive DscSt where
  | invalid
  | reserved (gid thread : Nat)
  | valid
  deriving DecidableEq, Repr

/-- An entry of the decoupled sampling cache of a spindle (R408): where it stands, its pass, key, value and use. -/
structure Dsc where
  spindle : Nat
  set : Nat
  way : Nat
  ctx : Nat
  pass : Nat
  key : DWord
  val : BitVec 128
  st : DscSt
  used : Nat
  deriving DecidableEq, Repr

/-- A frame being emitted (R391): its surface's descriptor, the next tile, and whether its opening bytes are out. -/
structure Emission where
  desc : DWord
  row : Nat
  col : Nat
  opened : Bool
  deriving DecidableEq, Repr

/-- An egress stream that runs (R389 to R392, R473): its record, the cycle it started at, the next deadline, its input queue, the
surface being emitted, when its first row was due, skipped-frame records still to write, its counts. -/
structure Stream where
  record : BitVec 512
  ctx : Nat
  started : Nat
  frame : Nat
  queue : List DWord
  emitting : Option Emission
  began : Nat
  owed : Nat
  produced : Nat
  frames : Nat
  missed : Nat
  last : DWord
  stopping : Bool
  deriving DecidableEq, Repr

/-! ## The whole device -/

/-- The bundle that issues: its skein, its lanes, its program counter, and whether the next issue is the age rotation (R89, R90). -/
structure Cur where
  skein : Nat
  lanes : Mask
  pc : DWord
  rotate : Bool
  deriving DecidableEq, Repr

/-- The block whose cycles a timer counts (R4): a die's spindles, the L2 slices, the Distaffs. -/
inductive Clock where
  | die (d : Nat)
  | slice
  | distaff
  deriving DecidableEq, Repr

/-- An event due at a count of a clock. -/
structure Timer where
  clock : Clock
  due : Nat
  ev : Instr
  deriving DecidableEq, Repr

/-- Everything of the device but the contexts' management registers. -/
structure Dev where
  -- time and order
  ticks : Nat
  dieCycles : Vector Nat 16
  phase : Vector Nat 16
  held : BitVec 16
  turn : Nat
  agenda : List Instr
  timers : List Timer
  free : Nat
  nextId : Nat
  cur : Cur
  -- memory
  mem : List Host.Cell
  tags : Table (BitVec 4)
  forms : Table (BitVec 4)
  written : Table Bool
  l1 : List L1Line
  tlb : List TlbEntry
  rpPages : List RpPage
  rpHeld : Table (List Line)
  dir : Table (List Nat)
  halves : Table Half
  hostState : Table HostSt
  snoops : List (Nat × Bool)
  hostReqs : List (Nat × HostReq)
  deferred : List (Nat × Instr)
  locks : Table LockSt
  l2pins : List (Nat × Nat × Nat)
  waiters : List (Nat × Waiter)
  -- work
  launches : List Launch
  groups : List Group
  skeins : List Skein
  subqs : Table SubQ
  trigs : Table Trig
  runs : List Run
  spools : Table Spool
  slots : Table Slot
  waitq : List (Source × Nat)
  nextSpindle : Table Nat
  frameDue : List (Nat × Nat × Option Nat)
  quarters : Table QuarterSt
  stalled : Table (Nat × Bool)
  -- faults and what the host sees
  records : List Rec
  irqs : List Nat
  linkErr : DWord
  portUp : BitVec 4
  portPeer : BitVec 4
  mmcmd : BitVec 256
  mmq : List (BitVec 256)
  outbox : List Msg
  -- engines and graphics
  engines : Table Engine
  surfOps : List SurfOp
  scache : List SCache
  stiles : Table (List (Nat × Line))
  tilers : Table Pass
  dsc : List Dsc
  progs : Table Sampled
  streams : Table Stream
  streamTab : Table DWord
  sealOnly : List Nat
  -- start and management
  resetting : Bool
  stage : Nat
  failStage : BitVec 8
  startNo : Nat
  startLog : List DWord
  images : List (List Byte)
  nextImages : List (Option (List Byte))
  stackMask : BitVec 32
  edgeRates : Vector Nat 24
  laneRates : Vector Nat 4
  saveGb : Nat
  saveMoves : Vector Nat 16
  mbcmd : DWord
  mbstat : DWord
  mbdata : Table DWord
  diecap : Vector DWord 16
  clockStep : Vector Nat 16
  hot : BitVec 16
  saveUsed : Vector Nat 16
  gatedSpindles : List Nat
  gatedSlices : List (Nat × Nat)
  deriving DecidableEq, Repr

/-- The machine. -/
structure State where
  mgmt : Mgmt
  dev : Dev
  deriving DecidableEq, Repr

/-- Why the model stops with a fault. No instruction and no step of the device ends in one. -/
inductive Fault where
  /-- Raised by `step` alone, when `agenda` (the model's own list of due events) holds a row that is an instruction word. Safe:
  no rule puts one there. -/
  | notAnEvent
  deriving DecidableEq, Repr

/-- Why the model refuses. -/
inductive Refusal where
  /-- Raised by an arm of `exec` whose instruction has no meaning in the model yet. Safe: nothing follows from a refused step. -/
  | notModelled (mnemonic : String)
  deriving DecidableEq, Repr

/-! ## Reset -/

/-- A context's registers at reset (R49, R184, R328, R349, R445; notes/assumptions/2 for those without a stated value). -/
def resetCtx : Ctx :=
  { ptbase := 0, ctxclass := 0, quantum := 22, nlt := 0, pinquota := 4096, watchdog := 4096, sigwin := 0,
    termt := 0x38D1B717, faultq := 0, ring := 0, detctl := 0, reeltab := 0,
    part := Vector.replicate 16 0x0000FFFFFFFFFFFF, spoolcfg := Vector.replicate 4 0 }

/-- The management registers at reset. (DESIGN CHOICE: notes/assumptions/2) -/
def resetMgmt : Mgmt := { ctxs := Vector.replicate 64 resetCtx }

/-- The rest of the device at reset: no work, no cached line, memory with nothing listed; a start has not run (R465;
notes/assumptions/2, 4, 5). -/
def resetDev : Dev :=
  { ticks := 0, dieCycles := Vector.replicate 16 0, phase := Vector.replicate 16 0, held := 0, turn := 0, agenda := [],
    timers := [], free := 0, nextId := 0, cur := { skein := 0, lanes := 0, pc := 0, rotate := false },
    mem := [], tags := [], forms := [], written := [], l1 := [], tlb := [], rpPages := [], rpHeld := [], dir := [], halves := [],
    hostState := [], snoops := [], hostReqs := [], deferred := [], locks := [], l2pins := [], waiters := [],
    launches := [], groups := [], skeins := [], subqs := [], trigs := [], runs := [], spools := [], slots := [], waitq := [],
    nextSpindle := [], frameDue := [], quarters := [], stalled := [],
    records := [], irqs := [], linkErr := 0, portUp := 0, portPeer := 0, mmcmd := 0, mmq := [], outbox := [],
    engines := [], surfOps := [], scache := [], stiles := [], tilers := [], dsc := [], progs := [], streams := [], streamTab := [],
    sealOnly := [],
    resetting := false, stage := 0, failStage := 0xFF, startNo := 0, startLog := [], images := [[], [], []],
    nextImages := [none, none, none], stackMask := 0xFFFFFFFF, edgeRates := Vector.replicate 24 8, laneRates := Vector.replicate 4 16,
    saveGb := 16, saveMoves := Vector.replicate 16 0, mbcmd := 0, mbstat := 0, mbdata := [], diecap := Vector.replicate 16 0,
    clockStep := Vector.replicate 16 0,
    hot := 0, saveUsed := Vector.replicate 16 0, gatedSpindles := [], gatedSlices := [] }

/-- The machine right after reset. (DESIGN CHOICE: notes/assumptions/2) -/
def State.reset : State := { mgmt := resetMgmt, dev := resetDev }

end Sys2Proof.Machine
end

