-- ==== Sys2Proof/Machine/Ops.lean ====
section
/-!
DEFINITION. The named operations over registers and plain bytes that every meaning is written with: contexts, skeins, threads,
results in flight, free values, events, and taking an exception (R442 to R449) and returning from one (R448).
-/

namespace Sys2Proof.Machine

/-! ## Contexts and headers -/

/-- The management registers of a context. -/
def ctxOf (m : Mgmt) (c : Nat) : Ctx := (m.ctxs[c]?).getD resetCtx

/-- The management state with a context's registers replaced. -/
def setCtx (m : Mgmt) (c : Nat) (x : Ctx) : Mgmt := { m with ctxs := m.ctxs.setIfInBounds c x }

/-- A natural field of a wide value. -/
def bitsOf {w : Nat} (x : BitVec w) (lo n : Nat) : Nat := x.toNat / 2 ^ lo % 2 ^ n

/-- Whether a context is deterministic (R329). -/
def isDet (m : Mgmt) (c : Nat) : Bool := (ctxOf m c).detctl.getLsbD 0

/-- Whether a context's translation is enabled, and its address space (R184). -/
def ctxEnabled (m : Mgmt) (c : Nat) : Bool := (ctxOf m c).ptbase.getLsbD 0
def ctxAsid (m : Mgmt) (c : Nat) : Nat := bitsOf (ctxOf m c).ptbase 48 16

/-- The fields of a launch header (R18). -/
def hEntry (h : BitVec 1024) : DWord := h.extractLsb' 0 64
def hArgs (h : BitVec 1024) : DWord := h.extractLsb' 64 64
def hNGroups (h : BitVec 1024) : Nat := bitsOf h 128 64
def hStackBase (h : BitVec 1024) : Nat := bitsOf h 192 64
def hEvents (h : BitVec 1024) : DWord := h.extractLsb' 256 64
def hCommitLog (h : BitVec 1024) : DWord := h.extractLsb' 320 64
def hLabel (h : BitVec 1024) : Word := h.extractLsb' 384 32
def hStackSz (h : BitVec 1024) : Nat := bitsOf h 416 16
def hStackGrp (h : BitVec 1024) : Nat := bitsOf h 432 16
def hW1 (h : BitVec 1024) : Nat := bitsOf h 448 8
def hW (h : BitVec 1024) (i : Nat) : Nat := bitsOf h (448 + 8 * (i - 1)) 8
def hPly (h : BitVec 1024) : Nat := bitsOf h 488 8
def hPolicy (h : BitVec 1024) : Nat := bitsOf h 496 2
def hClass (h : BitVec 1024) : Nat := bitsOf h 498 2
def hVregs (h : BitVec 1024) : Nat := bitsOf h 504 8
def hSregs (h : BitVec 1024) : Nat := bitsOf h 512 8
def hBars (h : BitVec 1024) : Nat := bitsOf h 520 8
def hAcct (h : BitVec 1024) : Nat := bitsOf h 528 8
def hTagBase (h : BitVec 1024) : Nat := bitsOf h 536 8
def hTagCnt (h : BitVec 1024) : Nat := bitsOf h 544 8
def hScratch (h : BitVec 1024) : Nat := bitsOf h 552 16
def hCommitSz (h : BitVec 1024) : Nat := bitsOf h 576 32

/-- Skeins of a group, and the widest scratch offset of it (R16, R198). -/
def hSkeins (h : BitVec 1024) : Nat := 2 ^ hW1 h
def hScratchBytes (h : BitVec 1024) : Nat := hScratch h * 1024

/-- What words of a group's skeins are checked against (R20, R21). -/
def allocOf (g : Group) : Alloc :=
  { v := min (8 * hVregs g.header) 120, s := min (8 * hSregs g.header) 120, bars := hBars g.header,
    tagBase := hTagBase g.header, tagCnt := hTagCnt g.header }

/-! ## Lists with names -/

/-- A list with every element that a test marks replaced by its image. -/
def modWhere {α : Type} (p : α → Bool) (f : α → α) (l : List α) : List α := l.map fun x => if p x then f x else x

/-! ## Skeins, groups, launches -/

/-- A thread that has done nothing. -/
def blankThread : Thread :=
  { wid := 0, num0 := 0, pc := 0, stk := 0, v := Vector.replicate 120 0, p := 0, flags := 0, st := .ready, region := none,
    last := 0 }

/-- An unbound queue register. -/
def blankQ : QReg :=
  { bound := false, ep := 0, prio := 0, half := none, popHalf := none, words := [], elems := [], ovf := false }

/-- A skein that has done nothing. -/
def blankSkein : Skein :=
  { uid := 0, gid := 0, idx := 0, quarter := 0, slot := 0, resident := false, threads := Vector.replicate 32 blankThread,
    s := Vector.replicate 120 0, c := 0, fpmode := 0, td := Vector.replicate 16 0, acc := [], q := Vector.replicate 8 blankQ,
    rot := 0, marker := false, pend := [], park := none, parkLanes := 0, parkNext := 0, parkEnds := 0, stops := [], preempt := false, locks := [],
    pins := [], sbuf := [], spilled := 0, runAhead := [], age := 0, hold := 0 }

/-- A group that holds nothing. -/
def blankGroup : Group :=
  { gid := 0, ctx := 0, launch := 0, index := 0, kind := .launch, header := 0, hdrAddr := 0, cls := 3, die := 0, spindle := 0,
    resident := false, saveReq := false, saveAt := 0, gublock := 0, gublockNext := none, tags := 0, busy := 0, status := [], bars := [], scratch := [],
    tile := none, place := 0, before := false, killed := false }

def skein? (d : Dev) (u : Nat) : Option Skein := d.skeins.find? fun k => k.uid == u
def skeinOf (d : Dev) (u : Nat) : Skein := (skein? d u).getD blankSkein
def group? (d : Dev) (g : Nat) : Option Group := d.groups.find? fun x => x.gid == g
def groupOf (d : Dev) (g : Nat) : Group := (group? d g).getD blankGroup
def launch? (d : Dev) (i : Nat) : Option Launch := d.launches.find? fun x => x.id == i

/-- The device with one skein, group or launch changed. -/
def modSkein (d : Dev) (u : Nat) (f : Skein → Skein) : Dev :=
  { d with skeins := modWhere (fun k => k.uid == u) f d.skeins }
def modGroup (d : Dev) (g : Nat) (f : Group → Group) : Dev :=
  { d with groups := modWhere (fun x => x.gid == g) f d.groups }
def modLaunch (d : Dev) (i : Nat) (f : Launch → Launch) : Dev :=
  { d with launches := modWhere (fun x => x.id == i) f d.launches }

/-- The issuing skein, its group and context. -/
def curSkein (d : Dev) : Skein := skeinOf d d.cur.skein
def curGroup (d : Dev) : Group := groupOf d (curSkein d).gid
def curCtx (d : Dev) : Nat := (curGroup d).ctx

/-- The device-wide number of a spindle, and its die. -/
def spindleNo (g : Group) : Nat := 48 * g.die + g.spindle
def curSpindle (d : Dev) : Nat := spindleNo (curGroup d)
def quarterNo (g : Group) (k : Skein) : Nat := 4 * spindleNo g + k.quarter

/-- The cycles a die's spindles have counted (R11, R13). -/
def cyclesOf (d : Dev) (die : Nat) : Nat := (d.dieCycles[die]?).getD 0

/-- A fresh name. -/
def fresh (d : Dev) : Nat × Dev := (d.nextId, { d with nextId := d.nextId + 1 })

/-! ## Free values (R5, R6; notes/assumptions/3) -/

/-- A free value of this step, by a number that tells the values of one step apart. (DESIGN CHOICE: notes/assumptions/3) -/
def freeVal (d : Dev) (k : Nat) : DWord := Config.freeBits d.free k
def freeWord (d : Dev) (k : Nat) : Word := (freeVal d k).setWidth 32
def freeBit (d : Dev) (k : Nat) : Bool := (freeVal d k).getLsbD 0

/-- A free choice below `n`. (DESIGN CHOICE: notes/assumptions/3) -/
def freeBelow (d : Dev) (k n : Nat) : Nat := if n ≤ 1 then 0 else (freeVal d k).toNat % n

/-! ## Events -/

/-- An event due at once, after those already due. (DESIGN CHOICE: notes/assumptions/1) -/
def post (d : Dev) (e : Instr) : Dev := { d with agenda := d.agenda ++ [e] }

/-- Events in their order. (DESIGN CHOICE: notes/assumptions/1) -/
def postAll (d : Dev) (es : List Instr) : Dev := { d with agenda := d.agenda ++ es }

/-- An event due after `n` more cycles of a clock. -/
def clockNow (d : Dev) : Clock → Nat
  | .die k => cyclesOf d k
  | .slice => d.ticks
  | .distaff => d.ticks / 2
def postAfter (d : Dev) (c : Clock) (n : Nat) (e : Instr) : Dev :=
  { d with timers := d.timers ++ [{ clock := c, due := clockNow d c + n, ev := e }] }

/-- An interrupt message of MSI-X entry `e` (R330). (DESIGN CHOICE: notes/assumptions/64) -/
def interrupt (d : Dev) (e : Nat) : Dev := { d with irqs := d.irqs ++ [e] }

/-- One more dropped or refused access (R328, R476). -/
def countLinkErr (d : Dev) : Dev := { d with linkErr := d.linkErr + 1 }

/-! ## Lanes and registers -/

/-- The lanes of a mask, ascending. -/
def lanesOf (m : Mask) : List Nat := (List.range 32).filter fun i => m.getLsbD i

/-- A mask from a test on lanes. -/
def maskOf (f : Nat → Bool) : Mask :=
  (List.range 32).foldl (fun m i => if f i then m ||| BitVec.ofNat 32 (2 ^ i) else m) 0

/-- A thread of a skein. -/
def threadOf (k : Skein) (lane : Nat) : Thread := (k.threads[lane]?).getD blankThread
def setThread (k : Skein) (lane : Nat) (t : Thread) : Skein := { k with threads := k.threads.setIfInBounds lane t }
def modThread (k : Skein) (lane : Nat) (f : Thread → Thread) : Skein := setThread k lane (f (threadOf k lane))
def modThreads (k : Skein) (ls : List Nat) (f : Nat → Thread → Thread) : Skein :=
  ls.foldl (fun k l => modThread k l (f l)) k

/-- The written values of registers; p7 and c7 are always true (R59). -/
def regV (k : Skein) (lane r : Nat) : Word := ((threadOf k lane).v[r]?).getD 0
def regS (k : Skein) (r : Nat) : Word := (k.s[r]?).getD 0
def regP (k : Skein) (lane i : Nat) : Bool := i == 7 || (threadOf k lane).p.getLsbD i
def regC (k : Skein) (i : Nat) : Bool := i == 7 || k.c.getLsbD i
def regT (k : Skein) (i : Nat) : BitVec 128 := (k.td[i]?).getD 0

/-- One bit of eight set or cleared; bit 7 discards writes (R59). -/
def setBit8 (x : BitVec 8) (i : Nat) (b : Bool) : BitVec 8 :=
  if i = 7 then x
  else if b then x ||| BitVec.ofNat 8 (2 ^ i) else x &&& ~~~(BitVec.ofNat 8 (2 ^ i))

/-- One result written. -/
def applyWrite (k : Skein) : PWrite → Skein
  | .v l r x => modThread k l fun t => { t with v := t.v.setIfInBounds r x }
  | .s r x => { k with s := k.s.setIfInBounds r x }
  | .p l i b => modThread k l fun t => { t with p := setBit8 t.p i b }
  | .c i b => { k with c := setBit8 k.c i b }
  | .t i x => { k with td := k.td.setIfInBounds i x }

/-- Whether two results go to one destination. -/
def sameDest : PWrite → PWrite → Bool
  | .v l r _, .v l' r' _ => l == l' && r == r'
  | .s r _, .s r' _ => r == r'
  | .p l i _, .p l' i' _ => l == l' && i == i'
  | .c i _, .c i' _ => i == i'
  | .t i _, .t i' _ => i == i'
  | _, _ => false

/-- Whether a result is destined to a register a test names. -/
def pendAny (k : Skein) (f : PWrite → Bool) : Bool := k.pend.any fun p => p.ws.any f

/-- The newest result in flight that a test names. -/
def pendLast (k : Skein) (f : PWrite → Bool) : Option PWrite :=
  k.pend.foldl (fun acc p => match p.ws.find? f with | some w => some w | none => acc) none

/-- The value a read of a register gives: the written one, or, while a write is pending, that or the new one (R99). `n` tells
the reads of one step apart. -/
def readV (d : Dev) (k : Skein) (lane r : Nat) : Word :=
  match pendLast k (fun w => match w with | .v l q _ => l == lane && q == r | _ => false) with
  | some (.v _ _ x) => if freeBit d (lane * 128 + r) then x else regV k lane r
  | _ => regV k lane r
def readS (d : Dev) (k : Skein) (r : Nat) : Word :=
  match pendLast k (fun w => match w with | .s q _ => q == r | _ => false) with
  | some (.s _ x) => if freeBit d (4096 + r) then x else regS k r
  | _ => regS k r
def readP (d : Dev) (k : Skein) (lane i : Nat) : Bool :=
  match pendLast k (fun w => match w with | .p l q _ => l == lane && q == i | _ => false) with
  | some (.p _ _ x) => if i == 7 then true else if freeBit d (4224 + lane * 8 + i) then x else regP k lane i
  | _ => regP k lane i
def readC (d : Dev) (k : Skein) (i : Nat) : Bool :=
  match pendLast k (fun w => match w with | .c q _ => q == i | _ => false) with
  | some (.c _ x) => if i == 7 then true else if freeBit d (4480 + i) then x else regC k i
  | _ => regC k i
def readT (d : Dev) (k : Skein) (i : Nat) : BitVec 128 :=
  match pendLast k (fun w => match w with | .t q _ => q == i | _ => false) with
  | some (.t _ x) => if freeBit d (4488 + i) then x else regT k i
  | _ => regT k i

/-- `n` registers from one on as a natural, the first the lowest (R109). -/
def joinRegs (rd : Nat → Word) (r : Nat) : Nat → Nat
  | 0 => 0
  | n + 1 => (rd r).toNat + 2 ^ 32 * joinRegs rd (r + 1) n

/-- A natural cut into `n` registers from one on. -/
def splitRegs (wr : Nat → Word → PWrite) (r : Nat) (x : Nat) : Nat → List PWrite
  | 0 => []
  | n + 1 => wr r (BitVec.ofNat 32 x) :: splitRegs wr (r + 1) (x / 2 ^ 32) n

/-- A pair of uniform registers as a pointer. -/
def readS64 (d : Dev) (k : Skein) (r : Nat) : DWord := BitVec.ofNat 64 (joinRegs (readS d k) r 2)

/-- Results of an instruction of latency `lat`, in flight from now (R96); none at all is no result. (DEDUCED: notes/assumptions/10) -/
def addPend (d : Dev) (u lat : Nat) (ws : List PWrite) : Dev :=
  if ws.isEmpty then d
  else
    let due := cyclesOf d (groupOf d (skeinOf d u).gid).die + lat
    modSkein { d with nextId := d.nextId + 1 } u fun k => { k with pend := k.pend ++ [{ id := d.nextId, due := due, ws := ws }] }

/-- The result of number `i` written; older results to its destinations are dropped (R100). -/
def writeBack (k : Skein) (i : Nat) : Skein :=
  match k.pend.find? fun p => p.id == i with
  | none => k
  | some p =>
    let k1 := p.ws.foldl applyWrite k
    let keep (q : Pend) : Pend :=
      if q.id < i then { q with ws := q.ws.filter fun w => !p.ws.any (sameDest w) } else q
    { k1 with pend := ((k.pend.filter fun q => q.id != i).map keep).filter fun q => !q.ws.isEmpty }

/-- Results written at once; older ones in flight to their destinations are dropped (R100). -/
def writeNow (k : Skein) (ws : List PWrite) : Skein :=
  let keep (q : Pend) : Pend := { q with ws := q.ws.filter fun w => !ws.any (sameDest w) }
  { ws.foldl applyWrite k with pend := (k.pend.map keep).filter fun q => !q.ws.isEmpty }

/-- Every result in flight written in program order. -/
def drainPend (k : Skein) : Skein :=
  { (k.pend.foldl (fun k p => p.ws.foldl applyWrite k) k) with pend := [] }

/-! ## Plain bytes (R2; notes/assumptions/4) -/

/-- What a byte that nothing has written reads as. (DESIGN CHOICE: notes/assumptions/4) -/
def unlistedByte : Byte := 0

/-- One byte of physical memory. (DESIGN CHOICE: notes/assumptions/4) -/
def memByte (mem : List Host.Cell) (a : Nat) : Byte := tget mem a unlistedByte

/-- Memory with one byte written, in canonical form. (DESIGN CHOICE: notes/assumptions/4) -/
def memSet (mem : List Host.Cell) (a : Nat) (b : Byte) : List Host.Cell := tput mem a b unlistedByte

/-- The canonical form of memory: addresses strictly rising, no entry equal to what an unlisted address reads as.
(DESIGN CHOICE: notes/assumptions/4) -/
abbrev Memory.wf (mem : List Host.Cell) : Bool := twf mem unlistedByte

/-- `n` bytes from `a` on as a little-endian natural. -/
def memNat (mem : List Host.Cell) (a : Nat) : Nat → Nat
  | 0 => 0
  | n + 1 => (memByte mem a).toNat + 256 * memNat mem (a + 1) n

/-- Memory with a little-endian natural written to `n` bytes from `a` on. -/
def memPut (mem : List Host.Cell) (a x : Nat) : Nat → List Host.Cell
  | 0 => mem
  | n + 1 => memPut (memSet mem a (BitVec.ofNat 8 x)) (a + 1) (x / 256) n

/-- Memory with a list of bytes written from `a` on. -/
def memBytes (mem : List Host.Cell) (a : Nat) : List Byte → List Host.Cell
  | [] => mem
  | b :: r => memBytes (memSet mem a b) (a + 1) r

/-- `n` bytes from `a` on. -/
def memList (mem : List Host.Cell) (a : Nat) : Nat → List Byte
  | 0 => []
  | n + 1 => memByte mem a :: memList mem (a + 1) n

/-- Bytes of a little-endian natural, and back. -/
def natBytes (x : Nat) : Nat → List Byte
  | 0 => []
  | n + 1 => BitVec.ofNat 8 x :: natBytes (x / 256) n
def bytesNat : List Byte → Nat
  | [] => 0
  | b :: r => b.toNat + 256 * bytesNat r

/-! ## Taking an exception -/

/-- The code of a cause (R442). -/
def causeCode : Cause → Nat
  | .illegal => 1 | .align => 2 | .guard => 3 | .bounds => 4 | .xlate => 5 | .perm => 6 | .selector => 7 | .check => 8
  | .detviol => 9 | .hazard => 10 | .lockuse => 11 | .nulltgt => 12 | .queueuse => 13 | .dataerr => 14 | .bkpt => 15
  | .svc => 16 | .watchdog => 32 | .deadlock => 33 | .allExternal => 34

/-- The code of an XLATE's cause (R188). -/
def xlateCode : XlateCause → Nat
  | .noncanon => 1 | .unmapped => 2 | .badpte => 3 | .badpa => 4

/-- What an instruction's fault says: cause, sub-code, address, lanes, data (R443, R444). For an XLATE also the page entries
of every lane that fails, and which destinations run-ahead leaves undefined (R456); `sup` as in `Rec`. -/
structure FaultInfo where
  cause : Cause
  sub : Nat
  addr : DWord
  lanes : Mask
  data : DWord
  pages : List DWord
  undef : List PWrite
  undefPc : Bool
  sup : Option (Bool × Nat × Nat)
  deriving DecidableEq, Repr

/-- A fault with no sub-code and no data. (DEDUCED: notes/assumptions/48) -/
def faultAt (c : Cause) (addr : DWord) (lanes : Mask) : FaultInfo :=
  { cause := c, sub := 0, addr := addr, lanes := lanes, data := 0, pages := [], undef := [], undefPc := false, sup := none }

/-- A record of a context, not yet written. -/
def blankRec (id ctx : Nat) (c : Cause) : Rec :=
  { id := id, ctx := ctx, cause := c, sub := 0, addr := 0, pc := 0, lanes := 0, data := 0, skein := none, group := none,
    gindex := none, launch := none, hdr := 0, label := 0, ra := false, eng := false, reorder := false, more := [], bundle := 0,
    next := 0, sup := none, slot := none, ans := none, due := false, lost := false, hand := false, byHandler := false }

/-- A record handed to the lead Distaff (R446). With POLICY 1 or 2 it is written with its ACTION and acts at once as KILL-LAUNCH or
KILL-CONTEXT (R449). (DESIGN CHOICE: notes/assumptions/54) -/
def addRecord (m : Mgmt) (d : Dev) (r : Rec) : Dev :=
  let pol := bitsOf (ctxOf m r.ctx).faultq 10 2
  let ans : Option (BitVec 8) :=
    if r.cause == .allExternal then none else if pol == 1 then some 5 else if pol == 2 then some 6 else none
  let d1 := post { d with records := d.records ++ [{ r with ans := ans, due := ans.isSome }] } (.faultRecord r.id)
  match ans with
  | some 5 => post d1 (.killLaunch r.id)
  | some 6 => post d1 (.killContext r.id)
  | _ => d1

/-- HDR and LABEL of a group (R443). -/
def hdrOf (g : Group) : DWord := match g.kind with | .spool a _ _ => a | .handler a _ => a | _ => g.hdrAddr
def labelOf (g : Group) : Word := match g.kind with | .launch => hLabel g.header | .tile _ => hLabel g.header | _ => 0

/-- The header address and label a record of a group quotes (R443). -/
def recGroup (g : Group) (k : Skein) (r : Rec) : Rec :=
  { r with
    skein := some k.uid, group := some g.gid, gindex := some (g.index, k.idx), launch := some g.launch,
    hdr := hdrOf g, label := labelOf g,
    byHandler := match g.kind with | .handler .. => true | _ => false }

/-- Taking an exception: the skein stops at the instruction at `pc`, with nothing of it done, and a record is posted (R448,
R446). `bundle` and `next` are the lanes that issued it and the address after it. -/
def takeFault (m : Mgmt) (d : Dev) (u : Nat) (pc next : DWord) (bundle : Mask) (f : FaultInfo) : Dev :=
  let k := skeinOf d u
  let g := groupOf d k.gid
  let (i, d1) := fresh d
  let r : Rec := recGroup g k
    { blankRec i g.ctx f.cause with
      sub := BitVec.ofNat 8 f.sub, addr := f.addr, pc := pc, lanes := f.lanes, data := f.data, bundle := bundle, next := next,
      sup := f.sup }
  addRecord m (modSkein d1 u fun k => { k with stops := k.stops ++ [i], park := none }) r

/-- A record of a launch that names no skein, and one of no launch (R443). -/
def takeLaunchFault (m : Mgmt) (d : Dev) (ctx : Nat) (c : Cause) (sub : Nat) (addr hdr : DWord) (label : Word) : Dev :=
  let (i, d1) := fresh d
  addRecord m d1 { blankRec i ctx c with sub := BitVec.ofNat 8 sub, addr := addr, hdr := hdr, label := label }
def takeDeviceFault (m : Mgmt) (d : Dev) (ctx : Nat) (c : Cause) (sub : Nat) (addr hdr : DWord) : Dev :=
  takeLaunchFault m d ctx c sub addr hdr 0

/-- The records of an operation of a group, made since `d0`, that name no skein, with the group's HDR and LABEL (R443). -/
def namedBy (d0 : Dev) (g : Group) (d : Dev) : Dev :=
  let mine (r : Rec) : Bool := decide (d0.nextId ≤ r.id) && r.skein.isNone
  if d0.nextId = d.nextId then d
  else { d with records := modWhere mine (fun r => { r with hdr := hdrOf g, label := labelOf g }) d.records }

/-- Returning from an exception: the record no longer stops the skein (R448, R451). -/
def releaseStop (d : Dev) (u i : Nat) : Dev :=
  { modSkein d u (fun k => { k with stops := k.stops.filter fun j => j != i }) with
    records := d.records.filter fun r => r.id != i }

end Sys2Proof.Machine
end

