-- ==== Sys2Proof/Machine/Operands.lean ====
section
/-!
DEFINITION. The operand forms of the instruction set: types and their widths in registers (R68, R109), guards (R65, R107),
source modifiers (R110), immediates (R113), pending registers an instruction reads (R99), and results. Each is written once over
a register reader and a register writer, so that the lane set and the uniform set share it.
-/

namespace Sys2Proof.Machine

/-! ## Types (R68, R109) -/

/-- Width of a type in bits. -/
def tyBits (ty : BitVec 4) : Nat :=
  match ty.toNat with
  | 2 | 3 | 5 | 14 => 64
  | 6 | 7 | 12 | 13 => 16
  | 10 | 11 => 8
  | 15 => 128
  | _ => 32

/-- Width of a type in bytes. -/
def tyBytes (ty : BitVec 4) : Nat := tyBits ty / 8

/-- Whether a type reads as a signed integer. -/
def tySigned (ty : BitVec 4) : Bool := ty == 0 || ty == 2 || ty == 10 || ty == 12

/-- The low `w` bits of a pattern as an integer, signed or natural (Sext and Zext of R107). -/
def readInt (w : Nat) (sg : Bool) (x : Nat) : Int :=
  let y := x % 2 ^ w
  if sg && decide (2 ^ (w - 1) ≤ y) then (y : Int) - 2 ^ w else y

/-- Wrap of R107: the `w`-bit pattern of an integer. -/
def wrapInt (w : Nat) (x : Int) : Nat := (x % (2 : Int) ^ w).toNat

/-- Clamp of R107. -/
def clampInt (lo hi x : Int) : Int := if x < lo then lo else if hi < x then hi else x

/-- The least and greatest value of an integer of `w` bits. -/
def intMin (w : Nat) (sg : Bool) : Int := if sg then -(2 ^ (w - 1) : Int) else 0
def intMax (w : Nat) (sg : Bool) : Int := if sg then 2 ^ (w - 1) - 1 else 2 ^ w - 1

/-- How a value of a type stands in its registers: .i8 and .i16 sign-extended to 32 bits, the rest zero-extended (R109). -/
def regPattern (ty : BitVec 4) (x : Nat) : Nat :=
  if ty == 10 || ty == 12 then wrapInt 32 (readInt (tyBits ty) true x) else x % 2 ^ tyBits ty

/-! ## Reading and writing through a reader and a writer -/

/-- The registers of one thread, or of the skein, as an instruction reads them. -/
abbrev Reader := Nat → Word

/-- Where a result of one register goes. -/
abbrev Writer := Nat → Word → PWrite

/-- The bit pattern of a value of a type (Val of R107). -/
def patOf (rd : Reader) (r : BitVec 7) (ty : BitVec 4) : Nat := joinRegs rd r.toNat (tyRegs ty) % 2 ^ tyBits ty

/-- The integer of a type. -/
def intOf (rd : Reader) (r : BitVec 7) (ty : BitVec 4) : Int := readInt (tyBits ty) (tySigned ty) (patOf rd r ty)

/-- A result of a type. -/
def resOf (wr : Writer) (r : BitVec 7) (ty : BitVec 4) (x : Nat) : List PWrite :=
  splitRegs wr r.toNat (regPattern ty x) (tyRegs ty)

/-- A result of one register. -/
def res1 (wr : Writer) (r : BitVec 7) (x : Nat) : List PWrite := splitRegs wr r.toNat x 1

/-- A predicate result of a lane and a condition result; number 7 discards it (R59). -/
def predRes (lane : Nat) (i : BitVec 3) (b : Bool) : List PWrite := if i == 7 then [] else [.p lane i.toNat b]
def condRes (i : BitVec 3) (b : Bool) : List PWrite := if i == 7 then [] else [.c i.toNat b]

/-- The writers of a lane and of the skein. -/
def wrV (lane : Nat) : Writer := fun r x => .v lane r x
def wrS : Writer := fun r x => .s r x

/-- Whether a pointer is non-canonical (R182). -/
def nonCanon (a : DWord) : Bool := bitsOf a 60 4 != 0 || bitsOf a 48 8 != 0

/-! ## Guards and modifiers (R65, R110, R113) -/

/-- The XM a word acts with. -/
def lrXm (o : Lr) (dty : BitVec 4) : Xm := o.xm.getD (xmDefault dty)
def lpXm (o : Lp) (dty : BitVec 4) : Xm := o.xm.getD (xmDefault dty)
def lvXm (o : Lv) : Xm := o.xm.getD (xmDefault 0)
def plopXm (o : Plop) : Xm := o.xm.getD (xmDefault 0)

/-- Bytes of a word with an optional extension. -/
def lenOf {α : Type} (x : Option α) : Nat := if x.isSome then 8 else 4

/-- The immediate of an LK or UK word, k8 read as signed or natural (R113), as a 32-bit pattern. -/
def immOf (o : Lk) (sg : Bool) : Word :=
  match o.xl with
  | some x => x
  | none => if sg then o.k.signExtend 32 else o.k.setWidth 32

/-- Rounding code and FTZ of an issue, .dyn resolved (R69, R104). -/
def envOf (k : Skein) (rm : BitVec 3) : FEnv :=
  { rm := if rm == 5 then bitsOf k.fpmode 0 3 else rm.toNat, ftz := k.fpmode.getLsbD 3 }

/-- The format of a floating type, an element's for a packed one. -/
def fmtOf (ty : BitVec 4) : Fmt :=
  match ty.toNat with
  | 5 => fmtF64
  | 6 | 8 => fmtF16
  | 7 | 9 => fmtBF16
  | _ => fmtF32

/-- abs, then neg, on the sign bit of a pattern (R110). -/
def absNeg (k : Fmt) (abs neg : Bool) (x : Nat) : Nat :=
  let s := 2 ^ (k.e + k.f)
  let y := if abs && decide (s ≤ x) then x - s else x
  if neg then (if s ≤ y then y - s else y + s) else y

/-- One source of floating type with its modifiers: source 0, 1, 2 is a, b, c, bit 2, 1, 0 of XM's abs and neg fields (R64). -/
def fsrc (x : Xm) (i : Nat) (pat : Nat) : Nat :=
  absNeg (fmtOf x.ty) (x.abs.getLsbD (2 - i)) (x.neg.getLsbD (2 - i)) pat

/-- An operation on each element of its sources: one, or two for the packed types, whose flags are ORed (R111). -/
def perElement (ty : BitVec 4) (f : List Nat → Nat × FFlags) (srcs : List Nat) : Nat × FFlags :=
  if ty == 8 || ty == 9 then
    let a := f (srcs.map (· % 2 ^ 16))
    let b := f (srcs.map (· / 2 ^ 16))
    (a.1 + 2 ^ 16 * b.1, a.2 ||| b.2)
  else f srcs

/-! ## Pending registers read (R99) -/

/-- What an instruction reads: registers of the executing lanes, of every lane of the bundle, predicates of either, uniform
registers, conditions, tile descriptors. -/
inductive Rd where
  | v (r : BitVec 7) (n : Nat)
  | vb (r : BitVec 7) (n : Nat)
  | p (i : Nat)
  | pb (i : Nat)
  | s (r : BitVec 7) (n : Nat)
  | c (i : Nat)
  | t (i : Nat)
  deriving DecidableEq, Repr

/-- The lanes of a mask that read a pending vector register or predicate. -/
def hazV (k : Skein) (ls : Mask) (r n : Nat) : Mask :=
  maskOf fun l => ls.getLsbD l &&
    pendAny k fun w => match w with | .v l' q _ => l' == l && decide (r ≤ q) && decide (q < r + n) | _ => false
def hazP (k : Skein) (ls : Mask) (i : Nat) : Mask :=
  maskOf fun l => ls.getLsbD l && pendAny k fun w => match w with | .p l' q _ => l' == l && q == i | _ => false

/-- Whether a register of the skein is pending. -/
def pendS (k : Skein) (r n : Nat) : Bool :=
  pendAny k fun w => match w with | .s q _ => decide (r ≤ q) && decide (q < r + n) | _ => false
def pendC (k : Skein) (i : Nat) : Bool := pendAny k fun w => match w with | .c q _ => q == i | _ => false
def pendT (k : Skein) (i : Nat) : Bool := pendAny k fun w => match w with | .t q _ => q == i | _ => false

/-- The lanes in which one read meets a pending register; a register of the skein counts for every lane given. -/
def rdHaz (k : Skein) (bundle exec : Mask) : Rd → Mask
  | .v r n => hazV k exec r.toNat n
  | .vb r n => hazV k bundle r.toNat n
  | .p i => hazP k exec i
  | .pb i => hazP k bundle i
  | .s r n => if pendS k r.toNat n then exec else 0
  | .c i => if pendC k i then bundle else 0
  | .t i => if pendT k i then exec else 0

/-- The lanes in which some read does. -/
def hazOf (k : Skein) (bundle exec : Mask) (rds : List Rd) : Mask :=
  rds.foldl (fun m r => m ||| rdHaz k bundle exec r) 0

/-- The executing lanes under a guard predicate (R107, R108), and whether a guard condition holds (R155). -/
def guardMask (d : Dev) (k : Skein) (p : BitVec 3) (n : Bool) : Mask :=
  maskOf fun l => d.cur.lanes.getLsbD l && (readP d k l p.toNat != n)
def guardCond (d : Dev) (k : Skein) (c : BitVec 3) (n : Bool) : Bool := readC d k c.toNat != n

/-! ## Integer operations (R114 to R121) -/

/-- An exact integer as a result of a type, clamped under .sat, wrapped otherwise (R114). -/
def intRes (wr : Writer) (d : BitVec 7) (ty : BitVec 4) (sat : Bool) (x : Int) : List PWrite :=
  let w := tyBits ty
  resOf wr d ty (wrapInt w (if sat then clampInt (intMin w (tySigned ty)) (intMax w (tySigned ty)) x else x))

/-- An integer operation of two sources (R114). -/
def intBin (f : Int → Int → Int) (o : Lr) (rd : Reader) (wr : Writer) : List PWrite :=
  let x := lrXm o 0
  intRes wr o.d x.ty x.sat (f (intOf rd o.a x.ty) (intOf rd o.b x.ty))

/-- The high half of the exact product (R114). -/
def mulHigh (ty : BitVec 4) (a b : Int) : Int := a * b / 2 ^ tyBits ty

/-- a·b + c (R114). -/
def intMad (o : Lr) (rd : Reader) (wr : Writer) : List PWrite :=
  let x := lrXm o 0
  intRes wr o.d x.ty x.sat (intOf rd o.a x.ty * intOf rd o.b x.ty + intOf rd x.c x.ty)

/-- a + K of 32 bits (R113, R114). -/
def intAddK (o : Lk) (rd : Reader) (wr : Writer) : List PWrite :=
  res1 wr o.d ((rd o.a.toNat).toNat + (immOf o true).toNat)

/-- Quotient rounded toward zero, or remainder, with the cases of R115. -/
def divInt (w : Nat) (sg rem : Bool) (a b : Int) : Int :=
  if b = 0 then (if rem then a else -1)
  else if sg && decide (a = intMin w true) && decide (b = -1) then (if rem then 0 else a)
  else if rem then a.tmod b else a.tdiv b

/-- IDIV (R115). -/
def intDiv (o : Lr) (rd : Reader) (wr : Writer) : List PWrite :=
  let x := lrXm o 0
  intRes wr o.d x.ty false
    (divInt (tyBits x.ty) (tySigned x.ty) (x.opx == 1) (intOf rd o.a x.ty) (intOf rd o.b x.ty))

/-- A bitwise operation of the full width (R116), and with an immediate. -/
def bitBin (f : Nat → Nat → Nat) (o : Lr) (rd : Reader) (wr : Writer) : List PWrite :=
  let ty := (lrXm o 0).ty
  resOf wr o.d ty (f (patOf rd o.a ty) (patOf rd o.b ty))
def bitK (f : Nat → Nat → Nat) (o : Lk) (rd : Reader) (wr : Writer) : List PWrite :=
  res1 wr o.d (f (rd o.a.toNat).toNat (immOf o false).toNat)

/-- A & ~B. -/
def andNot (a b : Nat) : Nat := a ^^^ (a &&& b)

/-- The shifts of R117 on `w` bits; the amount is natural. -/
def shlNat (w a n : Nat) : Nat := if w ≤ n then 0 else a * 2 ^ n % 2 ^ w
def shrNat (w a n : Nat) : Nat := if w ≤ n then 0 else a / 2 ^ n
def sarNat (w a n : Nat) : Nat := wrapInt w (readInt w true a / 2 ^ min n w)

/-- A shift by one register, and by an immediate. -/
def shiftR (f : Nat → Nat → Nat → Nat) (o : Lr) (rd : Reader) (wr : Writer) : List PWrite :=
  let ty := (lrXm o 0).ty
  resOf wr o.d ty (f (tyBits ty) (patOf rd o.a ty) (rd o.b.toNat).toNat)
def shiftK (f : Nat → Nat → Nat → Nat) (o : Lk) (rd : Reader) (wr : Writer) : List PWrite :=
  res1 wr o.d (f 32 (rd o.a.toNat).toNat (immOf o false).toNat)

/-- Ones, leading zeros and reversal of `w` bits (R118). -/
def popNat : Nat → Nat → Nat
  | 0, _ => 0
  | w + 1, x => x % 2 + popNat w (x / 2)
def clzNat (w x : Nat) : Nat := w - bitLen x
def revNat : Nat → Nat → Nat
  | 0, _ => 0
  | w + 1, x => x % 2 * 2 ^ w + revNat w (x / 2)

/-- A count of one register, and BREV of the type's width. -/
def count1 (f : Nat → Nat → Nat) (o : Lr) (rd : Reader) (wr : Writer) : List PWrite :=
  let ty := (lrXm o 0).ty
  res1 wr o.d (f (tyBits ty) (patOf rd o.a ty))
def bitRev (o : Lr) (rd : Reader) (wr : Writer) : List PWrite :=
  let ty := (lrXm o 0).ty
  resOf wr o.d ty (revNat (tyBits ty) (patOf rd o.a ty))

/-- BFE (R119): A and B are 32-bit patterns. -/
def bfeNat (sg : Bool) (a b : Nat) : Nat :=
  let pos := b % 2 ^ 8
  let len := min (b / 2 ^ 8 % 2 ^ 8) 32
  let f := wrapInt len (readInt 32 sg a / 2 ^ pos)
  if len = 0 then 0 else wrapInt 32 (readInt len sg f)

/-- BFI (R120). -/
def bfiNat (a b c : Nat) : Nat :=
  let pos := b % 2 ^ 8
  let len := min (b / 2 ^ 8 % 2 ^ 8) 32
  if len = 0 || decide (32 ≤ pos) then c
  else
    let m := (2 ^ len - 1) * 2 ^ pos % 2 ^ 32
    andNot c m ||| (a % 2 ^ len * 2 ^ pos % 2 ^ 32)

/-- LEA (R121). -/
def leaRes (o : Lr) (rd : Reader) (wr : Writer) : List PWrite :=
  let x := lrXm o 0
  let i := readInt 32 (x.opx.getLsbD 5) (rd o.b.toNat).toNat
  resOf wr o.d x.ty (wrapInt (tyBits x.ty) (patOf rd o.a x.ty + i * 2 ^ bitsOf x.opx 0 5))

/-- The relation of a compare code 0 to 5 (R122). -/
def intRel (cc : Nat) (a b : Int) : Bool :=
  match cc with
  | 0 => decide (a = b)
  | 1 => decide (a ≠ b)
  | 2 => decide (a < b)
  | 3 => decide (a ≤ b)
  | 4 => decide (b < a)
  | _ => decide (b ≤ a)

/-- ISETP and SSETC: the comparison (R122, R158). -/
def intCmp (o : Lp) (rd : Reader) : Bool :=
  let ty := (lpXm o 0).ty
  intRel o.cc.toNat (intOf rd o.a ty) (intOf rd o.b ty)

/-- FSETP and SFSETC: the comparison and its flags (R122, R158). -/
def fltCmp (k : Skein) (o : Lp) (rd : Reader) : Bool × FFlags :=
  let x := lpXm o 4
  let f := fmtOf x.ty
  let env := envOf k 0
  fcompare o.cc.toNat (fread f env (fsrc x 0 (patOf rd o.a x.ty))) (fread f env (fsrc x 1 (patOf rd o.b x.ty)))

/-- The result of a truth table (R126, R161). -/
def lutOf (lut : BitVec 8) (a b c : Bool) : Bool := lut.getLsbD (4 * a.toNat + 2 * b.toNat + c.toNat)

/-! ## Floating operations (R129 to R138) -/

/-- A float result and the flags it signals; F = 1 signals none (R110). -/
def fltRes (wr : Writer) (d : BitVec 7) (ty : BitVec 4) (f : Bool) (r : Nat × FFlags) : List PWrite × FFlags :=
  (resOf wr d ty r.1, if f then 0 else r.2)

/-- An operation of two float sources. -/
def fltBin (op : Fmt → FEnv → FVal → FVal → Nat × FFlags) (k : Skein) (o : Lr) (rd : Reader) (wr : Writer) :
    List PWrite × FFlags :=
  let x := lrXm o 4
  let f := fmtOf x.ty
  let env := envOf k x.rm
  let one (l : List Nat) : Nat × FFlags :=
    op f env (fread f env (fsrc x 0 (l.getD 0 0))) (fread f env (fsrc x 1 (l.getD 1 0)))
  fltRes wr o.d x.ty o.f (perElement x.ty one [patOf rd o.a x.ty, patOf rd o.b x.ty])

/-- FFMA (R129). -/
def fltMad (k : Skein) (o : Lr) (rd : Reader) (wr : Writer) : List PWrite × FFlags :=
  let x := lrXm o 4
  let f := fmtOf x.ty
  let env := envOf k x.rm
  let one (l : List Nat) : Nat × FFlags :=
    ffmaVal f env (fread f env (fsrc x 0 (l.getD 0 0))) (fread f env (fsrc x 1 (l.getD 1 0)))
      (fread f env (fsrc x 2 (l.getD 2 0)))
  fltRes wr o.d x.ty o.f (perElement x.ty one [patOf rd o.a x.ty, patOf rd o.b x.ty, patOf rd x.c x.ty])

/-- FMIN and FMAX (R130), which choose a source's bits. -/
def fltMinMax (mx : Bool) (k : Skein) (o : Lr) (rd : Reader) (wr : Writer) : List PWrite × FFlags :=
  let x := lrXm o 4
  let f := fmtOf x.ty
  let one (l : List Nat) : Nat × FFlags := fminmax f (envOf k 0) mx (fsrc x 0 (l.getD 0 0)) (fsrc x 1 (l.getD 1 0))
  fltRes wr o.d x.ty o.f (perElement x.ty one [patOf rd o.a x.ty, patOf rd o.b x.ty])

/-- An operation of one float source. -/
def fltUn (op : Fmt → FEnv → FVal → Nat × FFlags) (k : Skein) (o : Lr) (rd : Reader) (wr : Writer) : List PWrite × FFlags :=
  let x := lrXm o 4
  let f := fmtOf x.ty
  let env := envOf k x.rm
  fltRes wr o.d x.ty o.f (op f env (fread f env (fsrc x 0 (patOf rd o.a x.ty))))

/-- FSCALE (R134): b is one .i32 register. -/
def fltScale (k : Skein) (o : Lr) (rd : Reader) (wr : Writer) : List PWrite × FFlags :=
  fltUn (fun f env a => fscaleVal f env a (rd o.b.toNat).toInt) k o rd wr

/-- FDOT2 (R135): a and b are packed, c and d .f32; abs and neg act on both elements of their source. -/
def fltDot2 (k : Skein) (o : Lr) (rd : Reader) (wr : Writer) : List PWrite × FFlags :=
  let x := lrXm o 4
  let e := fmtOf x.ty
  let env := envOf k x.rm
  let el (i r h : Nat) : FVal :=
    fread e { env with ftz := false } (absNeg e (x.abs.getLsbD (2 - i)) (x.neg.getLsbD (2 - i)) ((rd r).toNat / 2 ^ (16 * h) % 2 ^ 16))
  let c := fread fmtF32 env (absNeg fmtF32 (x.abs.getLsbD 0) (x.neg.getLsbD 0) (rd x.c.toNat).toNat)
  let r := fdot2Val fmtF32 env (el 0 o.a.toNat 0) (el 1 o.b.toNat 0) (el 0 o.a.toNat 1) (el 1 o.b.toNat 1) c
  (res1 wr o.d r.1, if o.f then 0 else r.2)

/-- The destinations of CVT by opx (R136): an integer of a width and sign, or a float format. -/
inductive CvtTo where
  | int (ty : BitVec 4)
  | flt (f : Fmt) (n : Nat)
  deriving DecidableEq, Repr

def cvtTo (opx : Nat) : CvtTo :=
  match opx with
  | 4 => .flt fmtF32 1
  | 5 => .flt fmtF64 2
  | 6 => .flt fmtF16 1
  | 7 => .flt fmtBF16 1
  | 0x10 => .flt fmtE4M3 1
  | 0x11 => .flt fmtE5M2 1
  | 0x12 => .flt fmtE3M2 1
  | 0x13 => .flt fmtE2M3 1
  | 0x14 => .flt fmtE2M1 1
  | n => .int (BitVec.ofNat 4 n)

/-- Whether a type of CVT's source is a float. -/
def cvtSrcFloat (ty : BitVec 4) : Bool := ty == 4 || ty == 5 || ty == 6 || ty == 7

/-- One conversion (R137): the pattern and its flags. -/
def cvtVal (k : Skein) (x : Xm) (dst : CvtTo) (pat : Nat) : Nat × FFlags :=
  let env := envOf k x.rm
  if cvtSrcFloat x.ty then
    let v := fread (fmtOf x.ty) env pat
    match dst with
    | .flt f _ => cvtFF f env x.sat v
    | .int ty =>
      let w := tyBits ty
      let r := cvtFI env (intMin w (tySigned ty)) (intMax w (tySigned ty)) v
      (wrapInt w r.1, r.2)
  else
    let i := readInt (tyBits x.ty) (tySigned x.ty) pat
    match dst with
    | .flt f _ => cvtIF f env x.sat i
    | .int ty =>
      let w := tyBits ty
      (wrapInt w (if x.sat then clampInt (intMin w (tySigned ty)) (intMax w (tySigned ty)) i else i), 0)

/-- CVT and SCVT (R136, R137, R163). -/
def cvtRes (k : Skein) (o : Lr) (rd : Reader) (wr : Writer) : List PWrite × FFlags :=
  let x := lrXm o 0
  let src := patOf rd o.a x.ty
  let pat := if cvtSrcFloat x.ty then fsrc x 0 src else src
  let dst := cvtTo x.opx.toNat
  let r := cvtVal k x dst pat
  let ws := match dst with
    | .flt _ n => splitRegs wr o.d.toNat r.1 n
    | .int ty => resOf wr o.d ty r.1
  (ws, if o.f then 0 else r.2)

/-- CVTP (R138). -/
def cvtpRes (k : Skein) (o : Lr) (rd : Reader) (wr : Writer) : List PWrite × FFlags :=
  let x := lrXm o 4
  let dst := cvtTo x.opx.toNat
  let a := cvtVal k x dst (fsrc x 0 (rd o.a.toNat).toNat)
  let b := cvtVal k x dst (fsrc x 1 (rd o.b.toNat).toNat)
  let c := (rd x.c.toNat).toNat
  let v := if decide (x.opx.toNat < 0x10) then b.1 * 2 ^ 16 + a.1 else c % 2 ^ 16 * 2 ^ 16 + b.1 * 2 ^ 8 + a.1
  (res1 wr o.d v, if o.f then 0 else a.2 ||| b.2)

/-- One byte of PRMT (R139): the nibble's index into the pool, or the sign of that byte spread. -/
def prmtByte (pool nib : Nat) : Nat :=
  let b := pool / 2 ^ (8 * (nib % 8)) % 2 ^ 8
  if decide (8 ≤ nib) then (if 128 ≤ b then 255 else 0) else b

/-- PRMT (R139). -/
def prmtNat (a c b : Nat) : Nat :=
  let pool := a + 2 ^ 32 * c
  prmtByte pool (b % 16) + 2 ^ 8 * prmtByte pool (b / 16 % 16) + 2 ^ 16 * prmtByte pool (b / 256 % 16)
    + 2 ^ 24 * prmtByte pool (b / 4096 % 16)

/-! ## Latencies (R97) -/

def latAlu : Nat := 4
def latF64 : Nat := 8
def latCross : Nat := 6
def latLong : Nat := 16
def latUni : Nat := 2
def latScratch : Nat := 14
def latL1 : Nat := 20
def latL2 : Nat := 110
def latRemote : Nat := 230
def latMemory : Nat := 420

/-- The latency and class of a floating instruction of a type (R97, R100). -/
def fltLat (ty : BitVec 4) (base : Nat) : Nat := if ty == 5 then max base latF64 else base

end Sys2Proof.Machine
end

