-- ==== Sys2Proof/Machine/Issue.lean ====
section
/-!
DEFINITION. What surrounds every instruction that issues: which lanes execute, the HAZARD check (R99), the counts an issue keeps
(R90, R93, R98, R100), the program counters of the bundle, taking a fault (R448), parking, and run-ahead (R456).
-/

namespace Sys2Proof.Machine

/-- A meaning of the device alone: the management registers stay. (DESIGN CHOICE: notes/assumptions/3) -/
def State.run (s : State) (f : Mgmt → Dev → Dev) : Host.Outcome State Fault Refusal :=
  .next { s with dev := f s.mgmt s.dev }

/-- What an instruction's own action comes to. -/
inductive Res where
  /-- performed -/
  | done (d : Dev)
  /-- raises a fault; nothing of it is done -/
  | fault (f : FaultInfo)
  /-- cannot be performed or completed yet; `d` is the device as it waits -/
  | park (d : Dev) (p : Park)
  /-- is issued again after `d` -/
  | again (d : Dev)
  deriving Repr

/-- The head of an instruction: the W bit, its bytes, its guard, what it reads, the lanes whose region it ends (R175), and whether
it is of the FP64 class (R100). -/
structure Hd where
  w : Bool
  len : Nat
  p : BitVec 3
  n : Bool
  rds : List Rd
  ends : Mask
  fp64 : Bool
  deriving DecidableEq, Repr

/-- The lanes whose region a breaker may end, and none. -/
def endsIf (breaker : Bool) : Mask := if breaker then BitVec.allOnes 32 else 0

/-- The head of an instruction with no guard that ends no region. -/
def hd (w : Bool) (len : Nat) (rds : List Rd) : Hd :=
  { w := w, len := len, p := 7, n := false, rds := rds, ends := 0, fp64 := false }

/-- The head of an instruction under an XM's guard. -/
def hdXm (w : Bool) (len : Nat) (x : Xm) (rds : List Rd) : Hd :=
  { w := w, len := len, p := x.p, n := x.n, rds := rds, ends := 0, fp64 := false }

/-- The head of an instruction under an XW's guard. -/
def hdXw (o : Lm) (rds : List Rd) (breaker : Bool) : Hd :=
  { w := o.w, len := 8, p := o.xw.p, n := o.xw.n, rds := rds, ends := endsIf breaker, fp64 := false }

/-- The head of a UE word; `n` bytes. -/
def hdUe (o : Ue) (n : Nat) (rds : List Rd) : Hd :=
  { w := o.w, len := n, p := 7, n := false, rds := rds, ends := endsIf true, fp64 := false }

/-- A read of `n` registers of the lane set or the uniform set. -/
def rdR (u : Bool) (r : BitVec 7) (n : Nat) : Rd := if u then .s r n else .v r n

/-- Heads of the LR and UR forms by their sources: a; a and b of the type; a of the type and b one register; a, b and c. -/
def hdA (u : Bool) (o : Lr) (dty : BitVec 4) : Hd :=
  let x := lrXm o dty
  hdXm o.w (lenOf o.xm) x [rdR u o.a (tyRegs x.ty)]
def hdAB (u : Bool) (o : Lr) (dty : BitVec 4) : Hd :=
  let x := lrXm o dty
  hdXm o.w (lenOf o.xm) x [rdR u o.a (tyRegs x.ty), rdR u o.b (tyRegs x.ty)]
def hdAB1 (u : Bool) (o : Lr) (dty : BitVec 4) : Hd :=
  let x := lrXm o dty
  hdXm o.w (lenOf o.xm) x [rdR u o.a (tyRegs x.ty), rdR u o.b 1]
def hdABC (u : Bool) (o : Lr) (dty : BitVec 4) : Hd :=
  let x := lrXm o dty
  hdXm o.w (lenOf o.xm) x [rdR u o.a (tyRegs x.ty), rdR u o.b (tyRegs x.ty), rdR u x.c (tyRegs x.ty)]

/-- The head of an LK or UK word that reads a. -/
def hdK (u : Bool) (o : Lk) : Hd := hd o.w (lenOf o.xl) [rdR u o.a 1]

/-- The head of a compare. -/
def hdCmp (u : Bool) (o : Lp) (dty : BitVec 4) : Hd :=
  let x := lpXm o dty
  hdXm o.w (lenOf o.xm) x [rdR u o.a (tyRegs x.ty), rdR u o.b (tyRegs x.ty)]

/-- A head of the FP64 class when the type is .f64 (R100). -/
def hdF (ty : BitVec 4) (h : Hd) : Hd := { h with fp64 := ty == 5 }

/-! ## Counts and program counters -/

/-- The ready threads of a skein, the skein's own state aside (R89). -/
def readyMask (k : Skein) : Mask := maskOf fun l => (threadOf k l).st == .ready

/-- The policy group of a group: 0 GTO, 1 RR, 2 DET, which a deterministic context imposes (R19, R93). -/
def policyOf (m : Mgmt) (g : Group) : Nat := if isDet m g.ctx then 2 else hPolicy g.header

/-- The state of a quarter that has issued nothing. -/
def blankQuarter : QuarterSt :=
  { skein := 0, policy := 3, gtoLast := none, rrSlot := none, detCur := none, detYield := none, fp64Until := 0 }

/-- The lanes of the bundle moved to an address. -/
def setPcs (d : Dev) (u : Nat) (ls : Mask) (pc : DWord) : Dev :=
  modSkein d u fun k => modThreads k (lanesOf ls) fun _ t => { t with pc := pc }

/-- The address after an instruction of `n` bytes. -/
def nextPc (d : Dev) (n : Nat) : DWord := d.cur.pc + BitVec.ofNat 64 n

/-- A run-ahead with one more issue when a bundle is of it, whose threads all run ahead from then on (R89, R456).
(DEDUCED: notes/assumptions/55) -/
def raCount (ls : Mask) (r : RunAhead) : RunAhead :=
  if r.lanes &&& ls == 0 then r else { r with lanes := r.lanes ||| ls, issues := r.issues + 1 }

/-- The counts an issue of the bundle keeps: rotation (R90), marker (R98), the time of each thread's last issue, run-ahead issues
(R456), the quarter's choice (R93, R94), FP64 occupancy (R100), and the watchdog's stall, which ends (R350).
(DEDUCED: notes/assumptions/11) -/
def noteIssue (m : Mgmt) (d : Dev) (h : Hd) : Dev :=
  let u := d.cur.skein
  let k := skeinOf d u
  let g := groupOf d k.gid
  let others := readyMask k &&& ~~~d.cur.lanes
  let q := tget d.quarters (quarterNo g k) blankQuarter
  let pol := policyOf m g
  let q1 : QuarterSt :=
    { q with
      skein := u, policy := pol,
      gtoLast := if pol == 0 then some u else q.gtoLast,
      rrSlot := if pol == 1 then some k.slot else q.rrSlot,
      detCur := if pol == 2 then some u else q.detCur,
      detYield := if pol == 2 then none else q.detYield,
      fp64Until := if h.fp64 then cyclesOf d g.die + 4 else q.fp64Until }
  let upd (k : Skein) : Skein :=
    let k1 : Skein := modThreads k (lanesOf d.cur.lanes) fun _ t => { t with last := d.ticks }
    { k1 with
      rot := if d.cur.rotate || others == 0 then 0 else k.rot + 1, marker := h.w, runAhead := k.runAhead.map (raCount d.cur.lanes) }
  { modSkein d u upd with quarters := tset d.quarters (quarterNo g k) q1, stalled := tdel d.stalled g.ctx }

/-- The regions of threads ended by a breaker (R175). -/
def closeRegion (d : Dev) (u : Nat) (ls : Mask) : Dev :=
  modSkein d u fun k => modThreads k (lanesOf ls) fun _ t => { t with region := none }

/-- The device as the instruction's own action finds it when it is performed: counts kept, bundle moved on, the regions it ends ended.
(DEDUCED: notes/assumptions/11, 55) -/
def advance (m : Mgmt) (d : Dev) (h : Hd) : Dev :=
  let d1 := setPcs (noteIssue m d h) d.cur.skein d.cur.lanes (nextPc d h.len)
  if h.ends == 0 then d1 else closeRegion d1 d.cur.skein (d.cur.lanes &&& h.ends)

/-- A skein at a switching point of DET (R94): its quarter keeps no current skein of it. -/
def switchPoint (d : Dev) (u : Nat) : Dev :=
  let k := skeinOf d u
  let n := quarterNo (groupOf d k.gid) k
  match tget? d.quarters n with
  | some q => if q.detCur == some u then { d with quarters := tset d.quarters n { q with detCur := none } } else d
  | none => d

/-! ## Parking -/

/-- Whether a park is completed by an event; otherwise the instruction issues again when the skein wakes.
(DEDUCED: notes/assumptions/11) -/
def parkByEvent : Park → Bool
  | .tag .. | .wait _ | .lock .. | .twait .. | .fence .. | .surf | .seal .. | .ring .. | .svc .. => true
  | _ => false

/-- The skein parked at its instruction. -/
def parkSkein (m : Mgmt) (d0 d : Dev) (h : Hd) (p : Park) : Dev :=
  let d1 := if parkByEvent p then noteIssue m { d with cur := d0.cur } h else d
  modSkein (switchPoint d1 d0.cur.skein) d0.cur.skein fun k =>
    { k with park := some p, parkLanes := d0.cur.lanes, parkNext := nextPc d0 h.len, parkEnds := d0.cur.lanes &&& h.ends }

/-- A skein woken to issue its instruction again. -/
def wake (d : Dev) (u : Nat) : Dev := modSkein d u fun k => { k with park := none }

/-- A parked instruction completed: the waiting lanes go on after it, and the regions that it ends are ended. -/
def unpark (d : Dev) (u : Nat) : Dev :=
  let k := skeinOf d u
  closeRegion (setPcs (wake d u) u k.parkLanes k.parkNext) u k.parkEnds

/-- Every parked skein that a test names, woken. -/
def wakeAll (d : Dev) (f : Park → Bool) : Dev :=
  { d with skeins := modWhere (fun k => (k.park.map f).getD false) (fun k => { k with park := none }) d.skeins }

/-! ## Run-ahead (R456) -/

/-- The run-ahead that threads of a skein take part in. (DEDUCED: notes/assumptions/55) -/
def raOf (k : Skein) (ls : Mask) : Option RunAhead := k.runAhead.find? fun r => r.lanes &&& ls != 0

/-- A skein with a run-ahead put in the place of the one of its lanes, and with it gone. -/
def dropRa (k : Skein) (ls : Mask) : Skein := { k with runAhead := k.runAhead.filter fun r => r.lanes &&& ls == 0 }
def setRa (k : Skein) (r : RunAhead) : Skein := { k with runAhead := r :: (dropRa k r.lanes).runAhead }

/-- Whether the issuing bundle runs ahead. -/
def runsAhead (d : Dev) : Bool := (raOf (curSkein d) d.cur.lanes).isSome

/-- Pages in order of discovery, without repeats, at most 32. -/
def addPages (old new : List DWord) : List DWord :=
  (new.foldl (fun l p => if l.any fun q => bitsOf q 12 52 == bitsOf p 12 52 then l else l ++ [p]) old).take 32

/-- The destinations of a faulting instruction, undefined from now on. -/
def undefine (d : Dev) (ws : List PWrite) : List PWrite :=
  ws.zipIdx.map fun (w, i) =>
    match w with
    | .v l r _ => .v l r (freeWord d (8192 + i))
    | .s r _ => .s r (freeWord d (8192 + i))
    | .p l j _ => .p l j (freeBit d (8192 + i))
    | .c j _ => .c j (freeBit d (8192 + i))
    | .t j _ => .t j ((freeVal d (8192 + 2 * i)).append (freeVal d (8193 + 2 * i)))

/-- The explicit region of the lowest lane of a mask. (DEDUCED: notes/assumptions/55) -/
def entryOf (k : Skein) (ls : Mask) : Option Region :=
  match lanesOf ls with
  | l :: _ => (threadOf k l).region
  | [] => none

/-- The lanes of a mask that are inside an explicit region. (DEDUCED: notes/assumptions/55) -/
def inRegions (k : Skein) (ls : Mask) : Mask := maskOf fun l => ls.getLsbD l && (threadOf k l).region.isSome

/-- Whether a destination is no other thread's than those of a mask. -/
def destIn (ls : Mask) : PWrite → Bool
  | .v l _ _ => ls.getLsbD l
  | .p l _ _ => ls.getLsbD l
  | _ => true

/-- The instruction that raised an XLATE passed over by the bundle in run-ahead: its pages recorded, its destinations undefined. It
is not performed, so that a breaker ends no region. (DEDUCED: notes/assumptions/55) -/
def passOver (m : Mgmt) (d : Dev) (h : Hd) (ra : RunAhead) (f : FaultInfo) : Dev :=
  let u := d.cur.skein
  let d1 := advance m d { h with ends := 0 }
  let d2 := if f.undefPc then
      modSkein d1 u fun k => modThreads k (lanesOf d.cur.lanes) fun l t =>
        { t with pc := freeVal d (16384 + l) &&& 0x0000FFFFFFFFFFFC }
    else d1
  let d3 := addPend d2 u latAlu (undefine d (f.undef.filter (destIn d.cur.lanes)))
  let pages := addPages ra.pages f.pages
  let d4 := modSkein d3 u fun k => setRa k { ra with pages := pages }
  if pages.length = 32 then post d4 (.runAheadEnd u) else d4

/-- A fault of the issuing instruction. In run-ahead an XLATE is passed over and any other fault ends it; outside, an XLATE of a
thread inside an explicit region begins one, of the bundle's threads inside such regions, while the rest issue the instruction
by themselves; any other fault is taken (R448, R456). (DEDUCED: notes/assumptions/55) -/
def faulted (m : Mgmt) (d : Dev) (h : Hd) (f : FaultInfo) : Dev :=
  let u := d.cur.skein
  let k := skeinOf d u
  let soft := f.cause == .xlate && f.sub != xlateCode .noncanon
  match raOf k d.cur.lanes with
  | some ra =>
    if soft then passOver m d h { ra with lanes := ra.lanes ||| d.cur.lanes, issues := ra.issues + 1 } f else post d (.runAheadEnd u)
  | none =>
    match soft, entryOf k f.lanes with
    | true, some r =>
      let ls := inRegions k d.cur.lanes
      let ra : RunAhead :=
        { lanes := ls, pc := d.cur.pc, addr := f.addr, flanes := f.lanes &&& ls, sub := BitVec.ofNat 8 f.sub,
          entry := r.entry, next := nextPc d h.len, issues := 0, pages := [] }
      passOver m { d with cur := { d.cur with lanes := ls } } h ra f
    | _, _ => takeFault m d u d.cur.pc (nextPc d h.len) d.cur.lanes f

/-! ## Issue -/

/-- One issue of the bundle: the HAZARD of a deterministic context, which names the lanes `hz`, else the instruction's own action.
(DEDUCED: notes/assumptions/11) -/
def issue (m : Mgmt) (d : Dev) (h : Hd) (hz : Mask) (body : Dev → Res) : Dev :=
  if isDet m (curCtx d) && hz != 0 then faulted m d h (faultAt .hazard 0 hz)
  else
    match body (advance m d h) with
    | .done d1 => d1
    | .fault f => faulted m d h f
    | .park d1 p => parkSkein m d d1 h p
    | .again d1 => d1

/-- An issue of the lane set: the executing lanes are those whose guard predicate is true (R108), and a breaker ends the regions of
these (R65); a HAZARD names those that read a pending register (R99). -/
def laneIssue (m : Mgmt) (d : Dev) (h : Hd) (body : Mask → Dev → Res) : Dev :=
  let k := curSkein d
  let ex := guardMask d k h.p h.n
  issue m d { h with ends := h.ends &&& ex } (hazOf k d.cur.lanes ex (.pb h.p.toNat :: h.rds)) (body ex)

/-- The reads an issue of the uniform set makes: the guard condition, and its sources when that holds (R155). -/
def uniReads (h : Hd) (g : Bool) : List Rd := .c h.p.toNat :: (if g then h.rds else [])

/-- An issue of the uniform set: it acts once when its guard condition holds, and ends no region otherwise (R65); a fault names every
lane of the bundle (R155). -/
def uniIssue (m : Mgmt) (d : Dev) (h : Hd) (body : Dev → Res) : Dev :=
  let k := curSkein d
  let g := guardCond d k h.p h.n
  let hz := hazOf k d.cur.lanes d.cur.lanes (uniReads h g)
  issue m d (if g then h else { h with ends := 0 }) (if hz == 0 then 0 else d.cur.lanes) fun da =>
    if g then body da else .done da

/-- The sticky flags of lanes with new ones ORed in (R110). -/
def orFlags (d : Dev) (u : Nat) (fs : List (Nat × FFlags)) : Dev :=
  modSkein d u fun k => fs.foldl (fun k f => modThread k f.1 fun t => { t with flags := t.flags ||| f.2 }) k

/-- The readers of a lane and of the skein at issue. -/
def laneReader (d : Dev) (l : Nat) : Reader := fun r => readV d (curSkein d) l r
def uniReader (d : Dev) : Reader := fun r => readS d (curSkein d) r

/-- A lane instruction that computes results from each executing lane's sources (R108). -/
def laneAlu (m : Mgmt) (d : Dev) (h : Hd) (lat : Nat) (f : Nat → Reader → Writer → List PWrite × FFlags) : Dev :=
  laneIssue m d h fun ex da =>
    let rs := (lanesOf ex).map fun l => (l, f l (laneReader d l) (wrV l))
    .done (addPend (orFlags da d.cur.skein (rs.map fun r => (r.1, r.2.2))) d.cur.skein lat (rs.flatMap fun r => r.2.1))

/-- A uniform instruction that computes results once; its flags go to every thread of the bundle (R155, R156). -/
def uniAlu (m : Mgmt) (d : Dev) (h : Hd) (lat : Nat) (f : Reader → Writer → List PWrite × FFlags) : Dev :=
  uniIssue m d h fun da =>
    let r := f (uniReader d) wrS
    .done (addPend (orFlags da d.cur.skein ((lanesOf d.cur.lanes).map fun l => (l, r.2))) d.cur.skein lat r.1)

/-- The same without flags. -/
def laneInt (m : Mgmt) (d : Dev) (h : Hd) (lat : Nat) (f : Reader → Writer → List PWrite) : Dev :=
  laneAlu m d h lat fun _ rd wr => (f rd wr, 0)
def uniInt (m : Mgmt) (d : Dev) (h : Hd) (lat : Nat) (f : Reader → Writer → List PWrite) : Dev :=
  uniAlu m d h lat fun rd wr => (f rd wr, 0)

/-- A fault of a uniform instruction names every lane of the bundle (R155). -/
def uniFault (d : Dev) (c : Cause) (addr : DWord) : FaultInfo := faultAt c addr d.cur.lanes

end Sys2Proof.Machine
end

