-- ==== Sys2Proof/Machine/Memory.lean ====
section
/-!
DEFINITION. Memory below the instructions: the address map (R183), page tables and TLBs (R184 to R190), line forms (R212 to
R218), the caching slices with their host halves (R201 to R205, R319 to R323),
    and the L1 arrays (R193 to R197). An operation that
has to wait for the host answers what it waits for, and is made again when that has come.
-/

namespace Sys2Proof.Machine

/-- What an access to memory waits for: a half of a host line (R319), a back-invalidate snoop of a half (R322), the end of the
engine command that owns a line (R260), or the dirty words of a page table's line in an L1 that owns it (R185, R337). -/
inductive Need where
  | half (h : Nat) (r : HostReq)
  | snoop (h : Nat) (inv : Bool)
  | owned (line : Nat)
  | recall (spindle line : Nat)
  deriving DecidableEq, Repr

/-- Why an access to memory does not complete. -/
inductive MemErr where
  | need (n : Need)
  | dataerr
  | xlate (c : XlateCause)
  | perm
  | guard
  deriving DecidableEq, Repr

/-- The half an access waits for; an owned line is waited for by its first half. -/
def needHalf : Need → Nat
  | .half h _ => h
  | .snoop h _ => h
  | .owned line => 2 * line
  | .recall _ line => 2 * line

/-- Whether a running engine command owns a line (R260). -/
def engineOwns (d : Dev) (line : Nat) : Bool := d.engines.any fun e => e.2.running && e.2.owned.any fun o => o.1 == line

/-- An access that may have to wait or to fail. -/
abbrev MemM (α : Type) := Except MemErr α

/-! ## The address map (R183, R200, R201, R470) -/

def isDevice (pa : Nat) : Bool := pa < 2 ^ 41
def isPeer (pa : Nat) : Bool := 2 ^ 50 ≤ pa && pa < 2 ^ 51
def isHost (pa : Nat) : Bool := 2 ^ 51 ≤ pa && pa < 2 ^ 52

/-- The holder of a device address and its stack, device-wide. -/
def holderOf (pa : Nat) : Nat := pa / 2 ^ 37 % 16
def stackOf (pa : Nat) : Nat := pa / 2 ^ 36 % 32

/-- The port number of a host line, and its port die (R9, R201). -/
def portOf (pa : Nat) : Nat := (pa / 2 ^ 12 % 4) ^^^ (pa / 2 ^ 20 % 4)
def portDie (p : Nat) : Nat := [0, 3, 12, 15].getD p 0

/-- The caching die of a line for an access from a die (R201). -/
def cachingDie (die pa : Nat) (rp : Bool) : Nat :=
  if isHost pa then portDie (portOf pa) else if rp then die else holderOf pa

/-- The slice of a line within its caching die (R200). -/
def sliceOf (pa : Nat) : Nat :=
  let s6 := ((List.range 7).foldl (fun x i => x ^^^ (pa / 2 ^ (7 + 6 * i) % 64)) 0) ^^^ (pa / 2 ^ 49 % 8)
  64 * (pa / 2 ^ 8 % 3) + s6

/-- The port a host or peer access leaves by (R317): the port die's own when it is a HOST port, else the lowest HOST port. -/
def linkOf (d : Dev) (pa : Nat) : Nat :=
  if isPeer pa then pa / 2 ^ 48 % 4
  else
    let p := portOf pa
    if d.portPeer.getLsbD p then ((List.range 4).find? fun q => !d.portPeer.getLsbD q).getD p else p

/-- Whether that port's link is up (R318). -/
def linkUp (d : Dev) (pa : Nat) : Bool := d.portUp.getLsbD (linkOf d pa)

/-- The save region of a die: base and size, if it has one of its own (R470): at the top of stack 1, else of stack 0; a place at
which its reservation has failed is passed over (R468). (DESIGN CHOICE: notes/assumptions/74) -/
def saveRegion (d : Dev) (die : Nat) : Option (Nat × Nat) :=
  let size := d.saveGb * 2 ^ 30
  let places := ([1, 0].filter fun s => d.stackMask.getLsbD (2 * die + s)).drop ((d.saveMoves[die]?).getD 0)
  places.head?.map fun s => ((2 * die + s + 1) * 2 ^ 36 - size, size)

/-- Whether a range of device memory is open to contexts: its stack present, clear of the save regions (R183, R470). -/
def openDevice (d : Dev) (base size : Nat) : Bool :=
  isDevice base && d.stackMask.getLsbD (stackOf base) &&
    match saveRegion d (holderOf base) with
    | some (b, n) => decide (base + size ≤ b) || decide (b + n ≤ base)
    | none => true

/-! ## Line forms (R212, R213) -/

/-- The `i`-th word of `b` bytes of a line. -/
def lineWord (x b i : Nat) : Nat := x / 2 ^ (8 * b * i) % 2 ^ (8 * b)

/-- Whether every word of `b` bytes is the first. -/
def repFits (x b : Nat) : Bool := (List.range (128 / b)).all fun i => lineWord x b i == lineWord x b 0

/-- Whether a base-delta form with words of `b` bytes and deltas of `k` fits. -/
def deltaFits (x b k : Nat) : Bool :=
  (List.range (128 / b)).all fun i =>
    let dl := readInt (8 * b) true ((lineWord x b i + 2 ^ (8 * b) - lineWord x b 0) % 2 ^ (8 * b))
    decide (-(2 ^ (8 * k - 1) : Int) ≤ dl) && decide (dl < 2 ^ (8 * k - 1))

/-- The fitting form with the fewest flits, on a tie the lowest code. -/
def compressForm (l : Line) : BitVec 4 :=
  let x := l.toNat
  if x = 0 then 1
  else if repFits x 4 then 2
  else if repFits x 8 then 3
  else if deltaFits x 8 1 then 6
  else if deltaFits x 4 1 then 4
  else if deltaFits x 8 2 then 7
  else if deltaFits x 4 2 then 5
  else if deltaFits x 8 4 then 8
  else 0

/-- Whether a form says that the content cannot be read (R218). -/
def badForm (f : BitVec 4) : Bool := decide (9 ≤ f.toNat)

/-- The form of a line, and its bytes. (DESIGN CHOICE: notes/assumptions/4) -/
def formOf (d : Dev) (line : Nat) : BitVec 4 := tget d.forms line 0
def memLine (d : Dev) (line : Nat) : Line := BitVec.ofNat 1024 (memNat d.mem (128 * line) 128)

/-! ## Masks -/

/-- A byte mask of `n` bytes from byte `o` on; the byte mask of a word mask; bits of a byte mask. -/
def byteMask (o n : Nat) : BitVec 128 := BitVec.ofNat 128 ((2 ^ n - 1) * 2 ^ o)
def wordBytes (w : Mask) : BitVec 128 :=
  (List.range 32).foldl (fun m i => if w.getLsbD i then m ||| byteMask (4 * i) 4 else m) 0
def bitsMask (bm : BitVec 128) : Line :=
  BitVec.ofNat 1024 ((List.range 128).foldl (fun x i => if bm.getLsbD i then x + 255 * 2 ^ (8 * i) else x) 0)

/-- The words a byte mask touches, and those it covers. -/
def wordsTouched (bm : BitVec 128) : Mask := maskOf fun i => bm.extractLsb' (4 * i) 4 != 0
def wordsWhole (bm : BitVec 128) : Mask := maskOf fun i => bm.extractLsb' (4 * i) 4 == 15

/-- A line with the bytes of a mask taken from another, and a line holding a natural at a byte offset. -/
def overlay (old new : Line) (bm : BitVec 128) : Line := (old &&& ~~~(bitsMask bm)) ||| (new &&& bitsMask bm)
def atByte (o x : Nat) : Line := BitVec.ofNat 1024 (x * 2 ^ (8 * o))

/-- The halves a byte mask touches. -/
def halvesOf (line : Nat) (bm : BitVec 128) : List Nat :=
  (if bm.extractLsb' 0 64 != 0 then [2 * line] else []) ++ (if bm.extractLsb' 64 64 != 0 then [2 * line + 1] else [])

/-- Half of a line, and a line with half of it replaced. -/
def halfData (l : Line) (hi : Bool) : BitVec 512 := if hi then l.extractLsb' 512 512 else l.extractLsb' 0 512
def putHalf (l : Line) (hi : Bool) (x : BitVec 512) : Line :=
  if hi then x ++ l.extractLsb' 0 512 else l.extractLsb' 512 512 ++ x

/-! ## The slices' own memory -/

/-- The record a narrow write to a POISON line posts (R218), which names no skein.
(DEDUCED: notes/assumptions/48; DESIGN CHOICE: notes/assumptions/66) -/
def poisonRecord (m : Mgmt) (d : Dev) (ctx line : Nat) : Dev :=
  takeDeviceFault m d ctx .dataerr 0 (BitVec.ofNat 64 (128 * line)) 0

/-- Waiters of a line woken by a write to it (R348). -/
def wakeLine (d : Dev) (line : Nat) : Dev :=
  if d.waiters.any fun w => w.1 == line then post d (.waitWake line) else d

/-- The first half among some whose host state asks for a snoop: A before a read, S or A before a write, which takes it back
(R322). (DEDUCED: notes/assumptions/17) -/
def snoopNeed (d : Dev) (inv : Bool) : List Nat → MemM Unit
  | [] => .ok ()
  | h :: r =>
    match tget? d.hostState h, inv with
    | none, _ => snoopNeed d inv r
    | some .s, false => snoopNeed d inv r
    | some _, _ => .error (.need (.snoop h inv))

/-- The first host half among some that is not held as a request asks. (DEDUCED: notes/assumptions/17) -/
def hostNeed (d : Dev) (r : HostReq) : List Nat → MemM Unit
  | [] => .ok ()
  | h :: t =>
    match tget? d.halves h with
    | some x =>
      if x.poison then .error .dataerr
      else
        match r, x.st with
        | .rdOwn, .e => hostNeed d r t
        | .rdOwn, .m => hostNeed d r t
        | .rdOwn, _ => .error (.need (.half h .rdOwn))
        | .rdCurr, .i => if x.curr.isSome then hostNeed d r t else .error (.need (.half h .rdCurr))
        | .rdShared, .i => .error (.need (.half h .rdShared))
        | _, _ => hostNeed d r t
    | none => .error (.need (.half h r))

/-- A line of which each word is one it has held since a replicable mapping of it was made, the present one among them (R203).
(DESIGN CHOICE: notes/assumptions/18) -/
def heldWords (d : Dev) (line k : Nat) : Line :=
  match tget? d.rpHeld line with
  | none => memLine d line
  | some old =>
    let all := memLine d line :: old
    let word (i : Nat) : Nat := lineWord ((all[freeBelow d (90000000 + 32 * k + i) all.length]?).getD 0).toNat 4 i
    BitVec.ofNat 1024 ((List.range 32).map fun i => word i * 2 ^ (32 * i)).sum

/-- A line as its caching slice holds it, of which the halves `hs` are read, to be written when the request is RdOwn; `k` tells reads
of one step apart. (DESIGN CHOICE: notes/assumptions/15, 18, 69) -/
def sliceLine (d : Dev) (line : Nat) (rp : Bool) (hs : List Nat) (r : HostReq) (k : Nat) : MemM Line :=
  let pa := 128 * line
  if engineOwns d line then .error (.need (.owned line))
  else if isDevice pa then
    if badForm (formOf d line) then .error .dataerr
    else
      match snoopNeed d (r == .rdOwn) hs with
      | .error e => .error e
      | .ok _ => .ok (if rp then heldWords d line k else memLine d line)
  else if !linkUp d pa then .error .dataerr
  else if isHost pa then
    match hostNeed d r hs with
    | .error e => .error e
    | .ok _ =>
      let one (h : Nat) : BitVec 512 :=
        let x := (tget? d.halves h).getD { st := .i, data := 0, poison := false, curr := none }
        if x.st == .i then x.curr.getD 0 else x.data
      .ok (putHalf (putHalf 0 false (one (2 * line))) true (one (2 * line + 1)))
  else .ok (BitVec.ofNat 1024 ((List.range 16).foldl (fun x i => x + (freeVal d (24576 + 16 * k + i)).toNat * 2 ^ (64 * i)) 0))

/-- Whether some L1 owns a line in E (R194). -/
def ownedE (d : Dev) (line : Nat) : Bool := d.l1.any fun l => l.pa == line && l.st == .e && l.home

/-- The pages written from now on (R210). -/
def markWritten (d : Dev) (line : Nat) : Dev :=
  if isDevice (128 * line) then { d with written := tput d.written (line / 32) true false } else d

/-- A header line written: its tiles leave the surface cache, and the codec sees their slots as memory holds them now (R384).
(DESIGN CHOICE: notes/assumptions/31) -/
def dropTiles (d : Dev) (line : Nat) : Dev :=
  if d.scache.isEmpty && d.stiles.isEmpty then d
  else
    { d with
      scache := d.scache.filter fun e => e.header / 8 != line,
      stiles := d.stiles.map fun e => if e.1 / 8 == line then (e.1, e.2.map fun x => (x.1, memLine d x.1)) else e }

/-- The launches that run. -/
def liveLaunches (d : Dev) : List Nat := ((d.launches.map fun l => l.id) ++ d.groups.map fun g => g.launch).dedup

/-- A program line about to be written: what it holds stays with samplers that a launch running now may use; with no user running
nothing of before is held any more (R422). (DESIGN CHOICE: notes/assumptions/35) -/
def ageProg (d : Dev) (line : Nat) : Dev :=
  match tget? d.progs line with
  | none => d
  | some x =>
    let live := liveLaunches d
    let y : Sampled := { x with olds := (if x.users.any live.contains then x.olds else []) ++ [(memLine d line, live)] }
    { d with progs := tset d.progs line y }

/-- Whether a line lies in the range of a replicable mapping. (DESIGN CHOICE: notes/assumptions/18) -/
def inRp (d : Dev) (line : Nat) : Bool := d.rpPages.any fun p => decide (p.base ≤ 128 * line) && decide (128 * line < p.base + p.size)

/-- The range that an 8-byte word would map for replication as a leaf of a page table (R186, R187): the greatest its page number
allows. (DESIGN CHOICE: notes/assumptions/18) -/
def rpRange (e : Nat) : Option (Nat × Nat) :=
  let page := e / 2 ^ 12 % 2 ^ 40
  if e % 4 != 3 || e / 2 ^ 5 % 2 == 0 then none
  else
    let pages := if page % 2 ^ 18 = 0 then 2 ^ 18 else if page % 2 ^ 9 = 0 then 2 ^ 9 else if e / 2 ^ 11 % 2 = 1 then 16 else 1
    some (page / pages * pages * 4096, pages * 4096)

/-- Mappings that no longer stand and that no TLB entry and no L1 line has any more, forgotten with the values held under them.
(DESIGN CHOICE: notes/assumptions/18) -/
def pruneRp (d : Dev) : Dev :=
  if d.rpPages.isEmpty then d
  else
    let uses (l : Leaf) (p : RpPage) : Bool := l.rp && decide (p.base ≤ l.base) && decide (l.base < p.base + p.size)
    let kept (p : RpPage) : Bool := p.live || (d.tlb.any fun t => uses t.leaf p) || d.l1.any fun l => uses l.leaf p
    let d1 := { d with rpPages := d.rpPages.filter kept }
    { d1 with rpHeld := d1.rpHeld.filter fun e => inRp d1 e.1 }

/-- The mappings that the words of a line make when it is replaced: one whose word changes ends, and a word of a leaf's shape begins
one (R203). (DESIGN CHOICE: notes/assumptions/18) -/
def noteRp (d : Dev) (line : Nat) (x : Line) : Dev :=
  let old := memLine d line
  (List.range 16).foldl (fun d i =>
    let a := lineWord old.toNat 8 i
    let b := lineWord x.toNat 8 i
    if a == b || ((rpRange a).isNone && (rpRange b).isNone) then d
    else
      let pte := 128 * line + 8 * i
      let d1 := pruneRp { d with rpPages := modWhere (fun p => p.pte == pte) (fun p => { p with live := false }) d.rpPages }
      match rpRange b with
      | some (base, size) => { d1 with rpPages := d1.rpPages ++ [{ pte := pte, base := base, size := size, live := true }] }
      | none => d1) d

/-- A device line replaced at its holder, its form chosen anew (R214, R217); what it held counts as held while it is mapped for
replication (R203). -/
def putLine (d0 : Dev) (line : Nat) (x : Line) (cmp : Bool) : Dev :=
  let d := noteRp d0 line x
  let form := if cmp && !ownedE d line then compressForm x else 0
  { d with
    mem := memPut d.mem (128 * line) x.toNat 128, forms := tput d.forms line form 0,
    rpHeld := if inRp d line then tset d.rpHeld line (tget d.rpHeld line [] ++ [memLine d line]) else d.rpHeld }

/-- The form of a line whose owner has given up E, chosen again (R217). -/
def recompress (d : Dev) (line : Nat) (cmp : Bool) : Dev :=
  if !isDevice (128 * line) || badForm (formOf d line) || ownedE d line then d
  else { d with forms := tput d.forms line (if cmp then compressForm (memLine d line) else 0) 0 }

/-- Bytes merged into a device line at its holder: the page is marked and the line's waiters wake. -/
def takeWords (d : Dev) (line : Nat) (base : Line) (bm : BitVec 128) (x : Line) (cmp : Bool) : Dev :=
  wakeLine (markWritten (dropTiles (putLine (ageProg d line) line (overlay base x bm) cmp) line) line) line

/-- Bytes merged at a line's caching slice (R217, R298, R319, R322): host copies of the halves are taken back first, those of the
halves written alone; a write that does not cover a POISON line is discarded (R218). A peer line is written over the link (R326).
(DESIGN CHOICE: notes/assumptions/15, 69) -/
def mergeLine (m : Mgmt) (ctx : Nat) (d : Dev) (line : Nat) (bm : BitVec 128) (x : Line) (cmp : Bool) : MemM Dev :=
  let pa := 128 * line
  if bm == 0 then .ok d
  else if engineOwns d line then .error (.need (.owned line))
  else if isDevice pa then
    match snoopNeed d true (halvesOf line bm) with
    | .error e => .error e
    | .ok _ =>
      if badForm (formOf d line) && bm != BitVec.allOnes 128 then .ok (poisonRecord m d ctx line)
      else
        let base := if badForm (formOf d line) then 0 else memLine d line
        .ok (takeWords d line base bm x cmp)
  else if !linkUp d pa then .ok (poisonRecord m d ctx line)
  else if isHost pa then
    match hostNeed d .rdOwn (halvesOf line bm) with
    | .error .dataerr => .ok (poisonRecord m d ctx line)
    | .error e => .error e
    | .ok _ =>
      let one (t : Table Half) (h : Nat) : Table Half :=
        let hi := h % 2 == 1
        let old := ((tget? t h).map fun y => y.data).getD 0
        tset t h { st := .m, data := halfData (overlay (putHalf 0 hi old) x bm) hi, poison := false, curr := none }
      .ok (wakeLine { d with halves := (halvesOf line bm).foldl one d.halves } line)
  else
    .ok { d with outbox := d.outbox ++ [.peerWrite line bm (x &&& bitsMask bm)] }

/-! ## Copies in the L1 arrays -/

/-- The copy of a physical line in a spindle's L1, and the line at a virtual address (R190, R193). -/
def l1Phys (d : Dev) (sp line : Nat) : Option L1Line := d.l1.find? fun l => l.spindle == sp && l.pa == line
def l1Hit (d : Dev) (sp asid va : Nat) : Option L1Line :=
  d.l1.find? fun l => l.spindle == sp && l.asid == asid && l.va == va

/-- The copy of a spindle changed. -/
def modL1 (d : Dev) (sp line : Nat) (f : L1Line → L1Line) : Dev :=
  { d with l1 := modWhere (fun l => l.spindle == sp && l.pa == line) f d.l1 }

/-- The directory with a spindle's copy counted or not (R204). -/
def dirAdd (d : Dev) (sp line : Nat) : Dev :=
  let old := tget d.dir line []
  if old.contains sp then d else { d with dir := tset d.dir line (old ++ [sp]) }
def dirDel (d : Dev) (sp line : Nat) : Dev :=
  { d with dir := tput d.dir line ((tget d.dir line []).filter (· != sp)) [] }

/-- An L1 receives an invalidation (R205): its dirty words go to the slice, its clean words stay until the next acquire, the
directory counts it absent. A line already evicted is acknowledged as absent. -/
def invalidateCopy (m : Mgmt) (ctx : Nat) (d : Dev) (sp line : Nat) : MemM Dev :=
  match l1Phys d sp line with
  | none => .ok (dirDel d sp line)
  | some l =>
    match mergeLine m ctx (modL1 d sp line fun l => { l with st := .s }) line (wordBytes l.dirty) l.data l.leaf.cmp with
    | .error e => .error e
    | .ok d1 =>
      let upd (l : L1Line) : L1Line :=
        { l with filled := l.filled ||| l.dirty, dirty := 0, st := if l.lock then .d else .s, queued := true }
      let d2 := if l.st == .e && l.dirty == 0 then recompress d1 line l.leaf.cmp else d1
      .ok (dirDel (modL1 d2 sp line upd) sp line)

/-- Every copy of a line that its caching die's directory counts, but one spindle's, invalidated; the copies that other dies hold of a
replicable line are not reached (R203, R204). -/
def invalidateOthers (m : Mgmt) (ctx : Nat) (d : Dev) (keep : Option Nat) (line : Nat) : MemM Dev :=
  ((tget d.dir line []).filter fun s => some s != keep && s / 48 == cachingDie 0 (128 * line) false).foldlM
    (fun d s => invalidateCopy m ctx d s line) d

/-- A copy that gave its dirty words to the slice and is shared from now on. -/
def shareCopy (l : L1Line) : L1Line :=
  { l with filled := l.filled ||| l.dirty, dirty := 0, st := if l.lock then .d else .s }

/-- Ownership in another L1 recalled by a read (R217, R337): its dirty words go to the slice and it keeps a shared copy. -/
def recallOwner (m : Mgmt) (ctx : Nat) (d : Dev) (keep : Option Nat) (line : Nat) : MemM Dev :=
  (d.l1.filter fun l => l.pa == line && l.st == .e && l.home && some l.spindle != keep).foldlM (fun d l =>
    let d0 := modL1 d l.spindle line shareCopy
    if l.dirty == 0 then .ok (recompress d0 line l.leaf.cmp)
    else mergeLine m ctx d0 line (wordBytes l.dirty) l.data l.leaf.cmp) d

/-- A write performed at a line's caching slice (R205, R209): bytes merged, then every other counted copy invalidated.
(DESIGN CHOICE: notes/assumptions/69) -/
def writeSlice (m : Mgmt) (ctx : Nat) (d : Dev) (keep : Option Nat) (line : Nat) (bm : BitVec 128) (x : Line) (cmp : Bool) :
    MemM Dev :=
  match recallOwner m ctx d keep line with
  | .error e => .error e
  | .ok d1 =>
    match mergeLine m ctx d1 line bm x cmp with
    | .error e => .error e
    | .ok d2 => invalidateOthers m ctx d2 keep line

/-- A read performed at a line's caching slice; one of peer memory travels to the peer (R326). (DESIGN CHOICE: notes/assumptions/69) -/
def readSlice (m : Mgmt) (ctx : Nat) (d : Dev) (keep : Option Nat) (line : Nat) (rp : Bool) (hs : List Nat) (r : HostReq)
    (k : Nat) : MemM (Line × Dev) :=
  match recallOwner m ctx d keep line with
  | .error e => .error e
  | .ok d1 =>
    (sliceLine d1 line rp hs r k).map fun x =>
      (x, if isPeer (128 * line) then { d1 with outbox := d1.outbox ++ [.peerRead line hs] } else d1)

/-- A spindle's copy written back (R197): its dirty words become clean ones, and an owner gives up E unless a lock holds it (R217).
(DESIGN CHOICE: notes/assumptions/67) -/
def writeBackLine (m : Mgmt) (d : Dev) (ctx sp line : Nat) : MemM Dev :=
  match l1Phys d sp line with
  | none => .ok d
  | some l =>
    if l.dirty == 0 then .ok d
    else
      let d0 := if l.st == .e && l.lock then d else modL1 d sp line fun l => { l with st := .s }
      (writeSlice m ctx d0 (some sp) line (wordBytes l.dirty) l.data l.leaf.cmp).map fun d1 =>
        modL1 d1 sp line fun l => { l with filled := l.filled ||| l.dirty, dirty := 0 }

/-- A spindle's lines that a test names, written back. -/
def writeBackAll (m : Mgmt) (d : Dev) (ctx sp : Nat) (f : L1Line → Bool) : MemM Dev :=
  ((d.l1.filter fun l => l.spindle == sp && f l).map fun l => l.pa).foldlM (fun d line => writeBackLine m d ctx sp line) d

/-- A spindle's copy dropped, and a copy whose owner gives up E and keeps it shared (R217). -/
def dropLine (d : Dev) (sp line : Nat) : Dev :=
  let d1 := { d with l1 := d.l1.filter fun l => !(l.spindle == sp && l.pa == line) }
  match l1Phys d sp line with
  | some l => if l.st == .e then recompress d1 line l.leaf.cmp else d1
  | none => d1
def giveUpE (d : Dev) (sp line : Nat) : Dev :=
  match l1Phys d sp line with
  | some l =>
    if l.st == .e then recompress (modL1 d sp line fun l => { l with st := if l.dirty == 0 then .s else .d }) line l.leaf.cmp else d
  | none => d

/-- A surface write of a spindle's skeins that has registered and is not applied yet: the line of its descriptor (R383).
(DESIGN CHOICE: notes/assumptions/28) -/
def surfaceDue (d : Dev) (sp : Nat) : Option Nat :=
  (d.surfOps.find? fun q => q.reg && !q.acts.contains .seal && spindleNo (groupOf d q.gid) == sp).map fun q => q.dhalf / 2

/-- A release at a scope by a thread of a spindle (R300, R383): earlier surface writes are applied first; at .pl and wider every dirty
word of its L1 is written back. (DEDUCED: notes/assumptions/16) -/
def releaseAt (m : Mgmt) (d : Dev) (ctx sp sc : Nat) : MemM Dev :=
  match surfaceDue d sp with
  | some line => .error (.need (.owned line))
  | none => if sc ≤ 2 then .ok d else writeBackAll m d ctx sp fun _ => true

/-- The guard tags of a line as its slice holds them. -/
def lineTags (d : Dev) (line : Nat) : BitVec 16 :=
  BitVec.ofNat 16 ((List.range 4).foldl (fun x i => x + (tget d.tags (4 * line + i) 0).toNat * 2 ^ (4 * i)) 0)

/-- The clean words and the guard tags of a copy fetched again from its caching slice (R334, R346); of a line that cannot be read no
clean word is left. -/
def renewCopy (m : Mgmt) (ctx : Nat) (d : Dev) (sp : Nat) (c : L1Line) : MemM Dev :=
  let line := c.pa
  let put (d : Dev) (x : Line) (filled : Mask) : Dev := modL1 d sp line fun l => { l with
    data := overlay x l.data (wordBytes l.dirty), filled := filled &&& ~~~l.dirty, queued := false, tags := lineTags d line }
  let counted (d : Dev) : Dev := if c.home then dirAdd d sp line else d
  match readSlice m ctx d (some sp) line c.leaf.rp [2 * line, 2 * line + 1] .rdShared (100 + line % 4096) with
  | .error (.need n) => .error (.need n)
  | .error _ => .ok (counted (put d 0 0))
  | .ok (x, d1) => .ok (counted (put d1 x (~~~0)))

/-- An acquire at a scope (R202, R205, R300, R334, R346): queued and remote-origin copies go, at .sys also copies of SYS pages;
pinned and locked copies stay, counted by the directory where it counts them (R204), and refetch their clean words. -/
def acquireAt (m : Mgmt) (d : Dev) (ctx sp sc : Nat) : MemM Dev :=
  let goes (l : L1Line) : Bool := l.queued || !l.home || (sc == 5 && l.leaf.sys)
  if sc ≤ 2 then .ok d
  else
    (writeBackAll m d ctx sp goes).bind fun d1 =>
      let drops := d1.l1.filter fun l => l.spindle == sp && goes l && !(l.pin || l.lock)
      let d2 := drops.foldl (fun d l => dropLine (if l.home && !l.queued then dirDel d sp l.pa else d) sp l.pa) d1
      (d2.l1.filter fun l => l.spindle == sp && goes l).foldlM (fun d l => renewCopy m ctx d sp l) d2

/-! ## Translation (R184 to R189) -/

/-- A page table entry's fields. -/
def pteLeaf (e : Nat) (size : Nat) : Leaf :=
  let b (i : Nat) : Bool := e / 2 ^ i % 2 == 1
  { base := e / 2 ^ 12 % 2 ^ 40 * 4096 / size * size, size := size, pol := e / 2 ^ 8 % 8, sys := b 7, cmp := b 6, rp := b 5,
    tg := b 4, xn := b 3, w := b 2 }

/-- One 8-byte entry, read at the holder's slice as a device-scope load, which an owner's dirty words reach first (R185, R337); the
walker reads a line of level 0 whole (R187). -/
def readEntry (d : Dev) (level pa : Nat) : MemM Nat :=
  let line := pa / 128
  match sliceLine d line false (if level = 0 then [2 * line, 2 * line + 1] else [pa / 64]) .rdShared 0 with
  | .error e => .error e
  | .ok x =>
    match d.l1.find? fun l => l.pa == line && l.st == .e && l.home with
    | some l => (snoopNeed d true (halvesOf line (wordBytes l.dirty))).bind fun _ => .error (.need (.recall l.spindle line))
    | none => .ok (x.toNat / 2 ^ (8 * (pa % 128)) % 2 ^ 64)

/-- Whether a group of sixteen level-0 entries carries the 64 KiB hint validly (R187). -/
def ctValid (es : List Nat) : Bool :=
  match es with
  | [] => false
  | e0 :: _ =>
    es.all (fun e => e % 4 == 3 && e / 2 ^ 11 % 2 == 1 && e / 4 % 512 == e0 / 4 % 512) && e0 / 2 ^ 12 % 16 == 0 &&
      es.zipIdx.all fun (e, i) => e / 2 ^ 12 % 2 ^ 40 == e0 / 2 ^ 12 % 2 ^ 40 + i

/-- Whether a leaf at a level breaks R186. -/
def badLeaf (level e : Nat) (ct : Bool) : Bool :=
  let b (i : Nat) : Bool := e / 2 ^ i % 2 == 1
  decide (2 ^ 52 ≤ e) || level == 3 || (level == 2 && e / 2 ^ 12 % 2 ^ 18 != 0) || (level == 1 && e / 2 ^ 12 % 2 ^ 9 != 0) ||
    (level != 0 && b 11) || (level == 0 && b 11 && !ct) || (b 5 && b 2) || decide (6 ≤ e / 2 ^ 8 % 8) ||
    (b 7 && (b 4 || b 6 || b 5))

/-- Whether a leaf names physical memory it may not (R188 BADPA, R317). -/
def badLeafPa (d : Dev) (l : Leaf) : Bool :=
  if isDevice l.base then !openDevice d l.base l.size || l.sys
  else if isPeer l.base then !l.sys || !d.portPeer.getLsbD (l.base / 2 ^ 48 % 4)
  else if isHost l.base then !l.sys
  else true

/-- A walk from a table at a level down (R185 to R188). -/
def walkFrom (d : Dev) (va : Nat) : Nat → Nat → MemM Leaf
  | level, table =>
    let idx := va / 2 ^ (12 + 9 * level) % 512
    match readEntry d level (table + 8 * idx) with
    | .error e => .error e
    | .ok e =>
      if e % 2 = 0 then .error (.xlate .unmapped)
      else if e / 2 % 2 = 1 then
        let ct : MemM (Bool × Nat) :=
          if level = 0 && e / 2 ^ 11 % 2 == 1 then
            ((List.range 16).mapM fun i => readEntry d level (table + 8 * (idx / 16 * 16 + i))).map fun es => (ctValid es, 65536)
          else .ok (true, 4096 * 512 ^ level)
        match ct with
        | .error e => .error e
        | .ok (ok, size) =>
          let l := pteLeaf e size
          if badLeaf level e ok then .error (.xlate .badpte)
          else if badLeafPa d l then .error (.xlate .badpa)
          else .ok l
      else
        match level with
        | 0 => .error (.xlate .badpte)
        | n + 1 =>
          if decide (2 ^ 52 ≤ e) || e / 4 % 2 ^ 10 != 0 then .error (.xlate .badpte)
          else if !openDevice d (e / 2 ^ 12 * 4096) 4096 then .error (.xlate .badpa)
          else walkFrom d va n (e / 2 ^ 12 * 4096)

/-- A walk of a context's tables (R184); with EN = 0 nothing is mapped. (DESIGN CHOICE: notes/assumptions/92) -/
def walk (m : Mgmt) (d : Dev) (ctx va : Nat) : MemM Leaf :=
  let pt := (ctxOf m ctx).ptbase
  if !pt.getLsbD 0 then .error (.xlate .unmapped)
  else
    let root := bitsOf pt 12 29 * 4096
    if !openDevice d root 4096 then .error (.xlate .badpa) else walkFrom d va 3 root

/-- A TLB entry that covers an address: the spindle's, then its cluster's. (DESIGN CHOICE: notes/assumptions/14) -/
def tlbFind (d : Dev) (sp asid va : Nat) : Option Leaf :=
  let hit (c : Bool) (u : Nat) : Option TlbEntry :=
    d.tlb.find? fun t => t.cluster == c && t.unit == u && t.asid == asid && va / t.leaf.size * t.leaf.size == t.va
  match hit false sp, hit true (sp / 4) with
  | some t, _ => some t.leaf
  | none, some t => some t.leaf
  | none, none => none

/-- Translation of an address by a spindle for a context (R189). -/
def translate (m : Mgmt) (d : Dev) (ctx sp va : Nat) : MemM Leaf :=
  match tlbFind d sp (ctxAsid m ctx) va with
  | some l => .ok l
  | none => walk m d ctx va

/-- The TLBs after a translation was used: an entry in each, the oldest dropped when one is full. (DESIGN CHOICE: notes/assumptions/14) -/
def tlbFill (m : Mgmt) (d : Dev) (ctx sp va : Nat) (l : Leaf) : Dev :=
  let asid := ctxAsid m ctx
  let add (t : List TlbEntry) (c : Bool) (u cap : Nat) : List TlbEntry :=
    let e : TlbEntry := { cluster := c, unit := u, asid := asid, va := va / l.size * l.size, leaf := l }
    let mine := t.filter fun x => x.cluster == c && x.unit == u
    if mine.any fun x => x.asid == asid && x.va == e.va then t
    else if mine.length < cap then t ++ [e]
    else
      match mine.head? with
      | some o => t.erase o ++ [e]
      | none => t ++ [e]
  { d with tlb := add (add d.tlb false sp 512) true (sp / 4) 8192 }

/-- Where an access of a pointer goes: its leaf and physical address. An L1 hit needs no translation (R189). -/
def locate (m : Mgmt) (d : Dev) (ctx sp : Nat) (p : DWord) : MemM (Leaf × Nat) :=
  let va := bitsOf p 0 48
  if nonCanon p then .error (.xlate .noncanon)
  else
    match l1Hit d sp (ctxAsid m ctx) (va / 128) with
    | some l =>
      if l.stale then (translate m d ctx sp va).map fun f => (f, f.base + va % f.size)
      else .ok (l.leaf, 128 * l.pa + va % 128)
    | none => (translate m d ctx sp va).map fun f => (f, f.base + va % f.size)

/-- The guard tag of a granule as the accessing cache holds it (R206). -/
def tagAt (d : Dev) (sp pa : Nat) : Nat :=
  match l1Phys d sp (pa / 128) with
  | some l => bitsOf l.tags (4 * (pa / 32 % 4)) 4
  | none => (tget d.tags (pa / 32) 0).toNat

/-- The tag check of `n` bytes (R206). -/
def guardOk (d : Dev) (sp : Nat) (p : DWord) (l : Leaf) (pa n : Nat) : Bool :=
  let tag := bitsOf p 56 4
  if l.tg then (List.range ((pa + n - 1) / 32 - pa / 32 + 1)).all fun i => tagAt d sp (pa / 32 * 32 + 32 * i) == tag
  else tag == 0

/-- The checks of R169 and R224 steps 3 to 5 on a range within a line. -/
def checkAt (m : Mgmt) (d : Dev) (ctx sp : Nat) (p : DWord) (n : Nat) (store : Bool) : MemM (Leaf × Nat) :=
  match locate m d ctx sp p with
  | .error e => .error e
  | .ok (l, pa) =>
    if store && !l.w then .error .perm
    else if !guardOk d sp p l pa n then .error .guard
    else .ok (l, pa)

/-! ## Accesses through the L1 (R190, R193 to R197, R209) -/

/-- The set of a virtual line (R193), and of a scratch line (R198). -/
def setOf (v : Nat) : Nat := (v % 512) ^^^ (v / 2 ^ 9 % 512) ^^^ (v / 2 ^ 18 % 512) ^^^ (v / 2 ^ 27 % 512)
def scratchSet (j : Nat) : Nat := (j % 512) ^^^ (j / 512 % 8)

/-- Ways of a set that the scratchpads of the groups on a spindle take (R198). -/
def scratchWays (d : Dev) (sp set : Nat) : Nat :=
  ((d.groups.filter fun g => g.resident && spindleNo g == sp).map
    fun g => (List.range 8).foldl (fun n b => if 512 * b + (set ^^^ b) < 8 * hScratch g.header then n + 1 else n) 0).sum

/-- Lines of a spindle in a set. -/
def setLines (d : Dev) (sp set : Nat) : List L1Line := d.l1.filter fun l => l.spindle == sp && setOf l.va == set

/-- Whether a skein's locks and pins take ways of a spindle: its group is there, be it that the skein has exited. -/
def onSpindle (d : Dev) (sp : Nat) (k : Skein) : Bool :=
  let g := groupOf d k.gid
  g.resident && spindleNo g == sp

/-- Whether some skein of a spindle pins a line, and whether one has it locked in the L1. -/
def pinnedHere (d : Dev) (sp line : Nat) : Bool := d.skeins.any fun k => onSpindle d sp k && k.pins.any fun p => p.line == line
def lockedHere (d : Dev) (sp line : Nat) : Bool :=
  d.skeins.any fun k => onSpindle d sp k && k.locks.any fun h => h.line == line && !h.empty

/-- Ways of a set that stay empty for locks whose groups were placed again (R341). -/
def emptyWays (d : Dev) (sp set : Nat) : Nat :=
  ((d.skeins.filter (onSpindle d sp)).map fun k => (k.locks.filter fun h => h.empty && h.set == set).length).sum

/-- Ways of a set in use beyond those its 24 leave when `n` more are wanted. -/
def waysOver (d : Dev) (sp set n : Nat) : Nat :=
  let lines := (setLines d sp set).length
  if lines + n ≤ 8 then 0 else lines + scratchWays d sp set + emptyWays d sp set + n - 24

/-- Lines that leave a set (R196): unpinned ones, their choice free, their dirty words written back and notices sent (R197).
(DESIGN CHOICE: notes/assumptions/14) -/
def evictLines (m : Mgmt) (ctx sp set : Nat) : Nat → Dev → MemM Dev
  | 0, d => .ok d
  | n + 1, d =>
    let loose := (setLines d sp set).filter fun l => !(l.pin || l.lock)
    match loose[freeBelow d (17000 + n) loose.length]? with
    | none => .ok d
    | some v =>
      (writeBackLine m d ctx sp v.pa).bind fun d1 =>
        evictLines m ctx sp set n (post (dropLine d1 sp v.pa) (.evictionNotice sp v.pa))

/-- Room made for one line in a set, and for what the groups placed on a spindle take of its L1 (R198, R199).
(DESIGN CHOICE: notes/assumptions/14) -/
def makeRoom (m : Mgmt) (d : Dev) (ctx sp set : Nat) : MemM Dev := evictLines m ctx sp set (waysOver d sp set 1) d
def clearWays (m : Mgmt) (d : Dev) (ctx sp : Nat) : MemM Dev :=
  let sets := (((d.l1.filter fun l => l.spindle == sp).map fun l => setOf l.va).dedup).filter fun s => waysOver d sp s 0 != 0
  sets.foldlM (fun d s => evictLines m ctx sp s (waysOver d sp s 0) d) d

/-- Whether a spindle's copy of a line has home origin (R194, R202). -/
def isHome (sp line : Nat) (leaf : Leaf) : Bool := cachingDie (sp / 48) (128 * line) leaf.rp == sp / 48

/-- A copy under another name or with fresh permissions: origin and directory follow its leaf (R190, R192, R202). -/
def retag (m : Mgmt) (d : Dev) (ctx sp va : Nat) (leaf : Leaf) (line : Nat) : Dev :=
  let home := isHome sp line leaf
  let move (l : L1Line) : L1Line := { l with asid := ctxAsid m ctx, va := va, leaf := leaf, home := home, stale := false }
  let d1 := modL1 (if home then d else giveUpE d sp line) sp line move
  let counted := ((l1Phys d sp line).map fun l => !l.queued).getD false
  tlbFill m (if !home then dirDel d1 sp line else if counted then dirAdd d1 sp line else d1) ctx sp (128 * va) leaf

/-- A new line with no valid word; a pin or a lock that stands for it holds it too (R346). -/
def freshLine (m : Mgmt) (d : Dev) (ctx sp va : Nat) (leaf : Leaf) (line : Nat) : Dev :=
  let l : L1Line :=
    { spindle := sp, asid := ctxAsid m ctx, va := va, pa := line, data := 0, filled := 0, dirty := 0, tags := lineTags d line,
      leaf := leaf, home := isHome sp line leaf, pin := pinnedHere d sp line || lockedHere d sp line, lock := lockedHere d sp line, st := .s, queued := false, stale := false }
  let d1 := tlbFill m { d with l1 := d.l1 ++ [l] } ctx sp (128 * va) leaf
  if l.home then dirAdd d1 sp line else d1

/-- The L1 with a line at a virtual address, filled or not. A name that stands for another physical line by now is given up (R192);
a copy under another name moves to this one (R190), and a hit stays as it is (R189); otherwise a line with no valid word is allocated
(R195). -/
def allocLine (m : Mgmt) (d : Dev) (ctx sp va : Nat) (leaf : Leaf) (pa : Nat) : MemM Dev :=
  let line := pa / 128
  let clear : MemM Dev :=
    match l1Hit d sp (ctxAsid m ctx) va with
    | some l =>
      if l.pa == line then .ok d
      else (writeBackLine m d ctx sp l.pa).map fun d1 => dropLine (dirDel d1 sp l.pa) sp l.pa
    | none => .ok d
  match clear with
  | .error e => .error e
  | .ok d1 =>
    match l1Phys d1 sp line with
    | some l =>
      if l.asid == ctxAsid m ctx && l.va == va && !l.stale then .ok d1
      else (if setOf l.va == setOf va then .ok d1 else makeRoom m d1 ctx sp (setOf va)).map fun d2 => retag m d2 ctx sp va leaf line
    | none => (makeRoom m d1 ctx sp (setOf va)).map fun d2 => freshLine m d2 ctx sp va leaf line

/-- The L1 with every word of a line valid: those that were not are fetched from its caching slice, with the line's guard tags, and
the others stay as they are (R195, R205, R206). -/
def fillLine (m : Mgmt) (d : Dev) (ctx sp va : Nat) (leaf : Leaf) (pa k : Nat) : MemM Dev :=
  let line := pa / 128
  match allocLine m d ctx sp va leaf pa with
  | .error e => .error e
  | .ok d1 =>
    if ((l1Phys d1 sp line).map fun l => l.filled ||| l.dirty) == some (BitVec.allOnes 32) then .ok d1
    else
      (readSlice m ctx d1 (some sp) line leaf.rp [2 * line, 2 * line + 1] .rdShared k).map fun (x, d2) =>
        modL1 d2 sp line fun l =>
          { l with data := overlay x l.data (wordBytes (l.filled ||| l.dirty)), filled := ~~~l.dirty, tags := lineTags d2 line }

/-- Whether a copy holds every byte of a mask. -/
def holds (l : L1Line) (bm : BitVec 128) : Bool := (wordsTouched bm &&& ~~~(l.filled ||| l.dirty)) == 0

/-- The policy an access acts under (R209): the instruction's, or the leaf's when that is 0; 5 on a store is 0. -/
def policyAt (pol : Nat) (l : Leaf) (store : Bool) : Nat :=
  let p := if pol = 0 then l.pol else pol
  if store && p == 5 then 0 else p

/-- The latency of an access that missed (R97): path-dependent, at least the level's own. (DEDUCED: notes/assumptions/10) -/
def missLat (d : Dev) (sp pa k : Nat) (rp : Bool) : Nat :=
  if freeBit d (18000 + k) then latMemory + freeBelow d (18100 + k) 256
  else if cachingDie (sp / 48) pa rp == sp / 48 then latL2 else latRemote

/-- A natural of `n` bytes at an offset of a line. -/
def takeBytes (l : Line) (o n : Nat) : Nat := l.toNat / 2 ^ (8 * o) % 2 ^ (8 * n)

/-- Whether an uncorrectable error or a lost link has taken bytes of a line (R211, R218, R318). (DEDUCED: notes/assumptions/98) -/
def contentLost (d : Dev) (line : Nat) (bm : BitVec 128) : Bool :=
  if isDevice (128 * line) then badForm (formOf d line)
  else (halvesOf line bm).any fun h => ((tget? d.halves h).map fun x => x.poison).getD false

/-- Whether such bytes lie in clean words of a copy. (DEDUCED: notes/assumptions/98) -/
def cleanLost (d : Dev) (l : L1Line) (bm : BitVec 128) : Bool := contentLost d l.pa bm && (wordsTouched bm &&& ~~~l.dirty) != 0

/-- A load of `n` bytes within a line through the L1 or at its level (R209, R301, R302, R312): value, device, latency. Clean words of a
line that has become POISON are not read (R211, R218). (DEDUCED: notes/assumptions/98) -/
def loadAt (m : Mgmt) (d : Dev) (ctx sp : Nat) (p : DWord) (leaf : Leaf) (pa n pol k : Nat) : MemM (Nat × Dev × Nat) :=
  let line := pa / 128
  let o := pa % 128
  let bm := byteMask o n
  let va := bitsOf p 7 41
  let pl := policyAt pol leaf false
  let atLevel (r : HostReq) (rp : Bool) : MemM (Nat × Dev × Nat) :=
    match readSlice m ctx d (some sp) line rp (halvesOf line bm) r k with
    | .error e => .error e
    | .ok (x, d1) =>
      let y := match l1Phys d1 sp line with
        | some l => overlay x l.data (wordBytes l.dirty)
        | none => x
      .ok (takeBytes y o n, d1, missLat d sp pa k leaf.rp)
  if isPeer pa then atLevel .rdCurr false
  else if pl = 4 then atLevel .rdCurr false
  else if pl = 3 then atLevel .rdShared false
  else if pl = 2 then atLevel .rdShared leaf.rp
  else
    match l1Hit d sp (ctxAsid m ctx) (va % 2 ^ 41) with
    | some l =>
      if !l.stale && holds l bm then
        if cleanLost d l bm then .error .dataerr
        else .ok (takeBytes l.data o n, d, latL1)
      else
        (fillLine m d ctx sp va leaf pa k).map fun d1 =>
          (takeBytes (((l1Phys d1 sp line).map fun l => l.data).getD 0) o n, d1, missLat d sp pa k leaf.rp)
    | none =>
      if pl = 5 && (l1Phys d sp line).isNone then atLevel .rdShared leaf.rp
      else
        (fillLine m d ctx sp va leaf pa k).map fun d1 =>
          (takeBytes (((l1Phys d1 sp line).map fun l => l.data).getD 0) o n, d1, missLat d sp pa k leaf.rp)

/-- The lines whose answer of RdCurr a load uses up: one of policy 4 takes it (R319). -/
def usedBy (pol : Nat) (l : Leaf) (pa : Nat) : List Nat := if policyAt pol l false == 4 then [pa / 128] else []

/-- The answers of RdCurr for the halves of some lines used up: data that is not kept (R319). -/
def useCurr (d : Dev) (lines : List Nat) : Dev :=
  let used (e : Nat × Half) : Bool := lines.contains (e.1 / 2) && e.2.st == .i
  if d.halves.any used then { d with halves := d.halves.filter fun e => !used e } else d

/-- The accessing L1's copy after a write made at a level (R209): whole words become valid, dirty words stay dirty. -/
def patchCopy (d : Dev) (sp line : Nat) (bm : BitVec 128) (x : Line) : Dev :=
  modL1 d sp line fun l =>
    let whole := wordsWhole bm
    let valid := l.filled ||| l.dirty ||| whole
    let use := bm &&& wordBytes valid
    { l with data := overlay l.data x use, filled := l.filled ||| (whole &&& ~~~l.dirty) }

/-- A store of the bytes of a mask within a line (R195, R209). -/
def storeAt (m : Mgmt) (d : Dev) (ctx sp : Nat) (p : DWord) (leaf : Leaf) (pa : Nat) (bm : BitVec 128) (x : Line)
    (pol k : Nat) : MemM Dev :=
  let line := pa / 128
  let va := bitsOf p 7 41
  let pl := policyAt pol leaf true
  if isPeer pa || decide (2 ≤ pl) then
    if !isDevice pa && !linkUp d pa then .error .dataerr
    else (writeSlice m ctx d (some sp) line bm x leaf.cmp).map fun d1 => patchCopy d1 sp line bm x
  else
    match allocLine m d ctx sp va leaf pa with
    | .error e => .error e
    | .ok d1 =>
      let part := wordsTouched bm &&& ~~~(wordsWhole bm)
      let valid := ((l1Phys d1 sp line).map fun l => l.filled ||| l.dirty).getD 0
      let d2 := if (part &&& ~~~valid) == 0 then .ok d1 else fillLine m d1 ctx sp va leaf pa k
      d2.map fun d2 => modL1 d2 sp line fun l =>
        { l with
          data := overlay l.data x bm, dirty := l.dirty ||| wordsTouched bm, filled := l.filled &&& ~~~(wordsTouched bm),
          st := if l.st == .e then .e else .d }

/-! ## Waiting for the host -/

/-- The messages an access that waits sends: a request or a snoop, once; a recall is made at once. (DEDUCED: notes/assumptions/17) -/
def askFor (d : Dev) (n : Need) : Dev :=
  match n with
  | .half h r => if d.hostReqs.contains (h, r) then d else { d with hostReqs := d.hostReqs ++ [(h, r)] }
  | .snoop h inv =>
    match d.snoops.find? fun s => s.1 == h with
    | some _ => { d with snoops := modWhere (fun s => s.1 == h) (fun s => (s.1, s.2 || inv)) d.snoops }
    | none => { d with snoops := d.snoops ++ [(h, inv)] }
  | .owned _ => d
  | .recall sp line =>
    match l1Phys d sp line with
    | some l =>
      let d1 := modL1 d sp line shareCopy
      if l.dirty == 0 then recompress d1 line l.leaf.cmp
      else takeWords d1 line (memLine d line) (wordBytes l.dirty) l.data l.leaf.cmp
    | none => d

/-- An instruction that waits: it issues again when the half has come, after a recall at once. -/
def waitFor (d : Dev) (n : Need) : Res :=
  match n with
  | .recall .. => .again (askFor d n)
  | _ => .park (askFor d n) (.half (needHalf n))

/-- An event that waits: it is made again when the half has come, after a recall at once. (DESIGN CHOICE: notes/assumptions/65) -/
def defer (d : Dev) (n : Need) (e : Instr) : Dev :=
  match n with
  | .recall .. => post (askFor d n) e
  | _ => { askFor d n with deferred := (askFor d n).deferred ++ [(needHalf n, e)] }

/-- What waits for a half goes on. (DEDUCED: notes/assumptions/17; DESIGN CHOICE: notes/assumptions/65) -/
def resumeHalf (d : Dev) (h : Nat) : Dev :=
  let d1 := wakeAll d fun p => match p with | .half q => q == h | _ => false
  postAll { d1 with deferred := d1.deferred.filter fun e => e.1 != h } ((d1.deferred.filter fun e => e.1 == h).map fun e => e.2)

end Sys2Proof.Machine
end

