-- ==== Sys2Proof/Machine/Access.lean ====
section
/-!
DEFINITION. The accesses of instructions: address forms (R169, R207, R223),
    the order of the checks and the fault they make (R208,
R224), loads and stores of lanes with the deterministic store buffer (R313, R314), ownership (R205),
    and the groups' scratchpads
(R198).
-/

namespace Sys2Proof.Machine

/-- A failed check: its place in the order of R224, the cause and sub-code, the address. -/
structure Bad where
  stage : Nat
  cause : Cause
  sub : Nat
  addr : DWord
  deriving DecidableEq, Repr

/-- The places of the checks: R208 steps 1 to 3, then the pointer's form (R182), then R224 steps 2 to 6.
(DEDUCED: notes/assumptions/12) -/
def stBounds : Nat := 1
def stReadOnly : Nat := 2
def stCanon : Nat := 3
def stAlign : Nat := 4
def stXlate : Nat := 5
def stPerm : Nat := 6
def stGuard : Nat := 7
def stData : Nat := 8

/-- One lane's access: the lane, its pointer, a fault that its buffer descriptor makes, whether R208 drops it. -/
structure LAcc where
  lane : Nat
  p : DWord
  pre : Option Bad
  drop : Bool
  deriving DecidableEq, Repr

/-- What the checks of one lane come to: leaf and physical address, nothing to access, a fault, or a wait. -/
inductive Chk where
  | ok (l : Leaf) (pa : Nat)
  | drop
  | bad (b : Bad)
  | wait (stage : Nat) (n : Need)
  deriving DecidableEq, Repr

/-- A failed or waiting memory operation as a check's outcome; `stage` is where it happened, `addr` the address of the line's piece
that failed. A DATAERR names the line (R218). (DEDUCED: notes/assumptions/48) -/
def errChk (stage : Nat) (addr : DWord) : MemErr → Chk
  | .need n => .wait stage n
  | .dataerr => .bad { stage := stData, cause := .dataerr, sub := 0, addr := addr &&& ~~~127 }
  | .xlate c => .bad { stage := stXlate, cause := .xlate, sub := xlateCode c, addr := addr }
  | .perm => .bad { stage := stPerm, cause := .perm, sub := 0, addr := addr }
  | .guard => .bad { stage := stGuard, cause := .guard, sub := 0, addr := addr }

/-- The pieces of a range that lie in one line each. -/
def pieces (p : DWord) (n : Nat) : List (DWord × Nat) :=
  let o := bitsOf p 0 7
  if o + n ≤ 128 then [(p, n)]
  else
    let first := 128 - o
    (p, first) :: [(p + BitVec.ofNat 64 first, min (n - first) 128)] ++
      (if first + 128 < n then [(p + BitVec.ofNat 64 (first + 128), n - first - 128)] else [])

/-- The checks of R169 on `n` bytes at a pointer, of which a piece in a later line is named by its own address; `al` is the
alignment. (DEDUCED: notes/assumptions/12) -/
def checkPtr (m : Mgmt) (d : Dev) (ctx sp : Nat) (p : DWord) (n al : Nat) (store : Bool) : Chk :=
  if p.toNat % al != 0 then .bad { stage := stAlign, cause := .align, sub := 0, addr := p }
  else if nonCanon p then .bad { stage := stCanon, cause := .xlate, sub := xlateCode .noncanon, addr := p }
  else
    let rs : List (DWord × MemM (Leaf × Nat)) := (pieces p n).map fun (q, k) => (q, checkAt m d ctx sp q k store)
    let errs := rs.filterMap fun r => match r.2 with | .error e => some (errChk stXlate r.1 e) | .ok _ => none
    let stageOf (c : Chk) : Nat := match c with | .bad b => b.stage | .wait s _ => s | _ => 100
    let worst := errs.foldl (fun (w : Option Chk) c =>
      match w with
      | some x => if stageOf c < stageOf x then some c else some x
      | none => some c) none
    match worst, rs.head? with
    | some c, _ => c
    | none, some (_, .ok (l, pa)) => .ok l pa
    | none, _ => .drop

/-- How an access fails, and at which address; `p` where it lies in one line. -/
def failAt {α : Type} (p : DWord) : MemM α → Option (DWord × MemErr)
  | .error e => some (p, e)
  | .ok _ => none

/-- The checks of R169 on an access, and the read of a bad line last (`try_` makes the access and tells how it fails). -/
def checkUni (m : Mgmt) (d : Dev) (ctx sp n al : Nat) (store : Bool) (try_ : Leaf → Nat → Option (DWord × MemErr)) (a : LAcc) :
    Chk :=
  match checkPtr m d ctx sp a.p n al store with
  | .ok l pa =>
    match try_ l pa with
    | some (q, e) => errChk stData q e
    | none => .ok l pa
  | c => c

/-- One lane's checks (R224): a non-canonical address makes no other (R182). (DEDUCED: notes/assumptions/12) -/
def checkLane (m : Mgmt) (d : Dev) (ctx sp n al : Nat) (store : Bool) (try_ : Leaf → Nat → Option (DWord × MemErr)) (a : LAcc) :
    Chk :=
  if a.drop then .drop
  else
    match a.pre with
    | some b => .bad b
    | none =>
      if nonCanon a.p then .bad { stage := stCanon, cause := .xlate, sub := xlateCode .noncanon, addr := a.p }
      else checkUni m d ctx sp n al store try_ a

/-- What the checks of all lanes come to. -/
inductive Checked where
  | go (ls : List (LAcc × Leaf × Nat))
  | fault (f : FaultInfo)
  | wait (n : Need)
  deriving Repr

/-- A page entry of a run-ahead record (R456). -/
def pageEntry (p : DWord) (store fetch : Bool) (cause : Nat) : DWord :=
  BitVec.ofNat 64 (bitsOf p 12 36 * 4096 + (if store then 128 else 0) + (if fetch then 64 else 0) + cause)

/-- The fault of the earliest check at which any lane fails, naming exactly the lanes whose own fault it is; its address is the
lowest such lane's (R224). (DEDUCED: notes/assumptions/12) -/
def pickFault (bads : List (Nat × Bad)) (store : Bool) : Option FaultInfo :=
  let stage := bads.foldl (fun s b => min s b.2.stage) 100
  let mine := bads.filter fun b => b.2.stage == stage
  match mine with
  | [] => none
  | (_, b) :: _ =>
    some { faultAt b.cause b.addr (maskOf fun l => mine.any fun x => x.1 == l) with
      sub := b.sub, pages := mine.map fun x => pageEntry x.2.addr store false x.2.sub }

/-- The checks of an instruction's accesses, each made by `chk`. (DEDUCED: notes/assumptions/12) -/
def checkAll (store : Bool) (chk : LAcc → Chk) (as : List LAcc) : Checked :=
  let cs := as.map fun a => (a, chk a)
  let bads := cs.filterMap fun (a, c) => match c with | .bad b => some (a.lane, b) | _ => none
  let waits := cs.filterMap fun (_, c) => match c with | .wait s n => some (s, n) | _ => none
  let firstWait := waits.foldl (fun (w : Option (Nat × Need)) x =>
    match w with
    | some y => if x.1 < y.1 then some x else some y
    | none => some x) none
  let oks := cs.filterMap fun (a, c) => match c with | .ok l pa => some (a, l, pa) | _ => none
  match pickFault bads store, firstWait with
  | some f, some (s, w) => if bads.any fun b => b.2.stage < s then .fault f else .wait w
  | some f, none => .fault f
  | none, some (_, w) => .wait w
  | none, none => .go oks

/-! ## Address forms (R207, R208, R223) -/

/-- A signed displacement as an addend of 64 bits. -/
def disp14 (o : Lm) : Int := o.xw.disp.toInt
def addDisp (p : DWord) (x : Int) : DWord := p + BitVec.ofInt 64 x

/-- The pointer of a lane by AM: 0 base, 1 base and index, 2 the lane's own (R223). -/
def globalPtr (d : Dev) (o : Lm) (am : Nat) (disp : Int) (l : Nat) : DWord :=
  let k := curSkein d
  let base := readS64 d k o.sb.toNat
  let own := BitVec.ofNat 64 (joinRegs (readV d k l) o.a.toNat 2)
  if am = 2 then addDisp own disp
  else if am = 1 then addDisp (base + (readV d k l o.a.toNat).setWidth 64) disp
  else addDisp base disp

/-- What the address form of an instruction reads. -/
def globalRds (o : Lm) (am : Nat) : List Rd :=
  if am = 2 then [.v o.a 2] else if am = 1 then [.v o.a 1, .s o.sb 2] else [.s o.sb 2]
def bufferRds (o : Lm) (ix : Bool) : List Rd := .s o.sb 4 :: (if ix then [.v o.a 1] else [])
def scratchRds (o : Lm) (ix : Bool) : List Rd := if ix then [.v o.a 1] else []

/-- A lane's access through a buffer descriptor (R208). -/
def bufferAcc (d : Dev) (o : Lm) (ix : Bool) (disp : Int) (n : Nat) (store : Bool) (l : Nat) : LAcc :=
  let k := curSkein d
  let desc := joinRegs (readS d k) o.sb.toNat 4
  let base := BitVec.ofNat 64 desc
  let size : Nat := desc / 2 ^ 64 % 2 ^ 32
  let w3 := desc / 2 ^ 96
  let stride : Nat := if w3 / 2 ^ 8 % 2 ^ 16 = 0 then n else w3 / 2 ^ 8 % 2 ^ 16
  let idx : Nat := if ix then (readV d k l o.a.toNat).toNat else 0
  let off : Int := (idx * stride : Nat) + disp
  let p := addDisp base off
  let bad (s : Nat) (c : Cause) : Option Bad := some { stage := s, cause := c, sub := 0, addr := p }
  let inRange := decide (0 ≤ off) && decide (off + n ≤ size)
  if w3 / 2 ^ 24 != 0 || w3 / 4 % 2 ^ 6 != 0 then { lane := l, p := p, pre := bad stBounds .bounds, drop := false }
  else if !inRange then
    if w3 / 2 % 2 = 1 then { lane := l, p := p, pre := none, drop := true }
    else { lane := l, p := p, pre := bad stBounds .bounds, drop := false }
  else if store && w3 % 2 == 1 then { lane := l, p := p, pre := bad stReadOnly .perm, drop := false }
  else { lane := l, p := p, pre := none, drop := false }

/-- The accesses of the lanes of a global and a buffer form. -/
def globalAccs (d : Dev) (o : Lm) (am : Nat) (disp : Int) (ls : List Nat) : List LAcc :=
  ls.map fun l => { lane := l, p := globalPtr d o am disp l, pre := none, drop := false }
def bufferAccs (d : Dev) (o : Lm) (ix : Bool) (disp : Int) (n : Nat) (store : Bool) (ls : List Nat) : List LAcc :=
  ls.map (bufferAcc d o ix disp n store)

/-- The index mode of a form. -/
def amOf (o : Lm) : Nat := bitsOf o.xw.sub 2 2
def ixOf (o : Lm) : Bool := o.xw.sub.getLsbD 3

/-! ## Ownership of a line (R205, R217, R319) -/

/-- The clean words of a copy that waits for its invalidation given up: an owner's are the newest. -/
def refetch (d : Dev) (sp line : Nat) : Dev :=
  modL1 d sp line fun l => if l.queued then { l with filled := 0, queued := false } else l

/-- A line taken into a spindle's L1 in state E: every other copy acknowledged, host copies taken back, the form expanded, the page
marked written. A line that cannot be read is not taken (R218). -/
def grantE (m : Mgmt) (d : Dev) (ctx sp va : Nat) (leaf : Leaf) (pa k : Nat) : MemM Dev :=
  let line := pa / 128
  let halves := [2 * line, 2 * line + 1]
  match recallOwner m ctx d (some sp) line with
  | .error e => .error e
  | .ok d1 =>
    match invalidateOthers m ctx d1 (some sp) line with
    | .error e => .error e
    | .ok d2 =>
      let host : MemM Dev :=
        if isDevice pa then (snoopNeed d2 true halves).map fun _ => d2
        else
          (hostNeed d2 .rdOwn halves).map fun _ =>
            { d2 with halves := modWhere (fun h => halves.contains h.1) (fun h => (h.1, { h.2 with st := .m })) d2.halves }
      match host with
      | .error e => .error e
      | .ok d3 =>
        if isDevice pa && badForm (formOf d3 line) then .error .dataerr
        else (fillLine m (refetch d3 sp line) ctx sp va leaf pa k).map fun d4 =>
          let d5 := dirAdd (modL1 d4 sp line fun l => { l with st := .e }) sp line
          markWritten { d5 with forms := if isDevice pa then tdel d5.forms line else d5.forms } line

/-! ## Pinnable ways (R199, R333, R345) -/

/-- The set in which a spindle's copy of a line stands, or where its lock or pin was made (R190). -/
def standSet (d : Dev) (sp line made : Nat) : Nat := ((l1Phys d sp line).map fun l => setOf l.va).getD made

/-- The lines that skeins of a spindle pin, each with the set in which it takes a way. -/
def pinWays (d : Dev) (sp : Nat) : List (Nat × Nat) :=
  ((d.skeins.filter (onSpindle d sp)).flatMap fun k => k.pins.map fun p => (p.line, standSet d sp p.line (setOf p.va))).dedup

/-- The pinnable ways of a set that the skeins of some groups on a spindle take: one for each lock held and each request (R333, R463),
one for each line pinned, by however many (R345). -/
def waysTaken (d : Dev) (sp set : Nat) : Nat :=
  let lockSet (h : HeldLock) : Nat := if h.empty then h.set else standSet d sp h.line h.set
  ((d.skeins.filter (onSpindle d sp)).map fun k => (k.locks.filter fun h => lockSet h == set).length +
    match k.park with | some (.lock _ _ _ _ s) => (if s == set then 1 else 0) | _ => 0).sum +
    ((pinWays d sp).filter fun e => e.2 == set).length

/-- The ways that a line's copy takes along when it comes to a set, and whether a set has room for some more (R199). -/
def waysAlong (d : Dev) (sp set line : Nat) : Nat :=
  ((pinWays d sp).filter fun e => e.1 == line && e.2 != set).length +
    (if lockedHere d sp line && standSet d sp line set != set then 1 else 0)
def waysFit (d : Dev) (sp set n : Nat) : Bool := decide (waysTaken d sp set + scratchWays d sp set + n ≤ 8)

/-! ## A lock whose way is reserved (R341) -/

/-- The lock on a line that a skein of a spindle holds with its way still empty. -/
def emptyWay (d : Dev) (sp line : Nat) : Option (Nat × HeldLock) :=
  d.skeins.findSome? fun k =>
    if onSpindle d sp k then (k.locks.find? fun h => h.line == line && h.empty).map fun h => (k.uid, h) else none

/-- The flags of a line a skein has locked: pinned, and E when it lies on its caching die (R334). -/
def lockFlags (l : L1Line) : L1Line := { l with pin := true, lock := true, st := if l.home then .e else .d }

/-- The line of a lock filled into its reserved way by the holder's first access through its own set; through another set an access
goes to the caching slice (the second component), as does one that would bring a pinned or locked copy into a set without room for it.
(DESIGN CHOICE: notes/assumptions/14) -/
def claimWay (m : Mgmt) (d : Dev) (ctx sp : Nat) (p : DWord) (leaf : Leaf) (pa k : Nat) : MemM (Dev × Bool) :=
  let line := pa / 128
  let va := bitsOf p 7 41
  match emptyWay d sp line with
  | none => let n := waysAlong d sp (setOf va) line; .ok (d, n != 0 && !waysFit d sp (setOf va) n)
  | some (u, h) =>
    if setOf va != h.set then .ok (d, true)
    else if u != d.cur.skein then .ok (d, false)
    else
      (if isHome sp line leaf then grantE m d ctx sp va leaf pa k else fillLine m d ctx sp va leaf pa k).map fun d1 =>
        let full (q : HeldLock) : HeldLock := { q with empty := false }
        (modSkein (modL1 d1 sp line lockFlags) u fun k => { k with locks := modWhere (fun q => q.line == line) full k.locks }, false)

/-- A load and a store that honour a reserved way. -/
def loadVia (m : Mgmt) (d : Dev) (ctx sp : Nat) (p : DWord) (leaf : Leaf) (pa n pol k : Nat) : MemM (Nat × Dev × Nat) :=
  match claimWay m d ctx sp p leaf pa k with
  | .error e => .error e
  | .ok (d1, away) => loadAt m d1 ctx sp p leaf pa n (if away then 3 else pol) k
def storeVia (m : Mgmt) (d : Dev) (ctx sp : Nat) (p : DWord) (leaf : Leaf) (pa : Nat) (bm : BitVec 128) (x : Line)
    (pol k : Nat) : MemM Dev :=
  match claimWay m d ctx sp p leaf pa k with
  | .error e => .error e
  | .ok (d1, away) => storeAt m d1 ctx sp p leaf pa bm x (if away then 3 else pol) k

/-! ## Ranges over several lines -/

/-- An access to a range, that fails with the address of the piece that does. -/
abbrev SpanM (α : Type) := Except (DWord × MemErr) α
def spanM {α : Type} (q : DWord) (r : MemM α) : SpanM α := r.mapError fun e => (q, e)

/-- `n` bytes at a pointer, little-endian, with the longest latency. -/
def loadSpan (m : Mgmt) (d : Dev) (ctx sp : Nat) (p : DWord) (n pol k : Nat) : SpanM (Nat × Dev × Nat) :=
  let piece (r : Nat × Dev × Nat × List Nat) (x : DWord × Nat) : SpanM (Nat × Dev × Nat × List Nat) :=
    let q := x.1
    (spanM q (locate m r.2.1 ctx sp q)).bind fun a =>
      (spanM q (loadVia m r.2.1 ctx sp q a.1 a.2 x.2 pol k)).map fun y =>
        (r.1 + y.1 * 2 ^ (8 * (q - p).toNat), y.2.1, max r.2.2.1 y.2.2, r.2.2.2 ++ usedBy pol a.1 a.2)
  ((pieces p n).foldlM piece (0, d, 0, [])).map fun r => (r.1, useCurr r.2.1 r.2.2.2, r.2.2.1)

/-- A natural of `n` bytes stored at a pointer. -/
def storeSpan (m : Mgmt) (d : Dev) (ctx sp : Nat) (p : DWord) (n x pol k : Nat) : SpanM Dev :=
  let piece (d : Dev) (y : DWord × Nat) : SpanM Dev :=
    let q := y.1
    (spanM q (locate m d ctx sp q)).bind fun a =>
      spanM q (storeVia m d ctx sp q a.1 a.2 (byteMask (a.2 % 128) y.2)
        (atByte (a.2 % 128) (x / 2 ^ (8 * (q - p).toNat) % 2 ^ (8 * y.2))) pol k)
  (pieces p n).foldlM piece d

/-! ## The deterministic store buffer (R313, R314) -/

/-- Entries a skein's buffer and its share of the commit log hold. -/
def sbufCap (g : Group) : Nat := 128 + hCommitSz g.header * 1024 / (if isSpool g then 1 else hSkeins g.header) / 16
where
  /-- Whether a group runs a spool record's or a handler's skein (R33). -/
  isSpool (g : Group) : Bool := match g.kind with | .spool .. => true | .handler .. => true | _ => false

/-- A store as buffer entries, one for each word it touches; `pas` gives the physical address of a byte by its distance from the
first word's start. (DEDUCED: notes/assumptions/20) -/
def sbufEntries (seq thread : Nat) (owners : List Nat) (p : DWord) (pas : Nat → Nat) (n x pol : Nat) : List SBuf :=
  let o := p.toNat % 4
  (List.range ((o + n + 3) / 4)).map fun i =>
    let bytes := (List.range 4).filter fun b => o ≤ 4 * i + b && decide (4 * i + b < o + n)
    { thread := thread, owners := owners, taken := [], va := p - BitVec.ofNat 64 o + BitVec.ofNat 64 (4 * i), pa := pas (4 * i), seq := seq,
      mask := BitVec.ofNat 4 ((bytes.map fun b => 2 ^ b).sum),
      data := BitVec.ofNat 32 (x * 2 ^ (8 * o) / 2 ^ (32 * i)), pol := pol }

/-- Entries added to a skein's buffer, unless neither it nor its share has room. (DEDUCED: notes/assumptions/20) -/
def sbufPush (d : Dev) (u : Nat) (es : List SBuf) : Option Dev :=
  let k := skeinOf d u
  if sbufCap (groupOf d k.gid) < k.sbuf.length + es.length then none
  else some (modSkein d u fun k =>
    { k with sbuf := k.sbuf ++ es, spilled := max k.spilled (k.sbuf.length + es.length - 128) })

/-- The commit log overwritten by the entries a push spilled (R313): its bytes have no stated layout, so they are free. -/
def spillLog (m : Mgmt) (d : Dev) (ctx sp u old : Nat) : Dev :=
  let k := skeinOf d u
  let g := groupOf d k.gid
  let share := (sbufCap g - 128) * 16
  (List.range (k.spilled - old)).foldl (fun d i =>
    let p := hCommitLog g.header + BitVec.ofNat 64 (k.idx * share + 16 * (old + i))
    match locate m d ctx sp p with
    | .ok (l, pa) =>
      let x := (freeVal d (19000 + 2 * i)).toNat + 2 ^ 64 * (freeVal d (19001 + 2 * i)).toNat
      match mergeLine m ctx d (pa / 128) (byteMask (pa % 128) 16) (atByte (pa % 128) x) l.cmp with
      | .ok d1 => d1
      | .error _ => d
    | .error _ => d) d

/-- The buffered stores of a group in the order of their instructions. A thread that a reorder point has moved keeps its own in the
skein it left (R301). -/
def groupSbuf (d : Dev) (gid : Nat) : List SBuf :=
  ((d.skeins.filter fun k => k.gid == gid).flatMap fun k => k.sbuf).insertionSort (·.seq ≤ ·.seq)

/-- `n` bytes at a physical address with buffered bytes laid over them (R314). (DEDUCED: notes/assumptions/20) -/
def sbufOver (es : List SBuf) (pa n x : Nat) : Nat :=
  es.foldl (fun x e =>
    (List.range 4).foldl (fun x b =>
      if e.mask.getLsbD b && decide (pa ≤ e.pa + b) && decide (e.pa + b < pa + n) then
        let a := e.pa + b - pa
        x - x / 2 ^ (8 * a) % 256 * 2 ^ (8 * a) + bitsOf e.data (8 * b) 8 * 2 ^ (8 * a)
      else x) x) x

/-- The bytes of an entry that one of its threads still has there, and the entry as some threads have it. -/
def heldBytes (e : SBuf) (own : Nat) : BitVec 4 :=
  if e.owners.contains own then e.mask &&& ~~~(((e.taken.find? fun t => t.1 == own).map fun t => t.2).getD 0) else 0
def entryFor (owns : List Nat) (e : SBuf) : SBuf := { e with mask := owns.foldl (fun b o => b ||| heldBytes e o) 0 }

/-- The buffered stores of some threads of the issuing group, by their numbers at group start; none outside a deterministic context. -/
def ownStores (m : Mgmt) (d : Dev) (owns : List Nat) : List SBuf :=
  if isDet m (curCtx d) then ((groupSbuf d (curGroup d).gid).map (entryFor owns)).filter fun e => e.mask != 0 else []

/-- The same over a range of a pointer, line by line. -/
def spanOver (m : Mgmt) (d : Dev) (es : List SBuf) (p : DWord) (n x : Nat) : Nat :=
  if es.isEmpty then x
  else
    (pieces p n).foldl (fun x (q, c) =>
      match locate m d (curCtx d) (curSpindle d) q with
      | .error _ => x
      | .ok (_, pa) =>
        let s := 2 ^ (8 * (q - p).toNat)
        let old := x / s % 2 ^ (8 * c)
        x - old * s + sbufOver es pa c old * s) x

/-- A thread's buffered bytes of a range given up: a later access of its own has performed or overwritten them (R225). Other threads
of the same store keep theirs (R170). (DEDUCED: notes/assumptions/20) -/
def sbufTake (d : Dev) (gid own pa n : Nat) : Dev :=
  let clear (e : SBuf) : SBuf :=
    if !e.owners.contains own then e
    else
      let gone := ((List.range 4).filter fun b => decide (pa ≤ e.pa + b) && decide (e.pa + b < pa + n)).map fun b => 2 ^ b
      let old := ((e.taken.find? fun t => t.1 == own).map fun t => t.2).getD 0
      { e with taken := (own, old ||| BitVec.ofNat 4 gone.sum) :: e.taken.filter fun t => t.1 != own }
  if (groupSbuf d gid).any fun e => e.owners.contains own then
    { d with skeins := modWhere (fun k => k.gid == gid) (fun k => { k with sbuf := k.sbuf.map clear }) d.skeins }
  else d

/-- The number of a thread at group start, which names it for its life. -/
def ownNo (k : Skein) (l : Nat) : Nat := (threadOf k l).num0

/-! ## Loads and stores of lanes -/

/-- Reads of lanes performed one after another: lane and value, with the longest latency. -/
def loadLanes (m : Mgmt) (d : Dev) (ctx sp n pol : Nat) (ls : List (LAcc × Leaf × Nat)) : MemM (List (Nat × Nat) × Dev × Nat) :=
  let one (r : List (Nat × Nat) × Dev × Nat) (x : LAcc × Leaf × Nat) : MemM (List (Nat × Nat) × Dev × Nat) :=
    (loadVia m r.2.1 ctx sp x.1.p x.2.1 x.2.2 n pol x.1.lane).map fun y =>
      (r.1 ++ [(x.1.lane, sbufOver (ownStores m d [ownNo (curSkein d) x.1.lane]) x.2.2 n y.1)], y.2.1, max r.2.2 y.2.2)
  (ls.foldlM one ([], d, 0)).map fun r => (r.1, useCurr r.2.1 (ls.flatMap fun x => usedBy pol x.2.1 x.2.2), r.2.2)

/-- The bytes that the lanes of one store write, merged: the highest lane's byte remains (R225). -/
def laneBytes (n : Nat) (val : Nat → Nat) (ls : List (LAcc × Leaf × Nat)) : BitVec 128 × Line :=
  ls.foldl (fun r (a, _, pa) =>
    let bm := byteMask (pa % 128) n
    (r.1 ||| bm, overlay r.2 (atByte (pa % 128) (val a.lane % 2 ^ (8 * n))) bm)) (0, 0)

/-- Stores of lanes, one to each line they meet (R225), under the name that the highest of its lanes gives it. -/
def storeLanes (m : Mgmt) (d : Dev) (ctx sp n pol : Nat) (val : Nat → Nat) (ls : List (LAcc × Leaf × Nat)) : MemM Dev :=
  ((ls.map fun x => x.2.2 / 128).dedup).foldlM (fun d line =>
    let mine := ls.filter fun x => x.2.2 / 128 == line
    match mine.getLast? with
    | some (a, l, pa) =>
      let w := laneBytes n val mine
      storeVia m d ctx sp a.p l pa w.1 w.2 pol a.lane
    | none => .ok d) d

/-- Whether a store is kept in the buffer: a plain store of a deterministic context (R313). -/
def buffered (m : Mgmt) (ctx : Nat) : Bool := isDet m ctx

/-- A memory operation that failed after its checks: it waits for a half. (DEDUCED: notes/assumptions/17) -/
def waitRes (d : Dev) (e : MemErr) (f : FaultInfo) : Res :=
  match e with
  | .need n => waitFor d n
  | _ => .fault f

/-- The engine that owns a line some access meets, which it waits for (R260). -/
def ownedLine (d : Dev) (ls : List (LAcc × Leaf × Nat)) : Option Nat :=
  (ls.find? fun x => engineOwns d (x.2.2 / 128)).map fun x => x.2.2 / 128

/-- The checks of a load instruction, each lane's access tried last. -/
def loadChecks (m : Mgmt) (d : Dev) (n al pol : Nat) (as : List LAcc) : Checked :=
  let ctx := curCtx d
  let sp := curSpindle d
  let probe (a : LAcc) (l : Leaf) (pa : Nat) : Option (DWord × MemErr) := failAt a.p (loadVia m d ctx sp a.p l pa n pol a.lane)
  checkAll false (fun a => checkLane m d ctx sp n al false (probe a) a) as

/-- A load instruction of the lanes: checks, then each lane's `n` bytes to `dst` of the lane; a dropped lane loads zero. -/
def loadInstr (m : Mgmt) (d : Dev) (da : Dev) (n al pol : Nat) (as : List LAcc) (dst : Nat → Nat → List PWrite) : Res :=
  match loadChecks m d n al pol as with
  | .fault f => .fault { f with undef := as.flatMap fun a => dst a.lane 0 }
  | .wait w => waitFor d w
  | .go ls =>
    match ownedLine d ls with
    | some line => .park d (.recall line)
    | none =>
      match loadLanes m da (curCtx d) (curSpindle d) n pol ls with
      | .error e => waitRes d e (faultAt .dataerr 0 d.cur.lanes)
      | .ok (vals, d1, lat) =>
        let zeros := (as.filter fun a => a.drop).flatMap fun a => dst a.lane 0
        .done (addPend d1 d.cur.skein (max lat latL1) (vals.flatMap (fun v => dst v.1 v.2) ++ zeros))

/-- The checks of a store instruction; one that is buffered or suppressed tries no access. -/
def storeChecks (m : Mgmt) (d : Dev) (n al pol : Nat) (as : List LAcc) : Checked :=
  let ctx := curCtx d
  let sp := curSpindle d
  let probe (a : LAcc) (l : Leaf) (pa : Nat) : Option (DWord × MemErr) :=
    if runsAhead d || buffered m ctx then none
    else failAt a.p (storeVia m d ctx sp a.p l pa (byteMask (pa % 128) n) 0 pol a.lane)
  checkAll true (fun a => checkLane m d ctx sp n al true (probe a) a) as

/-- The buffer entries of a store instruction's lanes (R313). -/
def storeEntries (d : Dev) (n pol : Nat) (val : Nat → Nat) (ls : List (LAcc × Leaf × Nat)) : List SBuf :=
  let k := curSkein d
  ls.flatMap fun x =>
    sbufEntries d.ticks (ownNo k x.1.lane) [ownNo k x.1.lane] x.1.p (fun b => x.2.2 - x.2.2 % 4 + b) n (val x.1.lane) pol

/-- The buffer entries of one store of every thread of the bundle, which the highest lane makes (R170, R313).
(DESIGN CHOICE: notes/assumptions/9) -/
def bundleEntries (m : Mgmt) (d : Dev) (p : DWord) (n x pol : Nat) : List SBuf :=
  let k := curSkein d
  let pas (b : Nat) : Nat :=
    match locate m d (curCtx d) (curSpindle d) (p - BitVec.ofNat 64 (p.toNat % 4) + BitVec.ofNat 64 b) with
    | .ok (_, pa) => pa
    | .error _ => 0
  sbufEntries d.ticks (ownNo k ((lanesOf d.cur.lanes).getLastD 0)) ((lanesOf d.cur.lanes).map (ownNo k)) p pas n x pol

/-- A store instruction of the lanes: checks, then the stores, the buffer's entries, or nothing in run-ahead (R456). -/
def storeInstr (m : Mgmt) (d : Dev) (da : Dev) (n al pol : Nat) (as : List LAcc) (val : Nat → Nat) : Res :=
  let ctx := curCtx d
  let sp := curSpindle d
  let u := d.cur.skein
  match storeChecks m d n al pol as with
  | .fault f => .fault f
  | .wait w => waitFor d w
  | .go ls =>
    if runsAhead d then .done da
    else
      match ownedLine d ls with
      | some line => .park d (.recall line)
      | none =>
        if buffered m ctx then
          match sbufPush da u (storeEntries d n pol val ls) with
          | some d1 => .done (spillLog m d1 ctx sp u (curSkein d).spilled)
          | none => .fault (faultAt .detviol 0 (maskOf fun l => ls.any fun x => x.1.lane == l))
        else
          match storeLanes m da ctx sp n pol val ls with
          | .error e => waitRes d e (faultAt .dataerr 0 d.cur.lanes)
          | .ok d1 => .done d1

/-! ## Scratchpad (R198) -/

/-- `n` bytes of a group's scratchpad, and the scratchpad with them written; a byte nothing has written is zero. -/
def scratchRead (g : Group) (o n : Nat) : Nat := memNat g.scratch o n
def scratchWrite (g : Group) (o n x : Nat) : Group := { g with scratch := memPut g.scratch o x n }

/-- A lane's scratch offset (R223), and its checks (R224). -/
def scratchOff (d : Dev) (o : Lm) (ix : Bool) (disp : Int) (l : Nat) : Int :=
  (if ix then ((readV d (curSkein d) l o.a.toNat).toNat : Int) else 0) + disp
def scratchBad (g : Group) (off : Int) (n al : Nat) : Option Bad :=
  let addr := BitVec.ofInt 64 off
  if off < 0 || decide ((hScratchBytes g.header : Int) < off + n) then
    some { stage := stBounds, cause := .bounds, sub := 0, addr := addr }
  else if off.toNat % al != 0 then some { stage := stAlign, cause := .align, sub := 0, addr := addr }
  else none

/-- The fault of scratch accesses, if any lane fails. -/
def scratchFault (g : Group) (offs : List (Nat × Int)) (n al : Nat) : Option FaultInfo :=
  pickFault (offs.filterMap fun (l, off) => (scratchBad g off n al).map fun b => (l, b)) false

end Sys2Proof.Machine
end

