-- ==== Sys2Proof/Machine/Locks.lean ====
section
/-!
DEFINITION. Line locks and pins: what a slice keeps of a locked line (R331 to R343), pins (R345, R346), the instructions LOCKL,
UNLOCKL, PINL, UNPINL and LSTAT (R356 to R361), the lock timeout (R338) and the search for deadlocks (R344).
-/

namespace Sys2Proof.Machine

/-- The context and the spindle of a skein. -/
def ctxOfSkein (d : Dev) (u : Nat) : Nat := (groupOf d (skeinOf d u).gid).ctx
def spOfSkein (d : Dev) (u : Nat) : Nat := spindleNo (groupOf d (skeinOf d u).gid)

/-! ## Ways and quota (R199, R333, R345) -/

/-- Whether a pinnable way of a set is free for a lock of a line, beside those that its copy takes along when it comes there; and whether
one is for a pin, which takes none where the line is pinned already (R345). -/
def lockFits (d : Dev) (sp set line : Nat) : Bool := waysFit d sp set (waysAlong d sp set line + 1)
def pinFits (d : Dev) (sp set line : Nat) : Bool :=
  waysFit d sp set (waysAlong d sp set line + if pinnedHere d sp line then 0 else 1)

/-- The lines of quota a context has spent, and whether one is left. -/
def quotaUsed (d : Dev) (ctx : Nat) : Nat :=
  ((d.skeins.filter fun k => (groupOf d k.gid).ctx == ctx).map fun k =>
    k.locks.length + k.pins.length + (match k.park with | some (.lock ..) => 1 | _ => 0)).sum
def quotaLeft (m : Mgmt) (d : Dev) (ctx : Nat) : Bool := decide (quotaUsed d ctx < (ctxOf m ctx).pinquota.toNat)

/-! ## What a slice keeps of a line (R331) -/

/-- A line that no lock names. -/
def noLock : LockSt := { holder := none, broken := false, queue := [], reported := [] }
def lockOf (d : Dev) (line : Nat) : LockSt := tget d.locks line noLock
def setLock (d : Dev) (line : Nat) (l : LockSt) : Dev := { d with locks := tput d.locks line l noLock }

/-- The first present entry of a queue. -/
def firstPresent (l : LockSt) : Option LockWait := l.queue.find? fun w => w.present

/-- Timed events of a skein's lock request dropped: its timeout, which runs only while it is present (R338), and with it its deadlock
check, which runs while it is queued (R344). -/
def dropTimeout (d : Dev) (u : Nat) : Dev := { d with timers := d.timers.filter fun t => t.ev != .lockTimeout u }
def dropLockTimers (d : Dev) (u : Nat) : Dev :=
  let d1 := dropTimeout d u
  { d1 with timers := d1.timers.filter fun t => t.ev != .deadlockCheck u }

/-- Reported cycles that a test names forgotten, since they no longer stand (R344). -/
def forgetWhere (d : Dev) (f : List Nat → Bool) : Dev :=
  if d.locks.any fun e => e.2.reported.any f then
    { d with locks := d.locks.map fun e => (e.1, { e.2 with reported := e.2.reported.filter fun x => !f x }) }
  else d

/-- Cycles through a line no longer stand when its holder changes. -/
def forgetCycles (d : Dev) (line : Nat) : Dev := forgetWhere d fun x => (lockOf d line).reported.contains x

/-- A skein's entry removed from a line's queue, and from every line's but one; the cycles it was in no longer stand. -/
def dropEntry (d : Dev) (u line : Nat) : Dev :=
  let d1 := forgetWhere d fun x => x.contains u
  let l := lockOf d1 line
  setLock (dropLockTimers d1 u) line { l with queue := l.queue.filter fun w => w.skein != u }
def dropOtherEntries (d : Dev) (u : Nat) (keep : Option Nat) : Dev :=
  (d.locks.filter fun e => some e.1 != keep && e.2.queue.any fun w => w.skein == u).foldl (fun d e => dropEntry d u e.1) d

/-! ## Grants (R334, R341, R342) -/

/-- The status codes of R333. -/
def stGranted : Word := 0
def stQuota : Word := 1
def stTimeout : Word := 2
def stBroken : Word := 3
def stLimit : Word := 4

/-- The halves of a host line taken in M, as a lock holds them (R331). -/
def ownHalves (d : Dev) (pa : Nat) : MemM Dev :=
  let hs := [2 * (pa / 128), 2 * (pa / 128) + 1]
  if isHost pa then
    (hostNeed d .rdOwn hs).map fun _ =>
      { d with halves := modWhere (fun h => hs.contains h.1) (fun h => (h.1, { h.2 with st := .m })) d.halves }
  else .ok d

/-- A lock granted to a skein: the line comes to its L1, pinned and locked; one that the holder before it left locked there stays as it
is (R463), and off its caching die the line is fetched anew (R336). A line that cannot be reached any more leaves the way of a request that
waited empty, and is the fault of one granted at once, `now`. The acquire of the grant comes first.
(DESIGN CHOICE: notes/assumptions/14) -/
def grantLock (m : Mgmt) (d : Dev) (u line : Nat) (p : DWord) (sc : Nat) (now : Bool) : MemM Dev :=
  let lost (d : Dev) (e : MemErr) : MemM Dev :=
    match e with
    | .need _ => .error e
    | _ => if now then .error e else .ok d
  let ctx := ctxOfSkein d u
  let sp := spOfSkein d u
  let va := bitsOf p 7 41
  let hold (d : Dev) (empty : Bool) : Dev :=
    let d0 := forgetCycles d line
    let l := lockOf d0 line
    let d1 := setLock (dropLockTimers d0 u) line
      { l with holder := some u, broken := false, queue := l.queue.filter fun w => w.skein != u }
    modSkein d1 u fun k => { k with locks := k.locks ++ [{ line := line, va := va, set := setOf va, empty := empty }] }
  let along := waysAlong d sp (setOf va) line
  match acquireAt m d ctx sp sc with
  | .error e => .error e
  | .ok d1 =>
    if (l1Phys d1 sp line).any fun l => l.lock then .ok (hold d1 false)
    else if along != 0 && !waysFit d sp (setOf va) along then .ok (hold d1 true)
    else
    match locate m d1 ctx sp p with
    | .error e => lost (hold d1 true) e
    | .ok (leaf, pa) =>
      let again (l : L1Line) : L1Line := { l with filled := 0, queued := false }
      let taken := if isHome sp line leaf then grantE m d1 ctx sp va leaf pa 40
        else (ownHalves d1 pa).bind fun d2 => fillLine m (modL1 d2 sp line again) ctx sp va leaf pa 40
      match taken with
      | .error e => lost (hold d1 true) e
      | .ok d2 => .ok (hold (modL1 d2 sp line lockFlags) false)

/-- A waiting skein granted the lock it waits for: its status is written and it goes on after its LOCKL (R358). -/
def grantWaiter (m : Mgmt) (d : Dev) (line : Nat) (w : LockWait) : MemM Dev :=
  match (skeinOf d w.skein).park with
  | some (.lock _ va dst _ _) =>
    let st := if (lockOf d line).broken then stBroken else stGranted
    (grantLock m d w.skein line (BitVec.ofNat 64 va) w.sc false).map fun d1 =>
      addPend (unpark d1 w.skein) w.skein latL1 [.s dst st]
  | _ => .ok (dropEntry d w.skein line)

/-- The lock of a line handed to the oldest present waiter, or freed (R335); what waited for the release goes on (R320). -/
def handOn (m : Mgmt) (d : Dev) (line : Nat) : MemM Dev :=
  let d0 := forgetCycles (resumeHalf d (2 * line)) line
  let l := lockOf d0 line
  let d1 := setLock d0 line { l with holder := none }
  match firstPresent l with
  | some w => grantWaiter m d1 line w
  | none => .ok d1

/-- A spindle's copy of a line without a lock: pinned only if a pin of a skein of the spindle remains (R335, R360). -/
def unflag (d : Dev) (sp line : Nat) : Dev :=
  modL1 (giveUpE d sp line) sp line fun l =>
    { l with pin := pinnedHere d sp line, lock := false, st := if l.dirty == 0 then .s else .d }

/-- Whether the lock of a line goes next to a skein of a spindle. -/
def nextHere (d : Dev) (sp line : Nat) : Bool := (firstPresent (lockOf d line)).any fun w => spOfSkein d w.skein == sp

/-- A lock released and handed on: the holder's dirty words go to the slice first (R335); for a skein of the same L1 the line stays
there as it is (R463). -/
def unlockLine (m : Mgmt) (d : Dev) (u line : Nat) : MemM Dev :=
  let ctx := ctxOfSkein d u
  let sp := spOfSkein d u
  match writeBackLine m d ctx sp line with
  | .error e => .error e
  | .ok d1 =>
    let d2 := modSkein d1 u fun k => { k with locks := k.locks.filter fun h => h.line != line }
    handOn m (if nextHere d2 sp line then d2 else unflag d2 sp line) line

/-- Every lock of a skein released in ascending line address, as by an UNLOCKL at .dev (R343). -/
def unlockAll (m : Mgmt) (d : Dev) (u : Nat) : MemM Dev :=
  let lines := ((skeinOf d u).locks.map fun h => h.line).insertionSort (· ≤ ·)
  lines.foldlM (fun d line => unlockLine m d u line) d

/-- A holder's copy of its locked line leaves its L1 (R341, R342); one that another skein of the spindle pins stays, no longer locked (R346). -/
def leaveCopy (d : Dev) (u line : Nat) : Dev :=
  let sp := spOfSkein d u
  if d.skeins.any fun k => k.uid != u && onSpindle d sp k && k.pins.any fun p => p.line == line then unflag d sp line
  else dirDel (dropLine d sp line) sp line

/-- A lock broken: the holder's dirty words of the line are lost, where it still has a copy (R341, R342). -/
def breakLock (m : Mgmt) (d : Dev) (u line : Nat) : MemM Dev :=
  let has := (skeinOf d u).locks.any fun h => h.line == line && !h.empty
  let d0 := modSkein d u fun k => { k with locks := k.locks.filter fun h => h.line != line }
  let d1 := if has then leaveCopy (modL1 d0 (spOfSkein d u) line fun c => { c with dirty := 0 }) u line else d0
  let l := lockOf d1 line
  handOn m (setLock d1 line { l with broken := true }) line
def breakAll (m : Mgmt) (d : Dev) (u : Nat) : MemM Dev :=
  ((skeinOf d u).locks.map fun h => h.line).foldlM (fun d line => breakLock m d u line) d

/-- The lines a stopped or pre-empted holder has locked leave its L1, their dirty words written back; ways stay reserved in the sets in
which they stood (R341). -/
def dropLocked (m : Mgmt) (d : Dev) (u : Nat) : MemM Dev :=
  let ctx := ctxOfSkein d u
  let sp := spOfSkein d u
  ((skeinOf d u).locks.filter fun h => !h.empty).foldlM (fun d h =>
    (writeBackLine m d ctx sp h.line).map fun d1 =>
      let put (q : HeldLock) : HeldLock := { q with set := standSet d sp h.line h.set, empty := true }
      let d2 := modSkein d1 u fun k => { k with locks := modWhere (fun q => q.line == h.line) put k.locks }
      leaveCopy d2 u h.line) d

/-! ## Pins (R345, R346, R360) -/

/-- A skein's pin of a line released. -/
def unpin (d : Dev) (u line : Nat) : Dev :=
  if (skeinOf d u).pins.any fun p => p.line == line then
    let sp := spOfSkein d u
    let d1 := modSkein d u fun k => { k with pins := k.pins.filter fun p => p.line != line }
    let d2 := { d1 with l2pins := d1.l2pins.filter fun p => !(p.1 == u && p.2.1 == line) }
    if lockedHere d2 sp line then d2 else unflag d2 sp line
  else d
def unpinAll (d : Dev) (u : Nat) : Dev := ((skeinOf d u).pins.map fun p => p.line).foldl (fun d line => unpin d u line) d

/-- Pins of a line's caching slice, on a die, which holds at most 1,024 (R360). -/
def slicePins (d : Dev) (die line : Nat) : Nat :=
  (d.l2pins.filter fun p => p.2.2 == die && sliceOf (128 * p.2.1) == sliceOf (128 * line)).length

/-! ## The checks of R357 -/

/-- The pointer of a line instruction or a wait. -/
def linePtr (d : Dev) (o : Lm) : DWord := addDisp (readS64 d (curSkein d) o.sb.toNat) (disp14 o)

/-- The checks of a pointer in the order of R357 and R363; `mid` is the check between translation and guard.
(DEDUCED: notes/assumptions/12) -/
def linearChk (m : Mgmt) (d : Dev) (p : DWord) (n : Nat) (mid : Leaf → Nat → Option Cause) : Chk :=
  let ctx := curCtx d
  let sp := curSpindle d
  if p.toNat % n != 0 then .bad { stage := stAlign, cause := .align, sub := 0, addr := p }
  else if nonCanon p then .bad { stage := stCanon, cause := .xlate, sub := xlateCode .noncanon, addr := p }
  else
    match locate m d ctx sp p with
    | .error e => errChk stXlate p e
    | .ok (l, pa) =>
      match mid l pa with
      | some c => .bad { stage := stPerm, cause := c, sub := 0, addr := p }
      | none =>
        if !guardOk d sp p l pa n then .bad { stage := stGuard, cause := .guard, sub := 0, addr := p } else .ok l pa

/-- A uniform instruction behind those checks. -/
def lineIssue (m : Mgmt) (d : Dev) (o : Lm) (rds : List Rd) (n : Nat) (dst : List PWrite) (mid : Leaf → Nat → Option Cause)
    (f : Leaf → Nat → Dev → Res) : Dev :=
  uniIssue m d (hdXw o (.s o.sb 2 :: rds) true) fun da =>
    match linearChk m d (linePtr d o) n mid with
    | .bad b => .fault { faultAt b.cause b.addr d.cur.lanes with
        sub := b.sub, undef := dst, pages := [pageEntry b.addr false false b.sub] }
    | .wait _ q => waitFor d q
    | .ok l pa => if engineOwns d (pa / 128) then .park d (.recall (pa / 128)) else f l pa da
    | .drop => .done da

/-- What a release, an acquire or an arrival comes to. -/
def opRes (d : Dev) (r : MemM Dev) : Res :=
  match r with
  | .ok d1 => .done d1
  | .error e => waitRes d e (faultAt .dataerr 0 d.cur.lanes)

/-- What a memory operation of such an instruction comes to; its DATAERR names the line (R218). -/
def lineRes (d : Dev) (p : DWord) (dst : List PWrite) (r : MemM Dev) : Res :=
  match r with
  | .ok d1 => .done d1
  | .error e => waitRes d e { faultAt .dataerr (p &&& ~~~127) d.cur.lanes with undef := dst }

/-- LOCKL (R332, R333, R358). -/
def execLockl (o : Lm) (s : State) : Host.Outcome State Fault Refusal :=
  s.run fun m d =>
    let u := d.cur.skein
    let k := curSkein d
    let sc := o.xw.sc.toNat
    let timed := o.xw.sub.getLsbD 3
    let bad (l : Leaf) (pa : Nat) : Option Cause :=
      if !l.w || isPeer pa || k.locks.any (fun h => h.line == pa / 128) || (isDet m (curCtx d) && decide (2 < sc)) then
        some .lockuse
      else none
    let status (da : Dev) (x : Word) : Dev := addPend da u latL1 [.s o.d.toNat x]
    lineIssue m d o (if timed then [.s o.a 1] else []) 128 [.s o.d.toNat 0] bad fun _ pa da =>
      let line := pa / 128
      let p := linePtr d o
      let set := setOf (bitsOf p 7 41)
      let mine := (lockOf d line).queue.any fun w => w.skein == u
      if k.locks.length ≥ 8 then .done (status (dropOtherEntries da u (some line)) stLimit)
      else if !(lockFits d (curSpindle d) set line && quotaLeft m d (curCtx d)) then
        .done (status (dropOtherEntries da u none) stQuota)
      else
        let d1 := dropOtherEntries d u (some line)
        let l := lockOf d1 line
        let q := if mine then modWhere (fun w => w.skein == u) (fun w => { w with present := true, sc := sc }) l.queue
          else l.queue ++ [{ skein := u, sc := sc, present := true }]
        let first := (firstPresent { l with queue := q }).map fun w => w.skein
        if l.holder.isNone && first == some u then
          lineRes d p [.s o.d.toNat 0] ((grantLock m { da with locks := d1.locks } u line p sc true).map fun d2 =>
            status d2 (if l.broken then stBroken else stGranted))
        else
          let d2 := setLock (dropTimeout d1 u) line { l with queue := q }
          let n := (uniReader d o.a.toNat).toNat
          let d3 := if timed && n != 0 then postAfter d2 (.die (curSpindle d / 48)) (1024 * n) (.lockTimeout u) else d2
          let d4 := if mine then d3 else postAfter d3 .slice (2 ^ 16) (.deadlockCheck u)
          .park d4 (.lock line p.toNat o.d.toNat sc set)

/-- UNLOCKL (R335, R359). -/
def execUnlockl (o : Lm) (s : State) : Host.Outcome State Fault Refusal :=
  s.run fun m d =>
    let u := d.cur.skein
    let sc := o.xw.sc.toNat
    let bad (_ : Leaf) (pa : Nat) : Option Cause :=
      if !((curSkein d).locks.any fun h => h.line == pa / 128) || (isDet m (curCtx d) && decide (2 < sc)) then some .lockuse
      else none
    lineIssue m d o [] 128 [] bad fun _ pa da =>
      lineRes d (linePtr d o) [] (match releaseAt m da (curCtx d) (curSpindle d) sc with
        | .error e => .error e
        | .ok d1 => unlockLine m d1 u (pa / 128))

/-- PINL (R345, R360). -/
def execPinl (o : Lm) (s : State) : Host.Outcome State Fault Refusal :=
  s.run fun m d =>
    let u := d.cur.skein
    let ctx := curCtx d
    let sp := curSpindle d
    let k := curSkein d
    let sc := o.xw.sc.toNat
    let bad (_ : Leaf) (pa : Nat) : Option Cause :=
      if isPeer pa then some .perm else if isDet m ctx && sc != 0 then some .lockuse else none
    let status (da : Dev) (x : Word) : Dev := addPend da u latL1 [.s o.d.toNat x]
    lineIssue m d o [] 128 [.s o.d.toNat 0] bad fun l pa da =>
      let line := pa / 128
      let va := bitsOf (linePtr d o) 7 41
      let die := cachingDie (sp / 48) pa l.rp
      let l2 := sc == 4 || (sc == 3 && die == sp / 48)
      if k.pins.any fun p => p.line == line then .done (status da stGranted)
      else if !(pinFits d sp (setOf va) line && quotaLeft m d ctx) ||
          (l2 && decide (1024 ≤ slicePins d die line)) then
        .done (status da stQuota)
      else
        lineRes d (linePtr d o) [.s o.d.toNat 0] ((fillLine m da ctx sp va l pa 40).map fun d1 =>
          let d2 := modSkein (modL1 d1 sp line fun c => { c with pin := true }) u fun k =>
            { k with pins := k.pins ++ [{ line := line, va := va }] }
          status (if l2 then { d2 with l2pins := d2.l2pins ++ [(u, line, die)] } else d2) stGranted)

/-- UNPINL (R345, R360). -/
def execUnpinl (o : Lm) (s : State) : Host.Outcome State Fault Refusal :=
  s.run fun m d =>
    lineIssue m d o [] 128 [] (fun _ _ => none) fun _ pa da => .done (unpin da d.cur.skein (pa / 128))

/-- The state LSTAT reads (R361). -/
def lockStat (d : Dev) (u line : Nat) : Nat :=
  let l := lockOf d line
  let k := skeinOf d u
  min l.queue.length 65535 * 65536 + 16 * (l.queue.any fun w => w.skein == u && !w.present).toNat +
    8 * (k.pins.any fun p => p.line == line).toNat + 4 * l.broken.toNat + 2 * (l.holder == some u).toNat + l.holder.isSome.toNat

/-- LSTAT (R361). Its DETVIOL comes before any check of the line (notes/assumptions/6). -/
def execLstat (o : Lm) (s : State) : Host.Outcome State Fault Refusal :=
  s.run fun m d =>
    if isDet m (curCtx d) then
      uniIssue m d { hdXw o [.s o.sb 2] false with ends := 0 } fun _ =>
        .fault { faultAt .detviol 0 d.cur.lanes with sup := some (false, o.d.toNat, 1) }
    else
      uniIssue m d (hdXw o [.s o.sb 2] false) fun da =>
        match linearChk m d (linePtr d o) 128 (fun _ _ => none) with
        | .bad b => .fault { faultAt b.cause b.addr d.cur.lanes with
            sub := b.sub, undef := [.s o.d.toNat 0], pages := [pageEntry b.addr false false b.sub] }
        | .wait _ q => waitFor d q
        | .ok _ pa => .done (addPend da d.cur.skein latL1 [.s o.d.toNat (BitVec.ofNat 32 (lockStat d d.cur.skein (pa / 128)))])
        | .drop => .done da

/-! ## Timeouts and deadlocks (R338, R344) -/

/-- LOCK_TIMEOUT (R338): the entry is removed unless a grant came first; the skein goes on with TIMEOUT. -/
def execLockTimeout (skein : Nat) (s : State) : Host.Outcome State Fault Refusal :=
  s.run fun _ d =>
    match (skeinOf d skein).park with
    | some (.lock line _ dst _ _) => addPend (unpark (dropEntry d skein line) skein) skein latL1 [.s dst stTimeout]
    | _ => d

/-- The line a skein waits for in a queue, present or absent. -/
def waitsOn (d : Dev) (u : Nat) : Option Nat := (d.locks.find? fun e => e.2.queue.any fun w => w.skein == u).map fun e => e.1

/-- The closed cycle of waiters that the edges from a skein lead into, after those already followed: each skein with the line it waits on,
in edge order. -/
def waitChain (d : Dev) (path : List (Nat × Nat)) : Nat → Nat → Option (List (Nat × Nat))
  | 0, _ => none
  | n + 1, u =>
    match waitsOn d u with
    | none => none
    | some line =>
      let next := path ++ [(u, line)]
      match (lockOf d line).holder with
      | none => none
      | some v =>
        match next.findIdx? fun x => x.1 == v with
        | some i => some (next.drop i)
        | none => waitChain d next n v

/-- The members of a cycle from one of them on. -/
def turnTo {α : Type} (l : List α) (i : Nat) : List α := l.drop i ++ l.take i

/-- A 16-byte member of the list of a DEADLOCK record of a context (R344). -/
def deadlockMember (d : Dev) (ctx u line : Nat) : Nat :=
  let k := skeinOf d u
  let g := groupOf d k.gid
  let grsk := if g.ctx == ctx then g.index % 2 ^ 35 + k.idx * 2 ^ 35 else 2 ^ 40 - 1
  128 * line % 2 ^ 52 + grsk * 2 ^ 64 + g.ctx * 2 ^ 120

/-- Members four to a slot. -/
def memberSlots : List Nat → List (BitVec 512)
  | a :: b :: c :: e :: r => BitVec.ofNat 512 (a + b * 2 ^ 128 + c * 2 ^ 256 + e * 2 ^ 384) :: memberSlots r
  | [] => []
  | l => [BitVec.ofNat 512 (l.foldr (fun x acc => x + acc * 2 ^ 128) 0)]

/-- The DEADLOCK record of one member of a cycle. -/
def deadlockRecord (m : Mgmt) (d : Dev) (cycle : List (Nat × Nat)) (i : Nat) : Dev :=
  match turnTo cycle i with
  | [] => d
  | (u, line) :: r =>
    let k := skeinOf d u
    let g := groupOf d k.gid
    let (n, d1) := fresh d
    let rec0 : Rec := recGroup g k
      { blankRec n g.ctx .deadlock with
        data := BitVec.ofNat 64 (128 * line), pc := k.parkNext - 8, bundle := k.parkLanes, next := k.parkNext,
        more := memberSlots (((u, line) :: r).map fun x => deadlockMember d g.ctx x.1 x.2) }
    addRecord m (modSkein d1 u fun k => { k with stops := k.stops ++ [n] }) rec0

/-- DEADLOCK_CHECK (R344): a closed cycle that the edges from a request lead into is reported once while it stands, with a record for each
member. -/
def execDeadlockCheck (skein : Nat) (s : State) : Host.Outcome State Fault Refusal :=
  s.run fun m d =>
    match waitChain d [] (d.skeins.length + 1) skein with
    | some cycle =>
      let key := (cycle.map fun x => x.1).insertionSort (· ≤ ·)
      if cycle.any fun x => (lockOf d x.2).reported.contains key then d
      else
        let mark (d : Dev) (l : Nat) : Dev := setLock d l { lockOf d l with reported := (lockOf d l).reported ++ [key] }
        (List.range cycle.length).foldl (fun d i => deadlockRecord m d cycle i) (cycle.foldl (fun d x => mark d x.2) d)
    | none => d

end Sys2Proof.Machine
end

