-- ==== Sys2Proof/Machine/Waiting.lean ====
section
/-!
DEFINITION. Waiting on a word (R347, R348): the instructions WAITX, WAITV (R362, R363) and JOIN (R179), and the wake-up of a
line's waiters, the Distaffs' own among them (R37, R448, R458).
-/

namespace Sys2Proof.Machine

/-- Whether a word is external: on a SYS page, or in the context's signal window (R347, R328). -/
def isExternal (m : Mgmt) (ctx : Nat) (p : DWord) (l : Leaf) : Bool :=
  let w := (ctxOf m ctx).sigwin
  let base := bitsOf w 12 52 * 4096
  l.sys || (base != 0 && decide (base ≤ bitsOf p 0 48) && decide (bitsOf p 0 48 < base + 1024 * 2 ^ bitsOf w 0 5))

/-- The conditions of R362. -/
def waitHolds (ty : BitVec 4) (cc x v : Nat) : Bool :=
  let a := readInt (tyBits ty) (tySigned ty) x
  let b := readInt (tyBits ty) (tySigned ty) v
  match cc with
  | 0 => a == b
  | 1 => a != b
  | 2 => decide (a < b)
  | 3 => decide (a ≤ b)
  | 4 => decide (b < a)
  | _ => decide (b ≤ a)

/-- A waiter's read at the slice, its own spindle's dirty words of the line written back first (R301, R348).
(DEDUCED: notes/assumptions/16) -/
def waitRead (m : Mgmt) (d : Dev) (ctx sp line o n : Nat) : MemM (Nat × Dev) :=
  match writeBackLine m d ctx sp line with
  | .error e => .error e
  | .ok d1 =>
    (readSlice m ctx d1 none line false (halvesOf line (byteMask o n)) .rdShared 41).map fun (x, d2) =>
      (takeBytes x o n, d2)

/-- A wait registered, read and tested (R348): satisfied with the value, or to be parked. -/
def waitTest (m : Mgmt) (d : Dev) (u : Nat) (w : WaitReq) : MemM (Option Nat × Dev) :=
  let ctx := ctxOfSkein d u
  let sp := spOfSkein d u
  let ty := BitVec.ofNat 4 w.ty
  match waitRead m d ctx sp w.line (bitsOf w.va 0 7) (tyBytes ty) with
  | .error e => .error e
  | .ok (x, d1) =>
    if waitHolds ty w.cc x w.v.toNat then
      if w.acq = 0 then .ok (some x, d1) else (acquireAt m d1 ctx sp w.acq).map fun d2 => (some x, d2)
    else .ok (none, d1)

/-- Where a satisfied wait's value goes. -/
def waitDst (w : WaitReq) (x : Nat) : List PWrite :=
  if w.join then [] else resOf wrS (BitVec.ofNat 7 w.d) (BitVec.ofNat 4 w.ty) x

/-- A wait of the issuing skein. (DEDUCED: notes/assumptions/16) -/
def waitInstr (m : Mgmt) (d da : Dev) (w : WaitReq) : Res :=
  let u := d.cur.skein
  match waitTest m da u w with
  | .error e => waitRes d e { faultAt .dataerr (w.va &&& ~~~127) d.cur.lanes with undef := waitDst w 0 }
  | .ok (some x, d1) => .done (addPend d1 u latL1 (waitDst w x))
  | .ok (none, _) =>
    match waitTest m d u w with
    | .ok (_, d1) => .park { d1 with waiters := d1.waiters ++ [(w.line, .skein u)] } (.wait w)
    | .error e => waitRes d e (faultAt .dataerr 0 d.cur.lanes)

/-- WAITX and WAITV (R347, R362, R363). -/
def waitOn (m : Mgmt) (d : Dev) (o : Lm) (external : Bool) : Dev :=
  let ty := o.xw.ty
  let acq := o.xw.sub.getLsbD 3
  let sc := o.xw.sc.toNat
  let ctx := curCtx d
  let p := linePtr d o
  let mid (l : Leaf) (_ : Nat) : Option Cause := if isExternal m ctx p l == external then none else some .perm
  if isDet m ctx && !external && acq && decide (2 < sc) then
    uniIssue m d (hdXw o [.s o.sb 2, .s o.a (tyRegs ty)] true) fun _ => .fault (faultAt .detviol 0 d.cur.lanes)
  else
    lineIssue m d o [.s o.a (tyRegs ty)] (tyBytes ty) (resOf wrS o.d ty 0) mid fun _ pa da =>
      waitInstr m d da
        { external := external, join := false, line := pa / 128, va := p, ty := ty.toNat, cc := bitsOf o.xw.sub 0 3,
          v := BitVec.ofNat 64 (patOf (uniReader d) o.a ty), d := o.d.toNat, acq := if acq then sc else 0 }

/-- WAITX (R363). -/
def execWaitx (o : Lm) (s : State) : Host.Outcome State Fault Refusal := s.run fun m d => waitOn m d o true

/-- WAITV (R363). -/
def execWaitv (o : Lm) (s : State) : Host.Outcome State Fault Refusal := s.run fun m d => waitOn m d o false

/-- JOIN (R179): waits until the counter is at most 0, and acquires at .dev. -/
def execJoin (o : Ue) (s : State) : Host.Outcome State Fault Refusal :=
  s.run fun m d =>
    let p := readS64 d (curSkein d) o.sp.toNat
    uniIssue m d (hdUe o 4 [.s o.sp 2]) fun da =>
      match checkPtr m d (curCtx d) (curSpindle d) p 8 8 false with
      | .bad b => .fault { faultAt b.cause b.addr d.cur.lanes with
          sub := b.sub, pages := [pageEntry b.addr false false b.sub] }
      | .wait _ q => waitFor d q
      | .ok _ pa =>
        if engineOwns d (pa / 128) then .park d (.recall (pa / 128))
        else
          waitInstr m d da
            { external := false, join := true, line := pa / 128, va := p, ty := 2, cc := 3, v := 0, d := 0, acq := 4 }
      | .drop => .done da

/-! ## Wake-up (R348) -/

/-- One waiter of a line woken: a skein reads and tests again; what the Distaffs wait for is looked at by its own event. -/
def wakeOne (m : Mgmt) (d : Dev) (line : Nat) (w : Waiter) : MemM Dev :=
  match w with
  | .packet c n => .ok (post d (.waitPacketWake c n))
  | .resp r => .ok (post d (.faultRecord r))
  | .svc u => .ok (post d (.svcResume u))
  | .skein u =>
    match (skeinOf d u).park with
    | some (.wait q) =>
      let gone (d : Dev) : Dev := { d with waiters := d.waiters.filter fun e => e != (line, .skein u) }
      match waitTest m d u q with
      | .error (.need n) => .error (.need n)
      | .error _ =>
        let k := skeinOf d u
        let pc := (threadOf k ((lanesOf k.parkLanes).headD 0)).pc
        .ok (takeFault m (gone d) u pc k.parkNext k.parkLanes (faultAt .dataerr (q.va &&& ~~~127) k.parkLanes))
      | .ok (none, d1) => .ok d1
      | .ok (some y, d1) => .ok (addPend (unpark (gone d1) u) u latL1 (waitDst q y))
    | _ => .ok { d with waiters := d.waiters.filter fun e => e != (line, .skein u) }

/-- The waiters of a line woken in turn; one whose wake-up fails is passed over. -/
def wakeEach (m : Mgmt) (d : Dev) (line : Nat) (ws : List Waiter) : MemM Dev :=
  ws.foldlM (fun d w =>
    match wakeOne m d line w with
    | .error (.need n) => .error (.need n)
    | .error _ => .ok d
    | .ok d1 => .ok d1) d

/-- WAIT_WAKE (R348). A line that has become unreadable makes its skeins raise DATAERR (R218). -/
def execWaitWake (line : Nat) (s : State) : Host.Outcome State Fault Refusal :=
  s.run fun m d =>
    match wakeEach m d line ((d.waiters.filter fun w => w.1 == line).map fun w => w.2) with
    | .ok d1 => d1
    | .error (.need n) => defer d n (.waitWake line)
    | .error _ => d

end Sys2Proof.Machine
end

