-- ==== Sys2Proof/Machine/Groups.lean ====
section
/-!
DEFINITION. What the skeins of a group do together: the commit of buffered stores (R314), barrier phases (R353), reorder points
(R105, R106), and the end of threads and skeins (R151, R460).
-/

namespace Sys2Proof.Machine

/-- The skeins of a group in ascending number. -/
def skeinsOf (d : Dev) (gid : Nat) : List Skein :=
  (d.skeins.filter fun k => k.gid == gid).insertionSort (·.idx ≤ ·.idx)

/-- Whether every thread of a skein has exited. -/
def allExited (k : Skein) : Bool := (List.range 32).all fun l => (threadOf k l).st == .exited

/-! ## Deterministic commit (R314) -/

/-- The record of a buffered entry that cannot be written: it is lost. -/
def commitLost (m : Mgmt) (d : Dev) (ctx : Nat) (va : DWord) (e : MemErr) : MemM Dev :=
  match errChk stXlate va e with
  | .bad b => .ok (takeDeviceFault m d ctx b.cause b.sub b.addr 0)
  | _ => .error e

/-- One buffered entry written into the L1 with its policy; one whose page has gone is lost with a record. -/
def commitOne (m : Mgmt) (d : Dev) (ctx sp : Nat) (e : SBuf) : MemM Dev :=
  match locate m d ctx sp e.va with
  | .error x => commitLost m d ctx e.va x
  | .ok (l, pa) =>
    let o := pa % 128
    let bm := (List.range 4).foldl (fun b i => if e.mask.getLsbD i then b ||| byteMask (o + i) 1 else b) 0
    match storeVia m d ctx sp e.va l pa bm (atByte o e.data.toNat) e.pol 60 with
    | .error x => commitLost m d ctx e.va x
    | .ok d1 => .ok d1

/-- A thread's number in its group now, by its number at group start; one that is there no more keeps that.
(DEDUCED: notes/assumptions/20) -/
def numNow (d : Dev) (gid own : Nat) : Nat :=
  ((skeinsOf d gid).findSome? fun k =>
    ((List.range 32).find? fun l => (threadOf k l).num0 == own).map fun l => 32 * k.idx + l).getD own

/-- The order of a group's buffered entries: ascending number of their thread now and, of one thread, program order (R301, R314).
(DEDUCED: notes/assumptions/20) -/
def commitKey (d : Dev) (gid : Nat) (e : SBuf) : Nat := numNow d gid e.thread * 2 ^ 64 + e.seq

/-- An entry as its threads commit it: each byte is that of the highest of them that still has it there (R170, R314).
(DEDUCED: notes/assumptions/20) -/
def commitParts (d : Dev) (gid : Nat) (e : SBuf) : List SBuf :=
  if e.taken.isEmpty then [e]
  else
    let high := e.owners.insertionSort fun a b => numNow d gid b ≤ numNow d gid a
    let part (r : BitVec 4 × List SBuf) (o : Nat) : BitVec 4 × List SBuf :=
      let mine := heldBytes e o &&& ~~~r.1
      (r.1 ||| mine, if mine == 0 then r.2 else r.2 ++ [{ e with thread := o, mask := mine }])
    (high.foldl part (0, [])).2

/-- Every buffered entry of a group's skeins that still has a byte committed. (DEDUCED: notes/assumptions/20) -/
def commitGroup (m : Mgmt) (d : Dev) (gid : Nat) : MemM Dev :=
  let g := groupOf d gid
  let es := (((skeinsOf d gid).flatMap fun k => k.sbuf).flatMap (commitParts d gid)).insertionSort fun a b =>
    commitKey d gid a ≤ commitKey d gid b
  let d1 := { d with skeins := modWhere (fun k => k.gid == gid) (fun k => { k with sbuf := [], spilled := 0 }) d.skeins }
  (es.foldlM (fun d e => commitOne m d g.ctx (spindleNo g) e) d1).map (namedBy d1 g)

/-! ## Barriers (R353) -/

/-- Threads of a group that a test on their state names, by their number at group start. (DEDUCED: notes/assumptions/20) -/
def threadNos (d : Dev) (gid : Nat) (f : ThreadSt → Bool) : List Nat :=
  (skeinsOf d gid).flatMap fun k =>
    ((List.range 32).filter fun l => f (threadOf k l).st).map fun l => (threadOf k l).num0

/-- The waiting threads of a slot resume. -/
def resumeBar (d : Dev) (gid slot : Nat) : Dev :=
  { d with
    skeins := modWhere (fun k => k.gid == gid)
      (fun k => modThreads k (List.range 32) fun _ t => if t.st == .bar slot then { t with st := .ready } else t) d.skeins }

/-- Whether a phase completes. -/
def phaseDone (d : Dev) (gid : Nat) (p : Phase) : Bool :=
  if p.barp then decide (p.n ≤ p.arrived.length)
  else (threadNos d gid fun st => st != .exited).all fun t => p.arrived.contains t

/-- A slot's phase completed if it is complete: the commit of a BAR phase, the waiters' acquire at .gr, the slot idle. -/
def tryBarrier (m : Mgmt) (d : Dev) (gid slot : Nat) : MemM Dev :=
  let g := groupOf d gid
  match tget? g.bars slot with
  | none => .ok d
  | some p =>
    if !phaseDone d gid p then .ok d
    else
      let d1 := modGroup (resumeBar d gid slot) gid fun g => { g with bars := tdel g.bars slot }
      if isDet m g.ctx && !p.barp then commitGroup m d1 gid else .ok d1

/-- Every BAR phase of a group that an exit may have completed. -/
def tryBarriers (m : Mgmt) (d : Dev) (gid : Nat) : MemM Dev :=
  (((groupOf d gid).bars.filter fun b => !b.2.barp).map fun b => b.1).foldlM (fun d b => tryBarrier m d gid b) d

/-- The bundle arrives at a slot; unless it only arrives, it waits. -/
def arrive (m : Mgmt) (d : Dev) (slot n : Nat) (barp arv : Bool) : MemM Dev :=
  let u := d.cur.skein
  let k := skeinOf d u
  let g := groupOf d k.gid
  let ls := lanesOf d.cur.lanes
  let p := (tget? g.bars slot).getD { barp := barp, n := n, arrived := [] }
  let nos := ls.map fun l => (threadOf k l).num0
  let p1 := { p with arrived := p.arrived ++ nos.filter fun t => !p.arrived.contains t }
  let d1 := modGroup d k.gid fun g => { g with bars := tset g.bars slot p1 }
  let d2 := if arv then d1
    else modSkein d1 u fun k => modThreads k ls fun _ t => { t with st := .bar slot }
  tryBarrier m (switchPoint d2 u) k.gid slot

/-! ## The end of skeins and groups (R460) -/

/-- Whether a command of a group is queued or runs (R284). -/
def hasCommands (d : Dev) (gid : Nat) : Bool := d.engines.any fun e => e.2.queue.any fun c => c.gid == gid

/-- An event due at once, unless it is already. (DESIGN CHOICE: notes/assumptions/1) -/
def postNew (d : Dev) (e : Instr) : Dev := if d.agenda.contains e then d else post d e

/-- A group whose commands have all ended goes on to retire when its skeins have all retired, and is saved when they have all been
saved (R454, R460). -/
def tryRetire (d : Dev) (gid : Nat) : Dev :=
  match group? d gid with
  | none => d
  | some g =>
    if hasCommands d gid then d
    else if (skeinsOf d gid).all allExited then postNew d (.groupRetire gid)
    else if g.saveReq && g.resident && (skeinsOf d gid).all (fun k => !k.resident) then postNew d (.groupSave gid)
    else d

/-- A spool record of a context may now find a slot on a die (R38). (DESIGN CHOICE: notes/assumptions/47) -/
def offerSpools (d : Dev) (die : Nat) : Dev :=
  let due := (d.spools.filter fun e => e.2.pop < e.2.push).map fun e => (e.1 / 4, e.1 % 4)
  postAll d (due.map fun x => .spoolPop die x.1 x.2)

/-- The handlers that wait for a slot looked at again (R447). -/
def offerHandlers (d : Dev) : Dev := (d.records.filter fun r => r.hand).foldl (fun d r => postNew d (.faultRecord r.id)) d

/-- A skein that leaves its quarter is the last issuer there no more (R93, R239). -/
def dropGto (d : Dev) (u : Nat) : Dev :=
  { d with quarters := d.quarters.map fun e => (e.1, if e.2.gtoLast == some u then { e.2 with gtoLast := none } else e.2) }

/-- A skein whose threads have all exited retires: its slot and granules are free, its results dropped (R460); what waits for a slot is
offered it. -/
def retireSkein (d : Dev) (u : Nat) : Dev :=
  let k := skeinOf d u
  if allExited k && k.resident then
    let d1 := modSkein (dropGto (switchPoint d u) u) u fun k =>
      { k with resident := false, pend := [], runAhead := [], marker := false, park := none }
    offerHandlers (offerSpools (dropOtherEntries d1 u none) (groupOf d k.gid).die)
  else d

/-! ## Reorder points (R105, R106) -/

/-- A waiting thread: its skein, lane, state. -/
structure Waiter105 where
  pc : DWord
  key : Word
  next : DWord
  t : Thread

/-- The threads of a group that wait at a reorder point, and those that have exited. -/
def reorderWaiters (d : Dev) (gid : Nat) : List Waiter105 :=
  (skeinsOf d gid).flatMap fun k => (List.range 32).filterMap fun l =>
    let t := threadOf k l
    match t.st with
    | .reorder key next => some { pc := t.pc, key := key, next := next, t := t }
    | _ => none
def exitedThreads (d : Dev) (gid : Nat) : List Thread :=
  ((skeinsOf d gid).flatMap fun k => ((List.range 32).map (threadOf k)).filter fun t => t.st == .exited).insertionSort
    (·.wid.toNat ≤ ·.wid.toNat)

/-- Whether the point completes: every thread that has not exited waits at a REORDER, and one does. -/
def reorderReady (d : Dev) (gid : Nat) : Bool :=
  let live := threadNos d gid fun st => st != .exited
  !live.isEmpty && live.length == (reorderWaiters d gid).length

/-- The order of R105. -/
def reorderKey (w : Waiter105) : Nat := (w.pc.toNat * 2 ^ 32 + w.key.toNat) * 2 ^ 64 + w.t.wid.toNat

/-- The threads by their new numbers. (DESIGN CHOICE: notes/assumptions/7) -/
def reordered (d : Dev) (gid : Nat) : List Thread :=
  let ws := (reorderWaiters d gid).insertionSort (fun a b => reorderKey a ≤ reorderKey b)
  (ws.map fun w => { w.t with pc := w.next, st := .ready, region := none }) ++ exitedThreads d gid

/-- One skein with its new threads: their work identifiers take the new number, s0 to s15 are the block or, without it,
undefined like s16 to s119 and the conditions, which a deterministic context clears (R106). -/
def reorderSkein (m : Mgmt) (d : Dev) (g : Group) (ts : List Thread) (blk : Option (BitVec 512)) (k : Skein) : Skein :=
  let w := 5 + hW1 g.header
  let thread (l : Nat) : Thread :=
    let t := ts.getD (32 * k.idx + l) blankThread
    { t with wid := BitVec.ofNat 64 (t.wid.toNat / 2 ^ w * 2 ^ w + 32 * k.idx + l) }
  let s (r : Nat) : Word :=
    match decide (r < 16), blk with
    | true, some b => b.extractLsb' (32 * r) 32
    | true, none => freeWord d (30000 + 128 * k.idx + r)
    | false, _ => if isDet m g.ctx then 0 else freeWord d (30000 + 128 * k.idx + r)
  { k with
    threads := Vector.ofFn fun l : Fin 32 => thread l.val, s := Vector.ofFn fun r : Fin 120 => s r.val,
    c := if isDet m g.ctx then 0 else (freeVal d (30120 + 128 * k.idx)).setWidth 8 &&& 0x7F, marker := false, runAhead := [] }

/-- Skeins that have threads again after a point take the slots of those that have none left, the youngest of their quarters from now on
(R93; notes/assumptions/7). -/
def takeOverSlots (d : Dev) (gid : Nat) : Dev :=
  let need := (skeinsOf d gid).filter fun k => !k.resident && !allExited k
  let give := (skeinsOf d gid).filter fun k => k.resident && allExited k
  let d1 := (need.zip give).foldl (fun d (a, b) =>
    let (n, d1) := fresh d
    modSkein d1 a.uid fun k => { k with resident := true, quarter := b.quarter, slot := b.slot, age := n }) d
  give.foldl (fun d b => retireSkein d b.uid) d1

/-- The point completed with the block that was read, or without one (SKIP, R105): every outstanding result is written first, so that
it moves with its thread. (DESIGN CHOICE: notes/assumptions/7) -/
def reorderDone (m : Mgmt) (d0 : Dev) (gid : Nat) (blk : Option (BitVec 512)) : Dev :=
  let d : Dev := { d0 with skeins := modWhere (fun k => k.gid == gid) drainPend d0.skeins }
  let g := groupOf d gid
  let ts := reordered d gid
  takeOverSlots { d with skeins := modWhere (fun k => k.gid == gid) (reorderSkein m d g ts blk) d.skeins } gid

/-- The record of a reload that fails (R105). -/
def reorderFault (m : Mgmt) (d : Dev) (gid : Nat) (c : Cause) (sub : Nat) (addr : DWord) : Dev :=
  let g := groupOf d gid
  let waiting (k : Skein) : Mask := maskOf fun l => match (threadOf k l).st with | .reorder .. => true | _ => false
  match (skeinsOf d gid).find? fun k => waiting k != 0 with
  | none => d
  | some k =>
    let ls := waiting k
    let pc := (lanesOf ls).foldl (fun p l => if (threadOf k l).pc.toNat < p.toNat then (threadOf k l).pc else p)
      (threadOf k ((lanesOf ls).headD 0)).pc
    let lanes := maskOf fun l => ls.getLsbD l && (threadOf k l).pc == pc
    let (i, d1) := fresh d
    addRecord m (modSkein d1 k.uid fun k => { k with stops := k.stops ++ [i] }) (recGroup g k
      { blankRec i g.ctx c with
        sub := BitVec.ofNat 8 sub, addr := addr, pc := pc, lanes := lanes, bundle := lanes, next := pc, reorder := true })

/-- The point completed if every live thread waits at it (R105): s0 to s15 are read from the group-uniform block; a fault of that
read leaves everything as it is and posts a record. -/
def tryReorder (m : Mgmt) (d : Dev) (gid : Nat) : MemM Dev :=
  if !reorderReady d gid then .ok d
  else
    let g := groupOf d gid
    let sp := spindleNo g
    match checkPtr m d g.ctx sp g.gublock 64 4 false with
    | .wait _ n => .error (.need n)
    | .bad b => .ok (reorderFault m d gid b.cause b.sub b.addr)
    | .drop => .ok d
    | .ok _ _ =>
      match loadSpan m d g.ctx sp g.gublock 64 0 61 with
      | .error (_, .need n) => .error (.need n)
      | .error (q, _) => .ok (reorderFault m d gid .dataerr 0 (q &&& ~~~127))
      | .ok (x, d1, _) => .ok (reorderDone m d1 gid (some (BitVec.ofNat 512 x)))

/-! ## The end of threads (R151) -/

/-- The reservations of some threads of a group in the sampling cache released (R412). -/
def freeDsc (d : Dev) (gid : Nat) (f : Nat → Bool) : Dev :=
  let mine (e : Dsc) : Bool := match e.st with | .reserved g t => g == gid && f t | _ => false
  { d with dsc := modWhere mine (fun e => { e with st := .invalid }) d.dsc }

/-- Threads of a skein end; their pending results are dropped, their reservations released. -/
def endThreads (d : Dev) (u : Nat) (ls : Mask) : Dev :=
  let mine (w : PWrite) : Bool := match w with | .v l _ _ => ls.getLsbD l | .p l _ _ => ls.getLsbD l | _ => false
  let nos := (lanesOf ls).map fun l => (threadOf (skeinOf d u) l).num0
  modSkein (freeDsc d (skeinOf d u).gid nos.contains) u fun k =>
    let k1 := modThreads k (lanesOf ls) fun _ t => { t with st := .exited, region := none }
    { k1 with pend := (k1.pend.map fun p => { p with ws := p.ws.filter fun w => !mine w }).filter fun p => !p.ws.isEmpty }

/-- What the end of threads brings about: the skein retires, a barrier or a reorder point may complete, the group may retire. -/
def afterExit (m : Mgmt) (d : Dev) (u : Nat) : MemM Dev :=
  let gid := (skeinOf d u).gid
  match tryBarriers m (retireSkein d u) gid with
  | .error e => .error e
  | .ok d1 => (tryReorder m d1 gid).map fun d2 => tryRetire d2 gid

end Sys2Proof.Machine
end

