-- ==== Sys2Proof/Machine/Distaff.lean ====
section
/-!
DEFINITION. The Distaffs' own accesses: through a context's translation, at device scope at the holder slices, with the checks of
R224 steps 2 to 6 (R23, R27, R34, R36).
-/

namespace Sys2Proof.Machine

/-- A number no spindle has: an access by it goes to the caching slices. -/
def noSpindle : Nat := 768

/-- Why a Distaff's access fails: the record's cause and sub-code. -/
structure DistErr where
  cause : Cause
  sub : Nat
  deriving DecidableEq, Repr

/-- A Distaff's access: done, failed, or waiting for a half. -/
inductive Dist (α : Type) where
  | ok (x : α)
  | bad (e : DistErr)
  | wait (n : Need)
  deriving Repr

/-- A failed memory operation of a Distaff. -/
def distErr {α : Type} : MemErr → Dist α
  | .need n => .wait n
  | .dataerr => .bad { cause := .dataerr, sub := 0 }
  | .xlate c => .bad { cause := .xlate, sub := xlateCode c }
  | .perm => .bad { cause := .perm, sub := 0 }
  | .guard => .bad { cause := .guard, sub := 0 }

/-- One access followed by another. -/
def Dist.bind {α β : Type} (x : Dist α) (f : α → Dist β) : Dist β :=
  match x with
  | .ok a => f a
  | .bad e => .bad e
  | .wait n => .wait n

/-- The checks of `n` bytes at a pointer aligned to `al`. -/
def distCheck (m : Mgmt) (d : Dev) (ctx : Nat) (p : DWord) (n al : Nat) (store : Bool) : Dist Unit :=
  match checkPtr m d ctx noSpindle p n al store with
  | .ok _ _ => .ok ()
  | .drop => .ok ()
  | .bad b => .bad { cause := b.cause, sub := b.sub }
  | .wait _ q => .wait q

/-- `n` bytes at a pointer, little-endian. -/
def distRead (m : Mgmt) (d : Dev) (ctx : Nat) (p : DWord) (n al : Nat) : Dist (Nat × Dev) :=
  (distCheck m d ctx p n al false).bind fun _ =>
    let chunk (r : Nat × Dev) (q : DWord × Nat) : MemM (Nat × Dev) :=
      match locate m r.2 ctx noSpindle q.1 with
      | .error e => .error e
      | .ok (_, pa) =>
        (readSlice m ctx r.2 none (pa / 128) false (halvesOf (pa / 128) (byteMask (pa % 128) q.2)) .rdShared 70).map
          fun (x, d1) => (r.1 + takeBytes x (pa % 128) q.2 * 2 ^ (8 * (q.1 - p).toNat), d1)
    -- pieces of at most a line; longer reads go line by line
    let rec go (r : Nat × Dev) (q : DWord) : Nat → Nat → MemM (Nat × Dev)
      | _, 0 => .ok r
      | 0, _ => .ok r
      | fuel + 1, left =>
        let k := min left (128 - bitsOf q 0 7)
        match chunk r (q, k) with
        | .error e => .error e
        | .ok r1 => go r1 (q + BitVec.ofNat 64 k) fuel (left - k)
    match go (0, d) p (n / 128 + 2) n with
    | .ok r => .ok r
    | .error e => distErr e

/-- `n` bytes written at a pointer, at the caching slices; the copies of a spindle whose own write it is follow it. -/
def distPut (m : Mgmt) (d : Dev) (keep : Option Nat) (ctx : Nat) (p : DWord) (n al x : Nat) : Dist Dev :=
  (distCheck m d ctx p n al true).bind fun _ =>
    let chunk (d : Dev) (q : DWord) (k : Nat) : MemM Dev :=
      match locate m d ctx noSpindle q with
      | .error e => .error e
      | .ok (l, pa) =>
        let y := atByte (pa % 128) (x / 2 ^ (8 * (q - p).toNat) % 2 ^ (8 * k))
        let bm := byteMask (pa % 128) k
        (writeSlice m ctx d keep (pa / 128) bm y l.cmp).map fun d1 =>
          match keep with
          | some sp => patchCopy d1 sp (pa / 128) bm y
          | none => d1
    let rec go (d : Dev) (q : DWord) : Nat → Nat → MemM Dev
      | _, 0 => .ok d
      | 0, _ => .ok d
      | fuel + 1, left =>
        let k := min left (128 - bitsOf q 0 7)
        match chunk d q k with
        | .error e => .error e
        | .ok d1 => go d1 (q + BitVec.ofNat 64 k) fuel (left - k)
    match go d p (n / 128 + 2) n with
    | .ok r => .ok r
    | .error e => distErr e

/-- `n` bytes written by a Distaff. -/
def distWrite (m : Mgmt) (d : Dev) (ctx : Nat) (p : DWord) (n al x : Nat) : Dist Dev := distPut m d none ctx p n al x

/-- The physical line of a pointer of a context, if it translates. -/
def distLine (m : Mgmt) (d : Dev) (ctx : Nat) (p : DWord) : Dist Nat :=
  match locate m d ctx noSpindle p with
  | .ok (_, pa) => .ok (pa / 128)
  | .error e => distErr e

/-- A record that names no skein, for a Distaff's access that failed. -/
def distRecord (m : Mgmt) (d : Dev) (ctx : Nat) (e : DistErr) (addr hdr : DWord) : Dev :=
  takeDeviceFault m d ctx e.cause e.sub addr hdr

/-- The same of a launch with a label. -/
def launchRecord (m : Mgmt) (d : Dev) (ctx : Nat) (e : DistErr) (addr hdr : DWord) (label : Word) : Dev :=
  takeLaunchFault m d ctx e.cause e.sub addr hdr label

/-- A step of a Distaff made of such accesses: it is made again when a half it waits for has come. -/
def distStep (d : Dev) (e : Instr) (r : Dist Dev) (bad : DistErr → Dev) : Dev :=
  match r with
  | .ok d1 => d1
  | .bad x => bad x
  | .wait n => defer d n e

end Sys2Proof.Machine
end

