-- ==== Sys2Proof/Machine/Control.lean ====
section
/-!
DEFINITION. Control: lane branches, calls, EXIT, REORDER and BKPT (R147 to R154), uniform branches, YIELD, REGION (R171 to R176),
uniform loads and stores (R168 to R170), EVENT and RTRIG (R180, R181), barriers (R352 to R354) and fences (R355).
-/

namespace Sys2Proof.Machine

/-- The head of an LB or UJ word. -/
def hdLb (o : Lb) : Hd := { w := o.w, len := 4, p := o.p, n := o.n, rds := [], ends := 0, fp64 := false }

/-- The target of a branch (R61). (DESIGN CHOICE: notes/assumptions/91) -/
def branchTarget (d : Dev) (o : Lb) : DWord := d.cur.pc + BitVec.ofInt 64 (4 * o.off.toInt)

/-- The program counters of the bundle's lanes set lane by lane.
(DEDUCED: notes/assumptions/8, 48; DESIGN CHOICE: notes/assumptions/90) -/
def setLanePcs (d : Dev) (u : Nat) (ps : List (Nat × DWord)) : Dev :=
  modSkein d u fun k => ps.foldl (fun k x => modThread k x.1 fun t => { t with pc := x.2 }) k

/-! ## Lane control -/

/-- BRL (R147). -/
def execBrl (o : Lb) (s : State) : Host.Outcome State Fault Refusal :=
  s.run fun m d => laneIssue m d (hdLb o) fun ex da => .done (setPcs da d.cur.skein ex (branchTarget d o))

/-- The stack region of a thread (R22), fixed by its number at group start. -/
def stackStart (g : Group) (t : Thread) : Nat :=
  let h := g.header
  hStackBase h + (g.index % max (hStackGrp h) 1 * (32 * 2 ^ hW1 h) + t.num0) * hStackSz h * 256
def stackEnd (g : Group) (t : Thread) : Nat := stackStart g t + hStackSz g.header * 256

/-- A stack access of a lane, with the BOUNDS that its pointer makes; the record names %stk (notes/assumptions/8). -/
def stackAcc (stk p : DWord) (lane : Nat) (bad : Bool) : LAcc :=
  { lane := lane, p := p, drop := false,
    pre := if bad then some { stage := stBounds, cause := .bounds, sub := 0, addr := stk } else none }

/-- The checks of CALL's store and of RET's load on the lanes that execute. (DEDUCED: notes/assumptions/8, 48) -/
def callChecks (m : Mgmt) (d : Dev) (ex : Mask) : Checked :=
  let k := curSkein d
  let ctx := curCtx d
  let sp := curSpindle d
  let probe (a : LAcc) (l : Leaf) (pa : Nat) : Option (DWord × MemErr) :=
    if runsAhead d then none else failAt a.p (storeVia m d ctx sp a.p l pa (byteMask (pa % 128) 8) 0 0 a.lane)
  checkAll true (fun a => checkLane m d ctx sp 8 8 true (probe a) a) ((lanesOf ex).map fun l =>
    let t := threadOf k l
    stackAcc t.stk (t.stk - 8) l (t.stk == 0 || decide (t.stk.toNat < stackStart (curGroup d) t + 8)))
def retChecks (m : Mgmt) (d : Dev) (ex : Mask) : Checked :=
  let k := curSkein d
  let ctx := curCtx d
  let sp := curSpindle d
  let probe (a : LAcc) (l : Leaf) (pa : Nat) : Option (DWord × MemErr) := failAt a.p (loadVia m d ctx sp a.p l pa 8 0 a.lane)
  checkAll false (fun a => checkLane m d ctx sp 8 8 false (probe a) a) ((lanesOf ex).map fun l =>
    let t := threadOf k l
    stackAcc t.stk t.stk l (t.stk == 0 || decide (stackEnd (curGroup d) t ≤ t.stk.toNat)))

/-- The stack pointers of lanes moved. -/
def moveStk (d : Dev) (u : Nat) (ls : Mask) (x : DWord) : Dev :=
  modSkein d u fun k => modThreads k (lanesOf ls) fun _ t => { t with stk := t.stk + x }

/-- CALL (R148): a plain store of the return address, then the branch. It is no buffered store (R313): the thread's buffered bytes of
that word are older, and go. -/
def execCall (o : Lb) (s : State) : Host.Outcome State Fault Refusal :=
  s.run fun m d =>
    let u := d.cur.skein
    laneIssue m d (hdLb o) fun ex da =>
      match callChecks m d ex with
      | .fault f => .fault { f with undefPc := true }
      | .wait q => waitFor d q
      | .go ls =>
        match ownedLine d ls with
        | some line => .park d (.recall line)
        | none =>
          let enter (d1 : Dev) : Dev := setPcs (moveStk d1 u ex (-8)) u ex (branchTarget d o)
          if runsAhead d then .done (enter da)
          else
            match storeLanes m da (curCtx d) (curSpindle d) 8 0 (fun _ => (d.cur.pc + 4).toNat) ls with
            | .error e => waitRes d e (faultAt .dataerr 0 ex)
            | .ok d1 =>
              let k := curSkein d
              let push (d : Dev) (x : LAcc × Leaf × Nat) : Dev := sbufTake d k.gid (ownNo k x.1.lane) x.2.2 8
              .done (enter (if isDet m (curCtx d) then ls.foldl push d1 else d1))

/-- RET (R149): a plain load of the return address, the pop and the jump. -/
def execRet (o : Ln) (s : State) : Host.Outcome State Fault Refusal :=
  s.run fun m d =>
    let u := d.cur.skein
    laneIssue m d (hd o.w 4 []) fun ex da =>
      match retChecks m d ex with
      | .fault f => .fault { f with undefPc := true }
      | .wait q => waitFor d q
      | .go ls =>
        match ownedLine d ls with
        | some line => .park d (.recall line)
        | none =>
          match loadLanes m da (curCtx d) (curSpindle d) 8 0 ls with
          | .error e => waitRes d e (faultAt .dataerr 0 ex)
          | .ok (vals, d1, _) =>
            let bads := vals.filterMap fun v => if v.2 % 4 = 0 then none
              else some (v.1, ({ stage := stAlign, cause := .align, sub := 0, addr := BitVec.ofNat 64 v.2 } : Bad))
            match pickFault bads false with
            | some f => .fault f
            | none => .done (setLanePcs (moveStk d1 u ex 8) u (vals.map fun v => (v.1, BitVec.ofNat 64 v.2)))

/-- JMPL (R150). (DEDUCED: notes/assumptions/10) -/
def execJmpl (o : Lr) (s : State) : Host.Outcome State Fault Refusal :=
  s.run fun m d =>
    let x := lrXm o 0
    laneIssue m d (hdXm o.w (lenOf o.xm) x [.v o.a 2]) fun ex da =>
      let ts := (lanesOf ex).map fun l => (l, BitVec.ofNat 64 (joinRegs (laneReader d l) o.a.toNat 2))
      let bads := ts.filterMap fun t => if t.2.toNat % 4 = 0 then none
        else some (t.1, ({ stage := stAlign, cause := .align, sub := 0, addr := t.2 } : Bad))
      match pickFault bads false with
      | some f => .fault f
      | none =>
        let link := (nextPc d (lenOf o.xm)).toNat
        .done (addPend (setLanePcs da d.cur.skein ts) d.cur.skein latAlu
          (ts.flatMap fun t => splitRegs (wrV t.1) o.d.toNat link 2))

/-- EXIT (R151). -/
def execExit (o : Ln) (s : State) : Host.Outcome State Fault Refusal :=
  s.run fun m d =>
    uniIssue m d (hd o.w 4 []) fun da =>
      match afterExit m (endThreads da d.cur.skein d.cur.lanes) d.cur.skein with
      | .ok d1 => .done d1
      | .error e => waitRes d e (faultAt .dataerr 0 d.cur.lanes)

/-- REORDER (R105, R152): the bundle's threads wait with their keys; the last to come completes the point. -/
def execReorder (o : Lr) (s : State) : Host.Outcome State Fault Refusal :=
  s.run fun m d =>
    laneIssue m d (hdXm o.w (lenOf o.xm) (lrXm o 1) [.v o.a 1]) fun _ da =>
      let next := nextPc d (lenOf o.xm)
      let d1 := modSkein da d.cur.skein fun k => modThreads k (lanesOf d.cur.lanes) fun l t =>
        { t with pc := d.cur.pc, st := .reorder (laneReader d l o.a.toNat) next }
      match tryReorder m d1 (curSkein d).gid with
      | .ok d2 => .done d2
      | .error e => waitRes d e (faultAt .dataerr 0 d.cur.lanes)

/-- BKPT (R154). -/
def execBkpt (o : Lk) (s : State) : Host.Outcome State Fault Refusal :=
  s.run fun m d =>
    laneIssue m d (hd o.w (lenOf o.xl) []) fun ex _ =>
      .fault { faultAt .bkpt 0 ex with data := (immOf o false).setWidth 64 }

/-! ## Uniform control -/

/-- BRA (R171). -/
def execBra (o : Lb) (s : State) : Host.Outcome State Fault Refusal :=
  s.run fun m d => uniIssue m d (hdLb o) fun da => .done (setPcs da d.cur.skein d.cur.lanes (branchTarget d o))

/-- JMP (R172). -/
def execJmp (o : Lr) (s : State) : Host.Outcome State Fault Refusal :=
  s.run fun m d =>
    uniIssue m d (hdXm o.w (lenOf o.xm) (lrXm o 14) [.s o.a 2]) fun da =>
      let t := readS64 d (curSkein d) o.a.toNat
      if t.toNat % 4 != 0 then .fault (uniFault d .align t) else .done (setPcs da d.cur.skein d.cur.lanes t)

/-- Bytes of a range as the threads of the bundle see them: their own buffered bytes over them (R170, R314; notes/assumptions/9). -/
def bundleOver (m : Mgmt) (d : Dev) (pa n x : Nat) : Nat :=
  sbufOver (ownStores m d ((lanesOf d.cur.lanes).map (ownNo (curSkein d)))) pa n x

/-- The checks of a load made once for the bundle. -/
def bundleChecks (m : Mgmt) (d : Dev) (p : DWord) (n pol : Nat) : Checked :=
  let ctx := curCtx d
  let sp := curSpindle d
  let probe (l : Leaf) (pa : Nat) : Option (DWord × MemErr) := failAt p (loadVia m d ctx sp p l pa n pol 0)
  checkAll false (fun a => checkUni m d ctx sp n n false probe a) [{ lane := 0, p := p, pre := none, drop := false }]

/-- A load made once for the bundle: the value, the device, the latency, or what it comes to instead.
(DESIGN CHOICE: notes/assumptions/9) -/
def bundleLoad (m : Mgmt) (d da : Dev) (p : DWord) (n pol : Nat) (undef : List PWrite) (undefPc : Bool)
    (f : Nat → Dev → Nat → Res) : Res :=
  match bundleChecks m d p n pol with
  | .fault q => .fault { q with lanes := d.cur.lanes, undef := undef, undefPc := undefPc }
  | .wait q => waitFor d q
  | .go ls =>
    match ownedLine d ls, ls with
    | some line, _ => .park d (.recall line)
    | none, (_, l, pa) :: _ =>
      match loadVia m da (curCtx d) (curSpindle d) p l pa n pol 0 with
      | .error e => waitRes d e (faultAt .dataerr 0 d.cur.lanes)
      | .ok (x, d1, lat) => f (bundleOver m d pa n x) (useCurr d1 (usedBy pol l pa)) (max lat latL1)
    | none, [] => .done da

/-- A fault of a read whose DATAERR names the word and not the line (R173, R282). -/
def wordFault (p : DWord) (r : Res) : Res :=
  match r with
  | .fault f => .fault (if f.cause == .dataerr then { f with addr := p } else f)
  | r => r

/-- BRX (R173). -/
def execBrx (o : Lr) (s : State) : Host.Outcome State Fault Refusal :=
  s.run fun m d =>
    let u := d.cur.skein
    uniIssue m d (hdXm o.w (lenOf o.xm) (lrXm o 1) [.s o.d 1, .s o.a 2, .s o.b 1]) fun da =>
      let n := (uniReader d o.d.toNat).toNat
      let i := (uniReader d o.b.toNat).toNat
      let base := readS64 d (curSkein d) o.a.toNat
      let p := base + BitVec.ofNat 64 (4 * i)
      if base.toNat % 4 != 0 then .fault (uniFault d .align base)
      else if n ≤ i then .fault (uniFault d .bounds p)
      else
        wordFault p <| bundleLoad m d da p 4 0 [] true fun x d1 lat =>
          let e := readInt 32 true x
          if e = 0 then .fault (uniFault d .nulltgt p)
          else if e % 4 != 0 then .fault (uniFault d .align p)
          else
            .done (modSkein (setPcs d1 u d.cur.lanes (d.cur.pc + BitVec.ofInt 64 e)) u fun k =>
              { k with hold := cyclesOf d (curGroup d).die + lat + 1 })

/-- YIELD (R95): the youngest under GTO with its greedy run ended, a switching point under DET. -/
def execYield (o : Ln) (s : State) : Host.Outcome State Fault Refusal :=
  s.run fun m d =>
    let u := d.cur.skein
    let k := curSkein d
    let g := curGroup d
    let qn := quarterNo g k
    uniIssue m d (hd o.w 4 []) fun da =>
      let q := tget da.quarters qn blankQuarter
      let (age, d1) := fresh da
      match policyOf m g with
      | 0 => .done (modSkein { d1 with quarters := tset d1.quarters qn { q with gtoLast := none } } u fun k => { k with age := age })
      | 1 => .done da
      | _ => .done { da with quarters := tset da.quarters qn { q with detCur := none, detYield := some u } }

/-- REGION (R175). -/
def execRegion (o : Lk) (s : State) : Host.Outcome State Fault Refusal :=
  s.run fun m d =>
    uniIssue m d (hd o.w (lenOf o.xl) []) fun da =>
      let r : Region := { entry := d.cur.pc, nv := o.d.toNat, ns := o.a.toNat, acc := (immOf o false).getLsbD 0 }
      .done (modSkein da d.cur.skein fun k => modThreads k (lanesOf d.cur.lanes) fun _ t => { t with region := some r })

/-! ## Uniform loads and stores (R168 to R170) -/

/-- The address of SLD and SST (R169). -/
def uniPtr (d : Dev) (o : Lm) : DWord :=
  let base := readS64 d (curSkein d) o.sb.toNat
  addDisp (if ixOf o then base + (uniReader d o.a.toNat).setWidth 64 else base) (disp14 o)
def uniRds (o : Lm) : List Rd := .s o.sb 2 :: (if ixOf o then [.s o.a 1] else [])

/-- SLD (R168). -/
def execSld (o : Lm) (s : State) : Host.Outcome State Fault Refusal :=
  s.run fun m d =>
    uniIssue m d (hdXw o (uniRds o) false) fun da =>
      bundleLoad m d da (uniPtr d o) (tyBytes o.xw.ty) o.xw.pol.toNat (resOf wrS o.d o.xw.ty 0) false fun x d1 lat =>
        .done (addPend d1 d.cur.skein lat (resOf wrS o.d o.xw.ty x))

/-- The checks of SST's store, made once for the bundle. -/
def sstChecks (m : Mgmt) (d : Dev) (p : DWord) (n pol : Nat) : Checked :=
  let ctx := curCtx d
  let sp := curSpindle d
  let probe (l : Leaf) (pa : Nat) : Option (DWord × MemErr) :=
    if runsAhead d || isDet m ctx then none else failAt p (storeVia m d ctx sp p l pa (byteMask (pa % 128) n) 0 pol 0)
  checkAll true (fun a => checkUni m d ctx sp n n true probe a) [{ lane := 0, p := p, pre := none, drop := false }]

/-- SST (R168, R170): in a deterministic context a buffered store of every thread of the bundle. -/
def execSst (o : Lm) (s : State) : Host.Outcome State Fault Refusal :=
  s.run fun m d =>
    let ctx := curCtx d
    let sp := curSpindle d
    let u := d.cur.skein
    let ty := o.xw.ty
    let n := tyBytes ty
    let pol := o.xw.pol.toNat
    uniIssue m d (hdXw o (.s o.d (tyRegs ty) :: uniRds o) false) fun da =>
      let p := uniPtr d o
      let x := patOf (uniReader d) o.d ty
      match sstChecks m d p n pol with
      | .fault f => .fault { f with lanes := d.cur.lanes }
      | .wait q => waitFor d q
      | .go ls =>
        if runsAhead d then .done da
        else
          match ownedLine d ls with
          | some line => .park d (.recall line)
          | none =>
            if isDet m ctx then
              match sbufPush da u (bundleEntries m d p n x pol) with
              | some d1 => .done (spillLog m d1 ctx sp u (curSkein d).spilled)
              | none => .fault (faultAt .detviol 0 d.cur.lanes)
            else
              match storeLanes m da ctx sp n pol (fun _ => x) ls with
              | .error e => waitRes d e (faultAt .dataerr 0 d.cur.lanes)
              | .ok d1 => .done d1

/-! ## Events and reel triggers (R180, R181) -/

/-- EVENT with its literal, or with 1: the checks of its store, the release, the store, the interrupt. -/
def eventInstr (m : Mgmt) (d : Dev) (o : Ue) (len : Nat) (value : Nat) : Dev :=
  let ctx := curCtx d
  let sp := curSpindle d
  let wr := o.sub.getLsbD 4
  let irq := o.sub.getLsbD 3
  let sc := bitsOf o.sub 0 3
  let p := readS64 d (curSkein d) o.sp.toNat
  let raise (d : Dev) : Dev := if irq then interrupt d (18 * ctx + o.tag.toNat) else d
  uniIssue m d (hdUe o len (if wr then [.s o.sp 2] else [])) fun da =>
    match (if wr then checkPtr m d ctx sp p 8 8 true else .drop) with
    | .bad b => .fault { faultAt b.cause b.addr d.cur.lanes with
        sub := b.sub, pages := [pageEntry b.addr true false b.sub] }
    | .wait _ q => waitFor d q
    | .drop => lineDone d (releaseAt m da ctx sp sc) raise
    | .ok l pa =>
      if !isDevice pa && !linkUp d pa then .fault (faultAt .dataerr (p &&& ~~~127) d.cur.lanes)
      else if engineOwns d (pa / 128) then .park d (.recall (pa / 128))
      else
        match releaseAt m da ctx sp sc with
        | .error e => waitRes d e (faultAt .dataerr 0 d.cur.lanes)
        | .ok d1 =>
          let bm := byteMask (pa % 128) 8
          let x := atByte (pa % 128) value
          lineDone d ((writeSlice m ctx d1 (some sp) (pa / 128) bm x l.cmp).map fun d2 => patchCopy d2 sp (pa / 128) bm x) raise
where
  /-- A memory operation, then what follows it. -/
  lineDone (d : Dev) (r : MemM Dev) (f : Dev → Dev) : Res :=
    match r with
    | .ok d1 => .done (f d1)
    | .error e => waitRes d e (faultAt .dataerr 0 d.cur.lanes)

/-- EVENT (R180). -/
def execEvent (o : Ue) (s : State) : Host.Outcome State Fault Refusal := s.run fun m d => eventInstr m d o 4 1

/-- EVENT with an XL literal (R180). -/
def execEventLiteral (o : Ux) (s : State) : Host.Outcome State Fault Refusal :=
  s.run fun m d => eventInstr m d o.ue 8 o.xl.toNat

/-- RTRIG (R181): a write to a trigger register of the own context. -/
def execRtrig (o : Ue) (s : State) : Host.Outcome State Fault Refusal :=
  s.run fun m d =>
    let ctx := curCtx d
    let v := readS64 d (curSkein d) o.sp.toNat
    uniIssue m d (hdUe o 4 [.s o.sp 2]) fun da =>
      let r := if o.sub.getLsbD 0 then releaseAt m da ctx (curSpindle d) 4 else .ok da
      match r with
      | .ok d1 => .done (post d1 (.triggerWrite ctx o.tag.toNat v))
      | .error e => waitRes d e (faultAt .dataerr 0 d.cur.lanes)

/-! ## Barriers and fences (R353, R355) -/

/-- The release at .gr of an arrival, then the arrival. (DEDUCED: notes/assumptions/20) -/
def arriveAfter (m : Mgmt) (d da : Dev) (slot n : Nat) (barp arv : Bool) : Res :=
  match releaseAt m da (curCtx d) (curSpindle d) 2 with
  | .error e => opRes d (.error e)
  | .ok d1 => opRes d (arrive m d1 slot n barp arv)

/-- BAR (R353). -/
def execBar (o : Ue) (s : State) : Host.Outcome State Fault Refusal :=
  s.run fun m d => uniIssue m d (hdUe o 4 []) fun da => arriveAfter m d da o.tag.toNat 0 false false

/-- BARP (R353): its count is checked whatever the slot's state. -/
def execBarp (o : Ue) (s : State) : Host.Outcome State Fault Refusal :=
  s.run fun m d =>
    let n := (uniReader d o.sp.toNat).toNat
    uniIssue m d (hdUe o 4 [.s o.sp 1]) fun da =>
      if n = 0 ∨ 32 * hSkeins (curGroup d).header < n then .fault (uniFault d .bounds 0)
      else arriveAfter m d da o.tag.toNat n true (o.sub.getLsbD 0)

/-- The context whose address space an L1 line is of. -/
def ctxOfAsid (m : Mgmt) (asid : Nat) : Nat :=
  ((List.range 64).find? fun c => ctxEnabled m c && ctxAsid m c == asid).getD 0

/-- The dirty lines of a spindle. -/
def dirtyLines (d : Dev) (sp : Nat) : List Nat := (d.l1.filter fun l => l.spindle == sp && l.dirty != 0).map fun l => l.pa

/-- FENCE (R300, R355, R383): at .sk and .gr it is complete once earlier surface writes are applied; wider, the skein waits for its
write-backs and its acquire. -/
def execFence (o : Ue) (s : State) : Host.Outcome State Fault Refusal :=
  s.run fun m d =>
    let sc := bitsOf o.sub 0 3
    let kind := bitsOf o.sub 3 2
    let sp := curSpindle d
    uniIssue m d { hdUe o 4 [] with ends := 0 } fun da =>
      if sc ≤ 2 && (kind < 2 || (surfaceDue d sp).isNone) then .done da
      else
        let merges := if kind ≥ 2 && 2 < sc then (dirtyLines d sp).map fun line => Instr.writebackMerge sp line else []
        .park (post (postAll d merges) (.fenceComplete d.cur.skein)) (.fence kind sc)

end Sys2Proof.Machine
end

