-- ==== Sys2Proof/Machine/Convert.lean ====
section
/-!
DEFINITION. The lane conversions, permutes and flag instructions (R136 to R140).
-/

namespace Sys2Proof.Machine

/-- CVT (R136, R137). -/
def execCvt (o : Lr) (s : State) : Host.Outcome State Fault Refusal :=
  s.run fun m d =>
    let x := lrXm o 0
    let wide := x.ty == 5 || x.opx == 5
    laneAlu m d { hdA false o 0 with fp64 := wide } (if wide then latF64 else latAlu) fun _ => cvtRes (curSkein d) o

/-- CVTP (R138): the 16-bit destinations read no c. -/
def execCvtp (o : Lr) (s : State) : Host.Outcome State Fault Refusal :=
  s.run fun m d =>
    let h := if decide ((lrXm o 4).opx.toNat < 0x10) then hdAB false o 4 else hdABC false o 4
    laneAlu m d h latAlu fun _ => cvtpRes (curSkein d) o

/-- PRMT (R139): without XM the upper half of the pool is zero. -/
def execPrmt (o : Lr) (s : State) : Host.Outcome State Fault Refusal :=
  s.run fun m d =>
    let x := lrXm o 0
    let c := if o.xm.isSome then [Rd.v x.c 1] else []
    laneInt m d (hdXm o.w (lenOf o.xm) x (.v o.a 1 :: .v o.b 1 :: c)) latAlu fun rd wr =>
      res1 wr o.d
        (prmtNat (rd o.a.toNat).toNat (if o.xm.isSome then (rd x.c.toNat).toNat else 0) (rd o.b.toNat).toNat)

/-- FLGRD (R140). -/
def execFlgrd (o : Lr) (s : State) : Host.Outcome State Fault Refusal :=
  s.run fun m d =>
    laneAlu m d (hdXm o.w (lenOf o.xm) (lrXm o 0) []) latAlu fun l _ wr =>
      (res1 wr o.d (threadOf (curSkein d) l).flags.toNat, 0)

/-- FLGCLR (R140), in every lane of the bundle. -/
def execFlgclr (o : Lk) (s : State) : Host.Outcome State Fault Refusal :=
  s.run fun m d =>
    laneIssue m d (hd o.w (lenOf o.xl) []) fun _ da =>
      .done (modSkein da d.cur.skein fun k =>
        modThreads k (lanesOf d.cur.lanes) fun _ t => { t with flags := t.flags &&& ~~~((immOf o false).setWidth 5) })

end Sys2Proof.Machine
end

