-- ==== Sys2Proof/Machine/CrossLane.lean ====
section
/-!
DEFINITION. The cross-lane instructions (R141 to R145) and the special registers with their readers RDSR and writer WRSR (R103,
R104, R146, R166, R167).
-/

namespace Sys2Proof.Machine

/-! ## Shuffles, votes, reductions -/

/-- A cross-lane instruction: results of each contributing lane from the values of all of them (R141). -/
def crossLane (m : Mgmt) (d : Dev) (h : Hd) (lat : Nat) (f : List Nat → Nat → List PWrite × FFlags) : Dev :=
  laneIssue m d h fun ex da =>
    let rs := (lanesOf ex).map fun l => (l, f (lanesOf ex) l)
    .done (addPend (orFlags da d.cur.skein (rs.map fun r => (r.1, r.2.2))) d.cur.skein lat (rs.flatMap fun r => r.2.1))

/-- A shuffle: `src w base l j` is the lane copied from, if there is one (R142). -/
def shuffle (m : Mgmt) (d : Dev) (o : Lr) (src : Nat → Nat → Nat → Nat → Option Nat) : Dev :=
  let x := lrXm o 0
  let n := tyRegs x.ty
  let w := 32 / 2 ^ bitsOf x.opx 0 3
  crossLane m d (hdXm o.w (lenOf o.xm) x [.v o.a n, .v o.b 1]) latCross fun ex l =>
    let own := patOf (laneReader d l) o.a x.ty
    let j := (laneReader d l o.b.toNat).toNat
    let v := match src w (l / w * w) l j with
      | some q => if ex.contains q then patOf (laneReader d q) o.a x.ty else own
      | none => own
    (resOf (wrV l) o.d x.ty v, 0)

/-- SHFL (R142). -/
def execShfl (o : Lr) (s : State) : Host.Outcome State Fault Refusal :=
  s.run fun m d => shuffle m d o fun w base _ j => some (base + j % w)

/-- SHFLUP (R142). -/
def execShflup (o : Lr) (s : State) : Host.Outcome State Fault Refusal :=
  s.run fun m d => shuffle m d o fun _ base l j => if l < base + j then none else some (l - j)

/-- SHFLDN (R142). -/
def execShfldn (o : Lr) (s : State) : Host.Outcome State Fault Refusal :=
  s.run fun m d => shuffle m d o fun w base l j => if base + w ≤ l + j then none else some (l + j)

/-- SHFLX (R142). -/
def execShflx (o : Lr) (s : State) : Host.Outcome State Fault Refusal :=
  s.run fun m d => shuffle m d o fun w _ l j => some (l ^^^ (j % w))

/-- The predicate values of the contributing lanes (R143). -/
def voteValues (d : Dev) (o : Lv) (ex : List Nat) : List Bool := ex.map fun l => readP d (curSkein d) l o.ps.toNat != o.n

/-- VOTE (R143). -/
def execVote (o : Lv) (s : State) : Host.Outcome State Fault Refusal :=
  s.run fun m d =>
    crossLane m d (hdXm o.w (lenOf o.xm) (lvXm o) [.p o.ps.toNat]) latCross fun ex l =>
      let xs := voteValues d o ex
      let r := match o.mode.toNat with
        | 0 => xs.all id
        | 1 => xs.any id
        | _ => xs.all id || !xs.any id
      (predRes l o.pd r, 0)

/-- BALLOT (R143). -/
def execBallot (o : Lv) (s : State) : Host.Outcome State Fault Refusal :=
  s.run fun m d =>
    crossLane m d (hdXm o.w (lenOf o.xm) (lvXm o) [.p o.ps.toNat]) latCross fun ex l =>
      (res1 (wrV l) o.d (ex.foldl (fun x q => x + 2 ^ q * (readP d (curSkein d) q o.ps.toNat != o.n).toNat) 0), 0)

/-- The identity of a reduction, as a pattern of the type (R144). -/
def lredIdentity (op : Nat) (ty : BitVec 4) : Nat :=
  let w := tyBits ty
  if cvtSrcFloat ty then
    let f := fmtOf ty
    match op with
    | 0 => fsignBit f true
    | 1 => finf f false
    | _ => finf f true
  else
    match op with
    | 1 => wrapInt w (intMax w (tySigned ty))
    | 2 => wrapInt w (intMin w (tySigned ty))
    | 3 => 2 ^ w - 1
    | _ => 0

/-- One combining step (R144). -/
def lredStep (k : Skein) (x : Xm) (op : Nat) (acc a : Nat) : Nat × FFlags :=
  let w := tyBits x.ty
  let i (v : Nat) : Int := readInt w (tySigned x.ty) v
  if cvtSrcFloat x.ty then
    let f := fmtOf x.ty
    let env := envOf k x.rm
    match op with
    | 0 => faddVal f env (fread f env acc) (fread f env a)
    | 1 => fminmax f env false acc a
    | _ => fminmax f env true acc a
  else
    match op with
    | 0 => ((acc + a) % 2 ^ w, 0)
    | 1 => (wrapInt w (min (i acc) (i a)), 0)
    | 2 => (wrapInt w (max (i acc) (i a)), 0)
    | 3 => (acc &&& a, 0)
    | 4 => (acc ||| a, 0)
    | _ => (acc ^^^ a, 0)

/-- The running values of a reduction over the lanes in ascending order: lane, before, after, and all flags. -/
def lredRun (d : Dev) (o : Lr) (x : Xm) (ex : List Nat) : List (Nat × Nat × Nat) × Nat × FFlags :=
  let op := bitsOf x.opx 0 4
  ex.foldl (fun (r : List (Nat × Nat × Nat) × Nat × FFlags) l =>
      let pat := patOf (laneReader d l) o.a x.ty
      let a := if cvtSrcFloat x.ty then fsrc x 0 pat else pat
      let q := lredStep (curSkein d) x op r.2.1 a
      (r.1 ++ [(l, r.2.1, q.1)], q.1, r.2.2 ||| q.2))
    ([], lredIdentity op x.ty, 0)

/-- LRED (R144). -/
def execLred (o : Lr) (s : State) : Host.Outcome State Fault Refusal :=
  s.run fun m d =>
    let x := lrXm o 0
    let h := hdF x.ty (hdXm o.w (lenOf o.xm) x [.v o.a (tyRegs x.ty)])
    crossLane m d h (fltLat x.ty latCross) fun ex l =>
      let r := lredRun d o x ex
      (resOf (wrV l) o.d x.ty r.2.1, if o.f then 0 else r.2.2)

/-- LSCAN (R144), inclusive or exclusive. -/
def execLscan (o : Lr) (s : State) : Host.Outcome State Fault Refusal :=
  s.run fun m d =>
    let x := lrXm o 0
    let h := hdF x.ty (hdXm o.w (lenOf o.xm) x [.v o.a (tyRegs x.ty)])
    crossLane m d h (fltLat x.ty latCross) fun ex l =>
      let r := lredRun d o x ex
      let v := ((r.1.find? fun e => e.1 == l).map fun e => if x.opx.getLsbD 4 then e.2.1 else e.2.2).getD 0
      (resOf (wrV l) o.d x.ty v, if o.f then 0 else r.2.2)

/-- MATCH (R145). -/
def execMatchLanes (o : Lr) (s : State) : Host.Outcome State Fault Refusal :=
  s.run fun m d =>
    let x := lrXm o 0
    let val (l : Nat) : Nat := patOf (laneReader d l) o.a x.ty
    crossLane m d (hdXm o.w (lenOf o.xm) x [.v o.a (tyRegs x.ty)]) latCross fun ex l =>
      (res1 (wrV l) o.d (ex.foldl (fun y q => y + 2 ^ q * (val q == val l).toNat) 0), 0)

/-! ## Special registers (R103, R104) -/

/-- Field `i` of a work identifier (R15), and the group index and ply index of a group. -/
def widField (h : BitVec 1024) (wid : DWord) (i : Nat) : Nat :=
  if i = 0 then bitsOf wid 0 5
  else bitsOf wid (5 + ((List.range (i - 1)).map fun j => hW h (j + 1)).sum) (hW h i)

/-- Whether a group runs a spool record's or a handler's skein, which has no header of its own (R33, R447). -/
def isSpool (g : Group) : Bool := match g.kind with | .spool .. => true | .handler .. => true | _ => false

/-- The value of a special register for a lane (R103). -/
def specialReg (m : Mgmt) (d : Dev) (lane code : Nat) : Nat :=
  let k := curSkein d
  let g := groupOf d k.gid
  let t := threadOf k lane
  if code = 0x00 then lane
  else if code = 0x01 then t.wid.toNat
  else if code = 0x02 then lane
  else if code ≤ 0x07 then (if isSpool g then 0 else widField g.header t.wid (code - 2) % 2 ^ 32)
  else if code = 0x08 then k.idx
  else if code = 0x09 then g.index % 2 ^ 32
  else if code = 0x0A then g.index / 2 ^ 32
  else if code = 0x0B then (if isSpool g then 0 else g.index / 2 ^ hPly g.header % 2 ^ 32)
  else if code = 0x0C then (if isSpool g then 1 else hSkeins g.header)
  else if code = 0x0D then t.stk.toNat
  else if code = 0x0E then t.flags.toNat
  else if code = 0x0F then k.fpmode.toNat
  else if code = 0x10 then
    (List.range 64).foldl (fun x i =>
      if hTagBase g.header ≤ i && decide (i < hTagBase g.header + hTagCnt g.header) && g.tags.getLsbD i then x + 2 ^ i else x) 0
  else if code = 0x11 then g.gublock.toNat
  else if code ≤ 0x15 then bitsOf (ctxOf m g.ctx).nlt (32 * (code - 0x12)) 32
  else if code = 0x16 then (BitVec.ofNat 64 (cyclesOf d g.die) + Config.clockSkew (spindleNo g)).toNat
  else if code = 0x17 then g.spindle
  else if code = 0x18 then g.die
  else if code = 0x19 then k.quarter
  else g.ctx

/-- Registers a deterministic context may not read (R104), and how many registers a value takes (R103). -/
def srUndet (code : Nat) : Bool := [0x16, 0x17, 0x18, 0x19].contains code
def srRegs (code : Nat) : Nat := if sr64 code then 2 else 1

/-- The DETVIOL of a read whose result a handler may supply (R104, R448). -/
def detRead (lanes : Mask) (lane : Bool) (r n : Nat) : FaultInfo :=
  { faultAt .detviol 0 lanes with sup := some (lane, r, n) }

/-- Lane RDSR (R146), in every lane of the bundle. (DEDUCED: notes/assumptions/10) -/
def execRdsr (o : Lk) (s : State) : Host.Outcome State Fault Refusal :=
  s.run fun m d =>
    let code := lkNat o
    let n := srRegs code
    laneIssue m d (hd o.w (lenOf o.xl) []) fun ex da =>
      if isDet m (curCtx d) && srUndet code then .fault (detRead ex true o.d.toNat n)
      else .done (addPend da d.cur.skein latAlu ((lanesOf ex).flatMap fun l =>
        splitRegs (wrV l) o.d.toNat (specialReg m d l code) n))

/-- Uniform RDSR (R166). -/
def execRdsrUniform (o : Lk) (s : State) : Host.Outcome State Fault Refusal :=
  s.run fun m d =>
    let code := lkNat o
    let n := srRegs code
    let lane := (lanesOf d.cur.lanes).headD 0
    uniIssue m d (hd o.w (lenOf o.xl) []) fun da =>
      if isDet m (curCtx d) && srUndet code then .fault (detRead d.cur.lanes false o.d.toNat n)
      else .done (addPend da d.cur.skein latUni (splitRegs wrS o.d.toNat (specialReg m d lane code) n))

/-- The rounding and FTZ bits WRSR writes: rounding fields 5 to 7 are written as 0 (R167). -/
def fpmodeOf (a : Word) : BitVec 4 :=
  if decide (5 ≤ bitsOf a 0 3) then a.extractLsb' 0 4 &&& 8 else a.extractLsb' 0 4

/-- WRSR (R167): %fpmode of the skein, or %gublock of the group from the next cycle on. (DEDUCED: notes/assumptions/8) -/
def execWrsr (o : Lk) (s : State) : Host.Outcome State Fault Refusal :=
  s.run fun m d =>
    let k := curSkein d
    if lkNat o = 0x0F then
      uniIssue m d (hd o.w (lenOf o.xl) [.s o.a 1]) fun da =>
        .done (modSkein da d.cur.skein fun k => { k with fpmode := fpmodeOf (uniReader d o.a.toNat) })
    else
      let x := readS64 d k o.a.toNat
      uniIssue m d (hd o.w (lenOf o.xl) [.s o.a 2]) fun da =>
        if bitsOf x 0 6 != 0 then .fault (uniFault d .align x)
        else if nonCanon x then .fault { uniFault d .xlate x with sub := xlateCode .noncanon }
        else .done (modGroup da k.gid fun g => { g with gublockNext := some x })

end Sys2Proof.Machine
end

