-- ==== Sys2Proof/Machine/Choose.lean ====
section
/-!
DEFINITION. What the device does next: which skein a quarter serves (R92 to R95), which of its threads (R89, R90), the fetch of
their instruction (R55, R76), and the passing of a cycle (R11, R13; notes/assumptions/1).
-/

namespace Sys2Proof.Machine

/-! ## Bundles -/

/-- The bundle of a lane: the threads of a mask at its address (R89). (DEDUCED: notes/assumptions/55) -/
def bundleOf (k : Skein) (ls : Mask) (o : Nat) : Mask := maskOf fun l => ls.getLsbD l && (threadOf k l).pc == (threadOf k o).pc

/-- The first thread of a mask at its lowest program counter (R89). -/
def lowest (k : Skein) (ls : Mask) : Nat :=
  match lanesOf ls with
  | [] => 0
  | l :: r => r.foldl (fun o q => if (threadOf k q).pc.toNat < (threadOf k o).pc.toNat then q else o) l

/-- The bundle of lowest program counter, and the bundle the age rotation picks (R90): of the others, the one whose threads have
gone longest without issuing, on a tie the one of lower program counter. -/
def lowBundle (k : Skein) : Mask × DWord :=
  let ls := readyMask k
  let o := lowest k ls
  (bundleOf k ls o, (threadOf k o).pc)
def oldBundle (k : Skein) : Option (Mask × DWord) :=
  let ls := readyMask k
  let others := ls &&& ~~~(lowBundle k).1
  if others == 0 then none
  else
    let lastOf (l : Nat) : Nat := (threadOf k l).last
    let oldest := (lanesOf others).foldl (fun n l => min n (lastOf l)) ((lanesOf others).foldl (fun n l => max n (lastOf l)) 0)
    let o := lowest k (maskOf fun l => others.getLsbD l && lastOf l == oldest)
    some (bundleOf k others o, (threadOf k o).pc)

/-! ## Skeins -/

/-- Whether a skein can issue, its quarter aside: resident, neither parked, stopped nor being pre-empted, with a ready thread. -/
def skeinGoes (k : Skein) : Bool :=
  k.resident && k.park.isNone && k.stops.isEmpty && !k.preempt && readyMask k != 0

/-- Whether the wait marker (R98) or a table branch's read (R173) holds a skein at a cycle. -/
def held (k : Skein) (cycle : Nat) : Bool := (k.marker && !k.pend.isEmpty) || decide (cycle < k.hold)

/-- A skein of a quarter with its group. -/
abbrev Cand := Skein × Group

/-- The resident skeins of a quarter, and the order of R94. -/
def quarterSkeins (d : Dev) (q : Nat) : List Cand :=
  (d.skeins.map fun k => (k, groupOf d k.gid)).filter fun c => c.1.resident && quarterNo c.2 c.1 == q
def detKey (c : Cand) : Nat := (c.2.launch * 2 ^ 64 + c.2.index) * 32 + c.1.idx

/-- The candidate of least key. -/
def leastBy (key : Cand → Nat) : List Cand → Option Cand
  | [] => none
  | c :: r =>
    match leastBy key r with
    | none => some c
    | some b => if key b < key c then some b else some c

/-- The skein a policy group picks among its eligible ones (R93, R94, R95). `goes` are the group's skeins that could issue but
for a marker; a DET current skein that has left them, be it for a reorder point or a record that stops it, is left for the eligible
one of least index. (DESIGN CHOICE: notes/assumptions/81) -/
def pickPolicy (pol : Nat) (q : QuarterSt) (goes elig : List Cand) : Option Cand :=
  if pol = 0 then
    match elig.find? fun c => some c.1.uid == q.gtoLast with
    | some c => some c
    | none => leastBy (fun c => c.1.age) elig
  else if pol = 1 then
    let after := match q.rrSlot with | some s => elig.filter fun c => s < c.1.slot | none => elig
    match leastBy (fun c => c.1.slot) after with
    | some c => some c
    | none => leastBy (fun c => c.1.slot) elig
  else
    match goes.find? fun c => some c.1.uid == q.detCur with
    | some c => elig.find? fun e => e.1.uid == c.1.uid
    | none =>
      match leastBy detKey (elig.filter fun c => some c.1.uid != q.detYield) with
      | some c => some c
      | none => leastBy detKey elig

/-- The skein a quarter serves in this cycle: the policy groups in turn from the one after that which issued last (R93). A context that is
not enabled runs no work (R184), and the L1 takes an access in every cycle (R92). (DESIGN CHOICE: notes/assumptions/80) -/
def pickSkein (m : Mgmt) (d : Dev) (q : Nat) : Option Cand :=
  let all := quarterSkeins d q
  let st := tget d.quarters q blankQuarter
  let open_ (c : Cand) : Bool := decide (st.fp64Until ≤ cyclesOf d c.2.die)
  let goes := all.filter fun c => skeinGoes c.1 && ctxEnabled m c.2.ctx
  let elig := goes.filter fun c => !held c.1 (cyclesOf d c.2.die) && open_ c
  let one (pol : Nat) : Option Cand :=
    pickPolicy pol st (goes.filter fun c => policyOf m c.2 == pol) (elig.filter fun c => policyOf m c.2 == pol)
  let start := if all.any fun c => policyOf m c.2 == st.policy then (st.policy + 1) % 3 else 0
  [start, (start + 1) % 3, (start + 2) % 3].findSome? one

/-- The next quarter, from the turn on, that serves a skein in this cycle; a die whose spindles hold this cycle serves none. -/
def pickQuarter (m : Mgmt) (d : Dev) : Option (Nat × Cand) :=
  let qs := (d.skeins.filter fun k => skeinGoes k).map fun k => quarterNo (groupOf d k.gid) k
  let ready := qs.filter fun q => d.turn ≤ q && !d.held.getLsbD (q / 192) && (pickSkein m d q).isSome
  match ready with
  | [] => none
  | q :: r =>
    let first := r.foldl min q
    (pickSkein m d first).map fun c => (first, c)

/-! ## Fetch (R55, R76) -/

/-- What a fetch of one word comes to. -/
inductive Fetched where
  | word (w : Word) (d : Dev)
  | fault (c : FetchCause) (addr : DWord)
  | wait (n : Need)
  deriving DecidableEq, Repr

/-- One instruction word at an address, read through the spindle's L1 like a load of policy 1 (R193); no guard tag is compared (R55).
(DEDUCED: notes/assumptions/13) -/
def fetchWord (m : Mgmt) (d : Dev) (ctx sp : Nat) (p : DWord) : Fetched :=
  match locate m d ctx sp p with
  | .error (.xlate c) => .fault (.xlate c) p
  | .error (.need n) => .wait n
  | .error _ => .fault .dataerr p
  | .ok (l, pa) =>
    if l.w || l.xn then .fault .perm p
    else
      match loadVia m d ctx sp p l pa 4 1 90 with
      | .ok r => .word (BitVec.ofNat 32 r.1) r.2.1
      | .error (.need n) => .wait n
      | .error _ => .fault .dataerr (p &&& ~~~127)

/-- What a bundle does next: an instruction, or an event in its place, or a wait for its code; with the device after the fetch. -/
inductive Todo where
  | run (i : Instr) (d : Dev)
  | wait (n : Need) (d : Dev)
  deriving DecidableEq, Repr

/-- What the words of an instruction are under a group's allocation: it, or the illegal word. -/
def decoded (g : Group) (w e : Word) : Instr :=
  match decodeWords (allocOf g) w e with
  | .ok i => i
  | .error r => .illegalWord w e r

/-- The instruction of a bundle at an address: its words fetched and decoded under its group's allocation.
(DEDUCED: notes/assumptions/13) -/
def fetchInstr (m : Mgmt) (d : Dev) (g : Group) (pc : DWord) : Todo :=
  let sp := spindleNo g
  match fetchWord m d g.ctx sp pc with
  | .fault c a => .run (.fetchFault c a) d
  | .wait n => .wait n d
  | .word w d1 =>
    if extFollows w then
      match fetchWord m d1 g.ctx sp (pc + 4) with
      | .fault c a => .run (.fetchFault c a) d1
      | .wait n => .wait n d1
      | .word e d2 => .run (decoded g w e) d2
    else .run (decoded g w 0) d1

/-! ## What ends a run-ahead (R456) -/

/-- Whether an instruction is a region breaker (R175) that has its effect in some thread of the bundle (R65), or is otherwise the last
of its region. (DEDUCED: notes/assumptions/55) -/
def endsRegion (d : Dev) (i : Instr) : Bool :=
  let k := curSkein d
  match i with
  | .mov o => (decide (o.d.toNat ≥ 120) || decide (o.a.toNat ≥ 120)) && guardMask d k (lrXm o 0).p (lrXm o 0).n != 0
  | .smov o => (decide (o.d.toNat ≥ 120) || decide (o.a.toNat ≥ 120)) && guardCond d k (lrXm o 0).p (lrXm o 0).n
  | .atom o | .atomb o | .atoms o | .stpx o | .stcf o => guardMask d k o.xw.p o.xw.n != 0
  | .lockl o | .unlockl o | .pinl o | .unpinl o | .waitx o | .waitv o => guardCond d k o.xw.p o.xw.n
  | .spawn _ | .join _ | .event _ | .eventLiteral _ | .rtrig _ | .bar _ | .barp _
  | .cpy _ | .cpyg _ | .cpyd _ | .mxa _ | .mxc _ | .mxz _ | .mxld _
  | .mxst _ | .qbind _ | .qfree _ | .tdesc _ | .seal _ | .stmv _ | .surfclr _ | .tbegin _ | .tflush _
  | .svc _ | .reorder _ | .exit _ => true
  | _ => false

/-- Whether the run-ahead of the bundle that is to issue ends before its instruction: at a breaker, a REGION, or the 512th issue after
the fault; also where the bundle has a thread that is in no explicit region or of another run-ahead.
(DEDUCED, DESIGN CHOICE: notes/assumptions/55) -/
def raStops (d : Dev) (i : Instr) : Bool :=
  let k := curSkein d
  let ls := d.cur.lanes
  match k.runAhead.filter fun r => r.lanes &&& ls != 0 with
  | [] => false
  | [r] =>
    decide (511 ≤ r.issues) || inRegions k ls != ls || endsRegion d i || (match i with | .region _ => true | _ => false)
  | _ => true

/-! ## A cycle -/

/-- A skein that waits for its code; after a recall it fetches again. (DEDUCED: notes/assumptions/13) -/
def parkFetch (d : Dev) (u : Nat) (n : Need) : Dev :=
  match n with
  | .recall .. => askFor d n
  | _ => modSkein (askFor d n) u fun k => { k with park := some (.half (needHalf n)) }

/-- The results of a die's skeins that are due. -/
def dueResults (d : Dev) : List Instr :=
  d.skeins.flatMap fun k =>
    (k.pend.filter fun p => p.due ≤ cyclesOf d (groupOf d k.gid).die).map fun p => .resultWriteback k.uid p.id

/-- What a park is to the watchdog (R350): no parking at all, an internal wait, an external one; a surface write that the interlock
holds is an internal one (R402). (DEDUCED: notes/assumptions/56) -/
def waitKind : Park → Option Bool
  | .wait w => some w.external
  | .ring .. | .svc .. => some true
  | .tag .. | .queue | .lock .. | .twait .. | .tiler | .surf => some false
  | .recall _ | .half _ | .egress .. | .fence .. | .seal .. => none

/-- Whether a skein counts as parked, and whether on an external wait: a stop is external (R448), a thread that waits at a barrier
or a reorder point leaves an internal wait. (DEDUCED: notes/assumptions/56) -/
def skeinWait (k : Skein) : Option Bool :=
  if !k.stops.isEmpty then some true
  else
    match k.park with
    | some p => waitKind p
    | none => if readyMask k == 0 then some false else none

/-- Whether a context is stalled (R350). (DEDUCED: notes/assumptions/56) -/
def isStalled (d : Dev) (ctx : Nat) : Bool :=
  let ks := d.skeins.filter fun k => k.resident && (groupOf d k.gid).ctx == ctx
  !ks.isEmpty && ks.all fun k => (skeinWait k).isSome

/-- The watchdog of one context at a cycle (R350): its count begins, ends, or reaches the limit, which fires once. -/
def watchCtx (m : Mgmt) (d : Dev) (ctx : Nat) : Dev :=
  if !isStalled d ctx then { d with stalled := tdel d.stalled ctx }
  else
    match tget? d.stalled ctx with
    | none => { d with stalled := tset d.stalled ctx (clockNow d .distaff, false) }
    | some (since, fired) =>
      let n := bitsOf (ctxOf m ctx).watchdog 0 32
      if n != 0 && !fired && decide (since + n * 2 ^ 20 ≤ clockNow d .distaff) then
        post { d with stalled := tset d.stalled ctx (since, true) } (.watchdogExpiry ctx)
      else d

/-- The block address a group holds from now on (R167). -/
def settleGublock (g : Group) : Group := { g with gublock := g.gublockNext.getD g.gublock, gublockNext := none }

/-- One L2 slice cycle passes: each die's spindle clock counts in its share of them (R11, R13), results and timed events that
have become due are posted, block addresses written take hold, the watchdogs count, and the quarters are served anew.
(DESIGN CHOICE: notes/assumptions/1) -/
def tick (m : Mgmt) (d : Dev) : Dev :=
  let stepOf (i : Nat) : Nat := (d.phase[i]?).getD 0 + (16 - (d.clockStep[i]?).getD 0)
  let d1 : Dev :=
    { d with
      ticks := d.ticks + 1, turn := 0, groups := d.groups.map settleGublock,
      dieCycles := Vector.ofFn fun i : Fin 16 => (d.dieCycles[i.val]?).getD 0 + stepOf i.val / 16,
      phase := Vector.ofFn fun i : Fin 16 => stepOf i.val % 16,
      held := BitVec.ofNat 16 (((List.range 16).map fun i => if stepOf i < 16 then 2 ^ i else 0).sum) }
  let due := d1.timers.filter fun t => t.due ≤ clockNow d1 t.clock
  let d2 := { d1 with timers := d1.timers.filter fun t => !decide (t.due ≤ clockNow d1 t.clock) }
  let ctxs := ((d.groups.map fun g => g.ctx) ++ d.stalled.map fun e => e.1).dedup
  ctxs.foldl (watchCtx m) (postAll d2 (dueResults d1 ++ due.map fun t => t.ev))

/-- What happens next. -/
inductive Choice where
  | event (e : Instr) (d : Dev)
  | issue (i : Instr) (d : Dev)
  | quiet (d : Dev)
  deriving Repr

/-- The next thing the device does: the first due event, else one issue of the next quarter that can, else the passing of a
cycle. (DESIGN CHOICE: notes/assumptions/1) -/
def choose (m : Mgmt) (d : Dev) : Choice :=
  match d.agenda with
  | e :: r => .event e { d with agenda := r }
  | [] =>
    match pickQuarter m d with
    | none => .quiet (tick m d)
    | some (q, k, g) =>
      let old := if 64 ≤ k.rot then oldBundle k else none
      match k.rot, old with
      | 64, some _ => .event (.issueRotation k.uid) d
      | _, _ =>
        let (ls, pc) := old.getD (lowBundle k)
        let d1 := { d with turn := q + 1, cur := { skein := k.uid, lanes := ls, pc := pc, rotate := old.isSome } }
        match fetchInstr m d1 g pc with
        | .wait n d2 => .quiet (parkFetch d2 k.uid n)
        | .run i d2 => if raStops d2 i then .event (.runAheadEnd k.uid) d2 else .issue i d2

end Sys2Proof.Machine
end

