-- ==== Sys2Proof/Machine/Staple.lean ====
section
/-!
DEFINITION. Staples (R247 to R254): header and selectors, decoding, the quantising rule, and the FP32 arithmetic rounded to
nearest even that the engines and the quantiser compute with (R107).
-/

namespace Sys2Proof.Machine

/-! ## FP32 rounded to nearest even -/

/-- RNE32 and RNE16 of a value, as patterns. -/
def rne32 (v : FVal) : Nat := (froundVal fmtF32 envRne v 0).1
def rne16 (v : FVal) : Nat := (froundVal fmtF16 envRne v 0).1

/-- An FP32 pattern's value, and sums, differences, products and quotients of patterns, each rounded once. -/
def val32 (x : Nat) : FVal := fdecode fmtF32 x
def add32 (x y : Nat) : Nat := (faddVal fmtF32 envRne (val32 x) (val32 y)).1
def sub32 (x y : Nat) : Nat := (faddVal fmtF32 envRne (val32 x) (fneg (val32 y))).1
def mul32 (x y : Nat) : Nat := (fmulVal fmtF32 envRne (val32 x) (val32 y)).1
def div32 (a b : FVal) : Nat := (fdivVal fmtF32 envRne a b).1

/-- |x| of a pattern, and whether it is finite. -/
def abs32 (x : Nat) : Nat := x % 2 ^ 31
def finite32 (x : Nat) : Bool := decide (abs32 x < 0x7F800000)

/-! ## Encodings (R249, R250) -/

/-- What a selector says an element is. -/
inductive Enc where
  | int
  | flt (f : Fmt)
  | nl4f
  | nl4t
  deriving DecidableEq, Repr

/-- The encoding of a selector for a width; none where it is invalid or unassigned (R249). -/
def encOf (w sel : Nat) : Option Enc :=
  match sel with
  | 0 => some .int
  | 3 => some (.flt (if w = 4 then fmtE2M1 else if w = 6 then fmtE2M3 else fmtE4M3))
  | 5 => some (if w = 4 then .nl4f else .flt (if w = 6 then fmtE3M2 else fmtE5M2))
  | 6 => if w = 4 then some .nl4t else none
  | _ => none

/-- The levels of NL4F, and of NL4T from %nlt0 to %nlt3 (R104, R250). -/
def nl4f : List Int := [-128, -89, -68, -51, -37, -25, -13, 0, 10, 20, 31, 43, 56, 71, 92, 127]
def nl4t (nlt : BitVec 128) : List Int := (List.range 16).map fun i => (nlt.extractLsb' (8 * i) 8).toInt

/-- An integer over 2^7 as a value. -/
def levelVal (l : Int) : FVal := .fin (decide (l < 0)) l.natAbs (-7)

/-- Header fields (R248). -/
def hdrSel (h : Nat) : Nat := h / 2 ^ 24 % 16
def hdrZ (h : Nat) : Nat := h / 2 ^ 16 % 256
def hdrScale (h : Nat) : Nat := h % 2 ^ 16

/-- The SELECTOR conditions (R251). -/
def selectorBad (w h : Nat) : Bool :=
  let sc := hdrScale h
  h / 2 ^ 28 != 0 || decide (0x7C00 ≤ sc) ||
    match encOf w (hdrSel h) with
    | none => true
    | some .int => false
    | some _ => hdrZ h != 0

/-- The value of an element code before scaling (R250, R255). -/
def codeVal (nlt : BitVec 128) (e : Enc) (z q : Nat) : FVal :=
  match e with
  | .int => let x := (q : Int) - z; .fin (decide (x < 0)) x.natAbs 0
  | .flt f => fdecode f q
  | .nl4f => levelVal (nl4f.getD q 0)
  | .nl4t => levelVal ((nl4t nlt).getD q 0)

/-- An element decoded: its FP32 pattern (R250). (DESIGN CHOICE: notes/assumptions/97) -/
def decodeElem (nlt : BitVec 128) (w h q : Nat) : Nat :=
  match encOf w (hdrSel h) with
  | none => 0x7FC00000
  | some e => rne32 (fmulExact (codeVal nlt e (hdrZ h) q) (fdecode fmtF16 (hdrScale h))).1

/-- Element code `j` of a payload (R247). -/
def stapleCode (w payload j : Nat) : Nat := payload / 2 ^ (w * j) % 2 ^ w

/-- Bytes of a staple. -/
def stapleBytes (g w : Nat) : Nat := 4 + g * w / 8

/-! ## Quantising (R253, R254, R236) -/

/-- The nearest integer to an FP32 pattern, ties to even. -/
def roundInt32 (x : Nat) : Int :=
  match val32 x with
  | .fin neg m e => let n := (roundUnits 0 neg m e 0 false).1; if neg then -(n : Int) else n
  | _ => 0

/-- The lesser and the greater of two finite FP32 patterns. -/
def min32 (x y : Nat) : Nat := if fcmp (val32 y) (val32 x) == some .lt then y else x
def max32 (x y : Nat) : Nat := if fcmp (val32 x) (val32 y) == some .lt then y else x

/-- The largest magnitude of a block. -/
def maxAbs (xs : List Nat) : Nat := xs.foldl (fun a x => max a (abs32 x)) 0

/-- |a − L/128| of a finite value, as an exact value; and the first index of least distance. -/
def levelDist (a : FVal) (l : Int) : FVal :=
  match a with
  | .fin n m e => let s := fsumExact n m e (decide (0 < l)) l.natAbs (-7); .fin false s.1.natAbs s.2
  | v => v
def nearest (ls : List Int) (a : FVal) : Nat :=
  (ls.zipIdx.foldl (fun (b : Option (Nat × FVal)) (l, i) =>
    let dl := levelDist a l
    match b with
    | none => some (i, dl)
    | some (j, bd) => if fcmp dl bd == some .lt then some (i, dl) else some (j, bd)) none).elim 0 (·.1)

/-- Quantise (R253): scale, zero point and codes of a block of finite elements under an encoding. -/
def quantise (nlt : BitVec 128) (w : Nat) (e : Enc) (xs : List Nat) : Nat × Nat × List Nat :=
  let top := 2 ^ w - 1
  match e with
  | .int =>
    let m := xs.foldl min32 0
    let mx := xs.foldl max32 0
    let s := rne16 (val32 (div32 (val32 (sub32 mx m)) (.fin false top 0)))
    let sv := fdecode fmtF16 s
    if s = 0 then (s, 0, xs.map fun _ => 0)
    else
      let clamp (x : Int) : Nat := if x < 0 then 0 else if (top : Int) < x then top else x.toNat
      let z := clamp (roundInt32 (div32 (fneg (val32 m)) sv))
      (s, z, xs.map fun x => clamp (roundInt32 (div32 (val32 x) sv) + z))
  | .flt f =>
    let big := fdecode f (fmaxPat f false)
    let s := rne16 (val32 (div32 (val32 (maxAbs xs)) big))
    let sv := fdecode fmtF16 s
    if s = 0 then (s, 0, xs.map fun _ => 0)
    else
      (s, 0, xs.map fun x =>
        match val32 (div32 (val32 x) sv) with
        | .fin n m e => (fround f 0 true n m e false).1
        | v => fmaxPat f (fsign v))
  | .nl4f =>
    let s := rne16 (val32 (maxAbs xs))
    if s = 0 then (s, 0, xs.map fun _ => 7)
    else (s, 0, xs.map fun x => nearest nl4f (val32 (div32 (val32 x) (fdecode fmtF16 s))))
  | .nl4t =>
    let s := rne16 (val32 (maxAbs xs))
    let ls := nl4t nlt
    if s = 0 then (s, 0, xs.map fun _ => nearest ls (.fin false 0 0))
    else (s, 0, xs.map fun x => nearest ls (val32 (div32 (val32 x) (fdecode fmtF16 s))))

/-- A header word. -/
def headerWord (sel z scale : Nat) : Nat := sel * 2 ^ 24 + z * 2 ^ 16 + scale

/-- The error of a candidate (R236, R254). -/
def stapleError (nlt : BitVec 128) (w h : Nat) (xs codes : List Nat) : Nat :=
  (xs.zip codes).foldl (fun e (x, q) =>
    let t := sub32 x (decodeElem nlt w h q)
    add32 e (mul32 t t)) 0

/-- A staple as one natural: header, then the payload's codes (R247). -/
def packStaple (w h : Nat) (codes : List Nat) : Nat :=
  h + 2 ^ 32 * (codes.zipIdx.foldl (fun x (q, j) => x + q * 2 ^ (w * j)) 0)

/-- The selectors a candidate mask enables, ascending (R235). -/
def maskSelectors (mask : Nat) : List Nat := ([0, 3, 5, 6].zipIdx.filter fun (_, i) => mask.testBit i).map (·.1)

/-- One staple of a block of FP32 patterns: the candidate of least error, the lowest selector on a tie (R236, R254). -/
def quantiseBlock (nlt : BitVec 128) (w mask : Nat) (xs : List Nat) : Nat :=
  let sels := maskSelectors mask
  let best : Option (Nat × Nat) :=
    if !xs.all finite32 then none
    else
      sels.foldl (fun b sel =>
        match encOf w sel with
        | none => b
        | some e =>
          let (s, z, codes) := quantise nlt w e xs
          if decide (0x7C00 ≤ s) then b
          else
            let h := headerWord sel z s
            let err := stapleError nlt w h xs codes
            match b with
            | none => some (err, packStaple w h codes)
            | some (be, _) => if err < be then some (err, packStaple w h codes) else b) none
  match best with
  | some (_, x) => x
  | none => packStaple w (headerWord (sels.headD 0) 0 0) (xs.map fun _ => 0)

end Sys2Proof.Machine
end

