-- ==== Sys2Proof/Machine/Tiles.lean ====
section
/-!
DEFINITION. What the engines compute on: element formats and rows (R267), conversion (R269), the swizzle (R270), sums (R222),
products (R255, R256) and the down-converter (R275), packed chunks (R212, R213, R219, R220) with their CRC-32C.
-/

namespace Sys2Proof.Machine

/-! ## Element formats (R267) -/

/-- An element format: a float, an 8-bit integer, staples of a width. -/
inductive EFmt where
  | flt (f : Fmt)
  | int (sg : Bool)
  | stw (w : Nat)
  deriving DecidableEq, Repr

/-- The format of a code. -/
def efmtOf (code : Nat) : Option EFmt :=
  match code with
  | 0 => some (.flt fmtF32)
  | 1 => some (.flt fmtBF16)
  | 2 => some (.flt fmtF16)
  | 3 => some (.flt fmtE4M3)
  | 4 => some (.flt fmtE5M2)
  | 5 => some (.int true)
  | 6 => some (.int false)
  | 8 => some (.stw 4)
  | 9 => some (.stw 6)
  | 10 => some (.stw 8)
  | _ => none

/-- The same, F32 where there is none. -/
def efmtD (code : Nat) : EFmt := (efmtOf code).getD (.flt fmtF32)
def isStw (code : Nat) : Bool := code == 8 || code == 9 || code == 10

/-- Elements of a staple by G code, and bits of an element. -/
def gOf (g : Nat) : Nat := 32 * 2 ^ g
def elemBits : EFmt → Nat
  | .flt f => fmtWidth f
  | .int _ => 8
  | .stw w => w

/-- Bytes of a row of `cols` elements. -/
def rowBytes (f : EFmt) (g cols : Nat) : Nat :=
  match f with
  | .stw w => cols / gOf g * stapleBytes (gOf g) w
  | f => cols * (elemBits f / 8)

/-- Whether format, G code and columns go together. -/
def rowOk (code g cols : Nat) : Bool :=
  (efmtOf code).isSome && decide (g < 3) && (!isStw code || cols % gOf g == 0)

/-- The exact value of a plain element. -/
def plainVal (f : EFmt) (q : Nat) : FVal :=
  match f with
  | .flt k => fdecode k q
  | .int sg => let x := readInt 8 sg q; .fin (decide (x < 0)) x.natAbs 0
  | .stw _ => .fin false 0 0

/-- The exact values of a staple's elements; none where its header fails R251. -/
def stapleVals (nlt : BitVec 128) (w gg x : Nat) : Option (List FVal) :=
  let h := x % 2 ^ 32
  if selectorBad w h then none
  else
    match encOf w (hdrSel h) with
    | none => none
    | some e =>
      let s := fdecode fmtF16 (hdrScale h)
      some ((List.range gg).map fun j => (fmulExact (codeVal nlt e (hdrZ h) (stapleCode w (x / 2 ^ 32) j)) s).1)

/-- The exact values of a row, and the addresses of the headers that fail R251; `at_` gives the address of a byte of the row. -/
def rowVals (nlt : BitVec 128) (f : EFmt) (g cols x : Nat) (at_ : Nat → DWord) : List FVal × List DWord :=
  match f with
  | .stw w =>
    let gg := gOf g
    let n := stapleBytes gg w
    let ss := (List.range (cols / gg)).map fun s => (s, stapleVals nlt w gg (x / 2 ^ (8 * n * s) % 2 ^ (8 * n)))
    (ss.flatMap fun s => s.2.getD (List.replicate gg (.fin false 0 0)),
      ss.filterMap fun s => if s.2.isNone then some (at_ (n * s.1)) else none)
  | f => ((List.range cols).map fun j => plainVal f (x / 2 ^ (elemBits f * j) % 2 ^ elemBits f), [])

/-- A value written in a plain format (R137): float by Round with the .sat rules, integers rounded and clamped, integer to integer
without .sat wrapping. -/
def encElem (f : EFmt) (sat fromInt : Bool) (v : FVal) : Nat :=
  match f with
  | .flt k => (cvtFF k envRne sat v).1
  | .int sg =>
    match fromInt && !sat, v with
    | true, .fin n m _ => wrapInt 8 (if n then -(m : Int) else m)
    | _, v => wrapInt 8 (cvtFI envRne (intMin 8 sg) (intMax 8 sg) v).1
  | .stw _ => 0

/-- A row of codes of `b` bits as one natural. -/
def packRow (b : Nat) (qs : List Nat) : Nat := qs.zipIdx.foldl (fun x (q, j) => x + q * 2 ^ (b * j)) 0

/-- Where byte `b` of row `i` stands under a swizzle, and a row of `n` bytes put there and taken from there (R270). -/
def swzPos (k i b : Nat) : Nat :=
  let s := 16 * 2 ^ k
  b - b % s + 16 * ((b % s / 16) ^^^ (i % 2 ^ k)) + b % 16
def swzPut (k i n x : Nat) : Nat :=
  (List.range n).foldl (fun y b => y + x / 2 ^ (8 * b) % 256 * 2 ^ (8 * swzPos k i b)) 0
def swzTake (k i n x : Nat) : Nat :=
  (List.range n).foldl (fun y b => y + x / 2 ^ (8 * swzPos k i b) % 256 * 2 ^ (8 * b)) 0

/-! ## Sums (R222) -/

/-- +0.0 and then one addition after another, each rounded. -/
def sum32 (xs : List Nat) : Nat := xs.foldl add32 0

/-- Row sums and then column sums of a matrix of FP32 patterns with `cols` columns. -/
def checkSums (cols : Nat) (rows : List (List Nat)) : List Nat :=
  rows.map sum32 ++ (List.range cols).map fun j => sum32 (rows.map fun r => r.getD j 0)

/-! ## Products (R255, R256) -/

/-- The value r of one chunk: the exact sum of the products, rounded once; by IEEE 754 where a value is not finite. -/
def chunkVal (as bs : List FVal) : Nat :=
  let ps := (as.zip bs).map fun x => (fmulExact x.1 x.2).1
  let pos := ps.any fun p => match p with | .inf n => !n | _ => false
  let neg := ps.any fun p => match p with | .inf n => n | _ => false
  if ps.any fisNan || (pos && neg) then fnan fmtF32 false
  else if pos then finf fmtF32 false
  else if neg then finf fmtF32 true
  else
    let s := ps.foldl (fun (s : Int × Int) p =>
      match p with
      | .fin n m e => fsumExact (decide (s.1 < 0)) s.1.natAbs s.2 n m e
      | _ => s) (0, 0)
    rne32 (.fin (decide (s.1 < 0)) s.1.natAbs s.2)

/-- One output element: the chunks of 32 in ascending order. -/
def dotAcc (acc : Nat) (as bs : List FVal) (chunks : Nat) : Nat :=
  (List.range chunks).foldl (fun acc h =>
    add32 acc (chunkVal ((as.drop (32 * h)).take 32) ((bs.drop (32 * h)).take 32))) acc

/-- Element (i, j) of an accumulator tile, its 32 rows of patterns, and a tile from rows. -/
def accElem (t : BitVec 32768) (i j : Nat) : Nat := bitsOf t (32 * (32 * i + j)) 32
def accRows (t : BitVec 32768) : List (List Nat) := (List.range 32).map fun i => (List.range 32).map fun j => accElem t i j
def accOf (rows : List (List Nat)) : BitVec 32768 := BitVec.ofNat 32768 (packRow 32 rows.flatten)

/-- The product of R274: the accumulator after it; an element one of whose rows was not read stays. -/
def product (before : BitVec 32768) (a b : List (Option (List FVal))) (chunks : Nat) : BitVec 32768 :=
  accOf ((List.range 32).map fun i => (List.range 32).map fun j =>
    match a.getD i none, b.getD j none with
    | some x, some y => dotAcc (accElem before i j) x y chunks
    | _, _ => accElem before i j)

/-- The mismatches of R277, from the operands, their column sums and the accumulator before and after. -/
def abftMisses (tau k : Nat) (a b : List (List FVal)) (ca cb : List Nat) (before after : BitVec 32768) : Nat :=
  let dot (xs : List FVal) (cs : List Nat) : Nat :=
    sum32 ((List.range k).map fun i => mul32 (rne32 (xs.getD i (.fin false 0 0))) (cs.getD i 0))
  let delta (i j : Nat) : Nat := sub32 (accElem after i j) (accElem before i j)
  let rows := (List.range 32).map fun i =>
    (sum32 ((List.range 32).map fun j => delta i j), dot (a.getD i []) cb)
  let cols := (List.range 32).map fun j =>
    (sum32 ((List.range 32).map fun i => delta i j), dot (b.getD j []) ca)
  ((rows ++ cols).filter fun (act, pred) =>
    fisNan (val32 act) || fisNan (val32 pred) ||
      fcmp (val32 (mul32 tau (add32 (abs32 pred) 0x3F800000))) (val32 (abs32 (sub32 act pred))) == some .lt).length

/-! ## The down-converter (R275) -/

/-- A tile as rows of a plain format or as staples in row-major order: bytes of each piece, and the pieces. -/
def downConvert (nlt : BitVec 128) (cfmt cg cmask : Nat) (t : BitVec 32768) : Nat × List Nat :=
  match efmtD cfmt with
  | .stw w =>
    let gg := gOf cg
    let xs := (accRows t).flatten
    (stapleBytes gg w, (List.range (1024 / gg)).map fun s => quantiseBlock nlt w cmask ((xs.drop (gg * s)).take gg))
  | f =>
    let one (x : Nat) : Nat := if cfmt = 0 then x else encElem f true false (val32 x)
    (32 * (elemBits f / 8), (accRows t).map fun r => packRow (elemBits f) (r.map one))

/-! ## Packed chunks (R212, R213, R219, R220) -/

/-- Bytes of a form's payload. -/
def payloadBytes (form : Nat) : Nat := [128, 0, 4, 8, 36, 68, 24, 40, 72].getD form 0

/-- The line that a payload decodes to. -/
def decodeForm (form x : Nat) : Line :=
  let rep (b : Nat) : Nat := packRow (8 * b) (List.replicate (128 / b) (x % 2 ^ (8 * b)))
  let delta (b k : Nat) : Nat :=
    let base : Int := (x % 2 ^ (8 * b) : Nat)
    packRow (8 * b) ((List.range (128 / b)).map fun j =>
      wrapInt (8 * b) (base + readInt (8 * k) true (x / 2 ^ (8 * (b + k * j)) % 2 ^ (8 * k))))
  BitVec.ofNat 1024 (match form with
    | 0 => x
    | 1 => 0
    | 2 => rep 4
    | 3 => rep 8
    | 4 => delta 4 1
    | 5 => delta 4 2
    | 6 => delta 8 1
    | 7 => delta 8 2
    | _ => delta 8 4)

/-- One bit and one byte of the CRC-32C. -/
def crcBit (c : Nat) : Nat := if c % 2 = 1 then (c / 2) ^^^ 0x82F63B78 else c / 2
def crcByte (c b : Nat) : Nat := (List.range 8).foldl (fun c _ => crcBit c) (c ^^^ b)

/-- The CRC-32C of `n` bytes of a natural, lowest first (R220). -/
def crc32c (n x : Nat) : Nat :=
  (List.range n).foldl (fun c i => crcByte c (x / 2 ^ (8 * i) % 256)) 0xFFFFFFFF ^^^ 0xFFFFFFFF

/-- The lines of a chunk from its header and payload, when it is good but for its CRC (R220). -/
def chunkLines (hdr payload : Nat) : Option (List Line) :=
  let forms := (List.range 32).map fun k => hdr / 2 ^ (4 * k) % 16
  let len := hdr / 2 ^ 160 % 2 ^ 32
  if hdr / 2 ^ 192 != 0 || !forms.all (fun f => decide (f ≤ 8)) || len != (forms.map payloadBytes).sum then none
  else
    some ((forms.foldl (fun (r : List Line × Nat) f =>
      (r.1 ++ [decodeForm f (payload / 2 ^ (8 * r.2) % 2 ^ (8 * payloadBytes f))], r.2 + payloadBytes f)) ([], 0)).1)

/-- The 4,096 bytes of a good chunk. -/
def chunkBytes (hdr payload : Nat) : Option Nat :=
  match chunkLines hdr payload with
  | none => none
  | some ls =>
    let x := packRow 1024 (ls.map fun l => l.toNat)
    if crc32c 4096 x = hdr / 2 ^ 128 % 2 ^ 32 then some x else none

end Sys2Proof.Machine
end

