-- ==== Sys2Proof/Machine/EngineRun.lean ====
section
/-!
DEFINITION. What a command of the copy or the matrix engine does (R258 to R277): which blocks are malformed, what it reads, what it
writes and how it ends. A run only computes; the effects are applied by the events of Machine/Engines.lean.
-/

namespace Sys2Proof.Machine

/-! ## Parameter blocks (R268, R273) -/

/-- Whether every bit of a block outside some fields (first bit, width) is 0. -/
def onlyFields (b : BitVec 512) (fs : List (Nat × Nat)) : Bool :=
  b &&& ~~~(BitVec.ofNat 512 (fs.foldl (fun x f => x + (2 ^ f.2 - 1) * 2 ^ f.1) 0)) == 0

/-- The fields each command uses. -/
def copyFields : List (Nat × Nat) :=
  [(0, 64), (64, 64), (128, 32), (160, 32), (192, 16), (208, 16), (228, 4), (232, 4), (236, 2), (238, 2), (240, 3), (243, 1),
    (244, 1), (245, 1), (246, 1), (247, 1), (256, 64)]
def usedFields (op : Nat) : List (Nat × Nat) :=
  match op with
  | 0x50 => copyFields
  | 0x51 => copyFields ++ [(320, 64), (384, 32)]
  | 0x52 => [(0, 64), (64, 64), (244, 1), (245, 1), (416, 32)]
  | 0x53 => [(0, 4), (4, 4), (8, 5), (32, 4), (40, 1), (41, 1), (64, 32), (192, 64), (256, 64)]
  | 0x54 => [(13, 5), (4, 4), (8, 5), (22, 4), (26, 2), (28, 4), (32, 4)]
  | 0x55 => [(8, 5)]
  | 0x56 => [(8, 5), (128, 64), (96, 32), (42, 1), (22, 4)]
  | _ => [(8, 5), (128, 64), (96, 32), (42, 1), (22, 4), (26, 2), (28, 4)]

/-- A copy block refused by R268 to R271. (DEDUCED: notes/assumptions/24) -/
def copyBad (op : Nat) (b : BitVec 512) : Bool :=
  let cols := bitsOf b 192 16
  let sf := bitsOf b 228 4
  let df := bitsOf b 232 4
  let dg := bitsOf b 236 2
  let sg := bitsOf b 238 2
  let span := 16 * 2 ^ bitsOf b 240 3
  cols == 0 || bitsOf b 208 16 == 0 || !rowOk sf sg cols || !rowOk df dg cols || (isStw df && !(sf == df && sg == dg)) ||
    (b.getLsbD 243 && (rowBytes (efmtD df) dg cols % span != 0 || bitsOf b 160 32 % span != 0)) ||
    (b.getLsbD 246 && bitsOf b 256 64 % 4 != 0) || (op == 0x51 && bitsOf b 320 64 % 4 != 0)

/-- A packed-stream block refused: the chunk count, or a first header off its 32 bytes (R219, R268). (DEDUCED: notes/assumptions/24) -/
def packedBad (b : BitVec 512) : Bool :=
  let n := bitsOf b 416 32
  n == 0 || decide (2 ^ 20 < n) || bitsOf b 0 64 % 32 != 0

/-- Formats of operands (R274), of the down-converter (R275), and staple output that it refuses. -/
def mxFmt (c : Nat) : Bool := [1, 2, 3, 4, 5, 6, 8, 9, 10].contains c
def cvFmt (c : Nat) : Bool := [1, 2, 3, 4, 8, 9, 10].contains c
def cvBad (b : BitVec 512) : Bool :=
  let cf := bitsOf b 22 4
  let mask := bitsOf b 28 4
  bitsOf b 26 2 == 3 || (isStw cf && (mask == 0 || (decide (8 ≤ mask) && cf != 8)))

/-- K in chunks of 32, 1 to 16: code 0 stands for 16 (R273). -/
def kChunks (b : BitVec 512) : Nat := if bitsOf b 32 4 = 0 then 16 else bitsOf b 32 4

/-- A matrix block refused by R273 to R276; `acct` is the number of accumulator tiles. (DEDUCED: notes/assumptions/24) -/
def matrixBad (op acct : Nat) (b : BitVec 512) : Bool :=
  let cf := bitsOf b 22 4
  let kc := kChunks b
  let tau := bitsOf b 64 32
  decide (acct ≤ bitsOf b 8 5) ||
    match op with
    | 0x53 =>
      (decide (8 < kc) && (bitsOf b 0 4 == 15 || bitsOf b 4 4 == 15)) ||
        (b.getLsbD 40 && !(finite32 tau && decide (tau ≤ 2 ^ 31))) ||
        bitsOf b 211 45 != 0 || bitsOf b 275 45 != 0 || bitsOf b 192 2 != 0 || bitsOf b 256 2 != 0
    | 0x54 => decide (acct ≤ bitsOf b 13 5) || kc != 1 || !cvFmt cf || cvBad b
    | 0x55 => false
    | 0x56 => decide (2 < cf)
    | _ =>
      (cf != 0 && !cvFmt cf) || cvBad b ||
        match efmtD cf with
        | .stw w => decide (bitsOf b 96 32 < stapleBytes (gOf (bitsOf b 26 2)) w)
        | _ => false

/-- The descriptors a command reads, each with the columns it must describe (R274, R280). -/
def cmdDescs (op : Nat) (b : BitVec 512) : List (Nat × Nat) :=
  let k := 32 * kChunks b
  let ta := bitsOf b 0 4
  let tb := bitsOf b 4 4
  match op with
  | 0x53 => if k ≤ 256 then [(ta, k), (tb, k)] else [(ta, 256), (tb, 256), (ta + 1, k - 256), (tb + 1, k - 256)]
  | 0x54 => [(tb, 32)]
  | _ => []

/-- Descriptor fields (R272). -/
def tdOff (t : BitVec 128) : Nat := bitsOf t 0 20
def tdCols (t : BitVec 128) : Nat := bitsOf t 44 8 + 1
def tdFmt (t : BitVec 128) : Nat := bitsOf t 54 4
def tdG (t : BitVec 128) : Nat := bitsOf t 58 2
def tdPitch (t : BitVec 128) : Nat := bitsOf t 64 20

/-- A descriptor that is malformed (R286), or does not describe 32 rows of `cols` columns in an operand format (R274). -/
def descBad (t : BitVec 128) (cols : Nat) : Bool :=
  bitsOf t 84 44 != 0 || bitsOf t 52 2 != 0 || bitsOf t 20 16 != 0 || !mxFmt (tdFmt t) || !rowOk (tdFmt t) (tdG t) (tdCols t) ||
    (tdG t != 0 && !isStw (tdFmt t)) || tdOff t % 16 != 0 || tdPitch t % 16 != 0 ||
    decide (tdPitch t < rowBytes (efmtD (tdFmt t)) (tdG t) (tdCols t)) || tdCols t != cols || bitsOf t 36 8 != 31

/-- Whether a block is malformed (R265), its descriptors aside. (DEDUCED: notes/assumptions/24) -/
def blockBad (op acct : Nat) (b : BitVec 512) : Bool :=
  !onlyFields b (usedFields op) ||
    (if op = 0x52 then packedBad b else if op < 0x53 then copyBad op b else matrixBad op acct b)

/-- Whether a command is malformed. -/
def cmdBad (g : Group) (c : Cmd) : Bool :=
  blockBad c.op (hAcct g.header) c.block || ((c.tds.zip (cmdDescs c.op c.block)).any fun x => descBad x.1 x.2.2)

/-! ## A run -/

/-- How a command ends: with a status entry (R265), or stopped by a record (R263). -/
inductive EngEnd where
  | status (code detail : Nat) (addr : DWord) (cause : Nat)
  | record (c : Cause) (addr : DWord)
  deriving DecidableEq, Repr

/-- A write of the bytes of a mask to a line: of memory, or of the scratchpad in units of 128 bytes; `part` when it belongs to an
access that failed, any subset of which may have been made. -/
structure EWrite where
  scr : Bool
  line : Nat
  bm : BitVec 128
  x : Line
  cmp : Bool
  part : Bool
  deriving DecidableEq, Repr

/-- A run so far: the device, the bytes read by key (line twice, one more for the scratchpad), the writes, the new tile, the ends
met in order, whether a CHECK record goes out as well, the FP32 rows for the sums. -/
structure ERun where
  d : Dev
  reads : Table (BitVec 128)
  writes : List EWrite
  acc : Option (Nat × BitVec 32768)
  errs : List EngEnd
  rows : List (List Nat)

/-- A run that may have to wait. -/
abbrev ERunM (α : Type) := Except Need α

/-- The pieces of a range by lines of 128 bytes. -/
def spansFrom (p : DWord) : Nat → Nat → List (DWord × Nat)
  | 0, _ => []
  | fuel + 1, n =>
    if n = 0 then []
    else
      let k := min n (128 - bitsOf p 0 7)
      (p, k) :: spansFrom (p + BitVec.ofNat 64 k) fuel (n - k)
def spans (p : DWord) (n : Nat) : List (DWord × Nat) := spansFrom p (n / 128 + 2) n

/-- The line of a pointer. -/
def linePart (p : DWord) : DWord := p &&& ~~~127

/-- An end met. -/
def ERun.fail (r : ERun) (e : EngEnd) : ERun := { r with errs := r.errs ++ [e] }

/-- The checks of R224 steps 2 to 5 on a range: how the command ends, if it does (R264, R265), and where its good pieces lie. An engine's
access is one of bytes, so that step 2 never fails. (DEDUCED: notes/assumptions/25) -/
def engCheck (m : Mgmt) (d : Dev) (c : Cmd) (sp : Nat) (p : DWord) (n : Nat) (store : Bool) :
    ERunM (Option EngEnd × List (DWord × Nat × Leaf × Nat)) :=
  if nonCanon p then .ok (some (.status 5 0 p (xlateCode .noncanon)), [])
  else
    let rs := (spans p n).map fun (q, k) => (q, k, checkAt m d c.ctx sp q k store)
    let needs := rs.filterMap fun x => match x.2.2 with | .error (.need w) => some w | _ => none
    let xl := rs.filterMap fun x => match x.2.2 with | .error (.xlate e) => some (EngEnd.status 5 0 p (xlateCode e)) | _ => none
    let pm := rs.filterMap fun x => match x.2.2 with | .error .perm => some (EngEnd.record .perm (linePart x.1)) | _ => none
    let gd := rs.filterMap fun x => match x.2.2 with | .error .guard => some (EngEnd.status 4 0 p 0) | _ => none
    let da := rs.filterMap fun x => match x.2.2 with | .error .dataerr => some (EngEnd.record .dataerr (linePart x.1)) | _ => none
    match needs with
    | w :: _ => .error w
    | [] =>
      .ok ((xl ++ pm ++ gd ++ da).head?,
        rs.filterMap fun x => match x.2.2 with | .ok (l, pa) => some (x.1, x.2.1, l, pa) | _ => none)

/-- Bytes noted as read. -/
def noteRead (t : Table (BitVec 128)) (key : Nat) (bm : BitVec 128) : Table (BitVec 128) := tset t key (tget t key 0 ||| bm)

/-- `n` bytes read at a pointer, at the slices. (DEDUCED: notes/assumptions/25) -/
def engGlobal (m : Mgmt) (c : Cmd) (sp : Nat) (r : ERun) (p : DWord) (n : Nat) : ERunM (ERun × Option Nat) :=
  match engCheck m r.d c sp p n false with
  | .error w => .error w
  | .ok (some e, _) => .ok (r.fail e, none)
  | .ok (none, ps) =>
    ps.foldlM (fun (a : ERun × Option Nat) (q, k, l, pa) =>
      let line := pa / 128
      let bm := byteMask (pa % 128) k
      match readSlice m c.ctx a.1.d none line l.rp (halvesOf line bm) .rdShared a.1.reads.length with
      | .error (.need w) => .error w
      | .error _ => .ok (a.1.fail (.record .dataerr (linePart q)), none)
      | .ok (x, d1) =>
        let y := takeBytes x (pa % 128) k * 2 ^ (8 * (q - p).toNat)
        .ok ({ a.1 with d := d1, reads := noteRead a.1.reads (2 * line) bm }, a.2.map fun z => z + y)) (r, some 0)

/-- `n` bytes read at a scratch offset. -/
def engScratch (c : Cmd) (r : ERun) (o n : Nat) : ERun × Option Nat :=
  let g := groupOf r.d c.gid
  if hScratchBytes g.header < o + n then (r.fail (.status 3 0 (BitVec.ofNat 64 o) 0), none)
  else
    let reads := (spans (BitVec.ofNat 64 o) n).foldl (fun t (q, k) =>
      noteRead t (2 * (q.toNat / 128) + 1) (byteMask (q.toNat % 128) k)) r.reads
    ({ r with reads := reads }, some (scratchRead g o n))

/-- A source of a command. (DEDUCED: notes/assumptions/25) -/
def engRead (m : Mgmt) (c : Cmd) (sp : Nat) (scr : Bool) (r : ERun) (p : DWord) (n : Nat) : ERunM (ERun × Option Nat) :=
  if scr then .ok (engScratch c r p.toNat n) else engGlobal m c sp r p n

/-- A destination of a command: the writes of `n` bytes. (DEDUCED: notes/assumptions/25) -/
def engWrite (m : Mgmt) (c : Cmd) (sp : Nat) (scr : Bool) (r : ERun) (p : DWord) (n x : Nat) : ERunM ERun :=
  let one (scr : Bool) (q : DWord) (k pos : Nat) (cmp part : Bool) : EWrite :=
    { scr := scr, line := pos / 128, bm := byteMask (pos % 128) k,
      x := atByte (pos % 128) (x / 2 ^ (8 * (q - p).toNat) % 2 ^ (8 * k)), cmp := cmp, part := part }
  if scr then
    let lim := hScratchBytes (groupOf r.d c.gid).header
    let bad := decide (lim < p.toNat + n)
    let ws := (spans p (if bad then lim - p.toNat else n)).map fun (q, k) => one true q k q.toNat false bad
    let r1 := { r with writes := r.writes ++ ws }
    .ok (if bad then r1.fail (.status 3 0 p 0) else r1)
  else
    match engCheck m r.d c sp p n true with
    | .error w => .error w
    | .ok (e, ps) =>
      let gone := ps.filter fun x => !isDevice x.2.2.2 && !linkUp r.d x.2.2.2
      let ends := e.toList ++ gone.map fun x => EngEnd.record .dataerr (linePart x.1)
      let ws := (ps.filter fun x => isDevice x.2.2.2 || linkUp r.d x.2.2.2).map fun (q, k, l, pa) =>
        one false q k pa l.cmp (!ends.isEmpty)
      .ok { r with writes := r.writes ++ ws, errs := r.errs ++ ends.take 1 }

/-! ## The copy engine (R269 to R271, R219 to R222) -/

/-- A pointer or scratch offset advanced. (DEDUCED: notes/assumptions/25) -/
def advancePtr (p : DWord) (n : Nat) : DWord := p + BitVec.ofNat 64 n

/-- The source row of destination row `i`: the row itself, or the one the index list names (R271). -/
def sourceRow (m : Mgmt) (c : Cmd) (sp : Nat) (r : ERun) (i : Nat) : ERunM (ERun × Option Nat) :=
  if c.op = 0x51 then
    let ia := advancePtr (c.block.extractLsb' 320 64) (4 * i)
    match engGlobal m c sp r ia 4 with
    | .error w => .error w
    | .ok (r1, none) => .ok (r1, none)
    | .ok (r1, some j) =>
      if bitsOf c.block 384 32 ≤ j then .ok (r1.fail (.status 3 0 ia 0), none) else .ok (r1, some j)
  else .ok (r, some i)

/-- One row copied. -/
def copyRow (m : Mgmt) (c : Cmd) (sp : Nat) (r : ERun) (i : Nat) : ERunM ERun :=
  let b := c.block
  let cols := bitsOf b 192 16
  let sf := efmtD (bitsOf b 228 4)
  let df := efmtD (bitsOf b 232 4)
  let dg := bitsOf b 236 2
  let sg := bitsOf b 238 2
  let same := bitsOf b 228 4 == bitsOf b 232 4 && sg == dg
  let sat := b.getLsbD 247
  match sourceRow m c sp r i with
  | .error w => .error w
  | .ok (r1, none) => .ok r1
  | .ok (r1, some j) =>
    let sa := advancePtr (b.extractLsb' 0 64) (j * bitsOf b 128 32)
    match engRead m c sp (b.getLsbD 244) r1 sa (rowBytes sf sg cols) with
    | .error w => .error w
    | .ok (r2, none) => .ok r2
    | .ok (r2, some x) =>
      let fromInt := match sf with | .int _ => true | _ => false
      let at_ := advancePtr sa
      let src := if same then ([], []) else rowVals c.nlt sf sg cols x at_
      let y := if same then x else packRow (elemBits df) (src.1.map (encElem df sat fromInt))
      let chk := if b.getLsbD 246 then rowVals c.nlt df dg cols y at_ else ([], [])
      match src.2 ++ chk.2 with
      | e :: es => .ok ((e :: es).foldl (fun r a => r.fail (.record .selector a)) r2)
      | [] =>
        let n := rowBytes df dg cols
        let z := if b.getLsbD 243 then swzPut (bitsOf b 240 3) i n y else y
        let r3 := if b.getLsbD 246 then { r2 with rows := r2.rows ++ [chk.1.map rne32] } else r2
        engWrite m c sp (b.getLsbD 245) r3 (advancePtr (b.extractLsb' 64 64) (i * bitsOf b 160 32)) n z

/-- CPY and CPYG. -/
def runCopy (m : Mgmt) (c : Cmd) (sp : Nat) (r : ERun) : ERunM ERun :=
  let b := c.block
  match (List.range (bitsOf b 208 16)).foldlM (copyRow m c sp) r with
  | .error w => .error w
  | .ok r1 =>
    if b.getLsbD 246 && r1.errs.isEmpty then
      let sums := checkSums (bitsOf b 192 16) r1.rows
      engWrite m c sp (b.getLsbD 245) r1 (b.extractLsb' 256 64) (4 * sums.length) (packRow 32 sums)
    else .ok r1

/-- CPYD: chunk after chunk until one is not good or an access fails (R221). `at_` is the header's address.
(DESIGN CHOICE: notes/assumptions/26) -/
def runChunks (m : Mgmt) (c : Cmd) (sp : Nat) (r : ERun) (at_ : DWord) (i : Nat) : Nat → ERunM ERun
  | 0 => .ok r
  | left + 1 =>
    let scr := c.block.getLsbD 244
    let bad (r : ERun) : ERunM ERun := .ok (r.fail (.status 1 i 0 0))
    match engRead m c sp scr r at_ 32 with
    | .error w => .error w
    | .ok (r1, none) => .ok r1
    | .ok (r1, some hdr) =>
      let len := hdr / 2 ^ 160 % 2 ^ 32
      if (chunkLines hdr 0).isNone then bad r1
      else
        match engRead m c sp scr r1 (advancePtr at_ 32) len with
        | .error w => .error w
        | .ok (r2, none) => .ok r2
        | .ok (r2, some payload) =>
          match chunkBytes hdr payload with
          | none => bad r2
          | some x =>
            match engWrite m c sp (c.block.getLsbD 245) r2 (advancePtr (c.block.extractLsb' 64 64) (4096 * i)) 4096 x with
            | .error w => .error w
            | .ok r3 =>
              if r3.errs.isEmpty then runChunks m c sp r3 (advancePtr at_ ((32 + len + 31) / 32 * 32)) (i + 1) left else .ok r3

/-! ## The matrix engine (R274 to R277) -/

/-- A tile read through its descriptor (R272): the values of each row all of whose headers are good.
(DESIGN CHOICE: notes/assumptions/26) -/
def readTile (c : Cmd) (r : ERun) (t : BitVec 128) (cols : Nat) : ERun × List (Option (List FVal)) :=
  let g := groupOf r.d c.gid
  let f := efmtD (tdFmt t)
  let n := rowBytes f (tdG t) cols
  let lim := hScratchBytes g.header
  if lim < tdOff t + 31 * tdPitch t + n then (r.fail (.status 3 0 (BitVec.ofNat 64 (tdOff t)) 0), [])
  else
    let pos (i b : Nat) : Nat := tdOff t + i * tdPitch t + (if t.getLsbD 60 then swzPos (bitsOf t 61 3) i b else b)
    let byte (i b : Nat) : Nat :=
      if pos i b < lim then scratchRead g (pos i b) 1 else (freeVal r.d (30000 + 65536 * i + b)).toNat % 256
    let vals := (List.range 32).map fun i =>
      rowVals c.nlt f (tdG t) cols ((List.range n).foldl (fun x b => x + byte i b * 2 ^ (8 * b)) 0)
        fun b => BitVec.ofNat 64 (pos i b)
    ((vals.flatMap fun v => v.2).foldl (fun r a => r.fail (.record .selector a)) r,
      vals.map fun v => if v.2.isEmpty then some v.1 else none)

/-- Two parts of a row, if both were read. -/
def joinRow : Option (List FVal) × Option (List FVal) → Option (List FVal)
  | (some a, some b) => some (a ++ b)
  | _ => none

/-- An operand: one tile, or one continued in a second (R274). -/
def readOperand (c : Cmd) (r : ERun) (t t2 : BitVec 128) (k : Nat) : ERun × List (Option (List FVal)) :=
  if k ≤ 256 then readTile c r t k
  else
    let x := readTile c r t 256
    let y := readTile c x.1 t2 (k - 256)
    (y.1, (x.2.zip y.2).map joinRow)

/-- The accumulator tile of the issuing skein. -/
def accTile (d : Dev) (c : Cmd) (i : Nat) : BitVec 32768 := tget (skeinOf d c.skein).acc i 0

/-- The K column sums of an operand (R277). -/
def columnSums (c : Cmd) (r : ERun) (base k : Nat) : ERun × Option (List Nat) :=
  let lim := hScratchBytes (groupOf r.d c.gid).header
  let one (r : ERun) (o n : Nat) : ERun × Option (List Nat) :=
    if lim < o + 4 * n then (r.fail (.status 3 0 (BitVec.ofNat 64 (max o lim)) 0), none)
    else
      match engScratch c r o (4 * n) with
      | (r1, some x) => (r1, some ((List.range n).map fun i => x / 2 ^ (32 * i) % 2 ^ 32))
      | (r1, none) => (r1, none)
  match one r (base + 128) (min k 256) with
  | (r1, none) => (r1, none)
  | (r1, some a) =>
    if k ≤ 256 then (r1, some a)
    else
      match one r1 (base + 1280) (k - 256) with
      | (r2, some b) => (r2, some (a ++ b))
      | (r2, none) => (r2, none)

/-- Operand A of MXC: accumulator tile ACCS through the down-converter (R274, R275). -/
def accOperand (c : Cmd) (d : Dev) : List (Option (List FVal)) :=
  let b := c.block
  let cg := bitsOf b 26 2
  let f := efmtD (bitsOf b 22 4)
  let (n, ps) := downConvert c.nlt (bitsOf b 22 4) cg (bitsOf b 28 4) (accTile d c (bitsOf b 13 5))
  let cols := match f with | .stw _ => gOf cg | _ => 32
  let flat := ps.flatMap fun p => (rowVals c.nlt f cg cols (p % 2 ^ (8 * n)) fun _ => 0).1
  (List.range 32).map fun i => some ((flat.drop (32 * i)).take 32)

/-- The check of a product whose operands were read whole (R277). -/
def checkProduct (c : Cmd) (r : ERun) (k : Nat) (a bt : List (List FVal)) (before after : BitVec 32768) : ERun :=
  match columnSums c r (bitsOf c.block 192 64) k with
  | (r1, none) => r1
  | (r1, some ca) =>
    match columnSums c r1 (bitsOf c.block 256 64) k with
    | (r2, none) => r2
    | (r2, some cb) =>
      let n := abftMisses (bitsOf c.block 64 32) k a bt ca cb before after
      if n = 0 then r2 else r2.fail (.status 2 n 0 0)

/-- MXA and MXC. -/
def runProduct (c : Cmd) (r : ERun) : ERun :=
  let b := c.block
  let k := 32 * kChunks b
  let dst := bitsOf b 8 5
  let before := accTile r.d c dst
  let td (i : Nat) : BitVec 128 := c.tds.getD i 0
  let x := if c.op = 0x53 then readOperand c r (td 0) (td 2) k else (r, accOperand c r.d)
  let y := if c.op = 0x53 then readOperand c x.1 (td 1) (td 3) k else readTile c x.1 (td 0) 32
  let after := product before x.2 y.2 (k / 32)
  let r1 := { y.1 with acc := some (dst, after) }
  if c.op = 0x53 && b.getLsbD 40 && r1.errs.isEmpty then
    checkProduct c r1 k (x.2.map fun v => v.getD []) (y.2.map fun v => v.getD []) before after
  else r1

/-- MXLD: row i of the tile from ADDR + i·PITCH, FP32 rows as they are; a row that cannot be read leaves the tile's. -/
def runLoad (m : Mgmt) (c : Cmd) (sp : Nat) (r : ERun) : ERunM ERun :=
  let b := c.block
  let dst := bitsOf b 8 5
  let f := efmtD (bitsOf b 22 4)
  let n := rowBytes f 0 32
  let old := accRows (accTile r.d c dst)
  let row (x : Nat) : List Nat :=
    if bitsOf b 22 4 = 0 then (List.range 32).map fun j => x / 2 ^ (32 * j) % 2 ^ 32
    else (rowVals c.nlt f 0 32 x fun _ => 0).1.map rne32
  let res : ERunM (ERun × List (List Nat)) :=
    (List.range 32).foldlM (fun (a : ERun × List (List Nat)) i =>
      match engRead m c sp (b.getLsbD 42) a.1 (advancePtr (b.extractLsb' 128 64) (i * bitsOf b 96 32)) n with
      | .error w => .error w
      | .ok (r1, some x) => .ok (r1, a.2 ++ [row x])
      | .ok (r1, none) => .ok (r1, a.2 ++ [old.getD i []])) (r, [])
  res.map fun a => { a.1 with acc := some (dst, accOf a.2) }

/-- MXST: the down-converted tile, or its FP32 rows. -/
def runStore (m : Mgmt) (c : Cmd) (sp : Nat) (r : ERun) : ERunM ERun :=
  let b := c.block
  let (n, ps) := downConvert c.nlt (bitsOf b 22 4) (bitsOf b 26 2) (bitsOf b 28 4) (accTile r.d c (bitsOf b 8 5))
  ps.zipIdx.foldlM (fun r (x, i) =>
    engWrite m c sp (b.getLsbD 42) r (advancePtr (b.extractLsb' 128 64) (i * bitsOf b 96 32)) n x) r

/-- A command run on a device (R258 to R277). A malformed one reads and writes nothing. (DESIGN CHOICE: notes/assumptions/23) -/
def runCmd (m : Mgmt) (d : Dev) (c : Cmd) : ERunM ERun :=
  let g := groupOf d c.gid
  let sp := spindleNo g
  let r : ERun := { d := d, reads := [], writes := [], acc := none, errs := [], rows := [] }
  if cmdBad g c then .ok (r.fail (.status 3 0 c.blockAddr 0))
  else
    match c.op with
    | 0x50 => runCopy m c sp r
    | 0x51 => runCopy m c sp r
    | 0x52 => runChunks m c sp r (c.block.extractLsb' 0 64) 0 (bitsOf c.block 416 32)
    | 0x53 => .ok (runProduct c r)
    | 0x54 => .ok (runProduct c r)
    | 0x55 => .ok { r with acc := some (bitsOf c.block 8 5, 0) }
    | 0x56 => runLoad m c sp r
    | _ => runStore m c sp r

/-- How a run ends: OK, or the first end met; of several SELECTOR headers a free one (R296). (DESIGN CHOICE: notes/assumptions/23) -/
def runEnd (r : ERun) : EngEnd :=
  match r.errs with
  | [] => .status 0 0 0 0
  | .record .selector a :: _ =>
    let hs := r.errs.filterMap fun e => match e with | .record .selector x => some x | _ => none
    .record .selector (hs.getD (freeBelow r.d 29000 hs.length) a)
  | e :: _ => e

/-- Whether an end leaves every write of the command made: OK and CHECK, and of CPYD always the chunks released (R221, R265). -/
def endsWhole (op : Nat) : EngEnd → Bool
  | .status 0 _ _ _ => true
  | .status 2 _ _ _ => true
  | _ => op == 0x52

end Sys2Proof.Machine
end

