-- ==== Sys2Proof/Machine/Engines.lean ====
section
/-!
DEFINITION. The instructions around the engines (R280 to R290, R295) and the engines' own events: a command starts, completes or
stops (R258, R260, R263, R265, R266).
-/

namespace Sys2Proof.Machine

/-! ## Handing a command over (R259, R263, R282) -/

/-- The tags of a group's range as a mask (R21). -/
def tagRange (g : Group) : DWord :=
  BitVec.ofNat 64 ((List.range (hTagCnt g.header)).map fun i => 2 ^ (hTagBase g.header + i)).sum

/-- One bit of a 64-bit mask. -/
def bit64 (i : Nat) : DWord := BitVec.ofNat 64 (2 ^ i)

/-- The engine of a spindle for a command: even copy, odd matrix. -/
def engineOf (sp op : Nat) : Nat := 2 * sp + (if 0x53 ≤ op then 1 else 0)
def engine (d : Dev) (e : Nat) : Engine := tget d.engines e { queue := [], running := false, owned := [] }
def setEngine (d : Dev) (e : Nat) (x : Engine) : Dev :=
  { d with engines := tput d.engines e x { queue := [], running := false, owned := [] } }

/-- A command taken by its engine: the tag's bit clear and the tag busy. (DEDUCED: notes/assumptions/27) -/
def submit (d : Dev) (c : Cmd) : Dev :=
  let g := groupOf d c.gid
  let e := engineOf (spindleNo g) c.op
  let d1 := modGroup d c.gid fun g => { g with tags := g.tags &&& ~~~(bit64 c.tag), busy := g.busy ||| bit64 c.tag }
  let x := engine d1 e
  let d2 := setEngine d1 e { x with queue := x.queue ++ [c] }
  if x.queue.isEmpty then post d2 (.engineStart e) else d2

/-- The descriptors that a skein's command reads, and whether one is pending in a deterministic context (R99, R280). -/
def cmdTds (g : Group) (op : Nat) (blk : BitVec 512) : List Nat :=
  if blockBad op (hAcct g.header) blk then [] else (cmdDescs op blk).map fun x => x.1
def cmdHazard (m : Mgmt) (d : Dev) (u op : Nat) (blk : BitVec 512) : Bool :=
  let g := groupOf d (skeinOf d u).gid
  isDet m g.ctx && (cmdTds g op blk).any (pendT (skeinOf d u))

/-- A skein's command at `pc` whose tag is free: it releases, reads its descriptors and goes to its engine (R282).
(DEDUCED: notes/assumptions/27) -/
def sendCmd (m : Mgmt) (d : Dev) (u : Nat) (pc : DWord) (op tag : Nat) (rel : Bool) (addr : DWord) (blk : BitVec 512) : MemM Dev :=
  let g := groupOf d (skeinOf d u).gid
  (if rel then releaseAt m d g.ctx (spindleNo g) 3 else .ok d).map fun d1 =>
    submit d1
      { op := op, block := blk, blockAddr := addr, tag := tag, skein := u, gid := g.gid, ctx := g.ctx, pc := pc,
        tds := (cmdTds g op blk).map (readT d (skeinOf d u)), nlt := (ctxOf m g.ctx).nlt }

/-- A command whose block has been read on `d1`, which it keeps when it parks on a busy tag (R259, R282).
(DEDUCED: notes/assumptions/27) -/
def handOver (m : Mgmt) (d d1 : Dev) (op tag : Nat) (rel : Bool) (addr : DWord) (blk : BitVec 512) : Res :=
  let u := d.cur.skein
  if (curGroup d).busy.getLsbD tag then .park d1 (.tag tag op rel addr blk)
  else if cmdHazard m d u op blk then .fault (uniFault d .hazard 0)
  else
    match sendCmd m d1 u d.cur.pc op tag rel addr blk with
    | .error e => waitRes d e (faultAt .dataerr 0 d.cur.lanes)
    | .ok d2 => .done d2

/-- The device a command's block is read on: not yet moved on when it will park. -/
def cmdBase (d da : Dev) (tag : Nat) : Dev := if (curGroup d).busy.getLsbD tag then d else da

/-- A command whose block lies in memory at `p`: a fault of the read names `p` (R282). -/
def commandAt (m : Mgmt) (d da : Dev) (op tag : Nat) (rel : Bool) (p : DWord) : Res :=
  wordFault p (bundleLoad m d (cmdBase d da tag) p 64 0 [] false fun x d1 _ => handOver m d d1 op tag rel p (BitVec.ofNat 512 x))

/-- A command instruction (R280, R282). (DEDUCED: notes/assumptions/27) -/
def commandInstr (m : Mgmt) (d : Dev) (op : Nat) (o : Ue) : Dev :=
  let scr := o.sub.getLsbD 1
  let rel := o.sub.getLsbD 0
  let tag := o.tag.toNat
  uniIssue m d (hdUe o 4 [.s o.sp (if scr then 1 else 2)]) fun da =>
    if scr then
      let a := (uniReader d o.sp.toNat).toNat
      let g := curGroup d
      if a % 64 != 0 then .fault (uniFault d .align (BitVec.ofNat 64 a))
      else if hScratchBytes g.header < a + 64 then .fault (uniFault d .bounds (BitVec.ofNat 64 a))
      else handOver m d (cmdBase d da tag) op tag rel (BitVec.ofNat 64 a) (BitVec.ofNat 512 (scratchRead g a 64))
    else commandAt m d da op tag rel (readS64 d (curSkein d) o.sp.toNat)

/-- CPY (R269). -/
def execCpy (o : Ue) (s : State) : Host.Outcome State Fault Refusal := s.run fun m d => commandInstr m d 0x50 o

/-- CPYG (R271). -/
def execCpyg (o : Ue) (s : State) : Host.Outcome State Fault Refusal := s.run fun m d => commandInstr m d 0x51 o

/-- CPYD (R271). -/
def execCpyd (o : Ue) (s : State) : Host.Outcome State Fault Refusal := s.run fun m d => commandInstr m d 0x52 o

/-- MXA (R274). -/
def execMxa (o : Ue) (s : State) : Host.Outcome State Fault Refusal := s.run fun m d => commandInstr m d 0x53 o

/-- MXC (R274). -/
def execMxc (o : Ue) (s : State) : Host.Outcome State Fault Refusal := s.run fun m d => commandInstr m d 0x54 o

/-- MXZ (R276). -/
def execMxz (o : Ue) (s : State) : Host.Outcome State Fault Refusal := s.run fun m d => commandInstr m d 0x55 o

/-- MXLD (R276). -/
def execMxld (o : Ue) (s : State) : Host.Outcome State Fault Refusal := s.run fun m d => commandInstr m d 0x56 o

/-- MXST (R276). -/
def execMxst (o : Ue) (s : State) : Host.Outcome State Fault Refusal := s.run fun m d => commandInstr m d 0x57 o

/-! ## Tags (R287 to R290) -/

/-- Whether a wait on a mask of tags is satisfied. -/
def tagsReady (g : Group) (x : DWord) (any : Bool) : Bool :=
  let w := x &&& tagRange g
  let ready := g.tags &&& ~~~g.busy
  w == 0 || (if any then w &&& ready != 0 else w &&& ~~~ready == 0)

/-- TWAIT (R287): it ends no region. -/
def execTwait (o : Ue) (s : State) : Host.Outcome State Fault Refusal :=
  s.run fun m d =>
    let g := curGroup d
    let x := readS64 d (curSkein d) o.sp.toNat
    let any := o.sub.getLsbD 0
    uniIssue m d { hdUe o 4 [.s o.sp 2] with ends := 0 } fun da =>
      if x &&& tagRange g == 0 then .done da
      else if tagsReady g x any then opRes d (acquireAt m da (curCtx d) (curSpindle d) 3)
      else .park d (.twait x any)

/-- The lowest set bit of a mask, or 64. -/
def lowestBit (x : DWord) : Nat := ((List.range 64).find? fun i => x.getLsbD i).getD 64

/-- TFIRST (R288, R290). -/
def execTfirst (o : Lr) (s : State) : Host.Outcome State Fault Refusal :=
  s.run fun m d =>
    let g := curGroup d
    let x := readS64 d (curSkein d) o.a.toNat
    uniIssue m d (hdXm o.w (lenOf o.xm) (lrXm o 14) [.s o.a 2]) fun da =>
      if isDet m (curCtx d) then .fault (detRead d.cur.lanes false o.d.toNat 1)
      else .done (addPend da d.cur.skein latUni (res1 wrS o.d (lowestBit (x &&& tagRange g &&& g.tags))))

/-- The status entry of R265 as it is read and written. -/
def statusEntry (tag code detail : Nat) (addr : DWord) (cause : Nat) : BitVec 128 :=
  BitVec.ofNat 128 (code % 256 + 256 * (cause % 16) + 2 ^ 16 * tag + 2 ^ 32 * (detail % 2 ^ 32) + 2 ^ 64 * addr.toNat)

/-- TSTAT (R289, R290). -/
def execTstat (o : Lk) (s : State) : Host.Outcome State Fault Refusal :=
  s.run fun m d =>
    let g := curGroup d
    let det := isDet m (curCtx d)
    let imm := (immOf o false).toNat
    let tag := imm % 64
    uniIssue m d (hd o.w (lenOf o.xl) []) fun da =>
      if imm / 128 % 2 = 1 then
        if det then .fault (detRead d.cur.lanes false o.d.toNat 2)
        else .done (addPend da d.cur.skein latUni (splitRegs wrS o.d.toNat (g.tags &&& tagRange g).toNat 2))
      else if det && !g.tags.getLsbD tag then .fault (detRead d.cur.lanes false o.d.toNat 4)
      else
        let e := tget g.status tag (statusEntry tag 0 0 0 0)
        .done (addPend da d.cur.skein latUni (splitRegs wrS o.d.toNat e.toNat 4))

/-- TDESC (R295). -/
def execTdesc (o : Ue) (s : State) : Host.Outcome State Fault Refusal :=
  s.run fun m d =>
    uniIssue m d (hdUe o 4 [.s o.sp 4]) fun da =>
      let x := BitVec.ofNat 128 (joinRegs (uniReader d) o.sp.toNat 4)
      .done (addPend da d.cur.skein latUni [.t (o.tag.toNat % 16) x])

/-! ## Effects of a run -/

/-- Free bytes of a line, and a free mask. -/
def freeLine (d : Dev) (k : Nat) : Line :=
  BitVec.ofNat 1024 ((List.range 16).foldl (fun x i => x + (freeVal d (k + i)).toNat * 2 ^ (64 * i)) 0)
def freeMask (d : Dev) (k : Nat) : BitVec 128 := BitVec.ofNat 128 ((freeVal d k).toNat + 2 ^ 64 * (freeVal d (k + 1)).toNat)

/-- Bytes of a mask put into a scratchpad. -/
def scratchMerge (g : Group) (line : Nat) (bm : BitVec 128) (x : Line) : Group :=
  { g with
    scratch := (List.range 128).foldl (fun t i =>
      if bm.getLsbD i then memSet t (128 * line + i) (x.extractLsb' (8 * i) 8) else t) g.scratch }

/-- The writes made: bytes that the command also reads are undefined (R262); of a stopped command any subset is made (R265); of
bytes written twice either write remains. -/
def applyWrites (m : Mgmt) (c : Cmd) (whole : Bool) (r : ERun) : ERunM Dev :=
  let step (a : Dev × Table (BitVec 128) × Nat) (w : EWrite) : ERunM (Dev × Table (BitVec 128) × Nat) :=
    let (d, seen, k) := a
    let key := 2 * w.line + (if w.scr then 1 else 0)
    let x := overlay w.x (freeLine r.d k) (tget r.reads key 0)
    let made := if whole && !w.part then w.bm else w.bm &&& freeMask r.d (k + 16)
    let bm := made &&& ~~~(tget seen key 0 &&& freeMask r.d (k + 18))
    let seen1 := noteRead seen key made
    if w.scr then .ok (modGroup d c.gid fun g => scratchMerge g w.line bm x, seen1, k + 20)
    else
      match writeSlice m c.ctx d none w.line bm x w.cmp with
      | .ok d1 => .ok (d1, seen1, k + 20)
      | .error (.need n) => .error n
      | .error _ => .ok (d, seen1, k + 20)
  (r.writes.foldlM step (r.d, [], 3000000)).map fun a => a.1

/-- The accumulator tile after a run; of a stopped command each element is old or new (R265). (DESIGN CHOICE: notes/assumptions/23) -/
def applyAcc (c : Cmd) (whole : Bool) (r : ERun) (d : Dev) : Dev :=
  match r.acc with
  | none => d
  | some (i, t) =>
    let old := accTile r.d c i
    let mixed : List (List Nat) := (List.range 32).map fun a => (List.range 32).map fun b =>
      accElem (if freeBit r.d (4000000 + 32 * a + b) then old else t) a b
    modSkein d c.skein fun s => { s with acc := tset s.acc i (if whole then t else accOf mixed) }

/-- A line of memory taken by an engine (R260): every other copy acknowledged, the form expanded, unless it says that the content cannot
be read (R218). (DESIGN CHOICE: notes/assumptions/23) -/
def engTake (m : Mgmt) (ctx : Nat) (d : Dev) (line : Nat) : MemM Dev :=
  let pa := 128 * line
  let halves := [2 * line, 2 * line + 1]
  if engineOwns d line then .error (.need (.owned line))
  else
    match recallOwner m ctx d none line with
    | .error e => .error e
    | .ok d1 =>
      match invalidateOthers m ctx d1 none line with
      | .error e => .error e
      | .ok d2 =>
        if isDevice pa then
          (snoopNeed d2 true halves).map fun _ =>
            markWritten { d2 with
              hostState := halves.foldl tdel d2.hostState,
              forms := if badForm (formOf d2 line) then d2.forms else tdel d2.forms line } line
        else if isHost pa then
          (hostNeed d2 .rdOwn halves).map fun _ =>
            { d2 with halves := modWhere (fun h => halves.contains h.1) (fun h => (h.1, { h.2 with st := .m })) d2.halves }
        else .ok d2

/-- The memory lines a run writes. -/
def writtenLines (r : ERun) : List Nat := ((r.writes.filter fun w => !w.scr).map fun w => w.line).dedup

/-- CMP of the last of some writes to a line, if one is to it. -/
def cmpOf (ws : List EWrite) (line : Nat) (dflt : Bool) : Bool :=
  ws.foldl (fun b w => if !w.scr && w.line == line then w.cmp else b) dflt

/-- The lines a run takes, each with the CMP of its mapping (R217, R260). -/
def takenLines (r : ERun) : List (Nat × Bool) := (writtenLines r).map fun l => (l, cmpOf r.writes l false)

/-- Lines given up compressed again, those of no write among them (R217). -/
def giveUp (d : Dev) (owned : List (Nat × Bool)) (ws : List EWrite) : Dev :=
  owned.foldl (fun d o => recompress d o.1 (cmpOf ws o.1 o.2)) d

/-- The accesses that waited for lines given up go on (R260). -/
def endOwned (d : Dev) (owned : List (Nat × Bool)) : Dev :=
  owned.foldl (fun d o => resumeHalf (wakeAll d fun p => match p with | .recall q => q == o.1 | _ => false) (2 * o.1)) d

/-! ## The end of a command (R263, R265, R266) -/

/-- A record of an engine (R218, R251, R264, R277): the skein stops at its next instruction boundary, its park as it is. -/
def engRecord (m : Mgmt) (d : Dev) (c : Cmd) (cause : Cause) (addr : DWord) : Dev :=
  let k := skeinOf d c.skein
  let (i, d1) := fresh d
  let d2 := modSkein d1 c.skein fun k => { k with stops := k.stops ++ [i] }
  addRecord m d2 (recGroup (groupOf d k.gid) k
    { blankRec i c.ctx cause with addr := addr, pc := c.pc, eng := true })

/-- A status entry delivered to the skein's status stream (R279, R294). -/
def deliverStatus (d : Dev) (c : Cmd) (e : BitVec 128) : Dev :=
  let ep := if 0x53 ≤ c.op then 4 else 5
  let upd (q : QReg) : QReg :=
    if q.bound && q.ep == ep then
      if q.elems.length < 64 then { q with elems := q.elems ++ [e.extractLsb' 0 64] } else { q with ovf := true }
    else q
  modSkein d c.skein fun k =>
    { k with q := k.q.map upd, park := match k.park with | some .queue => none | p => p }

/-- A command that waited for its tag goes on with the block that was read (R282). -/
def resumeCmd (m : Mgmt) (d : Dev) (u op tag : Nat) (rel : Bool) (addr : DWord) (blk : BitVec 512) : MemM Dev :=
  let k := skeinOf d u
  let pc := (threadOf k ((lanesOf k.parkLanes).headD 0)).pc
  if cmdHazard m d u op blk then .ok (takeFault m (wake d u) u pc k.parkNext k.parkLanes (faultAt .hazard 0 k.parkLanes))
  else (sendCmd m d u pc op tag rel addr blk).map fun d1 => unpark d1 u

/-- The skeins of a group that wait on tags looked at again: a command that waited for a tag goes on, a satisfied TWAIT completes with
its acquire (R266, R287). (DEDUCED: notes/assumptions/27) -/
def wakeTags (m : Mgmt) (d : Dev) (gid : Nat) : MemM Dev :=
  let one (d : Dev) (k : Skein) : MemM Dev :=
    let g := groupOf d gid
    match k.park with
    | some (.tag t op rel addr blk) => if g.busy.getLsbD t then .ok d else resumeCmd m d k.uid op t rel addr blk
    | some (.twait x any) =>
      if tagsReady g x any then (acquireAt m d g.ctx (spindleNo g) 3).map fun d1 => unpark d1 k.uid else .ok d
    | _ => .ok d
  if (groupOf d gid).killed then .ok d else (skeinsOf d gid).foldlM one d

/-- What an end leaves: the status entry, then the tag's bit; a record; the tag free in every case. -/
def tagEnd (m : Mgmt) (d : Dev) (c : Cmd) (e : EngEnd) : Dev :=
  let free (d : Dev) : Dev := modGroup d c.gid fun g => { g with busy := g.busy &&& ~~~(bit64 c.tag) }
  match e with
  | .status code detail addr cause =>
    let x := statusEntry c.tag code detail addr cause
    let d1 := free (modGroup d c.gid fun g => { g with status := tset g.status c.tag x, tags := g.tags ||| bit64 c.tag })
    let d2 := deliverStatus d1 c x
    if code == 2 && c.block.getLsbD 41 then engRecord m d2 c .check 0 else d2
  | .record cause addr => engRecord m (free d) c cause addr

/-- The head command of an engine ended with its effects; of a context that is not enabled it stands still (R184). `ev` is the
event that ends it. (DEDUCED: notes/assumptions/27) -/
def endCommand (m : Mgmt) (d : Dev) (e : Nat) (ev : Instr) : Dev :=
  let x := engine d e
  match x.running, x.queue with
  | true, c :: rest =>
    let d0 := setEngine d e { x with owned := [] }
    let res : ERunM Dev :=
      match runCmd m d0 c with
      | .error w => .error w
      | .ok r =>
        let fin := runEnd r
        let whole := endsWhole c.op fin
        match applyWrites m c whole r with
        | .error w => .error w
        | .ok d1 =>
          let d2 := tagEnd m (giveUp (applyAcc c whole r d1) x.owned r.writes) c fin
          let d3 := setEngine d2 e { queue := rest, running := false, owned := [] }
          match wakeTags m d3 c.gid with
          | .error (.need w) => .error w
          | .error _ => .ok d3
          | .ok d4 => .ok d4
    if !ctxEnabled m c.ctx then d
    else
      match res with
      | .error w => defer d w ev
      | .ok d1 =>
        let d3 := tryRetire (endOwned d1 x.owned) c.gid
        if rest.isEmpty then d3 else post d3 (.engineStart e)
  | _, _ => d

/-- Whether an event ends the command of an engine, and whether one is on its way. -/
def endsEngine (e : Nat) (v : Instr) : Bool := v == .engineComplete e || v == .engineStop e
def endDue (d : Dev) (e : Nat) : Bool :=
  (d.timers.any fun t => endsEngine e t.ev) || d.agenda.any (endsEngine e) || d.deferred.any fun v => endsEngine e v.2

/-- The engines whose next command is of a context that has become enabled go on (R184). (DEDUCED: notes/assumptions/27) -/
def retryEngines (d : Dev) (ctx : Nat) : Dev :=
  d.engines.foldl (fun d e =>
    match e.2.queue with
    | c :: _ =>
      if c.ctx != ctx then d
      else if !e.2.running then postNew d (.engineStart e.1)
      else if endDue d e.1 then d
      else post d (.engineComplete e.1)
    | [] => d) d

/-! ## The engines' events -/

/-- ENGINE_START (R258, R260): the next command takes its destination lines and ends some time later; one that meets a record stops.
A command of a context that is not enabled waits until it is (R184).
(DESIGN CHOICE: notes/assumptions/23; DEDUCED: notes/assumptions/27) -/
def execEngineStart (eng : Nat) (s : State) : Host.Outcome State Fault Refusal :=
  s.run fun m d =>
    let x := engine d eng
    match x.running, x.queue with
    | false, c :: _ =>
      if !ctxEnabled m c.ctx then d
      else
      match runCmd m d c with
      | .error w => defer d w (.engineStart eng)
      | .ok r =>
        let taken : MemM Dev := (writtenLines r).foldlM (fun d l => engTake m c.ctx d l) d
        match taken with
        | .error (.need w) => defer d w (.engineStart eng)
        | .error _ => post (setEngine d eng { x with running := true }) (.engineStop eng)
        | .ok d1 =>
          let d2 := setEngine d1 eng { x with running := true, owned := takenLines r }
          let ev : Instr := match runEnd r with | .record _ _ => .engineStop eng | _ => .engineComplete eng
          if cmdBad (groupOf d c.gid) c then post d2 ev
          else postAfter d2 (.die (groupOf d c.gid).die) (1 + freeBelow d 29001 65536) ev
    | _, _ => d

/-- ENGINE_COMPLETE (R263). (DESIGN CHOICE: notes/assumptions/23) -/
def execEngineComplete (eng : Nat) (s : State) : Host.Outcome State Fault Refusal :=
  s.run fun m d => endCommand m d eng (.engineComplete eng)

/-- ENGINE_STOP (R218, R251, R263, R264). (DESIGN CHOICE: notes/assumptions/23) -/
def execEngineStop (eng : Nat) (s : State) : Host.Outcome State Fault Refusal :=
  s.run fun m d => endCommand m d eng (.engineStop eng)

/-! ## Commands of a killed group (R449) -/

/-- An accumulator tile of free values. -/
def freeTile (d : Dev) (k : Nat) : BitVec 32768 :=
  accOf ((List.range 32).map fun a => (List.range 32).map fun b => (freeWord d (k + 32 * a + b)).toNat)

/-- The destinations of a command made undefined, in memory, in the scratchpad and in the accumulator, and its tag free; `n` tells the
commands of one skein apart. (DESIGN CHOICE: notes/assumptions/23, 53) -/
def ruinCommand (m : Mgmt) (d : Dev) (c : Cmd) (n : Nat) : MemM Dev :=
  let base := 2 ^ 80 * (c.skein + 1) + 2 ^ 40 * n
  match runCmd m d c with
  | .error w => .error (.need w)
  | .ok r =>
    let one (d : Dev) (x : EWrite × Nat) : MemM Dev :=
      let w := x.1
      let l := freeLine r.d (base + 16 * x.2)
      if w.scr then .ok (modGroup d c.gid fun g => scratchMerge g w.line w.bm l)
      else
        match writeSlice m c.ctx d none w.line w.bm l w.cmp with
        | .error (.need q) => .error (.need q)
        | .error _ => .ok d
        | .ok d1 => .ok d1
    (r.writes.zipIdx.foldlM one d).map fun d1 =>
      let d2 := match r.acc with
        | some (i, _) => modSkein d1 c.skein fun s => { s with acc := tset s.acc i (freeTile r.d (base + 2 ^ 24)) }
        | none => d1
      modGroup d2 c.gid fun g => { g with busy := g.busy &&& ~~~(bit64 c.tag) }

/-- Every command that a test names dropped, and the tags they held looked at. (DESIGN CHOICE: notes/assumptions/53) -/
def dropCommands (m : Mgmt) (d : Dev) (f : Cmd → Bool) : MemM Dev :=
  let mine := d.engines.filter fun e => e.2.queue.any f
  let gids := (mine.flatMap fun e => (e.2.queue.filter f).map fun c => c.gid).dedup
  let dropped : MemM Dev := mine.zipIdx.foldlM (fun d (e, j) =>
    let x := engine d e.1
    let headMine := x.running && (x.queue.head?.map f).getD false
    let rest := x.queue.filter fun c => !f c
    let d0 := setEngine d e.1 (if headMine then { queue := rest, running := false, owned := [] } else { x with queue := rest })
    match (x.queue.filter f).zipIdx.foldlM (fun d (c, i) => ruinCommand m d c (64 * j + i)) d0 with
    | .error er => .error er
    | .ok d1 =>
      if headMine then
        let d2 := giveUp d1 x.owned []
        let d3 : Dev :=
          { d2 with
            timers := d2.timers.filter fun t => !endsEngine e.1 t.ev, agenda := d2.agenda.filter fun v => !endsEngine e.1 v,
            deferred := d2.deferred.filter fun v => !endsEngine e.1 v.2 }
        let d4 := endOwned d3 x.owned
        .ok (if rest.isEmpty then d4 else post d4 (.engineStart e.1))
      else .ok d1) d
  dropped.bind fun d1 => gids.foldlM (wakeTags m) d1

end Sys2Proof.Machine
end

