-- ==== Sys2Proof/Machine/Codec.lean ====
section
/-!
DEFINITION. The arithmetic of predictive surfaces: descriptors (R367, R368), tile headers (R370), the transform (R374), the quantiser
(R375), the code of a slot (R376, R377) and rate control (R380). Nothing here reads memory.
-/

namespace Sys2Proof.Machine

/-! ## Descriptors (R367, R368, R369) -/

/-- Components and bits of a format, and the budget of a code. -/
def surfFmt (c : Nat) : Option (Nat × Nat) := [(1, 8), (2, 8), (4, 8), (1, 10), (4, 10)][c]?
def surfBudget (c : Nat) : Option Nat := [24, 32, 48, 64, 96, 128, 192, 256, 384][c]?

/-- A surface descriptor's fields. -/
structure Surf where
  addr : DWord
  ovf : DWord
  slots : DWord
  hdrs : DWord
  refs : List DWord
  w : Nat
  h : Nat
  qp : Nat
  budget : Nat
  depth : Nat
  sealed : Bool
  fmt : Nat
  comps : Nat
  bits : Nat
  deriving DecidableEq, Repr

def Surf.nref (s : Surf) : Nat := s.refs.length
def Surf.top (s : Surf) : Nat := 2 ^ s.bits - 1
def Surf.tilesX (s : Surf) : Nat := s.w / 16
def Surf.tilesY (s : Surf) : Nat := s.h / 16

/-- A descriptor read at an address; none when a condition of R369 on its own bits fails. -/
def parseSurf (a : DWord) (x : BitVec 512) : Option Surf :=
  let nref := bitsOf x 0 2
  let ref (i : Nat) : DWord := x.extractLsb' (128 + 64 * i) 64
  let size (n : Nat) : Bool := n % 16 == 0 && decide (16 ≤ n) && decide (n ≤ 8192)
  let sealed := x.getLsbD 12
  let depth := bitsOf x 16 2
  let w := bitsOf x 32 16
  let h := bitsOf x 48 16
  let ovf := x.extractLsb' 448 64
  let slots := x.extractLsb' 384 64
  let hdrs := x.extractLsb' 320 64
  let refsOk := (List.range 3).all fun i => (ref i != 0) == decide (i < nref) && (ref i).toNat % 64 == 0
  match surfFmt (bitsOf x 8 4), surfBudget (bitsOf x 20 4) with
  | some (k, b), some bud =>
    if bitsOf x 64 64 != 0 || bitsOf x 30 2 != 0 || bitsOf x 18 2 != 0 || bitsOf x 13 3 != 0 || bitsOf x 2 6 != 0 ||
        decide (47 < bitsOf x 24 6) || (!sealed && depth != 0) || !size w || !size h || ovf.toNat % 8 != 0 ||
        slots.toNat % 128 != 0 || hdrs.toNat % 128 != 0 || !refsOk then none
    else
      some
        { addr := a, ovf := ovf, slots := slots, hdrs := hdrs, refs := (List.range nref).map ref, w := w, h := h,
          qp := bitsOf x 24 6, budget := bud, depth := depth, sealed := sealed, fmt := bitsOf x 8 4, comps := k, bits := b }
  | _, _ => none

/-- The address of a tile's header and of a block's slot, and the bytes of a tile's slots (R370, R371). -/
def Surf.tileNo (s : Surf) (tx ty : Nat) : Nat := ty * s.tilesX + tx
def Surf.hdrAt (s : Surf) (t : Nat) : DWord := s.hdrs + BitVec.ofNat 64 (16 * t)
def Surf.slotIndex (s : Surf) (t comp blk : Nat) : Nat := (t * s.comps + comp) * 16 + blk
def Surf.slotAt (s : Surf) (t comp blk : Nat) : DWord := s.slots + BitVec.ofNat 64 (s.slotIndex t comp blk * s.budget / 8)
def Surf.tileBytes (s : Surf) : Nat := s.comps * 2 * s.budget

/-! ## Tile headers (R370) -/

/-- A tile header; motion as 12-bit patterns. -/
structure THdr where
  ovc : Nat
  mvx : Nat
  mvy : Nat
  dcs : List Nat
  tqp : Nat
  mode : Nat
  deriving DecidableEq, Repr

/-- A header's bytes as a natural, and back; none when it is malformed. -/
def packHdr (h : THdr) : Nat :=
  h.mode + 2 ^ 8 * h.tqp + (h.dcs.zipIdx.map fun d => d.1 * 2 ^ (40 + 10 * d.2)).sum + 2 ^ 96 * h.mvx + 2 ^ 108 * h.mvy +
    2 ^ 120 * h.ovc
def parseHdr (s : Surf) (x : Nat) : Option THdr :=
  let f (lo n : Nat) : Nat := x / 2 ^ lo % 2 ^ n
  let dcs := (List.range 4).map fun i => f (40 + 10 * i) 10
  let dcOk := dcs.zipIdx.all fun d => if d.2 < s.comps then decide (d.1 ≤ s.top) else d.1 == 0
  if f 80 16 != 0 || f 14 26 != 0 || f 2 6 != 0 || decide (47 < f 8 6) || decide (s.nref < f 0 2) || !dcOk then none
  else some { ovc := f 120 8, mvx := f 96 12, mvy := f 108 12, dcs := dcs, tqp := f 8 6, mode := f 0 2 }

/-! ## Transform and quantiser (R374, R375) -/

/-- The sign of H at a row and a column; a row is given by its columns of minus one. -/
def hadSign (i j : Nat) : Int := if ([0, 0xC, 0x6, 0xA].getD i 0).testBit j then -1 else 1

/-- H·x·H of a block in row order. -/
def hadamard (x : List Int) : List Int :=
  (List.range 16).map fun p =>
    ((List.range 16).map fun q => hadSign (p / 4) (q / 4) * x.getD q 0 * hadSign (q % 4) (p % 4)).sum

/-- The inverse: rounded and shifted, element by element. -/
def invHadamard (x : List Int) : List Int := (hadamard x).map fun v => (v + 8) / 16

/-- The row-order place of each scan index. -/
def scanOrder : List Nat := [0, 1, 4, 8, 5, 2, 3, 6, 9, 12, 13, 10, 7, 11, 14, 15]

/-- Coefficients in scan order from a block, and a block from them. -/
def toScan (x : List Int) : List Int := scanOrder.map fun p => x.getD p 0
def fromScan (c : List Int) : List Int := (List.range 16).map fun p => c.getD (scanOrder.findIdx (· == p)) 0

/-- step16, and the two quantisers. -/
def step16 (qp : Nat) : Nat := [16, 17, 19, 21, 23, 25, 27, 29].getD (qp % 8) 16 * 2 ^ (qp / 8)
def signed (x : Int) (n : Nat) : Int := if x < 0 then -(n : Int) else n
def quantLevel (qp : Nat) (c : Int) : Int := signed c ((16 * c.natAbs + step16 qp / 2) / step16 qp)
def dequantLevel (qp : Nat) (q : Int) : Int := signed q ((q.natAbs * step16 qp + 8) / 16)

/-! ## The code of a slot (R376, R377) -/

/-- A natural of `n` bits, most significant first. -/
def bitsMsb (n x : Nat) : List Bool := (List.range n).map fun i => x.testBit (n - 1 - i)

/-- A level's code. -/
def levelCode (q : Int) : List Bool :=
  if q = 0 then [false]
  else
    let n := bitLen q.natAbs
    [true, decide (q < 0)] ++ List.replicate (n - 1) false ++ bitsMsb n q.natAbs

/-- The scan index of the last non-zero level. -/
def lastLevel (q : List Int) : Option Nat := ((List.range 16).filter fun s => q.getD s 0 != 0).getLast?

/-- code(d, q). -/
def slotCode (d : Nat) (q : List Int) : List Bool :=
  bitsMsb 3 d ++
    match lastLevel q with
    | none => [true]
    | some l => [false] ++ bitsMsb 4 l ++ ((List.range (l + 1)).flatMap fun s => levelCode (q.getD s 0))

/-- Bit `i` of a slot stands at this bit of its bytes, and the bytes of a code. -/
def slotBit (i : Nat) : Nat := 8 * (i / 8) + 7 - i % 8
def slotBytes (bs : List Bool) : Nat := (bs.zipIdx.map fun b => if b.1 then 2 ^ slotBit b.2 else 0).sum

/-- `n` bits taken as a natural. -/
def takeBits : Nat → Nat → List Bool → Option (Nat × List Bool)
  | 0, acc, bs => some (acc, bs)
  | _ + 1, _, [] => none
  | n + 1, acc, b :: bs => takeBits n (2 * acc + b.toNat) bs

/-- The zeros before the next one bit, which is taken too. -/
def takeZeros (k : Nat) : List Bool → Option (Nat × List Bool)
  | [] => none
  | true :: bs => some (k, bs)
  | false :: bs => takeZeros (k + 1) bs

/-- One level taken. -/
def takeLevel (bs : List Bool) : Option (Int × List Bool) :=
  match bs with
  | [] => none
  | false :: r => some (0, r)
  | true :: r =>
    match takeBits 1 0 r with
    | none => none
    | some (neg, r1) =>
      match takeZeros 0 r1 with
      | none => none
      | some (k, r2) => (takeBits k 1 r2).map fun x => (if neg = 1 then -(x.1 : Int) else x.1, x.2)

/-- `n` levels taken. -/
def takeLevels : Nat → List Bool → Option (List Int × List Bool)
  | 0, bs => some ([], bs)
  | n + 1, bs =>
    match takeLevel bs with
    | none => none
    | some (q, r) => (takeLevels n r).map fun x => (q :: x.1, x.2)

/-- A slot of `b` bits decoded: dQP, the sixteen levels, and the bits its code takes; none when it is invalid. -/
def parseSlot (b x : Nat) : Option (Nat × List Int × Nat) :=
  let bs := (List.range b).map fun i => x.testBit (slotBit i)
  let done (d : Nat) (q : List Int) (r : List Bool) : Option (Nat × List Int × Nat) :=
    if r.any id then none else some (d, q ++ List.replicate (16 - q.length) 0, b - r.length)
  match takeBits 3 0 bs with
  | none => none
  | some (d, r0) =>
    match r0 with
    | [] => none
    | true :: r => done d [] r
    | false :: r =>
      match takeBits 4 0 r with
      | none => none
      | some (l, r1) =>
        match takeLevels (l + 1) r1 with
        | none => none
        | some (q, r2) => if q.getD l 0 = 0 then none else done d q r2

/-! ## Rate control (R380) -/

/-- The block QP. -/
def blockQp (tqp d : Nat) : Nat := min 47 (tqp + d)

/-- Levels with the last non-zero one dropped until the code fits. -/
def dropLevels (b : Nat) : Nat → List Int → List Int
  | 0, q => q
  | n + 1, q =>
    if (slotCode 7 q).length ≤ b then q
    else
      match lastLevel q with
      | none => q
      | some l => dropLevels b n (q.set l 0)

/-- The stored dQP and levels of coefficients in scan order, and whether the write overflows (R381). -/
def rateControl (tqp b : Nat) (c : List Int) : Nat × List Int × Bool :=
  let at_ (d : Nat) : List Int := c.map (quantLevel (blockQp tqp d))
  match (List.range 8).find? fun d => decide ((slotCode d (at_ d)).length ≤ b) with
  | some d => (d, at_ d, decide (0 < d))
  | none => (7, dropLevels b 16 (at_ 7), true)

/-- The pixels of a block from its prediction and levels (R377). -/
def rebuildBlock (top tqp d : Nat) (q : List Int) (p : List Nat) : List Nat :=
  let x := invHadamard (fromScan (q.map (dequantLevel (blockQp tqp d))))
  (List.range 16).map fun i => (clampInt 0 top ((p.getD i 0 : Nat) + x.getD i 0)).toNat

/-- The coefficients of a block's pixels against its prediction (R378). -/
def blockCoefs (pix p : List Nat) : List Int :=
  toScan (hadamard ((List.range 16).map fun i => (pix.getD i 0 : Int) - (p.getD i 0 : Nat)))

/-- The weights of R373 for a pixel and the coordinates they go to; terms of weight 0 left out. -/
def motionTerms (s : Surf) (h : THdr) (x y : Nat) : List (Nat × Nat × Nat) :=
  let sx := readInt 12 true h.mvx
  let sy := readInt 12 true h.mvy
  let fx := h.mvx % 4
  let fy := h.mvy % 4
  let ix : Int := x + sx / 4
  let iy : Int := y + sy / 4
  let one (dx dy w : Nat) : Nat × Nat × Nat :=
    (w, (clampInt 0 (s.w - 1 : Nat) (ix + dx)).toNat, (clampInt 0 (s.h - 1 : Nat) (iy + dy)).toNat)
  [one 0 0 ((4 - fx) * (4 - fy)), one 1 0 (fx * (4 - fy)), one 0 1 ((4 - fx) * fy), one 1 1 (fx * fy)].filter fun t => t.1 != 0

/-- The tile and the block of a pixel, and its place in the block (R371). -/
def tileOfPix (s : Surf) (x y : Nat) : Nat := s.tileNo (x / 16) (y / 16)
def blkOfPix (x y : Nat) : Nat := 4 * (y % 16 / 4) + x % 16 / 4
def posOfPix (x y : Nat) : Nat := 4 * (y % 4) + x % 4

/-- The sixteen pixels of a block in surface coordinates. -/
def blockPixels (s : Surf) (t blk : Nat) : List (Nat × Nat) :=
  (List.range 16).map fun i =>
    (t % s.tilesX * 16 + blk % 4 * 4 + i % 4, t / s.tilesX * 16 + blk / 4 * 4 + i / 4)

end Sys2Proof.Machine
end

