-- ==== Sys2Proof/Machine/Surfaces.lean ====
section
/-!
DEFINITION. Predictive surfaces in memory: the checks of R369 and R424, reconstruction (R373, R377, R385), and what one registered
operation does to a tile (R378, R379, R381, R386, R387).
-/

namespace Sys2Proof.Machine

/-- A failed check or read of a surface; `badAt` when only some lanes are at fault, with what each of them met. -/
inductive SurfErr where
  | need (n : Need)
  | bad (b : Bad)
  | badAt (b : Bad) (ls : Mask) (each : List Bad)
  deriving DecidableEq, Repr

/-- A computation over a surface that may fail or wait. -/
abbrev SurfM (α : Type) := Except SurfErr α

/-- The places of the checks of R424 after the descriptor read: BOUNDS, PERM, then the tiles' own, then decoding. -/
def stSurfBounds : Nat := 20
def stSurfPerm : Nat := 21
def stTile : Nat := 30
def stDecode : Nat := 40

/-- A fault at a place. -/
def sbad {α : Type} (stage : Nat) (c : Cause) (addr : DWord) : SurfM α :=
  .error (.bad { stage := stage, cause := c, sub := 0, addr := addr })

/-! ## Reading at the slices (R369, R372) -/

/-- `n` bytes at a pointer, as the codec reads them; a line that cannot be read is DATAERR (R218).
(DESIGN CHOICE: notes/assumptions/28) -/
def surfRead (m : Mgmt) (d : Dev) (ctx : Nat) (p : DWord) (n al : Nat) : SurfM Nat :=
  match distRead m d ctx p n al with
  | .ok (x, _) => .ok x
  | .wait w => .error (.need w)
  | .bad e => .error (.bad { stage := stDecode, cause := e.cause, sub := e.sub, addr := p })

/-- The checks of R224 steps 2 to 5 on a range, at the instruction's place `base` for them. -/
def surfCheck (m : Mgmt) (d : Dev) (ctx : Nat) (p : DWord) (n al base : Nat) (store : Bool) : SurfM Unit :=
  let rec go (q : DWord) : Nat → Nat → SurfM Unit
    | _, 0 => .ok ()
    | 0, _ => .ok ()
    | fuel + 1, left =>
      let k := min left (128 - bitsOf q 0 7)
      match checkPtr m d ctx noSpindle q k (if q == p then al else 1) store with
      | .bad b => .error (.bad { b with stage := base + b.stage, addr := p })
      | .wait _ w => .error (.need w)
      | _ => go (q + BitVec.ofNat 64 k) fuel (left - k)
  go p (n / 128 + 2) n

/-- Whether no page of a range lies outside device memory; a page that does not translate is left to its own check (R369). -/
def inDevice (m : Mgmt) (d : Dev) (ctx : Nat) (p : DWord) (n : Nat) : SurfM Bool :=
  (List.range ((bitsOf p 0 12 + n + 4095) / 4096)).foldlM (fun ok i =>
    match locate m d ctx noSpindle (p + BitVec.ofNat 64 (4096 * i - (if i = 0 then 0 else bitsOf p 0 12))) with
    | .ok (_, pa) => .ok (ok && isDevice pa)
    | .error (.need w) => .error (.need w)
    | .error _ => .ok ok) true

/-- An area that is not device memory raises BOUNDS with the address `p`. -/
def areaIn (m : Mgmt) (d : Dev) (ctx : Nat) (p area : DWord) (n : Nat) : SurfM Unit :=
  (inDevice m d ctx area n).bind fun ok => if ok then .ok () else sbad stSurfBounds .bounds p

/-- A descriptor at its slice, and as the issuing threads read it there: with their spindle's dirty words and their own buffered bytes
(R209, R301, R369, R424). -/
def slotDesc (m : Mgmt) (d : Dev) (ctx : Nat) (p : DWord) : SurfM Nat := surfRead m d ctx p 64 64
def ownDesc (m : Mgmt) (d : Dev) (ctx : Nat) (p : DWord) : SurfM Nat :=
  match (locate m d ctx (curSpindle d) p).bind fun a =>
      (loadAt m d ctx (curSpindle d) p a.1 a.2 64 3 0).map fun r => bundleOver m d a.2 64 r.1 with
  | .ok x => .ok x
  | .error (.need w) => .error (.need w)
  | .error _ => sbad stDecode .dataerr p

/-- A descriptor read by `rd` and checked on its own (R369). -/
def readSurf (m : Mgmt) (d : Dev) (ctx : Nat) (rd : DWord → SurfM Nat) (p : DWord) : SurfM Surf :=
  match surfCheck m d ctx p 64 64 0 false with
  | .error e => .error e
  | .ok _ =>
    match rd p with
    | .error e => .error e
    | .ok x =>
      match parseSurf p (BitVec.ofNat 512 x) with
      | none => sbad stSurfBounds .bounds p
      | some s =>
        (areaIn m d ctx p p 64 *> areaIn m d ctx p s.hdrs (16 * s.tilesX * s.tilesY) *>
          areaIn m d ctx p s.slots (s.tilesX * s.tilesY * s.tileBytes)).map fun _ => s

/-- The same without the check of whole areas, for an operation already checked at issue. -/
def readSurfAgain (m : Mgmt) (d : Dev) (ctx : Nat) (p : DWord) : SurfM Surf :=
  match surfRead m d ctx p 64 64 with
  | .error e => .error e
  | .ok x =>
    match parseSurf p (BitVec.ofNat 512 x) with
    | none => sbad stSurfBounds .bounds p
    | some s => .ok s

/-- Every reference of a surface read (R369): BOUNDS for one of another shape; the PERM of an unsealed one or one of depth 3 comes
back beside them. -/
def readRefs (m : Mgmt) (d : Dev) (ctx : Nat) (s : Surf) : SurfM (List Surf × Option DWord) :=
  match s.refs.mapM (readSurf m d ctx (ownDesc m d ctx)) with
  | .error e => .error e
  | .ok rs =>
    match rs.find? fun r => r.fmt != s.fmt || r.w != s.w || r.h != s.h with
    | some r => sbad stSurfBounds .bounds r.addr
    | none => .ok (rs, (rs.find? fun r => !r.sealed || r.depth == 3).map fun r => r.addr)

/-- A descriptor with the checks of R369 on it and its references; `extra` is what of R424 step 2 the instruction adds. A write to a
sealed surface is PERM. -/
def openSurf (m : Mgmt) (d : Dev) (ctx : Nat) (p : DWord) (write : Bool) (extra : Surf → SurfM Unit) : SurfM Surf :=
  match readSurf m d ctx (ownDesc m d ctx) p with
  | .error e => .error e
  | .ok s =>
    match readRefs m d ctx s with
    | .error e => .error e
    | .ok (_, perm) =>
      match extra s with
      | .error e => .error e
      | .ok _ =>
        match write && s.sealed, perm with
        | true, _ => sbad stSurfPerm .perm p
        | false, some r => sbad stSurfPerm .perm r
        | false, none => .ok s

/-! ## Tiles -/

/-- The checks of a tile's slots, all at once; a failure is that of the first slot that fails (R424). -/
def checkSlots (m : Mgmt) (d : Dev) (ctx : Nat) (s : Surf) (t : Nat) (store : Bool) : SurfM Unit :=
  match surfCheck m d ctx (s.slotAt t 0 0) s.tileBytes 1 stTile store with
  | .error e =>
    (List.range (16 * s.comps)).forM (fun i => surfCheck m d ctx (s.slotAt t (i / 16) (i % 16)) (s.budget / 8) 1 stTile store) *>
      .error e
  | .ok _ => .ok ()

/-- The checks of a touched tile: its header and all its slots (R369). -/
def checkTile (m : Mgmt) (d : Dev) (ctx : Nat) (s : Surf) (t : Nat) (store : Bool) : SurfM Unit :=
  match surfCheck m d ctx (s.hdrAt t) 16 1 stTile store with
  | .error e => .error e
  | .ok _ => checkSlots m d ctx s t store

/-- The header of a tile; malformed is DATAERR (R377). -/
def readHdr (m : Mgmt) (d : Dev) (ctx : Nat) (s : Surf) (t : Nat) : SurfM THdr :=
  match surfRead m d ctx (s.hdrAt t) 16 1 with
  | .error e => .error e
  | .ok x =>
    match parseHdr s x with
    | some h => .ok h
    | none => sbad stDecode .dataerr (s.hdrAt t)

/-- The number of a header in physical memory. -/
def hdrNo (m : Mgmt) (d : Dev) (ctx : Nat) (s : Surf) (t : Nat) : Option Nat :=
  match locate m d ctx noSpindle (s.hdrAt t) with
  | .ok (_, pa) => some (pa / 16)
  | .error _ => none

/-- The pieces of a range that lie in one line each: virtual address, physical address, bytes. -/
def slotPieces (m : Mgmt) (d : Dev) (ctx : Nat) (p : DWord) (n : Nat) : List (DWord × Nat × Nat) :=
  let k := min n (128 - bitsOf p 0 7)
  [(p, k), (p + BitVec.ofNat 64 k, n - k)].filterMap fun q =>
    match q.2 == 0, locate m d ctx noSpindle q.1 with
    | false, .ok (_, pa) => some (q.1, pa, q.2)
    | _, _ => none

/-- A slot's bytes as the codec sees them: memory's, but of a tile it has used those it saw when the tile's header line was last
written, with its own writes since (R384). (DESIGN CHOICE: notes/assumptions/31) -/
def slotRead (m : Mgmt) (d : Dev) (ctx : Nat) (s : Surf) (t comp blk : Nat) : SurfM Nat :=
  let p := s.slotAt t comp blk
  match surfRead m d ctx p (s.budget / 8) 1 with
  | .error e => .error e
  | .ok x =>
    match if d.stiles.isEmpty then none else (hdrNo m d ctx s t).bind (tget? d.stiles) with
    | none => .ok x
    | some ls =>
      .ok ((slotPieces m d ctx p (s.budget / 8)).map fun q =>
        let y := (tget? ls (q.2.1 / 128)).getD (memLine d (q.2.1 / 128))
        takeBytes y (q.2.1 % 128) q.2.2 * 2 ^ (8 * (q.1 - p).toNat)).sum

/-- A block's dQP, levels and code length; an invalid slot is DATAERR (R377). -/
def readSlot (m : Mgmt) (d : Dev) (ctx : Nat) (s : Surf) (t comp blk : Nat) : SurfM (Nat × List Int × Nat) :=
  match slotRead m d ctx s t comp blk with
  | .error e => .error e
  | .ok x =>
    match parseSlot s.budget x with
    | some r => .ok r
    | none => sbad stDecode .dataerr (s.slotAt t comp blk)

/-- The block as the surface cache holds it; whether a block stays there is open (R385). (DESIGN CHOICE: notes/assumptions/31) -/
def cached (m : Mgmt) (d : Dev) (ctx : Nat) (s : Surf) (t comp blk : Nat) : Option (List Nat) :=
  if d.scache.isEmpty then none
  else
    match hdrNo m d ctx s t with
    | none => none
    | some h =>
      match d.scache.find? fun e => e.header == h && e.comp == comp && e.blk == blk with
      | some e => if freeBit d (32000 + 64 * (t % 64) + blk) then some e.pix else none
      | none => none

/-- The prediction of some pixels of a block under a header, reading pixels of references by `ref` (R373). -/
def predict (s : Surf) (h : THdr) (t comp blk : Nat) (ks : List Nat) (ref : Nat → Nat → SurfM Nat) : SurfM (List Nat) :=
  if h.mode = 0 then .ok (ks.map fun _ => h.dcs.getD comp 0)
  else
    ks.mapM fun k =>
      let q := (blockPixels s t blk).getD k (0, 0)
      ((motionTerms s h q.1 q.2).foldlM (fun (acc : Nat) (w, i, j) => (ref i j).map fun v => acc + w * v) 8).map fun a => a / 16

/-- Some pixels of a block reconstructed, each by its place in the block (R377): of a reference only those that are needed. `fuel`
bounds the chain of references, which is at most 3 deep. -/
def pixelsOf (m : Mgmt) (d : Dev) (ctx : Nat) : Nat → Surf → Nat → Nat → Nat → List Nat → SurfM (List Nat)
  | 0, s, t, _, _, _ => sbad stDecode .dataerr (s.hdrAt t)
  | fuel + 1, s, t, comp, blk, ks =>
    match cached m d ctx s t comp blk with
    | some p => .ok (ks.map fun k => p.getD k 0)
    | none =>
      match readHdr m d ctx s t with
      | .error e => .error e
      | .ok h =>
        match readSlot m d ctx s t comp blk with
        | .error e => .error e
        | .ok (dq, q, _) =>
          let ref (x y : Nat) : SurfM Nat :=
            match readSurfAgain m d ctx (s.refs.getD (h.mode - 1) 0) with
            | .error e => .error e
            | .ok r => (pixelsOf m d ctx fuel r (tileOfPix r x y) comp (blkOfPix x y) [posOfPix x y]).map fun b => b.getD 0 0
          (predict s h t comp blk ks ref).map fun p =>
            let x := rebuildBlock s.top h.tqp dq q ((List.range 16).map fun k => p.getD (ks.findIdx (· == k)) 0)
            ks.map fun k => x.getD k 0

/-- Chains are at most 3 deep (R373). -/
def chainFuel : Nat := 5

/-- The sixteen pixels of a block (R385). -/
def blockPix (m : Mgmt) (d : Dev) (ctx : Nat) (s : Surf) (t comp blk : Nat) : SurfM (List Nat) :=
  pixelsOf m d ctx chainFuel s t comp blk (List.range 16)

/-- The prediction of a block under a given header. -/
def blockPredict (m : Mgmt) (d : Dev) (ctx : Nat) (s : Surf) (h : THdr) (t comp blk : Nat) : SurfM (List Nat) :=
  predict s h t comp blk (List.range 16) fun x y =>
    match readSurfAgain m d ctx (s.refs.getD (h.mode - 1) 0) with
    | .error e => .error e
    | .ok r => (pixelsOf m d ctx chainFuel r (tileOfPix r x y) comp (blkOfPix x y) [posOfPix x y]).map fun b => b.getD 0 0

/-- The reference tiles that the prediction of some pixels covers, and so on along the chain (R369). What cannot be read is left to the
check of its tile. -/
def refTiles (m : Mgmt) (d : Dev) (ctx : Nat) : Nat → Surf → THdr → List (Nat × Nat) → SurfM (List (Surf × Nat))
  | 0, _, _, _ => .ok []
  | fuel + 1, s, h, pix =>
    if h.mode = 0 then .ok []
    else
      match readSurfAgain m d ctx (s.refs.getD (h.mode - 1) 0) with
      | .error (.need w) => .error (.need w)
      | .error _ => .ok []
      | .ok r =>
        let pts := (pix.flatMap fun q => (motionTerms s h q.1 q.2).map fun x => x.2).dedup
        (pts.map fun q => tileOfPix r q.1 q.2).dedup.foldlM (fun acc t =>
          match readHdr m d ctx r t with
          | .error (.need w) => .error (.need w)
          | .error _ => .ok (acc ++ [(r, t)])
          | .ok h2 =>
            (refTiles m d ctx fuel r h2 (pts.filter fun q => tileOfPix r q.1 q.2 == t)).map fun l => acc ++ (r, t) :: l) []

/-- The checks of those tiles (R369). -/
def checkRefs (m : Mgmt) (d : Dev) (ctx : Nat) (s : Surf) (h : THdr) (pix : List (Nat × Nat)) : SurfM Unit :=
  (refTiles m d ctx chainFuel s h pix).bind fun l => l.forM fun x => checkTile m d ctx x.1 x.2 false

/-- The checks of a touched tile and of what its blocks predict from. -/
def checkBlocks (m : Mgmt) (d : Dev) (ctx : Nat) (s : Surf) (t : Nat) (blks : List (Nat × Nat)) (store : Bool)
    (also : Option (Nat × Nat × Nat)) : SurfM Unit :=
  match checkTile m d ctx s t store with
  | .error e => .error e
  | .ok _ =>
    match readHdr m d ctx s t with
    | .error (.need w) => .error (.need w)
    | .error _ => .ok ()
    | .ok h =>
      let hs := h :: (also.map fun x => { h with mode := x.1, mvx := x.2.1, mvy := x.2.2 }).toList
      hs.forM fun h => checkRefs m d ctx s h ((blks.map fun b => b.2).dedup.flatMap fun b => blockPixels s t b)

/-- The check of the overflow counter as an atomic store. -/
def checkOvf (m : Mgmt) (d : Dev) (ctx : Nat) (s : Surf) : SurfM Unit := surfCheck m d ctx s.ovf 8 8 stTile true

/-! ## What an operation writes (R378 to R381, R386, R387) -/

/-- Bytes written by the codec for a skein of spindle `sp`, whose own copies follow them (R441); its own header writes leave what it
holds. (DESIGN CHOICE: notes/assumptions/30) -/
def surfWrite (m : Mgmt) (d : Dev) (sp ctx : Nat) (p : DWord) (n x : Nat) : SurfM Dev :=
  match distPut m d (some sp) ctx p n 1 x with
  | .ok d1 => .ok { d1 with scache := d.scache, stiles := d.stiles }
  | .wait w => .error (.need w)
  | .bad e => .error (.bad { stage := stDecode, cause := e.cause, sub := e.sub, addr := p })

/-- The lines of a tile's slots, held from now on as memory holds them unless they are held already (R384).
(DESIGN CHOICE: notes/assumptions/31) -/
def noteTile (m : Mgmt) (d : Dev) (ctx : Nat) (s : Surf) (t : Nat) : Dev :=
  match hdrNo m d ctx s t with
  | none => d
  | some h =>
    let ls := tget d.stiles h []
    let at_ (i : Nat) : Option Nat :=
      match locate m d ctx noSpindle (s.slotAt t 0 0 + BitVec.ofNat 64 (min (128 * i) (s.tileBytes - 1))) with
      | .ok (_, pa) => some (pa / 128)
      | .error _ => none
    let new := ((List.range (s.tileBytes / 128 + 2)).filterMap at_).dedup.filter fun l => (tget? ls l).isNone
    if new.isEmpty then d else { d with stiles := tset d.stiles h (ls ++ new.map fun l => (l, memLine d l)) }

/-- The reference tiles of a prediction, whose slots the codec uses as well. (DESIGN CHOICE: notes/assumptions/31) -/
def noteRefs (m : Mgmt) (d : Dev) (ctx : Nat) (s : Surf) (h : THdr) (pix : List (Nat × Nat)) : Dev :=
  match refTiles m d ctx chainFuel s h pix with
  | .ok l => l.foldl (fun d x => noteTile m d ctx x.1 x.2) d
  | .error _ => d

/-- A block's slot written by the codec, which sees what it wrote. -/
def slotWrite (m : Mgmt) (d : Dev) (sp ctx : Nat) (s : Surf) (t comp blk x : Nat) : SurfM Dev :=
  let p := s.slotAt t comp blk
  let d0 := noteTile m d ctx s t
  (surfWrite m d0 sp ctx p (s.budget / 8) x).map fun d1 =>
    match hdrNo m d ctx s t with
    | none => d1
    | some h =>
      let put (ls : List (Nat × Line)) (q : DWord × Nat × Nat) : List (Nat × Line) :=
        ls.map fun e =>
          if e.1 == q.2.1 / 128 then (e.1, overlay e.2 (memLine d1 e.1) (byteMask (q.2.1 % 128) q.2.2)) else e
      { d1 with stiles := tset d1.stiles h ((slotPieces m d ctx p (s.budget / 8)).foldl put (tget d1.stiles h [])) }

/-- A tile's entries, or one of them, leave the surface cache; a block enters it. (DESIGN CHOICE: notes/assumptions/31) -/
def forgetTile (m : Mgmt) (d : Dev) (ctx : Nat) (s : Surf) (t : Nat) : Dev :=
  match hdrNo m d ctx s t with
  | some h => { d with scache := d.scache.filter fun e => e.header != h }
  | none => d
def keepBlock (m : Mgmt) (d : Dev) (ctx : Nat) (s : Surf) (t comp blk : Nat) (pix : List Nat) : Dev :=
  match hdrNo m d ctx s t with
  | some h =>
    { noteTile m d ctx s t with
      scache := (d.scache.filter fun e => !(e.header == h && e.comp == comp && e.blk == blk)) ++
        [{ header := h, comp := comp, blk := blk, pix := pix }] }
  | none => d

/-- One added to the overflow counter; a record when that fails (R381). -/
def bumpOvf (m : Mgmt) (d : Dev) (sp ctx : Nat) (s : Surf) : SurfM Dev :=
  let bad (b : Bad) : SurfM Dev := .ok (takeDeviceFault m d ctx b.cause b.sub s.ovf 0)
  match surfRead m d ctx s.ovf 8 8 with
  | .error (.need w) => .error (.need w)
  | .error (.bad b) => bad b
  | .error (.badAt b _ _) => bad b
  | .ok x =>
    match surfWrite m d sp ctx s.ovf 8 ((x + 1) % 2 ^ 64) with
    | .error (.need w) => .error (.need w)
    | .error (.bad b) => bad b
    | .error (.badAt b _ _) => bad b
    | .ok d1 => .ok d1

/-- Coefficients coded into a block's slot under rate control, its overflow counted; `p` is the block's prediction (R380, R381). -/
def codeBlock (m : Mgmt) (d : Dev) (sp ctx : Nat) (s : Surf) (h : THdr) (t comp blk : Nat) (c : List Int) (p : List Nat) :
    SurfM (Dev × THdr) :=
  let (dq, q, ovf) := rateControl h.tqp s.budget c
  match slotWrite m d sp ctx s t comp blk (slotBytes (slotCode dq q)) with
  | .error e => .error e
  | .ok d1 =>
    let d2 := keepBlock m d1 ctx s t comp blk (rebuildBlock s.top h.tqp dq q p)
    if ovf then
      let h1 := { h with ovc := min 255 (h.ovc + 1) }
      match surfWrite m d2 sp ctx (s.hdrAt t) 16 (packHdr h1) with
      | .error e => .error e
      | .ok d3 => (bumpOvf m d3 sp ctx s).map fun d4 => (d4, h1)
    else .ok (d2, h)

/-- A pixel write (R378). -/
def writePixels (m : Mgmt) (d : Dev) (sp ctx : Nat) (s : Surf) (t comp blk : Nat) (mask : BitVec 16) (vals : List Nat) :
    SurfM Dev :=
  match readHdr m d ctx s t with
  | .error e => .error e
  | .ok h =>
    let old : SurfM (List Nat) := if mask == 0xFFFF then .ok [] else blockPix m d ctx s t comp blk
    match old with
    | .error e => .error e
    | .ok o =>
      match blockPredict m d ctx s h t comp blk with
      | .error e => .error e
      | .ok p =>
        let pix := (List.range 16).map fun i => if mask.getLsbD i then vals.getD i 0 else o.getD i 0
        (codeBlock m (noteRefs m d ctx s h (blockPixels s t blk)) sp ctx s h t comp blk (blockCoefs pix p) p).map fun r => r.1

/-- A coefficient write (R379). -/
def writeCoef (m : Mgmt) (d : Dev) (sp ctx : Nat) (s : Surf) (t comp blk sc : Nat) (v : Int) : SurfM Dev :=
  match readHdr m d ctx s t with
  | .error e => .error e
  | .ok h =>
    match readSlot m d ctx s t comp blk with
    | .error e => .error e
    | .ok (dq, q, _) =>
      let c := (q.map (dequantLevel (blockQp h.tqp dq))).set sc v
      (codeBlock m d sp ctx s h t comp blk c []).map fun r => forgetTile m r.1 ctx s t

/-- A tile cleared (R386). -/
def clearTile (m : Mgmt) (d : Dev) (sp ctx : Nat) (s : Surf) (t : Nat) : SurfM Dev :=
  let dcs := (List.range 4).map fun i => if i < s.comps then 2 ^ (s.bits - 1) else 0
  let h : THdr := { ovc := 0, mvx := 0, mvy := 0, dcs := dcs, tqp := s.qp, mode := 0 }
  match surfWrite m (forgetTile m d ctx s t) sp ctx (s.hdrAt t) 16 (packHdr h) with
  | .error e => .error e
  | .ok d1 =>
    (List.range (16 * s.comps)).foldlM (fun d i => slotWrite m d sp ctx s t (i / 16) (i % 16) (slotBytes (slotCode 0 []))) d1

/-- A tile re-based (R387): every block reconstructed, then coded anew against the new prediction. -/
def rebaseTile (m : Mgmt) (d : Dev) (sp ctx : Nat) (s : Surf) (t mode mvx mvy : Nat) : SurfM Dev :=
  let all := List.range (16 * s.comps)
  match readHdr m d ctx s t with
  | .error e => .error e
  | .ok h =>
    match all.mapM fun i => blockPix m d ctx s t (i / 16) (i % 16) with
    | .error e => .error e
    | .ok olds =>
      let h1 := { h with mode := mode, mvx := mvx, mvy := mvy }
      let pix := (List.range 16).flatMap fun b => blockPixels s t b
      let d0 := noteRefs m (noteRefs m d ctx s h pix) ctx s h1 pix
      match all.mapM fun i => blockPredict m d ctx s h1 t (i / 16) (i % 16) with
      | .error e => .error e
      | .ok ps =>
        match surfWrite m (forgetTile m d0 ctx s t) sp ctx (s.hdrAt t) 16 (packHdr h1) with
        | .error e => .error e
        | .ok d1 =>
          (all.foldlM (fun (r : Dev × THdr) i =>
            let p := ps.getD i []
            codeBlock m r.1 sp ctx s r.2 t (i / 16) (i % 16) (blockCoefs (olds.getD i []) p) p) (d1, h1)).map fun r => r.1

/-- One action of an operation for a skein of spindle `sp`; a write that meets an invalid slot or a malformed header is discarded
with a record (R377, R218). -/
def applyAct (m : Mgmt) (d : Dev) (sp ctx : Nat) (s : Surf) (t : Nat) (a : SurfAct) : SurfM Dev :=
  let r := match a with
    | .pixels comp blk mask vals => writePixels m d sp ctx s t comp blk mask vals
    | .coef comp blk sc v => writeCoef m d sp ctx s t comp blk sc v
    | .clear => clearTile m d sp ctx s t
    | .rebase mode mvx mvy => rebaseTile m d sp ctx s t mode mvx mvy
    | .seal => .ok d
  match r with
  | .error (.need w) => .error (.need w)
  | .error (.bad b) => .ok (takeDeviceFault m d ctx b.cause b.sub b.addr 0)
  | .error (.badAt b _ _) => .ok (takeDeviceFault m d ctx b.cause b.sub b.addr 0)
  | .ok d1 => .ok d1

end Sys2Proof.Machine
end

