-- ==== Sys2Proof/Machine/SurfaceOps.lean ====
section
/-!
DEFINITION. The instructions that act on predictive surfaces (R423 to R430, R434 to R437) and the two steps of a surface write: its
registration at the descriptor's slice and its application at the home slice (R382, R388, R402, R425).
-/

namespace Sys2Proof.Machine

/-! ## Issue -/

/-- The fault of a failed surface check; without lanes of its own it names `all`. The page of every lane that fails is recorded
(R456). -/
def surfFault (all : Mask) (store : Bool) (undef : List PWrite) (b : Bad) (ls : Mask) (each : List Bad) : FaultInfo :=
  { faultAt b.cause b.addr (if ls == 0 then all else ls) with
    sub := b.sub, undef := undef,
    pages := (each.filter fun x => x.cause == .xlate).map fun x => pageEntry x.addr store false x.sub }

/-- What a failed surface computation comes to. -/
def surfRes (d : Dev) (all : Mask) (store : Bool) (undef : List PWrite) (e : SurfErr) : Res :=
  match e with
  | .need w => waitFor d w
  | .bad b => .fault (surfFault all store undef b 0 [b])
  | .badAt b ls each => .fault (surfFault all store undef b ls each)

/-- A lane's pixel operand (R423). -/
def pixOf (d : Dev) (o : Lm) (l : Nat) : Nat × Nat :=
  let x := readV d (curSkein d) l o.a.toNat
  (bitsOf x 0 16, bitsOf x 16 16)

/-- R424 step 2 for lanes: pixels beyond the surface, components beyond the format, lanes out of a limit. -/
def lanesIn (p : DWord) (xy : List (Nat × Nat × Nat)) (ncomp : Nat) (out : Mask) (s : Surf) : SurfM Unit :=
  let bad := if s.comps < ncomp then maskOf fun l => xy.any fun q => q.1 == l
    else out ||| maskOf fun l => xy.any fun q => q.1 == l && (decide (s.w ≤ q.2.1) || decide (s.h ≤ q.2.2))
  if bad == 0 then .ok () else .error (.badAt { stage := stSurfBounds, cause := .bounds, sub := 0, addr := p } bad [])

/-- Results of every lane, or the fault of the earliest check at which any fails, naming those lanes. -/
def perLane {α : Type} (ls : List Nat) (f : Nat → SurfM α) : SurfM (List (Nat × α)) :=
  let rs := ls.map fun l => (l, f l)
  let needs := rs.filterMap fun r => match r.2 with | .error (.need w) => some w | _ => none
  let bads := rs.filterMap fun r =>
    match r.2 with
    | .error (.bad b) => some (r.1, b)
    | .error (.badAt b _ _) => some (r.1, b)
    | _ => none
  match needs, bads with
  | w :: _, _ => .error (.need w)
  | [], [] => .ok (rs.filterMap fun r => match r.2 with | .ok x => some (r.1, x) | _ => none)
  | [], _ :: _ =>
    let stage := bads.foldl (fun x b => min x b.2.stage) 100
    let mine := bads.filter fun b => b.2.stage == stage
    match mine with
    | [] => .ok []
    | (_, b) :: _ => .error (.badAt b (maskOf fun l => mine.any fun x => x.1 == l) (mine.map fun x => x.2))

/-- The half that a registered operation on a tile still waits for, if one does: later operations come after it (R382). -/
def tileHalf (d : Dev) (dhalf tile : Nat) : Option Nat :=
  d.deferred.findSome? fun e =>
    match e.2 with
    | .surfaceOpApply id => if d.surfOps.any fun q => q.id == id && q.dhalf == dhalf && q.tile == tile then some e.1 else none
    | _ => none

/-- The number of a surface's descriptor in memory by 64 bytes, which names the surface (R388). -/
def descNo (m : Mgmt) (d : Dev) (ctx : Nat) (p : DWord) : Nat :=
  match locate m d ctx noSpindle p with
  | .ok (_, pa) => pa / 64
  | .error _ => 0

/-- A path-dependent latency of a surface load (R97, R425). (DEDUCED: notes/assumptions/10) -/
def surfLat (d : Dev) : Nat := latL1 + freeBelow d 33000 512

/-- A lane's pixel with its lane, for the lanes of a list. -/
def pixList (d : Dev) (o : Lm) (ls : List Nat) : List (Nat × Nat × Nat) := ls.map fun l => (l, (pixOf d o l).1, (pixOf d o l).2)

/-- The checks of a lane load from a surface: the surface, the pixels, then what each lane's pixel needs; the surface as read. -/
def loadSurf (m : Mgmt) (d : Dev) (o : Lm) (ncomp : Nat) (predicts : Bool) (comps : List Nat) (ls : List Nat) : SurfM Surf :=
  let ctx := curCtx d
  let p := readS64 d (curSkein d) o.sb.toNat
  match openSurf m d ctx p false (lanesIn p (pixList d o ls) ncomp 0) with
  | .error e => .error e
  | .ok s =>
    let blks (x y : Nat) : List (Nat × Nat) := if predicts then comps.map fun c => (c, blkOfPix x y) else []
    let pix (l : Nat) : Nat × Nat := pixOf d o l
    (perLane ls fun l => checkBlocks m d ctx s (tileOfPix s (pix l).1 (pix l).2) (blks (pix l).1 (pix l).2) false none).map fun _ => s

/-- A half that a registered write of a tile of some lane's pixel waits for. -/
def pixHalf (m : Mgmt) (d : Dev) (o : Lm) (s : Surf) (ls : List Nat) : Option Nat :=
  let p := readS64 d (curSkein d) o.sb.toNat
  (pixList d o ls).findSome? fun q => tileHalf d (descNo m d (curCtx d) p) (tileOfPix s q.2.1 q.2.2)

/-- The blocks that lanes' loads reconstructed, kept (R384). (DESIGN CHOICE: notes/assumptions/31) -/
def keepBlocks (m : Mgmt) (d : Dev) (ctx : Nat) (s : Surf) (bs : List (Nat × Nat × Nat × List Nat)) : Dev :=
  bs.foldl (fun d b => keepBlock m d ctx s b.1 b.2.1 b.2.2.1 b.2.2.2) d

/-- The tiles of the lanes' pixels, whose slots the codec has used, and where it `predicts` those its blocks were predicted from.
(DESIGN CHOICE: notes/assumptions/31) -/
def noteTiles (m : Mgmt) (d : Dev) (ctx : Nat) (s : Surf) (predicts : Bool) (xy : List (Nat × Nat × Nat)) : Dev :=
  let one (d : Dev) (q : Nat × Nat) : Dev :=
    match predicts, readHdr m d ctx s q.1 with
    | true, .ok h => noteRefs m (noteTile m d ctx s q.1) ctx s h (blockPixels s q.1 q.2)
    | _, _ => noteTile m d ctx s q.1
  (xy.map fun q => (tileOfPix s q.2.1 q.2.2, blkOfPix q.2.1 q.2.2)).dedup.foldl one d

/-- A lane load from a surface: the checks, the tiles' checks, then each lane's value. -/
def surfLoad (m : Mgmt) (d : Dev) (o : Lm) (ncomp : Nat) (predicts : Bool) (comps : List Nat) (dst : Nat → List PWrite)
    (value : Surf → Nat → SurfM (List PWrite × List (Nat × Nat × Nat × List Nat))) : Dev :=
  laneIssue m d (hdXw o [.s o.sb 2, .v o.a 1] false) fun ex da =>
    let ls := lanesOf ex
    let undef := ls.flatMap dst
    if ls.isEmpty then .done da
    else
      match loadSurf m d o ncomp predicts comps ls with
      | .error e => surfRes d ex false undef e
      | .ok s =>
        match pixHalf m d o s ls with
        | some h => .park d (.half h)
        | none =>
          match perLane ls (value s) with
          | .error e => surfRes d ex false undef e
          | .ok vs =>
            let d1 := keepBlocks m (noteTiles m da (curCtx d) s predicts (pixList d o ls)) (curCtx d) s (vs.flatMap fun v => v.2.2)
            .done (addPend d1 d.cur.skein (surfLat d) (vs.flatMap fun v => v.2.1))

/-- First component and number of components of LDPX and STPX. -/
def pixC0 (o : Lm) : Nat := bitsOf o.xw.sub 0 2
def pixNc (o : Lm) : Nat := bitsOf o.xw.sub 2 2 + 1

/-- The components LDPX and STPX name. -/
def pixComps (o : Lm) : List Nat := (List.range (pixNc o)).map fun i => pixC0 o + i

/-- What LDPX gives one lane: its pixel's value of each component, an integer or a fraction of the largest, and the blocks it
reconstructed. -/
def ldpxValue (m : Mgmt) (d : Dev) (o : Lm) (s : Surf) (l : Nat) : SurfM (List PWrite × List (Nat × Nat × Nat × List Nat)) :=
  let x := (pixOf d o l).1
  let y := (pixOf d o l).2
  let t := tileOfPix s x y
  ((pixComps o).mapM fun c => blockPix m d (curCtx d) s t c (blkOfPix x y)).map fun bs =>
    let one (b : List Nat) : Nat :=
      let q := b.getD (posOfPix x y) 0
      if o.xw.ty == 1 then q else div32 (.fin false q 0) (.fin false s.top 0)
    (bs.zipIdx.map (fun b => PWrite.v l (o.d.toNat + b.2) (BitVec.ofNat 32 (one b.1))),
      (bs.zip (pixComps o)).map fun b => (t, b.2, blkOfPix x y, b.1))

/-- LDPX (R426). -/
def execLdpx (o : Lm) (s : State) : Host.Outcome State Fault Refusal :=
  s.run fun m d =>
    surfLoad m d o (pixC0 o + pixNc o) true (pixComps o) (fun l => splitRegs (wrV l) o.d.toNat 0 (pixNc o)) (ldpxValue m d o)

/-- The component of LDCF and STCF. -/
def coefComp (o : Lm) : Nat := bitsOf o.xw.disp 0 2

/-- What LDCF gives one lane: a coefficient, as a level or dequantised. -/
def ldcfValue (m : Mgmt) (d : Dev) (o : Lm) (s : Surf) (l : Nat) : SurfM (List PWrite × List (Nat × Nat × Nat × List Nat)) :=
  let ctx := curCtx d
  let x := (pixOf d o l).1
  let y := (pixOf d o l).2
  let t := tileOfPix s x y
  match readHdr m d ctx s t with
  | .error e => .error e
  | .ok h =>
    (readSlot m d ctx s t (coefComp o) (blkOfPix x y)).map fun (dq, q, _) =>
      let v := q.getD o.xw.sub.toNat 0
      ([.v l o.d.toNat (BitVec.ofInt 32 (if o.xw.disp.getLsbD 2 then v else dequantLevel (blockQp h.tqp dq) v))], [])

/-- LDCF (R429). -/
def execLdcf (o : Lm) (s : State) : Host.Outcome State Fault Refusal :=
  s.run fun m d =>
    surfLoad m d o (coefComp o + 1) false [coefComp o] (fun l => res1 (wrV l) o.d 0) (ldcfValue m d o)

/-! ## Writes -/

/-- A data value as a component value (R427). -/
def compValue (ty : BitVec 4) (top : Nat) (x : Word) : Nat :=
  if ty == 1 then min x.toNat top
  else
    match val32 x.toNat with
    | .nan _ _ => 0
    | .inf n => if n then 0 else top
    | .fin n mant e => if n then 0 else min (roundUnits 0 false (mant * top) e 0 false).1 top

/-- One written pixel of a lane: its tile, block and place, the values of its components. -/
structure PixWrite where
  lane : Nat
  tile : Nat
  blk : Nat
  pos : Nat
  vals : List Nat
  deriving DecidableEq, Repr

/-- Pixels grouped by block: one pixel write for each component, the latest pixel of a place staying (R427). -/
def groupPixels (c0 nc : Nat) (ps : List (Nat × Nat × List Nat)) : List SurfAct :=
  let blks := (ps.map fun p => p.1).dedup
  ((List.range nc).flatMap fun c => (List.range 16).map fun b => (c, b)).filterMap fun (c, b) =>
    if !blks.contains b then none
    else
      let mine := ps.filter fun p => p.1 == b
      let mask := mine.foldl (fun (k : BitVec 16) p => k ||| BitVec.ofNat 16 (2 ^ p.2.1)) 0
      let vals := (List.range 16).map fun i =>
        mine.foldl (fun v p => if p.2.1 == i then p.2.2.getD c 0 else v) 0
      some (.pixels (c0 + c) b mask vals)

/-- The operations of a write made out, each under a fresh name, and not yet registered. -/
def addOps (d : Dev) (ops : List SurfOp) : Dev :=
  ops.foldl (fun d q => { d with nextId := d.nextId + 1, surfOps := d.surfOps ++ [{ q with id := d.nextId }] }) d

/-- The skein waits for its operations to be registered (R425). (DESIGN CHOICE: notes/assumptions/29) -/
def holdOps (d : Dev) (ops : List SurfOp) : Res := .park (post (addOps d ops) (.surfaceWriteRegistered d.cur.skein)) .surf

/-- The device as every operation would leave it: what they wait for comes first. (DESIGN CHOICE: notes/assumptions/29) -/
def tryOps (m : Mgmt) (d : Dev) (ctx : Nat) (s : Surf) (ops : List SurfOp) : SurfM Unit :=
  let sp := curSpindle d
  (ops.foldlM (fun (d : Dev) (q : SurfOp) => q.acts.foldlM (fun d a => applyAct m d sp ctx s q.tile a) d) d).map fun _ => ()

/-- An operation of the issuing skein on a tile. -/
def surfOp (m : Mgmt) (d : Dev) (p : DWord) (lanes : Mask) (tile : Nat) (acts : List SurfAct) : SurfOp :=
  { id := 0, skein := d.cur.skein, gid := (curSkein d).gid, ctx := curCtx d, lanes := lanes, desc := p,
    dhalf := descNo m d (curCtx d) p, tile := tile, acts := acts, comp0 := 0, ord := [], marks := [], placed := false, reg := false }

/-- The pixel of a surface in a tile group's tile, and whether a quad entry names it (R399, R428). -/
def tilePix (x y : Nat) : Nat := 32 * (y % 32) + x % 32
def quadHas (q : Nat × BitVec 4) (px : Nat) : Bool :=
  let x := px % 32
  let y := px / 32
  q.1 == 16 * (y / 2) + x / 2 && q.2.getLsbD (2 * (y % 2) + x % 2)

/-- The checks of an ordered write beyond a tile group: entry and pixel (R428). -/
def ordOk (r : TileRound) (x y k : Nat) : Bool :=
  decide (x / 32 < r.across) && y / 32 * r.across + x / 32 == r.tile &&
    match r.quads[k]? with
    | some q => quadHas q (tilePix x y)
    | none => false

/-- Operations sent to be registered, once nothing they need has to be waited for. (DESIGN CHOICE: notes/assumptions/28) -/
def sendOps (m : Mgmt) (d : Dev) (s : Surf) (ops : List SurfOp) : Res :=
  match tryOps m d (curCtx d) s ops with
  | .error (.need w) => waitFor d w
  | _ => holdOps d ops

/-- An ordered STPX, and the entry of a lane of one. -/
def pixOrd (o : Lm) : Bool := o.xw.disp.getLsbD 0
def pixKey (d : Dev) (o : Lm) (l : Nat) : Nat := (readV d (curSkein d) l (o.d.toNat + pixNc o)).toNat

/-- The checks of STPX (R424, R428): the surface, the pixels and the ordered entries, a tile group for an ordered one, the blocks. -/
def stpxChecks (m : Mgmt) (d : Dev) (o : Lm) (ex : Mask) : SurfM Surf :=
  let ctx := curCtx d
  let p := readS64 d (curSkein d) o.sb.toNat
  let ls := lanesOf ex
  let xy := pixList d o ls
  let round := (curGroup d).tile
  let limits (s : Surf) : SurfM Unit :=
    let out : Mask := match pixOrd o, round with
      | true, some r => maskOf fun l => xy.any fun q => q.1 == l && !ordOk r q.2.1 q.2.2 (pixKey d o l)
      | _, _ => 0
    lanesIn p xy (pixC0 o + pixNc o) out s
  match openSurf m d ctx p true limits with
  | .error e => .error e
  | .ok s =>
    if pixOrd o && round.isNone then .error (.badAt { stage := stSurfBounds, cause := .perm, sub := 0, addr := p } ex [])
    else
      let blks (x y : Nat) : List (Nat × Nat) := (List.range (pixNc o)).map fun c => (pixC0 o + c, blkOfPix x y)
      match perLane ls (fun l =>
        checkBlocks m d ctx s (tileOfPix s (pixOf d o l).1 (pixOf d o l).2) (blks (pixOf d o l).1 (pixOf d o l).2) true none) with
      | .error e => .error e
      | .ok _ => (checkOvf m d ctx s).map fun _ => s

/-- The operations of STPX, one for each tile that a lane's pixel lies in, in tile order. -/
def stpxOps (m : Mgmt) (d : Dev) (o : Lm) (ex : Mask) (s : Surf) : List SurfOp :=
  let p := readS64 d (curSkein d) o.sb.toNat
  let nc := pixNc o
  let ps : List PixWrite := (pixList d o (lanesOf ex)).map fun (l, x, y) =>
    { lane := l, tile := tileOfPix s x y, blk := blkOfPix x y, pos := posOfPix x y,
      vals := (List.range nc).map fun i => compValue o.xw.ty s.top (readV d (curSkein d) l (o.d.toNat + i)) }
  ((ps.map fun q => q.tile).dedup.insertionSort (· ≤ ·)).map fun t =>
    let mine := ps.filter fun q => q.tile == t
    if pixOrd o then
      { surfOp m d p ex t [] with
        comp0 := pixC0 o,
        ord := mine.map fun q =>
          let xy := pixOf d o q.lane
          { entry := pixKey d o q.lane, px := tilePix xy.1 xy.2, blk := q.blk, pos := q.pos, vals := q.vals } }
    else surfOp m d p ex t (groupPixels (pixC0 o) nc (mine.map fun q => (q.blk, q.pos, q.vals)))

/-- STPX (R427, R428). -/
def execStpx (o : Lm) (s : State) : Host.Outcome State Fault Refusal :=
  s.run fun m d =>
    laneIssue m d (hdXw o [.s o.sb 2, .v o.a 1, .v o.d (pixNc o + if pixOrd o then 1 else 0)] true) fun ex da =>
      if (lanesOf ex).isEmpty then .done da
      else
        match stpxChecks m d o ex with
        | .error e => surfRes d ex true [] e
        | .ok s => sendOps m d s (stpxOps m d o ex s)

/-- The checks of STCF (R424, R430): a level outside 16 signed bits is out of bounds. -/
def stcfChecks (m : Mgmt) (d : Dev) (o : Lm) (ex : Mask) : SurfM Surf :=
  let ctx := curCtx d
  let p := readS64 d (curSkein d) o.sb.toNat
  let ls := lanesOf ex
  let v (l : Nat) : Int := (readV d (curSkein d) l o.d.toNat).toInt
  let out := maskOf fun l => ls.contains l && !(decide (-32768 ≤ v l) && decide (v l ≤ 32767))
  match openSurf m d ctx p true (lanesIn p (pixList d o ls) (coefComp o + 1) out) with
  | .error e => .error e
  | .ok s =>
    match perLane ls (fun l => checkBlocks m d ctx s (tileOfPix s (pixOf d o l).1 (pixOf d o l).2) [] true none) with
    | .error e => .error e
    | .ok _ => (checkOvf m d ctx s).map fun _ => s

/-- The operations of STCF: of several lanes of one block the highest stays. -/
def stcfOps (m : Mgmt) (d : Dev) (o : Lm) (ex : Mask) (s : Surf) : List SurfOp :=
  let p := readS64 d (curSkein d) o.sb.toNat
  let ls := lanesOf ex
  let tile (l : Nat) : Nat := tileOfPix s (pixOf d o l).1 (pixOf d o l).2
  let blk (l : Nat) : Nat := blkOfPix (pixOf d o l).1 (pixOf d o l).2
  ((ls.map tile).dedup.insertionSort (· ≤ ·)).map fun t =>
    let mine := ls.filter fun l => tile l == t
    surfOp m d p ex t ((List.range 16).filterMap fun b =>
      ((mine.filter fun l => blk l == b).getLast?).map fun l =>
        .coef (coefComp o) b o.xw.sub.toNat (readV d (curSkein d) l o.d.toNat).toInt)

/-- STCF (R430). -/
def execStcf (o : Lm) (s : State) : Host.Outcome State Fault Refusal :=
  s.run fun m d =>
    laneIssue m d (hdXw o [.s o.sb 2, .v o.a 1, .v o.d 1] true) fun ex da =>
      if (lanesOf ex).isEmpty then .done da
      else
        match stcfChecks m d o ex with
        | .error e => surfRes d ex true [] e
        | .ok s => sendOps m d s (stcfOps m d o ex s)

/-! ## Uniform entries (R434 to R437) -/

/-- The operands of STMV and SURFCLR: the descriptor's pointer and two words. -/
def surfPtr (d : Dev) (o : Ue) : DWord := readS64 d (curSkein d) o.sp.toNat
def surfArg (d : Dev) (o : Ue) (i : Nat) : Word := readS d (curSkein d) (o.sp.toNat + i)

/-- The checks of STMV (R436): the tile, the mode's reference and the reserved bits, then every block. -/
def stmvChecks (m : Mgmt) (d : Dev) (o : Ue) : SurfM Surf :=
  let ctx := curCtx d
  let p := surfPtr d o
  let tx := bitsOf (surfArg d o 2) 0 16
  let ty := bitsOf (surfArg d o 2) 16 16
  let mv := surfArg d o 3
  let mode := bitsOf mv 24 2
  let limits (s : Surf) : SurfM Unit :=
    if decide (s.tilesX ≤ tx) || decide (s.tilesY ≤ ty) || bitsOf mv 26 6 != 0 || decide (s.nref < mode) then
      sbad stSurfBounds .bounds p
    else .ok ()
  match openSurf m d ctx p true limits with
  | .error e => .error e
  | .ok s =>
    let blks := (List.range (16 * s.comps)).map fun i => (i / 16, i % 16)
    match checkBlocks m d ctx s (s.tileNo tx ty) blks true (some (mode, bitsOf mv 0 12, bitsOf mv 12 12)) with
    | .error e => .error e
    | .ok _ => (checkOvf m d ctx s).map fun _ => s

/-- The operation of STMV. -/
def stmvOps (m : Mgmt) (d : Dev) (o : Ue) (s : Surf) : List SurfOp :=
  let xy := surfArg d o 2
  let mv := surfArg d o 3
  [surfOp m d (surfPtr d o) d.cur.lanes (s.tileNo (bitsOf xy 0 16) (bitsOf xy 16 16))
    [.rebase (bitsOf mv 24 2) (bitsOf mv 0 12) (bitsOf mv 12 12)]]

/-- STMV (R436). -/
def execStmv (o : Ue) (s : State) : Host.Outcome State Fault Refusal :=
  s.run fun m d =>
    uniIssue m d (hdUe o 4 [.s o.sp 4]) fun _ =>
      match stmvChecks m d o with
      | .error e => surfRes d d.cur.lanes true [] e
      | .ok s => sendOps m d s (stmvOps m d o s)

/-- The tiles of SURFCLR, row by row (R437). -/
def clrTiles (d : Dev) (o : Ue) (s : Surf) : List Nat :=
  let xy := surfArg d o 2
  let wh := surfArg d o 3
  (List.range (bitsOf wh 16 16)).flatMap fun j => (List.range (bitsOf wh 0 16)).map fun i =>
    s.tileNo (bitsOf xy 0 16 + i) (bitsOf xy 16 16 + j)

/-- The checks of SURFCLR. -/
def clrChecks (m : Mgmt) (d : Dev) (o : Ue) : SurfM Surf :=
  let ctx := curCtx d
  let xy := surfArg d o 2
  let wh := surfArg d o 3
  let limits (s : Surf) : SurfM Unit :=
    if s.tilesX < bitsOf xy 0 16 + bitsOf wh 0 16 ∨ s.tilesY < bitsOf xy 16 16 + bitsOf wh 16 16 then
      sbad stSurfBounds .bounds (surfPtr d o)
    else .ok ()
  match openSurf m d ctx (surfPtr d o) true limits with
  | .error e => .error e
  | .ok s => ((clrTiles d o s).forM fun t => checkTile m d ctx s t true).map fun _ => s

/-- SURFCLR (R437). -/
def execSurfclr (o : Ue) (s : State) : Host.Outcome State Fault Refusal :=
  s.run fun m d =>
    uniIssue m d (hdUe o 4 [.s o.sp 4]) fun da =>
      match clrChecks m d o with
      | .error e => surfRes d d.cur.lanes true [] e
      | .ok s =>
        if (clrTiles d o s).isEmpty then .done da
        else sendOps m d s ((clrTiles d o s).map fun t => surfOp m d (surfPtr d o) d.cur.lanes t [.clear])

/-- A stream's key, and the stream if it runs. -/
def streamKey (die n : Nat) : Nat := 16 * die + n

/-- Whether a SEAL of a surface has registered. (DESIGN CHOICE: notes/assumptions/28) -/
def sealPending (d : Dev) (dhalf : Nat) : Bool := d.surfOps.any fun x => x.reg && x.dhalf == dhalf && x.acts.contains .seal

/-- SEAL (R388, R435): it takes its place after the writes registered before it; behind another SEAL it meets a sealed surface. -/
def execSeal (o : Ue) (s : State) : Host.Outcome State Fault Refusal :=
  s.run fun m d =>
    uniIssue m d (hdUe o 4 [.s o.sp 2]) fun _ =>
      let ctx := curCtx d
      let all := d.cur.lanes
      let die := (curGroup d).die
      let p := readS64 d (curSkein d) o.sp.toNat
      let egr := o.sub.getLsbD 0 && !d.sealOnly.contains d.cur.skein
      let key := streamKey die (o.tag.toNat % 16)
      match openSurf m d ctx p true fun _ => .ok () with
      | .error e => surfRes d all true [] e
      | .ok _ =>
        let st := tget? d.streams key
        let mine := (st.map fun x => x.ctx == ctx).getD false
        let full := (st.map fun x => decide (4 ≤ x.queue.length)).getD false
        if sealPending d (descNo m d ctx p) || (egr && !mine) then .fault (faultAt .perm p all)
        else if egr && full then .park d (.egress die (o.tag.toNat % 16))
        else
          match surfCheck m d ctx p 4 4 stTile true with
          | .error e => surfRes d all true [] e
          | .ok _ =>
            let (i, d1) := fresh d
            let q := { surfOp m d p all 0 [.seal] with id := i, reg := true }
            .park (post { d1 with surfOps := d1.surfOps ++ [q], sealOnly := d1.sealOnly.filter fun u => u != d.cur.skein }
                (.surfaceOpApply i))
              (.seal i (if egr then some key else none))

/-! ## Registration and application (R382, R388, R402, R425) -/

/-- Whether the interlock lets a pixel through: every earlier entry that covers it has written it, or this pair has been written.
(DESIGN CHOICE: notes/assumptions/29) -/
def released (r : TileRound) (q : OrdPix) : Bool :=
  r.done.contains (q.entry, q.px) ||
    (r.quads.zipIdx.all fun e => decide (q.entry ≤ e.2) || !quadHas e.1 q.px || r.done.contains (e.2, q.px))

/-- Whether a surface is sealed, or a SEAL of it has registered; an operation that has its place already stands before any such. -/
def isSealed (m : Mgmt) (d : Dev) (q : SurfOp) : SurfM Bool :=
  if q.placed then .ok false
  else if sealPending d q.dhalf then .ok true
  else (readSurfAgain m d q.ctx q.desc).map fun s => s.sealed

/-- One operation given its place before any later SEAL; without the interlock it may be applied. Of an ordered one the pixels that
the interlock lets through go, the others stay behind as an operation that waits. (DESIGN CHOICE: notes/assumptions/28) -/
def registerOp (d : Dev) (q : SurfOp) : Dev :=
  let round := (groupOf d q.gid).tile
  let go := q.ord.filter fun x => match round with | some r => released r x | none => true
  let stay := q.ord.filter fun x => !go.contains x
  let others := d.surfOps.filter fun x => x.id != q.id
  if q.ord.isEmpty then post { d with surfOps := others ++ [{ q with placed := true, reg := true }] } (.surfaceOpApply q.id)
  else if go.isEmpty then { d with surfOps := others ++ [{ q with placed := true }] }
  else
    let nc := (go.head?.map fun x => x.vals.length).getD 0
    let (i, d1) := fresh d
    let sent : SurfOp :=
      { q with
        id := i, acts := groupPixels q.comp0 nc (go.map fun x => (x.blk, x.pos, x.vals)), ord := [],
        marks := go.map fun x => (x.entry, x.px), placed := true, reg := true }
    let rest : List SurfOp := if stay.isEmpty then [] else [{ q with ord := stay, placed := true }]
    post { d1 with surfOps := others ++ rest ++ [sent] } (.surfaceOpApply i)

/-- SURFACE_WRITE_REGISTERED (R388, R402, R425): the operations of a skein take their places; where they come after a SEAL, that
raises PERM and none has an effect (R108); with all of them let through the skein issues again. (DESIGN CHOICE: notes/assumptions/28) -/
def execSurfaceWriteRegistered (skein : Nat) (s : State) : Host.Outcome State Fault Refusal :=
  s.run fun m d =>
    let mine (d : Dev) : List SurfOp := d.surfOps.filter fun q => q.skein == skein && !q.reg
    match (skeinOf d skein).park, mine d with
    | some .surf, q :: _ =>
      match isSealed m d q with
      | .error (.need w) => defer d w (.surfaceWriteRegistered skein)
      | .ok false =>
        let d1 := (mine d).foldl registerOp d
        if (mine d1).isEmpty then unpark d1 skein else d1
      | _ =>
        let k := skeinOf d skein
        let pc := (threadOf k ((lanesOf k.parkLanes).headD 0)).pc
        let d1 := { d with surfOps := d.surfOps.filter fun q => q.reg || q.skein != skein }
        takeFault m d1 skein pc k.parkNext k.parkLanes (faultAt .perm q.desc q.lanes)
    | some .surf, [] => unpark d skein
    | _, _ => d

/-- The operations of a surface that may now be applied: a SEAL of it, and the next one of a tile. -/
def pokeOps (d : Dev) (dhalf tile : Nat) : Dev :=
  postAll d ((d.surfOps.filter fun q => q.reg && q.dhalf == dhalf && (q.acts.contains .seal || q.tile == tile)).map
    fun q => .surfaceOpApply q.id)

/-- Every registered SEAL looked at again. -/
def pokeSeals (d : Dev) : Dev :=
  postAll d ((d.surfOps.filter fun q => q.reg && q.acts.contains .seal).map fun q => .surfaceOpApply q.id)

/-- Whether an operation has to wait for others: a SEAL for every write of its surface that has its place, all of which stand before
it (R388); a write for those of its tile registered before it (R382). (DESIGN CHOICE: notes/assumptions/28) -/
def opWaits (d : Dev) (q : SurfOp) : Bool :=
  if q.acts.contains .seal then d.surfOps.any fun x => x.id != q.id && x.dhalf == q.dhalf && (x.placed || x.reg)
  else (d.surfOps.takeWhile fun x => x.id != q.id).any fun x =>
    x.reg && x.dhalf == q.dhalf && x.tile == q.tile && !x.acts.contains .seal

/-- A SEAL completed: SEALED and DEPTH set, the release, the surface queued for egress (R388, R390, R435). -/
def sealNow (m : Mgmt) (d : Dev) (q : SurfOp) (stream : Option Nat) : SurfM Dev :=
  match readSurfAgain m d q.ctx q.desc with
  | .error e => .error e
  | .ok s =>
    match s.refs.mapM (readSurfAgain m d q.ctx) with
    | .error e => .error e
    | .ok rs =>
      let depth := if rs.isEmpty then 0 else 1 + rs.foldl (fun x r => max x r.depth) 0
      match surfRead m d q.ctx q.desc 4 4 with
      | .error e => .error e
      | .ok w =>
        let w1 := w % 2 ^ 12 + 2 ^ 12 + w / 2 ^ 13 % 2 ^ 3 * 2 ^ 13 + depth % 4 * 2 ^ 16 + w / 2 ^ 18 * 2 ^ 18
        match surfWrite m d (spindleNo (groupOf d q.gid)) q.ctx q.desc 4 w1 with
        | .error e => .error e
        | .ok d1 =>
          match releaseAt m d1 q.ctx (spindleNo (groupOf d1 q.gid)) 4 with
          | .error (.need n) => .error (.need n)
          | .error _ => .ok d1
          | .ok d2 =>
            .ok (match stream with
              | some key =>
                { d2 with
                  streams := d2.streams.map fun e => if e.1 == key then (e.1, { e.2 with queue := e.2.queue ++ [q.desc] }) else e }
              | none => d2)

/-- SURFACE_OP_APPLY (R382, R388). (DESIGN CHOICE: notes/assumptions/28, 30) -/
def execSurfaceOpApply (op : Nat) (s : State) : Host.Outcome State Fault Refusal :=
  s.run fun m d =>
    let ev : Instr := .surfaceOpApply op
    match d.surfOps.find? fun q => q.id == op && q.reg with
    | none => d
    | some q =>
      let without (d1 : Dev) : Dev := namedBy d (groupOf d q.gid) { d1 with surfOps := d1.surfOps.filter fun x => x.id != op }
      let lost (d : Dev) (b : Bad) : Dev := takeDeviceFault m d q.ctx b.cause b.sub b.addr 0
      if q.acts.contains .seal then
        let stream := match (skeinOf d q.skein).park with | some (.seal _ st) => st | _ => none
        let room := match stream with
          | some key => (tget? d.streams key).elim true fun x => decide (x.queue.length < 4)
          | none => true
        if opWaits d q || !room then d
        else
          match sealNow m d q stream with
          | .error (.need w) => defer d w ev
          | .error (.bad b) => unpark (without (lost d b)) q.skein
          | .error (.badAt b _ _) => unpark (without (lost d b)) q.skein
          | .ok d1 => unpark (without d1) q.skein
      else if opWaits d q then d
      else
        let sp := spindleNo (groupOf d q.gid)
        let res : SurfM Dev :=
          match readSurfAgain m d q.ctx q.desc with
          | .error e => .error e
          | .ok s => q.acts.foldlM (fun d a => applyAct m d sp q.ctx s q.tile a) d
        let done (d : Dev) : Dev :=
          let d1 := modGroup (without d) q.gid fun g =>
            { g with tile := g.tile.map fun r => { r with done := r.done ++ q.marks.filter fun x => !r.done.contains x } }
          let waiting := (d1.skeins.filter fun k => k.gid == q.gid && k.park == some .surf).map fun k =>
            Instr.surfaceWriteRegistered k.uid
          resumeHalf (pokeOps (if q.marks.isEmpty then d1 else postAll d1 waiting) q.dhalf q.tile) (2 * (q.dhalf / 2))
        match res with
        | .error (.need w) => defer d w ev
        | .error (.bad b) => done (lost d b)
        | .error (.badAt b _ _) => done (lost d b)
        | .ok d1 => done d1

end Sys2Proof.Machine
end

