-- ==== Sys2Proof/Machine/Shading.lean ====
section
/-!
DEFINITION. Filter programs and SMP (R416 to R422, R431), and the decoupled sampling cache with DSCL and DSCF (R408 to R415, R432,
R433).
-/

namespace Sys2Proof.Machine

/-! ## Image descriptors and filter programs (R416 to R419) -/

/-- An image: filter table, base, row pitch, size, whether it is a predictive surface, texel format. -/
structure Image where
  ftab : DWord
  base : DWord
  pitch : Nat
  w : Nat
  h : Nat
  pred : Bool
  fmt : Nat
  deriving DecidableEq, Repr

/-- An image descriptor as read, unless it is malformed. (DEDUCED: notes/assumptions/34) -/
def parseImage (x : BitVec 256) : Option Image :=
  let i : Image :=
    { ftab := x.extractLsb' 192 64, base := x.extractLsb' 128 64, pitch := bitsOf x 96 32, w := bitsOf x 64 16,
      h := bitsOf x 80 16, pred := x.getLsbD 8, fmt := bitsOf x 0 4 }
  let sized := i.pred || (decide (1 ≤ i.w) && decide (i.w ≤ 16384) && decide (1 ≤ i.h) && decide (i.h ≤ 16384))
  if sized && decide (i.fmt < 4) && bitsOf x 4 4 == 0 && bitsOf x 9 55 == 0 && i.ftab.toNat % 512 == 0 then some i else none

/-- A tap (R418). -/
structure Tap where
  factor : FVal
  dx : Int
  dy : Int
  px : Nat
  py : Nat
  op : Nat
  mask : Nat
  deriving DecidableEq, Repr

/-- A filter program: the x and y polynomials, constant term first, the taps in use, and the control word's fields. -/
structure Prog where
  px : List (List FVal)
  py : List (List FVal)
  taps : List Tap
  cmpf : Nat
  norm : Bool
  cmp : Bool
  deriving DecidableEq, Repr

/-- Whether a value is a finite number. -/
def isFin : FVal → Bool
  | .fin .. => true
  | _ => false

/-- A program slot as read, unless it is malformed (R419). -/
def parseProg (x : BitVec 4096) : Option Prog :=
  let coef (i : Nat) : FVal := fdecode fmtF32 (bitsOf x (32 * i) 32)
  let poly (i : Nat) : List FVal := (List.range 4).map fun j => coef (4 * i + j)
  let tap (i : Nat) : Tap :=
    let w := x.extractLsb' (1024 + 32 * i) 32
    { factor := fdecode fmtF16 (bitsOf w 16 16), dx := (w.extractLsb' 12 4).toInt, dy := (w.extractLsb' 8 4).toInt,
      px := bitsOf w 6 2, py := bitsOf w 4 2, op := bitsOf w 2 2, mask := bitsOf w 0 2 }
  let c := x.extractLsb' 3072 64
  let n := bitsOf c 0 7
  let p : Prog :=
    { px := (List.range 4).map poly, py := (List.range 4).map fun i => poly (4 + i), taps := (List.range n).map tap,
      cmpf := bitsOf c 14 2, norm := c.getLsbD 13, cmp := c.getLsbD 12 }
  let used (t : Tap) : Bool := isFin t.factor && (p.px.getD t.px []).all isFin && (p.py.getD t.py []).all isFin
  if decide (1 ≤ n) && decide (n ≤ 64) && bitsOf c 16 48 == 0 && bitsOf c 7 5 == 0 && bitsOf x 3136 960 == 0 &&
      p.taps.all (fun t => used t && (p.cmp || t.op != 1)) then some p
  else none

/-! ## The filter (R420, R421) -/

/-- A rounded result as a value. -/
def f32v (r : Nat × FFlags) : FVal := fdecode fmtF32 r.1

/-- A coordinate less a half, as its floor and its exact fraction; NaN and ±∞ are taken as 0.5. -/
def texelAt (x : Nat) : Int × FVal :=
  match fdecode fmtF32 x with
  | .fin neg m e =>
    let u := min e (-1)
    let k := (-u).toNat
    let n := funits neg m e u - 2 ^ (k - 1)
    (n / 2 ^ k, .fin false (n % 2 ^ k).toNat u)
  | _ => (0, .fin false 0 0)

/-- A polynomial at a fraction. -/
def polyAt (c : List FVal) (f : FVal) : FVal :=
  let z : FVal := .fin false 0 0
  let fma (p q : FVal) : FVal := f32v (ffmaVal fmtF32 envRne p f q)
  fma (fma (fma (c.getD 3 z) (c.getD 2 z)) (c.getD 1 z)) (c.getD 0 z)

/-- A tap's weight. -/
def tapWeight (p : Prog) (t : Tap) (fx fy : FVal) : FVal :=
  let xy := f32v (fmulVal fmtF32 envRne (polyAt (p.px.getD t.px []) fx) (polyAt (p.py.getD t.py []) fy))
  f32v (fmulVal fmtF32 envRne xy t.factor)

/-- The components a tap acts on. -/
def tapComps (t : Tap) : List Nat :=
  if t.mask = 0 then [0, 1, 2, 3] else if t.mask = 1 then [0] else if t.mask = 2 then [0, 1, 2] else [3]

/-- The compare of a program. -/
def cmpHolds (f : Nat) (a b : FVal) : Bool :=
  match fcmp a b with
  | none => false
  | some o => if f = 0 then o == .lt else if f = 1 then o != .gt else if f = 2 then o == .gt else o != .lt

/-- The four results of a program for its texels in tap order, each four FP32 patterns. -/
def filterVal (p : Prog) (u v ref : Nat) (texels : List (List Nat)) : List Nat :=
  let fx := (texelAt u).2
  let fy := (texelAt v).2
  let z : FVal := .fin false 0 0
  let one : FVal := .fin false 1 0
  let step (a : List (Option Nat) × FVal) (tt : Tap × List Nat) : List (Option Nat) × FVal :=
    let (t, tx) := tt
    let w := tapWeight p t fx fy
    let val (c : Nat) : FVal :=
      if t.op = 1 then (if cmpHolds p.cmpf (fdecode fmtF32 (tx.getD 0 0)) (fdecode fmtF32 ref) then one else z)
      else fdecode fmtF32 (tx.getD c 0)
    let comp (c : Nat) (x : Option Nat) : Option Nat :=
      if !(tapComps t).contains c then x
      else
        let term := (fmulVal fmtF32 envRne w (val c)).1
        match x with
        | none => some term
        | some y =>
          if t.op ≤ 1 then some (faddVal fmtF32 envRne (fdecode fmtF32 y) (fdecode fmtF32 term)).1
          else some (fminmax fmtF32 envRne (t.op == 3) y term).1
    ((a.1.zipIdx.map fun q => comp q.2 q.1), f32v (faddVal fmtF32 envRne a.2 w))
  let r := (p.taps.zip texels).foldl step (List.replicate 4 none, z)
  r.1.map fun x =>
    let y := x.getD 0
    if p.norm then (fdivVal fmtF32 envRne (fdecode fmtF32 y) r.2).1 else y

/-- Texels of a tap: the clamped coordinates. -/
def tapTexel (p : Image) (t : Tap) (u v : Nat) : Nat × Nat :=
  ((clampInt 0 (p.w - 1 : Int) ((texelAt u).1 + t.dx)).toNat, (clampInt 0 (p.h - 1 : Int) ((texelAt v).1 + t.dy)).toNat)

/-- The bytes of a plain texel, and its four components as FP32 patterns. -/
def texelBytes (fmt : Nat) : Nat := [4, 8, 16, 4].getD fmt 4
def texelVals (fmt x : Nat) : List Nat :=
  if fmt = 0 then (List.range 4).map fun i => div32 (.fin false (x / 2 ^ (8 * i) % 256) 0) (.fin false 255 0)
  else if fmt = 1 then (List.range 4).map fun i => (cvtFF fmtF32 envRne false (fdecode fmtF16 (x / 2 ^ (16 * i) % 65536))).1
  else if fmt = 2 then (List.range 4).map fun i => x / 2 ^ (32 * i) % 2 ^ 32
  else [x % 2 ^ 32, 0, 0, 0]

/-! ## SMP (R422, R431) -/

/-- A program line as a launch samples with it: its contents now, or one it had before a write that came while a launch sampling with it
ran (R422); the launch is one of its users from now on. (DESIGN CHOICE: notes/assumptions/35) -/
def sampleLine (d : Dev) (launch line i x : Nat) : Nat × Dev :=
  let s := (tget? d.progs line).getD { users := [], olds := [] }
  let users := if s.users.contains launch then s.users else s.users ++ [launch]
  let may := (s.olds.filter fun o => users.any o.2.contains).map fun o => o.1.toNat
  (((may ++ [x])[freeBelow d (34000 + i) (may.length + 1)]?).getD x, { d with progs := tset d.progs line { s with users := users } })

/-- The first `n` bytes of line `i` of a program slot checked and read, if there are any. (DESIGN CHOICE: notes/assumptions/35) -/
def progLine (m : Mgmt) (ctx launch : Nat) (p : DWord) (r : Nat × Dev) (i n : Nat) : SurfM (Nat × Dev) :=
  let q := p + BitVec.ofNat 64 (128 * i)
  if n = 0 then .ok r
  else
    match surfCheck m r.2 ctx q n 1 0 false with
    | .error e => .error e
    | .ok _ =>
      match surfRead m r.2 ctx q n 1, distLine m r.2 ctx q with
      | .error e, _ => .error e
      | .ok x, .ok line =>
        let (y, d1) := sampleLine r.2 launch line i x
        .ok (r.1 + y % 2 ^ (8 * n) * 2 ^ (1024 * i), d1)
      | .ok x, _ => .ok (r.1 + x * 2 ^ (1024 * i), r.2)

/-- The bytes of a program slot that are read: the polynomials, the control word's line, then the words of the first NTAP taps, of which
a malformed count leaves none (R419). (DEDUCED: notes/assumptions/34; DESIGN CHOICE: notes/assumptions/35) -/
def progLines (m : Mgmt) (d : Dev) (ctx launch : Nat) (p : DWord) : SurfM (Nat × Dev) :=
  match (progLine m ctx launch p (0, d) 0 128).bind fun r => progLine m ctx launch p r 3 128 with
  | .error e => .error e
  | .ok r =>
    let c := r.1 / 2 ^ 3072 % 2 ^ 7
    let n := if c ≤ 64 then c else 0
    (progLine m ctx launch p r 1 (4 * min n 32)).bind fun r => progLine m ctx launch p r 2 (4 * (n - 32))

/-- The loads of the texels of a plain image, and their checks. (DEDUCED: notes/assumptions/34) -/
def texelAccs (g : Image) (items : List (Nat × Nat × Nat)) : List LAcc :=
  items.map fun (l, x, y) =>
    { lane := l, p := g.base + BitVec.ofNat 64 (y * g.pitch + x * texelBytes g.fmt), pre := none, drop := false }

/-- Texels of a plain image for the lanes: the loads of every tap of every lane, in that order (R421). (DEDUCED: notes/assumptions/34) -/
def plainTexels (m : Mgmt) (d da : Dev) (g : Image) (items : List (Nat × Nat × Nat)) (undef : List PWrite)
    (f : List (List Nat) → Dev → Res) : Res :=
  let n := texelBytes g.fmt
  match loadChecks m d n n 0 (texelAccs g items) with
  | .fault q => .fault { q with undef := undef }
  | .wait w => waitFor d w
  | .go ls =>
    match ownedLine d ls with
    | some line => .park d (.recall line)
    | none =>
      match loadLanes m da (curCtx d) (curSpindle d) n 0 ls with
      | .error e => waitRes d e (faultAt .dataerr 0 d.cur.lanes)
      | .ok (vals, d1, _) => f (vals.map fun v => texelVals g.fmt v.2) d1

/-- The checks and the values of the texels of a predictive surface for one lane. -/
def predCheck (m : Mgmt) (d : Dev) (s : Surf) (items : List (Nat × Nat × Nat)) (l : Nat) : SurfM Unit :=
  (items.filter fun i => i.1 == l).forM fun i =>
    checkBlocks m d (curCtx d) s (tileOfPix s i.2.1 i.2.2) ((List.range s.comps).map fun c => (c, blkOfPix i.2.1 i.2.2)) false none
def predValues (m : Mgmt) (d : Dev) (s : Surf) (items : List (Nat × Nat × Nat)) (l : Nat) :
    SurfM (List (List Nat × List (Nat × Nat × Nat × List Nat))) :=
  (items.filter fun i => i.1 == l).mapM fun i =>
    let t := tileOfPix s i.2.1 i.2.2
    let k := blkOfPix i.2.1 i.2.2
    ((List.range s.comps).mapM fun c => blockPix m d (curCtx d) s t c k).map fun bs =>
      ((bs.map fun b => div32 (.fin false (b.getD (posOfPix i.2.1 i.2.2) 0) 0) (.fin false s.top 0)) ++
        List.replicate (4 - s.comps) 0, bs.zipIdx.map fun b => (t, b.2, k, b.1))

/-- Texels of a predictive surface for the lanes (R421, R385). -/
def predTexels (m : Mgmt) (d da : Dev) (s : Surf) (p : DWord) (ex : Mask) (items : List (Nat × Nat × Nat)) (undef : List PWrite)
    (f : List (List Nat) → Dev → Res) : Res :=
  let ls := lanesOf ex
  match perLane ls (predCheck m d s items) with
  | .error e => surfRes d ex false undef e
  | .ok _ =>
    match items.findSome? fun i => tileHalf d (descNo m d (curCtx d) p) (tileOfPix s i.2.1 i.2.2) with
    | some h => .park d (.half h)
    | none =>
      match perLane ls (predValues m d s items) with
      | .error e => surfRes d ex false undef e
      | .ok vs =>
        f (vs.flatMap fun v => v.2.map fun x => x.1)
          (keepBlocks m (noteTiles m da (curCtx d) s true items) (curCtx d) s (vs.flatMap fun v => v.2.flatMap fun x => x.2))

/-- A lane's argument register of SMP. -/
def smpArg (d : Dev) (o : Lm) (l i : Nat) : Nat := (readV d (curSkein d) l (o.a.toNat + i)).toNat

/-- The texels SMP reads of an image: for each lane, for each tap, its place. -/
def smpItems (d : Dev) (o : Lm) (pr : Prog) (g : Image) (ls : List Nat) : List (Nat × Nat × Nat) :=
  ls.flatMap fun l => pr.taps.map fun t => (l, tapTexel g t (smpArg d o l 0) (smpArg d o l 1))

/-- The results of SMP from its texels: four registers for each lane. -/
def smpWrites (d : Dev) (o : Lm) (pr : Prog) (ls : List Nat) (ts : List (List Nat)) : List PWrite :=
  let n := pr.taps.length
  ls.zipIdx.flatMap fun (l, i) =>
    (filterVal pr (smpArg d o l 0) (smpArg d o l 1) (if pr.cmp then smpArg d o l 2 else 0) ((ts.drop (n * i)).take n)).zipIdx.map
      fun v => PWrite.v l (o.d.toNat + v.2) (BitVec.ofNat 32 v.1)

/-- The pointer of the program that SMP names in an image's filter table. (DEDUCED: notes/assumptions/34) -/
def smpProg (o : Lm) (g : Image) : DWord := g.ftab + BitVec.ofNat 64 (512 * o.xw.sub.toNat)

/-- The device with the executing lanes as the bundle, for an access that is theirs alone. -/
def forLanes (d : Dev) (ex : Mask) : Dev := { d with cur := { d.cur with lanes := ex } }

/-- SMP (R431): the descriptor, the program, then every texel of every lane. (DEDUCED: notes/assumptions/37) -/
def execSmp (o : Lm) (s : State) : Host.Outcome State Fault Refusal :=
  s.run fun m d =>
    laneIssue m d (hdXw o [.s o.sb 2, .v o.a 2] false) fun ex da =>
      let ctx := curCtx d
      let p := readS64 d (curSkein d) o.sb.toNat
      let ls := lanesOf ex
      let undef := ls.flatMap fun l => splitRegs (wrV l) o.d.toNat 0 4
      if ls.isEmpty then .done da
      else
        -- the descriptor is read once, for the executing lanes
        bundleLoad m (forLanes d ex) da p 32 0 undef false fun x d1 lat =>
          match parseImage (BitVec.ofNat 256 x) with
          | none => .fault (faultAt .bounds p ex)
          | some g =>
            match progLines m d1 ctx (curGroup d).launch (smpProg o g) with
            | .error e => surfRes d ex false undef e
            | .ok (y, d2) =>
              match parseProg (BitVec.ofNat 4096 y) with
              | none => .fault (faultAt .bounds (smpProg o g) ex)
              | some pr =>
                let hz := if pr.cmp then hazV (curSkein d) ex (o.a.toNat + 2) 1 else 0
                let finish (ts : List (List Nat)) (d3 : Dev) : Res :=
                  .done (addPend d3 d.cur.skein (max lat (surfLat d)) (smpWrites d o pr ls ts))
                if isDet m ctx && hz != 0 then .fault (faultAt .hazard 0 hz)
                else if g.pred then
                  match openSurf m d ctx g.base false fun _ => .ok () with
                  | .error e => surfRes d ex false undef e
                  | .ok sf => predTexels m d d2 sf g.base ex (smpItems d o pr { g with w := sf.w, h := sf.h } ls) undef finish
                else plainTexels m d d2 g (smpItems d o pr g ls) undef finish

/-! ## The decoupled sampling cache (R408 to R415) -/

/-- A clamped floor of a value times 2^`e2`; NaN is 0 and ±∞ clamps. -/
def floorClamp (x : Nat) (e2 : Int) (top : Nat) : Nat :=
  match fdecode fmtF32 x with
  | .nan .. => 0
  | .inf neg => if neg then 0 else top
  | .fin neg m e =>
    let u := e + e2
    if neg then 0
    else if u < 0 then min (m / 2 ^ (-u).toNat) top
    else min (m * 2 ^ u.toNat) top

/-- The key of a lane (R408). -/
def dscKey (prim u v t rate : Nat) : DWord :=
  BitVec.ofNat 64 (prim * 2 ^ 32 + floorClamp v (-(rate : Int)) 4095 * 2 ^ 20 + floorClamp u (-(rate : Int)) 4095 * 2 ^ 8 +
    rate * 2 ^ 6 + floorClamp t 6 63)

/-- The set of a key (R409). -/
def dscSet (k : DWord) : Nat := (List.range 7).foldl (fun x i => x ^^^ bitsOf k (10 * i) (if i = 6 then 4 else 10)) 0

/-- The entry with a key that a test on its state marks. -/
def dscFind (d : Dev) (sp ctx pass : Nat) (key : DWord) (f : DscSt → Bool) : Option Dsc :=
  d.dsc.find? fun e => e.spindle == sp && e.ctx == ctx && e.pass == pass && e.key == key && f e.st

/-- The cache with one entry in its place. -/
def dscPut (d : Dev) (e : Dsc) : Dev :=
  { d with dsc := (d.dsc.filter fun x => !(x.spindle == e.spindle && x.set == e.set && x.way == e.way)) ++ [e] }

/-- The way a MISS takes: an INVALID one, which of them is open, else the least recently used VALID one.
(DESIGN CHOICE: notes/assumptions/36) -/
def dscWay (d : Dev) (sp set n : Nat) : Option Nat :=
  let here := d.dsc.filter fun e => e.spindle == sp && e.set == set && e.st != .invalid
  let idle := (List.range 4).filter fun w => !here.any fun e => e.way == w
  let valid := here.filter fun e => e.st == .valid
  let lru := valid.foldl (fun (b : Option Dsc) e =>
    match b with
    | some x => if e.used < x.used then some e else some x
    | none => some e) none
  if idle.isEmpty then lru.map fun e => e.way else idle[freeBelow d (35000 + n) idle.length]?

/-- An element for the miss stream of a skein, when it is bound and has room (R413). -/
def missElem (d : Dev) (u : Nat) (x : Nat) : Dev :=
  let add (q : QReg) : QReg :=
    if q.bound && q.ep == 6 && decide (q.elems.length < 64) then { q with elems := q.elems ++ [BitVec.ofNat 64 x] } else q
  modSkein d u fun k => { k with q := k.q.map add }

/-- One lane's lookup (R410): its status, the value on a HIT, the device. -/
def dscLookup (d : Dev) (g : Group) (pass lane : Nat) (key : DWord) : Nat × BitVec 128 × Dev :=
  let sp := spindleNo g
  let set := dscSet key
  let u := d.cur.skein
  let k := skeinOf d u
  let (n, d1) := fresh d
  match dscFind d sp g.ctx pass key (· == .valid) with
  | some e => (0, e.val, dscPut d1 { e with used := n })
  | none =>
    match dscFind d sp g.ctx pass key (fun st => match st with | .reserved .. => true | _ => false) with
    | some _ => (2, 0, d)
    | none =>
      match dscWay d sp set lane with
      | none => (2, 0, d)
      | some w =>
        let e : Dsc :=
          { spindle := sp, set := set, way := w, ctx := g.ctx, pass := pass, key := key, val := 0,
            st := .reserved g.gid (threadOf k lane).num0, used := n }
        (1, 0, missElem (dscPut d1 e) u ((32 * k.idx + lane) * 2 ^ 12 + 4 * set + w))

/-- The pass of a tile group's die, whose groups alone use the cache (R414). -/
def passOf (d : Dev) (g : Group) : Option Nat :=
  match g.kind with
  | .tile die => (tget? d.tilers die).map fun p => p.id
  | _ => none

/-- A lane's key. -/
def laneKey (d : Dev) (o : Lm) (l : Nat) : DWord :=
  let v (i : Nat) : Nat := (readV d (curSkein d) l (o.a.toNat + i)).toNat
  dscKey (v 0) (v 1) (v 2) (v 3) (bitsOf o.xw.sub 0 2)

/-- One lane of DSCL: its value on a HIT, and its status. -/
def dsclStep (d : Dev) (o : Lm) (g : Group) (pass : Nat) (r : List PWrite × Dev) (l : Nat) : List PWrite × Dev :=
  let (st, val, d1) := dscLookup r.2 g pass l (laneKey d o l)
  let ws := if st = 0 then splitRegs (wrV l) o.d.toNat val.toNat 4 else []
  (r.1 ++ ws ++ [.v l (o.d.toNat + 4) (BitVec.ofNat 32 st)], d1)

/-- DSCL (R432). (DEDUCED: notes/assumptions/37) -/
def execDscl (o : Lm) (s : State) : Host.Outcome State Fault Refusal :=
  s.run fun m d =>
    laneIssue m d (hdXw o [.v o.a 4] false) fun ex da =>
      let g := curGroup d
      match passOf d g with
      | none => if ex == 0 then .done da else .fault (faultAt .perm 0 ex)
      | some pass =>
        let r := (lanesOf ex).foldl (dsclStep d o g pass) ([], da)
        .done (addPend r.2 d.cur.skein (surfLat d) r.1)

/-- One lane of DSCF: the entry that its group reserved for its key becomes VALID with the lane's value. -/
def dscfStep (d : Dev) (o : Lm) (g : Group) (pass : Nat) (d1 : Dev) (l : Nat) : Dev :=
  let mine (st : DscSt) : Bool := match st with | .reserved q _ => q == g.gid | _ => false
  match dscFind d1 (spindleNo g) g.ctx pass (laneKey d o l) mine with
  | none => d1
  | some e =>
    let (n, d2) := fresh d1
    dscPut d2 { e with val := BitVec.ofNat 128 (joinRegs (readV d (curSkein d) l) o.d.toNat 4), st := .valid, used := n }

/-- DSCF (R433). (DEDUCED: notes/assumptions/37) -/
def execDscf (o : Lm) (s : State) : Host.Outcome State Fault Refusal :=
  s.run fun m d =>
    laneIssue m d (hdXw o [.v o.a 4, .v o.d 4] false) fun ex da =>
      let g := curGroup d
      match passOf d g with
      | none => if ex == 0 then .done da else .fault (faultAt .perm 0 ex)
      | some pass => .done ((lanesOf ex).foldl (dscfStep d o g pass) da)

end Sys2Proof.Machine
end

