-- ==== Sys2Proof/Machine/Work.lean ====
section
/-!
DEFINITION. How the Distaffs hand out work: classes (R39, R40), the 128 slots (R41 to R43), placement of groups on spindles (R45
to R50), the state a group starts in (R22, R24, R26, R33), and pre-emption (R43, R50, R452).
-/

namespace Sys2Proof.Machine

/-! ## Headers (R18, R19) -/

/-- Whether a 64-bit field is an address aligned to `al` in canonical form. -/
def goodPtr (p : DWord) (al : Nat) : Bool := p.toNat % al == 0 && !nonCanon p

/-- The byte offset of the lowest offending field of a header (R19). -/
def headerFault (det : Bool) (h : BitVec 1024) : Option Nat :=
  let sum := hW h 2 + hW h 3 + hW h 4 + hW h 5
  let checks : List (Nat × Bool) :=
    [(0, goodPtr (hEntry h) 4 && bitsOf (hEntry h) 56 4 == 0), (8, goodPtr (hArgs h) 64),
      (16, decide (1 ≤ hNGroups h) && decide (hNGroups h ≤ 2 ^ min sum 64)),
      (24, goodPtr (BitVec.ofNat 64 (hStackBase h)) 256), (32, goodPtr (hEvents h) 8),
      (40, !det || (hCommitLog h != 0 && goodPtr (hCommitLog h) 4096)), (52, decide (1 ≤ hStackSz h)),
      (54, decide (1 ≤ hStackGrp h) && decide (2 ^ min (hPly h) 20 ≤ hStackGrp h)), (56, decide (hW1 h ≤ 5)),
      (57, decide (hW h 2 ≤ 59) && decide (sum + hW1 h ≤ 59)), (58, decide (hW h 3 ≤ 59)), (59, decide (hW h 4 ≤ 59)),
      (60, decide (hW h 5 ≤ 59)), (61, decide (hPly h ≤ 6)), (62, hPolicy h != 3 && bitsOf h 500 4 == 0),
      (63, decide (1 ≤ hVregs h) && decide (hVregs h ≤ 15)), (64, decide (3 ≤ hSregs h) && decide (hSregs h ≤ 15)),
      (65, decide (hBars h ≤ 32)), (66, decide (hAcct h ≤ 32) && decide (hAcct h * 2 ^ min (hW1 h) 8 ≤ 64)),
      (67, decide (hTagBase h + hTagCnt h ≤ 64)), (68, decide (hTagCnt h ≤ 64)), (69, decide (hScratch h ≤ 512)),
      (71, bitsOf h 568 8 == 0), (72, !det || hCommitSz h != 0), (76, bitsOf h 608 416 == 0)]
  (checks.find? fun c => !c.2).map fun c => c.1

/-- A header of a one-skein group with register granules alone, for spool and handler skeins (R33). -/
def spoolHeader (vregs sregs : Nat) (code : DWord) : BitVec 1024 :=
  BitVec.ofNat 1024 (code.toNat + 2 ^ 128 + vregs * 2 ^ 504 + sregs * 2 ^ 512)

/-! ## Classes (R39, R40) -/

/-- The class floor of a context (R35). -/
def ctxClass (m : Mgmt) (ctx : Nat) : Nat := bitsOf (ctxOf m ctx).ctxclass 0 2

/-- Whether the frame-due rule holds for a queue (R40). -/
def framed (d : Dev) (ctx n : Nat) : Bool := d.frameDue.any fun f => f.1 == ctx && f.2.1 == n

/-- A queue's configuration; one never written is disabled. (DESIGN CHOICE: notes/assumptions/2) -/
def subq (d : Dev) (ctx n : Nat) : SubQ :=
  (tget? d.subqs (32 * ctx + n)).getD
    { base := 0, logn := 4, qclass := 0, en := false, head := 0, tail := 0, waiting := false }

/-- The effective class of a launch and of a group, by the registers as they are now (R39). (DESIGN CHOICE: notes/assumptions/21) -/
def launchCls (m : Mgmt) (d : Dev) (l : Launch) : Nat :=
  match l.src with
  | .queue n => if framed d l.ctx n then 0 else max (hClass l.header) (max (subq d l.ctx n).qclass (ctxClass m l.ctx))
  | .node .. => max (hClass l.header) (ctxClass m l.ctx)
  | _ => l.cls
def groupCls (m : Mgmt) (d : Dev) (g : Group) : Nat :=
  match g.kind, launch? d g.launch with
  | .launch, some l => launchCls m d l
  | .spool _ _ prio, _ => max prio (ctxClass m g.ctx)
  | .tile die, _ =>
    match (tget? d.tilers die).bind fun p => launch? d p.by_ with
    | some l => launchCls m d l
    | none => g.cls
  | _, _ => g.cls

def setSubq (d : Dev) (ctx n : Nat) (q : SubQ) : Dev := { d with subqs := tset d.subqs (32 * ctx + n) q }

/-- The launches of a source, oldest first; those of a reel trigger register are its runs' nodes'. -/
def launchesOf (d : Dev) (src : Source) : List Launch :=
  d.launches.filter fun l =>
    match src, l.src with
    | .queue c n, .queue k => l.ctx == c && k == n
    | .trig c n, .node r _ => l.ctx == c && d.runs.any fun x => x.id == r && x.trig == n
    | _, _ => false

/-- Whether a source has work (R36, R41). -/
def hasWork (d : Dev) (src : Source) : Bool :=
  !(launchesOf d src).isEmpty ||
    match src with
    | .queue c n => (subq d c n).en && (subq d c n).head != (subq d c n).tail
    | .trig c n => ((tget? d.trigs (16 * c + n)).bind fun t => t.pending).isSome || d.runs.any fun r => r.ctx == c && r.trig == n

/-- A source's class for slot purposes (R41). -/
def sourceCls (m : Mgmt) (d : Dev) (src : Source) : Nat :=
  match src, (launchesOf d src).map (launchCls m d) with
  | .queue _ _, c :: _ => c
  | .trig _ _, c :: r => r.foldl min c
  | .queue c n, [] => if framed d c n then 0 else max (subq d c n).qclass (ctxClass m c)
  | .trig c _, [] => ctxClass m c

/-- The context of a source, and its place among equals (R42). -/
def sourceCtx : Source → Nat
  | .queue c _ => c
  | .trig c _ => c
def sourceNo : Source → Nat
  | .queue _ n => n
  | .trig _ n => 32 + n

/-! ## Slots (R41, R42) -/

/-- Whether a source holds a slot, or waits for one. -/
def hasSlot (d : Dev) (src : Source) : Bool := d.slots.any fun s => decide (s.2.src = src)

/-- Whether a launch's groups may start: its source holds a slot, or needs none. -/
def mayStart (d : Dev) (l : Launch) : Bool :=
  match l.src with
  | .queue n => hasSlot d (.queue l.ctx n)
  | .node r _ => d.runs.any fun x => x.id == r && hasSlot d (.trig l.ctx x.trig)
  | _ => true

/-- A source counted among those that wait, from this cycle of the lead Distaff on. -/
def awaitSlot (d : Dev) (src : Source) : Dev :=
  if d.waitq.any fun w => decide (w.1 = src) then d else { d with waitq := d.waitq ++ [(src, clockNow d .distaff)] }
def noWait (d : Dev) (src : Source) : Dev := { d with waitq := d.waitq.filter fun w => !decide (w.1 = src) }

/-- A source that has work and no slot waits for one. -/
def seekSlot (d : Dev) (src : Source) : Dev :=
  if !hasWork d src || hasSlot d src then d else postNew (awaitSlot d src) (.slotGrant src)

/-- The waiting sources looked at again: some source's class may have changed (R42). -/
def retrySlots (d : Dev) : Dev := d.waitq.foldl (fun d w => postNew d (.slotGrant w.1)) d

/-- Whether a waiting source comes before another (R42): class, then the time it has waited, then context, then queue number. -/
def comesFirst (m : Mgmt) (d : Dev) (a b : Source × Nat) : Bool :=
  let key (w : Source × Nat) : List Nat := [sourceCls m d w.1, w.2, sourceCtx w.1, sourceNo w.1]
  decide (key a < key b)

/-- The waiting source that comes first among those of a class at most `c` (R42). -/
def bestWaiting (m : Mgmt) (d : Dev) (c : Nat) : Option Source :=
  let ws := d.waitq.filter fun w => hasWork d w.1 && decide (sourceCls m d w.1 ≤ c)
  (ws.foldl (fun (b : Option (Source × Nat)) w =>
    match b with
    | none => some w
    | some x => if comesFirst m d w x then some w else some x) none).map fun w => w.1

/-- A slot mapped to a source, with the end of its quantum; the launches of the source are offered. -/
def offerLaunches (d : Dev) (src : Source) : Dev := postAll d ((launchesOf d src).map fun l => .plyDispatch l.id)
def mapSlot (m : Mgmt) (d : Dev) (slot : Nat) (src : Source) : Dev :=
  let (n, d1) := fresh d
  let q := bitsOf (ctxOf m (sourceCtx src)).quantum 0 6
  let d2 : Dev :=
    { noWait d1 src with
      slots := tset d1.slots slot { src := src, order := n },
      timers := d1.timers.filter fun t => t.ev != .quantumExpiry slot }
  let saved := (d2.groups.filter fun g => !g.resident && (launchesOf d2 src).any fun l => l.id == g.launch).map
    fun g => Instr.groupReplace g.gid
  offerLaunches (postAll (postAfter d2 .distaff (2 ^ q) (.quantumExpiry slot)) saved) src

/-- A source without work gives up its slot at once, which a waiting source takes. (DESIGN CHOICE: notes/assumptions/94) -/
def releaseIdle (m : Mgmt) (d : Dev) (src : Source) : Dev :=
  if hasWork d src then d
  else
    match d.slots.find? fun s => decide (s.2.src = src) with
    | none => noWait d src
    | some (slot, _) =>
      let d1 : Dev :=
        { d with slots := tdel d.slots slot, timers := d.timers.filter fun t => t.ev != .quantumExpiry slot }
      match bestWaiting m d1 3 with
      | some s => postNew d1 (.slotGrant s)
      | none => d1

/-! ## Fitting (R46, R47, R49) -/

/-- What is to be placed: the context, the header, the skeins that take a slot, the sets of the locks held. -/
structure Demand where
  ctx : Nat
  h : BitVec 1024
  skeins : List Nat
  sets : List Nat

/-- Resident groups of a spindle. -/
def groupsOn (d : Dev) (sp : Nat) : List Group := d.groups.filter fun g => g.resident && spindleNo g == sp

/-- Whether a context may use a spindle of a die, another's exclusion aside, and with it (R49). -/
def partBit (m : Mgmt) (ctx die s : Nat) : Bool := (((ctxOf m ctx).part[die]?).getD 0).getLsbD s
def exclusive (m : Mgmt) (ctx : Nat) : Bool := (((ctxOf m ctx).part[0]?).getD 0).getLsbD 63
def permitted (m : Mgmt) (ctx die s : Nat) : Bool :=
  partBit m ctx die s && (List.range 64).all fun c => c == ctx || !exclusive m c || !partBit m c die s

/-- Skeins resident in a quarter of a spindle, with their headers. -/
def inQuarter (d : Dev) (sp q : Nat) : List (Skein × Group) :=
  (d.skeins.map fun k => (k, groupOf d k.gid)).filter fun c => c.1.resident && spindleNo c.2 == sp && c.1.quarter == q

/-- The quarter a group's skeins start at (R47): the one with the most free slots, the lowest on a tie. -/
def firstQuarter (d : Dev) (sp : Nat) : Nat :=
  let free (q : Nat) : Nat := 16 - (inQuarter d sp q).length
  (List.range 4).foldl (fun b q => if free b < free q then q else b) 0

/-- Ways of a set that a scratchpad of a size takes (R198). -/
def waysOf (kib set : Nat) : Nat :=
  (List.range 8).foldl (fun n b => if 512 * b + (set ^^^ b) < 8 * kib then n + 1 else n) 0

/-- Whether every set has ways enough for a scratchpad and for held locks, beside what scratchpads, pins and locks take (R46, R199). -/
def setsFit (d : Dev) (sp : Nat) (x : Demand) : Bool :=
  (hScratch x.h == 0 && x.sets.isEmpty) ||
    (List.range 512).all fun s =>
      let lock := (x.sets.filter fun t => t == s).length
      let new := waysOf (hScratch x.h) s
      new + lock == 0 || decide (scratchWays d sp s + waysTaken d sp s + new + lock ≤ 8)

/-- Whether a demand fits a spindle (R46); nothing of a context that is not enabled does (R184). -/
def fitsOn (m : Mgmt) (d : Dev) (die s : Nat) (x : Demand) : Bool :=
  let sp := 48 * die + s
  let gs := groupsOn d sp
  let h := x.h
  let q0 := firstQuarter d sp
  let quarterFits (q : Nat) : Bool :=
    let n := (x.skeins.filter fun k => (q0 + k) % 4 == q).length
    let here := inQuarter d sp q
    n == 0 || (decide (here.length + n ≤ 16) &&
      decide ((here.map fun c => hVregs c.2.header).sum + n * hVregs h ≤ 128) &&
      decide ((here.map fun c => hSregs c.2.header).sum + n * hSregs h ≤ 128))
  let tagsMeet (g : Group) : Bool :=
    hTagCnt g.header != 0 && hTagCnt h != 0 && decide (hTagBase g.header < hTagBase h + hTagCnt h) &&
      decide (hTagBase h < hTagBase g.header + hTagCnt g.header)
  ctxEnabled m x.ctx && permitted m x.ctx die s && (List.range 4).all quarterFits &&
    decide ((gs.map fun g => hBars g.header).sum + hBars h ≤ 32) &&
    decide ((gs.map fun g => hAcct g.header * hSkeins g.header).sum + hAcct h * hSkeins h ≤ 64) &&
    !gs.any tagsMeet && setsFit d sp x

/-- The spindles of a die in search order (R46). -/
def searchOrder (d : Dev) (die : Nat) : List Nat :=
  let s := tget d.nextSpindle die 0
  (List.range 48).map fun i => (s + i) % 48

/-- The first spindle of a die that fits. -/
def findSpindle (m : Mgmt) (d : Dev) (die : Nat) (x : Demand) : Option Nat :=
  (searchOrder d die).find? fun s => fitsOn m d die s x

/-- The demand of a group that starts, and of one placed again (R43). -/
def startDemand (ctx : Nat) (h : BitVec 1024) : Demand :=
  { ctx := ctx, h := h, skeins := List.range (hSkeins h), sets := [] }
def againDemand (d : Dev) (g : Group) : Demand :=
  let ks := skeinsOf d g.gid
  { ctx := g.ctx, h := g.header, skeins := (ks.filter fun k => !allExited k).map fun k => k.idx,
    sets := (ks.flatMap fun k => k.locks).map fun l => l.set }

/-- A free slot of a quarter. -/
def freeSlot (d : Dev) (sp q : Nat) : Nat :=
  let used := (inQuarter d sp q).map fun c => c.1.slot
  ((List.range 16).find? fun s => !used.contains s).getD 0

/-- Skeins of a group given quarters and slots on its spindle (R47). -/
def seatSkeins (d : Dev) (gid q0 : Nat) : Dev :=
  let g := groupOf d gid
  let sp := spindleNo g
  ((skeinsOf d gid).filter fun k => !allExited k).foldl (fun d k =>
    let q := (q0 + k.idx) % 4
    let s := freeSlot d sp q
    let (n, d1) := fresh d
    modSkein d1 k.uid fun k => { k with quarter := q, slot := s, resident := true, age := n, preempt := false, rot := 0 }) d

/-! ## Starting a group (R22, R24, R26, R33) -/

/-- A thread of a launch at its first instruction (R26). -/
def startThread (h : BitVec 1024) (g t : Nat) : Thread :=
  let wid := BitVec.ofNat 64 (g * 2 ^ (5 + hW1 h) + t)
  let base := hStackBase h + (g % max (hStackGrp h) 1 * (32 * 2 ^ hW1 h) + t) * hStackSz h * 256
  { blankThread with
    wid := wid, num0 := t, pc := hEntry h, stk := BitVec.ofNat 64 (base + hStackSz h * 256),
    v := ((Vector.replicate 120 0).setIfInBounds 0 (wid.extractLsb' 0 32)).setIfInBounds 1 (wid.extractLsb' 32 32) }

/-- A thread of a spool record (R33). -/
def spoolThread (h : BitVec 1024) (l : Nat) : Thread :=
  { blankThread with
    wid := BitVec.ofNat 64 l, num0 := l, pc := hEntry h,
    v := (Vector.replicate 120 0).setIfInBounds 0 (BitVec.ofNat 32 l) }

/-- A skein's uniform registers at start: the argument block and the group index, or the frame pointer. -/
def startS (args : BitVec 512) (g : Nat) : Vector Word 120 :=
  Vector.ofFn fun r : Fin 120 =>
    if r.val < 16 then args.extractLsb' (32 * r.val) 32 else if r.val = 16 then BitVec.ofNat 32 g else 0
def spoolS (frame : DWord) : Vector Word 120 :=
  ((Vector.replicate 120 0).setIfInBounds 0 (frame.extractLsb' 0 32)).setIfInBounds 1 (frame.extractLsb' 32 32)

/-- Accumulator tiles of +0.0 (R26). -/
def zeroAcc (n : Nat) : Table (BitVec 32768) := (List.range n).map fun i => (i, 0)

/-- A group started on a spindle with its skeins' threads and uniform registers: it acquires at device scope (R52, R178), the
watchdog's count restarts (R350), and spool records of its context may now run there (R38). -/
def startGroup (d : Dev) (g : Group) (thread : Nat → Thread) (s : Vector Word 120) : Dev :=
  let mk (d : Dev) (i : Nat) : Dev :=
    let (u, d1) := fresh d
    let k : Skein :=
      { blankSkein with
        uid := u, gid := g.gid, idx := i, threads := Vector.ofFn fun l : Fin 32 => thread (32 * i + l.val), s := s,
        acc := zeroAcc (hAcct g.header) }
    { d1 with skeins := d1.skeins ++ [k] }
  let q0 := firstQuarter d (spindleNo g)
  let d1 := (List.range (hSkeins g.header)).foldl mk { d with groups := d.groups ++ [g] }
  let d2 := seatSkeins d1 g.gid q0
  let d3 : Dev :=
    { d2 with
      nextSpindle := tset d2.nextSpindle g.die ((g.spindle + 1) % 48), stalled := tdel d2.stalled g.ctx,
      gatedSpindles := d2.gatedSpindles.filter fun s => s != spindleNo g }
  offerSpools d3 g.die

/-- A group of a launch. -/
def launchGroup (d : Dev) (l : Launch) (i die s : Nat) : Group × Dev :=
  let (n, d1) := fresh d
  let kind := match l.src with | .tile t => .tile t | _ => GroupKind.launch
  ({ blankGroup with
      gid := n, ctx := l.ctx, launch := l.id, index := i, kind := kind, header := l.header, hdrAddr := l.hdrAddr, cls := l.cls,
      die := die, spindle := s, resident := true, gublock := hArgs l.header, place := n,
      status := [] }, d1)

/-- One group of a launch placed on a spindle, where lines make way for its scratchpad (R198, R199). -/
def placeGroup (m : Mgmt) (d : Dev) (l : Launch) (i die s : Nat) : MemM Dev :=
  let (g, d1) := launchGroup d l i die s
  (acquireAt m d1 l.ctx (48 * die + s) 4).bind fun d2 =>
    clearWays m (startGroup d2 g (startThread l.header i) (startS l.args i)) l.ctx (48 * die + s)

/-! ## Pre-emption (R43, R50, R470) -/

/-- Bytes of save area a group needs (R453, R454). -/
def saveBytes (d : Dev) (g : Group) : Nat :=
  let h := g.header
  let one := 1024 + 1024 * hVregs h + 32 * hSregs h + 4096 * hAcct h
  2048 + 1024 * hScratch h + (skeinsOf d g.gid).length * one

/-- The die whose save region a die uses (R470), and the region. -/
def saveDie (d : Dev) (die : Nat) : Nat :=
  if (saveRegion d die).isSome then die
  else ((List.range 4).map fun i => die / 4 * 4 + i).find? (fun e => (saveRegion d e).isSome) |>.getD die

/-- Where a save area of some bytes finds room in a die's region: at its base or after the first area in use behind which it meets no
other, and before the region's end. (DESIGN CHOICE: notes/assumptions/57) -/
def savePlace (d : Dev) (die n : Nat) : Option Nat :=
  match saveRegion d die with
  | none => none
  | some (base, size) =>
    let used := (d.groups.filter fun g => (g.saveReq || !g.resident) && saveDie d g.die == die).map fun g => (g.saveAt, saveBytes d g)
    let clear (a : Nat) : Bool := used.all fun u => decide (a + n ≤ u.1) || decide (u.1 + u.2 ≤ a)
    (base :: used.map fun u => u.1 + u.2).find? fun a => decide (base ≤ a) && decide (a + n ≤ base + size) && clear a

/-- Save space for a group taken in its die's region, if the free space there holds it (R470).
(DEDUCED: notes/assumptions/22; DESIGN CHOICE: notes/assumptions/57) -/
def takeSave (d : Dev) (g : Group) : Option Dev :=
  let e := saveDie d g.die
  let n := saveBytes d g
  (savePlace d e n).map fun a =>
    modGroup { d with saveUsed := d.saveUsed.setIfInBounds e ((d.saveUsed[e]?).getD 0 + n) } g.gid fun g =>
      { g with saveReq := true, saveAt := a }

/-- Whether a group can begin to be pre-empted: it is there, and not on its way out. -/
def mayPreempt (g : Group) : Bool := g.resident && !g.saveReq && !g.killed

/-- Whether the saves of some groups find room together (R470). (DEDUCED: notes/assumptions/22) -/
def savesFit (d : Dev) (gids : List Nat) : Bool :=
  (gids.foldlM (fun d gid => let g := groupOf d gid; if mayPreempt g then takeSave d g else some d) d).isSome

/-- A resident group begins to be pre-empted: its skeins stop issuing (R452). One that a fence, a lock grant or a surface write
still holds at work drains first, in its own event. (DEDUCED: notes/assumptions/22) -/
def preemptGroup (d : Dev) (gid : Nat) : Dev :=
  let g := groupOf d gid
  match (if mayPreempt g then takeSave d g else none) with
  | none => d
  | some d2 =>
    let ks := (skeinsOf d gid).filter fun k => k.resident
    let d3 := ks.foldl (fun d k => modSkein d k.uid fun k => { k with preempt := true }) d2
    postAll d3 (if ks.isEmpty then [.groupSave gid] else ks.map fun k => .preemptComplete k.uid)

/-- Groups pre-empted for a placement, once the saves of all find room; until then it waits (R470). (DEDUCED: notes/assumptions/22) -/
def preemptAll (d : Dev) (gids : List Nat) : Dev := if savesFit d gids then gids.foldl preemptGroup d else d

/-- The groups of a source's launches. -/
def sourceGroups (d : Dev) (src : Source) : List Group :=
  let ids := (launchesOf d src).map fun l => l.id
  d.groups.filter fun g => ids.contains g.launch && g.kind == .launch

/-- The resident groups of a source's launches pre-empted; all its groups are to be placed again before any is started (R43). -/
def preemptSource (d : Dev) (src : Source) : Dev :=
  let gids := (sourceGroups d src).map fun g => g.gid
  gids.foldl preemptGroup { d with groups := modWhere (fun g => gids.contains g.gid) (fun g => { g with before := true }) d.groups }

/-- The device without some groups, and without those on their way out, as placement would find it. -/
def without (d : Dev) (gids : List Nat) : Dev :=
  { d with
    groups := modWhere (fun g => gids.contains g.gid) (fun g => { g with resident := false }) d.groups,
    skeins := modWhere (fun k => gids.contains k.gid) (fun k => { k with resident := false }) d.skeins }

def afterSaves (d : Dev) : Dev := without d ((d.groups.filter fun g => g.saveReq && g.resident).map fun g => g.gid)

/-- Victims taken in order until a test holds of the device without them: the groups taken and that device. -/
def takeVictims (d : Dev) (ok : Dev → Bool) : List Group → Option (List Nat × Dev)
  | [] => if ok d then some ([], d) else none
  | g :: r => if ok d then some ([], d) else (takeVictims (without d [g.gid]) ok r).map fun x => (g.gid :: x.1, x.2)

/-- The victims of R50 on one spindle: groups of a class above `c`, greatest class first, then most recently placed, as many as make the
demand fit while another test (`still`) holds too. (DESIGN CHOICE: notes/assumptions/21) -/
def victimsOn (m : Mgmt) (d : Dev) (die s c : Nat) (x : Demand) (still : Dev → Bool) : Option (List Nat × Dev) :=
  let d0 := afterSaves d
  let vs := ((groupsOn d0 (48 * die + s)).filter fun g => c < groupCls m d g && !g.killed).insertionSort
    fun a b => groupCls m d a > groupCls m d b || (groupCls m d a == groupCls m d b && a.place ≥ b.place)
  takeVictims d0 (fun e => fitsOn m e die s x && still e) vs

/-- Room made on one of some dies for a demand of class `c` that nothing fits (R50): the victims of the first spindle where that helps, all
together; nothing more where groups already on their way out make room.
(DESIGN CHOICE: notes/assumptions/21; DEDUCED: notes/assumptions/22) -/
def makeWay (m : Mgmt) (d : Dev) (dies : List Nat) (c : Nat) (x : Demand) : Option Dev :=
  if dies.any fun die => (findSpindle m (afterSaves d) die x).isSome then some d
  else
    (dies.findSome? fun die => (searchOrder d die).findSome? fun s => victimsOn m d die s c x fun _ => true).map
      fun v => preemptAll d v.1

end Sys2Proof.Machine
end

