-- ==== Sys2Proof/Machine/Tiler.lean ====
section
/-!
DEFINITION. The tilers: pass blocks and records (R393 to R395, R403), bin memory and partial renders (R396), coverage and depth (R400,
R401), splats (R403 to R405), tile input and rounds (R397 to R399), the end of a pass (R406), TBEGIN and TFLUSH (R438, R439).
-/

namespace Sys2Proof.Machine

/-! ## Pass blocks (R393) -/

/-- The fields of a pass block. -/
def pbColor (b : BitVec 512) : DWord := b.extractLsb' 0 64
def pbDepth (b : BitVec 512) : DWord := b.extractLsb' 64 64
def pbBins (b : BitVec 512) : DWord := b.extractLsb' 128 64
def pbBinBytes (b : BitVec 512) : Nat := bitsOf b 192 32 * 1024
def pbSamples (b : BitVec 512) : Nat := [1, 4, 8, 16].getD (bitsOf b 224 2) 1
def pbStride (b : BitVec 512) : Nat := [1, 3, 3, 5].getD (bitsOf b 224 2) 1
def pbDcmp (b : BitVec 512) : Nat := bitsOf b 226 2
def pbDwr (b : BitVec 512) : Bool := b.getLsbD 228
def pbDstop (b : BitVec 512) : Bool := b.getLsbD 229
def pbKernel (b : BitVec 512) : DWord := b.extractLsb' 256 64
def pbStatus (b : BitVec 512) : DWord := b.extractLsb' 320 64

/-- Whether a pass block is malformed, what its pointers point to aside. -/
def passBad (b : BitVec 512) : Bool :=
  bitsOf b 384 128 != 0 || bitsOf b 230 26 != 0 || pbDcmp b == 3 ||
    !(decide (64 ≤ bitsOf b 192 32) && decide (bitsOf b 192 32 ≤ 2 ^ 20)) || (pbBins b).toNat % 4096 != 0 ||
    (pbDepth b).toNat % 128 != 0 || (pbStatus b).toNat % 8 != 0 || (pbKernel b).toNat % 64 != 0

/-- The width and height of a pass's colour surface, and its tiles of 32 × 32 in each direction. -/
structure Extent where
  w : Nat
  h : Nat
  deriving DecidableEq, Repr
def Extent.tx (e : Extent) : Nat := (e.w + 31) / 32
def Extent.ty (e : Extent) : Nat := (e.h + 31) / 32
def Extent.has (e : Extent) (x y : Nat) : Bool := decide (x < e.w) && decide (y < e.h)

/-! ## Single precision (R403, R405) -/

def f32 (x : Nat) : FVal := val32 x
def less32 (x y : Nat) : Bool := fcmp (f32 x) (f32 y) == some .lt
def nan32 (x : Nat) : Bool := fisNan (f32 x)
def nat32 (x : Nat) : Nat := (froundVal fmtF32 envRne (.fin false x 0) 0).1
def one32 : Nat := 0x3F800000
def two32 : Nat := 0x40000000

/-- The floor of a 32nd of a value, ±∞ far outside. -/
def tileFloor (x : Nat) : Int :=
  match f32 (div32 (f32 x) (.fin false 32 0)) with
  | .nan .. => 0
  | .inf neg => if neg then -(2 ^ 200 : Int) else 2 ^ 200
  | .fin neg m e => funits neg m e (min e 0) / (2 ^ (-(min e 0)).toNat : Nat)

/-! ## Records (R394, R395, R400) -/

/-- Word `i` of a record. -/
def recWord (r : BitVec 512) (i : Nat) : Nat := bitsOf r (32 * i) 32
def recSeq (r : BitVec 512) : Nat := recWord r 1
def isTri (r : BitVec 512) : Bool := bitsOf r 0 4 == 1

/-- A coordinate in 256ths of a pixel, if it is one exactly and lies within ±2^23. -/
def snap (x : Nat) : Option Int :=
  match f32 x with
  | .fin neg m e =>
    let u := e + 8
    if u < 0 && m % 2 ^ (-u).toNat != 0 then none
    else
      let v := funits neg m u (min u 0) / (2 ^ (-(min u 0)).toNat : Nat)
      if -(2 ^ 23 : Int) ≤ v ∧ v ≤ 2 ^ 23 then some v else none
  | _ => none

/-- A vertex: snapped coordinates and depth. -/
structure Vert where
  x : Int
  y : Int
  z : FVal
  deriving DecidableEq, Repr

/-- The vertices of a triangle record, if every coordinate snaps. -/
def vertsOf (r : BitVec 512) : Option (List Vert) :=
  (List.range 3).mapM fun i =>
    match snap (recWord r (2 + 3 * i)), snap (recWord r (3 + 3 * i)) with
    | some x, some y => some { x := x, y := y, z := f32 (recWord r (4 + 3 * i)) }
    | _, _ => none

/-- E of R400 for an edge at a point. -/
def edgeAt (a b : Vert) (x y : Int) : Int := (b.x - a.x) * (y - a.y) - (b.y - a.y) * (x - a.x)

/-- A triangle as it is rasterised: counter-clockwise, with its area; none when it covers nothing. -/
def triOf (r : BitVec 512) : Option (Vert × Vert × Vert × Nat) :=
  match vertsOf r with
  | some [a, b, c] =>
    let s := edgeAt a b c.x c.y
    if s = 0 then none else if s < 0 then some (a, c, b, (-s).toNat) else some (a, b, c, s.toNat)
  | _ => none

/-- Whether an edge takes in a point. -/
def edgeIn (a b : Vert) (x y : Int) : Bool :=
  let e := edgeAt a b x y
  let dy := b.y - a.y
  decide (0 < e) || (e == 0 && (decide (0 < dy) || (dy == 0 && decide (b.x - a.x < 0))))

/-- The place of a sample. -/
def samplePos (b : BitVec 512) (x y s : Nat) : Int × Int :=
  let n := pbSamples b
  ((256 * x + 128 * (2 * (pbStride b * s % n) + 1) / n : Nat), (256 * y + 128 * (2 * s + 1) / n : Nat))

/-- Whether a triangle covers a sample, and its depth there (R400, R401). -/
def covers (t : Vert × Vert × Vert × Nat) (p : Int × Int) : Bool :=
  let (a, b, c, _) := t
  edgeIn a b p.1 p.2 && edgeIn b c p.1 p.2 && edgeIn c a p.1 p.2
def depthAt (t : Vert × Vert × Vert × Nat) (p : Int × Int) : Nat :=
  let (a, b, c, area) := t
  let ms := [(edgeAt b c p.1 p.2, a.z), (edgeAt c a p.1 p.2, b.z), (edgeAt a b p.1 p.2, c.z)]
  let expOf (v : FVal) : Int := match v with | .fin _ _ e => e | _ => 0
  let u := ms.foldl (fun u q => min u (expOf q.2)) 0
  let sum := ms.foldl (fun (n : Int) q => n + q.1 * (match q.2 with | .fin neg m e => funits neg m e u | _ => 0)) 0
  div32 (.fin (decide (sum < 0)) sum.natAbs u) (.fin false area 0)

/-- Fields of a splat record. -/
def spMx (r : BitVec 512) : Nat := recWord r 2
def spMy (r : BitVec 512) : Nat := recWord r 3
def spDepth (r : BitVec 512) : Nat := recWord r 4
def spA (r : BitVec 512) : Nat := recWord r 5
def spB (r : BitVec 512) : Nat := recWord r 6
def spC (r : BitVec 512) : Nat := recWord r 7
def spOpac (r : BitVec 512) : Nat := recWord r 8
def spColour (r : BitVec 512) (i : Nat) : Nat := (cvtFF fmtF32 envRne false (fdecode fmtF16 (bitsOf r (288 + 16 * i) 16))).1

/-- a·c − b² of a splat. -/
def spDet (r : BitVec 512) : Nat := sub32 (mul32 (spA r) (spC r)) (mul32 (spB r) (spB r))

/-- Whether the tiler accepts a record. -/
def recordOk (r : BitVec 512) : Bool :=
  let fin (i : Nat) : Bool := isFin (f32 (recWord r i))
  if isTri r then
    bitsOf r 416 96 == 0 && bitsOf r 4 28 == 0 && (List.range 9).all (fun i => fin (2 + i)) && (vertsOf r).isSome
  else if bitsOf r 0 4 == 2 then
    bitsOf r 336 176 == 0 && bitsOf r 4 28 == 0 && (List.range 7).all (fun i => fin (2 + i)) && !r.getLsbD 159 &&
      less32 0 (spDet r)
  else false

/-! ## Binning (R396, R403) -/

/-- The tiles of a rectangle of tile coordinates, clamped to a surface; none when it lies wholly outside. -/
def tileRect (e : Extent) (x0 x1 y0 y1 : Int) : List Nat :=
  if x1 < 0 || y1 < 0 || (e.tx : Int) ≤ x0 || (e.ty : Int) ≤ y0 then []
  else
    let cl (top : Nat) (x : Int) : Nat := (clampInt 0 ((top : Int) - 1) x).toNat
    let (a, b, c, f) := (cl e.tx x0, cl e.tx x1, cl e.ty y0, cl e.ty y1)
    (List.range (f + 1 - c)).flatMap fun j => (List.range (b + 1 - a)).map fun i => (c + j) * e.tx + a + i

/-- The pixels of a tile that lie in the surface, by their number 32·y + x in it. -/
def tilePixels (e : Extent) (tile : Nat) : List Nat :=
  (List.range 1024).filter fun p => e.has (tile % e.tx * 32 + p % 32) (tile / e.tx * 32 + p / 32)

/-- The samples of a tile's pixel that a triangle covers. -/
def coveredAt (b : BitVec 512) (e : Extent) (tile : Nat) (t : Vert × Vert × Vert × Nat) (p : Nat) : List Nat :=
  (List.range (pbSamples b)).filter fun s =>
    covers t (samplePos b (tile % e.tx * 32 + p % 32) (tile / e.tx * 32 + p / 32) s)

/-- The tiles a record is binned into. Of a triangle: those with a covered sample; whether also others that its bounding box touches is
open. Of a splat: those of its box; when the box is no number they are open. (DESIGN CHOICE: notes/assumptions/38) -/
def binTiles (d : Dev) (b : BitVec 512) (e : Extent) (r : BitVec 512) : List Nat :=
  let any (t : Nat) : Bool := freeBit d (40000000 + t)
  if isTri r then
    match vertsOf r with
    | some (v :: vs) =>
      let lo (f : Vert → Int) : Int := vs.foldl (fun m w => min m (f w)) (f v)
      let hi (f : Vert → Int) : Int := vs.foldl (fun m w => max m (f w)) (f v)
      let box := tileRect e (lo (·.x) / 8192) (hi (·.x) / 8192) (lo (·.y) / 8192) (hi (·.y) / 8192)
      let full (t : Nat) : Bool :=
        match triOf r with
        | some q => (tilePixels e t).any fun p => !(coveredAt b e t q p).isEmpty
        | none => false
      box.filter fun t => full t || any t
    | _ => []
  else
    let rad (c : Nat) : Nat := mul32 0x40400000 (fsqrtVal fmtF32 envRne (f32 (div32 (f32 c) (f32 (spDet r))))).1
    let rx := rad (spC r)
    let ry := rad (spA r)
    if nan32 rx || nan32 ry then (List.range (e.tx * e.ty)).filter any
    else
      tileRect e (tileFloor (sub32 (spMx r) rx)) (tileFloor (add32 (spMx r) rx)) (tileFloor (sub32 (spMy r) ry))
        (tileFloor (add32 (spMy r) ry))

/-- Records in the order of R394. -/
def ordered (rs : List TRec) : List TRec :=
  rs.insertionSort fun a b => a.seq < b.seq || (a.seq == b.seq && decide (a.arrival ≤ b.arrival))

/-! ## Visibility of a tile (R401) -/

/-- Whether a depth passes against a stored one. -/
def depthPass (dcmp z old : Nat) : Bool :=
  if dcmp = 2 then true
  else
    match fcmp (f32 z) (f32 old) with
    | some .lt => true
    | some .eq => dcmp == 1
    | _ => false

/-- A quad entry of R399. -/
structure QuadE where
  attr : DWord
  seq : Nat
  quad : Nat
  mask : BitVec 4
  cnt : Nat
  deriving DecidableEq, Repr

/-- An entry's sixteen bytes. -/
def quadNat (q : QuadE) : Nat :=
  q.cnt + q.mask.toNat * 2 ^ 20 + q.quad * 2 ^ 24 + q.seq * 2 ^ 32 + q.attr.toNat * 2 ^ 64

/-- One triangle over a tile's depth values: the visible samples of each pixel, the depths after it, which of them it wrote. -/
def drawTri (b : BitVec 512) (e : Extent) (tile : Nat) (r : BitVec 512) (dep : Table Nat) (wr : Table Nat) :
    List (Nat × Nat) × Table Nat × Table Nat :=
  match triOf r with
  | none => ([], dep, wr)
  | some t =>
    let n := pbSamples b
    (tilePixels e tile).foldl (fun (acc : List (Nat × Nat) × Table Nat × Table Nat) p =>
      let hit := (coveredAt b e tile t p).filterMap fun s =>
        let z := depthAt t (samplePos b (tile % e.tx * 32 + p % 32) (tile / e.tx * 32 + p / 32) s)
        if depthPass (pbDcmp b) z (tget acc.2.1 (n * p + s) 0) then some (n * p + s, z) else none
      let put (d : Table Nat) : Table Nat := if pbDwr b then hit.foldl (fun d h => tset d h.1 h.2) d else d
      (if hit.isEmpty then acc.1 else acc.1 ++ [(p, hit.length)], put acc.2.1, put acc.2.2)) ([], dep, wr)

/-- The quad entries of a triangle's visible pixels, in ascending QUAD. -/
def quadsOf (r : BitVec 512) (vis : List (Nat × Nat)) : List QuadE :=
  (List.range 256).filterMap fun q =>
    let at_ (i : Nat) : Nat := 32 * (2 * (q / 16) + i / 2) + 2 * (q % 16) + i % 2
    let n (i : Nat) : Nat := ((vis.find? fun v => v.1 == at_ i).map fun v => v.2).getD 0
    let mask := BitVec.ofNat 4 (((List.range 4).map fun i => if n i = 0 then 0 else 2 ^ i).sum)
    if mask == 0 then none
    else
      some { attr := r.extractLsb' 352 64, seq := recSeq r, quad := q, mask := mask,
             cnt := ((List.range 4).map fun i => n i * 2 ^ (5 * i)).sum }

/-! ## Splats (R404, R405) -/

/-- Splats by ascending depth pattern, equal ones in the order they stand. -/
def splatSort (rs : List TRec) : List TRec := rs.insertionSort fun a b => spDepth a.words ≤ spDepth b.words

/-- A pixel's colour and transmittance; whether compositing goes on. -/
structure SplatAcc where
  c : List Nat
  t : Nat
  go : Bool
  deriving DecidableEq, Repr

/-- One splat at a pixel centre. -/
def splatStep (termt : Nat) (stop : Option Nat) (x y : Nat) (a : SplatAcc) (r : BitVec 512) : SplatAcc :=
  let half : Nat := 0x3F000000
  let stops := match stop with
    | some z => fcmp (f32 (spDepth r)) (f32 z) == some Ordering.gt || fcmp (f32 (spDepth r)) (f32 z) == some Ordering.eq
    | none => false
  if !a.go then a
  else if stops then { a with go := false }
  else
    let dx := sub32 (add32 (nat32 x) half) (spMx r)
    let dy := sub32 (add32 (nat32 y) half) (spMy r)
    let s := add32 (add32 (mul32 (spA r) (mul32 dx dx)) (mul32 two32 (mul32 (spB r) (mul32 dx dy))))
      (mul32 (spC r) (mul32 dy dy))
    let power := mul32 0xBF000000 s
    if less32 0 power then a
    else
      let ex := (fex2Val fmtF32 envRne (f32 (mul32 power 0x3FB8AA3B))).1
      let alpha := (fminmax fmtF32 envRne false 0x3F7D70A4 (mul32 (spOpac r) ex)).1
      if less32 alpha 0x3B808081 then a
      else
        let w := mul32 a.t alpha
        let c := a.c.zipIdx.map fun (q : Nat × Nat) => add32 q.1 (mul32 w (spColour r q.2))
        let t := mul32 a.t (sub32 one32 alpha)
        { c := c, t := t, go := !less32 t termt }

/-- The stop depth of a pixel: the least of its sample values; NaN is no value. (DESIGN CHOICE: notes/assumptions/40) -/
def stopDepth (b : BitVec 512) (dep : Table Nat) (p : Nat) : Option Nat :=
  if !pbDstop b then none
  else
    let n := pbSamples b
    let vs := (List.range n).map fun s => tget dep (n * p + s) 0
    some ((vs.drop 1).foldl (fun m v => (fminmax fmtF32 envRne false m v).1) (vs.headD 0))

/-- The pixel results of a tile: sixteen bytes for each of its 1,024 pixels. -/
def splatBytes (b : BitVec 512) (termt : Nat) (e : Extent) (tile : Nat) (sp : List TRec) (dep : Table Nat) : List Byte :=
  (List.range 1024).flatMap fun p =>
    let x := tile % e.tx * 32 + p % 32
    let y := tile / e.tx * 32 + p / 32
    let a0 : SplatAcc := { c := [0, 0, 0], t := one32, go := true }
    let a := if e.has x y then (splatSort sp).foldl (fun a r => splatStep termt (stopDepth b dep p) x y a r.words) a0 else a0
    (a.c ++ [a.t]).flatMap fun v => natBytes v 4

/-! ## The depth buffer (R393, R401) -/

/-- The depth values of a tile. A word that cannot be read is open and leaves a record. (DESIGN CHOICE: notes/assumptions/40) -/
def readDepth (m : Mgmt) (d : Dev) (p : Pass) (e : Extent) (tile : Nat) : ERunM (Table Nat × Dev) :=
  let n := pbSamples p.block
  (tilePixels e tile).foldlM (fun (a : Table Nat × Dev) q =>
    let at_ := pbDepth p.block +
      BitVec.ofNat 64 (4 * n * ((tile / e.tx * 32 + q / 32) * e.w + tile % e.tx * 32 + q % 32))
    let put (t : Table Nat) (f : Nat → Nat) : Table Nat := (List.range n).foldl (fun t s => tset t (n * q + s) (f s)) t
    match distRead m a.2 p.ctx at_ (4 * n) 4 with
    | .ok (x, d1) => .ok (put a.1 fun s => x / 2 ^ (32 * s) % 2 ^ 32, d1)
    | .wait w => .error w
    | .bad b => .ok (put a.1 fun s => (freeWord a.2 (41000000 + n * q + s)).toNat, launchRecord m a.2 p.ctx b at_ p.hdrAddr (hLabel p.header)))
    ([], d)

/-- The words a tile's triangles wrote. One that cannot be written is lost with a record. (DESIGN CHOICE: notes/assumptions/40) -/
def writeDepth (m : Mgmt) (d : Dev) (p : Pass) (e : Extent) (tile : Nat) (wr : Table Nat) : ERunM Dev :=
  let n := pbSamples p.block
  wr.foldlM (fun (d : Dev) (w : Nat × Nat) =>
    let q := w.1 / n
    let at_ := pbDepth p.block +
      BitVec.ofNat 64 (4 * (n * ((tile / e.tx * 32 + q / 32) * e.w + tile % e.tx * 32 + q % 32) + w.1 % n))
    match distWrite m d p.ctx at_ 4 4 w.2 with
    | .ok d1 => .ok d1
    | .wait x => .error x
    | .bad b => .ok (launchRecord m d p.ctx b at_ p.hdrAddr (hLabel p.header))) d

/-! ## Tile input and rounds (R398) -/

/-- The tile header. -/
def tileHeader (e : Extent) (tile passno round nq : Nat) (last spl tri : Bool) : Nat :=
  tile % e.tx + tile / e.tx * 2 ^ 16 + passno % 2 ^ 16 * 2 ^ 32 + round % 2 ^ 16 * 2 ^ 48 + nq * 2 ^ 64 + last.toNat * 2 ^ 96 +
    spl.toNat * 2 ^ 97 + tri.toNat * 2 ^ 98

/-- Entries cut into rounds: a round that is not the last is filled; the last holds the rest beside the pixel results.
(DESIGN CHOICE: notes/assumptions/39) -/
def cutRounds (cap lastCap : Nat) : Nat → List QuadE → List (List QuadE)
  | 0, qs => [qs]
  | f + 1, qs => if qs.length ≤ lastCap then [qs] else qs.take cap :: cutRounds cap lastCap f (qs.drop cap)

/-- The rounds of one tile, its depth written. (DESIGN CHOICE: notes/assumptions/39) -/
def tileRounds (m : Mgmt) (d : Dev) (p : Pass) (e : Extent) (tile : Nat) (rs : List TRec) : ERunM (List RoundReq × Dev) :=
  match readDepth m d p e tile with
  | .error w => .error w
  | .ok (dep, d1) =>
    let tris := rs.filter fun r => isTri r.words
    let sp := rs.filter fun r => !isTri r.words
    let step (a : List QuadE × Table Nat × Table Nat) (r : TRec) : List QuadE × Table Nat × Table Nat :=
      let (vis, dep, wr) := drawTri p.block e tile r.words a.2.1 a.2.2
      (a.1 ++ quadsOf r.words vis, dep, wr)
    let (quads, dep1, wr) := tris.foldl step ([], dep, [])
    match writeDepth m d1 p e tile wr with
    | .error w => .error w
    | .ok d2 =>
      let spl := !sp.isEmpty
      let room := hScratchBytes p.header - 64
      let cap := max (room / 16) 1
      let lastCap := if spl then (room - 16384) / 16 else cap
      let cuts := cutRounds cap lastCap (quads.length + 1) quads
      let termt := bitsOf (ctxOf m p.ctx).termt 0 32
      let pix := if spl then splatBytes p.block termt e tile sp dep1 else []
      .ok (cuts.zipIdx.map fun (qs, i) =>
        let last := i + 1 == cuts.length
        { tile := tile,
          round :=
            { tile := tile, across := e.tx, round := i, last := last, quads := qs.map fun q => (q.quad, q.mask), done := [] },
          input :=
            natBytes (tileHeader e tile p.partials i qs.length last (spl && last) (!tris.isEmpty)) 64 ++
              (if last then pix else []) ++ qs.flatMap fun q => natBytes (quadNat q) 16 }, d2)

/-- The tiles with a record in their bins, ascending. -/
def binned (p : Pass) : List Nat := (p.recs.flatMap fun r => r.tiles).dedup.insertionSort (· ≤ ·)

/-- The extent of a pass's colour surface, as its descriptor says. (DESIGN CHOICE: notes/assumptions/40) -/
def passExtent (m : Mgmt) (d : Dev) (p : Pass) : ERunM Extent :=
  match readSurfAgain m d p.ctx (pbColor p.block) with
  | .ok s => .ok { w := s.w, h := s.h }
  | .error (.need w) => .error w
  | .error _ => .ok { w := 0, h := 0 }

/-! ## The groups of a pass (R397) -/

/-- Live groups of a pass's launch. -/
def passGroups (d : Dev) (p : Pass) : List Group := d.groups.filter fun g => g.launch == p.launch

/-- The next round, in ascending tile; while its tile or its stack set has a group it waits, and holds back those after it (R22, R46).
(DEDUCED: notes/assumptions/41) -/
def nextRound (d : Dev) (p : Pass) : Option RoundReq :=
  let live := passGroups d p
  let sg := max (hStackGrp p.header) 1
  match p.rounds with
  | r :: _ => if live.any fun g => g.index == r.tile || g.index % sg == r.tile % sg then none else some r
  | [] => none

/-- The next round of a die's pass offered to its spindles. -/
def offerRound (d : Dev) (die : Nat) : Dev :=
  match (tget? d.tilers die).bind fun p => nextRound d p with
  | some r =>
    let e : Instr := .tileRoundStart die r.tile
    if d.agenda.contains e then d else post d e
  | none => d

/-- The skeins that wait for a tiler. -/
def wakeTiler (d : Dev) : Dev := wakeAll d fun q => match q with | .tiler => true | _ => false

/-- A pass completed (R406, R414): its status area is written at device scope, its cache entries become INVALID, the tiler is free.
(DESIGN CHOICE: notes/assumptions/40) -/
def endPass (m : Mgmt) (d : Dev) (die : Nat) (p : Pass) : ERunM Dev :=
  let x := p.records % 2 ^ 64 + p.discarded % 2 ^ 64 * 2 ^ 64 + p.partials % 2 ^ 64 * 2 ^ 128 + p.groups % 2 ^ 64 * 2 ^ 192
  let w : ERunM Dev :=
    match distWrite m d p.ctx (pbStatus p.block) 32 8 x with
    | .ok d1 => .ok d1
    | .wait n => .error n
    | .bad b => .ok (launchRecord m d p.ctx b (pbStatus p.block) p.hdrAddr (hLabel p.header))
  w.map fun d1 =>
    wakeTiler { d1 with
      tilers := tdel d1.tilers die, launches := d1.launches.filter fun l => l.id != p.launch,
      dsc := d1.dsc.filter fun e => !(e.pass == p.id && e.spindle / 48 == die) }

/-- What follows when rounds and groups of a die's pass may have run out: a partial render ends, or a closed pass completes. -/
def passProgress (m : Mgmt) (d : Dev) (die : Nat) : ERunM Dev :=
  match tget? d.tilers die with
  | none => .ok d
  | some p =>
    if !p.rounds.isEmpty || !(passGroups d p).isEmpty then .ok (offerRound d die)
    else if p.rendering then
      .ok (if d.agenda.contains (.partialRenderEnd die) then d else post d (.partialRenderEnd die))
    else if p.open_ then .ok d
    else endPass m d die p

/-- The bins closed (R397): visibility is decided for every tile and its groups queue, as a launch accepted now (R94). `by_` is the
launch they take their class from. (DESIGN CHOICE: notes/assumptions/40; DEDUCED: notes/assumptions/41) -/
def closeBins (m : Mgmt) (d : Dev) (die : Nat) (p : Pass) (by_ cls : Nat) : ERunM (Pass × Dev) :=
  match passExtent m d p with
  | .error w => .error w
  | .ok e =>
    let one (a : List RoundReq × Dev) (t : Nat) : ERunM (List RoundReq × Dev) :=
      (tileRounds m a.2 p e t (ordered (p.recs.filter fun r => r.tiles.contains t))).map fun r => (a.1 ++ r.1, r.2)
    match (binned p).foldlM one ([], d) with
    | .error w => .error w
    | .ok (rs, d1) =>
      let args : ERunM (BitVec 512 × Dev) :=
        match distRead m d1 p.ctx (hArgs p.header) 64 64 with
        | .ok (x, d2) => .ok (BitVec.ofNat 512 x, d2)
        | .wait w => .error w
        | .bad b =>
          .ok ((List.range 8).foldl (fun x i => x ||| (freeVal d1 (43000000 + i)).setWidth 512 <<< (64 * i)) 0,
            launchRecord m d1 p.ctx b (hArgs p.header) p.hdrAddr (hLabel p.header))
      args.map fun (x, d2) =>
        let (i, d3) := fresh d2
        let l : Launch :=
          { id := i, ctx := p.ctx, src := .tile die, header := p.header, hdrAddr := p.hdrAddr, args := x, cls := cls,
            next := 0, retired := [], lastDie := some die }
        ({ p with rounds := p.rounds ++ rs, by_ := by_, cls := cls, launch := i },
          { d3 with launches := d3.launches.filter (fun q => q.id != p.launch) ++ [l] })

/-- The bin memory of an accepted record, whose contents programs know nothing of (R396); a byte that cannot be written stays. -/
def fillBins (m : Mgmt) (d : Dev) (p : Pass) (n : Nat) : ERunM Dev :=
  let x := ((List.range (n / 8)).map fun i => (freeVal d (10 ^ 12 + p.used / 8 + i)).toNat * 2 ^ (64 * i)).sum
  match distWrite m d p.ctx (pbBins p.block + BitVec.ofNat 64 p.used) n 8 x with
  | .ok d1 => .ok d1
  | .wait w => .error w
  | .bad e => .ok (launchRecord m d p.ctx e (pbBins p.block + BitVec.ofNat 64 p.used) p.hdrAddr (hLabel p.header))

/-- Accepted records entered into the bins of a die's pass one after another (R396): one that does not fit starts a partial render,
for which it and the rest wait; one that fits no empty bins is discarded. -/
def acceptRecs (m : Mgmt) (die by_ cls : Nat) : List TRec → Dev → ERunM Dev
  | [], d => .ok d
  | r :: rest, d =>
    match tget? d.tilers die with
    | none => .ok d
    | some p =>
      let put (d : Dev) (p : Pass) : Dev := { d with tilers := tset d.tilers die p }
      if p.rendering then acceptRecs m die by_ cls rest (put d { p with held := p.held ++ [r] })
      else
        match passExtent m d p with
        | .error w => .error w
        | .ok e =>
          let r1 := { r with tiles := binTiles d p.block e r.words }
          let need := 64 + 16 * r1.tiles.length
          let cap := pbBinBytes p.block
          if !recordOk r.words || cap < need then acceptRecs m die by_ cls rest (put d { p with discarded := p.discarded + 1 })
          else if p.used + need ≤ cap then
            match fillBins m d p need with
            | .error w => .error w
            | .ok d1 =>
              acceptRecs m die by_ cls rest
                (put d1 { p with recs := p.recs ++ [r1], used := p.used + need, records := p.records + 1 })
          else
            match closeBins m d die p by_ cls with
            | .error w => .error w
            | .ok (p1, d1) =>
              match passProgress m (put d1 { p1 with rendering := true, held := [r] }) die with
              | .error w => .error w
              | .ok d2 => acceptRecs m die by_ cls rest d2

/-- What a push to the tiler comes to. -/
inductive TilerPush where
  | ok (d : Dev)
  | refused
  | full
  | wait (n : Need)

/-- Words pushed by the issuing skein through one of its queue registers (R394). (DESIGN CHOICE: notes/assumptions/42) -/
def pushTiler (m : Mgmt) (d da : Dev) (q : Nat) (ws : List Word) : TilerPush :=
  let k := curSkein d
  let g := curGroup d
  match tget? d.tilers g.die with
  | none => .refused
  | some p =>
    if !p.open_ || p.ctx != g.ctx then .refused
    else if p.rendering then .full
    else
      let old := ((k.q[q]?).getD blankQ).words ++ ws
      let n := old.length / 16
      let recOf (i : Nat) : TRec :=
        let x := ((old.drop (16 * i)).take 16).zipIdx.foldl (fun (x : Nat) w => x + w.1.toNat * 2 ^ (32 * w.2)) 0
        { seq := recSeq (BitVec.ofNat 512 x), arrival := p.arrivals + i, words := BitVec.ofNat 512 x, tiles := [] }
      let d1 := modSkein da k.uid fun k =>
        { k with q := k.q.setIfInBounds q { (k.q[q]?).getD blankQ with words := old.drop (16 * n) } }
      let d2 := { d1 with tilers := tset d1.tilers g.die { p with arrivals := p.arrivals + n } }
      match acceptRecs m g.die g.launch (groupCls m d g) ((List.range n).map recOf) d2 with
      | .ok d3 => .ok d3
      | .error w => .wait w

/-! ## TBEGIN and TFLUSH (R438, R439) -/

/-- Whole lines checked one by one; the first that fails is recorded by its own address. -/
def checkLines (m : Mgmt) (d : Dev) (ctx : Nat) (p : DWord) (n : Nat) (store : Bool) : SurfM Unit :=
  (List.range ((n + 127) / 128)).forM fun i => surfCheck m d ctx (p + BitVec.ofNat 64 (128 * i)) (min 128 (n - 128 * i)) 1 stTile store

/-- The bytes of a pass's depth buffer. -/
def depthSize (b : BitVec 512) (s : Surf) : Nat := s.w * s.h * 4 * pbSamples b

/-- The lines of DEPTH and of BINS checked (R438). (DESIGN CHOICE: notes/assumptions/42) -/
def passAreas (m : Mgmt) (d : Dev) (ctx : Nat) (b : BitVec 512) (s : Surf) : SurfM Unit :=
  match checkLines m d ctx (pbDepth b) (depthSize b s) (pbDwr b) with
  | .error e => .error e
  | .ok _ => checkLines m d ctx (pbBins b) (pbBinBytes b) true

/-- The checks of TBEGIN behind its block (R393, R438): the block, the shading launch's header, the surface and the areas, a spindle of
the die; the header. (DEDUCED: notes/assumptions/41; DESIGN CHOICE: notes/assumptions/42) -/
def tbeginHeader (m : Mgmt) (d : Dev) (p : DWord) (b : BitVec 512) : SurfM (BitVec 1024) :=
  let ctx := curCtx d
  if passBad b then sbad stSurfBounds .bounds p
  else
    match areaIn m d ctx p (pbBins b) (pbBinBytes b) *> surfCheck m d ctx (pbKernel b) 128 64 0 false with
    | .error e => .error e
    | .ok _ =>
      match surfRead m d ctx (pbKernel b) 128 64 with
      | .error e => .error e
      | .ok hx =>
        let h := BitVec.ofNat 1024 hx
        if (headerFault (isDet m ctx) h).isSome || decide (hScratch h < 17) then sbad stSurfBounds .bounds (pbKernel b)
        else
          match openSurf m d ctx (pbColor b) true fun sf => areaIn m d ctx p (pbDepth b) (depthSize b sf) with
          | .error e => .error e
          | .ok sf =>
            match passAreas m d ctx b sf with
            | .error e => .error e
            | .ok _ =>
              if !(List.range 48).any fun i => partBit m ctx (curGroup d).die i then sbad stSurfBounds .perm p else .ok h

/-- A pass opened on the die of a group, under two fresh names. -/
def openPass (m : Mgmt) (d : Dev) (g : Group) (b : BitVec 512) (h : BitVec 1024) : Dev :=
  let ps : Pass :=
    { ctx := g.ctx, launch := d.nextId + 1, by_ := g.launch, block := b, header := h, cls := groupCls m d g,
      hdrAddr := pbKernel b, open_ := true, recs := [], used := 0, arrivals := 0, records := 0,
      discarded := 0, partials := 0, groups := 0, rounds := [], rendering := false, held := [], id := d.nextId }
  { d with nextId := d.nextId + 2, tilers := tset d.tilers g.die ps }

/-- TBEGIN (R438). -/
def execTbegin (o : Ue) (s : State) : Host.Outcome State Fault Refusal :=
  s.run fun m d =>
    uniIssue m d (hdUe o 4 [.s o.sp 2]) fun da =>
      let g := curGroup d
      let all := d.cur.lanes
      let p := readS64 d (curSkein d) o.sp.toNat
      bundleLoad m d da p 64 0 [] false fun x d1 _ =>
        match tbeginHeader m d p (BitVec.ofNat 512 x) with
        | .error e => surfRes d all true [] e
        | .ok h =>
          let busy := (tget? d.tilers g.die).isSome
          match releaseAt m (if busy then d else d1) (curCtx d) (curSpindle d) 4 with
          | .error e => waitRes d e (faultAt .dataerr 0 all)
          | .ok d2 => if busy then .park d2 .tiler else .done (openPass m d2 g (BitVec.ofNat 512 x) h)

/-- Partly assembled records of a die's bindings discarded: how many, and the device without them. -/
def dropPartial (d : Dev) (die ctx : Nat) : Nat × Dev :=
  let on (k : Skein) : Bool := let g := groupOf d k.gid; g.die == die && g.ctx == ctx
  let mine (q : QReg) : Bool := q.bound && q.ep == 0 && !q.words.isEmpty
  let n := (d.skeins.map fun k => if on k then (k.q.toList.filter mine).length else 0).sum
  (n, { d with skeins := modWhere on (fun k => { k with q := k.q.map fun q => if q.ep == 0 then { q with words := [] } else q }) d.skeins })

/-- TFLUSH (R439). (DESIGN CHOICE: notes/assumptions/42) -/
def execTflush (o : Ue) (s : State) : Host.Outcome State Fault Refusal :=
  s.run fun m d =>
    uniIssue m d (hdUe o 4 []) fun da =>
      let g := curGroup d
      match tget? d.tilers g.die with
      | none => .fault (uniFault d .queueuse 0)
      | some p =>
        if !p.open_ || p.ctx != g.ctx then .fault (uniFault d .queueuse 0)
        else if p.rendering then .park d .tiler
        else
          match releaseAt m da g.ctx (curSpindle d) 4 with
          | .error e => waitRes d e (faultAt .dataerr 0 d.cur.lanes)
          | .ok d1 =>
            let (n, d2) := dropPartial d1 g.die g.ctx
            let p1 := { p with discarded := p.discarded + n, open_ := false }
            match closeBins m d2 g.die p1 g.launch (groupCls m d g) with
            | .error w => waitFor d w
            | .ok (p2, d3) =>
              match passProgress m { d3 with tilers := tset d3.tilers g.die p2 } g.die with
              | .error w => waitFor d w
              | .ok d4 => .done d4

/-! ## The tiler's events -/

/-- TILE_ROUND_START (R397, R398): the next round of a die's pass placed, if its tile is the one named and a spindle fits; otherwise
room is made for it (R50) or it waits. -/
def execTileRoundStart (die tile : Nat) (s : State) : Host.Outcome State Fault Refusal :=
  s.run fun m d =>
    let ev : Instr := .tileRoundStart die tile
    match tget? d.tilers die with
    | none => d
    | some p =>
      match nextRound d p, launch? d p.launch with
      | some r, some l =>
        if r.tile != tile then offerRound d die
        else
          let x := startDemand p.ctx p.header
          match findSpindle m d die x with
          | none => (makeWay m d [die] ((launch? d p.by_).elim p.cls (launchCls m d)) x).getD d
          | some sp =>
            let placed : MemM Dev := (acquireAt m d p.ctx (48 * die + sp) 4).bind fun d1 =>
              let (g, d2) := launchGroup d1 l tile die sp
              let g1 := { g with tile := some r.round, scratch := memBytes [] 0 r.input }
              clearWays m (startGroup d2 g1 (startThread p.header tile) (startS l.args tile)) p.ctx (48 * die + sp)
            match placed with
            | .error (.need w) => defer d w ev
            | .error _ => d
            | .ok d3 =>
              let p1 := { p with rounds := p.rounds.erase r, groups := p.groups + 1 }
              offerRound { d3 with tilers := tset d3.tilers die p1 } die
      | _, _ => d

/-- PARTIAL_RENDER_END (R396): the bins are reset and the records that waited enter them; pushes go on. -/
def execPartialRenderEnd (die : Nat) (s : State) : Host.Outcome State Fault Refusal :=
  s.run fun m d =>
    match tget? d.tilers die with
    | none => d
    | some p =>
      if !p.rendering || !p.rounds.isEmpty || !(passGroups d p).isEmpty then d
      else
        let p1 := { p with rendering := false, recs := [], used := 0, partials := p.partials + 1, held := [] }
        match acceptRecs m die p.by_ p.cls p.held { d with tilers := tset d.tilers die p1 } with
        | .error w => defer d w (.partialRenderEnd die)
        | .ok d1 => if ((tget? d1.tilers die).map fun q => q.rendering).getD false then d1 else wakeTiler d1

end Sys2Proof.Machine
end

