-- ==== Sys2Proof/Machine/Queues.lean ====
section
/-!
DEFINITION. Queue registers and what they reach (R125, R160, R177, R278, R279, R285, R291 to R294): MOV and SMOV, QBIND, QFREE,
QSTAT, SPAWN; the rings in a context's memory that the lead Distaff writes (R445, R457), and service calls (R153, R457 to R459).
-/

namespace Sys2Proof.Machine

/-! ## Queue registers -/

/-- Whether a register code names a queue register, and which (R125). -/
def isQ (r : BitVec 7) : Bool := decide (120 ≤ r.toNat)
def qNo (r : BitVec 7) : Nat := r.toNat - 120

/-- A queue register of a skein, and the skein with it changed. -/
def qOf (k : Skein) (i : Nat) : QReg := (k.q[i]?).getD blankQ
def setQ (d : Dev) (u i : Nat) (q : QReg) : Dev := modSkein d u fun k => { k with q := k.q.setIfInBounds i q }

/-- Skeins that wait for room or an element look again. -/
def wakeQueues (d : Dev) : Dev := wakeAll d fun p => match p with | .queue => true | _ => false

/-! ## Spool queues (R35, R177, R279) -/

/-- A spool queue's ring: base, record count. -/
def spoolCfg (m : Mgmt) (ctx p : Nat) : DWord := ((ctxOf m ctx).spoolcfg[p]?).getD 0
def spoolBase (m : Mgmt) (ctx p : Nat) : DWord := spoolCfg m ctx p &&& ~~~0xFFF
def spoolSize (m : Mgmt) (ctx p : Nat) : Nat := 2 ^ bitsOf (spoolCfg m ctx p) 0 5
def spoolOf (d : Dev) (ctx p : Nat) : Spool := (tget? d.spools (4 * ctx + p)).getD { push := 0, pop := 0 }
def setSpool (d : Dev) (ctx p : Nat) (x : Spool) : Dev := { d with spools := tset d.spools (4 * ctx + p) x }
def spoolEntry (m : Mgmt) (ctx p k : Nat) : DWord := spoolBase m ctx p + BitVec.ofNat 64 (32 * (k % spoolSize m ctx p))
def spoolFull (m : Mgmt) (d : Dev) (ctx p : Nat) : Bool :=
  decide (spoolSize m ctx p ≤ (spoolOf d ctx p).push - (spoolOf d ctx p).pop)

/-- A spool queue with work offered to the dies that hold groups of its context, from a die on that is open; without any, to that
one, which pops a record it refuses (R38). (DESIGN CHOICE: notes/assumptions/47) -/
def announceSpool (d : Dev) (ctx p : Nat) : Dev :=
  let s := freeBelow d 44000 16
  let dies := ((List.range 16).map fun i => (s + i) % 16).filter fun e => d.groups.any fun g => g.resident && g.ctx == ctx && g.die == e
  let old (v : Instr) : Bool := match v with | .spoolPop _ c q => c == ctx && q == p | _ => false
  postAll { d with agenda := d.agenda.filter fun v => !old v } ((if dies.isEmpty then [s] else dies).map fun e => .spoolPop e ctx p)

/-- A spool queue's head record gone: the next one is offered, a refused one to be popped at once (R34, R38). -/
def spoolPopped (d : Dev) (ctx prio : Nat) : Dev :=
  let q := spoolOf d ctx prio
  let d1 := wakeQueues (setSpool d ctx prio { q with pop := q.pop + 1 })
  if q.pop + 1 < q.push then announceSpool d1 ctx prio else d1

/-- A record of 32 bytes written into a spool queue's next entry. -/
def pushSpool (m : Mgmt) (d : Dev) (ctx p : Nat) (x : Nat) : Dist Dev :=
  let q := spoolOf d ctx p
  (distWrite m d ctx (spoolEntry m ctx p q.push) 32 32 x).bind fun d1 =>
    .ok (wakeQueues (announceSpool (setSpool d1 ctx p { q with push := q.push + 1 }) ctx p))

/-- A Distaff-like access made by an instruction. (DEDUCED: notes/assumptions/44) -/
def distRes (d : Dev) (addr : DWord) (x : Dist Dev) (f : Dev → Res) : Res :=
  match x with
  | .ok d1 => f d1
  | .bad e => .fault { uniFault d e.cause addr with sub := e.sub, pages := [pageEntry addr true false e.sub] }
  | .wait w => waitFor d w

/-! ## MOV (R124, R125) -/

/-- A push of one word for each executing lane. -/
def movPush (m : Mgmt) (d da : Dev) (o : Lr) (ty : BitVec 4) (ex : Mask) : Res :=
  let i := qNo o.d
  let q := qOf (curSkein d) i
  let no : Res := .fault (faultAt .queueuse 0 ex)
  if ex == 0 then .done da
  else if !q.bound || q.ep != 0 || tyRegs ty != 1 then no
  else
    match pushTiler m d da i ((lanesOf ex).map fun l => laneReader d l o.a.toNat) with
    | .ok d1 => .done d1
    | .refused => no
    | .full => .park d .tiler
    | .wait w => waitFor d w

/-- A pop of one element for each executing lane. -/
def movPop (d da : Dev) (o : Lr) (ty : BitVec 4) (ex : Mask) : Res :=
  let i := qNo o.a
  let u := d.cur.skein
  let q := qOf (curSkein d) i
  let ls := lanesOf ex
  if ls.isEmpty then .done da
  else if !q.bound || q.ep != 6 || tyRegs ty != 1 then .fault (faultAt .queueuse 0 ex)
  else if q.elems.length < ls.length then .park d .queue
  else
    let ws := (ls.zip q.elems).flatMap fun (l, x) => res1 (wrV l) o.d x.toNat
    .done (addPend (setQ da u i { q with elems := q.elems.drop ls.length }) u latAlu ws)

/-- MOV (R124, R125). -/
def execMov (o : Lr) (s : State) : Host.Outcome State Fault Refusal :=
  s.run fun m d =>
    let x := lrXm o 0
    let n := tyRegs x.ty
    let h := hdXm o.w (lenOf o.xm) x (if isQ o.a then [] else [.v o.a n])
    if isQ o.d then laneIssue m d { h with ends := endsIf true } fun ex da => movPush m d da o x.ty ex
    else if isQ o.a then laneIssue m d { h with ends := endsIf true } fun ex da => movPop d da o x.ty ex
    else laneInt m d h latAlu fun rd wr => resOf wr o.d x.ty (patOf rd o.a x.ty)

/-! ## SMOV (R160) -/

/-- The binding's endpoint, when a use of a queue register is allowed: bound, for the uniform set, elements of that width. -/
def uniBound (q : QReg) (regs : Nat) : Option Nat :=
  let width := if q.ep == 4 || q.ep == 5 then 2 else 4
  if q.bound && q.ep != 0 && q.ep != 6 && regs == width then some q.ep else none

/-- A push of one element. (DEDUCED: notes/assumptions/44, 45) -/
def smovPush (m : Mgmt) (d da : Dev) (o : Lr) (ty : BitVec 4) : Res :=
  let i := qNo o.d
  let u := d.cur.skein
  let q := qOf (curSkein d) i
  let ctx := curCtx d
  let g := curGroup d
  let x := joinRegs (uniReader d) o.a.toNat (tyRegs ty)
  let no : Res := .fault (uniFault d .queueuse 0)
  match uniBound q (tyRegs ty) with
  | some 1 =>
    match q.half with
    | none => .done (setQ da u i { q with half := some (BitVec.ofNat 128 x) })
    | some y =>
      if spoolFull m d ctx q.prio then .park d .queue
      else
        distRes d (spoolEntry m ctx q.prio (spoolOf d ctx q.prio).push) (pushSpool m da ctx q.prio (y.toNat + 2 ^ 128 * x))
          fun d1 => .done (setQ d1 u i { q with half := none })
  | some ep =>
    let op := x / 2 ^ 64 % 256
    let tag := x / 2 ^ 72 % 64
    let p := BitVec.ofNat 64 x
    let ok := if ep == 2 then decide (0x53 ≤ op) && decide (op ≤ 0x57) else decide (0x50 ≤ op) && decide (op ≤ 0x52)
    let inRange := decide (hTagBase g.header ≤ tag) && decide (tag < hTagBase g.header + hTagCnt g.header)
    if ep != 2 && ep != 3 then no
    else if !ok || x / 2 ^ 78 != 0 || !inRange then no
    else commandAt m d da op tag false p
  | none => no

/-- A pop of one element. (DEDUCED: notes/assumptions/44) -/
def smovPop (m : Mgmt) (d da : Dev) (o : Lr) (ty : BitVec 4) : Res :=
  let i := qNo o.a
  let u := d.cur.skein
  let q := qOf (curSkein d) i
  let ctx := curCtx d
  let no : Res := .fault (uniFault d .queueuse 0)
  let put (d : Dev) (x : Nat) : Res := .done (addPend d u latUni (splitRegs wrS o.d.toNat x (tyRegs ty)))
  match uniBound q (tyRegs ty) with
  | some 1 =>
    match q.popHalf with
    | some y => put (setQ da u i { q with popHalf := none }) y.toNat
    | none =>
      let sp := spoolOf d ctx q.prio
      if sp.push ≤ sp.pop then .park d .queue
      else
        let p := spoolEntry m ctx q.prio sp.pop
        match distRead m da ctx p 32 32 with
        | .bad e => .fault { uniFault d e.cause p with sub := e.sub, pages := [pageEntry p false false e.sub] }
        | .wait w => waitFor d w
        | .ok (x, d1) =>
          put (setQ (spoolPopped d1 ctx q.prio) u i
            { q with popHalf := some (BitVec.ofNat 128 (x / 2 ^ 128)) }) (x % 2 ^ 128)
  | some ep =>
    if ep != 4 && ep != 5 then no
    else
      match q.elems with
      | [] => .park d .queue
      | e :: r => put (setQ da u i { q with elems := r }) e.toNat
  | none => no

/-- SMOV (R160). -/
def execSmov (o : Lr) (s : State) : Host.Outcome State Fault Refusal :=
  s.run fun m d =>
    let x := lrXm o 0
    let n := tyRegs x.ty
    let h := hdXm o.w (lenOf o.xm) x (if isQ o.a then [] else [.s o.a n])
    if isQ o.d then uniIssue m d { h with ends := endsIf true } fun da => smovPush m d da o x.ty
    else if isQ o.a then uniIssue m d { h with ends := endsIf true } fun da => smovPop m d da o x.ty
    else uniInt m d h latUni fun rd wr => resOf wr o.d x.ty (patOf rd o.a x.ty)

/-! ## QBIND, QFREE, QSTAT, SPAWN -/

/-- QBIND (R291). -/
def execQbind (o : Ue) (s : State) : Host.Outcome State Fault Refusal :=
  s.run fun m d =>
    uniIssue m d (hdUe o 4 []) fun da =>
      let k := curSkein d
      let i := qNo o.sp
      let ep := bitsOf o.tag 0 4
      let p := bitsOf o.tag 4 2
      let twice := decide (4 ≤ ep) && k.q.toList.any fun q => q.bound && q.ep == ep
      if (qOf k i).bound || (ep == 1 && spoolBase m (curCtx d) p == 0) || twice then .fault (uniFault d .queueuse 0)
      else .done (setQ da k.uid i { blankQ with bound := true, ep := ep, prio := p })

/-- QFREE (R292). -/
def execQfree (o : Ue) (s : State) : Host.Outcome State Fault Refusal :=
  s.run fun m d => uniIssue m d (hdUe o 4 []) fun da => .done (setQ da d.cur.skein (qNo o.sp) blankQ)

/-- COUNT of QSTAT. A spool queue both pushes and pops: which of the two counts it shows is open. (DESIGN CHOICE: notes/assumptions/43) -/
def qCount (m : Mgmt) (d : Dev) (q : QReg) : Nat :=
  let ctx := curCtx d
  let sp := spoolOf d ctx q.prio
  let n :=
    if q.ep == 0 then (if ((tget? d.tilers (curGroup d).die).map fun p => p.rendering).getD false then 0 else 255)
    else if q.ep == 1 then
      if freeBit d 44100 then 2 * (sp.push - sp.pop) + (if q.popHalf.isSome then 1 else 0)
      else 2 * (spoolSize m ctx q.prio - (sp.push - sp.pop)) - (if q.half.isSome then 1 else 0)
    else if q.ep == 2 || q.ep == 3 then 255
    else q.elems.length
  min n 255

/-- QSTAT (R290, R293). -/
def execQstat (o : Lk) (s : State) : Host.Outcome State Fault Refusal :=
  s.run fun m d =>
    let i := (immOf o false).toNat % 8
    uniIssue m d (hd o.w (lenOf o.xl) []) fun da =>
      if isDet m (curCtx d) then .fault (detRead d.cur.lanes false o.d.toNat 1)
      else
        let q := qOf (curSkein d) i
        let x := if !q.bound then 0
          else 2 ^ 31 + q.ovf.toNat * 2 ^ 30 + q.half.isSome.toNat * 2 ^ 29 + qCount m d q * 2 ^ 16 + q.prio * 2 ^ 4 + q.ep
        .done (addPend da d.cur.skein latUni (res1 wrS o.d x))

/-- SPAWN (R177). (DEDUCED: notes/assumptions/44) -/
def execSpawn (o : Ue) (s : State) : Host.Outcome State Fault Refusal :=
  s.run fun m d =>
    uniIssue m d (hdUe o 4 [.s o.sp 8]) fun da =>
      let ctx := curCtx d
      let p := bitsOf o.sub 0 2
      let x := joinRegs (uniReader d) o.sp.toNat 8
      if spoolBase m ctx p == 0 then .fault (uniFault d .queueuse 0)
      else
        let rel (d : Dev) : MemM Dev := if o.sub.getLsbD 2 then releaseAt m d ctx (curSpindle d) 4 else .ok d
        if spoolFull m d ctx p then
          match rel d with
          | .error e => waitRes d e (faultAt .dataerr 0 d.cur.lanes)
          | .ok d1 => .park d1 .queue
        else
          match rel da with
          | .error e => waitRes d e (faultAt .dataerr 0 d.cur.lanes)
          | .ok d1 => distRes d (spoolEntry m ctx p (spoolOf d ctx p).push) (pushSpool m d1 ctx p x) .done

/-! ## Rings in a context's memory (R445, R457) -/

/-- The parts of FAULTQ and RING, and the address of a slot. -/
def ringBase (r : DWord) : DWord := r &&& ~~~0xFFF
def ringLog (r : DWord) : Nat := bitsOf r 0 5
def ringSlot (r : DWord) (k : Nat) : DWord := ringBase r + BitVec.ofNat 64 (64 + 64 * (k % 2 ^ ringLog r))

/-- TAIL and the number of free slots. -/
def ringRoom (m : Mgmt) (d : Dev) (ctx : Nat) (r : DWord) : Dist (Nat × Nat) :=
  (distRead m d ctx (ringBase r) 16 8).bind fun (x, _) =>
    let head := x % 2 ^ 64
    let tail := x / 2 ^ 64
    .ok (tail, 2 ^ ringLog r - (tail + 2 ^ 64 - head) % 2 ^ 64)

/-- Slots written from TAIL on, then TAIL advanced. -/
def ringPut (m : Mgmt) (d : Dev) (ctx : Nat) (r : DWord) (tail : Nat) (xs : List (BitVec 512)) : Dist Dev :=
  let one (a : Dist Dev) (x : BitVec 512 × Nat) : Dist Dev :=
    a.bind fun d1 => distWrite m d1 ctx (ringSlot r (tail + x.2)) 64 8 x.1.toNat
  (xs.zipIdx.foldl one (.ok d)).bind fun d1 => distWrite m d1 ctx (ringBase r + 8) 8 8 (tail + xs.length)

/-- A waiter of a pointer's line, registered once. -/
def waitAt (m : Mgmt) (d : Dev) (ctx : Nat) (p : DWord) (w : Waiter) : Dev :=
  match distLine m d ctx p with
  | .ok line => if d.waiters.contains (line, w) then d else { d with waiters := d.waiters ++ [(line, w)] }
  | _ => d

/-- What a record waits for is no longer waited for. -/
def dropWaiter (d : Dev) (w : Waiter) : Dev := { d with waiters := d.waiters.filter fun e => e.2 != w }

/-! ## Service calls (R153, R457 to R459) -/

/-- SVC (R153): the release at system scope, then the slots are written by an event. -/
def execSvc (o : Lk) (s : State) : Host.Outcome State Fault Refusal :=
  s.run fun m d =>
    let h := { hd o.w (lenOf o.xl) [.v 0 12] with ends := endsIf true }
    let n := immOf o false
    issue m d h (hazOf (curSkein d) d.cur.lanes d.cur.lanes h.rds) fun _ =>
      let ctx := curCtx d
      if ringLog (ctxOf m ctx).ring = 0 then .fault { faultAt .svc 0 d.cur.lanes with data := n.setWidth 64 }
      else
        match releaseAt m d ctx (curSpindle d) 5 with
        | .error e => waitRes d e (faultAt .dataerr 0 d.cur.lanes)
        | .ok d1 => .park (post d1 (.requestRingWrite d.cur.skein)) (.ring n d.cur.lanes d.cur.pc)

/-- The header slot of a service call. -/
def svcHeader (g : Group) (k : Skein) (ls : Mask) (pc : DWord) : BitVec 512 :=
  BitVec.ofNat 512 (pc.toNat + ls.toNat * 2 ^ 64 + k.idx * 2 ^ 96 + g.index * 2 ^ 128 + (lanesOf ls).length * 2 ^ 192)

/-- The argument block of a lane; a register beyond the allocation gives a free value. (DESIGN CHOICE: notes/assumptions/46) -/
def svcBlock (d : Dev) (g : Group) (k : Skein) (service : Word) (pc : DWord) (lane : Nat) : BitVec 512 :=
  let v (r : Nat) : Nat := (if r < 8 * hVregs g.header then readV d k lane r else freeWord d (45000 + 16 * lane + r)).toNat
  let regs := ((List.range 12).map fun r => v r * 2 ^ (32 * r)).sum
  BitVec.ofNat 512 (regs + service.toNat * 2 ^ 384 + (32 * k.idx + lane) * 2 ^ 416 + lane * 2 ^ 432 + pc.toNat * 2 ^ 448)

/-- REQUEST_RING_WRITE (R457): with room, the header and a block for each lane of the bundle, TAIL, the service vector; without it the
skein waits for HEAD. A ring that cannot be written makes the call raise the fault met. (DESIGN CHOICE: notes/assumptions/46) -/
def execRequestRingWrite (skein : Nat) (s : State) : Host.Outcome State Fault Refusal :=
  s.run fun m d =>
    let k := skeinOf d skein
    let g := groupOf d k.gid
    let ring := (ctxOf m g.ctx).ring
    match k.park with
    | some (.ring service ls pc) =>
      let d0 := dropWaiter d (.svc skein)
      let xs := svcHeader g k ls pc :: (lanesOf ls).map (svcBlock d g k service pc)
      let failed (e : DistErr) : Dev :=
        takeFault m d0 skein pc k.parkNext ls { faultAt e.cause (ringBase ring) ls with sub := e.sub }
      match ringRoom m d g.ctx ring with
      | .wait w => defer d w (.requestRingWrite skein)
      | .bad e => failed e
      | .ok (tail, room) =>
        if room < xs.length then waitAt m d0 g.ctx (ringBase ring) (.svc skein)
        else
          match ringPut m d0 g.ctx ring tail xs with
          | .wait w => defer d w (.requestRingWrite skein)
          | .bad e => failed e
          | .ok d1 =>
            let d2 := modSkein (interrupt d1 (18 * g.ctx + 16)) skein fun k => { k with park := some (.svc tail ls pc) }
            waitAt m d2 g.ctx (ringSlot ring tail) (.svc skein)
    | _ => d

/-- The DONE word of a service call, when the skein still waits for it. -/
def svcDone (m : Mgmt) (d : Dev) (skein : Nat) : Option (Dist Nat) :=
  let k := skeinOf d skein
  let ctx := (groupOf d k.gid).ctx
  match k.park with
  | some (.svc slot _ _) =>
    some ((distRead m d ctx (ringSlot (ctxOf m ctx).ring slot + 56) 8 8).bind fun x => .ok x.1)
  | _ => none

/-- The response words of a lane read from its block. -/
def svcWords (m : Mgmt) (d : Dev) (ctx slot i : Nat) : Dist Nat :=
  (distRead m d ctx (ringSlot (ctxOf m ctx).ring (slot + 1 + i)) 16 8).bind fun x => .ok x.1

/-- SVC_RESUME (R153, R458): with DONE 1 the bundle goes on after the call, v0 to v3 written, with an acquire at system scope; with
DONE 0 it waits on, as it does while it is off the core, and another value kills it. (DESIGN CHOICE: notes/assumptions/46) -/
def execSvcResume (skein : Nat) (s : State) : Host.Outcome State Fault Refusal :=
  s.run fun m d =>
    let k := skeinOf d skein
    let g := groupOf d k.gid
    match k.park, svcDone m d skein with
    | some (.ring ..), _ => post d (.requestRingWrite skein)
    | some (.svc slot ls _), some (.ok done) =>
      if done = 0 || (done == 1 && !k.resident) then d
      else if done != 1 then post (dropWaiter d (.svc skein)) (.svcKill skein)
      else
        let lanes := lanesOf ls
        let words : Dist (List (Nat × Nat)) := lanes.zipIdx.foldl (fun (a : Dist (List (Nat × Nat))) x =>
          a.bind fun ws => (svcWords m d g.ctx slot x.2).bind fun y => .ok (ws ++ [(x.1, y)])) (.ok [])
        match words with
        | .wait w => defer d w (.svcResume skein)
        | .bad _ => post (dropWaiter d (.svc skein)) (.svcKill skein)
        | .ok ws =>
          match acquireAt m d g.ctx (spindleNo g) 5 with
          | .error (.need w) => defer d w (.svcResume skein)
          | .error _ => d
          | .ok d1 =>
            let writes := ws.flatMap fun x => splitRegs (wrV x.1) 0 x.2 4
            modSkein (unpark (dropWaiter d1 (.svc skein)) skein) skein fun k => writeNow k writes
    | some (.svc ..), some (.wait w) => defer d w (.svcResume skein)
    | some (.svc ..), some (.bad _) => post (dropWaiter d (.svc skein)) (.svcKill skein)
    | _, _ => d

end Sys2Proof.Machine
end

