-- ==== Sys2Proof/Machine/Placing.lean ====
section
/-!
DEFINITION. The Distaffs' events that place work: SLOT_GRANT and QUANTUM_EXPIRY (R41 to R43), PLY_DISPATCH (R22, R29, R45, R46,
R50), GROUP_REPLACE (R43, R455), SPOOL_POP (R33, R34, R38).
-/

namespace Sys2Proof.Machine

/-! ## Offering work again -/

/-- The source of a launch, if it needs a slot. -/
def sourceOf (d : Dev) (l : Launch) : Option Source :=
  match l.src with
  | .queue n => some (.queue l.ctx n)
  | .node r _ => (d.runs.find? fun x => x.id == r).map fun x => .trig l.ctx x.trig
  | _ => none

/-- The groups of a launch's source that its slot's passing away has sent off and that come before any not yet started (R43): those
still to be placed again. -/
def goBefore (d : Dev) (l : Launch) : List Group :=
  match sourceOf d l with
  | none => []
  | some src => (sourceGroups d src).filter fun g => g.before && !g.killed && (!g.resident || g.saveReq)

/-- Whether a group that goes before others is the first of them: by index (R43), of the groups of several launches by launch first.
(DESIGN CHOICE: notes/assumptions/93) -/
def firstBefore (d : Dev) (g : Group) (l : Launch) : Bool :=
  !g.before || (goBefore d l).all fun x => decide (g.launch < x.launch) || (g.launch == x.launch && decide (g.index ≤ x.index))

/-- Saved groups that may be placed again: those whose source holds a slot, if it needs one (R43). -/
def savedGroups (d : Dev) : List Group :=
  d.groups.filter fun g => !g.resident && !g.saveReq && !g.killed &&
    match g.kind, launch? d g.launch with
    | .launch, some l => mayStart d l && firstBefore d g l
    | .launch, none => false
    | _, _ => true

/-- Launches with groups still to start, the most urgent class first (R39). -/
def pendingLaunches (m : Mgmt) (d : Dev) : List Launch :=
  (d.launches.filter fun l => decide (l.next < hNGroups l.header) && mayStart d l && (goBefore d l).isEmpty &&
    match l.src with | .tile _ => false | _ => true).insertionSort fun a b => launchCls m d a ≤ launchCls m d b

/-- Saved groups and launches that wait, in the order they are offered: the most urgent class first, in a class saved groups before
groups not yet started. -/
def waitingWork (m : Mgmt) (d : Dev) : List (Nat × Instr) :=
  (((savedGroups d).map fun g => (groupCls m d g, Instr.groupReplace g.gid)) ++
    (pendingLaunches m d).map fun l => (launchCls m d l, Instr.plyDispatch l.id)).insertionSort fun a b => a.1 ≤ b.1

/-- Whether a saved group of a class stays away from its die: groups are being pre-empted there, and more urgent work waits for their
room. (DESIGN CHOICE: notes/assumptions/21) -/
def yields (m : Mgmt) (d : Dev) (die c : Nat) : Bool :=
  (d.groups.any fun g => g.die == die && g.resident && g.saveReq) && (waitingWork m d).any fun w => w.1 < c

/-- Everything that waits for a spindle or for save space offered again (R45, R470): sources that wait for a slot, handlers, tile
groups, saved groups and launches, spool records. (DESIGN CHOICE: notes/assumptions/21) -/
def retryDispatch (m : Mgmt) (d : Dev) : Dev :=
  let d2 := (List.range 16).foldl offerRound (offerHandlers (retrySlots d))
  let d3 := (waitingWork m d2).foldl (fun d w => postNew d w.2) d2
  let due := (d3.spools.filter fun e => e.2.pop < e.2.push).map fun e => (e.1 / 4, e.1 % 4)
  due.foldl (fun d x => if d.agenda.any (fun v => match v with | .spoolPop _ c p => c == x.1 && p == x.2 | _ => false) then d
    else announceSpool d x.1 x.2) d3

/-! ## Slots (R41 to R43) -/

/-- The holder a source of class `c` takes its slot from: the greatest class above `c`, the most recently mapped. -/
def slotVictim (m : Mgmt) (d : Dev) (c : Nat) : Option (Nat × Slot) :=
  (d.slots.filter fun s => c < sourceCls m d s.2.src).foldl (fun (b : Option (Nat × Slot)) s =>
    match b with
    | none => some s
    | some x =>
      let cx := sourceCls m d x.2.src
      let cs := sourceCls m d s.2.src
      if cx < cs || (cx == cs && x.2.order < s.2.order) then some s else some x) none

/-- A slot passed from its holder to a waiting source. (DEDUCED: notes/assumptions/22) -/
def passSlot (m : Mgmt) (d : Dev) (slot : Nat) (holder src : Source) : Dev :=
  seekSlot (mapSlot m (preemptSource { d with slots := tdel d.slots slot } holder) slot src) holder

/-- Whether a holder may lose its slot: its resident groups all find save space (R470). (DEDUCED: notes/assumptions/22) -/
def canPass (d : Dev) (holder : Source) : Bool :=
  !((sourceGroups (preemptSource d holder) holder).any fun g => g.resident && !g.saveReq && !g.killed)

/-- Resident groups on spindles that are not permitted to them any more, pre-empted (R49). -/
def evictForbidden (m : Mgmt) (d : Dev) : Dev :=
  ((d.groups.filter fun g => g.resident && !permitted m g.ctx g.die g.spindle).map fun g => g.gid).foldl preemptGroup d

/-- A slot for the waiting source that comes first: a free one, or one held by a source of greater class (R42, R470). -/
def grantSlot (m : Mgmt) (d : Dev) (src : Source) : Option Dev :=
  match (List.range 128).find? fun i => (tget? d.slots i).isNone with
  | some i => some (mapSlot m d i src)
  | none =>
    ((slotVictim m d (sourceCls m d src)).filter fun v => canPass d v.2.src).map fun v => passSlot m d v.1 v.2.src src

/-- SLOT_GRANT (R42): a source that waits is looked at; of several that wait the first takes the slot, and this one's turn comes after
it. -/
def execSlotGrant (src : Source) (s : State) : Host.Outcome State Fault Refusal :=
  s.run fun m d =>
    if !hasWork d src || hasSlot d src then d
    else
      let d1 := awaitSlot d src
      let first := (bestWaiting m d1 3).getD src
      match grantSlot m d1 first with
      | some d2 => if first = src then d2 else postNew d2 (.slotGrant src)
      | none => d1

/-- QUANTUM_EXPIRY (R42, R470): the slot passes to a waiting source of equal or higher class, as soon as the holder's groups find save
space; with no such source a new quantum begins. (DEDUCED: notes/assumptions/22) -/
def execQuantumExpiry (slot : Nat) (s : State) : Host.Outcome State Fault Refusal :=
  s.run fun m d =>
    match tget? d.slots slot with
    | none => d
    | some x =>
      match bestWaiting m d (sourceCls m d x.src) with
      | some w => if canPass d x.src then passSlot m d slot x.src w else postAfter d .distaff 1 (.quantumExpiry slot)
      | none => postAfter d .distaff (2 ^ bitsOf (ctxOf m (sourceCtx x.src)).quantum 0 6) (.quantumExpiry slot)

/-! ## Plies (R22, R29, R45, R46) -/

/-- A predecessor entry of a node record (R29). -/
def predEntry (r : BitVec 2048) (i : Nat) : Nat := bitsOf r (1024 + 64 * i) 64
def predCount (r : BitVec 2048) : Nat := bitsOf r 1536 8

/-- Whether the groups a predecessor entry names have retired, for group `i`. (DESIGN CHOICE: notes/assumptions/83) -/
def predMet (d : Dev) (run : Run) (e i : Nat) : Bool :=
  match run.nodes.find? fun n => n.node == e % 256 with
  | none => true
  | some n =>
    n.complete ||
      match launch? d n.launch with
      | none => true
      | some l =>
        let gp := hNGroups l.header
        if e / 256 % 2 = 0 then decide (gp ≤ l.retired.length)
        else
          let mm := e / 2 ^ 16 % 2 ^ 24
          let nn := max (e / 2 ^ 40) 1
          let lo := min (i * mm / nn) (gp - 1)
          let hi := min (max lo (((i + 1) * mm + nn - 1) / nn - 1)) (gp - 1)
          (List.range (hi + 1 - lo)).all fun j => l.retired.contains (lo + j)

/-- Whether group `i` of a launch may start: its stack set is free and its dependences are met. -/
def mayPlace (d : Dev) (l : Launch) (i : Nat) : Bool :=
  let sg := hStackGrp l.header
  (decide (i < sg) || l.retired.contains (i - sg)) &&
    match l.src with
    | .node r n =>
      match d.runs.find? fun x => x.id == r with
      | none => true
      | some run =>
        match run.nodes.find? fun x => x.node == n with
        | none => true
        | some x => (List.range (predCount x.record)).all fun j => predMet d run (predEntry x.record j) i
    | _ => true

/-- The next ply of a launch. -/
def nextPly (l : Launch) : List Nat :=
  (List.range (min (2 ^ hPly l.header) (hNGroups l.header - l.next))).map fun i => l.next + i

/-- A ply placed whole on a die, or not at all. -/
def placePly (m : Mgmt) (d : Dev) (l : Launch) (die : Nat) : List Nat → MemM (Option Dev)
  | [] => .ok (some d)
  | i :: r =>
    match findSpindle m d die (startDemand l.ctx l.header) with
    | none => .ok none
    | some s =>
      match placeGroup m d l i die s with
      | .error e => .error e
      | .ok d1 => placePly m d1 l die r

/-- The dies a ply is offered to, in order. -/
def offerOrder (l : Launch) : List Nat :=
  let first := match l.lastDie with | some x => x + 1 | none => 0
  (List.range 16).map fun i => (first + i) % 16

/-- The first die that places the ply. (DESIGN CHOICE: notes/assumptions/21) -/
def firstDie (m : Mgmt) (d : Dev) (l : Launch) : List Nat → MemM (Option (Nat × Dev))
  | [] => .ok none
  | die :: r =>
    match placePly m d l die (nextPly l) with
    | .error e => .error e
    | .ok (some d1) => .ok (some (die, d1))
    | .ok none => firstDie m d l r

/-- The groups to pre-empt so that a ply fits a die (R50), as placement would go group by group; nothing when that does not help.
(DESIGN CHOICE: notes/assumptions/21) -/
def plyVictims (m : Mgmt) (d : Dev) (l : Launch) (die c : Nat) : List Nat → Option (List Nat)
  | [] => some []
  | i :: r =>
    let x := startDemand l.ctx l.header
    let seat (d : Dev) (s : Nat) : Dev :=
      let (g, d1) := launchGroup d l i die s
      startGroup d1 g (startThread l.header i) (startS l.args i)
    match findSpindle m d die x with
    | some s => plyVictims m (seat d s) l die c r
    | none =>
      match (searchOrder d die).findSome? fun s => (victimsOn m d die s c x fun _ => true).map fun v => (s, v) with
      | none => none
      | some (s, vs, d1) => (plyVictims m (seat d1 s) l die c r).map fun ws => vs ++ ws

/-- Room made for a launch's next ply: nothing more where groups on their way out make it on some die, else victims on the first die where
that helps. (DESIGN CHOICE: notes/assumptions/21) -/
def plyWay (m : Mgmt) (d : Dev) (l : Launch) (dies : List Nat) : Option Dev :=
  let ways := dies.filterMap fun die => plyVictims m (afterSaves d) l die (launchCls m d l) (nextPly l)
  if ways.any fun w => w.isEmpty then some d else ways.head?.map (preemptAll d)

/-- PLY_DISPATCH (R43, R45, R46, R50): the launch's next ply is placed whole on the first die that can; when none can, groups of greater
class are pre-empted on the first die where that makes it fit; else the ply waits. (DESIGN CHOICE: notes/assumptions/21) -/
def execPlyDispatch (launch : Nat) (s : State) : Host.Outcome State Fault Refusal :=
  s.run fun m d =>
    match launch? d launch with
    | none => d
    | some l =>
      let ply := nextPly l
      if ply.isEmpty || !mayStart d l || !(goBefore d l).isEmpty || !ply.all (mayPlace d l) then d
      else
        match firstDie m d l (offerOrder l) with
        | .error (.need w) => defer d w (.plyDispatch launch)
        | .error _ => d
        | .ok (some (die, d1)) =>
          let d2 := modLaunch d1 launch fun l => { l with next := l.next + ply.length, lastDie := some die }
          if l.next + ply.length < hNGroups l.header then post d2 (.plyDispatch launch) else d2
        | .ok none =>
          (plyWay m d l (offerOrder l)).getD d

/-! ## Groups placed again (R43, R455) -/

/-- A service call that a skein placed again still waits for is looked at again (R458). -/
def lookAgain (d : Dev) (k : Skein) : Dev :=
  match k.park with
  | some (.svc ..) => postNew d (.svcResume k.uid)
  | some (.ring ..) => postNew d (.requestRingWrite k.uid)
  | _ => d

/-- A saved group resident again on a spindle: its save area is free, its skeins are seated, lines make way for its scratchpad (R198,
R199), and what waits is offered again. -/
def placedAgain (m : Mgmt) (d : Dev) (g : Group) (sp : Nat) : MemM Dev :=
  let (n, d2) := fresh d
  let e := saveDie d g.die
  let q0 := firstQuarter d2 (48 * g.die + sp)
  let d3 : Dev :=
    { d2 with
      saveUsed := d2.saveUsed.setIfInBounds e ((d2.saveUsed[e]?).getD 0 - saveBytes d g),
      nextSpindle := tset d2.nextSpindle g.die ((sp + 1) % 48), stalled := tdel d2.stalled g.ctx,
      gatedSpindles := d2.gatedSpindles.filter fun s => s != 48 * g.die + sp }
  let d4 := modGroup d3 g.gid fun g => { g with resident := true, saveReq := false, spindle := sp, place := n, before := false }
  let d5 := seatSkeins d4 g.gid q0
  (clearWays m d5 g.ctx (48 * g.die + sp)).map fun d6 =>
    retryDispatch m (evictForbidden m (offerSpools ((skeinsOf d6 g.gid).foldl lookAgain d6) g.die))

/-- GROUP_REPLACE (R43): on the die that held it, on the first spindle that fits; room is made for it under R50.
(DEDUCED: notes/assumptions/99) -/
def execGroupReplace (group : Nat) (s : State) : Host.Outcome State Fault Refusal :=
  s.run fun m d =>
    match (savedGroups d).find? fun g => g.gid == group && !yields m d g.die (groupCls m d g) with
    | none => d
    | some g =>
      let x := againDemand d g
      match findSpindle m d g.die x with
      | none => (makeWay m d [g.die] (groupCls m d g) x).getD d
      | some sp =>
        match (acquireAt m d g.ctx (48 * g.die + sp) 4).bind fun d1 => placedAgain m d1 g sp with
        | .error (.need w) => defer d w (.groupReplace group)
        | .error _ => d
        | .ok d1 => d1

/-! ## Spool records (R32 to R34, R38) -/

/-- The fields of a spool record. -/
def spCode (x : Nat) : DWord := BitVec.ofNat 64 x
def spFrame (x : Nat) : DWord := BitVec.ofNat 64 (x / 2 ^ 64)
def spJoin (x : Nat) : DWord := BitVec.ofNat 64 (x / 2 ^ 128)
def spVregs (x : Nat) : Nat := x / 2 ^ 192 % 16
def spSregs (x : Nat) : Nat := x / 2 ^ 196 % 16

/-- Whether a record is refused (R34). -/
def spoolBad (x : Nat) : Bool :=
  x / 2 ^ 200 != 0 || (spCode x).toNat % 4 != 0 || (spJoin x).toNat % 8 != 0 || spVregs x == 0 || spSregs x == 0

/-- The group of a spool record or a handler, with its number. (DESIGN CHOICE: notes/assumptions/85) -/
def spoolGroup (d : Dev) (ctx die sp cls : Nat) (kind : GroupKind) (x : Nat) (addr : DWord) : Group × Dev :=
  let (n, d1) := fresh d
  ({ blankGroup with
      gid := n, ctx := ctx, launch := n, kind := kind, header := spoolHeader (spVregs x) (spSregs x) (spCode x), hdrAddr := addr,
      cls := cls, die := die, spindle := sp, resident := true, place := n }, d1)

/-- A spool record's or a handler's group started on a spindle. -/
def startSpool (m : Mgmt) (d : Dev) (ctx die sp cls : Nat) (kind : GroupKind) (x : Nat) (addr frame : DWord) : MemM Dev :=
  let (g, d1) := spoolGroup d ctx die sp cls kind x addr
  (acquireAt m d1 ctx (48 * die + sp) 4).map fun d2 => startGroup d2 g (spoolThread g.header) (spoolS frame)

/-- What a spool record demands. -/
def spoolDemand (ctx x : Nat) : Demand := startDemand ctx (spoolHeader (spVregs x) (spSregs x) (spCode x))

/-- The spindles of a die that hold a group of a context, in search order, and the first of them that fits a record (R38). -/
def spoolHolds (d : Dev) (ctx die sp : Nat) : Bool := (groupsOn d (48 * die + sp)).any fun g => g.ctx == ctx
def spoolSpindles (d : Dev) (ctx die : Nat) : List Nat := (searchOrder d die).filter (spoolHolds d ctx die)
def spoolSeat (m : Mgmt) (d : Dev) (ctx die x : Nat) : Option Nat :=
  (spoolSpindles d ctx die).find? fun sp => fitsOn m d die sp (spoolDemand ctx x)

/-- The die that would pop the head record of a queue now, if one would: any for a record that is refused. -/
def spoolTaker (m : Mgmt) (d : Dev) (ctx prio die : Nat) : ERunM (Option Nat) :=
  let q := spoolOf d ctx prio
  if q.push ≤ q.pop then .ok none
  else
    match distRead m d ctx (spoolEntry m ctx prio q.pop) 32 32 with
    | .wait w => .error w
    | .bad _ => .ok (some die)
    | .ok r =>
      if spoolBad r.1 then .ok (some die) else .ok ((List.range 16).find? fun e => (spoolSeat m d ctx e r.1).isSome)

/-- The first queue before a queue whose head record would be popped now, with the die that would pop it: it comes first (R38). -/
def spoolBefore (m : Mgmt) (d : Dev) (ctx die : Nat) : List Nat → ERunM (Option (Nat × Nat))
  | [] => .ok none
  | p :: r =>
    match spoolTaker m d ctx p die with
    | .error w => .error w
    | .ok (some e) => .ok (some (p, e))
    | .ok none => spoolBefore m d ctx die r

/-- A record that is not refused run on a die: on the first spindle that fits it; when none of any die does, nor will when the groups on their
way out have gone, groups are pre-empted for it on a spindle of this one, but not the last of its context there (R50).
(DESIGN CHOICE: notes/assumptions/47) -/
def runSpool (m : Mgmt) (d d1 : Dev) (die ctx prio x : Nat) (p : DWord) : Dev :=
  let cls := max prio (ctxClass m ctx)
  match spoolSeat m d ctx die x with
  | some sp =>
    match startSpool m d1 ctx die sp cls (.spool p (spJoin x) prio) x p (spFrame x) with
    | .error (.need w) => defer d w (.spoolPop die ctx prio)
    | .error _ => d
    | .ok d2 => spoolPopped d2 ctx prio
  | none =>
    if (List.range 16).any fun e => (spoolSeat m d ctx e x).isSome || (spoolSeat m (afterSaves d) ctx e x).isSome then d
    else
      match (spoolSpindles d ctx die).findSome? fun sp =>
          victimsOn m d die sp cls (spoolDemand ctx x) fun e => spoolHolds e ctx die sp with
      | some v => preemptAll d v.1
      | none => d

/-- SPOOL_POP (R38): the head record of a queue is popped by a die with a spindle that holds a group of its context and fits it, after
those of the queues before it; a refused record, and one that cannot be read, is popped with a record and not run.
(DEDUCED: notes/assumptions/44; DESIGN CHOICE: notes/assumptions/47) -/
def execSpoolPop (die ctx prio : Nat) (s : State) : Host.Outcome State Fault Refusal :=
  s.run fun m d =>
    let q := spoolOf d ctx prio
    let ev : Instr := .spoolPop die ctx prio
    let p := spoolEntry m ctx prio q.pop
    if q.push ≤ q.pop then d
    else
      match spoolBefore m d ctx die (List.range prio), distRead m d ctx p 32 32 with
      | .error w, _ => defer d w ev
      | .ok (some x), _ => postAll d [.spoolPop x.2 ctx x.1, ev]
      | .ok none, .wait w => defer d w ev
      | .ok none, .bad e => spoolPopped (distRecord m d ctx e p p) ctx prio
      | .ok none, .ok r =>
        if spoolBad r.1 then spoolPopped (takeDeviceFault m r.2 ctx .illegal 0 p p) ctx prio
        else runSpool m d r.2 die ctx prio r.1 p

end Sys2Proof.Machine
end

