-- ==== Sys2Proof/Machine/Saving.lean ====
section
/-!
DEFINITION. Pre-emption and the save areas (R452 to R454): PREEMPT_COMPLETE and GROUP_SAVE.
-/

namespace Sys2Proof.Machine

/-! ## What a pre-empted skein keeps (R452) -/

/-- Whether a thread restarts at its region entry: it is inside an explicit region, and its skein is not in the middle of a service
call, which has ended its region. -/
def restarts (k : Skein) (l : Nat) : Bool :=
  let t := threadOf k l
  let inCall := match k.park with | some (.svc ..) => k.parkLanes.getLsbD l | some (.ring ..) => k.parkLanes.getLsbD l | _ => false
  t.region.isSome && t.st != .exited && !inCall

/-- The skein with its results written or dropped, its restarting threads at their region entries, and what no thread needs undefined
(R6, R453). `n` tells the free values of skeins apart. (DESIGN CHOICE: notes/assumptions/57) -/
def savedSkein (d : Dev) (k : Skein) (n : Nat) : Skein :=
  let back := (List.range 32).filter (restarts k)
  let live := (List.range 32).filter fun l => (threadOf k l).st != .exited
  let all := live.all back.contains
  let keep (w : PWrite) : Bool :=
    match w with
    | .v l _ _ => !back.contains l
    | .p l _ _ => !back.contains l
    | _ => !all
  let k1 := drainPend { k with pend := k.pend.map fun p => { p with ws := p.ws.filter keep } }
  let regions := back.filterMap fun l => (threadOf k l).region
  let ns := regions.foldl (fun x r => max x r.ns) 0
  let acc := regions.any fun r => r.acc
  let base := 46000000 + 8192 * n
  let thread (l : Nat) (t : Thread) : Thread :=
    match t.region with
    | some r =>
      { t with
        pc := r.entry, region := none, st := match t.st with | .reorder .. => .ready | x => x,
        v := Vector.ofFn fun i : Fin 120 => if i.val < r.nv then t.v.get i else freeWord d (base + 128 * l + i.val) }
    | none => t
  let k2 := modThreads k1 back thread
  let k3 : Skein := if all && !live.isEmpty then
      { k2 with
        s := Vector.ofFn fun i : Fin 120 => if i.val < ns then k2.s.get i else freeWord d (base + 4096 + i.val),
        acc := if acc then k2.acc else k2.acc.map fun e =>
          (e.1, (List.range 512).foldl (fun (x : BitVec 32768) i =>
            x ||| (freeVal d (47000000 + 65536 * n + 512 * e.1 + i)).setWidth 32768 <<< (64 * i)) 0) }
    else k2
  let park := match k.park with
    | some (.svc ..) => k.park
    | some (.ring ..) => k.park
    | _ => none
  let status (x : QReg) : Bool := x.bound && (x.ep == 4 || x.ep == 5)
  let q (x : QReg) : QReg :=
    { x with half := none, popHalf := none, elems := if status x then [] else x.elems, ovf := x.ovf || status x }
  { k3 with
    resident := false, preempt := false, marker := false, runAhead := [], rot := 0, park := park, q := k3.q.map q }

/-! ## The save areas as bytes (R453, R454) -/

/-- A mask of the lanes a test names, as a natural. -/
def laneBits (f : Nat → Bool) : Nat := ((List.range 32).map fun l => if f l then 2 ^ l else 0).sum

/-- The skein save area, as pieces: offset, bytes, contents. (DESIGN CHOICE: notes/assumptions/57) -/
def skeinArea (g : Group) (k : Skein) : List (Nat × Nat × Nat) :=
  let lanes := List.range 32
  let state (l : Nat) : Nat :=
    match (threadOf k l).st with
    | .bar b => b
    | .reorder .. => 0xFE
    | _ => 0xFF
  let qb (q : QReg) : Nat := q.bound.toNat * 128 + q.prio % 4 * 16 + q.ep % 16
  let vn := 8 * hVregs g.header
  let vbase := 1024 + 1024 * hVregs g.header
  let sbase := vbase + 32 * hSregs g.header
  lanes.map (fun l => (16 * l, 16, (threadOf k l).pc.toNat + (threadOf k l).stk.toNat * 2 ^ 64)) ++
    lanes.map (fun l => (512 + 4 * l, 4, (threadOf k l).flags.toNat)) ++
    (List.range 7).map (fun i => (640 + 4 * i, 4, laneBits fun l => (threadOf k l).p.getLsbD i)) ++
    [(668, 1, k.c.toNat % 128), (669, 1, k.fpmode.toNat), (670, 2, 0), (672, 4, laneBits fun l => (threadOf k l).st == .exited),
      (676, 4, 0)] ++
    (List.range 8).map (fun i => (680 + i, 1, qb (qOf k i))) ++ [(688, 16, 0)] ++
    (List.range 16).map (fun i => (704 + 16 * i, 16, (regT k i).toNat)) ++
    lanes.map (fun l => (960 + l, 1, state l)) ++ [(992, 32, 0)] ++
    (List.range vn).flatMap (fun r => lanes.map fun l => (1024 + 128 * r + 4 * l, 4, (regV k l r).toNat)) ++
    (List.range (8 * hSregs g.header)).map (fun r => (vbase + 4 * r, 4, (regS k r).toNat)) ++
    (List.range (hAcct g.header)).map (fun a => (sbase + 4096 * a, 4096, (tget k.acc a 0).toNat))

/-- The group save area. (DESIGN CHOICE: notes/assumptions/57) -/
def groupArea (g : Group) : List (Nat × Nat × Nat) :=
  let bar (b : Nat) : Nat :=
    match tget? g.bars b with
    | none => 0
    | some p => p.arrived.length % 2 ^ 16 + p.n % 2 ^ 16 * 2 ^ 16 + (if p.barp then 2 else 1) * 2 ^ 32
  [(0, 8, (settleGublock g).gublock.toNat), (8, 8, (g.tags &&& tagRange g).toNat)] ++ (List.range 32).map (fun b => (16 + 8 * b, 8, bar b)) ++
    (List.range (hTagCnt g.header)).map (fun i =>
      (272 + 16 * i, 16, (tget g.status (hTagBase g.header + i) (statusEntry (hTagBase g.header + i) 0 0 0 0)).toNat)) ++
    [(2048, hScratchBytes g.header, memNat g.scratch 0 (hScratchBytes g.header))]

/-- The 4 KiB pages of some bytes. (DESIGN CHOICE: notes/assumptions/57) -/
def pagesOf (a n : Nat) : List Nat := (List.range ((a % 4096 + n + 4095) / 4096)).map fun i => a / 4096 + i

/-- Pieces written into reserved memory, which no context maps; its pages are written ones (R210).
(DESIGN CHOICE: notes/assumptions/57) -/
def writeArea (d : Dev) (a : Nat) (ps : List (Nat × Nat × Nat)) : Dev :=
  { d with
    mem := ps.foldl (fun mem p => memPut mem (a + p.1) p.2.2 p.2.1) d.mem,
    written := (ps.flatMap fun p => pagesOf (a + p.1) p.2.1).dedup.foldl (fun t g => tput t g true false) d.written }

/-- Where the area of a group's skein lies: behind the group's own and the skeins before it. -/
def skeinAreaAt (g : Group) (idx : Nat) : Nat :=
  let h := g.header
  g.saveAt + 2048 + 1024 * hScratch h + idx * (1024 + 1024 * hVregs h + 32 * hSregs h + 4096 * hAcct h)

/-! ## The events -/

/-- Whether something of a skein still drains: a fence, a surface write or a SEAL. -/
def drains (k : Skein) : Bool :=
  match k.park with
  | some (.fence ..) => true
  | some .surf => true
  | some (.seal ..) => true
  | _ => false

/-- What a skein that is pre-empted gives up: its registered waits and lock timeouts, its pins and reservations; its entries in lock
queues become absent (R452), and go on being edges that its deadlock check follows (R344). -/
def givenUp (d : Dev) (u : Nat) : Dev :=
  let k := skeinOf d u
  let asks (w : Nat × Waiter) : Bool := w.2 == .skein u
  let d0 := dropTimeout { d with waiters := d.waiters.filter fun w => !asks w } u
  let absent (l : LockSt) : LockSt :=
    { l with queue := modWhere (fun w => w.skein == u) (fun w => { w with present := false }) l.queue }
  freeDsc (unpinAll { d0 with locks := d0.locks.map fun e => (e.1, absent e.2) } u) k.gid
    fun t => (List.range 32).any fun l => (threadOf k l).num0 == t

/-- The skein's state saved: its buffered stores spilled, its registers kept, its area written (R453). -/
def putAway (m : Mgmt) (d : Dev) (u : Nat) : Dev :=
  let k := skeinOf d u
  let g := groupOf d k.gid
  let d1 := if isDet m g.ctx then
      spillLog m (modSkein d u fun k => { k with spilled := max k.spilled k.sbuf.length }) g.ctx (spindleNo g) u k.spilled
    else d
  let k1 := savedSkein d1 (skeinOf d1 u) (u % 4096)
  let d2 := switchPoint (modSkein d1 u fun _ => k1) u
  tryRetire (writeArea d2 (skeinAreaAt g k.idx) (skeinArea g k1)) k.gid

/-- PREEMPT_COMPLETE (R452, R453): the skein's state is saved; its waits are given up, its lock entries become absent, its held locks'
lines leave the L1, its pins and reservations are released, its buffered stores spill. While something of it drains it is tried again a
cycle later. -/
def execPreemptComplete (skein : Nat) (s : State) : Host.Outcome State Fault Refusal :=
  s.run fun m d =>
    let k := skeinOf d skein
    let ev : Instr := .preemptComplete skein
    if !k.preempt || !k.resident then d
    else if drains k then postAfter d (.die (groupOf d k.gid).die) 1 ev
    else
      match dropLocked m (givenUp d skein) skein with
      | .error (.need w) => defer d w ev
      | .error _ => d
      | .ok d1 => putAway m d1 skein

/-- The locks and pins of a group's skeins as pre-emption leaves them (R341, R346), those of skeins that had exited among them. -/
def giveUpLines (m : Mgmt) (d : Dev) (gid : Nat) : MemM Dev :=
  (skeinsOf d gid).foldlM (fun d k => dropLocked m (unpinAll d k.uid) k.uid) d

/-- GROUP_SAVE (R454): with every skein saved and every command ended the group is released at device scope and saved; its resources
are free, which waiting work may now take. (DEDUCED: notes/assumptions/99) -/
def execGroupSave (group : Nat) (s : State) : Host.Outcome State Fault Refusal :=
  s.run fun m d =>
    match group? d group with
    | none => d
    | some g =>
      if !g.saveReq || !g.resident || hasCommands d group || (skeinsOf d group).any fun k => k.resident then d
      else
        match (giveUpLines m d group).bind fun d0 => releaseAt m d0 g.ctx (spindleNo g) 4 with
        | .error (.need w) => defer d w (.groupSave group)
        | .error _ => d
        | .ok d1 =>
          let d2 := modGroup (writeArea d1 g.saveAt (groupArea g)) group fun g => { g with resident := false, saveReq := false }
          retryDispatch m d2

end Sys2Proof.Machine
end

