-- ==== Sys2Proof/Machine/Packets.lean ====
section
/-!
DEFINITION. Submission queues and reels: packets (R36, R37, R53), acceptance of launches (R19, R24, R39), and reel runs (R27 to R31).
-/

namespace Sys2Proof.Machine

/-! ## Submission queues (R36, R37) -/

/-- The address of the entry at HEAD. -/
def headEntry (q : SubQ) : DWord := q.base + BitVec.ofNat 64 (32 * (q.head.toNat % 2 ^ q.logn))

/-- A queue stopped: EN cleared, a WAIT packet no longer registered. -/
def haltQueue (m : Mgmt) (d : Dev) (ctx n : Nat) : Dev :=
  releaseIdle m (setSubq (dropWaiter d (.packet ctx n)) ctx n { subq d ctx n with en := false, waiting := false }) (.queue ctx n)

/-- A queue that cannot read on: stopped, with a record. -/
def stopQueue (m : Mgmt) (d : Dev) (ctx n : Nat) (e : DistErr) (addr : DWord) : Dev :=
  distRecord m (haltQueue m d ctx n) ctx e addr 0

/-- The packet at HEAD. -/
def headPacket (m : Mgmt) (d : Dev) (ctx n : Nat) : Dist Nat := (distRead m d ctx (headEntry (subq d ctx n)) 32 32).bind fun x => .ok x.1

/-- Whether a queue has a packet that may take effect now, its SERIAL bit aside. -/
def queueGoes (d : Dev) (ctx n : Nat) : Bool := let q := subq d ctx n; q.en && q.head != q.tail && !q.waiting

/-- The parts of a packet. -/
def pkKind (x : Nat) : Nat := x % 256
def pkSerial (x : Nat) : Bool := x.testBit 9
def pkHeader (x : Nat) : DWord := BitVec.ofNat 64 (x / 2 ^ 64)
def pkWaddr (x : Nat) : DWord := BitVec.ofNat 64 (x / 2 ^ 128)
def pkValue (x : Nat) : Nat := x / 2 ^ 192 % 2 ^ 64

/-- Whether a packet is skipped: a reserved KIND, a bit that is zero by definition, a misaligned address. -/
def pkBad (x : Nat) : Bool :=
  decide (2 < pkKind x) || x.testBit 8 || x / 2 ^ 10 % 2 ^ 54 != 0 || (pkKind x == 1 && (pkHeader x).toNat % 64 != 0) ||
    (pkKind x == 2 && (pkWaddr x).toNat % 8 != 0)

/-- The next packet of a queue made due, by its kind; one with SERIAL waits for the queue's earlier launches (R53). -/
def pumpQueue (m : Mgmt) (d : Dev) (ctx n : Nat) : Dev :=
  if !queueGoes d ctx n then d
  else
    match headPacket m d ctx n with
    | .wait w => defer d w (.packetNop ctx n)
    | .bad e => stopQueue m d ctx n e (headEntry (subq d ctx n))
    | .ok x =>
      if pkSerial x && !(launchesOf d (.queue ctx n)).isEmpty then d
      else if pkKind x == 1 then postNew d (.packetLaunch ctx n)
      else if pkKind x == 2 then postNew d (.packetWait ctx n)
      else postNew d (.packetNop ctx n)

/-- HEAD moved past a packet; the next one is looked at. -/
def nextPacket (m : Mgmt) (d : Dev) (ctx n : Nat) : Dev :=
  let q := subq d ctx n
  pumpQueue m (releaseIdle m (setSubq d ctx n { q with head := q.head + 1, waiting := false }) (.queue ctx n)) ctx n

/-- A malformed packet skipped with a record. -/
def skipPacket (m : Mgmt) (d : Dev) (ctx n : Nat) : Dev :=
  nextPacket m (takeDeviceFault m d ctx .illegal 0 (headEntry (subq d ctx n)) 0) ctx n

/-- A step on the packet at HEAD, which is read afresh. (DESIGN CHOICE: notes/assumptions/88) -/
def onPacket (m : Mgmt) (d : Dev) (ctx n : Nat) (ev : Instr) (f : Nat → Dev) : Dev :=
  if !queueGoes d ctx n then d
  else
    match headPacket m d ctx n with
    | .wait w => defer d w ev
    | .bad e => stopQueue m d ctx n e (headEntry (subq d ctx n))
    | .ok x => if pkSerial x && !(launchesOf d (.queue ctx n)).isEmpty then d else f x

/-- PACKET_NOP (R37): passed over; a reserved KIND is skipped with a record. -/
def execPacketNop (ctx n : Nat) (s : State) : Host.Outcome State Fault Refusal :=
  s.run fun m d => onPacket m d ctx n (.packetNop ctx n) fun x =>
    if pkKind x == 1 || pkKind x == 2 then pumpQueue m d ctx n
    else if pkBad x then skipPacket m d ctx n
    else nextPacket m d ctx n

/-- An accepted launch added (R24, R39, R40): a frame-due rule that waits for the queue's first launch takes it.
(DESIGN CHOICE: notes/assumptions/82) -/
def addLaunch (d : Dev) (ctx : Nat) (src : LaunchSrc) (h : BitVec 1024) (addr : DWord) (args : BitVec 512) (cls : Nat) : Nat × Dev :=
  let (i, d1) := fresh d
  let l : Launch :=
    { id := i, ctx := ctx, src := src, header := h, hdrAddr := addr, args := args, cls := cls, next := 0, retired := [],
      lastDie := none }
  let mark (f : Nat × Nat × Option Nat) : Nat × Nat × Option Nat :=
    match src with
    | .queue n => if f.1 == ctx && f.2.1 == n && f.2.2.isNone then (f.1, f.2.1, some i) else f
    | _ => f
  (i, { d1 with launches := d1.launches ++ [l], frameDue := d1.frameDue.map mark })

/-- PACKET_LAUNCH (R19, R24, R37): the header is read and checked, the argument block's first 64 bytes are read, the launch is accepted;
a header or block that cannot be read, and a rejected header, leave a record and the packet is passed over.
(DEDUCED: notes/assumptions/33; DESIGN CHOICE: notes/assumptions/82) -/
def execPacketLaunch (ctx n : Nat) (s : State) : Host.Outcome State Fault Refusal :=
  s.run fun m d =>
    let ev : Instr := .packetLaunch ctx n
    onPacket m d ctx n ev fun x =>
      if pkKind x != 1 then pumpQueue m d ctx n
      else if pkBad x then skipPacket m d ctx n
      else
        let p := pkHeader x
        match distRead m d ctx p 128 64 with
        | .wait w => defer d w ev
        | .bad e => nextPacket m (distRecord m d ctx e p p) ctx n
        | .ok (y, d1) =>
          let h := BitVec.ofNat 1024 y
          match headerFault (isDet m ctx) h with
          | some o => nextPacket m (takeLaunchFault m d1 ctx .illegal 0 (p + BitVec.ofNat 64 o) p (hLabel h)) ctx n
          | none =>
            match distRead m d1 ctx (hArgs h) 64 64 with
            | .wait w => defer d w ev
            | .bad e => nextPacket m (launchRecord m d1 ctx e (hArgs h) p (hLabel h)) ctx n
            | .ok (a, d2) =>
              let cls := max (hClass h) (max (subq d ctx n).qclass (ctxClass m ctx))
              let (i, d3) := addLaunch d2 ctx (.queue n) h p (BitVec.ofNat 512 a) cls
              nextPacket m (retrySlots (if hasSlot d3 (.queue ctx n) then post d3 (.plyDispatch i) else seekSlot d3 (.queue ctx n))) ctx n

/-- A WAIT packet looked at: completed, registered with its line, or stopped at. -/
def tryWait (m : Mgmt) (d : Dev) (ctx n : Nat) (x : Nat) (ev : Instr) : Dev :=
  let p := pkWaddr x
  let d0 := dropWaiter d (.packet ctx n)
  match distRead m d0 ctx p 8 8 with
  | .wait w => defer d w ev
  | .bad e => stopQueue m d0 ctx n e p
  | .ok (y, d1) =>
    if pkValue x ≤ y then nextPacket m d1 ctx n
    else
      let d2 := setSubq (waitAt m d1 ctx p (.packet ctx n)) ctx n { subq d1 ctx n with waiting := true }
      seekSlot d2 (.queue ctx n)

/-- PACKET_WAIT (R37). -/
def execPacketWait (ctx n : Nat) (s : State) : Host.Outcome State Fault Refusal :=
  s.run fun m d => onPacket m d ctx n (.packetWait ctx n) fun x =>
    if pkKind x != 2 then pumpQueue m d ctx n
    else if pkBad x then skipPacket m d ctx n
    else tryWait m d ctx n x (.packetWait ctx n)

/-- WAIT_PACKET_WAKE (R37): the word is read again. -/
def execWaitPacketWake (ctx n : Nat) (s : State) : Host.Outcome State Fault Refusal :=
  s.run fun m d =>
    let ev : Instr := .waitPacketWake ctx n
    if !(subq d ctx n).waiting || !(subq d ctx n).en then d
    else
      match headPacket m d ctx n with
      | .wait w => defer d w ev
      | .bad e => stopQueue m d ctx n e (headEntry (subq d ctx n))
      | .ok x =>
        if pkBad x || pkKind x != 2 then skipPacket m (dropWaiter d (.packet ctx n)) ctx n else tryWait m d ctx n x ev

/-! ## Reel runs (R27 to R31) -/

/-- The fields of a trigger register's value. -/
def tgReel (v : DWord) : Nat := bitsOf v 0 8
def tgStart (v : DWord) : Nat := bitsOf v 8 8
def tgPatch (v : DWord) : DWord := v >>> 16

/-- The address of a node record. -/
def nodeAddr (m : Mgmt) (ctx reel node : Nat) : DWord :=
  ((ctxOf m ctx).reeltab &&& ~~~0x3FFFFF) + BitVec.ofNat 64 (65536 * reel + 256 * node)

/-- Why a run is rejected: the record's cause, its address, and its header address. -/
structure RunBad where
  cause : Cause
  sub : Nat
  addr : DWord
  hdr : DWord

/-- A run being read: refused, or waiting for a half. -/
inductive RunErr where
  | bad (b : RunBad)
  | wait (n : Need)
abbrev RunM (α : Type) := Except RunErr α

/-- A Distaff's access on behalf of a run whose failure rejects it (R27). -/
def runAccess {α : Type} (addr : DWord) (x : Dist α) : RunM α :=
  match x with
  | .ok a => .ok a
  | .bad e => .error (.bad { cause := e.cause, sub := e.sub, addr := addr, hdr := 0 })
  | .wait n => .error (.wait n)

/-- The byte offset of the lowest field of a node record that breaks R19, R28 or R29, if one does. (DEDUCED: notes/assumptions/33) -/
def nodeFault (det : Bool) (node : Nat) (r : BitVec 2048) : Option Nat :=
  match headerFault det (r.extractLsb' 0 1024) with
  | some o => some o
  | none =>
    let np := predCount r
    let badPred (e : Nat) : Bool :=
      let nn := e / 2 ^ 40
      let mm := e / 2 ^ 16 % 2 ^ 24
      let mode := e / 256 % 2
      decide (node ≤ e % 256) || e / 2 ^ 9 % 2 ^ 7 != 0 || (mode == 0 && (nn != 0 || mm != 0)) ||
        (mode == 1 && (nn == 0 || mm == 0))
    match (List.range (min np 8)).find? fun i => badPred (predEntry r i) with
    | some i => some (128 + 8 * i)
    | none =>
      if 8 < np then some 192
      else if bitsOf r 1544 56 != 0 then some 193
      else if bitsOf r 1664 384 != 0 then some 208
      else none

/-- The present nodes of a run, read and checked. (DEDUCED: notes/assumptions/33) -/
def readNodes (m : Mgmt) (d : Dev) (ctx : Nat) (v : DWord) : RunM (List (Nat × BitVec 2048)) :=
  let start := tgStart v
  (List.range (256 - start)).foldlM (fun (acc : List (Nat × BitVec 2048)) (i : Nat) =>
    let node := start + i
    let p := nodeAddr m ctx (tgReel v) node
    match runAccess v (distRead m d ctx p 256 64) with
    | .error e => .error e
    | .ok (x, _) =>
      let r := BitVec.ofNat 2048 x
      if bitsOf r 0 64 = 0 then .ok acc
      else
        match nodeFault (isDet m ctx) node r with
        | some o => .error (.bad { cause := .illegal, sub := 0, addr := p + BitVec.ofNat 64 o, hdr := p })
        | none => .ok (acc ++ [(node, r)])) []

/-- The patches of a run: address, bytes, value (R31). (DEDUCED: notes/assumptions/33; DESIGN CHOICE: notes/assumptions/84) -/
def readPatches (m : Mgmt) (d : Dev) (ctx : Nat) (v : DWord) (nodes : List (Nat × BitVec 2048)) : RunM (List (DWord × Nat × Nat)) :=
  let p := tgPatch v
  let bad : RunErr := .bad { cause := .illegal, sub := 0, addr := v, hdr := 0 }
  if p == 0 then .ok []
  else
    match runAccess v (distRead m d ctx p 8 8) with
    | .error e => .error e
    | .ok (n, _) =>
      if 1024 < n then .error bad
      else
        (List.range n).mapM fun i =>
          match runAccess v (distRead m d ctx (p + BitVec.ofNat 64 (8 + 16 * i)) 16 8) with
          | .error e => .error e
          | .ok (x, _) =>
            let w : Nat := if x.testBit 8 then 8 else 4
            let o := x / 2 ^ 16 % 2 ^ 16
            let entry : RunM (BitVec 2048) :=
              match nodes.find? fun q => q.1 == x % 256 with
              | some q => .ok q.2
              | none =>
                -- a node below START may still be present
                if x % 256 < tgStart v then
                  (runAccess v (distRead m d ctx (nodeAddr m ctx (tgReel v) (x % 256)) 256 64)).map fun y => BitVec.ofNat 2048 y.1
                else .error bad
            match entry with
            | .error e => .error e
            | .ok r =>
              if bitsOf r 0 64 = 0 || o % w != 0 || x / 2 ^ 9 % 2 ^ 7 != 0 || x / 2 ^ 32 % 2 ^ 32 != 0 then .error bad
              else .ok (hArgs (r.extractLsb' 0 1024) + BitVec.ofNat 64 o, w, x / 2 ^ 64 % 2 ^ (8 * w))

/-- A Distaff's write for a run; one that fails leaves a record and the run goes on (R27). (DEDUCED: notes/assumptions/33) -/
def runWrite (m : Mgmt) (ctx : Nat) (d : Dev) (p : DWord) (n x : Nat) (hdr : DWord) (label : Word) : RunM Dev :=
  match distWrite m d ctx p n n x with
  | .ok d1 => .ok d1
  | .wait w => .error (.wait w)
  | .bad e => .ok (launchRecord m d ctx e p hdr label)

/-- The argument block's first 64 bytes of a node's launch; unreadable, they are free and leave a record.
(DEDUCED: notes/assumptions/33) -/
def runArgs (m : Mgmt) (ctx : Nat) (d : Dev) (h : BitVec 1024) (hdr : DWord) (k : Nat) : RunM (BitVec 512 × Dev) :=
  match distRead m d ctx (hArgs h) 64 64 with
  | .ok (x, d1) => .ok (BitVec.ofNat 512 x, d1)
  | .wait w => .error (.wait w)
  | .bad e =>
    .ok ((List.range 8).foldl (fun x i => x ||| (freeVal d (48000000 + 8 * k + i)).setWidth 512 <<< (64 * i)) 0,
      launchRecord m d ctx e (hArgs h) hdr (hLabel h))

/-- Nodes' launches accepted one after another. -/
def startNodes (m : Mgmt) (ctx run reel : Nat) (d : Dev) (nodes : List (Nat × BitVec 2048)) : RunM (List RunNode × Dev) :=
  nodes.foldlM (fun (a : List RunNode × Dev) (n : Nat × BitVec 2048) =>
    let h := n.2.extractLsb' 0 1024
    let p := nodeAddr m ctx reel n.1
    (runArgs m ctx a.2 h p n.1).map fun (x, d1) =>
      let (i, d2) := addLaunch d1 ctx (.node run n.1) h p x (max (hClass h) (ctxClass m ctx))
      (a.1 ++ [{ node := n.1, record := n.2, launch := i, complete := false }], d2)) ([], d)

/-- A run begun from what was read: patches, DONE of every node 0, launches (R31). -/
def beginRun (m : Mgmt) (d : Dev) (ctx n : Nat) (v : DWord) (nodes : List (Nat × BitVec 2048)) (ps : List (DWord × Nat × Nat)) :
    RunM Dev :=
  let reel := tgReel v
  match ps.foldlM (fun d p => runWrite m ctx d p.1 p.2.1 p.2.2 0 0) d with
  | .error e => .error e
  | .ok d1 =>
    let done (d : Dev) (q : Nat × BitVec 2048) : RunM Dev :=
      let p := nodeAddr m ctx reel q.1
      runWrite m ctx d (p + 200) 8 0 p (hLabel (q.2.extractLsb' 0 1024))
    match nodes.foldlM done d1 with
    | .error e => .error e
    | .ok d2 =>
      let (r, d3) := fresh d2
      (startNodes m ctx r reel d3 nodes).map fun (ns, d4) =>
        let run : Run := { id := r, ctx := ctx, trig := n, reel := reel, nodes := ns }
        { d4 with runs := d4.runs ++ [run] }

/-- A trigger register's pending request (R30). -/
def readTrig (d : Dev) (ctx n : Nat) : Option DWord := (tget? d.trigs (16 * ctx + n)).bind fun t => t.pending

/-- The pending requests of a context's reel, in the order in which they were seen. -/
def pendingOf (d : Dev) (ctx reel : Nat) : List (Nat × Trig) :=
  (d.trigs.filter fun t => t.1 / 16 == ctx && (t.2.pending.map fun v => tgReel v == reel).getD false).insertionSort
    fun a b => a.2.seen ≤ b.2.seen

/-- Whether a request of a reel is the one that begins next: no run of the reel is in progress, and of its pending requests this trigger's
was seen first (R30). -/
def runsNext (d : Dev) (ctx n reel : Nat) : Bool :=
  !(d.runs.any fun r => r.ctx == ctx && r.reel == reel) && ((pendingOf d ctx reel).head?.map fun t => t.1) == some (16 * ctx + n)

/-- Every run of a context that may begin made due (R30). -/
def nextRuns (d : Dev) (ctx : Nat) : Dev :=
  let ns := (List.range 16).filter fun n =>
    match readTrig d ctx n with
    | some v => runsNext d ctx n (tgReel v)
    | none => false
  ns.foldl (fun d n => postNew d (.reelRunBegin ctx n)) d

/-- A trigger register without its request. -/
def clearTrig (d : Dev) (ctx n : Nat) : Dev :=
  { d with trigs := d.trigs.map fun t => if t.1 == 16 * ctx + n then (t.1, { t.2 with pending := none }) else t }

/-- REEL_RUN_BEGIN (R27, R30, R31, R181). A run of a reel above 63 is rejected; one without nodes is complete at once.
(DEDUCED: notes/assumptions/33; DESIGN CHOICE: notes/assumptions/60) -/
def execReelRunBegin (ctx n : Nat) (s : State) : Host.Outcome State Fault Refusal :=
  s.run fun m d =>
    match readTrig d ctx n with
    | none => d
    | some v =>
      let reel := tgReel v
      if !runsNext d ctx n reel then d
      else
        let d0 := clearTrig d ctx n
        let reject (b : RunBad) : Dev :=
          nextRuns (releaseIdle m (takeDeviceFault m d0 ctx b.cause b.sub b.addr b.hdr) (.trig ctx n)) ctx
        let res : RunM Dev :=
          if decide (64 ≤ reel) || (ctxOf m ctx).reeltab == 0 then .error (.bad { cause := .illegal, sub := 0, addr := v, hdr := 0 })
          else
            match readNodes m d0 ctx v with
            | .error e => .error e
            | .ok nodes =>
              match readPatches m d0 ctx v nodes with
              | .error e => .error e
              | .ok ps => beginRun m d0 ctx n v nodes ps
        match res with
        | .error (.wait w) => defer d w (.reelRunBegin ctx n)
        | .error (.bad b) => reject b
        | .ok d1 =>
          if (d1.runs.any fun r => r.ctx == ctx && r.reel == reel && r.nodes.isEmpty) then
            nextRuns (releaseIdle m { d1 with runs := d1.runs.filter fun r => !(r.ctx == ctx && r.reel == reel) } (.trig ctx n)) ctx
          else retrySlots (if hasSlot d1 (.trig ctx n) then offerLaunches d1 (.trig ctx n) else seekSlot d1 (.trig ctx n))

end Sys2Proof.Machine
end

