-- ==== Sys2Proof/Machine/Retiring.lean ====
section
/-!
DEFINITION. The end of groups, launches and runs (R23, R31, R34, R51, R343, R460): GROUP_RETIRE.
-/

namespace Sys2Proof.Machine

/-! ## Completion of launches and runs (R51, R40, R53) -/

/-- A launch that has completed: its frame-due rule ends, its queue goes on, its node and perhaps its run are complete. -/
def completeLaunch (m : Mgmt) (d : Dev) (l : Launch) : Dev :=
  let d1 : Dev :=
    { d with
      launches := d.launches.filter fun x => x.id != l.id,
      frameDue := d.frameDue.filter fun f => f.2.2 != some l.id }
  match l.src with
  | .queue n => releaseIdle m (pumpQueue m d1 l.ctx n) (.queue l.ctx n)
  | .node r nd =>
    let mark (x : Run) : Run := { x with nodes := modWhere (fun q => q.node == nd) (fun q => { q with complete := true }) x.nodes }
    let d2 : Dev := { d1 with runs := modWhere (fun x => x.id == r) mark d1.runs }
    match d2.runs.find? fun x => x.id == r && x.nodes.all fun q => q.complete with
    | some x =>
      releaseIdle m (nextRuns { d2 with runs := d2.runs.filter fun y => y.id != r } x.ctx) (.trig x.ctx x.trig)
    | none => d2
  | _ => d1

/-- A group's retirement reported to the lead Distaff. -/
def reportRetired (m : Mgmt) (d : Dev) (g : Group) : Dev :=
  match g.kind, launch? d g.launch with
  | .launch, some l =>
    let l1 := { l with retired := l.retired ++ [g.index] }
    if hNGroups l.header ≤ l1.retired.length then completeLaunch m d l1 else modLaunch d l.id fun _ => l1
  | _, _ => d

/-- The save area of a group that is or was to be saved given back. -/
def freeSave (d : Dev) (gid : Nat) : Dev :=
  let g := groupOf d gid
  let e := saveDie d g.die
  if g.saveReq || !g.resident then
    { d with saveUsed := d.saveUsed.setIfInBounds e ((d.saveUsed[e]?).getD 0 - saveBytes d g) }
  else d

/-- A group gone with its skeins and all it held: pins, reservations, queue bindings, lock entries, registered waits. -/
def removeGroup (d0 : Dev) (gid : Nat) : Dev :=
  let d := freeSave d0 gid
  let us := (skeinsOf d gid).map fun k => k.uid
  let d1 := us.foldl (fun d u => dropLockTimers (dropOtherEntries (unpinAll d u) u none) u) (freeDsc d gid fun _ => true)
  let mine (w : Waiter) : Bool := match w with | .skein u => us.contains u | .svc u => us.contains u | _ => false
  { d1 with
    groups := d1.groups.filter fun g => g.gid != gid, skeins := d1.skeins.filter fun k => k.gid != gid,
    waiters := d1.waiters.filter fun w => !mine w.2 }

/-- What waits for resources that a group has left free. -/
def afterGroup (m : Mgmt) (d : Dev) (g : Group) : ERunM Dev :=
  let d1 := retryDispatch m d
  match g.kind with
  | .tile die => passProgress m d1 die
  | _ => .ok d1

/-! ## GROUP_RETIRE (R460) -/

/-- A Distaff's write at a retirement: one that fails leaves a record and the retirement goes on. (DESIGN CHOICE: notes/assumptions/58) -/
def retireWrite (m : Mgmt) (d : Dev) (g : Group) (p : DWord) (x : Nat) : ERunM Dev :=
  match distWrite m d g.ctx p 8 8 x with
  | .ok d1 => .ok d1
  | .wait w => .error w
  | .bad e => .ok (launchRecord m d g.ctx e p (hdrOf g) (labelOf g))

/-- An addition to a word of eight bytes by an atomic of the Distaff, with the checks of a store before the read (R224); on a peer line
it travels as an AtomicOp (R231, R326). -/
def distAdd (m : Mgmt) (d : Dev) (ctx : Nat) (p : DWord) (x : Nat) : Dist Dev :=
  (distCheck m d ctx p 8 8 true).bind fun _ =>
    match locate m d ctx noSpindle p with
    | .error e => distErr e
    | .ok (_, pa) =>
      if isPeer pa then
        if linkUp d pa then .ok { d with outbox := d.outbox ++ [.peerAtomic .fetchAdd true pa (BitVec.ofNat 64 x) 0] }
        else distErr .dataerr
      else (distRead m d ctx p 8 8).bind fun r => distWrite m r.2 ctx p 8 8 ((r.1 + x) % 2 ^ 64)

/-- Such an addition at a retirement. (DESIGN CHOICE: notes/assumptions/58) -/
def retireAtomic (m : Mgmt) (d : Dev) (g : Group) (p : DWord) (x : Nat) : ERunM Dev :=
  match distAdd m d g.ctx p x with
  | .ok d1 => .ok d1
  | .wait w => .error w
  | .bad e => .ok (launchRecord m d g.ctx e p (hdrOf g) (labelOf g))

/-- The event word of a group (R23). (DESIGN CHOICE: notes/assumptions/58) -/
def eventWord (m : Mgmt) (d : Dev) (g : Group) : ERunM Dev :=
  let h := g.header
  let has := match g.kind with | .launch => true | .tile _ => true | _ => false
  if !has || hEvents h == 0 then .ok d
  else retireWrite m d g (hEvents h + BitVec.ofNat 64 (8 * g.index)) ((hLabel h).toNat * 2 ^ 32 + 1)

/-- DONE of a reel node incremented (R31), a join counter decremented (R34). (DESIGN CHOICE: notes/assumptions/58) -/
def countRetired (m : Mgmt) (d : Dev) (g : Group) : ERunM Dev :=
  let join (p : DWord) : ERunM Dev := if p == 0 then .ok d else retireAtomic m d g p (2 ^ 64 - 1)
  match g.kind, launch? d g.launch with
  | .spool _ p _, _ => join p
  | .handler _ p, _ => join p
  | .launch, some l =>
    match l.src with
    | .node _ _ => retireAtomic m d g (g.hdrAddr + 200) 1
    | _ => .ok d
  | _, _ => .ok d

/-- A memory operation of a retirement: a failed one is passed over. -/
def needOnly (d : Dev) (x : MemM Dev) : ERunM Dev :=
  match x with
  | .ok d1 => .ok d1
  | .error (.need n) => .error n
  | .error _ => .ok d

/-- The steps of R460 one after another; a group that a kill has ended retires without the release and without its writes (R449).
(DEDUCED: notes/assumptions/52) -/
def retireGroup (m : Mgmt) (d : Dev) (g : Group) : ERunM Dev :=
  if g.killed then afterGroup m (reportRetired m (removeGroup d g.gid) g) g
  else
  match needOnly d (if isDet m g.ctx then commitGroup m d g.gid else .ok d) with
  | .error w => .error w
  | .ok d1 =>
    match needOnly d1 (releaseAt m d1 g.ctx (spindleNo g) 4) with
    | .error w => .error w
    | .ok d2 =>
      match eventWord m d2 g with
      | .error w => .error w
      | .ok d3 =>
        match countRetired m d3 g with
        | .error w => .error w
        | .ok d4 =>
          match (skeinsOf d4 g.gid).foldlM (fun d k => needOnly d (unlockAll m d k.uid)) d4 with
          | .error w => .error w
          | .ok d5 => afterGroup m (reportRetired m (removeGroup d5 g.gid) g) g

/-- GROUP_RETIRE (R460). -/
def execGroupRetire (group : Nat) (s : State) : Host.Outcome State Fault Refusal :=
  s.run fun m d =>
    match group? d group with
    | none => d
    | some g =>
      if !(skeinsOf d group).all allExited || hasCommands d group then d
      else
        match retireGroup m d g with
        | .error w => defer d w (.groupRetire group)
        | .ok d1 => d1

end Sys2Proof.Machine
end

