-- ==== Sys2Proof/Machine/Faults.lean ====
section
/-!
DEFINITION. Interruption: fault records and their delivery (R443 to R447), responses (R448, R451), kills (R449), the end of a
run-ahead (R456), faults in place of an instruction (R75, R76), the watchdog (R350), and a service call that is killed (R458).
-/

namespace Sys2Proof.Machine

/-! ## Records -/

/-- A record by its number, and the device with it changed or gone. -/
def rec? (d : Dev) (i : Nat) : Option Rec := d.records.find? fun r => r.id == i
def modRec (d : Dev) (i : Nat) (f : Rec → Rec) : Dev := { d with records := modWhere (fun r => r.id == i) f d.records }
def dropRec (d : Dev) (i : Nat) : Dev := dropWaiter { d with records := d.records.filter fun r => r.id != i } (.resp i)

/-- The 64 bytes of a record (R443); its response word holds an ACTION already set (R449). -/
def recordWord (r : Rec) : BitVec 512 :=
  let (g, k) : Nat × Nat := match r.gindex with | some x => (x.1 % 2 ^ 64, x.2) | none => (2 ^ 64 - 1, 31)
  BitVec.ofNat 512
    (r.pc.toNat + r.addr.toNat * 2 ^ 64 + r.lanes.toNat * 2 ^ 128 + causeCode r.cause * 2 ^ 160 + r.sub.toNat * 2 ^ 168 +
      k * 2 ^ 176 + r.eng.toNat * 2 ^ 181 + r.ra.toNat * 2 ^ 182 + r.ctx * 2 ^ 184 + g * 2 ^ 192 + r.more.length * 2 ^ 256 +
      r.label.toNat * 2 ^ 288 + r.hdr.toNat * 2 ^ 320 + r.data.toNat * 2 ^ 384 + (r.ans.getD 0).toNat * 2 ^ 448)

/-- Whether a record is still to be written, and the next such record of a context made due. -/
def unwritten (r : Rec) : Bool := r.slot.isNone && !r.lost
def nextRec (d : Dev) (ctx : Nat) : Dev :=
  match d.records.find? fun r => r.ctx == ctx && unwritten r with
  | some r => postNew d (.faultRecord r.id)
  | none => d

/-- A kill a record asks for made due. -/
def postKill (d : Dev) (i a : Nat) : Dev :=
  let d1 := modRec d i fun r => { r with due := true, ans := some (BitVec.ofNat 8 a) }
  post d1 (if a = 4 then .killSkein i else if a = 5 then .killLaunch i else .killContext i)

/-! ## Handlers (R447) -/

/-- The vector of a context's fault queue. -/
def faultVector (d : Dev) (ctx : Nat) : Dev := interrupt d (18 * ctx + 17)

/-- HREC of a context. -/
def hrec (m : Mgmt) (d : Dev) (ctx : Nat) : Dist Nat :=
  (distRead m d ctx (ringBase (ctxOf m ctx).faultq + 32) 32 32).bind fun x => .ok x.1

/-- Whether HREC's contents start a handler: CODE is non-zero. (DESIGN CHOICE: notes/assumptions/54) -/
def startsHandler (x : Nat) : Bool := spCode x != 0

/-- HREC popped and refused (R34): an ILLEGAL record with its address, which the host hears of as of a handler's own fault. -/
def refuseHandler (m : Mgmt) (d : Dev) (ctx : Nat) (p : DWord) : Dev :=
  let (n, d1) := fresh d
  addRecord m d1 { blankRec n ctx .illegal with addr := p, byHandler := true }

/-- The handler of a record started on the first permitted spindle that fits it, in ascending die; when there is none, groups are
pre-empted for it, as one of class 0. (DESIGN CHOICE: notes/assumptions/54) -/
def tryHandler (m : Mgmt) (d : Dev) (r : Rec) (slot : Nat) : ERunM Dev :=
  let q := (ctxOf m r.ctx).faultq
  let done (d : Dev) : Dev := modRec d r.id fun r => { r with hand := false }
  match hrec m d r.ctx with
  | .wait w => .error w
  | .bad _ => .ok (faultVector (done d) r.ctx)
  | .ok x =>
    if !startsHandler x then .ok (faultVector (done d) r.ctx)
    else if spoolBad x then .ok (refuseHandler m (done d) r.ctx (ringBase q + 32))
    else
      let dm := startDemand r.ctx (spoolHeader (spVregs x) (spSregs x) (spCode x))
      let p := ringBase q + 32
      match (List.range 16).findSome? fun die => (findSpindle m d die dm).map fun sp => (die, sp) with
      | some (die, sp) =>
        needOnly d ((startSpool m d r.ctx die sp 0 (.handler p (spJoin x)) x p (ringSlot q slot)).map done)
      | none => .ok ((makeWay m d (List.range 16) 0 dm).getD d)

/-! ## Responses (R448, R451) -/

/-- The action of a response word on a record. (DEDUCED: notes/assumptions/49) -/
def actionOf (r : Rec) (w : Nat) : Nat :=
  let a := w % 256
  let clean := decide (w < 256)
  if r.cause == .watchdog then (if clean && (a == 5 || a == 6) then a else 1)
  else if !clean then 4
  else if a = 3 then (if r.cause == .detviol && r.sup.isSome && !r.reorder then 3 else 4)
  else if 1 ≤ a ∧ a ≤ 6 then a
  else 4

/-- Whether a record stops a skein. -/
def stopping (d : Dev) (r : Rec) : Bool :=
  match r.skein with
  | some u => (skeinOf d u).stops.contains r.id
  | none => false

/-- The records of a skein acted on once each has its response: the greatest ACTION when it kills, else each in turn.
(DEDUCED: notes/assumptions/49) -/
def settle (d : Dev) (u : Nat) : Dev :=
  let rs := d.records.filter fun r => r.skein == some u && stopping d r
  let act (r : Rec) : Nat := (r.ans.getD 0).toNat
  let top := rs.foldl (fun n r => max n (act r)) 0
  if rs.any fun r => r.ans.isNone then d
  else if 4 ≤ top then
    match rs.find? fun r => act r == top with
    | some r => if r.due then d else postKill d r.id top
    | none => d
  else postAll d (rs.map fun r => if act r = 1 then .retry r.id else if act r = 2 then .skip r.id else .supply r.id)

/-- A response taken. A record that names no skein that it stops has only the two wider kills, and WATCHDOG's RETRY.
(DEDUCED: notes/assumptions/49) -/
def respond (d : Dev) (r : Rec) (w : Nat) : Dev :=
  let a := actionOf r w
  let d1 := dropWaiter (modRec d r.id fun r => { r with ans := some (BitVec.ofNat 8 a) }) (.resp r.id)
  match r.skein with
  | some u => if stopping d r then settle d1 u else if 5 ≤ a then postKill d1 r.id a else dropRec d1 r.id
  | none => if 5 ≤ a then postKill d1 r.id a else if r.cause == .watchdog then post d1 (.retry r.id) else dropRec d1 r.id

/-- A written record looked at: its handler is started, its response word is waited for and read. -/
def lookAt (m : Mgmt) (d : Dev) (r : Rec) (slot : Nat) : Dev :=
  let ev : Instr := .faultRecord r.id
  match if r.hand then tryHandler m d r slot else .ok d with
  | .error w => defer d w ev
  | .ok d1 =>
    let hand := ((rec? d1 r.id).map fun r => r.hand).getD false
    if r.ans.isSome || r.cause == .allExternal then (if hand || r.due || stopping d1 r then d1 else dropRec d1 r.id)
    else
      let p := ringSlot (ctxOf m r.ctx).faultq slot + 56
      let d2 := waitAt m d1 r.ctx p (.resp r.id)
      match distRead m d2 r.ctx p 8 8 with
      | .wait w => defer d w ev
      | .bad _ => d2
      | .ok (w, d3) => if w = 0 then d3 else respond d3 r w

/-! ## FAULT_RECORD (R446) -/

/-- A record that no queue takes: device event 1,152, and a fault's context is killed. -/
def loseRec (d : Dev) (r : Rec) : Dev :=
  let d1 := interrupt (dropWaiter d (.resp r.id)) 1152
  if r.cause == .allExternal then nextRec (dropRec d1 r.id) r.ctx
  else nextRec (postKill (modRec d1 r.id fun r => { r with lost := true }) r.id 6) r.ctx

/-- A record written with its list when the slots are free; it waits for HEAD otherwise. (DESIGN CHOICE: notes/assumptions/54) -/
def writeRec (m : Mgmt) (d : Dev) (r : Rec) : Dev :=
  let q := (ctxOf m r.ctx).faultq
  let ev : Instr := .faultRecord r.id
  if ringLog q = 0 then loseRec d r
  else
    match ringRoom m d r.ctx q with
    | .wait w => defer d w ev
    | .bad _ => loseRec d r
    | .ok (tail, room) =>
      if room < 1 + r.more.length then waitAt m (dropWaiter d (.resp r.id)) r.ctx (ringBase q) (.resp r.id)
      else
        match ringPut m (dropWaiter d (.resp r.id)) r.ctx q tail (recordWord r :: r.more) with
        | .wait w => defer d w ev
        | .bad _ => loseRec d r
        | .ok d1 =>
          let hand := !r.byHandler && r.cause != .allExternal &&
            match hrec m d1 r.ctx with
            | .ok x => startsHandler x
            | _ => false
          let r1 := { r with slot := some tail, hand := hand }
          let d2 := modRec d1 r.id fun _ => r1
          let d3 := nextRec (if hand then d2 else faultVector d2 r.ctx) r.ctx
          lookAt m d3 r1 tail

/-- FAULT_RECORD (R446): a context's records are written in the order in which they were seen. A stopped holder's locked lines leave
its L1 first (R341). A written record is looked at again. -/
def execFaultRecord (rec : Nat) (s : State) : Host.Outcome State Fault Refusal :=
  s.run fun m d =>
    match rec? d rec with
    | none => d
    | some r =>
      match r.slot with
      | some slot => lookAt m d r slot
      | none =>
        if r.lost || (d.records.find? fun q => q.ctx == r.ctx && unwritten q).map (fun q => q.id) != some rec then d
        else
          match needOnly d (match r.skein with | some u => dropLocked m d u | none => .ok d) with
          | .error w => defer d w (.faultRecord rec)
          | .ok d1 => writeRec m d1 r

/-! ## RETRY, SKIP, SUPPLY (R448) -/

/-- The record done with: it stops its skein no more. -/
def release (d : Dev) (r : Rec) : Dev :=
  match r.skein with
  | some u => releaseStop (dropWaiter d (.resp r.id)) u r.id
  | none => dropRec d r.id

/-- The lanes of a record that still stand at its instruction go on after it. (DEDUCED: notes/assumptions/50) -/
def goOn (d : Dev) (r : Rec) : Dev :=
  match r.skein with
  | none => d
  | some u =>
    let at_ := if r.ra then r.data else r.pc
    let k := skeinOf d u
    let ls := maskOf fun l => r.bundle.getLsbD l && (threadOf k l).pc == at_ && (threadOf k l).st == .ready
    setPcs d u ls r.next

/-- The record of a failed reorder point answered (R105). -/
def reorderAnswer (m : Mgmt) (d : Dev) (r : Rec) (again : Bool) (ev : Instr) : Dev :=
  let gid := r.group.getD 0
  let d1 := release d r
  if !reorderReady d1 gid then d1
  else if !again then reorderDone m d1 gid none
  else
    match tryReorder m d1 gid with
    | .ok d2 => d2
    | .error (.need w) => defer d w ev
    | .error _ => d1

/-- The skein goes on after the instruction, nothing of it done: an engine's record only stops it, a lock request is withdrawn.
(DEDUCED: notes/assumptions/50) -/
def skipOver (d : Dev) (r : Rec) : Dev :=
  match r.skein with
  | none => release d r
  | some u =>
    if r.eng then release d r
    else if r.cause == .deadlock then
      let d1 := dropLockTimers (dropOtherEntries d u none) u
      match (skeinOf d1 u).park with
      | some (.lock ..) => release (unpark d1 u) r
      | _ => release (goOn d1 r) r
    else release (goOn d r) r

/-- RETRY: the skein issues the instruction again; a watchdog's count restarts (R350). -/
def execRetry (rec : Nat) (s : State) : Host.Outcome State Fault Refusal :=
  s.run fun m d =>
    match rec? d rec with
    | none => d
    | some r =>
      if r.cause == .watchdog then { release d r with stalled := tdel d.stalled r.ctx }
      else if r.reorder then reorderAnswer m d r true (.retry rec)
      else if r.cause == .bkpt || r.eng then skipOver d r
      else release d r

/-- SKIP. -/
def execSkip (rec : Nat) (s : State) : Host.Outcome State Fault Refusal :=
  s.run fun m d =>
    match rec? d rec with
    | none => d
    | some r => if r.reorder then reorderAnswer m d r false (.skip rec) else skipOver d r

/-- SUPPLY: DATA, as the handler left it, is the result, zero-extended to a wider destination. (DEDUCED: notes/assumptions/50) -/
def execSupply (rec : Nat) (s : State) : Host.Outcome State Fault Refusal :=
  s.run fun m d =>
    match rec? d rec with
    | none => d
    | some r =>
      match r.skein, r.slot, r.sup with
      | some u, some slot, some (lane, reg, n) =>
        match distRead m d r.ctx (ringSlot (ctxOf m r.ctx).faultq slot + 48) 8 8 with
        | .wait w => defer d w (.supply rec)
        | .bad _ => postKill d rec 4
        | .ok (x, _) =>
          let ws := if lane then (lanesOf r.lanes).flatMap fun l => splitRegs (wrV l) reg x n else splitRegs wrS reg x n
          release (modSkein (goOn d r) u fun k => writeNow k ws) r
      | _, _, _ => release d r

/-! ## Kills (R449) -/

/-- A lock of a killed holder broken; one whose hand-on fails is left free with its mark. -/
def breakOne (m : Mgmt) (u : Nat) (d : Dev) (line : Nat) : ERunM Dev :=
  match breakLock m d u line with
  | .ok d1 => .ok d1
  | .error (.need w) => .error w
  | .error _ =>
    let d1 := modSkein d u fun k => { k with locks := k.locks.filter fun h => h.line != line }
    .ok (setLock d1 line { lockOf d1 line with holder := none, broken := true })

/-- Buffered stores of a killed skein: each word reaches memory or not (R449), whatever becomes of another word of this skein or of
another one killed in the same step. (DESIGN CHOICE: notes/assumptions/53) -/
def someStores (m : Mgmt) (d : Dev) (k : Skein) : ERunM Dev :=
  let g := groupOf d k.gid
  let es := (k.sbuf.zipIdx.filter fun x => freeBit d (2 ^ 100 * (k.uid + 1) + x.2)).flatMap fun x => commitParts d k.gid x.1
  if !g.resident then .ok d else es.foldlM (fun d e => needOnly d (commitOne m d g.ctx (spindleNo g) e)) d

/-- Records that a killed skein leaves: those written go, those still to be written name no skein that waits. -/
def dropRecords (d : Dev) (u : Nat) : Dev :=
  let goes (r : Rec) : Bool := r.skein == some u && r.slot.isSome && !r.due && !r.hand
  ((d.records.filter goes).map fun r => r.id).foldl dropRec d

/-- A skein killed: its commands end, its locks break, its entries, waits, pins and reservations go, its threads end. -/
def endSkein (m : Mgmt) (d0 : Dev) (u : Nat) : ERunM Dev :=
  let d := modSkein d0 u fun k => { k with park := match k.park with | some (.tag ..) => none | p => p }
  match needOnly d (dropCommands m d fun c => c.skein == u) with
  | .error w => .error w
  | .ok d1 =>
    match ((skeinOf d1 u).locks.map fun h => h.line).foldlM (breakOne m u) d1 with
    | .error w => .error w
    | .ok d2 =>
      match someStores m d2 (skeinOf d2 u) with
      | .error w => .error w
      | .ok d3 =>
        let d4 := dropLockTimers (dropOtherEntries (unpinAll d3 u) u none) u
        let asks (w : Waiter) : Bool := w == .skein u || w == .svc u
        let d5 : Dev :=
          { d4 with
            waiters := d4.waiters.filter fun w => !asks w.2,
            surfOps := d4.surfOps.filter fun o => o.skein != u || o.reg }
        let d6 := modSkein (endThreads d5 u (~~~0)) u fun k =>
          { k with pend := [], sbuf := [], spilled := 0, park := none, stops := [], preempt := false, marker := false, runAhead := [] }
        .ok (pokeSeals (retireSkein (dropRecords d6 u) u))

/-- A skein killed, and what follows in its group: when it was the last, the group retires without release and without its writes.
(DEDUCED: notes/assumptions/52) -/
def killOne (m : Mgmt) (d : Dev) (u : Nat) : ERunM Dev :=
  let gid := (skeinOf d u).gid
  (endSkein m d u).bind fun d1 =>
    if (skeinsOf d1 gid).all allExited then .ok (tryRetire (modGroup d1 gid fun g => { g with killed := true }) gid)
    else needOnly d1 (afterExit m d1 u)

/-- A group killed with every skein and command, and gone. -/
def endGroup (m : Mgmt) (d : Dev) (gid : Nat) : ERunM Dev :=
  match ((skeinsOf d gid).map fun k => k.uid).foldlM (endSkein m) (modGroup d gid fun g => { g with killed := true }) with
  | .error w => .error w
  | .ok d1 => (needOnly d1 (dropCommands m d1 fun c => c.gid == gid)).map fun d2 => removeGroup d2 gid

/-- The launches a kill of one takes with it: the others of its run (R449). A spool skein's or handler's launch is its group.
(DEDUCED: notes/assumptions/51) -/
def withRun (d : Dev) (i : Nat) : List Nat :=
  match launch? d i with
  | some l =>
    match l.src with
    | .node r _ => (d.launches.filter fun x => match x.src with | .node q _ => q == r | _ => false).map fun x => x.id
    | _ => [i]
  | none => [i]

/-- One launch killed: its groups go, and it counts as complete. A pass's rounds that wait go too. -/
def endLaunch (m : Mgmt) (d : Dev) (i : Nat) : ERunM Dev :=
  match ((d.groups.filter fun g => g.launch == i).map fun g => g.gid).foldlM (endGroup m) d with
  | .error w => .error w
  | .ok d1 =>
    match launch? d1 i with
    | none => .ok d1
    | some l =>
      match l.src with
      | .tile die =>
        let clear (p : Pass) : Pass := if p.launch == i then { p with rounds := [] } else p
        passProgress m { d1 with tilers := d1.tilers.map fun e => (e.1, clear e.2) } die
      | _ => .ok (completeLaunch m d1 l)

/-- Several launches killed; what their resources were waited for is offered again. (DEDUCED: notes/assumptions/51) -/
def endLaunches (m : Mgmt) (d : Dev) (is : List Nat) : ERunM Dev := ((is.flatMap (withRun d)).dedup.foldlM (endLaunch m) d).map (retryDispatch m)

/-- The record of a kill done with. -/
def killed (d : Dev) (rec : Nat) : Dev :=
  match rec? d rec with
  | some r => if (r.slot.isSome && !r.hand) || r.lost then dropRec d rec else modRec d rec fun r => { r with due := false }
  | none => d

/-- A kill as an event, made again when a half it waits for has come. -/
def killEvent (d : Dev) (rec : Nat) (ev : Instr) (f : Rec → ERunM Dev) : Dev :=
  match rec? d rec with
  | none => d
  | some r =>
    match f r with
    | .error w => defer d w ev
    | .ok d1 => killed d1 rec

/-- KILL_SKEIN. -/
def execKillSkein (rec : Nat) (s : State) : Host.Outcome State Fault Refusal :=
  s.run fun m d => killEvent d rec (.killSkein rec) fun r =>
    match r.skein with
    | some u => if (skein? d u).isSome then killOne m d u else .ok d
    | none => .ok d

/-- KILL_LAUNCH. The record of a watchdog names no launch: those with a resident group of the context are killed.
(DEDUCED: notes/assumptions/51) -/
def execKillLaunch (rec : Nat) (s : State) : Host.Outcome State Fault Refusal :=
  s.run fun m d => killEvent d rec (.killLaunch rec) fun r =>
    match r.launch with
    | some i => endLaunches m d [i]
    | none =>
      if r.cause == .watchdog then
        endLaunches m d ((d.groups.filter fun g => g.ctx == r.ctx && g.resident).map fun g => g.launch)
      else .ok d

/-- KILL_CONTEXT: EN cleared in every queue, every launch, spool skein and handler of the context killed.
(DEDUCED: notes/assumptions/51) -/
def execKillContext (rec : Nat) (s : State) : Host.Outcome State Fault Refusal :=
  s.run fun m d => killEvent d rec (.killContext rec) fun r =>
    let d1 := (List.range 32).foldl (fun d n => if (subq d r.ctx n).en then haltQueue m d r.ctx n else d) d
    endLaunches m d1 (((d1.launches.filter fun l => l.ctx == r.ctx).map fun l => l.id) ++
      (d1.groups.filter fun g => g.ctx == r.ctx).map fun g => g.launch)

/-- SVC_KILL (R458): a service call answered by anything but 1 kills its skein. (DEDUCED: notes/assumptions/52) -/
def execSvcKill (skein : Nat) (s : State) : Host.Outcome State Fault Refusal :=
  s.run fun m d =>
    match (skeinOf d skein).park with
    | some (.svc ..) =>
      match killOne m d skein with
      | .error w => defer d w (.svcKill skein)
      | .ok d1 => d1
    | _ => d

/-! ## The watchdog (R350) -/

/-- WATCHDOG_EXPIRY: WATCHDOG when a resident skein is on an internal wait, ALL-EXTERNAL otherwise. -/
def execWatchdogExpiry (ctx : Nat) (s : State) : Host.Outcome State Fault Refusal :=
  s.run fun m d =>
    if !isStalled d ctx then d
    else
      let internal := d.skeins.any fun k => k.resident && (groupOf d k.gid).ctx == ctx && skeinWait k == some false
      let (i, d1) := fresh d
      addRecord m d1 (blankRec i ctx (if internal then .watchdog else .allExternal))

/-! ## Run-ahead and faults in place of an instruction -/

/-- Page entries, eight to a slot. -/
def pageSlots : List DWord → List (BitVec 512)
  | a :: b :: c :: e :: f :: g :: h :: i :: r =>
    BitVec.ofNat 512 (bytesNat ([a, b, c, e, f, g, h, i].flatMap fun x => natBytes x.toNat 8)) :: pageSlots r
  | [] => []
  | l => [BitVec.ofNat 512 (bytesNat (l.flatMap fun x => natBytes x.toNat 8))]

/-- A run-ahead ended (R456, R452): its threads go back to their region entries, their results dropped, the skein stops, one record.
(DEDUCED: notes/assumptions/55) -/
def endRunAhead (m : Mgmt) (d : Dev) (u : Nat) (ra : RunAhead) : Dev :=
  let k := skeinOf d u
  let back := (lanesOf ra.lanes).filter fun l => (threadOf k l).region.isSome && (threadOf k l).st != .exited
  let mine (w : PWrite) : Bool := match w with | .v l _ _ => back.contains l | .p l _ _ => back.contains l | _ => false
  let go (_ : Nat) (t : Thread) : Thread := match t.region with | some r => { t with pc := r.entry, region := none } | none => t
  let (i, d1) := fresh d
  let d2 := modSkein d1 u fun k =>
    let k1 := modThreads k back go
    { k1 with
      pend := (k1.pend.map fun p => { p with ws := p.ws.filter fun w => !mine w }).filter fun p => !p.ws.isEmpty,
      runAhead := (dropRa k1 ra.lanes).runAhead, stops := k1.stops ++ [i] }
  let g := groupOf d k.gid
  addRecord m d2 (recGroup g k
    { blankRec i g.ctx .xlate with
      sub := ra.sub, addr := ra.addr, pc := ra.pc, lanes := ra.flanes, data := ra.entry, ra := true, more := pageSlots ra.pages,
      bundle := ra.lanes, next := ra.next })

/-- RUN_AHEAD_END: that of the bundle that issues or was to issue. -/
def execRunAheadEnd (skein : Nat) (s : State) : Host.Outcome State Fault Refusal :=
  s.run fun m d =>
    match raOf (skeinOf d skein) d.cur.lanes with
    | some ra => endRunAhead m d skein ra
    | none => d

/-- FETCH_FAULT (R55, R76): precise at the instruction; it ends a run-ahead, and inside an explicit region an XLATE begins one that
ends at once (R456). (DEDUCED: notes/assumptions/50, 55) -/
def execFetchFault (c : FetchCause) (addr : DWord) (s : State) : Host.Outcome State Fault Refusal :=
  s.run fun m d =>
    let u := d.cur.skein
    let k := curSkein d
    let all := d.cur.lanes
    let len := if addr == d.cur.pc then 4 else 8
    let f : FaultInfo :=
      match c with
      | .xlate x => { faultAt .xlate addr all with sub := xlateCode x }
      | .perm => faultAt .perm addr all
      | .dataerr => faultAt .dataerr addr all
    let soft := f.cause == .xlate && f.sub != xlateCode .noncanon
    match raOf k all, soft, entryOf k all with
    | some ra, _, _ => endRunAhead m d u ra
    | none, true, some r =>
      endRunAhead m d u
        { lanes := inRegions k all, pc := d.cur.pc, addr := addr, flanes := inRegions k all, sub := BitVec.ofNat 8 f.sub, entry := r.entry,
          next := nextPc d len, issues := 0, pages := [pageEntry addr false true f.sub] }
    | _, _, _ => takeFault m d u d.cur.pc (nextPc d len) all f

/-- ILLEGAL_WORD (R74 to R76): ILLEGAL with its reason, the words in DATA; a word of the uniform set names no lane. -/
def execIllegalWord (w0 ext : Word) (r : Reason) (s : State) : Host.Outcome State Fault Refusal :=
  s.run fun m d =>
    let lanes := if w0.getLsbD 31 then 0 else d.cur.lanes
    faulted m d (hd false (if extFollows w0 then 8 else 4) [])
      { faultAt .illegal 0 lanes with sub := reasonCode r, data := BitVec.ofNat 64 (w0.toNat + ext.toNat * 2 ^ 32) }

end Sys2Proof.Machine
end

