-- ==== Sys2Proof/Machine/Link.lean ====
section
/-!
DEFINITION. What the hardware below the instructions does: results written back (R96), the age rotation (R90), fences, write-backs,
invalidations and eviction notices (R197, R204, R205, R300), uncorrectable errors (R218), host snoops and CXL.mem requests (R319 to
R325), peers (R316, R326), links (R318) and power gates (R325).
-/

namespace Sys2Proof.Machine

/-! ## Issue and results -/

/-- RESULT_WRITEBACK (R96, R98). -/
def execResultWriteback (skein k : Nat) (s : State) : Host.Outcome State Fault Refusal :=
  s.run fun _ d => modSkein d skein fun x => writeBack x k

/-- ISSUE_ROTATION (R90): the next issue goes to the bundle whose threads have gone longest without one. -/
def execIssueRotation (skein : Nat) (s : State) : Host.Outcome State Fault Refusal :=
  s.run fun _ d => modSkein d skein fun k => if k.rot = 64 then { k with rot := 65 } else k

/-! ## L1 and directory -/

/-- The context of a spindle's copy of a line. -/
def ctxOfCopy (m : Mgmt) (d : Dev) (sp line : Nat) : Nat := ((l1Phys d sp line).map fun l => ctxOfAsid m l.asid).getD 0

/-- A memory operation as an event: made again when a half it waits for has come; one that fails changes nothing. -/
def memEvent (d : Dev) (ev : Instr) (r : MemM Dev) : Dev :=
  match r with
  | .ok d1 => d1
  | .error (.need n) => defer d n ev
  | .error _ => d

/-- WRITEBACK_MERGE (R197, R217): the dirty words of a copy are merged at the caching slice. -/
def execWritebackMerge (spindle line : Nat) (s : State) : Host.Outcome State Fault Refusal :=
  s.run fun m d => memEvent d (.writebackMerge spindle line) (writeBackLine m d (ctxOfCopy m d spindle line) spindle line)

/-- FENCE_COMPLETE (R300, R355): the release with all its write-backs, then the acquire; the skein issues again.
(DEDUCED: notes/assumptions/16) -/
def execFenceComplete (skein : Nat) (s : State) : Host.Outcome State Fault Refusal :=
  s.run fun m d =>
    match (skeinOf d skein).park with
    | some (.fence kind sc) =>
      let ctx := ctxOfSkein d skein
      let sp := spOfSkein d skein
      let r : MemM Dev :=
        match if kind ≥ 2 then releaseAt m d ctx sp sc else .ok d with
        | .error e => .error e
        | .ok d1 => if kind % 2 = 1 then acquireAt m d1 ctx sp sc else .ok d1
      memEvent d (.fenceComplete skein) (r.map fun d1 => unpark d1 skein)
    | _ => d

/-- INVALIDATION (R205): an L1 with a home-origin copy acknowledges and keeps its clean words as a queued invalidation.
(DESIGN CHOICE: notes/assumptions/15) -/
def execInvalidation (spindle line : Nat) (s : State) : Host.Outcome State Fault Refusal :=
  s.run fun m d =>
    match l1Phys d spindle line with
    | none => dirDel d spindle line
    | some l =>
      if !l.home then d
      else memEvent d (.invalidation spindle line) (invalidateCopy m (ctxOfCopy m d spindle line) d spindle line)

/-- EVICTION_NOTICE (R197, R204): the directory counts an L1 without a copy absent. -/
def execEvictionNotice (spindle line : Nat) (s : State) : Host.Outcome State Fault Refusal :=
  s.run fun _ d =>
    match l1Phys d spindle line with
    | some l => if l.home && !l.queued then d else dirDel d spindle line
    | none => dirDel d spindle line

/-- The form code of a line that cannot be trusted (R218). -/
def poison : BitVec 4 := 15

/-- UNCORRECTABLE_ERROR (R211, R218): a device line becomes POISON, and the halves of a host line that its slice holds are poisoned;
the line's waiters look at it. A later read meets the error, of clean words in an L1 as well. (DEDUCED: notes/assumptions/98) -/
def execUncorrectableError (line : Nat) (s : State) : Host.Outcome State Fault Refusal :=
  s.run fun _ d =>
    if isDevice (128 * line) then
      wakeLine (dropTiles { ageProg d line with forms := tput d.forms line poison 0 } line) line
    else
      let hs := modWhere (fun e => e.1 / 2 == line && e.2.st != .i) (fun e => (e.1, { e.2 with poison := true })) d.halves
      wakeLine { d with halves := hs } line

/-! ## Host snoops (R320) -/

/-- A message sent, and an answer to a request of the host or a peer; no bytes stand for a poisoned one. -/
def send (d : Dev) (x : Msg) : Dev := { d with outbox := d.outbox ++ [x] }
def answer (d : Dev) (bytes : List Byte) : Dev := send d (.answer bytes)

/-- Whether a lock of a line is held: its halves stay in M till then (R331). (DESIGN CHOICE: notes/assumptions/65) -/
def lockHolds (d : Dev) (line : Nat) : Bool := (lockOf d line).holder.isSome

/-- A snoop of a host half: it waits for an engine or a lock that owns the line; the L1 copies of its die are invalidated; a half that
is not held is answered I; `done` follows the answer. (DESIGN CHOICE: notes/assumptions/65) -/
def snoop (m : Mgmt) (d : Dev) (half : Nat) (ev : Instr) (f : Half → Dev → Dev) (done : Dev → Dev) : Dev :=
  let line := half / 2
  if engineOwns d line || lockHolds d line then defer d (.owned line) ev
  else
    memEvent d ev ((invalidateOthers m 0 d none line).map fun d1 =>
      done (match tget? d1.halves half with | some h => f h d1 | none => d1))

/-- The data of a half that is modified, sent. (DESIGN CHOICE: notes/assumptions/64) -/
def sendHalf (h : Half) (d : Dev) : Dev := answer d (if h.poison then [] else natBytes h.data.toNat 64)
def setHalf (d : Dev) (half : Nat) (h : Half) : Dev := { d with halves := tset d.halves half h }

/-- SNPDATA. -/
def execSnpdata (half : Nat) (s : State) : Host.Outcome State Fault Refusal :=
  s.run fun m d =>
    let f (h : Half) (d : Dev) : Dev :=
      match h.st with
      | .m => setHalf (sendHalf h d) half { h with st := .s }
      | .e => setHalf d half { h with st := .s }
      | _ => d
    snoop m d half (.snpdata half) f fun d => d

/-- SNPINV: it counts as a write to the line, whose waiters look at it once it is answered (R364). -/
def execSnpinv (half : Nat) (s : State) : Host.Outcome State Fault Refusal :=
  s.run fun m d =>
    let f (h : Half) (d : Dev) : Dev :=
      let d1 := if h.st == .m then sendHalf h d else d
      { d1 with halves := tdel d1.halves half }
    snoop m d half (.snpinv half) f fun d => wakeLine d (half / 2)

/-- SNPCUR. -/
def execSnpcur (half : Nat) (s : State) : Host.Outcome State Fault Refusal :=
  s.run fun m d => snoop m d half (.snpcur half) (fun h d => if h.st == .i then d else sendHalf h d) fun d => d

/-! ## CXL.mem (R322, R325) -/

/-- Whether stage 2 has completed. -/
def fullFn (d : Dev) : Bool := d.stage == 2

/-- Whether a device line lies in a stack that is present; its holder slice woken. (DESIGN CHOICE: notes/assumptions/66) -/
def present (d : Dev) (line : Nat) : Bool := isDevice (128 * line) && d.stackMask.getLsbD (stackOf (128 * line))
def wakeSlice (d : Dev) (line : Nat) : Dev :=
  { d with gatedSlices := d.gatedSlices.filter fun g => g != (holderOf (128 * line), sliceOf (128 * line)) }

/-- The host state of a half as the metadata of a request set it (R322). -/
def setHostState (d : Dev) (half : Nat) (keep : HostKeep) : Dev :=
  match keep with
  | .none => { d with hostState := tdel d.hostState half }
  | .shared => { d with hostState := tset d.hostState half .s }
  | .owned => { d with hostState := tset d.hostState half .a }

/-- HOST_MEM_READ: the half's bytes, and its host state as the host keeps it; before A is granted the L1 copies are invalidated.
(DESIGN CHOICE: notes/assumptions/66) -/
def execHostMemRead (half : Nat) (keep : HostKeep) (s : State) : Host.Outcome State Fault Refusal :=
  s.run fun m d =>
    let line := half / 2
    let ev : Instr := .hostMemRead half keep
    if !fullFn d then answer (countLinkErr d) []
    else if !present d line then answer d []
    else if engineOwns d line then defer d (.owned line) ev
    else
      let d0 := wakeSlice d line
      let r := if keep = .owned then invalidateOthers m 0 d0 none line else recallOwner m 0 d0 none line
      memEvent d ev (r.map fun d1 =>
        let d2 := setHostState d1 half keep
        answer d2 (if badForm (formOf d2 line) then [] else natBytes (halfData (memLine d2 line) (half % 2 == 1)).toNat 64))

/-- The mask of a half's bytes in its line. -/
def halfMask (half : Nat) : BitVec 128 := byteMask (64 * (half % 2)) 64

/-- HOST_MEM_WRITE: the half's bytes replaced, and its host state as the host keeps it. (DESIGN CHOICE: notes/assumptions/66) -/
def execHostMemWrite (half : Nat) (data : BitVec 512) (keep : HostKeep) (s : State) : Host.Outcome State Fault Refusal :=
  s.run fun m d =>
    let line := half / 2
    let ev : Instr := .hostMemWrite half data keep
    if !fullFn d then countLinkErr d
    else if !present d line then d
    else
      let d0 := wakeSlice { d with hostState := tdel d.hostState half } line
      memEvent d ev ((writeSlice m 0 d0 none line (halfMask half) (putHalf 0 (half % 2 == 1) data) false).map fun d1 =>
        setHostState d1 half keep)

/-! ## Answers of the host (R319, R323) -/

/-- A half replaced at its slice: modified data goes to the host, a clean half is given back (R319). -/
def evictHalf (d : Dev) (half : Nat) : Dev :=
  match tget? d.halves half with
  | some h =>
    let d1 := { d with halves := tdel d.halves half }
    if h.st == .m then send d1 (.dirtyEvict half h.data) else if h.st == .i then d1 else send d1 (.cleanEvict half)
  | none => d

/-- The port slice of a host half. -/
def portSlice (half : Nat) : Nat × Nat := (portDie (portOf (64 * half)), sliceOf (64 * half))

/-- Whether a line is pinned in its caching slice, which never evicts it then (R360). -/
def slicePinned (d : Dev) (line : Nat) : Bool := d.l2pins.any fun p => p.2.1 == line

/-- The half that makes way for another at its slice, if one does: which is open, but neither one of a line with waiters (R364), of a
pinned (R360), a locked or an owned line, nor one an L1 still copies. (DESIGN CHOICE: notes/assumptions/15) -/
def halfVictim (d : Dev) (half : Nat) : Option Nat :=
  let may (e : Nat × Half) : Bool :=
    let line := e.1 / 2
    line != half / 2 && portSlice e.1 == portSlice half && !e.2.poison && !(d.waiters.any fun w => w.1 == line) &&
      !engineOwns d line && !lockHolds d line && !slicePinned d line && !(d.l1.any fun l => l.pa == line)
  let hs := (d.halves.filter may).map fun e => e.1
  if freeBit d 49000 then hs[freeBelow d 49001 hs.length]? else none

/-- HOST_LINE_GRANT: the half a request asked for, in the state granted; one held in E or M already keeps it, and RdCurr changes no
state. Another half may make way for it. (DESIGN CHOICE: notes/assumptions/15) -/
def execHostLineGrant (half : Nat) (req : HostReq) (excl : Bool) (data : BitVec 512) (s : State) :
    Host.Outcome State Fault Refusal :=
  s.run fun _ d =>
    if !d.hostReqs.contains (half, req) then d
    else
      let old : Half := (tget? d.halves half).getD { st := .i, data := 0, poison := false, curr := none }
      let owned := old.st == .e || old.st == .m
      let h : Half :=
        match req with
        | .rdShared => if owned then old else { st := if excl then .e else .s, data := data, poison := false, curr := none }
        | .rdOwn => if owned then old else { st := .e, data := data, poison := false, curr := none }
        | .rdCurr => if old.st == .i then { old with curr := some data } else old
      let d0 := match req, halfVictim d half with
        | .rdCurr, _ => d
        | _, some v => evictHalf d v
        | _, none => d
      let d1 : Dev :=
        { d0 with
          hostReqs := d0.hostReqs.filter fun q => q != (half, req),
          gatedSlices := d0.gatedSlices.filter fun x => x != portSlice half }
      resumeHalf (setHalf d1 half h) half

/-- The host's bytes of a device half taken: memory holds them; they do not cover a POISON line. -/
def takeHostData (m : Mgmt) (d : Dev) (half : Nat) (data : BitVec 512) : Dev :=
  let line := half / 2
  if badForm (formOf d line) then poisonRecord m d 0 line
  else wakeLine (markWritten (dropTiles (putLine (ageProg d line) line (putHalf (memLine d line) (half % 2 == 1) data) false) line) line) line

/-- BISNP_RESPONSE (R322, R323): the host's data of a half in A is merged before what the device waits to do; after BISnpData the half is
in S, after BISnpInv in I. -/
def execBisnpResponse (half : Nat) (data : BitVec 512) (s : State) : Host.Outcome State Fault Refusal :=
  s.run fun m d =>
    match d.snoops.find? fun q => q.1 == half with
    | none => d
    | some (_, inv) =>
      let d0 := { d with snoops := d.snoops.filter fun q => q.1 != half }
      let d1 := if tget? d.hostState half == some .a then takeHostData m d0 half data else d0
      resumeHalf { d1 with hostState := if inv then tdel d1.hostState half else tset d1.hostState half .s } half

/-! ## Peers (R316, R326) -/

/-- The pieces of a range by line: the line, the offset in it, the bytes. -/
def lineSpan (pa n : Nat) : List (Nat × Nat × Nat) :=
  (List.range (n / 128 + 2)).filterMap fun i =>
    let a := (pa / 128 + i) * 128
    let lo := max pa a
    let hi := min (pa + n) (a + 128)
    if lo < hi then some (pa / 128 + i, lo - a, hi - lo) else none

/-- Whether a peer's request reaches memory: full function, every line present. (DESIGN CHOICE: notes/assumptions/66) -/
def peerMay (d : Dev) (pa n : Nat) : Bool := fullFn d && (lineSpan pa n).all fun x => present d x.1

/-- `n` bytes read at the holder slices. -/
def peerRead (m : Mgmt) (d : Dev) (pa n : Nat) : MemM (List Byte × Dev) :=
  (lineSpan pa n).foldlM (fun (a : List Byte × Dev) x =>
    (readSlice m 0 a.2 none x.1 false (halvesOf x.1 (byteMask x.2.1 x.2.2)) .rdShared 71).map fun (y, d1) =>
      (a.1 ++ natBytes (takeBytes y x.2.1 x.2.2) x.2.2, d1)) ([], d)

/-- Bytes written at the holder slices. -/
def peerWrite (m : Mgmt) (d : Dev) (pa : Nat) (bytes : List Byte) : MemM Dev :=
  (lineSpan pa bytes.length).foldlM (fun d x =>
    let part := (bytes.drop (128 * x.1 + x.2.1 - pa)).take x.2.2
    writeSlice m 0 d none x.1 (byteMask x.2.1 x.2.2) (atByte x.2.1 (bytesNat part)) false) d

/-- PEER_MEM_WRITE: a system-level write. -/
def execPeerMemWrite (pa : Nat) (bytes : List Byte) (s : State) : Host.Outcome State Fault Refusal :=
  s.run fun m d => if peerMay d pa bytes.length then memEvent d (.peerMemWrite pa bytes) (peerWrite m d pa bytes) else d

/-- PEER_MEM_READ. -/
def execPeerMemRead (pa n : Nat) (s : State) : Host.Outcome State Fault Refusal :=
  s.run fun m d =>
    if !peerMay d pa n then answer d []
    else
      match peerRead m d pa n with
      | .ok (x, d1) => answer d1 x
      | .error (.need w) => defer d w (.peerMemRead pa n)
      | .error _ => answer d []

/-- The new value of an AtomicOp: FetchAdd adds x, Swap stores x, CAS stores y where the old value is x. -/
def peerNew (op : PeerOp) (old x y : Nat) : Nat :=
  match op with
  | .fetchAdd => old + x
  | .swap => x
  | .cas => if old = x then y else old

/-- PEER_ATOMIC_IN: the old value is answered. -/
def execPeerAtomicIn (op : PeerOp) (wide : Bool) (pa : Nat) (x y : DWord) (s : State) : Host.Outcome State Fault Refusal :=
  s.run fun m d =>
    let n := if wide then 8 else 4
    if !peerMay d pa n || pa % n != 0 then answer d []
    else
      let r : MemM Dev :=
        match peerRead m d pa n with
        | .error e => .error e
        | .ok (o, d1) =>
          let z := peerNew op (bytesNat o) (x.toNat % 2 ^ (8 * n)) (y.toNat % 2 ^ (8 * n))
          (peerWrite m d1 pa (natBytes z n)).map fun d2 => answer d2 o
      match r with
      | .ok d1 => d1
      | .error (.need w) => defer d w (.peerAtomicIn op wide pa x y)
      | .error _ => answer d []

/-! ## Links and power (R318, R325) -/

/-- LINK_DOWN (R318): the device event, through a HOST port still up; modified halves of that port are POISON; what waits for it looks
again. With no HOST port left no half is held by the host any more. (DESIGN CHOICE: notes/assumptions/67) -/
def execLinkDown (port : Nat) (s : State) : Host.Outcome State Fault Refusal :=
  s.run fun _ d =>
    if !d.portUp.getLsbD port then d
    else
      let d1 : Dev :=
        { d with portUp := d.portUp &&& ~~~(BitVec.ofNat 4 (2 ^ port)), laneRates := d.laneRates.setIfInBounds port 0 }
      let anyHost := d1.portUp &&& ~~~d1.portPeer != 0
      let mine (h : Nat) : Bool := linkOf d (64 * h) == port
      let asked := (d1.hostReqs.filter fun q => mine q.1).map fun q => q.1
      let d2 : Dev :=
        { d1 with
          halves := d1.halves.map fun e => if mine e.1 && e.2.st == .m then (e.1, { e.2 with poison := true }) else e,
          hostReqs := d1.hostReqs.filter fun q => !mine q.1 }
      let d3 := asked.foldl resumeHalf (if anyHost then interrupt d2 (1154 + port) else d2)
      if anyHost then d3
      else
        let waits := d3.snoops.map fun q => q.1
        waits.foldl resumeHalf { d3 with snoops := [], hostState := [] }

/-- The home-origin copies of a slice's lines invalidated (R204). (DESIGN CHOICE: notes/assumptions/68) -/
def emptySlice (m : Mgmt) (d : Dev) (die n : Nat) : MemM Dev :=
  ((d.dir.map fun e => e.1).filter fun line => cachingDie die (128 * line) false == die && sliceOf (128 * line) == n).foldlM
    (fun d line => invalidateOthers m 0 d none line) d

/-- A spindle's L1 flushed (R197): dirty words written back, every line evicted. (DESIGN CHOICE: notes/assumptions/68) -/
def flushSpindle (m : Mgmt) (d : Dev) (sp : Nat) : MemM Dev :=
  ((d.l1.filter fun l => l.spindle == sp).map fun l => l.pa).foldlM (fun d line =>
    (writeBackLine m d (ctxOfCopy m d sp line) sp line).map fun d1 => dirDel (dropLine d1 sp line) sp line) d

/-- POWER_GATE (R325): a spindle without work is flushed first; a slice gives up its clean host halves, whose lines' waiters it wakes
first (R364), and is never gated while it holds a modified one, or one that is pinned there (R360).
(DESIGN CHOICE: notes/assumptions/68) -/
def execPowerGate (u : GateUnit) (s : State) : Host.Outcome State Fault Refusal :=
  s.run fun m d =>
    match u with
    | .spindle n =>
      if !(groupsOn d n).isEmpty || d.gatedSpindles.contains n then d
      else memEvent d (.powerGate (.spindle n)) ((flushSpindle m d n).map fun d1 => { d1 with gatedSpindles := d1.gatedSpindles ++ [n] })
    | .slice die n =>
      if d.gatedSlices.contains (die, n) then d
      else
        memEvent d (.powerGate (.slice die n)) ((emptySlice m d die n).map fun d1 =>
          let mine := d1.halves.filter fun e => isHost (64 * e.1) && portSlice e.1 == (die, n)
          if mine.any fun e => e.2.st == .m || slicePinned d1 (e.1 / 2) then d1
          else
            let d2 := mine.foldl (fun d e => evictHalf (wakeLine d (e.1 / 2)) e.1) d1
            { d2 with gatedSlices := d2.gatedSlices ++ [(die, n)] })

end Sys2Proof.Machine
end

