-- ==== Sys2Proof/Machine/Registers.lean ====
section
/-!
DEFINITION. Register writes of the host: doorbell pages (R30, R35, R36), the management registers of contexts (R49, R328, R329),
LINKERR, the power caps (R475), and the memory-management commands XINV and HARVEST (R191, R192, R210). Refusals follow R476.
-/

namespace Sys2Proof.Machine

/-- Whether a word has no bit set from `lo` on for `n` bits. -/
def clearAt (v : DWord) (lo n : Nat) : Bool := bitsOf v lo n == 0

/-! ## Doorbell pages (R35) -/

/-- Whether a queue's tail is too far ahead of its head, and the queue stopped with a record for it (R36).
(DESIGN CHOICE: notes/assumptions/60) -/
def tailBad (q : SubQ) : Bool := decide (2 ^ q.logn < (q.tail - q.head).toNat)
def tailStop (m : Mgmt) (d : Dev) (ctx n : Nat) : Dev :=
  takeDeviceFault m (haltQueue m d ctx n) ctx .illegal 0 (BitVec.ofNat 64 (8 * n)) 0

/-- QDOORn: the tail is set; one too far ahead stops the queue with a record (R36). (DESIGN CHOICE: notes/assumptions/60) -/
def writeQdoor (m : Mgmt) (d : Dev) (ctx n : Nat) (v : DWord) : Dev :=
  let q := { subq d ctx n with tail := v.setWidth 32 }
  let d1 := setSubq d ctx n q
  if tailBad q then tailStop m d1 ctx n
  else pumpQueue m (seekSlot (releaseIdle m d1 (.queue ctx n)) (.queue ctx n)) ctx n

/-- TRIGn: the request is pending from now on, in place of one that has not begun (R30, R181). -/
def writeTrig (d : Dev) (ctx n : Nat) (v : DWord) : Dev :=
  let (k, d1) := fresh d
  nextRuns (seekSlot { d1 with trigs := tset d1.trigs (16 * ctx + n) { pending := some v, seen := k } } (.trig ctx n)) ctx

/-- QCFGn, its low or its high word (R36): an enabled queue whose tail is too far ahead of its head stops; the classes of sources and
groups may change (R39, R42). (DESIGN CHOICE: notes/assumptions/60) -/
def writeQcfg (m : Mgmt) (d : Dev) (ctx n : Nat) (hi : Bool) (v : DWord) : Dev :=
  let q := subq d ctx n
  if hi then
    let k := bitsOf v 0 6
    if !clearAt v 8 24 || k < 4 || 16 < k then countLinkErr d
    else
      let q1 := { q with logn := k, qclass := bitsOf v 6 2 }
      let d1 := setSubq d ctx n q1
      retryDispatch m (if q.en && tailBad q1 then tailStop m d1 ctx n else d1)
  else if !clearAt v 1 4 then countLinkErr d
  else
    let d1 := setSubq d ctx n { q with base := v &&& ~~~31, en := v.getLsbD 0 }
    if !v.getLsbD 0 then haltQueue m d1 ctx n
    else if tailBad q then tailStop m d1 ctx n
    else pumpQueue m (seekSlot (setSubq d1 ctx n { subq d1 ctx n with waiting := false }) (.queue ctx n)) ctx n

/-- A doorbell write before full function is dropped and counted (R465). (DEDUCED: notes/assumptions/62) -/
def doorbell (d : Dev) (f : Dev) : Dev := if fullFn d then f else countLinkErr d

/-- QDOOR_WRITE (R36). -/
def execQdoorWrite (ctx n : Nat) (v : DWord) (s : State) : Host.Outcome State Fault Refusal :=
  s.run fun m d => doorbell d (writeQdoor m d ctx n v)

/-- TRIGGER_WRITE (R30, R181). -/
def execTriggerWrite (ctx n : Nat) (v : DWord) (s : State) : Host.Outcome State Fault Refusal :=
  s.run fun _ d => doorbell d (writeTrig d ctx n v)

/-- QCFG_WRITE (R36). -/
def execQcfgWrite (ctx n : Nat) (hi : Bool) (v : DWord) (s : State) : Host.Outcome State Fault Refusal :=
  s.run fun m d => doorbell d (writeQcfg m d ctx n hi v)

/-! ## Registers of a context (R328) -/

/-- A refused write: nothing but LINKERR changes (R476). -/
def State.refuse (s : State) : State := { s with dev := countLinkErr s.dev }

/-- A context's registers changed. -/
def State.withCtx (s : State) (c : Nat) (f : Ctx → Ctx) : State := { s with mgmt := setCtx s.mgmt c (f (ctxOf s.mgmt c)) }

/-- Waiting work offered again, since a register it depends on has changed (R39, R42, R184). -/
def State.retry (s : State) : State := { s with dev := retryDispatch s.mgmt s.dev }

/-- Whether a context has work (R329). -/
def hasWorkIn (d : Dev) (ctx : Nat) : Bool :=
  d.launches.any (fun l => l.ctx == ctx) || d.runs.any (fun r => r.ctx == ctx) || d.groups.any (fun g => g.ctx == ctx) ||
    d.spools.any (fun e => e.1 / 4 == ctx && decide (e.2.pop < e.2.push)) ||
    d.records.any (fun r => r.ctx == ctx && r.hand) || d.tilers.any (fun e => e.2.ctx == ctx)

/-- DETCTL (R329): changed only while the context has no work. -/
def writeDetctl (s : State) (ctx : Nat) (v : DWord) : State :=
  if !clearAt v 1 63 then s.refuse
  else if v == (ctxOf s.mgmt ctx).detctl then s
  else if hasWorkIn s.dev ctx then s.refuse
  else s.withCtx ctx fun c => { c with detctl := v }

/-- Whether a context permits some spindle, of a die or of any. -/
def permitsOn (m : Mgmt) (ctx die : Nat) : Bool := (List.range 48).any fun i => partBit m ctx die i
def permitsAny (m : Mgmt) (ctx : Nat) : Bool := (List.range 16).any fun die => permitsOn m ctx die

/-- Whether two contexts have a spindle in common. -/
def shareSpindle (m : Mgmt) (a b : Nat) : Bool :=
  (List.range 16).any fun die => (List.range 48).any fun i => partBit m a die i && partBit m b die i

/-- Whether a partition, as a write would leave it, is refused (R49). (DESIGN CHOICE: notes/assumptions/61) -/
def partitionBad (m : Mgmt) (d : Dev) (ctx die : Nat) (v : DWord) : Bool :=
  let clash := exclusive m ctx && (List.range 64).any fun c => c != ctx && exclusive m c && shareSpindle m ctx c
  let held := (d.groups.filter fun g => g.ctx == ctx).any fun g => !permitsOn m ctx g.die
  let pass := d.tilers.any fun e => e.2.ctx == ctx && !permitsOn m ctx e.1
  !clearAt v 48 15 || (die != 0 && v.getLsbD 63) || clash || !permitsAny m ctx || held || pass

/-- A partition register (R49). -/
def writePart (s : State) (ctx die : Nat) (v : DWord) : State :=
  let s1 := s.withCtx ctx fun c => { c with part := c.part.setIfInBounds die v }
  if partitionBad s1.mgmt s.dev ctx die v then s.refuse
  else { s1 with dev := retryDispatch s1.mgmt (evictForbidden s1.mgmt s1.dev) }

/-- PTBASE (R184): two enabled contexts never have one ASID; work of a context that was not enabled may go on, that of the engines as
well. -/
def writePtbase (s : State) (ctx : Nat) (v : DWord) : State :=
  let taken := v.getLsbD 0 && (List.range 64).any fun c => c != ctx && ctxEnabled s.mgmt c && ctxAsid s.mgmt c == bitsOf v 48 16
  if !clearAt v 41 7 || !clearAt v 1 11 || taken then s.refuse
  else
    let s1 := (s.withCtx ctx fun c => { c with ptbase := v }).retry
    if v.getLsbD 0 then { s1 with dev := retryEngines s1.dev ctx } else s1

/-- A value checked, then stored. -/
def writeIf (s : State) (ctx : Nat) (ok : Bool) (f : Ctx → Ctx) : State := if ok then s.withCtx ctx f else s.refuse

/-- A log2 slot count of FAULTQ or RING (R445, R457). -/
def logOk (v : DWord) : Bool := let k := bitsOf v 0 5; k == 0 || (decide (6 ≤ k) && decide (k ≤ 16))

/-- A word of a context's block of management registers; offsets without a register ignore writes.
(DESIGN CHOICE: notes/assumptions/61) -/
def writeCtxReg (s : State) (ctx off : Nat) (v : DWord) : State :=
  match off with
  | 0x00 => writePtbase s ctx v
  | 0x08 => if clearAt v 2 62 then (s.withCtx ctx fun c => { c with ctxclass := v }).retry else s.refuse
  | 0x10 => writeIf s ctx (decide (16 ≤ v.toNat) && decide (v.toNat ≤ 30)) fun c => { c with quantum := v }
  | 0x18 => s.withCtx ctx fun c => { c with nlt := c.nlt.extractLsb' 64 64 ++ v }
  | 0x20 => s.withCtx ctx fun c => { c with nlt := v ++ c.nlt.extractLsb' 0 64 }
  | 0x28 => s.withCtx ctx fun c => { c with pinquota := v }
  | 0x30 => writeIf s ctx (clearAt v 32 32) fun c => { c with watchdog := v }
  | 0x38 => s.withCtx ctx fun c => { c with sigwin := v }
  | 0x40 => s.withCtx ctx fun c => { c with termt := v }
  | 0x48 => writeIf s ctx (logOk v && clearAt v 5 5 && bitsOf v 10 2 != 3) fun c => { c with faultq := v }
  | 0x50 => writeIf s ctx (logOk v && clearAt v 5 7) fun c => { c with ring := v }
  | 0x58 => writeDetctl s ctx v
  | 0x60 => writeIf s ctx (clearAt v 0 22) fun c => { c with reeltab := v }
  | _ => if 0x80 ≤ off ∧ off < 0x100 ∧ off % 8 = 0 then writePart s ctx ((off - 0x80) / 8) v else s

/-- SPOOLCFGn (R35). -/
def writeSpoolcfg (s : State) (ctx n : Nat) (v : DWord) : State :=
  let k := bitsOf v 0 5
  writeIf s ctx (clearAt v 5 7 && decide (4 ≤ k) && decide (k ≤ 20)) fun c => { c with spoolcfg := c.spoolcfg.setIfInBounds n v }

/-! ## Other management registers -/

/-- The parts of a memory-management command (R191). -/
def mmKind (c : BitVec 256) : Nat := bitsOf c 0 8
def mmCtx (c : BitVec 256) : Nat := bitsOf c 8 6
def mmCount (c : BitVec 256) : Nat := bitsOf c 32 32
def mmAddr (c : BitVec 256) : Nat := bitsOf c 64 64
def mmDest (c : BitVec 256) : Nat := bitsOf c 128 64
def mmDone (c : BitVec 256) : Nat := bitsOf c 192 64

/-- Whether a command is malformed. (DEDUCED: notes/assumptions/59) -/
def mmBad (c : BitVec 256) : Bool :=
  bitsOf c 14 18 != 0 || mmDone c % 8 != 0 ||
    match mmKind c with
    | 1 => mmDest c != 0 || mmAddr c % 4096 != 0
    | 2 => mmDest c % 8 != 0 || mmAddr c % 2 ^ 18 != 0 || mmCtx c != 0 || mmCount c == 0 || mmCount c % 64 != 0
    | _ => true

/-- A command begun: by its kind, or refused at once when it is malformed. -/
def mmBegin (d : Dev) (c : BitVec 256) : Dev :=
  post d (if mmBad c then .mmcmdDone c false else if mmKind c = 1 then .xinv c else .harvest c)

/-- A word of MMCMD; the last one hands the command over (R328). -/
def writeMmcmd (d : Dev) (i : Nat) (v : DWord) : Dev :=
  let old := d.mmcmd.toNat
  let c := BitVec.ofNat 256 (old - bitsOf d.mmcmd (64 * i) 64 * 2 ^ (64 * i) + v.toNat * 2 ^ (64 * i))
  let d1 := { d with mmcmd := c }
  if i = 3 then (if d1.mmq.isEmpty then mmBegin { d1 with mmq := [c] } c else { d1 with mmq := d1.mmq ++ [c] }) else d1

/-- LINKERR (R328). -/
def clearLinkerr (d : Dev) : Dev := { d with linkErr := 0 }

/-- DIECAP (R475). -/
def writeDiecap (d : Dev) (die : Nat) (v : DWord) : Dev :=
  if clearAt v 16 48 then { d with diecap := d.diecap.setIfInBounds die v } else countLinkErr d

/-- The command a write of MBCMD starts (R471, R472). -/
def mbEvent (v : DWord) : Instr :=
  match bitsOf v 0 8 with
  | 1 => .image v
  | 2 => .attest v
  | 3 => .identity v
  | 4 => .readlog v
  | 5 => .clearlog v
  | 6 => .streamtab v
  | 7 => .streamstart v
  | 8 => .streamstop v
  | _ => .mailboxComplete 3 0 0

/-- MBCMD (R471): dropped while a command runs. (DESIGN CHOICE: notes/assumptions/70) -/
def writeMbcmd (d : Dev) (v : DWord) : Dev :=
  if bitsOf d.mbstat 0 8 = 1 || 2048 < bitsOf v 16 16 then countLinkErr d
  else post { d with mbcmd := v, mbstat := BitVec.ofNat 64 (1 + 256 * bitsOf v 8 8) } (mbEvent v)

/-- A write of BAR0; one that is no aligned word of 8 bytes is ignored. (DEDUCED: notes/assumptions/62) -/
def writeBar0 (s : State) (off bytes : Nat) (v : DWord) : State :=
  let dev (d : Dev) : State := { s with dev := d }
  if off % 8 != 0 || bytes != 8 then s
  else if off < 0x20 then dev (writeMmcmd s.dev (off / 8) v)
  else if off = 0x20 then dev (clearLinkerr s.dev)
  else if 0x100 ≤ off ∧ off < 0x180 then dev (writeDiecap s.dev ((off - 0x100) / 8) v)
  else if off = 0x1000 then dev (writeMbcmd s.dev v)
  else if 0x1800 ≤ off ∧ off < 0x2000 then dev { s.dev with mbdata := tset s.dev.mbdata ((off - 0x1800) / 8) v }
  else if 0x10000 ≤ off ∧ off < 0x20000 then writeCtxReg s ((off - 0x10000) / 0x400) (off % 0x400) v
  else s

/-- A write of BAR2 (R327, R35), which must be one aligned word of 8 bytes; CTXCLASS and QUANTUM ignore writes here.
(DEDUCED: notes/assumptions/62) -/
def writeBar2 (s : State) (off bytes : Nat) (v : DWord) : State :=
  let ctx := off / 4096
  let o := off % 4096
  let dev (d : Dev) : State := { s with dev := d }
  if off % 8 != 0 || bytes != 8 || !fullFn s.dev then s.refuse
  else if 64 ≤ ctx then s
  else if o < 0x100 then dev (writeQdoor s.mgmt s.dev ctx (o / 8) v)
  else if o < 0x180 then dev (writeTrig s.dev ctx ((o - 0x100) / 8) v)
  else if 0x200 ≤ o ∧ o < 0x400 then dev (writeQcfg s.mgmt s.dev ctx ((o - 0x200) / 16) (o / 8 % 2 == 1) v)
  else if 0x400 ≤ o ∧ o < 0x420 then writeSpoolcfg s ctx ((o - 0x400) / 8) v
  else s

/-- REGISTER_WRITE (R327, R328, R476). (DEDUCED: notes/assumptions/62) -/
def execRegisterWrite (bar : Bar) (p : RegAt) (v : DWord) (s : State) : Host.Outcome State Fault Refusal :=
  .next (match bar with | .bar0 => writeBar0 s p.off p.bytes v | .bar2 => writeBar2 s p.off p.bytes v)

/-- LINKERR_WRITE (R328). -/
def execLinkerrWrite (_ : DWord) (s : State) : Host.Outcome State Fault Refusal := s.run fun _ d => clearLinkerr d

/-- DETCTL_WRITE (R329). -/
def execDetctlWrite (ctx : Nat) (v : DWord) (s : State) : Host.Outcome State Fault Refusal := .next (writeDetctl s ctx v)

/-- PARTITION_WRITE (R49). -/
def execPartitionWrite (ctx die : Nat) (v : DWord) (s : State) : Host.Outcome State Fault Refusal :=
  .next (writePart s ctx die v)

/-- DIECAP_WRITE (R475). -/
def execDiecapWrite (die : Nat) (v : DWord) (s : State) : Host.Outcome State Fault Refusal :=
  s.run fun _ d => writeDiecap d die v

/-! ## Memory-management commands (R191, R192, R210) -/

/-- Whether a page that starts at an address, of a size, meets a command's range. -/
def mmMeets (c : BitVec 256) (va size : Nat) : Bool :=
  mmCount c == 0 || (decide (va < mmAddr c % 2 ^ 48 + 4096 * mmCount c) && decide (mmAddr c % 2 ^ 48 < va + size))

/-- The L1 lines of a command's range written back and dropped; a pinned or locked one stays and takes fresh permissions. -/
def xinvLines (m : Mgmt) (d : Dev) (cmd : BitVec 256) : MemM Dev :=
  let ctx := mmCtx cmd
  let hit (l : L1Line) : Bool := l.asid == ctxAsid m ctx && mmMeets cmd (128 * l.va) 128
  (d.l1.filter hit).foldlM (fun d l =>
    (writeBackLine m d ctx l.spindle l.pa).map fun d1 =>
      if l.pin || l.lock then modL1 d1 l.spindle l.pa fun l => { l with stale := true }
      else
        let d2 := dropLine d1 l.spindle l.pa
        if l.home && !l.queued then dirDel d2 l.spindle l.pa else d2) d

/-- The device without a command's translations; lines that no replicable mapping names any more have no past contents (R203). -/
def xinvTlbs (m : Mgmt) (d : Dev) (cmd : BitVec 256) : Dev :=
  let d1 : Dev :=
    { d with
      tlb := d.tlb.filter fun t => !(t.asid == ctxAsid m (mmCtx cmd) && mmMeets cmd t.va t.leaf.size) }
  pruneRp d1

/-- XINV (R192): translations of the range go, L1 lines of it are written back and invalidated; pinned and locked ones take fresh
permissions at their next access. -/
def execXinv (cmd : BitVec 256) (s : State) : Host.Outcome State Fault Refusal :=
  s.run fun m d =>
    memEvent d (.xinv cmd) ((xinvLines m d cmd).map fun d1 => post (xinvTlbs m d1 cmd) (.mmcmdDone cmd true))

/-- A write at system level to a physical address; one that lands nowhere is lost. (DEDUCED: notes/assumptions/59) -/
def physWrite (m : Mgmt) (d : Dev) (pa n x : Nat) : MemM Dev :=
  if isDevice pa || isHost pa || isPeer pa then writeSlice m 0 d none (pa / 128) (byteMask (pa % 128) n) (atByte (pa % 128) x) false
  else .ok d

/-- The written bits of a command's 64 pages number `i`, copied and cleared. -/
def harvestGroup (m : Mgmt) (cmd : BitVec 256) (d : Dev) (i : Nat) : MemM Dev :=
  let page := mmAddr cmd / 4096 + 64 * i
  let x := (List.range 64).foldl (fun n b => if tget d.written (page + b) false then n + 2 ^ b else n) 0
  physWrite m { d with written := d.written.filter fun e => !(decide (page ≤ e.1) && decide (e.1 < page + 64)) } (mmDest cmd + 8 * i) 8 x

/-- HARVEST (R210): the written bits of COUNT pages copied and cleared, 64 at a time. -/
def execHarvest (cmd : BitVec 256) (s : State) : Host.Outcome State Fault Refusal :=
  s.run fun m d =>
    match ((List.range (mmCount cmd / 64)).foldlM (harvestGroup m cmd) d : MemM Dev) with
    | .ok d1 => post d1 (.mmcmdDone cmd true)
    | .error (.need n) => defer d n (.harvest cmd)
    | .error _ => post d (.mmcmdDone cmd false)

/-- MMCMD_DONE (R191): 1, or 2 for a malformed command, written to DONE at system scope; the next command begins.
(DEDUCED: notes/assumptions/59) -/
def execMmcmdDone (cmd : BitVec 256) (ok : Bool) (s : State) : Host.Outcome State Fault Refusal :=
  s.run fun m d =>
    let next (d : Dev) : Dev :=
      let d1 := { d with mmq := d.mmq.tail }
      match d1.mmq with
      | c :: _ => mmBegin d1 c
      | [] => d1
    if mmDone cmd % 8 != 0 then next d
    else
      match physWrite m d (mmDone cmd) 8 (if ok then 1 else 2) with
      | .ok d1 => next d1
      | .error (.need n) => defer d n (.mmcmdDone cmd ok)
      | .error _ => next d

end Sys2Proof.Machine
end

