-- ==== Sys2Proof/Machine/Egress.lean ====
section
/-!
DEFINITION. The egress engines: streams, deadlines and emission (R40, R389 to R392, R473).
-/

namespace Sys2Proof.Machine

/-! ## Stream records (R389) -/

def srStat (r : BitVec 512) : DWord := r.extractLsb' 448 64
def srCons (r : BitVec 512) : DWord := r.extractLsb' 384 64
def srRing (r : BitVec 512) : DWord := r.extractLsb' 320 64
def srPeriod (r : BitVec 512) : Nat := bitsOf r 288 32
def srRows (r : BitVec 512) : Nat := bitsOf r 272 16
def srLead (r : BitVec 512) : Nat := bitsOf r 264 8
def srLog (r : BitVec 512) : Nat := bitsOf r 256 8
def srQueue (r : BitVec 512) : Nat := bitsOf r 248 8
def srCtx (r : BitVec 512) : Nat := bitsOf r 240 8

/-- Whether a record cannot start a stream (R473). -/
def srBad (m : Mgmt) (r : BitVec 512) : Bool :=
  !r.getLsbD 0 || bitsOf r 1 239 != 0 || decide (63 < srCtx r) || decide (31 < srQueue r) || decide (srLog r < 16) ||
    decide (30 < srLog r) || srRows r == 0 || decide (512 < srRows r) || decide (srPeriod r < 16) || (srRing r).toNat % 4096 != 0 ||
    (srCons r).toNat % 8 != 0 || (srStat r).toNat % 8 != 0 || !ctxEnabled m (srCtx r)

/-- The frame period and the time of a paced tile row, in cycles of the engine (R390). -/
def frameLen (r : BitVec 512) : Nat := srPeriod r * 1024
def lineLen (r : BitVec 512) : Nat := frameLen r / max (srRows r) 1

/-- A stream of a die, and the device with it changed. -/
def stream? (d : Dev) (die n : Nat) : Option Stream := tget? d.streams (streamKey die n)
def setStream (d : Dev) (die n : Nat) (x : Stream) : Dev := { d with streams := tset d.streams (streamKey die n) x }

/-- The next frame-due event of a stream from a cycle on: the first one before a deadline that is still to come. -/
def dueAfter (r : BitVec 512) (started now : Nat) : Nat :=
  let lead := srLead r * lineLen r
  let p := frameLen r
  started + (((now - started + lead) / p + 1) * p - lead) - now

/-- The first frame-due event of a stream: the first that is not past when it starts. -/
def firstDue (r : BitVec 512) : Nat :=
  let lead := srLead r * lineLen r
  let p := frameLen r
  max ((lead + p - 1) / p) 1 * p - lead

/-- An event after some cycles of a die, at once when there are none. -/
def postIn (d : Dev) (die n : Nat) (e : Instr) : Dev := if n = 0 then post d e else postAfter d (.die die) n e

/-- A stream that starts: its first deadline and frame-due event. -/
def startStream (d : Dev) (die n : Nat) (r : BitVec 512) : Dev :=
  let now := cyclesOf d die
  let x : Stream :=
    { record := r, ctx := srCtx r, started := now, frame := 0, queue := [], emitting := none, began := 0, owed := 0, produced := 0,
      frames := 0, missed := 0, last := 0, stopping := false }
  postIn (postAfter (setStream d die n x) (.die die) (frameLen r) (.frameDeadline die n)) die (firstDue r) (.frameDue die n)

/-- A stream gone: its events go, SEALs parked on its queue queue nothing, a STREAMSTOP that waits is done (R473). -/
def endStream (d : Dev) (die n : Nat) : Dev :=
  let mine (e : Instr) : Bool := e == .frameDue die n || e == .frameDeadline die n || e == .tileRowEmit die n
  let here (p : Park) : Bool := match p with | .egress a b => a == die && b == n | _ => false
  let free := (d.skeins.filter fun k => (k.park.map here).getD false).map fun k => k.uid
  let x := stream? d die n
  let d1 : Dev :=
    { wakeAll d here with
      streams := tdel d.streams (streamKey die n), timers := d.timers.filter fun t => !mine t.ev,
      agenda := d.agenda.filter fun v => !mine v, deferred := d.deferred.filter fun e => !mine e.2, sealOnly := d.sealOnly ++ free }
  match x with
  | some st => pokeSeals (if st.stopping then post d1 (.mailboxComplete 2 (BitVec.ofNat 32 st.frames) 0) else d1)
  | none => d1

/-- A room in an input queue has come free: SEALs that wait for it go on (R390). -/
def roomFree (d : Dev) (die n : Nat) : Dev :=
  pokeSeals (wakeAll d fun p => match p with | .egress a b => a == die && b == n | _ => false)

/-! ## The ring (R392) -/

/-- A stream whose own access fails stops with a record (R473). -/
def failStream (m : Mgmt) (d : Dev) (die n : Nat) (e : DistErr) (addr : DWord) : Dev :=
  match stream? d die n with
  | some x => endStream (distRecord m d x.ctx e addr 0) die n
  | none => d

/-- What a step of an egress engine comes to: `full` when the ring has no room yet. -/
inductive Egr where
  | ok (d : Dev)
  | full
  | bad (e : DistErr) (addr : DWord)
  | wait (n : Need)

/-- An access followed by more. -/
def Egr.then (addr : DWord) (x : Dist Dev) (f : Dev → Egr) : Egr :=
  match x with
  | .ok d => f d
  | .bad e => .bad e addr
  | .wait n => .wait n

/-- Bytes written into a stream's ring when it has room for them. (DEDUCED: notes/assumptions/32) -/
def ringBytes (m : Mgmt) (d : Dev) (die n : Nat) (x : Stream) (bytes : List Byte) (f : Dev → Stream → Egr) : Egr :=
  let r := x.record
  let size := 2 ^ srLog r
  match distRead m d x.ctx (srCons r) 8 8 with
  | .wait w => .wait w
  | .bad e => .bad e (srCons r)
  | .ok (cons, d1) =>
    if size + cons < x.produced + bytes.length then .full
    else
      let o := x.produced % size
      let a := bytes.take (size - o)
      let b := bytes.drop (size - o)
      let x1 := { x with produced := x.produced + bytes.length }
      let p := srRing r + BitVec.ofNat 64 o
      let put (d : Dev) (p : DWord) (l : List Byte) : Dist Dev :=
        if l.isEmpty then .ok d else distWrite m d x.ctx p l.length 1 (bytesNat l)
      Egr.then p (put d1 p a) fun d2 => Egr.then (srRing r) (put d2 (srRing r) b) fun d3 => f (setStream d3 die n x1) x1

/-- The status area written (R392). -/
def writeStat (m : Mgmt) (d : Dev) (x : Stream) : Egr :=
  let v := x.produced % 2 ^ 64 + x.frames % 2 ^ 64 * 2 ^ 64 + x.missed % 2 ^ 64 * 2 ^ 128 + x.last.toNat * 2 ^ 192
  Egr.then (srStat x.record) (distWrite m d x.ctx (srStat x.record) 32 8 v) .ok

/-! ## Tiles (R391) -/

/-- The bytes of a tile: its header, then each block's code with its length. -/
def tileEmit (m : Mgmt) (d : Dev) (ctx : Nat) (s : Surf) (t : Nat) : SurfM (List Byte) :=
  match readHdr m d ctx s t, surfRead m d ctx (s.hdrAt t) 16 1 with
  | .error e, _ => .error e
  | _, .error e => .error e
  | .ok _, .ok h =>
    let block (b : Nat) : SurfM (List Byte) :=
      match readSlot m d ctx s t (b / 16) (b % 16), slotRead m d ctx s t (b / 16) (b % 16) with
      | .ok (_, _, n), .ok x => .ok (natBytes n 2 ++ natBytes x ((n + 7) / 8))
      | .error e, _ => .error e
      | _, .error e => .error e
    ((List.range (16 * s.comps)).mapM block).map fun bs => natBytes h 16 ++ bs.flatten

/-- Kinds of framing bytes: before a frame, after it, a skipped frame, an error. -/
def fmBegin : Nat := 0
def fmEnd : Nat := 1
def fmSkip : Nat := 2
def fmError : Nat := 3

/-- A frame that cannot be decoded is stopped: the format's error record, the status, a record. (DEDUCED: notes/assumptions/32) -/
def frameError (m : Mgmt) (d : Dev) (die n : Nat) (x : Stream) (b : Bad) : Egr :=
  ringBytes m d die n { x with emitting := none } (Config.streamFraming fmError x.frame) fun d1 x1 =>
    writeStat m (takeDeviceFault m d1 x.ctx b.cause b.sub b.addr 0) x1

/-- A frame's next tile emitted, the last one with the frame's closing bytes and the status (R391, R392).
(DEDUCED: notes/assumptions/32) -/
def emitTile (m : Mgmt) (d : Dev) (die n : Nat) (x : Stream) (e : Emission) (s : Surf) (bytes : List Byte) : Egr :=
  let d0 := noteTile m d x.ctx s (s.tileNo e.col e.row)
  let next := if s.tilesX ≤ e.col + 1 then { e with row := e.row + 1, col := 0 } else { e with col := e.col + 1 }
  if s.tilesY ≤ next.row then
    ringBytes m d0 die n { x with emitting := none, frames := x.frames + 1, last := e.desc }
      (bytes ++ Config.streamFraming fmEnd x.frame) fun d1 x1 => writeStat m d1 x1
  else ringBytes m d0 die n { x with emitting := some next } bytes fun d1 _ => .ok d1

/-- The next thing a stream emits: a skipped-frame record that is owed, the opening bytes of a frame, else its next tile.
(DEDUCED: notes/assumptions/32) -/
def emitNext (m : Mgmt) (d : Dev) (die n : Nat) (x : Stream) : Egr :=
  if 0 < x.owed then
    ringBytes m d die n { x with owed := x.owed - 1 } (Config.streamFraming fmSkip x.missed) fun d1 x1 => writeStat m d1 x1
  else
    match x.emitting with
    | none => .ok d
    | some f =>
      let fail (e : SurfErr) : Egr :=
        match e with
        | .need w => .wait w
        | .bad b => frameError m d die n x b
        | .badAt b _ _ => frameError m d die n x b
      if !f.opened then
        ringBytes m d die n { x with emitting := some { f with opened := true } } (Config.streamFraming fmBegin x.frame)
          fun d1 _ => .ok d1
      else
        match readSurf m d x.ctx (slotDesc m d x.ctx) f.desc with
        | .error e => fail e
        | .ok s =>
          match tileEmit m d x.ctx s (s.tileNo f.col f.row) with
          | .error e => fail e
          | .ok bytes => emitTile m d die n x f s bytes

/-- When a stream's next emission is due, from now: at once, or when its paced row is. -/
def nextEmit (d : Dev) (die : Nat) (x : Stream) : Option Nat :=
  if 0 < x.owed then some 0
  else x.emitting.map fun e => if e.row < srRows x.record then x.began + e.row * lineLen x.record - cyclesOf d die else 0

/-- What follows an emission: the next one, or the end of a stream that stops. -/
def afterEmit (m : Mgmt) (d : Dev) (die n : Nat) : Dev :=
  match stream? d die n with
  | none => d
  | some x =>
    match nextEmit d die x with
    | some 0 => postNew d (.tileRowEmit die n)
    | some k => postAfter d (.die die) k (.tileRowEmit die n)
    | none =>
      if !x.stopping then d
      else
        match writeStat m d x with
        | .ok d1 => endStream d1 die n
        | .bad e a => failStream m d die n e a
        | .wait w => defer d w (.tileRowEmit die n)
        | .full => d

/-- TILE_ROW_EMIT (R391, R392): one emission, of a tile of the row at a time, when it is due and the ring has
room; else it is tried again a cycle later. (DEDUCED: notes/assumptions/32) -/
def execTileRowEmit (die stream : Nat) (s : State) : Host.Outcome State Fault Refusal :=
  s.run fun m d =>
    match stream? d die stream with
    | none => d
    | some x =>
      match nextEmit d die x with
      | some 0 =>
        match emitNext m d die stream x with
        | .ok d1 => afterEmit m d1 die stream
        | .full => postAfter d (.die die) 1 (.tileRowEmit die stream)
        | .bad e a => failStream m d die stream e a
        | .wait w => defer d w (.tileRowEmit die stream)
      | _ => afterEmit m d die stream

/-- FRAME_DEADLINE (R390): the oldest queued surface begins to be emitted, or the frame is missed. -/
def execFrameDeadline (die stream : Nat) (s : State) : Host.Outcome State Fault Refusal :=
  s.run fun _ d =>
    match stream? d die stream with
    | none => d
    | some x =>
      let d1 := postAfter d (.die die) (frameLen x.record) (.frameDeadline die stream)
      let y := { x with frame := x.frame + 1 }
      if x.stopping then d
      else
        match x.emitting, x.queue with
        | none, p :: r =>
          let z := { y with emitting := some { desc := p, row := 0, col := 0, opened := false }, began := cyclesOf d die, queue := r }
          postNew (roomFree (setStream d1 die stream z) die stream) (.tileRowEmit die stream)
        | _, _ => postNew (setStream d1 die stream { y with missed := x.missed + 1, owed := x.owed + 1 }) (.tileRowEmit die stream)

/-- FRAME_DUE (R40, R390): from now on the composition queue has class 0, until the launch at its head completes; without one, until
the first launch accepted after this completes. -/
def execFrameDue (die stream : Nat) (s : State) : Host.Outcome State Fault Refusal :=
  s.run fun m d =>
    match stream? d die stream with
    | none => d
    | some x =>
      let now := cyclesOf d die
      let d1 := postAfter d (.die die) (dueAfter x.record x.started now) (.frameDue die stream)
      let q := srQueue x.record
      if framed d x.ctx q then d1
      else
        let head := ((launchesOf d (.queue x.ctx q)).head?).map fun l => l.id
        retryDispatch m { d1 with frameDue := d1.frameDue ++ [(x.ctx, q, head)] }

end Sys2Proof.Machine
end

