-- ==== Sys2Proof/Machine/Float.lean ====
section
/-!
DEFINITION. The lane floating-point instructions (R128 to R135) and FSETP (R122).
-/

namespace Sys2Proof.Machine

/-- FADD (R129). -/
def execFadd (o : Lr) (s : State) : Host.Outcome State Fault Refusal :=
  s.run fun m d =>
    let ty := (lrXm o 4).ty
    laneAlu m d (hdF ty (hdAB false o 4)) (fltLat ty latAlu) fun _ => fltBin faddVal (curSkein d) o

/-- FMUL (R129). -/
def execFmul (o : Lr) (s : State) : Host.Outcome State Fault Refusal :=
  s.run fun m d =>
    let ty := (lrXm o 4).ty
    laneAlu m d (hdF ty (hdAB false o 4)) (fltLat ty latAlu) fun _ => fltBin fmulVal (curSkein d) o

/-- FFMA (R129). -/
def execFfma (o : Lr) (s : State) : Host.Outcome State Fault Refusal :=
  s.run fun m d =>
    let ty := (lrXm o 4).ty
    laneAlu m d (hdF ty (hdABC false o 4)) (fltLat ty latAlu) fun _ => fltMad (curSkein d) o

/-- FMIN (R130). -/
def execFmin (o : Lr) (s : State) : Host.Outcome State Fault Refusal :=
  s.run fun m d =>
    let ty := (lrXm o 4).ty
    laneAlu m d (hdF ty (hdAB false o 4)) (fltLat ty latAlu) fun _ => fltMinMax false (curSkein d) o

/-- FMAX (R130). -/
def execFmax (o : Lr) (s : State) : Host.Outcome State Fault Refusal :=
  s.run fun m d =>
    let ty := (lrXm o 4).ty
    laneAlu m d (hdF ty (hdAB false o 4)) (fltLat ty latAlu) fun _ => fltMinMax true (curSkein d) o

/-- FSETP (R122). -/
def execFsetp (o : Lp) (s : State) : Host.Outcome State Fault Refusal :=
  s.run fun m d =>
    let ty := (lpXm o 4).ty
    laneAlu m d (hdF ty (hdCmp false o 4)) (fltLat ty latAlu) fun l rd _ =>
      let r := fltCmp (curSkein d) o rd
      (predRes l o.pd r.1, if o.f then 0 else r.2)

/-- FDIV (R131). -/
def execFdiv (o : Lr) (s : State) : Host.Outcome State Fault Refusal :=
  s.run fun m d =>
    let ty := (lrXm o 4).ty
    laneAlu m d (hdF ty (hdAB false o 4)) latLong fun _ => fltBin fdivVal (curSkein d) o

/-- RCP (R131). -/
def execRcp (o : Lr) (s : State) : Host.Outcome State Fault Refusal :=
  s.run fun m d =>
    let ty := (lrXm o 4).ty
    laneAlu m d (hdF ty (hdA false o 4)) latLong fun _ => fltUn frcpVal (curSkein d) o

/-- RSQ (R131). -/
def execRsq (o : Lr) (s : State) : Host.Outcome State Fault Refusal :=
  s.run fun m d =>
    let ty := (lrXm o 4).ty
    laneAlu m d (hdF ty (hdA false o 4)) latLong fun _ => fltUn frsqVal (curSkein d) o

/-- SQRT (R131). -/
def execSqrt (o : Lr) (s : State) : Host.Outcome State Fault Refusal :=
  s.run fun m d =>
    let ty := (lrXm o 4).ty
    laneAlu m d (hdF ty (hdA false o 4)) latLong fun _ => fltUn fsqrtVal (curSkein d) o

/-- EX2 (R131). -/
def execEx2 (o : Lr) (s : State) : Host.Outcome State Fault Refusal :=
  s.run fun m d =>
    let ty := (lrXm o 4).ty
    laneAlu m d (hdF ty (hdA false o 4)) latLong fun _ => fltUn fex2Val (curSkein d) o

/-- LG2 (R131). -/
def execLg2 (o : Lr) (s : State) : Host.Outcome State Fault Refusal :=
  s.run fun m d =>
    let ty := (lrXm o 4).ty
    laneAlu m d (hdF ty (hdA false o 4)) latLong fun _ => fltUn flg2Val (curSkein d) o

/-- SINPI (R131). -/
def execSinpi (o : Lr) (s : State) : Host.Outcome State Fault Refusal :=
  s.run fun m d =>
    let ty := (lrXm o 4).ty
    laneAlu m d (hdF ty (hdA false o 4)) latLong fun _ => fltUn (fun k env a => fsinpiVal k env false a) (curSkein d) o

/-- COSPI (R131). -/
def execCospi (o : Lr) (s : State) : Host.Outcome State Fault Refusal :=
  s.run fun m d =>
    let ty := (lrXm o 4).ty
    laneAlu m d (hdF ty (hdA false o 4)) latLong fun _ => fltUn (fun k env a => fsinpiVal k env true a) (curSkein d) o

/-- FRND (R132). -/
def execFrnd (o : Lr) (s : State) : Host.Outcome State Fault Refusal :=
  s.run fun m d =>
    let ty := (lrXm o 4).ty
    laneAlu m d (hdF ty (hdA false o 4)) (fltLat ty latAlu) fun _ => fltUn ffrndVal (curSkein d) o

/-- FCLASS (R133): a mask of one register. -/
def execFclass (o : Lr) (s : State) : Host.Outcome State Fault Refusal :=
  s.run fun m d =>
    let ty := (lrXm o 4).ty
    laneInt m d (hdF ty (hdA false o 4)) (fltLat ty latAlu) fun rd wr =>
      res1 wr o.d (fclassOf (fmtOf ty) (patOf rd o.a ty))

/-- FSCALE (R134). -/
def execFscale (o : Lr) (s : State) : Host.Outcome State Fault Refusal :=
  s.run fun m d =>
    let ty := (lrXm o 4).ty
    laneAlu m d (hdF ty (hdAB1 false o 4)) (fltLat ty latAlu) fun _ => fltScale (curSkein d) o

/-- FDOT2 (R135). -/
def execFdot2 (o : Lr) (s : State) : Host.Outcome State Fault Refusal :=
  s.run fun m d => laneAlu m d (hdABC false o 8) latAlu fun _ => fltDot2 (curSkein d) o

end Sys2Proof.Machine
end

