-- ==== Sys2Proof/Machine/Integer.lean ====
section
/-!
DEFINITION. The lane integer and bit instructions (R112 to R121).
-/

namespace Sys2Proof.Machine

/-- IADD (R114). -/
def execIadd (o : Lr) (s : State) : Host.Outcome State Fault Refusal :=
  s.run fun m d => laneInt m d (hdAB false o 0) latAlu (intBin (· + ·) o)

/-- ISUB (R114). -/
def execIsub (o : Lr) (s : State) : Host.Outcome State Fault Refusal :=
  s.run fun m d => laneInt m d (hdAB false o 0) latAlu (intBin (· - ·) o)

/-- IADDK (R113, R114). -/
def execIaddk (o : Lk) (s : State) : Host.Outcome State Fault Refusal :=
  s.run fun m d => laneInt m d (hdK false o) latAlu (intAddK o)

/-- IMUL (R114). -/
def execImul (o : Lr) (s : State) : Host.Outcome State Fault Refusal :=
  s.run fun m d => laneInt m d (hdAB false o 0) latAlu (intBin (· * ·) o)

/-- IMULH (R114). -/
def execImulh (o : Lr) (s : State) : Host.Outcome State Fault Refusal :=
  s.run fun m d => laneInt m d (hdAB false o 0) latAlu (intBin (mulHigh (lrXm o 0).ty) o)

/-- IMAD (R114). -/
def execImad (o : Lr) (s : State) : Host.Outcome State Fault Refusal :=
  s.run fun m d => laneInt m d (hdABC false o 0) latAlu (intMad o)

/-- IDIV (R115). -/
def execIdiv (o : Lr) (s : State) : Host.Outcome State Fault Refusal :=
  s.run fun m d => laneInt m d (hdAB false o 0) latLong (intDiv o)

/-- IMIN (R114). -/
def execImin (o : Lr) (s : State) : Host.Outcome State Fault Refusal :=
  s.run fun m d => laneInt m d (hdAB false o 0) latAlu (intBin min o)

/-- IMAX (R114). -/
def execImax (o : Lr) (s : State) : Host.Outcome State Fault Refusal :=
  s.run fun m d => laneInt m d (hdAB false o 0) latAlu (intBin max o)

/-- AND (R116). -/
def execAnd (o : Lr) (s : State) : Host.Outcome State Fault Refusal :=
  s.run fun m d => laneInt m d (hdAB false o 0) latAlu (bitBin (· &&& ·) o)

/-- OR (R116). -/
def execOr (o : Lr) (s : State) : Host.Outcome State Fault Refusal :=
  s.run fun m d => laneInt m d (hdAB false o 0) latAlu (bitBin (· ||| ·) o)

/-- XOR (R116). -/
def execXor (o : Lr) (s : State) : Host.Outcome State Fault Refusal :=
  s.run fun m d => laneInt m d (hdAB false o 0) latAlu (bitBin (· ^^^ ·) o)

/-- ANDN (R116). -/
def execAndn (o : Lr) (s : State) : Host.Outcome State Fault Refusal :=
  s.run fun m d => laneInt m d (hdAB false o 0) latAlu (bitBin andNot o)

/-- ANDK (R113, R116). -/
def execAndk (o : Lk) (s : State) : Host.Outcome State Fault Refusal :=
  s.run fun m d => laneInt m d (hdK false o) latAlu (bitK (· &&& ·) o)

/-- ORK (R113, R116). -/
def execOrk (o : Lk) (s : State) : Host.Outcome State Fault Refusal :=
  s.run fun m d => laneInt m d (hdK false o) latAlu (bitK (· ||| ·) o)

/-- XORK (R113, R116). -/
def execXork (o : Lk) (s : State) : Host.Outcome State Fault Refusal :=
  s.run fun m d => laneInt m d (hdK false o) latAlu (bitK (· ^^^ ·) o)

/-- SHL (R117). -/
def execShl (o : Lr) (s : State) : Host.Outcome State Fault Refusal :=
  s.run fun m d => laneInt m d (hdAB1 false o 0) latAlu (shiftR shlNat o)

/-- SHR (R117). -/
def execShr (o : Lr) (s : State) : Host.Outcome State Fault Refusal :=
  s.run fun m d => laneInt m d (hdAB1 false o 0) latAlu (shiftR shrNat o)

/-- SAR (R117). -/
def execSar (o : Lr) (s : State) : Host.Outcome State Fault Refusal :=
  s.run fun m d => laneInt m d (hdAB1 false o 0) latAlu (shiftR sarNat o)

/-- SHLK (R113, R117). -/
def execShlk (o : Lk) (s : State) : Host.Outcome State Fault Refusal :=
  s.run fun m d => laneInt m d (hdK false o) latAlu (shiftK shlNat o)

/-- SHRK (R113, R117). -/
def execShrk (o : Lk) (s : State) : Host.Outcome State Fault Refusal :=
  s.run fun m d => laneInt m d (hdK false o) latAlu (shiftK shrNat o)

/-- SARK (R113, R117). -/
def execSark (o : Lk) (s : State) : Host.Outcome State Fault Refusal :=
  s.run fun m d => laneInt m d (hdK false o) latAlu (shiftK sarNat o)

/-- POPC (R118). -/
def execPopc (o : Lr) (s : State) : Host.Outcome State Fault Refusal :=
  s.run fun m d => laneInt m d (hdA false o 0) latAlu (count1 popNat o)

/-- CLZ (R118). -/
def execClz (o : Lr) (s : State) : Host.Outcome State Fault Refusal :=
  s.run fun m d => laneInt m d (hdA false o 0) latAlu (count1 clzNat o)

/-- BREV (R118). -/
def execBrev (o : Lr) (s : State) : Host.Outcome State Fault Refusal :=
  s.run fun m d => laneInt m d (hdA false o 0) latAlu (bitRev o)

/-- BFE (R119). -/
def execBfe (o : Lr) (s : State) : Host.Outcome State Fault Refusal :=
  s.run fun m d => laneInt m d (hdAB false o 1) latAlu fun rd wr =>
    res1 wr o.d (bfeNat ((lrXm o 1).ty == 0) (rd o.a.toNat).toNat (rd o.b.toNat).toNat)

/-- BFI (R120). -/
def execBfi (o : Lr) (s : State) : Host.Outcome State Fault Refusal :=
  s.run fun m d => laneInt m d (hdABC false o 0) latAlu fun rd wr =>
    res1 wr o.d (bfiNat (rd o.a.toNat).toNat (rd o.b.toNat).toNat (rd (lrXm o 0).c.toNat).toNat)

/-- LEA (R121). -/
def execLea (o : Lr) (s : State) : Host.Outcome State Fault Refusal :=
  s.run fun m d => laneInt m d (hdAB1 false o 0) latAlu (leaRes o)

end Sys2Proof.Machine
end

