-- ==== Sys2Proof/Machine/LaneMemory.lean ====
section
/-!
DEFINITION. The lane memory instructions (R223 to R237): loads and stores of the three address spaces, atomics, prefetch,
    guard
tags, the quantising store and the staple load.
-/

namespace Sys2Proof.Machine

/-! ## Loads and stores (R226, R227) -/

/-- Where a loaded value of the instruction's type goes. -/
def loadDst (o : Lm) (l x : Nat) : List PWrite := resOf (wrV l) o.d o.xw.ty x

/-- What a store's lane writes. -/
def storeVal (d : Dev) (o : Lm) (l : Nat) : Nat := patOf (laneReader d l) o.d o.xw.ty

/-- LD (R227). -/
def execLd (o : Lm) (s : State) : Host.Outcome State Fault Refusal :=
  s.run fun m d =>
    let n := tyBytes o.xw.ty
    laneIssue m d (hdXw o (globalRds o (amOf o)) false) fun ex da =>
      loadInstr m d da n n o.xw.pol.toNat (globalAccs d o (amOf o) (disp14 o) (lanesOf ex)) (loadDst o)

/-- ST (R227). -/
def execSt (o : Lm) (s : State) : Host.Outcome State Fault Refusal :=
  s.run fun m d =>
    let n := tyBytes o.xw.ty
    laneIssue m d (hdXw o (.v o.d (tyRegs o.xw.ty) :: globalRds o (amOf o)) false) fun ex da =>
      storeInstr m d da n n o.xw.pol.toNat (globalAccs d o (amOf o) (disp14 o) (lanesOf ex)) (storeVal d o)

/-- LDB (R208, R227). -/
def execLdb (o : Lm) (s : State) : Host.Outcome State Fault Refusal :=
  s.run fun m d =>
    let n := tyBytes o.xw.ty
    laneIssue m d (hdXw o (bufferRds o (ixOf o)) false) fun ex da =>
      loadInstr m d da n n o.xw.pol.toNat (bufferAccs d o (ixOf o) (disp14 o) n false (lanesOf ex)) (loadDst o)

/-- STB (R208, R227). -/
def execStb (o : Lm) (s : State) : Host.Outcome State Fault Refusal :=
  s.run fun m d =>
    let n := tyBytes o.xw.ty
    laneIssue m d (hdXw o (.v o.d (tyRegs o.xw.ty) :: bufferRds o (ixOf o)) false) fun ex da =>
      storeInstr m d da n n o.xw.pol.toNat (bufferAccs d o (ixOf o) (disp14 o) n true (lanesOf ex)) (storeVal d o)

/-- The scratch offsets of the executing lanes. -/
def scratchOffs (d : Dev) (o : Lm) (disp : Int) (ls : List Nat) : List (Nat × Int) :=
  ls.map fun l => (l, scratchOff d o (ixOf o) disp l)

/-- LDS (R198, R227). -/
def execLds (o : Lm) (s : State) : Host.Outcome State Fault Refusal :=
  s.run fun m d =>
    let n := tyBytes o.xw.ty
    let g := curGroup d
    laneIssue m d (hdXw o (scratchRds o (ixOf o)) false) fun ex da =>
      let offs := scratchOffs d o (disp14 o) (lanesOf ex)
      match scratchFault g offs n n with
      | some f => .fault f
      | none => .done (addPend da d.cur.skein latScratch (offs.flatMap fun x => loadDst o x.1 (scratchRead g x.2.toNat n)))

/-- STS (R198, R227): the highest lane's byte remains; suppressed in run-ahead (R456). -/
def execSts (o : Lm) (s : State) : Host.Outcome State Fault Refusal :=
  s.run fun m d =>
    let n := tyBytes o.xw.ty
    let g := curGroup d
    laneIssue m d (hdXw o (.v o.d (tyRegs o.xw.ty) :: scratchRds o (ixOf o)) false) fun ex da =>
      let offs := scratchOffs d o (disp14 o) (lanesOf ex)
      match scratchFault g offs n n with
      | some f => .fault f
      | none =>
        if runsAhead d then .done da
        else .done (modGroup da g.gid fun g => offs.foldl (fun g x => scratchWrite g x.2.toNat n (storeVal d o x.1)) g)

/-! ## Atomics (R228 to R232) -/

/-- The fields an atomic reads in XW's bits [17:0] (R228). -/
def atomForm (o : Lm) : Bool := o.xw.sub.getLsbD 3
def atomOp (o : Lm) : Nat := bitsOf o.xw.sub 0 3
def atomOrd (o : Lm) : Nat := bitsOf o.xw.disp 12 2
def atomDisp (o : Lm) : Int := (o.xw.disp.extractLsb' 0 12).toInt

/-- Whether an atomic acquires or releases (R232). -/
def atomAcq (o : Lm) : Bool := atomOrd o % 2 == 1
def atomRel (o : Lm) : Bool := decide (2 ≤ atomOrd o)

/-- The new value of an atomic (R229). -/
def atomNew (op : Nat) (ty : BitVec 4) (old x x2 : Nat) : Nat :=
  let w := tyBits ty
  let f := fmtOf ty
  let flt := ty == 4 || ty == 5 || ty == 8 || ty == 9
  let i (v : Nat) : Int := readInt w (tySigned ty) v
  let el (g : Nat → Nat → Nat) : Nat := (perElement ty (fun l => (g (l.getD 0 0) (l.getD 1 0), 0)) [old, x]).1
  match op with
  | 0 => if flt then el fun a b => (faddVal f envRne (fdecode f a) (fdecode f b)).1 else (old + x) % 2 ^ w
  | 1 => if flt then el fun a b => (fminmax f envRne false a b).1 else wrapInt w (min (i old) (i x))
  | 2 => if flt then el fun a b => (fminmax f envRne true a b).1 else wrapInt w (max (i old) (i x))
  | 3 => old &&& x
  | 4 => old ||| x
  | 5 => old ^^^ x
  | 6 => x
  | _ => if old = x then x2 else old

/-- The operands of a lane (R229). -/
def atomOperands (d : Dev) (o : Lm) (l : Nat) : Nat × Nat :=
  let n := tyRegs o.xw.ty
  (joinRegs (laneReader d l) o.d.toNat n, if atomOp o = 7 then joinRegs (laneReader d l) (o.d.toNat + n) n else 0)

/-- Registers an atomic reads in d. -/
def atomRegs (o : Lm) : Nat := if atomOp o = 7 then 2 * tyRegs o.xw.ty else tyRegs o.xw.ty

/-- The old value's destination. -/
def atomDst (o : Lm) (l x : Nat) : List PWrite := splitRegs (wrV l) o.d.toNat x (tyRegs o.xw.ty)

/-- Whether an atomic can travel to a peer (R326). -/
def peerAtom (op : Nat) (ty : BitVec 4) : Bool := (op == 0 && decide (ty.toNat < 4)) || op == 6 || op == 7

/-- The CXL.io AtomicOp that carries an operation (R326). -/
def peerOpOf (op : Nat) : PeerOp := if op == 0 then .fetchAdd else if op == 6 then .swap else .cas

/-- What the lanes of one address do to its value, in ascending order (R230): each lane's old value, and the last new one. A lane
sees its own buffered bytes (R225). -/
def atomRun (m : Mgmt) (d : Dev) (o : Lm) (pa : Nat) (lanes : List Nat) (v : Nat) : List (Nat × Nat) × Nat :=
  lanes.foldl (fun (r : List (Nat × Nat) × Nat) l =>
    let (x, x2) := atomOperands d o l
    let old := sbufOver (ownStores m d [ownNo (curSkein d) l]) pa (tyBytes o.xw.ty) r.2
    (r.1 ++ [(l, old)], atomNew (atomOp o) o.xw.ty old x x2)) ([], v)

/-- The atomics of the lanes of one address, as one access at the place the scope names (R230, R231, R308): old values, device,
latency; `d0` is the device at issue. Words that other L1s hold dirty, an owner's among them, meet an atomic at the slice before its
read, after its write, or between; the choice is free. At a peer each lane's AtomicOp follows the one before (R326).
(DEDUCED: notes/assumptions/98) -/
def atomAt (m : Mgmt) (d0 d : Dev) (ctx sp : Nat) (o : Lm) (p : DWord) (leaf : Leaf) (pa : Nat) (lanes : List Nat) :
    MemM (List (Nat × Nat) × Dev × Nat) :=
  let n := tyBytes o.xw.ty
  let line := pa / 128
  let b := pa % 128
  let bm := byteMask b n
  let k := lanes.headD 0
  if isPeer pa then
    if !peerAtom (atomOp o) o.xw.ty then .error .perm
    else if !linkUp d pa then .error .dataerr
    else
      let msg (l : Nat) : Msg :=
        let (x, x2) := atomOperands d0 o l
        .peerAtomic (peerOpOf (atomOp o)) (n == 8) pa (BitVec.ofNat 64 x) (BitVec.ofNat 64 x2)
      let r := atomRun m d0 o pa lanes ((freeVal d (21000 + k)).toNat % 2 ^ (8 * n))
      .ok (r.1, { d with outbox := d.outbox ++ lanes.map msg }, missLat d sp pa k false)
  else
    match claimWay m d ctx sp p leaf pa k with
    | .error e => .error e
    | .ok (d1, away) =>
      if o.xw.sc.toNat ≤ 2 && isHome sp line leaf && !away then
        let owns : Bool := match l1Hit d1 sp (ctxAsid m ctx) (bitsOf p 7 41) with
          | some l => l.st == .e && holds l (BitVec.allOnes 128) && !l.stale && !cleanLost d1 l bm
          | none => false
        (if owns then .ok d1 else grantE m d1 ctx sp (bitsOf p 7 41) leaf pa k : MemM Dev).map fun d2 =>
          let r := atomRun m d0 o pa lanes (takeBytes (((l1Phys d2 sp line).map fun l => l.data).getD 0) b n)
          let put (l : L1Line) : L1Line :=
            { l with
              data := overlay l.data (atByte b r.2) bm, dirty := l.dirty ||| wordsTouched bm,
              filled := l.filled &&& ~~~(wordsTouched bm) }
          (r.1, modL1 d2 sp line put, latL1)
      else
        let point := freeBelow d (22000 + k) 3
        let others (i : Nat) (d : Dev) : MemM Dev := if point == i then invalidateOthers m ctx d (some sp) line else .ok d
        match (writeBackLine m d1 ctx sp line).bind (others 0) with
        | .error e => .error e
        | .ok d2 =>
          match sliceLine d2 line leaf.rp (halvesOf line bm) .rdOwn k with
          | .error e => .error e
          | .ok v =>
            let r := atomRun m d0 o pa lanes (takeBytes v b n)
            let new := atByte b r.2
            match (others 1 d2).bind fun d3 => mergeLine m ctx d3 line bm new leaf.cmp with
            | .error e => .error e
            | .ok d4 =>
              (invalidateOthers m ctx d4 (some sp) line).map fun d5 => (r.1, patchCopy d5 sp line bm new, missLat d sp pa k leaf.rp)

/-- The accesses of an instruction grouped by address, the groups and the lanes of each in ascending lane order (R230). -/
def atomGroups (ls : List (LAcc × Leaf × Nat)) : List (DWord × Leaf × Nat × List Nat) :=
  ls.foldl (fun gs (a, l, pa) =>
    if gs.any fun g => g.2.2.1 == pa then
      gs.map fun g => if g.2.2.1 == pa then (g.1, g.2.1, g.2.2.1, g.2.2.2 ++ [a.lane]) else g
    else gs ++ [(a.p, l, pa, [a.lane])]) []

/-- The atomics of the lanes, address by address; a lane's buffered bytes of its address have been performed with its atomic. -/
def atomLanes (m : Mgmt) (d d0 : Dev) (o : Lm) (ctx sp : Nat) (ls : List (LAcc × Leaf × Nat)) :
    MemM (List (Nat × Nat) × Dev × Nat) :=
  (atomGroups ls).foldlM (fun (r : List (Nat × Nat) × Dev × Nat) (p, l, pa, lanes) =>
    (atomAt m d0 r.2.1 ctx sp o p l pa lanes).map fun (olds, d1, lat) =>
      let k := curSkein d0
      let d2 := if isDet m ctx then lanes.foldl (fun d l => sbufTake d k.gid (ownNo k l) pa (tyBytes o.xw.ty)) d1 else d1
      (r.1 ++ olds, d2, max r.2.2 lat))
    ([], d, 0)

/-- The checks of an atomic's accesses. -/
def atomChecks (m : Mgmt) (d : Dev) (o : Lm) (as : List LAcc) : Checked :=
  let ctx := curCtx d
  let sp := curSpindle d
  let n := tyBytes o.xw.ty
  let probe (a : LAcc) (l : Leaf) (pa : Nat) : Option (DWord × MemErr) := failAt a.p (atomAt m d d ctx sp o a.p l pa [a.lane])
  checkAll true (fun a => checkLane m d ctx sp n n true (probe a) a) as

/-- The atomics of an instruction between its release and its acquire (R232): old values, device, latency. -/
def atomDone (m : Mgmt) (d da : Dev) (o : Lm) (ls : List (LAcc × Leaf × Nat)) : MemM (List (Nat × Nat) × Dev × Nat) :=
  let ctx := curCtx d
  let sp := curSpindle d
  let sc := o.xw.sc.toNat
  match (if atomRel o then releaseAt m da ctx sp sc else .ok da : MemM Dev) with
  | .error e => .error e
  | .ok d1 =>
    match atomLanes m d1 d o ctx sp ls with
    | .error e => .error e
    | .ok (vs, d2, lat) => (if atomAcq o then acquireAt m d2 ctx sp sc else .ok d2 : MemM Dev).map fun d3 => (vs, d3, lat)

/-- ATOM and ATOMB on their lanes' accesses (R230 to R232); with no lane nothing happens (R65). (DEDUCED: notes/assumptions/6) -/
def atomInstr (m : Mgmt) (d da : Dev) (o : Lm) (ex : Mask) (as : List LAcc) : Res :=
  if ex == 0 then .done da
  else if isDet m (curCtx d) && decide (3 ≤ o.xw.sc.toNat) then .fault (faultAt .detviol 0 ex)
  else
    match atomChecks m d o as with
    | .fault f => .fault { f with undef := as.flatMap fun a => atomDst o a.lane 0 }
    | .wait w => waitFor d w
    | .go ls =>
      match ownedLine d ls with
      | some line => .park d (.recall line)
      | none =>
        match atomDone m d da o ls with
        | .error e => waitRes d e (faultAt .dataerr 0 ex)
        | .ok (vs, d3, lat) =>
          let zeros := (as.filter fun a => a.drop).flatMap fun a => atomDst o a.lane 0
          .done (addPend d3 d.cur.skein (max lat latL1) (vs.flatMap (fun v => atomDst o v.1 v.2) ++ zeros))

/-- ATOM (R230): FORM 0 has a base and an index, FORM 1 the lane's own pointer. -/
def execAtom (o : Lm) (s : State) : Host.Outcome State Fault Refusal :=
  s.run fun m d =>
    let am := if atomForm o then 2 else 1
    laneIssue m d (hdXw o (.v o.d (atomRegs o) :: globalRds o am) true) fun ex da =>
      atomInstr m d da o ex (globalAccs d o am (atomDisp o) (lanesOf ex))

/-- ATOMB (R230). -/
def execAtomb (o : Lm) (s : State) : Host.Outcome State Fault Refusal :=
  s.run fun m d =>
    laneIssue m d (hdXw o (.v o.d (atomRegs o) :: bufferRds o (atomForm o)) true) fun ex da =>
      atomInstr m d da o ex (bufferAccs d o (atomForm o) (atomDisp o) (tyBytes o.xw.ty) true (lanesOf ex))

/-- ATOMS (R230), on the scratch line; its release waits for earlier surface writes (R383), its acquire at .sk or .gr changes
nothing (R300). -/
def execAtoms (o : Lm) (s : State) : Host.Outcome State Fault Refusal :=
  s.run fun m d =>
    let n := tyBytes o.xw.ty
    let g := curGroup d
    laneIssue m d (hdXw o (.v o.d (atomRegs o) :: scratchRds o (atomForm o)) true) fun ex da =>
      let offs := (lanesOf ex).map fun l => (l, scratchOff d o (atomForm o) (atomDisp o) l)
      match scratchFault g offs n n, if atomRel o && ex != 0 then surfaceDue d (spindleNo g) else none with
      | some f, _ => .fault f
      | none, some line => .park d (.half (2 * line))
      | none, none =>
        let r := offs.foldl (fun (r : Group × List PWrite) x =>
          let (v, v2) := atomOperands d o x.1
          let old := scratchRead r.1 x.2.toNat n
          (scratchWrite r.1 x.2.toNat n (atomNew (atomOp o) o.xw.ty old v v2), r.2 ++ atomDst o x.1 old)) (g, [])
        .done (addPend (modGroup da g.gid fun _ => r.1) d.cur.skein latScratch r.2)

/-! ## Prefetch and guard tags (R233, R234) -/

/-- The halves of a host line that its caching slice does not hold, asked for (R319). -/
def askLine (d : Dev) (line : Nat) : Dev :=
  if isHost (128 * line) && linkUp d (128 * line) then
    [2 * line, 2 * line + 1].foldl (fun d h =>
      match hostNeed d .rdShared [h] with
      | .error (.need n) => askFor d n
      | _ => d) d
  else d

/-- PRF (R233): a line that can be reached is brought to its caching slice and, under `.l1`, to the L1; what that needs first is asked for.
Nothing else changes and nothing can fail. -/
def execPrf (o : Lm) (s : State) : Host.Outcome State Fault Refusal :=
  s.run fun m d =>
    let ctx := curCtx d
    let sp := curSpindle d
    laneIssue m d (hdXw o (globalRds o (amOf o)) false) fun ex da =>
      if isDet m ctx then .done da
      else
        .done ((globalAccs d o (amOf o) (disp14 o) (lanesOf ex)).foldl (fun d a =>
          match checkAt m d ctx sp a.p 1 false with
          | .error _ => d
          | .ok (l, pa) =>
            let line := pa / 128
            let va := bitsOf a.p 7 41
            let along := waysAlong d sp (setOf va) line
            if isPeer pa || engineOwns d line then d
            else if bitsOf o.xw.sub 0 2 != 0 || (emptyWay d sp line).isSome || (along != 0 && !waysFit d sp (setOf va) along) then
              askLine d line
            else
              match fillLine m d ctx sp va l pa a.lane with
              | .ok d1 => d1
              | .error (.need n) => askFor (askLine d line) n
              | .error _ => d) da)

/-- The checks of LDG and STG: no alignment, no comparison of the pointer's own tag; STG needs a writable tagged page (R234).
(DESIGN CHOICE: notes/assumptions/96) -/
def checkTag (m : Mgmt) (d : Dev) (ctx sp : Nat) (store : Bool) (a : LAcc) : Chk :=
  if nonCanon a.p then .bad { stage := stCanon, cause := .xlate, sub := xlateCode .noncanon, addr := a.p }
  else
    match locate m d ctx sp a.p with
    | .error e => errChk stXlate a.p e
    | .ok (l, pa) =>
      if store && !(l.w && l.tg) then .bad { stage := stPerm, cause := .perm, sub := 0, addr := a.p } else .ok l pa

/-- LDG (R234). -/
def execLdg (o : Lm) (s : State) : Host.Outcome State Fault Refusal :=
  s.run fun m d =>
    let ctx := curCtx d
    let sp := curSpindle d
    laneIssue m d (hdXw o (globalRds o (amOf o)) false) fun ex da =>
      let as := globalAccs d o (amOf o) (disp14 o) (lanesOf ex)
      match checkAll false (checkTag m d ctx sp false) as with
      | .fault f => .fault { f with undef := as.flatMap fun a => res1 (wrV a.lane) o.d 0 }
      | .wait w => waitFor d w
      | .go ls =>
        match ownedLine d ls with
        | some line => .park d (.recall line)
        | none =>
          .done (addPend da d.cur.skein latL1 (ls.flatMap fun x =>
            res1 (wrV x.1.lane) o.d (if x.2.1.tg then tagAt d sp x.2.2 else 0)))

/-- A granule's tag set at its slice and in the accessing L1's copy; other counted copies are invalidated (R206, R234). -/
def setTag (m : Mgmt) (d : Dev) (ctx sp pa : Nat) (tag : BitVec 4) : MemM Dev :=
  let i := 4 * (pa / 32 % 4)
  let put (t : BitVec 16) : BitVec 16 := (t &&& ~~~((15 : BitVec 16) <<< i)) ||| (tag.setWidth 16 <<< i)
  (invalidateOthers m ctx { d with tags := tput d.tags (pa / 32) tag 0 } (some sp) (pa / 128)).map fun d1 =>
    modL1 d1 sp (pa / 128) fun l => { l with tags := put l.tags }

/-- STG (R234): the highest lane's tag is written; suppressed in run-ahead (R456). -/
def execStg (o : Lm) (s : State) : Host.Outcome State Fault Refusal :=
  s.run fun m d =>
    let ctx := curCtx d
    let sp := curSpindle d
    laneIssue m d (hdXw o (.v o.d 1 :: globalRds o (amOf o)) false) fun ex da =>
      match checkAll true (checkTag m d ctx sp true) (globalAccs d o (amOf o) (disp14 o) (lanesOf ex)) with
      | .fault f => .fault f
      | .wait w => waitFor d w
      | .go ls =>
        if runsAhead d then .done da
        else
          match ownedLine d ls with
          | some line => .park d (.recall line)
          | none =>
            let r : MemM Dev := ls.foldlM (fun d1 (a, _, pa) =>
              setTag m d1 ctx sp pa ((laneReader d a.lane o.d.toNat).setWidth 4)) da
            match r with
            | .ok d1 => .done d1
            | .error e => waitRes d e (faultAt .dataerr 0 ex)

/-! ## Staples (R235 to R237) -/

/-- Width and size of the staple an instruction names (R235). -/
def stapleW (o : Lm) : Nat := 4 + 2 * bitsOf o.xw.sub 0 2
def stapleG (o : Lm) : Nat := 32 * 2 ^ bitsOf o.xw.sub 2 2

/-- The access of a staple instruction, one for the bundle; `ex` names its lanes in a fault. -/
def stapleAcc (d : Dev) (o : Lm) : LAcc :=
  { lane := 0, p := addDisp (readS64 d (curSkein d) o.sb.toNat) (disp14 o), pre := none, drop := false }

/-- The checks of STQ's store and of LDQ's load. -/
def stqChecks (m : Mgmt) (d : Dev) (o : Lm) : Checked :=
  let ctx := curCtx d
  let sp := curSpindle d
  let n := stapleBytes (stapleG o) (stapleW o)
  let a := stapleAcc d o
  let probe (_ : Leaf) (_ : Nat) : Option (DWord × MemErr) :=
    if runsAhead d || isDet m ctx then none
    else
      match storeSpan m d ctx sp a.p n 0 o.xw.pol.toNat 0 with
      | .error e => some e
      | .ok _ => none
  checkAll true (fun a => checkLane m d ctx sp n 4 true probe a) [a]
def ldqChecks (m : Mgmt) (d : Dev) (o : Lm) : Checked :=
  let ctx := curCtx d
  let sp := curSpindle d
  let n := stapleBytes (stapleG o) (stapleW o)
  let a := stapleAcc d o
  let probe (_ : Leaf) (_ : Nat) : Option (DWord × MemErr) :=
    match loadSpan m d ctx sp a.p n o.xw.pol.toNat 0 with
    | .error e => some e
    | .ok _ => none
  checkAll false (fun a => checkLane m d ctx sp n 4 false probe a) [a]

/-- The staple that STQ stores: the executing lanes' values in lane order, the others' zero, quantised (R236). -/
def stqValue (m : Mgmt) (d : Dev) (o : Lm) (ex : Mask) : Nat :=
  quantiseBlock (ctxOf m (curCtx d)).nlt (stapleW o) (bitsOf o.a 0 4)
    ((List.range 32).flatMap fun l => (List.range (stapleG o / 32)).map fun i =>
      if ex.getLsbD l then (laneReader d l (o.d.toNat + i)).toNat else 0)

/-- STQ (R236): the bundle's values quantised into one staple, one store of every thread of the bundle. -/
def execStq (o : Lm) (s : State) : Host.Outcome State Fault Refusal :=
  s.run fun m d =>
    let ctx := curCtx d
    let sp := curSpindle d
    let n := stapleBytes (stapleG o) (stapleW o)
    let pol := o.xw.pol.toNat
    laneIssue m d (hdXw o [.v o.d (stapleG o / 32), .s o.sb 2] false) fun ex da =>
      let p := (stapleAcc d o).p
      if ex == 0 then .done da
      else
        match stqChecks m d o with
        | .fault f => .fault { f with lanes := ex }
        | .wait q => waitFor d q
        | .go ls =>
          if runsAhead d then .done da
          else
            match ownedLine d ls with
            | some line => .park d (.recall line)
            | none =>
              if isDet m ctx then
                match sbufPush da d.cur.skein (bundleEntries m d p n (stqValue m d o ex) pol) with
                | some d1 => .done (spillLog m d1 ctx sp d.cur.skein (curSkein d).spilled)
                | none => .fault (faultAt .detviol 0 ex)
              else
                match storeSpan m da ctx sp p n (stqValue m d o ex) pol 0 with
                | .ok d1 => .done d1
                | .error e => waitRes d e.2 (faultAt .dataerr 0 ex)

/-- A staple as a lane sees it: its own buffered bytes over what was read (R314). -/
def stapleSeen (m : Mgmt) (d : Dev) (o : Lm) (x l : Nat) : Nat :=
  spanOver m d (ownStores m d [ownNo (curSkein d) l]) (stapleAcc d o).p (stapleBytes (stapleG o) (stapleW o)) x

/-- The registers of a lane that LDQ writes from a staple (R237). -/
def ldqLane (m : Mgmt) (d : Dev) (o : Lm) (x l : Nat) : List PWrite :=
  let w := stapleW o
  let nk := stapleG o / 32
  let y := stapleSeen m d o x l
  (List.range nk).map fun i =>
    .v l (o.d.toNat + i) (BitVec.ofNat 32
      (decodeElem (ctxOf m (curCtx d)).nlt w (y % 2 ^ 32) (stapleCode w (y / 2 ^ 32) (nk * l + i))))

/-- LDQ (R237): one staple read, its header checked, its elements decoded into the lanes. -/
def execLdq (o : Lm) (s : State) : Host.Outcome State Fault Refusal :=
  s.run fun m d =>
    let n := stapleBytes (stapleG o) (stapleW o)
    laneIssue m d (hdXw o [.s o.sb 2] false) fun ex da =>
      let p := (stapleAcc d o).p
      if ex == 0 then .done da
      else
        match ldqChecks m d o with
        | .fault f =>
          .fault { f with lanes := ex, undef := (lanesOf ex).flatMap fun l => splitRegs (wrV l) o.d.toNat 0 (stapleG o / 32) }
        | .wait q => waitFor d q
        | .go ls =>
          match ownedLine d ls with
          | some line => .park d (.recall line)
          | none =>
            match loadSpan m da (curCtx d) (curSpindle d) p n o.xw.pol.toNat 0 with
            | .error e => waitRes d e.2 (faultAt .dataerr 0 ex)
            | .ok (x, d1, lat) =>
              if (lanesOf ex).any fun l => selectorBad (stapleW o) (stapleSeen m d o x l % 2 ^ 32) then
                .fault (faultAt .selector p ex)
              else .done (addPend d1 d.cur.skein (max lat latL1) ((lanesOf ex).flatMap (ldqLane m d o x)))

end Sys2Proof.Machine
end

