-- ==== Sys2Proof/Machine/Moves.lean ====
section
/-!
DEFINITION. The lane compares, selects, moves and predicates (R122 to R127), but for MOV, which meets queue registers.
-/

namespace Sys2Proof.Machine

/-- ISETP (R122). -/
def execIsetp (o : Lp) (s : State) : Host.Outcome State Fault Refusal :=
  s.run fun m d => laneAlu m d (hdCmp false o 0) latAlu fun l rd _ =>
    (predRes l o.pd (intCmp o rd), 0)

/-- SEL (R123): the guard selects, in every lane of the bundle. -/
def execSel (o : Lr) (s : State) : Host.Outcome State Fault Refusal :=
  s.run fun m d =>
    let x := lrXm o 0
    let n := tyRegs x.ty
    let h := hd o.w (lenOf o.xm) [.pb x.p.toNat, .v o.a n, .v o.b n]
    laneAlu m d h latAlu fun l rd wr =>
      (resOf wr o.d x.ty (if readP d (curSkein d) l x.p.toNat != x.n then patOf rd o.a x.ty else patOf rd o.b x.ty), 0)

/-- MOVK (R113, R124). -/
def execMovk (o : Lk) (s : State) : Host.Outcome State Fault Refusal :=
  s.run fun m d => laneInt m d (hd o.w (lenOf o.xl) []) latAlu fun _ wr =>
    res1 wr o.d (immOf o true).toNat

/-- MOVSV (R124): a names a uniform register, or pair. -/
def execMovsv (o : Lr) (s : State) : Host.Outcome State Fault Refusal :=
  s.run fun m d =>
    let x := lrXm o 0
    laneInt m d (hdXm o.w (lenOf o.xm) x [.s o.a (tyRegs x.ty)]) latAlu fun _ wr =>
      resOf wr o.d x.ty (patOf (uniReader d) o.a x.ty)

/-- PLOP (R126). -/
def execPlop (o : Plop) (s : State) : Host.Outcome State Fault Refusal :=
  s.run fun m d =>
    let k := curSkein d
    let h := hdXm o.w (lenOf o.xm) (plopXm o) [.p o.pa.toNat, .p o.pb.toNat, .p o.pc.toNat]
    laneAlu m d h latAlu fun l _ _ =>
      (predRes l o.pd (lutOf o.lut (readP d k l o.pa.toNat) (readP d k l o.pb.toNat) (readP d k l o.pc.toNat)), 0)

/-- PMOV (R127), by mode. -/
def execPmov (o : Lv) (s : State) : Host.Outcome State Fault Refusal :=
  s.run fun m d =>
    let k := curSkein d
    let rds : List Rd := match o.mode.toNat with
      | 0 => [.p o.ps.toNat]
      | 2 => [.p 0, .p 1, .p 2, .p 3, .p 4, .p 5, .p 6]
      | _ => [.v o.d 1]
    laneAlu m d (hdXm o.w (lenOf o.xm) (lvXm o) rds) latAlu fun l rd wr =>
      match o.mode.toNat with
      | 0 => (res1 wr o.d (readP d k l o.ps.toNat != o.n).toNat, 0)
      | 1 => (predRes l o.pd ((rd o.d.toNat).getLsbD 0 != o.n), 0)
      | 2 => (res1 wr o.d ((List.range 8).foldl (fun x i => x + 2 ^ i * (readP d k l i).toNat) 0), 0)
      | _ => ((List.range 7).map fun i => .p l i ((rd o.d.toNat).getLsbD i), 0)

end Sys2Proof.Machine
end

