-- ==== Sys2Proof/Machine/Start.lean ====
section
/-!
DEFINITION. The management mailbox (R471 to R474), clock steps and heat (R13, R475), reset (R325) and the start of the device
(R465 to R470).
-/

namespace Sys2Proof.Machine

/-! ## The mailbox (R471) -/

/-- The fields of a command word. -/
def mbArg (v : DWord) : Nat := bitsOf v 32 32
def mbSeq (v : DWord) : Nat := bitsOf v 8 8

/-- A word of MBDATA, and MBDATA with bytes stored from its start on. -/
def mbWord (d : Dev) (i : Nat) : DWord := tget d.mbdata i 0
def mbPut (d : Dev) (bytes : List Byte) : Dev :=
  let n := bytesNat bytes
  { d with
    mbdata := (List.range ((bytes.length + 7) / 8)).foldl (fun t i => tset t i (BitVec.ofNat 64 (n / 2 ^ (64 * i)))) d.mbdata }

/-- A command that ends: 2 done, 3 refused, 4 failed. -/
def mbEnd (d : Dev) (st : BitVec 8) (detail outlen : Nat) : Dev :=
  post d (.mailboxComplete st (BitVec.ofNat 32 detail) outlen)
def mbDone (d : Dev) : Dev := mbEnd d 2 0 0
def mbRefused (d : Dev) : Dev := mbEnd d 3 0 0
def mbFailed (d : Dev) : Dev := mbEnd d 4 0 0

/-- MAILBOX_COMPLETE (R471): STATE, SEQ, DETAIL and OUTLEN are set, and the host hears of it. -/
def execMailboxComplete (st : BitVec 8) (detail : BitVec 32) (outlen : Nat) (s : State) : Host.Outcome State Fault Refusal :=
  s.run fun _ d =>
    let v := st.toNat + 2 ^ 8 * mbSeq d.mbcmd + 2 ^ 16 * detail.toNat + 2 ^ 48 * outlen
    interrupt { d with mbstat := BitVec.ofNat 64 v } 1158

/-- IMAGE (R472): the image named is read and kept for the next start. (DESIGN CHOICE: notes/assumptions/70, 71) -/
def execImage (cmd : DWord) (s : State) : Host.Outcome State Fault Refusal :=
  s.run fun _ d =>
    let k := mbArg cmd
    if k < 1 ∨ 3 < k ∨ 2 ^ 26 < (mbWord d 1).toNat then mbRefused d
    else
      match Config.hostImage d.free (mbWord d 0).toNat (mbWord d 1).toNat with
      | some x => mbDone { d with nextImages := d.nextImages.set (k - 1) (some x) }
      | none => mbFailed d

/-- Bytes of a number, most significant first. (DEDUCED: notes/assumptions/72) -/
def bigBytes (x n : Nat) : List Byte := (natBytes x n).reverse

/-- The measurement of an image that a start has read. (DESIGN CHOICE: notes/assumptions/71; DEDUCED: notes/assumptions/72) -/
def measure (d : Dev) (i : Nat) : List Byte := bigBytes (Config.sm3 (d.images.getD i [])).toNat 32

/-- The first 136 bytes of a report: nonce, measurements, start number (R474). -/
def reportBody (d : Dev) : List Byte :=
  (List.range 4).flatMap (fun i => natBytes (mbWord d i).toNat 8) ++ measure d 0 ++ measure d 1 ++ measure d 2 ++
    natBytes d.startNo 8

/-- ATTEST (R472, R474). -/
def execAttest (_ : DWord) (s : State) : Host.Outcome State Fault Refusal :=
  s.run fun _ d =>
    let body := reportBody d
    mbEnd (mbPut d (body ++ bigBytes (Config.sm2Sign body).toNat 64)) 2 0 200

/-- IDENTITY (R472). -/
def execIdentity (_ : DWord) (s : State) : Host.Outcome State Fault Refusal :=
  s.run fun _ d => mbEnd (mbPut d (bigBytes Config.identityKey.toNat 64)) 2 0 64

/-- READLOG (R472): up to 256 entries from an index on. -/
def execReadlog (cmd : DWord) (s : State) : Host.Outcome State Fault Refusal :=
  s.run fun _ d =>
    let es := (d.startLog.drop (mbArg cmd)).take 256
    mbEnd (mbPut d (es.flatMap fun e => natBytes e.toNat 8)) 2 d.startLog.length (8 * es.length)

/-! ## The start log (R468) -/

def leStep (e : DWord) : Nat := bitsOf e 32 8
def leUnit (e : DWord) : Nat := bitsOf e 24 8
def leFailed (e : DWord) : Bool := bitsOf e 8 8 == 1

/-- CLEARLOG (R472): the failure entries of a step and unit, or of all, are removed. -/
def execClearlog (cmd : DWord) (s : State) : Host.Outcome State Fault Refusal :=
  s.run fun _ d =>
    let a := mbArg cmd
    let hit (e : DWord) : Bool := leFailed e && (a == 2 ^ 32 - 1 || (leStep e == a % 256 && leUnit e == a / 256 % 256))
    mbDone { d with startLog := d.startLog.filter fun e => !hit e }

/-! ## Streams (R472, R473) -/

/-- STREAMTAB: the stream table of a die. (DESIGN CHOICE: notes/assumptions/70) -/
def execStreamtab (cmd : DWord) (s : State) : Host.Outcome State Fault Refusal :=
  s.run fun _ d =>
    let die := mbArg cmd
    let a := mbWord d 0
    let runs := d.streams.any fun e => e.1 / 16 == die
    if !fullFn d || decide (15 < die) || a.toNat % 1024 != 0 || !isDevice a.toNat || runs then mbRefused d
    else mbDone { d with streamTab := tset d.streamTab die a }

/-- The stream and the die an argument names; other bits are zero. -/
def mbStream (cmd : DWord) : Nat := mbArg cmd % 16
def mbDie (cmd : DWord) : Nat := mbArg cmd / 256 % 16
def mbStreamOk (cmd : DWord) : Bool := mbArg cmd == mbStream cmd + 256 * mbDie cmd

/-- STREAMSTART (R473): the record is read at device scope, and the stream starts. -/
def execStreamstart (cmd : DWord) (s : State) : Host.Outcome State Fault Refusal :=
  s.run fun m d =>
    let die := mbDie cmd
    let n := mbStream cmd
    if !fullFn d || !mbStreamOk cmd || (stream? d die n).isSome then mbRefused d
    else
      match tget? d.streamTab die with
      | none => mbRefused d
      | some tab =>
        let pa := tab.toNat + 64 * n
        match readSlice m 0 d none (pa / 128) false [pa / 64] .rdShared 72 with
        | .error (.need w) => defer d w (.streamstart cmd)
        | .error _ => mbFailed d
        | .ok (x, d1) =>
          let r := halfData x (pa / 64 % 2 == 1)
          if srBad m r then mbRefused d1 else mbDone (startStream d1 die n r)

/-- STREAMSTOP (R473): the frame being emitted finishes; the command ends when the stream does. (DESIGN CHOICE: notes/assumptions/70) -/
def execStreamstop (cmd : DWord) (s : State) : Host.Outcome State Fault Refusal :=
  s.run fun m d =>
    let die := mbDie cmd
    let n := mbStream cmd
    match stream? d die n with
    | none => mbRefused d
    | some x =>
      if !fullFn d || !mbStreamOk cmd then mbRefused d
      else
        let y := { x with stopping := true, queue := [] }
        let d1 := setStream d die n y
        if (nextEmit d1 die y).isSome then d1 else afterEmit m d1 die n

/-! ## Clocks and heat (R13, R475) -/

/-- The bit of a die. -/
def dieBit (die : Nat) : BitVec 16 := BitVec.ofNat 16 (2 ^ die)

/-- A die's clock step; below step 8 the thermal limit holds it no more. (DESIGN CHOICE: notes/assumptions/79) -/
def setStep (d : Dev) (die step : Nat) : Dev :=
  { d with
    clockStep := d.clockStep.setIfInBounds die step,
    hot := if step < 8 then d.hot &&& ~~~(dieBit die) else d.hot }

/-- CLOCK_STEP (R13). (DESIGN CHOICE: notes/assumptions/79) -/
def execClockStep (die step : Nat) (s : State) : Host.Outcome State Fault Refusal :=
  s.run fun _ d => if step ≤ 8 then setStep d die step else d

/-- THERMAL_HOLD (R475). (DESIGN CHOICE: notes/assumptions/79) -/
def execThermalHold (die : Nat) (s : State) : Host.Outcome State Fault Refusal :=
  s.run fun _ d =>
    let d1 := setStep d die 8
    interrupt { d1 with hot := d1.hot ||| dieBit die } 1153

/-! ## Reset (R325) -/

/-- What reset leaves of a device: memory, whose guard tags read 0 from now on (R206), what has been sent to the host, and
the non-volatile storage. Modified host halves are sent first; halves the host holds in S or A are asked back, and the reset is
complete when none is left; early requests are counted meanwhile. (DESIGN CHOICE: notes/assumptions/77) -/
def resetOf (d : Dev) : Dev :=
  let out := (d.halves.filter fun e => e.2.st == .m && !e.2.poison).map fun e => Msg.dirtyEvict e.1 e.2.data
  { resetDev with
    mem := d.mem, forms := d.forms, outbox := d.outbox ++ out, irqs := d.irqs,
    hostState := d.hostState, snoops := d.snoops, free := d.free, portUp := d.portUp, portPeer := d.portPeer,
    linkErr := if d.resetting then d.linkErr else 0,
    startLog := d.startLog, startNo := d.startNo, nextImages := d.nextImages }

/-- Reset: the module as after reset, once the host holds no device half any more. (DESIGN CHOICE: notes/assumptions/77) -/
def resetAll (s : State) : State :=
  let d := resetOf s.dev
  { mgmt := resetMgmt,
    dev :=
      match d.hostState with
      | e :: _ => defer { d with resetting := true } (.snoop e.1 true) .reset
      | [] => { d with snoops := [], portUp := 0, portPeer := 0 } }

/-- RESET (R325). (DESIGN CHOICE: notes/assumptions/77) -/
def execReset (s : State) : Host.Outcome State Fault Refusal := .next (resetAll s)

/-- CRITICAL_TEMPERATURE (R475): the whole module resets. (DESIGN CHOICE: notes/assumptions/77) -/
def execCriticalTemperature (_ : Nat) (s : State) : Host.Outcome State Fault Refusal := .next (resetAll s)

/-! ## The start (R465 to R470) -/

/-- The steps of stages 1 and 2 in order, each with its unit (R468). -/
def startSteps : List (Nat × Nat) :=
  let on (c n : Nat) : List (Nat × Nat) := (List.range n).map fun u => (c, u)
  [(0x01, 0), (0x02, 0), (0x03, 0)] ++ on 0x10 32 ++ on 0x11 24 ++ on 0x12 4 ++ on 0x13 16 ++ on 0x14 16 ++ on 0x20 16

/-- How often a step on a unit has failed, by the entries held. -/
def failures (log : List DWord) (step unit : Nat) : Nat :=
  (log.filter fun e => leFailed e && leStep e == step && leUnit e == unit).length

/-- The row and column of a die in the mesh, and the two dies that an edge joins (R8): edges 0 to 11 within rows, the others within
columns. -/
def meshRow (die : Nat) : Nat := die / 4
def meshCol (die : Nat) : Nat := die % 4
def edgeDies (e : Nat) : Nat × Nat :=
  if e < 12 then (4 * (e / 3) + e % 3, 4 * (e / 3) + e % 3 + 1) else (e - 12, e - 8)

/-- What a start does about earlier failures: 0 as planned, 1 skipped, 2 done differently. -/
def startAct (log : List DWord) (step unit : Nat) : Nat :=
  let n := failures log step unit
  if n = 0 then 0
  else
    match step with
    | 0x10 => 1
    | 0x11 => if 8 ≤ n then 1 else 2
    | 0x12 => if 4 ≤ n then 1 else 2
    | 0x13 => 2
    | _ => 0

/-- An entry of the start log. -/
def startEntry (step unit act : Nat) (failed : Bool) (no : Nat) : DWord :=
  BitVec.ofNat 64 (step * 2 ^ 32 + unit * 2 ^ 24 + act * 2 ^ 16 + (if failed then 256 else 0) + no % 256)

/-- Whether a failure of a step ends the start. (DEDUCED: notes/assumptions/73) -/
def stopsStart (step : Nat) : Bool := [0x01, 0x02, 0x03, 0x14, 0x20].contains step

/-- Whether a step that is done fails. (DESIGN CHOICE: notes/assumptions/74) -/
def failsNow (log : List DWord) (r : StartReport) (step unit : Nat) : Bool :=
  startAct log step unit != 1 && r.failed.contains (BitVec.ofNat 8 step, unit)

/-- The entries of a start and the step that ended it early, if one did. (DEDUCED: notes/assumptions/73) -/
def runSteps (log : List DWord) (no : Nat) (r : StartReport) : List (Nat × Nat) → List DWord × Option Nat
  | [] => ([], none)
  | (step, unit) :: t =>
    let f := failsNow log r step unit
    let e := startEntry step unit (startAct log step unit) f no
    if f && stopsStart step then ([e], some step)
    else
      let (l, x) := runSteps log no r t
      (e :: l, x)

/-- Whether a unit is usable after its step: neither skipped nor failed. (DESIGN CHOICE: notes/assumptions/74) -/
def usable (log : List DWord) (r : StartReport) (step unit : Nat) : Bool :=
  startAct log step unit != 1 && !failsNow log r step unit

/-- An image that a start verifies: the one kept for it, else what the device held already (R466, R472).
(DESIGN CHOICE: notes/assumptions/71) -/
def startImage (d : Dev) (k : Nat) (held : List Byte) : List Byte := ((d.nextImages[k]?).getD none).getD held

/-- The PEER ports and SAVEGB of the configuration that a start verifies (R467). (DESIGN CHOICE: notes/assumptions/71) -/
def startPeers (d : Dev) (r : StartReport) : BitVec 4 := ((d.nextImages[2]?).getD none).elim r.portPeer Config.configPeers
def startSaveGb (d : Dev) (r : StartReport) : Option Nat := ((d.nextImages[2]?).getD none).elim r.saveGb Config.configSaveGb

/-- The parts a start that reaches training finds (R467, R468, R470). (DESIGN CHOICE: notes/assumptions/74, 75) -/
def trained (d : Dev) (r : StartReport) : Dev :=
  let log := d.startLog
  let bits (n : Nat) (f : Nat → Bool) : Nat := ((List.range n).map fun i => if f i then 2 ^ i else 0).sum
  let lane (k : Nat) : Nat := if usable log r 0x12 k && r.links.getLsbD k then 16 / 2 ^ failures log 0x12 k else 0
  { d with
    stackMask := BitVec.ofNat 32 (bits 32 (usable log r 0x10)),
    edgeRates := Vector.ofFn fun e : Fin 24 => if usable log r 0x11 e.val then 8 - failures log 0x11 e.val else 0,
    laneRates := Vector.ofFn fun k : Fin 4 => lane k.val,
    portUp := BitVec.ofNat 4 (bits 4 fun k => lane k != 0),
    portPeer := if startPeers d r == 15 then 14 else startPeers d r,
    saveGb := min 32 (max 1 ((startSaveGb d r).getD 16)),
    saveMoves := Vector.ofFn fun i : Fin 16 => if failsNow log r 0x13 i.val then 2 else failures log 0x13 i.val }

/-- DEVICE_START (R465, R466): the stages in order, up to the step that ends the start; till the configuration has been read every port
is HOST (R467). (DESIGN CHOICE: notes/assumptions/71; DEDUCED: notes/assumptions/73; PRESUMED: notes/assumptions/76) -/
def execDeviceStart (r : StartReport) (s : State) : Host.Outcome State Fault Refusal :=
  s.run fun _ d =>
    if d.stage == 2 || d.resetting then d
    else
      let no := d.startNo + 1
      let (es, x) := runSteps d.startLog no r startSteps
      let all := [startImage d 0 r.stage1, startImage d 1 r.stage2, startImage d 2 r.config]
      let imgs (k : Nat) : List (List Byte) := all.take k ++ List.replicate (3 - k) []
      let done (d : Dev) (k stage : Nat) (fail : BitVec 8) : Dev :=
        { d with
          startNo := no, startLog := d.startLog ++ es, images := imgs k, nextImages := [none, none, none], stage := stage,
          failStage := fail }
      match x with
      | some 0x01 => done { d with portUp := r.links, portPeer := 0 } 1 0 0
      | some 0x02 => done { d with portUp := r.links, portPeer := 0 } 3 0 1
      | some 0x03 => done { d with portUp := r.links, portPeer := 0 } 3 0 1
      | some 0x14 => done (trained d r) 3 0 0xFF
      | some _ => done (trained d r) 3 1 0xFF
      | none => done (trained d r) 3 2 0xFF

end Sys2Proof.Machine
end

