-- ==== Sys2Proof/Machine/Uniform.lean ====
section
/-!
DEFINITION. The uniform arithmetic, floats, conversions and the moves between lanes and the skein (R157 to R165),
    and NOP (R58).
-/

namespace Sys2Proof.Machine

/-- NOP (R58). -/
def execNop (o : Ln) (s : State) : Host.Outcome State Fault Refusal :=
  s.run fun m d => uniIssue m d (hd o.w 4 []) fun da => .done da

/-- SADD (R114, R157). -/
def execSadd (o : Lr) (s : State) : Host.Outcome State Fault Refusal :=
  s.run fun m d => uniInt m d (hdAB true o 0) latUni (intBin (· + ·) o)

/-- SSUB (R114, R157). -/
def execSsub (o : Lr) (s : State) : Host.Outcome State Fault Refusal :=
  s.run fun m d => uniInt m d (hdAB true o 0) latUni (intBin (· - ·) o)

/-- SMUL (R114, R157). -/
def execSmul (o : Lr) (s : State) : Host.Outcome State Fault Refusal :=
  s.run fun m d => uniInt m d (hdAB true o 0) latUni (intBin (· * ·) o)

/-- SMIN (R114, R157). -/
def execSmin (o : Lr) (s : State) : Host.Outcome State Fault Refusal :=
  s.run fun m d => uniInt m d (hdAB true o 0) latUni (intBin min o)

/-- SMAX (R114, R157). -/
def execSmax (o : Lr) (s : State) : Host.Outcome State Fault Refusal :=
  s.run fun m d => uniInt m d (hdAB true o 0) latUni (intBin max o)

/-- SADDK (R157). -/
def execSaddk (o : Lk) (s : State) : Host.Outcome State Fault Refusal :=
  s.run fun m d => uniInt m d (hdK true o) latUni (intAddK o)

/-- SMAD (R157). -/
def execSmad (o : Lr) (s : State) : Host.Outcome State Fault Refusal :=
  s.run fun m d => uniInt m d (hdABC true o 0) latUni (intMad o)

/-- SAND (R116, R157). -/
def execSand (o : Lr) (s : State) : Host.Outcome State Fault Refusal :=
  s.run fun m d => uniInt m d (hdAB true o 0) latUni (bitBin (· &&& ·) o)

/-- SOR (R116, R157). -/
def execSor (o : Lr) (s : State) : Host.Outcome State Fault Refusal :=
  s.run fun m d => uniInt m d (hdAB true o 0) latUni (bitBin (· ||| ·) o)

/-- SXOR (R116, R157). -/
def execSxor (o : Lr) (s : State) : Host.Outcome State Fault Refusal :=
  s.run fun m d => uniInt m d (hdAB true o 0) latUni (bitBin (· ^^^ ·) o)

/-- SSHL (R117, R157). -/
def execSshl (o : Lr) (s : State) : Host.Outcome State Fault Refusal :=
  s.run fun m d => uniInt m d (hdAB1 true o 0) latUni (shiftR shlNat o)

/-- SSHR (R117, R157). -/
def execSshr (o : Lr) (s : State) : Host.Outcome State Fault Refusal :=
  s.run fun m d => uniInt m d (hdAB1 true o 0) latUni (shiftR shrNat o)

/-- SSAR (R117, R157). -/
def execSsar (o : Lr) (s : State) : Host.Outcome State Fault Refusal :=
  s.run fun m d => uniInt m d (hdAB1 true o 0) latUni (shiftR sarNat o)

/-- SSHLK (R117, R157). -/
def execSshlk (o : Lk) (s : State) : Host.Outcome State Fault Refusal :=
  s.run fun m d => uniInt m d (hdK true o) latUni (shiftK shlNat o)

/-- SSHRK (R117, R157). -/
def execSshrk (o : Lk) (s : State) : Host.Outcome State Fault Refusal :=
  s.run fun m d => uniInt m d (hdK true o) latUni (shiftK shrNat o)

/-- SPOPC (R118, R157). -/
def execSpopc (o : Lr) (s : State) : Host.Outcome State Fault Refusal :=
  s.run fun m d => uniInt m d (hdA true o 0) latUni (count1 popNat o)

/-- SCLZ (R118, R157). -/
def execSclz (o : Lr) (s : State) : Host.Outcome State Fault Refusal :=
  s.run fun m d => uniInt m d (hdA true o 0) latUni (count1 clzNat o)

/-- SLEA (R121, R157). -/
def execSlea (o : Lr) (s : State) : Host.Outcome State Fault Refusal :=
  s.run fun m d => uniInt m d (hdAB1 true o 0) latUni (leaRes o)

/-- SSETC (R158). -/
def execSsetc (o : Lp) (s : State) : Host.Outcome State Fault Refusal :=
  s.run fun m d => uniInt m d (hdCmp true o 0) latUni fun rd _ => condRes o.pd (intCmp o rd)

/-- SSEL (R159): the guard selects. -/
def execSsel (o : Lr) (s : State) : Host.Outcome State Fault Refusal :=
  s.run fun m d =>
    let x := lrXm o 0
    let n := tyRegs x.ty
    let h := hd o.w (lenOf o.xm) [.c x.p.toNat, .s o.a n, .s o.b n]
    uniInt m d h latUni fun rd wr =>
      resOf wr o.d x.ty (if guardCond d (curSkein d) x.p x.n then patOf rd o.a x.ty else patOf rd o.b x.ty)

/-- SMOVK (R113, R157). -/
def execSmovk (o : Lk) (s : State) : Host.Outcome State Fault Refusal :=
  s.run fun m d => uniInt m d (hd o.w (lenOf o.xl) []) latUni fun _ wr => res1 wr o.d (immOf o true).toNat

/-- CLOP (R161). -/
def execClop (o : Plop) (s : State) : Host.Outcome State Fault Refusal :=
  s.run fun m d =>
    let k := curSkein d
    let h := hdXm o.w (lenOf o.xm) (plopXm o) [.c o.pa.toNat, .c o.pb.toNat, .c o.pc.toNat]
    uniInt m d h latUni fun _ _ =>
      condRes o.pd (lutOf o.lut (readC d k o.pa.toNat) (readC d k o.pb.toNat) (readC d k o.pc.toNat))

/-- SFADD (R162). -/
def execSfadd (o : Lr) (s : State) : Host.Outcome State Fault Refusal :=
  s.run fun m d =>
    uniAlu m d (hdAB true o 4) (fltLat (lrXm o 4).ty latUni) (fltBin faddVal (curSkein d) o)

/-- SFMUL (R162). -/
def execSfmul (o : Lr) (s : State) : Host.Outcome State Fault Refusal :=
  s.run fun m d =>
    uniAlu m d (hdAB true o 4) (fltLat (lrXm o 4).ty latUni) (fltBin fmulVal (curSkein d) o)

/-- SFFMA (R162). -/
def execSffma (o : Lr) (s : State) : Host.Outcome State Fault Refusal :=
  s.run fun m d => uniAlu m d (hdABC true o 4) (fltLat (lrXm o 4).ty latUni) (fltMad (curSkein d) o)

/-- SFSETC (R158). -/
def execSfsetc (o : Lp) (s : State) : Host.Outcome State Fault Refusal :=
  s.run fun m d =>
    uniAlu m d (hdCmp true o 4) (fltLat (lpXm o 4).ty latUni) fun rd _ =>
      let r := fltCmp (curSkein d) o rd
      (condRes o.pd r.1, if o.f then 0 else r.2)

/-- SCVT (R163). -/
def execScvt (o : Lr) (s : State) : Host.Outcome State Fault Refusal :=
  s.run fun m d =>
    let x := lrXm o 0
    uniAlu m d (hdA true o 0) (if x.ty == 5 || x.opx == 5 then latF64 else latUni) (cvtRes (curSkein d) o)

/-- MOVVS (R164): one lane's register, or zero when the lane is outside the bundle. -/
def execMovvs (o : Lk) (s : State) : Host.Outcome State Fault Refusal :=
  s.run fun m d =>
    let imm := immOf o false
    let n := if imm.getLsbD 6 then 2 else 1
    let lane := if imm.getLsbD 7 then (lanesOf d.cur.lanes).headD 0 else bitsOf imm 0 5
    let there := d.cur.lanes.getLsbD lane
    let pend := if there then hazV (curSkein d) (maskOf (· == lane)) o.a.toNat n else 0
    let x := if there then joinRegs (laneReader d lane) o.a.toNat n else 0
    let h := hd o.w (lenOf o.xl) []
    if isDet m (curCtx d) && pend != 0 then faulted m d h (faultAt .hazard 0 d.cur.lanes)
    else uniInt m d h latUni fun _ wr => splitRegs wr o.d.toNat x n

/-- PTOC (R165): a predicate reduced over every lane of the bundle. -/
def execPtoc (o : Lp) (s : State) : Host.Outcome State Fault Refusal :=
  s.run fun m d =>
    let k := curSkein d
    let p := bitsOf o.a 0 3
    let xs := (lanesOf d.cur.lanes).map fun l => readP d k l p != o.a.getLsbD 3
    let r := match o.cc.toNat with
      | 0 => xs.any id
      | 1 => xs.all id
      | _ => xs.all id || !xs.any id
    let h := hdXm o.w (lenOf o.xm) (lpXm o 0) [.pb p]
    uniInt m d h latUni fun _ _ => condRes o.pd r

end Sys2Proof.Machine
end

