-- ==== Sys2Proof/Machine/Dispatch.lean ====
section
/-!
DEFINITION. The one dispatch over the rows of the opcode table: each arm is its row's meaning.
-/

namespace Sys2Proof.Machine

def exec (i : Instr) (s : State) : Host.Outcome State Fault Refusal :=
  match i with
  | .iadd o => Sys2Proof.Machine.execIadd o s
  | .isub o => Sys2Proof.Machine.execIsub o s
  | .iaddk o => Sys2Proof.Machine.execIaddk o s
  | .imul o => Sys2Proof.Machine.execImul o s
  | .imulh o => Sys2Proof.Machine.execImulh o s
  | .imad o => Sys2Proof.Machine.execImad o s
  | .idiv o => Sys2Proof.Machine.execIdiv o s
  | .imin o => Sys2Proof.Machine.execImin o s
  | .imax o => Sys2Proof.Machine.execImax o s
  | .and o => Sys2Proof.Machine.execAnd o s
  | .or o => Sys2Proof.Machine.execOr o s
  | .xor o => Sys2Proof.Machine.execXor o s
  | .andn o => Sys2Proof.Machine.execAndn o s
  | .andk o => Sys2Proof.Machine.execAndk o s
  | .ork o => Sys2Proof.Machine.execOrk o s
  | .xork o => Sys2Proof.Machine.execXork o s
  | .shl o => Sys2Proof.Machine.execShl o s
  | .shr o => Sys2Proof.Machine.execShr o s
  | .sar o => Sys2Proof.Machine.execSar o s
  | .shlk o => Sys2Proof.Machine.execShlk o s
  | .shrk o => Sys2Proof.Machine.execShrk o s
  | .sark o => Sys2Proof.Machine.execSark o s
  | .popc o => Sys2Proof.Machine.execPopc o s
  | .clz o => Sys2Proof.Machine.execClz o s
  | .brev o => Sys2Proof.Machine.execBrev o s
  | .bfe o => Sys2Proof.Machine.execBfe o s
  | .bfi o => Sys2Proof.Machine.execBfi o s
  | .lea o => Sys2Proof.Machine.execLea o s
  | .isetp o => Sys2Proof.Machine.execIsetp o s
  | .sel o => Sys2Proof.Machine.execSel o s
  | .mov o => Sys2Proof.Machine.execMov o s
  | .movk o => Sys2Proof.Machine.execMovk o s
  | .movsv o => Sys2Proof.Machine.execMovsv o s
  | .plop o => Sys2Proof.Machine.execPlop o s
  | .pmov o => Sys2Proof.Machine.execPmov o s
  | .fadd o => Sys2Proof.Machine.execFadd o s
  | .fmul o => Sys2Proof.Machine.execFmul o s
  | .ffma o => Sys2Proof.Machine.execFfma o s
  | .fmin o => Sys2Proof.Machine.execFmin o s
  | .fmax o => Sys2Proof.Machine.execFmax o s
  | .fsetp o => Sys2Proof.Machine.execFsetp o s
  | .fdiv o => Sys2Proof.Machine.execFdiv o s
  | .rcp o => Sys2Proof.Machine.execRcp o s
  | .rsq o => Sys2Proof.Machine.execRsq o s
  | .sqrt o => Sys2Proof.Machine.execSqrt o s
  | .ex2 o => Sys2Proof.Machine.execEx2 o s
  | .lg2 o => Sys2Proof.Machine.execLg2 o s
  | .sinpi o => Sys2Proof.Machine.execSinpi o s
  | .cospi o => Sys2Proof.Machine.execCospi o s
  | .frnd o => Sys2Proof.Machine.execFrnd o s
  | .fclass o => Sys2Proof.Machine.execFclass o s
  | .fscale o => Sys2Proof.Machine.execFscale o s
  | .fdot2 o => Sys2Proof.Machine.execFdot2 o s
  | .cvt o => Sys2Proof.Machine.execCvt o s
  | .cvtp o => Sys2Proof.Machine.execCvtp o s
  | .prmt o => Sys2Proof.Machine.execPrmt o s
  | .flgrd o => Sys2Proof.Machine.execFlgrd o s
  | .flgclr o => Sys2Proof.Machine.execFlgclr o s
  | .shfl o => Sys2Proof.Machine.execShfl o s
  | .shflup o => Sys2Proof.Machine.execShflup o s
  | .shfldn o => Sys2Proof.Machine.execShfldn o s
  | .shflx o => Sys2Proof.Machine.execShflx o s
  | .vote o => Sys2Proof.Machine.execVote o s
  | .ballot o => Sys2Proof.Machine.execBallot o s
  | .lred o => Sys2Proof.Machine.execLred o s
  | .lscan o => Sys2Proof.Machine.execLscan o s
  | .matchLanes o => Sys2Proof.Machine.execMatchLanes o s
  | .rdsr o => Sys2Proof.Machine.execRdsr o s
  | .brl o => Sys2Proof.Machine.execBrl o s
  | .call o => Sys2Proof.Machine.execCall o s
  | .ret o => Sys2Proof.Machine.execRet o s
  | .jmpl o => Sys2Proof.Machine.execJmpl o s
  | .exit o => Sys2Proof.Machine.execExit o s
  | .reorder o => Sys2Proof.Machine.execReorder o s
  | .svc o => Sys2Proof.Machine.execSvc o s
  | .bkpt o => Sys2Proof.Machine.execBkpt o s
  | .ld o => Sys2Proof.Machine.execLd o s
  | .st o => Sys2Proof.Machine.execSt o s
  | .ldb o => Sys2Proof.Machine.execLdb o s
  | .stb o => Sys2Proof.Machine.execStb o s
  | .lds o => Sys2Proof.Machine.execLds o s
  | .sts o => Sys2Proof.Machine.execSts o s
  | .atom o => Sys2Proof.Machine.execAtom o s
  | .atomb o => Sys2Proof.Machine.execAtomb o s
  | .atoms o => Sys2Proof.Machine.execAtoms o s
  | .prf o => Sys2Proof.Machine.execPrf o s
  | .ldg o => Sys2Proof.Machine.execLdg o s
  | .stg o => Sys2Proof.Machine.execStg o s
  | .stq o => Sys2Proof.Machine.execStq o s
  | .ldq o => Sys2Proof.Machine.execLdq o s
  | .ldpx o => Sys2Proof.Machine.execLdpx o s
  | .stpx o => Sys2Proof.Machine.execStpx o s
  | .ldcf o => Sys2Proof.Machine.execLdcf o s
  | .stcf o => Sys2Proof.Machine.execStcf o s
  | .smp o => Sys2Proof.Machine.execSmp o s
  | .dscl o => Sys2Proof.Machine.execDscl o s
  | .dscf o => Sys2Proof.Machine.execDscf o s
  | .nop o => Sys2Proof.Machine.execNop o s
  | .sadd o => Sys2Proof.Machine.execSadd o s
  | .ssub o => Sys2Proof.Machine.execSsub o s
  | .saddk o => Sys2Proof.Machine.execSaddk o s
  | .smul o => Sys2Proof.Machine.execSmul o s
  | .smad o => Sys2Proof.Machine.execSmad o s
  | .smin o => Sys2Proof.Machine.execSmin o s
  | .smax o => Sys2Proof.Machine.execSmax o s
  | .sand o => Sys2Proof.Machine.execSand o s
  | .sor o => Sys2Proof.Machine.execSor o s
  | .sxor o => Sys2Proof.Machine.execSxor o s
  | .sshl o => Sys2Proof.Machine.execSshl o s
  | .sshr o => Sys2Proof.Machine.execSshr o s
  | .ssar o => Sys2Proof.Machine.execSsar o s
  | .sshlk o => Sys2Proof.Machine.execSshlk o s
  | .sshrk o => Sys2Proof.Machine.execSshrk o s
  | .spopc o => Sys2Proof.Machine.execSpopc o s
  | .sclz o => Sys2Proof.Machine.execSclz o s
  | .slea o => Sys2Proof.Machine.execSlea o s
  | .ssetc o => Sys2Proof.Machine.execSsetc o s
  | .ssel o => Sys2Proof.Machine.execSsel o s
  | .smov o => Sys2Proof.Machine.execSmov o s
  | .smovk o => Sys2Proof.Machine.execSmovk o s
  | .clop o => Sys2Proof.Machine.execClop o s
  | .sfadd o => Sys2Proof.Machine.execSfadd o s
  | .sfmul o => Sys2Proof.Machine.execSfmul o s
  | .sffma o => Sys2Proof.Machine.execSffma o s
  | .sfsetc o => Sys2Proof.Machine.execSfsetc o s
  | .scvt o => Sys2Proof.Machine.execScvt o s
  | .movvs o => Sys2Proof.Machine.execMovvs o s
  | .rdsrUniform o => Sys2Proof.Machine.execRdsrUniform o s
  | .wrsr o => Sys2Proof.Machine.execWrsr o s
  | .sld o => Sys2Proof.Machine.execSld o s
  | .sst o => Sys2Proof.Machine.execSst o s
  | .ptoc o => Sys2Proof.Machine.execPtoc o s
  | .bra o => Sys2Proof.Machine.execBra o s
  | .jmp o => Sys2Proof.Machine.execJmp o s
  | .brx o => Sys2Proof.Machine.execBrx o s
  | .yield o => Sys2Proof.Machine.execYield o s
  | .region o => Sys2Proof.Machine.execRegion o s
  | .spawn o => Sys2Proof.Machine.execSpawn o s
  | .join o => Sys2Proof.Machine.execJoin o s
  | .event o => Sys2Proof.Machine.execEvent o s
  | .eventLiteral o => Sys2Proof.Machine.execEventLiteral o s
  | .rtrig o => Sys2Proof.Machine.execRtrig o s
  | .bar o => Sys2Proof.Machine.execBar o s
  | .barp o => Sys2Proof.Machine.execBarp o s
  | .fence o => Sys2Proof.Machine.execFence o s
  | .lockl o => Sys2Proof.Machine.execLockl o s
  | .unlockl o => Sys2Proof.Machine.execUnlockl o s
  | .pinl o => Sys2Proof.Machine.execPinl o s
  | .unpinl o => Sys2Proof.Machine.execUnpinl o s
  | .waitx o => Sys2Proof.Machine.execWaitx o s
  | .waitv o => Sys2Proof.Machine.execWaitv o s
  | .lstat o => Sys2Proof.Machine.execLstat o s
  | .cpy o => Sys2Proof.Machine.execCpy o s
  | .cpyg o => Sys2Proof.Machine.execCpyg o s
  | .cpyd o => Sys2Proof.Machine.execCpyd o s
  | .mxa o => Sys2Proof.Machine.execMxa o s
  | .mxc o => Sys2Proof.Machine.execMxc o s
  | .mxz o => Sys2Proof.Machine.execMxz o s
  | .mxld o => Sys2Proof.Machine.execMxld o s
  | .mxst o => Sys2Proof.Machine.execMxst o s
  | .twait o => Sys2Proof.Machine.execTwait o s
  | .tfirst o => Sys2Proof.Machine.execTfirst o s
  | .tstat o => Sys2Proof.Machine.execTstat o s
  | .qbind o => Sys2Proof.Machine.execQbind o s
  | .qfree o => Sys2Proof.Machine.execQfree o s
  | .qstat o => Sys2Proof.Machine.execQstat o s
  | .tdesc o => Sys2Proof.Machine.execTdesc o s
  | .seal o => Sys2Proof.Machine.execSeal o s
  | .stmv o => Sys2Proof.Machine.execStmv o s
  | .surfclr o => Sys2Proof.Machine.execSurfclr o s
  | .tbegin o => Sys2Proof.Machine.execTbegin o s
  | .tflush o => Sys2Proof.Machine.execTflush o s
  | .illegalWord w0 ext r => Sys2Proof.Machine.execIllegalWord w0 ext r s
  | .fetchFault c addr => Sys2Proof.Machine.execFetchFault c addr s
  | .resultWriteback skein k => Sys2Proof.Machine.execResultWriteback skein k s
  | .issueRotation skein => Sys2Proof.Machine.execIssueRotation skein s
  | .fenceComplete skein => Sys2Proof.Machine.execFenceComplete skein s
  | .runAheadEnd skein => Sys2Proof.Machine.execRunAheadEnd skein s
  | .invalidation spindle line => Sys2Proof.Machine.execInvalidation spindle line s
  | .evictionNotice spindle line => Sys2Proof.Machine.execEvictionNotice spindle line s
  | .writebackMerge spindle line => Sys2Proof.Machine.execWritebackMerge spindle line s
  | .qdoorWrite ctx n v => Sys2Proof.Machine.execQdoorWrite ctx n v s
  | .triggerWrite ctx n v => Sys2Proof.Machine.execTriggerWrite ctx n v s
  | .qcfgWrite ctx n hi v => Sys2Proof.Machine.execQcfgWrite ctx n hi v s
  | .registerWrite bar off v => Sys2Proof.Machine.execRegisterWrite bar off v s
  | .xinv cmd => Sys2Proof.Machine.execXinv cmd s
  | .harvest cmd => Sys2Proof.Machine.execHarvest cmd s
  | .mmcmdDone cmd ok => Sys2Proof.Machine.execMmcmdDone cmd ok s
  | .image cmd => Sys2Proof.Machine.execImage cmd s
  | .attest cmd => Sys2Proof.Machine.execAttest cmd s
  | .identity cmd => Sys2Proof.Machine.execIdentity cmd s
  | .readlog cmd => Sys2Proof.Machine.execReadlog cmd s
  | .clearlog cmd => Sys2Proof.Machine.execClearlog cmd s
  | .streamtab cmd => Sys2Proof.Machine.execStreamtab cmd s
  | .streamstart cmd => Sys2Proof.Machine.execStreamstart cmd s
  | .streamstop cmd => Sys2Proof.Machine.execStreamstop cmd s
  | .mailboxComplete st detail outlen => Sys2Proof.Machine.execMailboxComplete st detail outlen s
  | .packetNop ctx n => Sys2Proof.Machine.execPacketNop ctx n s
  | .packetLaunch ctx n => Sys2Proof.Machine.execPacketLaunch ctx n s
  | .packetWait ctx n => Sys2Proof.Machine.execPacketWait ctx n s
  | .waitPacketWake ctx n => Sys2Proof.Machine.execWaitPacketWake ctx n s
  | .reelRunBegin ctx n => Sys2Proof.Machine.execReelRunBegin ctx n s
  | .spoolPop die ctx prio => Sys2Proof.Machine.execSpoolPop die ctx prio s
  | .slotGrant src => Sys2Proof.Machine.execSlotGrant src s
  | .quantumExpiry slot => Sys2Proof.Machine.execQuantumExpiry slot s
  | .plyDispatch launch => Sys2Proof.Machine.execPlyDispatch launch s
  | .preemptComplete skein => Sys2Proof.Machine.execPreemptComplete skein s
  | .groupSave group => Sys2Proof.Machine.execGroupSave group s
  | .groupReplace group => Sys2Proof.Machine.execGroupReplace group s
  | .groupRetire group => Sys2Proof.Machine.execGroupRetire group s
  | .faultRecord rec => Sys2Proof.Machine.execFaultRecord rec s
  | .retry rec => Sys2Proof.Machine.execRetry rec s
  | .skip rec => Sys2Proof.Machine.execSkip rec s
  | .supply rec => Sys2Proof.Machine.execSupply rec s
  | .killSkein rec => Sys2Proof.Machine.execKillSkein rec s
  | .killLaunch rec => Sys2Proof.Machine.execKillLaunch rec s
  | .killContext rec => Sys2Proof.Machine.execKillContext rec s
  | .svcResume skein => Sys2Proof.Machine.execSvcResume skein s
  | .svcKill skein => Sys2Proof.Machine.execSvcKill skein s
  | .watchdogExpiry ctx => Sys2Proof.Machine.execWatchdogExpiry ctx s
  | .deadlockCheck skein => Sys2Proof.Machine.execDeadlockCheck skein s
  | .lockTimeout skein => Sys2Proof.Machine.execLockTimeout skein s
  | .waitWake line => Sys2Proof.Machine.execWaitWake line s
  | .engineStart eng => Sys2Proof.Machine.execEngineStart eng s
  | .engineComplete eng => Sys2Proof.Machine.execEngineComplete eng s
  | .engineStop eng => Sys2Proof.Machine.execEngineStop eng s
  | .surfaceOpApply op => Sys2Proof.Machine.execSurfaceOpApply op s
  | .partialRenderEnd die => Sys2Proof.Machine.execPartialRenderEnd die s
  | .tileRoundStart die tile => Sys2Proof.Machine.execTileRoundStart die tile s
  | .frameDue die stream => Sys2Proof.Machine.execFrameDue die stream s
  | .frameDeadline die stream => Sys2Proof.Machine.execFrameDeadline die stream s
  | .tileRowEmit die stream => Sys2Proof.Machine.execTileRowEmit die stream s
  | .surfaceWriteRegistered skein => Sys2Proof.Machine.execSurfaceWriteRegistered skein s
  | .requestRingWrite skein => Sys2Proof.Machine.execRequestRingWrite skein s
  | .snpdata half => Sys2Proof.Machine.execSnpdata half s
  | .snpinv half => Sys2Proof.Machine.execSnpinv half s
  | .snpcur half => Sys2Proof.Machine.execSnpcur half s
  | .hostMemRead half keep => Sys2Proof.Machine.execHostMemRead half keep s
  | .hostMemWrite half data keep => Sys2Proof.Machine.execHostMemWrite half data keep s
  | .hostLineGrant half req excl data => Sys2Proof.Machine.execHostLineGrant half req excl data s
  | .peerMemWrite pa bytes => Sys2Proof.Machine.execPeerMemWrite pa bytes s
  | .peerMemRead pa n => Sys2Proof.Machine.execPeerMemRead pa n s
  | .peerAtomicIn op wide pa x y => Sys2Proof.Machine.execPeerAtomicIn op wide pa x y s
  | .powerGate u => Sys2Proof.Machine.execPowerGate u s
  | .reset => Sys2Proof.Machine.execReset s
  | .linkerrWrite v => Sys2Proof.Machine.execLinkerrWrite v s
  | .detctlWrite ctx v => Sys2Proof.Machine.execDetctlWrite ctx v s
  | .diecapWrite die v => Sys2Proof.Machine.execDiecapWrite die v s
  | .uncorrectableError line => Sys2Proof.Machine.execUncorrectableError line s
  | .linkDown port => Sys2Proof.Machine.execLinkDown port s
  | .clockStep die step => Sys2Proof.Machine.execClockStep die step s
  | .thermalHold die => Sys2Proof.Machine.execThermalHold die s
  | .criticalTemperature die => Sys2Proof.Machine.execCriticalTemperature die s
  | .deviceStart r => Sys2Proof.Machine.execDeviceStart r s
  | .partitionWrite ctx die v => Sys2Proof.Machine.execPartitionWrite ctx die v s
  | .bisnpResponse half data => Sys2Proof.Machine.execBisnpResponse half data s

end Sys2Proof.Machine
end

