-- ==== Sys2Proof/Machine/Place.lean ====
section
/-!
DEFINITION. A module that runs one program: what has to stand in the state for a skein of context 0 to fetch its next
instruction at a given place (notes/assumptions/5). It stands for the work of system software and of the Distaff, which the
steps of the device do from a start and a doorbell on.
-/

namespace Sys2Proof.Machine

/-- Where the program stands: its virtual address, and the physical address of its page. -/
def progVa : DWord := 0x1000
def progPa : Nat := 0x20000

/-- Page tables of four levels that map that one page as code (R185, R186, R55). (DESIGN CHOICE: notes/assumptions/5) -/
def progTables (mem : List Host.Cell) : List Host.Cell :=
  memPut (memPut (memPut (memPut mem 0x10000 0x11001 8) 0x11000 0x12001 8) 0x12000 0x13001 8) 0x13008 0x20003 8

/-- A launch header of one group of one skein with every register, every barrier slot and every tag (R18).
(DESIGN CHOICE: notes/assumptions/5) -/
def progHeader : BitVec 1024 :=
  BitVec.ofNat 1024 (0x1000 + 2 ^ 128 + 2 ^ 416 + 2 ^ 432 + 15 * 2 ^ 504 + 15 * 2 ^ 512 + 32 * 2 ^ 520 + 64 * 2 ^ 544)

/-- A thread of it, in the state of R26. (DESIGN CHOICE: notes/assumptions/5) -/
def progThread (l : Nat) : Thread :=
  { blankThread with
    wid := BitVec.ofNat 64 l, num0 := l, pc := progVa, stk := BitVec.ofNat 64 (256 * (l + 1)),
    v := (Vector.replicate 120 0).setIfInBounds 0 (BitVec.ofNat 32 l) }

/-- Its group and its skein. (DESIGN CHOICE: notes/assumptions/5) -/
def progGroup : Group := { blankGroup with header := progHeader, cls := 0, resident := true }
def progSkein : Skein :=
  { blankSkein with resident := true, threads := Vector.ofFn fun l : Fin 32 => progThread l.val }
def progLaunch : Launch :=
  { id := 0, ctx := 0, src := .queue 0, header := progHeader, hdrAddr := 0, args := 0, cls := 0, next := 1, retired := [],
    lastDie := some 0 }

/-- Context 0 with its translation enabled over those tables, not deterministic. (DESIGN CHOICE: notes/assumptions/5) -/
def progCtx (c : Ctx) : Ctx := { c with ptbase := 0x10001, detctl := 0 }

/-- The device with that program resident as its only work and nothing else due. (DESIGN CHOICE: notes/assumptions/5) -/
def progDev (d : Dev) (code : List Byte) : Dev :=
  { d with
    mem := memBytes (progTables d.mem) progPa code, forms := [], hostState := [], l1 := [], tlb := [], rpPages := [], rpHeld := [],
    stage := 2, stackMask := d.stackMask ||| 1, saveGb := 16, saveMoves := Vector.replicate 16 0,
    turn := 0, held := 0, agenda := [], quarters := [],
    launches := [progLaunch], groups := [progGroup], skeins := [progSkein], nextId := max d.nextId 1 }

end Sys2Proof.Machine
end

