-- ==== Sys2Proof/Machine/Step.lean ====
section
/-!
DEFINITION. One step of the machine: the next due event, or one issue of one skein, or the passing of a cycle
(notes/assumptions/1).
-/

namespace Sys2Proof.Machine

/-- The device at the start of a step: its free values are drawn anew. (DESIGN CHOICE: notes/assumptions/3) -/
def Dev.fresh (d : Dev) : Dev := { d with free := d.free + 1 }

/-- One step. (DESIGN CHOICE: notes/assumptions/1) -/
def step (s : State) : Host.Outcome State Fault Refusal :=
  match choose s.mgmt s.dev.fresh with
  | .event e d => if isWord e then .fault .notAnEvent else exec e { s with dev := d }
  | .issue i d => exec i { s with dev := d }
  | .quiet d => .next { s with dev := d }

/-- The state with an instruction of the opcode table stored where the next step fetches (R2, R57).
(DESIGN CHOICE: notes/assumptions/5) -/
def State.withFetchWord (s : State) (nbits w : Nat) : State :=
  { mgmt := { ctxs := s.mgmt.ctxs.setIfInBounds 0 (progCtx (ctxOf s.mgmt 0)) },
    dev := progDev s.dev (tableBytes (w % 2 ^ nbits)) }

end Sys2Proof.Machine
end

