-- ==== Sys2Proof/Safety.lean ====
section
/-!
DEFINITION. The terms claims are stated in: a step that answers a next state, and what one issue of an instruction changes and
leaves (R89, R96, R98, R108, R155).
-/

namespace Sys2Proof.Machine

/-- Whether the machine answers a next state from here. -/
def Steps (s : State) : Prop := ∃ t, step s = .next t

/-- Whether the agenda, the model's list of due events, holds device steps alone and no instruction word. -/
def AgendaOk (d : Dev) : Prop := ∀ e ∈ d.agenda, isWord e = false

/-- The skein that issues stands in the device. -/
def Issuing (s : State) : Prop := (skein? s.dev s.dev.cur.skein).isSome = true

/-- No source of the lanes `ex` is a register with a result in flight, where the context is deterministic (R99). -/
def Clear (s : State) (ex : Mask) (rds : List Rd) : Prop :=
  isDet s.mgmt (curCtx s.dev) = true → hazOf (curSkein s.dev) s.dev.cur.lanes ex rds = 0

/-- The lanes that execute under a guard predicate, and whether a guard condition holds (R107, R155). -/
def lanesUnder (s : State) (p : BitVec 3) (n : Bool) : Mask := guardMask s.dev (curSkein s.dev) p n
def condUnder (s : State) (p : BitVec 3) (n : Bool) : Bool := guardCond s.dev (curSkein s.dev) p n

/-- The results in flight that an instruction of a latency adds (R96, R97); none at all adds none. -/
def newResults (s : State) (lat : Nat) (ws : List PWrite) : List Pend :=
  if ws.isEmpty then []
  else [{ id := s.dev.nextId, due := cyclesOf s.dev (curGroup s.dev).die + lat, ws := ws }]

/-- The address after the bundle's instruction of `len` bytes, for every lane. -/
def past (s : State) (len : Nat) : Nat → DWord := fun _ => nextPc s.dev len

/-- A thread after an instruction of its bundle: it stands at `pcs`, with flags raised, and an instruction that breaks regions has
ended its region; a thread outside the bundle is as it was. -/
def threadAfter (s t : State) (pcs : Nat → DWord) (brk : Bool) (fl : Nat → FFlags) (l : Nat) : Thread :=
  let old := threadOf (curSkein s.dev) l
  let mine := s.dev.cur.lanes.getLsbD l
  { old with
    pc := if mine then pcs l else old.pc
    flags := old.flags ||| fl l
    region := if brk && mine then none else old.region
    last := (threadOf (curSkein t.dev) l).last }

/-- What an instruction that only computes results leaves and changes: it puts `ws` in flight, raises the flags `fl`, and moves each
lane of the bundle to `pcs`. Everything else of the machine but the counts of an issue is as it was; no written value of a register
changes, nor a byte of memory. -/
structure Issued (s t : State) (pcs : Nat → DWord) (brk : Bool) (lat : Nat) (ws : List PWrite) (fl : Nat → FFlags) : Prop where
  mgmt : t.mgmt = s.mgmt
  dev : t.dev = { s.dev with
    skeins := t.dev.skeins, quarters := t.dev.quarters, stalled := t.dev.stalled, nextId := t.dev.nextId }
  others : ∀ u, u ≠ s.dev.cur.skein → skein? t.dev u = skein? s.dev u
  skein : curSkein t.dev = { curSkein s.dev with
    threads := (curSkein t.dev).threads, pend := (curSkein t.dev).pend, rot := (curSkein t.dev).rot,
    marker := (curSkein t.dev).marker, runAhead := (curSkein t.dev).runAhead }
  results : (curSkein t.dev).pend = (curSkein s.dev).pend ++ newResults s lat ws
  threads : ∀ l, l < 32 → threadOf (curSkein t.dev) l = threadAfter s t pcs brk fl l

/-- The instruction answers a next state in which it has done just that. -/
def Runs (i : Instr) (s : State) (pcs : Nat → DWord) (brk : Bool) (lat : Nat) (ws : List PWrite) (fl : Nat → FFlags) : Prop :=
  ∃ t, exec i s = .next t ∧ Issued s t pcs brk lat ws fl

/-- A lane instruction under the guard `p`, `n` completes with its results in the lanes that execute (R108). -/
def LaneRuns (i : Instr) (s : State) (p : BitVec 3) (n : Bool) (len lat : Nat) (rds : List Rd)
    (res : Nat → List PWrite × FFlags) : Prop :=
  Clear s (lanesUnder s p n) (.pb p.toNat :: rds) →
    Runs i s (past s len) false lat ((lanesOf (lanesUnder s p n)).flatMap fun l => (res l).1)
      (fun l => if (lanesUnder s p n).getLsbD l then (res l).2 else 0)

/-- A uniform instruction under the guard condition `p`, `n` completes once, or does nothing but move on (R155); its flags go to
every thread of the bundle (R156). -/
def UniRuns (i : Instr) (s : State) (p : BitVec 3) (n : Bool) (len lat : Nat) (rds : List Rd) (res : List PWrite × FFlags) : Prop :=
  Clear s s.dev.cur.lanes (.c p.toNat :: if condUnder s p n then rds else []) →
    Runs i s (past s len) false lat (if condUnder s p n then res.1 else [])
      (fun l => if condUnder s p n && s.dev.cur.lanes.getLsbD l then res.2 else 0)

/-- The device after the counts of an issue and the move past an instruction of `len` bytes: what every instruction that is performed
begins with. The regions of the lanes `ends` end; with `brk` those of the whole bundle. -/
def movedIn (s : State) (w : Bool) (len : Nat) (ends : Mask) : Dev :=
  advance s.mgmt s.dev { w := w, len := len, p := 7, n := false, rds := [], ends := ends, fp64 := false }
def moved (s : State) (w : Bool) (len : Nat) (brk : Bool) : Dev := movedIn s w len (endsIf brk)

/-- The machine with another device, its management registers as they were. -/
def State.dev' (s : State) (d : Dev) : State := { s with dev := d }

/-- The machine answers the next state with this device, its management registers as they were. -/
def Goes (i : Instr) (s : State) (d : Dev) : Prop := exec i s = .next (s.dev' d)

/-- No hazard stops an instruction under a guard: of the lane set, of the uniform set (R99). -/
def LaneClear (s : State) (p : BitVec 3) (n : Bool) (rds : List Rd) : Prop := Clear s (lanesUnder s p n) (.pb p.toNat :: rds)
def UniClear (s : State) (p : BitVec 3) (n : Bool) (rds : List Rd) : Prop :=
  Clear s s.dev.cur.lanes (.c p.toNat :: if condUnder s p n then rds else [])

/-- What a fault of an instruction of `len` bytes comes to: the exception is taken, or run-ahead begins, goes on or ends; and the
device, `d` otherwise, with the skein parked at it, to end the regions of the lanes `ends` when it completes; with `brk` those of the
whole bundle. -/
def trapped (s : State) (w : Bool) (len : Nat) (brk : Bool) (f : FaultInfo) : Dev :=
  faulted s.mgmt s.dev { w := w, len := len, p := 7, n := false, rds := [], ends := endsIf brk, fp64 := false } f
def parkedIn (s : State) (w : Bool) (len : Nat) (ends : Mask) (d : Dev) (p : Park) : Dev :=
  parkSkein s.mgmt s.dev d { w := w, len := len, p := 7, n := false, rds := [], ends := ends, fp64 := false } p
def parked (s : State) (w : Bool) (len : Nat) (brk : Bool) (d : Dev) (p : Park) : Dev := parkedIn s w len (endsIf brk) d p

/-- A byte of physical memory as a spindle sees it: from its own L1's copy where that holds the word, else from memory. -/
def byteSeen (d : Dev) (sp pa : Nat) : Byte :=
  match l1Phys d sp (pa / 128) with
  | some c => if holds c (byteMask (pa % 128) 1) then BitVec.ofNat 8 (takeBytes c.data (pa % 128) 1) else memByte d.mem pa
  | none => memByte d.mem pa

/-- An access of a spindle that its L1 answers: an aligned canonical pointer whose line is there with the words of the access valid, the
guard tag right, and the plain or bypassing policy (0, 1, 5) in force; no engine owns the line, no lock has its way reserved, and a load
meets no clean word that has been lost (R218). -/
structure Hits (s : State) (p : DWord) (n pol : Nat) (store : Bool) (c : L1Line) : Prop where
  canon : nonCanon p = false
  aligned : p.toNat % n = 0
  size : 0 < n ∧ n ∣ 128
  line : l1Hit s.dev (curSpindle s.dev) (ctxAsid s.mgmt (curCtx s.dev)) (bitsOf p 7 41) = some c
  own : l1Phys s.dev (curSpindle s.dev) c.pa = some c
  current : c.stale = false
  valid : holds c (byteMask (p.toNat % 128) n) = true
  writable : store = true → c.leaf.w = true
  tag : guardOk s.dev (curSpindle s.dev) p c.leaf (128 * c.pa + p.toNat % 128) n = true
  policy : policyAt pol c.leaf store = 0 ∨ policyAt pol c.leaf store = 1 ∨ policyAt pol c.leaf store = 5
  near : isPeer (128 * c.pa + p.toNat % 128) = false
  unowned : engineOwns s.dev c.pa = false
  unreserved : emptyWay s.dev (curSpindle s.dev) c.pa = none
  sound : store = false → cleanLost s.dev c (byteMask (p.toNat % 128) n) = false

/-- An access that hits a writable line which the spindle's L1 owns whole, on its caching die: where an atomic at .sk or .gr is
performed without another cache (R231). -/
structure Owns (s : State) (p : DWord) (n : Nat) (c : L1Line) : Prop where
  hit : Hits s p n 0 true c
  state : c.st = .e
  whole : holds c (BitVec.allOnes 128) = true
  home : isHome (curSpindle s.dev) c.pa c.leaf = true
  unspoilt : cleanLost s.dev c (byteMask (p.toNat % 128) n) = false

/-- A pointer that passes the checks of R357 and R363 for `n` bytes at the spindle of the issuing skein, and its place: canonical,
aligned, translated, the guard tag right, and no engine's line. -/
structure Reaches (s : State) (p : DWord) (n : Nat) (l : Leaf) (pa : Nat) : Prop where
  canon : nonCanon p = false
  aligned : p.toNat % n = 0
  found : locate s.mgmt s.dev (curCtx s.dev) (curSpindle s.dev) p = .ok (l, pa)
  tag : guardOk s.dev (curSpindle s.dev) p l pa n = true
  unowned : engineOwns s.dev (pa / 128) = false

/-! ## Legal values of the management registers -/

/-- What every register of a context holds: the zero bits of its register are zero, and its fields are in their ranges (R35, R42, R184,
R328, R329, R445, R457). -/
structure CtxLegal (c : Ctx) : Prop where
  ptbase : bitsOf c.ptbase 1 11 = 0 ∧ bitsOf c.ptbase 41 7 = 0
  ctxclass : c.ctxclass.toNat < 4
  quantum : 16 ≤ c.quantum.toNat ∧ c.quantum.toNat ≤ 30
  watchdog : c.watchdog.toNat < 2 ^ 32
  faultq : (bitsOf c.faultq 0 5 = 0 ∨ (6 ≤ bitsOf c.faultq 0 5 ∧ bitsOf c.faultq 0 5 ≤ 16)) ∧ bitsOf c.faultq 5 5 = 0 ∧
    bitsOf c.faultq 10 2 ≠ 3
  ring : (bitsOf c.ring 0 5 = 0 ∨ (6 ≤ bitsOf c.ring 0 5 ∧ bitsOf c.ring 0 5 ≤ 16)) ∧ bitsOf c.ring 5 7 = 0
  detctl : c.detctl.toNat < 2
  reeltab : bitsOf c.reeltab 0 22 = 0
  part : ∀ (die : Nat) (x : DWord), c.part[die]? = some x → bitsOf x 48 15 = 0 ∧ (die ≠ 0 → x.getLsbD 63 = false)
  spoolcfg : ∀ (n : Nat) (x : DWord), c.spoolcfg[n]? = some x → x = 0 ∨ (bitsOf x 5 7 = 0 ∧ 4 ≤ bitsOf x 0 5 ∧ bitsOf x 0 5 ≤ 20)

/-- The legal management registers: each context's own; two enabled contexts have two address spaces (R184); each context permits some
spindle, and two exclusive ones have none in common (R49). -/
structure MgmtLegal (m : Mgmt) : Prop where
  own : ∀ c, c < 64 → CtxLegal (ctxOf m c)
  spaces : ∀ a b, a < 64 → b < 64 → a ≠ b → ctxEnabled m a = true → ctxEnabled m b = true → ctxAsid m a ≠ ctxAsid m b
  spindles : ∀ c, c < 64 → ∃ die i, die < 16 ∧ i < 48 ∧ partBit m c die i = true
  apart : ∀ a b, a < 64 → b < 64 → a ≠ b → exclusive m a = true → exclusive m b = true →
    ∀ die i, die < 16 → i < 48 → ¬ (partBit m a die i = true ∧ partBit m b die i = true)

end Sys2Proof.Machine
end

