-- ==== Sys2Proof/Certificates/Slice0/Obligations.lean ====
section
/-!
DEFINITION. The statements for the provers. Where a statement names the instruction's bundle, it is `s.dev.cur`: the skein that
issues, its lanes and their address (R89).
-/

namespace Sys2Proof.Claims
open Sys2Proof.Machine

/-! ## Values of registers (R107, R109) -/

/-- The width of an integer type in bits, and its least and greatest value. -/
def wide (ty : BitVec 4) : Bool := tyRegs ty == 2
def width (ty : BitVec 4) : Nat := if wide ty then 64 else 32

/-- A pattern put into the register, or the even pair, from `r` on: bits [31:0] in the first (R109). -/
def putWord (wr : Writer) (r : BitVec 7) (x : Word) : List PWrite := [wr r.toNat x]
def putPair (wr : Writer) (r : BitVec 7) (x : DWord) : List PWrite :=
  [wr r.toNat (x.extractLsb' 0 32), wr (r.toNat + 1) (x.extractLsb' 32 32)]
def putBits (wr : Writer) (r : BitVec 7) (ty : BitVec 4) (x : DWord) : List PWrite :=
  if wide ty then putPair wr r x else putWord wr r (x.extractLsb' 0 32)

/-- The pattern of a source: one register, or the pair. -/
def getBits (rd : Reader) (r : BitVec 7) (ty : BitVec 4) : DWord :=
  if wide ty then rd (r.toNat + 1) ++ rd r.toNat else (rd r.toNat).setWidth 64

/-- Val of R107 for the integer types .i32, .n32, .i64, .n64 (codes 0 to 3). -/
def intVal (rd : Reader) (r : BitVec 7) (ty : BitVec 4) : Int :=
  if ty = 0 then (rd r.toNat).toInt
  else if ty = 1 then ((rd r.toNat).toNat : Int)
  else if ty = 2 then (rd (r.toNat + 1) ++ rd r.toNat).toInt
  else ((rd (r.toNat + 1) ++ rd r.toNat).toNat : Int)

/-- Clamp of R107 to the values of a type. -/
def clampTo (ty : BitVec 4) (x : Int) : Int :=
  let lo : Int := if ty = 0 then -2 ^ 31 else if ty = 2 then -2 ^ 63 else 0
  let hi : Int := if ty = 0 then 2 ^ 31 - 1 else if ty = 1 then 2 ^ 32 - 1 else if ty = 2 then 2 ^ 63 - 1 else 2 ^ 64 - 1
  max lo (min hi x)

/-- Wrap of R107: an exact integer in the destination of a type. -/
def putInt (wr : Writer) (r : BitVec 7) (ty : BitVec 4) (x : Int) : List PWrite := putBits wr r ty (BitVec.ofInt 64 x)

/-- The four integer types of R112, and the 32-bit and 64-bit patterns. -/
def intType (ty : BitVec 4) : Prop := ty.toNat < 4
def bitType (ty : BitVec 4) : Prop := ty = 0 ∨ ty = 14

/-- A result that raises no flag. -/
def quiet (ws : List PWrite) : List PWrite × FFlags := (ws, 0)

/-- The immediate K of R113, read as signed and as natural. -/
def kSigned (o : Lk) : Word := match o.xl with | some x => x | none => o.k.signExtend 32
def kNatural (o : Lk) : Word := match o.xl with | some x => x | none => o.k.setWidth 32

/-- IDIV's quotient and remainder with the cases of R115, on integers of a type. -/
def quot (ty : BitVec 4) (a b : Int) : Int :=
  if b = 0 then -1 else if ty = 0 ∧ a = -2 ^ 31 ∧ b = -1 then a else if ty = 2 ∧ a = -2 ^ 63 ∧ b = -1 then a else a.tdiv b
def rema (ty : BitVec 4) (a b : Int) : Int :=
  if b = 0 then a else if ty = 0 ∧ a = -2 ^ 31 ∧ b = -1 then 0 else if ty = 2 ∧ a = -2 ^ 63 ∧ b = -1 then 0 else a.tmod b

/-- The shifts of R117 on the width of a type; `n` is natural. -/
def shl (ty : BitVec 4) (a : DWord) (n : Nat) : DWord := if width ty ≤ n then 0 else a <<< n
def shr (ty : BitVec 4) (a : DWord) (n : Nat) : DWord := if width ty ≤ n then 0 else a >>> n
def sar (ty : BitVec 4) (a : DWord) (n : Nat) : DWord :=
  if wide ty then a.sshiftRight n else ((a.extractLsb' 0 32).sshiftRight n).setWidth 64

/-- The bits of R118: ones, the zeros above the highest one, the reversal. -/
def ones (w : Nat) (x : DWord) : Nat := (List.range w).countP fun i => x.getLsbD i
def zerosAbove (w : Nat) (x : DWord) : Nat := ((List.range w).find? fun i => x.getLsbD (w - 1 - i)).getD w
def reversed (w : Nat) (x : DWord) : DWord := BitVec.ofNat 64 ((List.range w).map fun i => if x.getLsbD (w - 1 - i) then 2 ^ i else 0).sum

/-- BFE and BFI of R119, R120. -/
def extractField (signed : Bool) (a b : Word) : Word :=
  let pos := b.toNat % 256
  let len := min (b.toNat / 256 % 256) 32
  let x : Int := if signed then a.toInt else (a.toNat : Int)
  let f : Int := x / 2 ^ pos % 2 ^ len
  if len = 0 then 0 else BitVec.ofInt 32 (if signed ∧ 2 ^ (len - 1) ≤ f then f - 2 ^ len else f)
def insertField (a b c : Word) : Word :=
  let pos := b.toNat % 256
  let len := min (b.toNat / 256 % 256) 32
  BitVec.ofNat 32 ((List.range 32).map fun i =>
    if (if pos ≤ i ∧ i < pos + len then a.getLsbD (i - pos) else c.getLsbD i) then 2 ^ i else 0).sum

/-- The relations of a compare's codes 0 to 5 (R122). -/
def relation (cc : Nat) (a b : Int) : Bool :=
  if cc = 0 then a == b else if cc = 1 then a != b else if cc = 2 then decide (a < b) else if cc = 3 then decide (a ≤ b)
  else if cc = 4 then decide (b < a) else decide (b ≤ a)

/-- A result predicate or condition; number 7 discards it (R59). -/
def putPred (l : Nat) (i : BitVec 3) (b : Bool) : List PWrite := if i = 7 then [] else [.p l i.toNat b]
def putCond (i : BitVec 3) (b : Bool) : List PWrite := if i = 7 then [] else [.c i.toNat b]

/-- The value of a truth table (R126, R161). -/
def table (lut : BitVec 8) (a b c : Bool) : Bool :=
  lut.getLsbD ((if a then 4 else 0) + (if b then 2 else 0) + (if c then 1 else 0))

/-- One byte of PRMT (R139). -/
def pick (pool : DWord) (nib : Nat) : Byte :=
  let b := pool.extractLsb' (8 * (nib % 8)) 8
  if nib < 8 then b else if b.getLsbD 7 then 0xFF else 0
def permute (pool : DWord) (b : Word) : Word :=
  let n (i : Nat) : Nat := b.toNat / 16 ^ i % 16
  pick pool (n 3) ++ pick pool (n 2) ++ pick pool (n 1) ++ pick pool (n 0)

/-- A copy of the `n` registers from `a` on to those from `r` on. -/
def copyRegs (rd : Reader) (wr : Writer) (a r : BitVec 7) (n : Nat) : List PWrite :=
  (List.range n).map fun i => wr (r.toNat + i) (rd (a.toNat + i))

end Sys2Proof.Claims

open Sys2Proof Sys2Proof.Machine Sys2Proof.Claims

/-- R114, R115 (types of R112, .sat, R109): the lane integer arithmetic completes in every state in which the skein stands and no
source is pending in a deterministic context (R99); each executing lane's result is the exact integer, clamped under .sat, wrapped to
the type; IMULH, IMIN, IMAX and IDIV never need the clamp. Latency 4, IDIV 16 (R97).
IADDK and MOVK do so with the immediate of R113. -/
def Obligations.LaneIntegerArithmetic : Prop :=
  (∀ (o : Lr) (s : State), Issuing s → intType (lrXm o 0).ty →
     let x := lrXm o 0
     let n := tyRegs x.ty
     let rd := laneReader s.dev
     let A (l : Nat) : Int := intVal (rd l) o.a x.ty
     let B (l : Nat) : Int := intVal (rd l) o.b x.ty
     let C (l : Nat) : Int := intVal (rd l) x.c x.ty
     let put (l : Nat) (v : Int) : List PWrite × FFlags := quiet (putInt (wrV l) o.d x.ty v)
     let sat (v : Int) : Int := if x.sat then clampTo x.ty v else v
     let two (i : Instr) (lat : Nat) (f : Nat → List PWrite × FFlags) : Prop :=
       LaneRuns i s x.p x.n (lenOf o.xm) lat [.v o.a n, .v o.b n] f
     two (.iadd o) 4 (fun l => put l (sat (A l + B l))) ∧ two (.isub o) 4 (fun l => put l (sat (A l - B l))) ∧
     two (.imul o) 4 (fun l => put l (sat (A l * B l))) ∧
     two (.imulh o) 4 (fun l => put l (A l * B l / 2 ^ width x.ty)) ∧
     two (.imin o) 4 (fun l => put l (min (A l) (B l))) ∧ two (.imax o) 4 (fun l => put l (max (A l) (B l))) ∧
     two (.idiv o) 16 (fun l => put l (if x.opx = 1 then rema x.ty (A l) (B l) else quot x.ty (A l) (B l))) ∧
     LaneRuns (.imad o) s x.p x.n (lenOf o.xm) 4 [.v o.a n, .v o.b n, .v x.c n] (fun l => put l (sat (A l * B l + C l)))) ∧
  (∀ (o : Lk) (s : State), Issuing s →
     LaneRuns (.iaddk o) s 7 false (lenOf o.xl) 4 [.v o.a 1]
       (fun l => quiet (putWord (wrV l) o.d (laneReader s.dev l o.a.toNat + kSigned o))) ∧
     LaneRuns (.movk o) s 7 false (lenOf o.xl) 4 [] fun l => quiet (putWord (wrV l) o.d (kSigned o)))

/-- R116, R117: the lane logic instructions and shifts on 32 and 64 bits, and on 32 bits with K of R113.
R118 to R121: counts, reversal, bit fields and address forms of the lane set. BFE's types are .i32 and .n32 (codes 0 and 1). -/
def Obligations.LaneBits : Prop :=
  (∀ (o : Lr) (s : State), Issuing s → bitType (lrXm o 0).ty →
     let x := lrXm o 0
     let n := tyRegs x.ty
     let A (l : Nat) : DWord := getBits (laneReader s.dev l) o.a x.ty
     let B (l : Nat) : DWord := getBits (laneReader s.dev l) o.b x.ty
     let N (l : Nat) : Nat := (laneReader s.dev l o.b.toNat).toNat
     let bits (i : Instr) (f : Nat → DWord) : Prop :=
       LaneRuns i s x.p x.n (lenOf o.xm) 4 [.v o.a n, .v o.b n] fun l => quiet (putBits (wrV l) o.d x.ty (f l))
     let shift (i : Instr) (f : Nat → DWord) : Prop :=
       LaneRuns i s x.p x.n (lenOf o.xm) 4 [.v o.a n, .v o.b 1] fun l => quiet (putBits (wrV l) o.d x.ty (f l))
     bits (.and o) (fun l => A l &&& B l) ∧ bits (.or o) (fun l => A l ||| B l) ∧ bits (.xor o) (fun l => A l ^^^ B l) ∧
     bits (.andn o) (fun l => A l &&& ~~~(B l)) ∧ shift (.shl o) (fun l => shl x.ty (A l) (N l)) ∧
     shift (.shr o) (fun l => shr x.ty (A l) (N l)) ∧ shift (.sar o) (fun l => sar x.ty (A l) (N l))) ∧
  (∀ (o : Lk) (s : State), Issuing s →
     let a (l : Nat) : Word := laneReader s.dev l o.a.toNat
     let k := kNatural o
     let one (i : Instr) (f : Nat → Word) : Prop :=
       LaneRuns i s 7 false (lenOf o.xl) 4 [.v o.a 1] fun l => quiet (putWord (wrV l) o.d (f l))
     one (.andk o) (fun l => a l &&& k) ∧ one (.ork o) (fun l => a l ||| k) ∧ one (.xork o) (fun l => a l ^^^ k) ∧
     one (.shlk o) (fun l => if 32 ≤ k.toNat then 0 else a l <<< k.toNat) ∧
     one (.shrk o) (fun l => if 32 ≤ k.toNat then 0 else a l >>> k.toNat) ∧ one (.sark o) (fun l => (a l).sshiftRight k.toNat)) ∧
  (∀ (o : Lr) (s : State), Issuing s →
     let x := lrXm o 0
     let y := lrXm o 1
     let n := tyRegs x.ty
     let w := width x.ty
     let rd := laneReader s.dev
     let A (l : Nat) : DWord := getBits (rd l) o.a x.ty
     let I (l : Nat) : Int := if x.opx.getLsbD 5 then (rd l o.b.toNat).toInt else ((rd l o.b.toNat).toNat : Int)
     let one (i : Instr) (f : Nat → List PWrite) : Prop := LaneRuns i s x.p x.n (lenOf o.xm) 4 [.v o.a n] fun l => quiet (f l)
     (bitType x.ty →
       one (.popc o) (fun l => putWord (wrV l) o.d (BitVec.ofNat 32 (ones w (A l)))) ∧
       one (.clz o) (fun l => putWord (wrV l) o.d (BitVec.ofNat 32 (zerosAbove w (A l)))) ∧
       one (.brev o) (fun l => putBits (wrV l) o.d x.ty (reversed w (A l))) ∧
       LaneRuns (.lea o) s x.p x.n (lenOf o.xm) 4 [.v o.a n, .v o.b 1]
         (fun l => quiet (putBits (wrV l) o.d x.ty (A l + BitVec.ofInt 64 (I l * 2 ^ bitsOf x.opx 0 5))))) ∧
     (x.ty = 0 → LaneRuns (.bfi o) s x.p x.n (lenOf o.xm) 4 [.v o.a 1, .v o.b 1, .v x.c 1]
       (fun l => quiet (putWord (wrV l) o.d (insertField (rd l o.a.toNat) (rd l o.b.toNat) (rd l x.c.toNat))))) ∧
     (y.ty = 0 ∨ y.ty = 1 → LaneRuns (.bfe o) s y.p y.n (lenOf o.xm) 4 [.v o.a 1, .v o.b 1]
       (fun l => quiet (putWord (wrV l) o.d (extractField (y.ty == 0) (rd l o.a.toNat) (rd l o.b.toNat))))))

/-- R123, R124, R139, R140: the lane selects, moves and permutes. SEL acts in every lane of the bundle and its guard selects; MOV is
stated here for register operands, queue registers below. That FLGRD's result is due after 4 cycles is the model's choice: R97 does not
list it (notes/assumptions/10). -/
def Obligations.LaneMoves : Prop :=
  ∀ (o : Lr) (s : State), Issuing s →
    let x := lrXm o 0
    let n := tyRegs x.ty
    let rd := laneReader s.dev
    (bitType x.ty →
      LaneRuns (.sel o) s 7 false (lenOf o.xm) 4 [.pb x.p.toNat, .v o.a n, .v o.b n]
        (fun l => quiet (copyRegs (rd l) (wrV l) (if readP s.dev (curSkein s.dev) l x.p.toNat != x.n then o.a else o.b) o.d n)) ∧
      LaneRuns (.movsv o) s x.p x.n (lenOf o.xm) 4 [.s o.a n]
        (fun l => quiet (copyRegs (uniReader s.dev) (wrV l) o.a o.d n))) ∧
    (bitType x.ty ∨ x.ty = 15 → o.a.toNat < 120 → o.d.toNat < 120 →
      LaneRuns (.mov o) s x.p x.n (lenOf o.xm) 4 [.v o.a n] (fun l => quiet (copyRegs (rd l) (wrV l) o.a o.d n))) ∧
    LaneRuns (.prmt o) s x.p x.n (lenOf o.xm) 4 (.v o.a 1 :: .v o.b 1 :: if o.xm.isSome then [.v x.c 1] else [])
      (fun l => quiet (putWord (wrV l) o.d
        (permute ((if o.xm.isSome then rd l x.c.toNat else 0) ++ rd l o.a.toNat) (rd l o.b.toNat)))) ∧
    LaneRuns (.flgrd o) s x.p x.n (lenOf o.xm) 4 []
      (fun l => quiet (putWord (wrV l) o.d ((threadOf (curSkein s.dev) l).flags.setWidth 32)))

/-- R122, R126, R127: the compares and the predicate instructions of the lane set. Destination p7 discards the result (R59). -/
def Obligations.LanePredicates : Prop :=
  ∀ (s : State), Issuing s →
    let rd := laneReader s.dev
    let P (l i : Nat) : Bool := readP s.dev (curSkein s.dev) l i
    (∀ o : Lp, intType (lpXm o 0).ty → o.cc.toNat < 6 →
      let x := lpXm o 0
      LaneRuns (.isetp o) s x.p x.n (lenOf o.xm) 4 [.v o.a (tyRegs x.ty), .v o.b (tyRegs x.ty)]
        (fun l => quiet (putPred l o.pd (relation o.cc.toNat (intVal (rd l) o.a x.ty) (intVal (rd l) o.b x.ty))))) ∧
    (∀ o : Plop,
      LaneRuns (.plop o) s (plopXm o).p (plopXm o).n (lenOf o.xm) 4 [.p o.pa.toNat, .p o.pb.toNat, .p o.pc.toNat]
        (fun l => quiet (putPred l o.pd (table o.lut (P l o.pa.toNat) (P l o.pb.toNat) (P l o.pc.toNat))))) ∧
    (∀ o : Lv,
      let x := lvXm o
      let run (rds : List Rd) (f : Nat → List PWrite) : Prop := LaneRuns (.pmov o) s x.p x.n (lenOf o.xm) 4 rds fun l => quiet (f l)
      (o.mode = 0 → run [.p o.ps.toNat] fun l => putWord (wrV l) o.d (if P l o.ps.toNat != o.n then 1 else 0)) ∧
      (o.mode = 1 → run [.v o.d 1] fun l => putPred l o.pd ((rd l o.d.toNat).getLsbD 0 != o.n)) ∧
      (o.mode = 2 → run [.p 0, .p 1, .p 2, .p 3, .p 4, .p 5, .p 6] fun l =>
        putWord (wrV l) o.d (BitVec.ofNat 32 ((List.range 8).map fun i => if P l i then 2 ^ i else 0).sum)) ∧
      (o.mode = 3 → run [.v o.d 1] fun l => (List.range 7).map fun i => .p l i ((rd l o.d.toNat).getLsbD i)))

/-- R129 to R135 and R122: the lane floating-point instructions complete; each executing lane's result and flags are the operation's of
Machine/Flags.lean on the sources read with abs, neg and FTZ, and F = 1 raises no flag (R110). Latency 4, 8 for .f64, 16 for the long
ones (R97). -/
def Obligations.LaneFloat : Prop :=
  ∀ (o : Lr) (s : State), Issuing s →
    let x := lrXm o 4
    let n := tyRegs x.ty
    let k := curSkein s.dev
    let run (i : Instr) (lat : Nat) (rds : List Rd) (f : Reader → Writer → List PWrite × FFlags) : Prop :=
      LaneRuns i s x.p x.n (lenOf o.xm) lat rds fun l => f (laneReader s.dev l) (wrV l)
    let lat : Nat := if x.ty = 5 then 8 else 4
    let one (i : Instr) (t : Nat) (f : Reader → Writer → List PWrite × FFlags) : Prop := run i t [.v o.a n] f
    let two (i : Instr) (t : Nat) (f : Reader → Writer → List PWrite × FFlags) : Prop := run i t [.v o.a n, .v o.b n] f
    two (.fadd o) lat (fltBin faddVal k o) ∧ two (.fmul o) lat (fltBin fmulVal k o) ∧
    run (.ffma o) lat [.v o.a n, .v o.b n, .v x.c n] (fltMad k o) ∧
    two (.fmin o) lat (fltMinMax false k o) ∧ two (.fmax o) lat (fltMinMax true k o) ∧ two (.fdiv o) 16 (fltBin fdivVal k o) ∧
    one (.rcp o) 16 (fltUn frcpVal k o) ∧ one (.rsq o) 16 (fltUn frsqVal k o) ∧ one (.sqrt o) 16 (fltUn fsqrtVal k o) ∧
    one (.ex2 o) 16 (fltUn fex2Val k o) ∧ one (.lg2 o) 16 (fltUn flg2Val k o) ∧
    one (.sinpi o) 16 (fltUn (fun f e a => fsinpiVal f e false a) k o) ∧
    one (.cospi o) 16 (fltUn (fun f e a => fsinpiVal f e true a) k o) ∧ one (.frnd o) lat (fltUn ffrndVal k o) ∧
    one (.fclass o) lat (fun rd wr => quiet (putWord wr o.d (BitVec.ofNat 32 (fclassOf (fmtOf x.ty) (patOf rd o.a x.ty))))) ∧
    run (.fscale o) lat [.v o.a n, .v o.b 1] (fltScale k o) ∧
    LaneRuns (.fdot2 o) s (lrXm o 8).p (lrXm o 8).n (lenOf o.xm) 4
      [.v o.a (tyRegs (lrXm o 8).ty), .v o.b (tyRegs (lrXm o 8).ty), .v (lrXm o 8).c (tyRegs (lrXm o 8).ty)]
      (fun l => fltDot2 k o (laneReader s.dev l) (wrV l)) ∧
    (let y := lrXm o 0
     LaneRuns (.cvt o) s y.p y.n (lenOf o.xm) (if y.ty = 5 ∨ y.opx = 5 then 8 else 4) [.v o.a (tyRegs y.ty)]
       fun l => cvtRes k o (laneReader s.dev l) (wrV l)) ∧
    run (.cvtp o) 4 (.v o.a n :: .v o.b n :: if x.opx.toNat < 0x10 then [] else [.v x.c n]) (cvtpRes k o) ∧
    ∀ q : Lp,
      let y := lpXm q 4
      LaneRuns (.fsetp q) s y.p y.n (lenOf q.xm) (if y.ty = 5 then 8 else 4) [.v q.a (tyRegs y.ty), .v q.b (tyRegs y.ty)]
        fun l => (putPred l q.pd (fltCmp k q (laneReader s.dev l)).1, if q.f then 0 else (fltCmp k q (laneReader s.dev l)).2)

/-- R110, R130, R131: NaN sources give the canonical quiet NaN in FADD, FMUL and FDIV of every IEEE format, and the special cases of
division, RCP, RSQ, SQRT, EX2, LG2, SINPI and COSPI at zero, at the infinities and below zero have the value and the flag of their rows.
FMIN and FMAX give the other source for one NaN, the canonical NaN for two, the lesser or greater number, and order −0 below +0; a
zero that they give is the zero of its sign, that of a subnormal read with FTZ as well. -/
def Obligations.FloatSpecialCases : Prop :=
  ∀ (f : Fmt) (env : FEnv), f ∈ [fmtF64, fmtF32, fmtF16, fmtBF16] →
    let quietNan : Nat := if f = fmtF64 then 0x7FF8000000000000 else if f = fmtF32 then 0x7FC00000 else if f = fmtF16 then 0x7E00 else 0x7FC0
    let one : Nat := f.bias * 2 ^ f.f
    (∀ a b : FVal, fisNan a = true ∨ fisNan b = true →
      (faddVal f env a b).1 = quietNan ∧ (fmulVal f env a b).1 = quietNan ∧ (fdivVal f env a b).1 = quietNan) ∧
    (∀ (neg : Bool) (e : Int), let z : FVal := .fin neg 0 e
      frcpVal f env z = (finf f neg, fDivZero) ∧ frsqVal f env z = (finf f neg, fDivZero) ∧
      fsqrtVal f env z = (fsignBit f neg, 0) ∧ flg2Val f env z = (finf f true, fDivZero) ∧
      fex2Val f env z = (one, 0) ∧ fsinpiVal f env true z = (one, 0) ∧ fsinpiVal f env false z = (fsignBit f neg, 0)) ∧
    (∀ neg : Bool, frcpVal f env (.inf neg) = (fsignBit f neg, 0) ∧ fex2Val f env (.inf neg) = (if neg then 0 else finf f false, 0) ∧
      fsinpiVal f env false (.inf neg) = (quietNan, fInvalid) ∧ fsinpiVal f env true (.inf neg) = (quietNan, fInvalid)) ∧
    (∀ (m : Nat) (e : Int), m ≠ 0 → fsqrtVal f env (.fin true m e) = (quietNan, fInvalid) ∧
      frsqVal f env (.fin true m e) = (quietNan, fInvalid) ∧ flg2Val f env (.fin true m e) = (quietNan, fInvalid)) ∧
    (frsqVal f env (.inf false) = (0, 0) ∧ fsqrtVal f env (.inf false) = (finf f false, 0) ∧
      flg2Val f env (.inf false) = (finf f false, 0) ∧ flg2Val f env (.fin false 1 0) = (0, 0) ∧
      frsqVal f env (.inf true) = (quietNan, fInvalid) ∧ fsqrtVal f env (.inf true) = (quietNan, fInvalid) ∧
      flg2Val f env (.inf true) = (quietNan, fInvalid)) ∧
    (∀ (n1 n2 : Bool) (m : Nat) (e1 e2 : Int),
      (m ≠ 0 → fdivVal f env (.fin n1 m e1) (.fin n2 0 e2) = (finf f (n1 != n2), fDivZero)) ∧
      fdivVal f env (.fin n1 0 e1) (.fin n2 0 e2) = (quietNan, fInvalid) ∧
      fdivVal f env (.inf n1) (.inf n2) = (quietNan, fInvalid) ∧
      fdivVal f env (.inf n1) (.fin n2 m e2) = (finf f (n1 != n2), 0) ∧
      fdivVal f env (.fin n1 m e1) (.inf n2) = (fsignBit f (n1 != n2), 0)) ∧
    ∀ (mx : Bool) (x y : Nat),
      let a := fread f env x
      let b := fread f env y
      let put (p : Nat) (v : FVal) : Nat := if fisZero v then fsignBit f (fsign v) else p
      let flags : FFlags := if fisSig a || fisSig b then fInvalid else 0
      (fisNan a = true → fisNan b = true → fminmax f env mx x y = (quietNan, flags)) ∧
      (fisNan a = true → fisNan b = false → fminmax f env mx x y = (put y b, flags)) ∧
      (fisNan a = false → fisNan b = true → fminmax f env mx x y = (put x a, flags)) ∧
      (fcmp a b = some .lt → fminmax f env mx x y = (if mx then put y b else put x a, flags)) ∧
      (fcmp a b = some .gt → fminmax f env mx x y = (if mx then put x a else put y b, flags)) ∧
      (fisZero a = true → fisZero b = true → fsign a ≠ fsign b →
        fminmax f env mx x y = (fsignBit f !mx, 0))

/-- R141 to R145: the cross-lane instructions complete; only lanes that execute supply or receive a value. -/
def Obligations.CrossLane : Prop :=
  ∀ (o : Lr) (s : State), Issuing s →
    let x := lrXm o 0
    let n := tyRegs x.ty
    let rd := laneReader s.dev
    let ex := lanesUnder s x.p x.n
    let W : Nat := 32 / 2 ^ bitsOf x.opx 0 3
    let J (l : Nat) : Nat := (rd l o.b.toNat).toNat
    let from_ (l : Nat) (q : Option Nat) : List PWrite × FFlags :=
      quiet (copyRegs (rd (match q with | some q => if q < 32 ∧ ex.getLsbD q then q else l | none => l)) (wrV l) o.a o.d n)
    let shuffle (i : Instr) (src : Nat → Option Nat) : Prop :=
      LaneRuns i s x.p x.n (lenOf o.xm) 6 [.v o.a n, .v o.b 1] fun l => from_ l (src l)
    let lat : Nat := if x.ty = 5 then 8 else 6
    (bitType x.ty →
      shuffle (.shfl o) (fun l => some (l / W * W + J l % W)) ∧
      shuffle (.shflup o) (fun l => if l < l / W * W + J l then none else some (l - J l)) ∧
      shuffle (.shfldn o) (fun l => if l / W * W + W ≤ l + J l then none else some (l + J l)) ∧
      shuffle (.shflx o) (fun l => some (l ^^^ (J l % W))) ∧
      LaneRuns (.matchLanes o) s x.p x.n (lenOf o.xm) 6 [.v o.a n] fun l => quiet (putWord (wrV l) o.d
        (maskOf fun q => ex.getLsbD q && getBits (rd q) o.a x.ty == getBits (rd l) o.a x.ty))) ∧
    LaneRuns (.lred o) s x.p x.n (lenOf o.xm) lat [.v o.a n]
      (fun l => (resOf (wrV l) o.d x.ty (lredRun s.dev o x (lanesOf ex)).2.1, if o.f then 0 else (lredRun s.dev o x (lanesOf ex)).2.2)) ∧
    LaneRuns (.lscan o) s x.p x.n (lenOf o.xm) lat [.v o.a n]
      (fun l =>
        let r := lredRun s.dev o x (lanesOf ex)
        let v := ((r.1.find? fun e => e.1 == l).map fun e => if x.opx.getLsbD 4 then e.2.1 else e.2.2).getD 0
        (resOf (wrV l) o.d x.ty v, if o.f then 0 else r.2.2)) ∧
    ∀ q : Lv,
      let y := lvXm q
      let exv := lanesUnder s y.p y.n
      let X (l : Nat) : Bool := readP s.dev (curSkein s.dev) l q.ps.toNat != q.n
      let all := (lanesOf exv).all X
      let any := (lanesOf exv).any X
      (q.mode.toNat < 3 → LaneRuns (.vote q) s y.p y.n (lenOf q.xm) 6 [.p q.ps.toNat] fun l => quiet (putPred l q.pd
        (if q.mode = 0 then all else if q.mode = 1 then any else all || !any))) ∧
      LaneRuns (.ballot q) s y.p y.n (lenOf q.xm) 6 [.p q.ps.toNat] fun l => quiet (putWord (wrV l) q.d
        (maskOf fun r => exv.getLsbD r && X r))

/-- R155, R157 to R159 with R114, R116 to R118, R121: the uniform integer instructions complete once under their guard condition, with the
values of the lane set's rules on the uniform registers. Latency 2 (R97).
R113, R157: the uniform instructions with an immediate, on 32 bits. -/
def Obligations.UniformInteger : Prop :=
  (∀ (o : Lr) (s : State), Issuing s →
     let x := lrXm o 0
     let n := tyRegs x.ty
     let w := width x.ty
     let rd := uniReader s.dev
     let uni (i : Instr) (rds : List Rd) (ws : List PWrite) : Prop := UniRuns i s x.p x.n (lenOf o.xm) 2 rds (quiet ws)
     let two (i : Instr) (ws : List PWrite) : Prop := uni i [.s o.a n, .s o.b n] ws
     let amount (i : Instr) (ws : List PWrite) : Prop := uni i [.s o.a n, .s o.b 1] ws
     let A : Int := intVal rd o.a x.ty
     let B : Int := intVal rd o.b x.ty
     let C : Int := intVal rd x.c x.ty
     let a : DWord := getBits rd o.a x.ty
     let b : DWord := getBits rd o.b x.ty
     let N : Nat := (rd o.b.toNat).toNat
     let I : Int := if x.opx.getLsbD 5 then (rd o.b.toNat).toInt else ((rd o.b.toNat).toNat : Int)
     let int (v : Int) : List PWrite := putInt wrS o.d x.ty v
     let bit (v : DWord) : List PWrite := putBits wrS o.d x.ty v
     let sat (v : Int) : Int := if x.sat then clampTo x.ty v else v
     (intType x.ty →
       two (.sadd o) (int (sat (A + B))) ∧ two (.ssub o) (int (sat (A - B))) ∧ two (.smul o) (int (sat (A * B))) ∧
       two (.smin o) (int (min A B)) ∧ two (.smax o) (int (max A B)) ∧
       uni (.smad o) [.s o.a n, .s o.b n, .s x.c n] (int (sat (A * B + C)))) ∧
     (bitType x.ty →
       two (.sand o) (bit (a &&& b)) ∧ two (.sor o) (bit (a ||| b)) ∧ two (.sxor o) (bit (a ^^^ b)) ∧
       amount (.sshl o) (bit (shl x.ty a N)) ∧ amount (.sshr o) (bit (shr x.ty a N)) ∧ amount (.ssar o) (bit (sar x.ty a N)) ∧
       uni (.spopc o) [.s o.a n] (putWord wrS o.d (BitVec.ofNat 32 (ones w a))) ∧
       uni (.sclz o) [.s o.a n] (putWord wrS o.d (BitVec.ofNat 32 (zerosAbove w a))) ∧
       amount (.slea o) (bit (a + BitVec.ofInt 64 (I * 2 ^ bitsOf x.opx 0 5))) ∧
       UniRuns (.ssel o) s 7 false (lenOf o.xm) 2 [.c x.p.toNat, .s o.a n, .s o.b n]
         (quiet (copyRegs rd wrS (if condUnder s x.p x.n then o.a else o.b) o.d n))) ∧
     (bitType x.ty ∨ x.ty = 15 → o.a.toNat < 120 → o.d.toNat < 120 → uni (.smov o) [.s o.a n] (copyRegs rd wrS o.a o.d n))) ∧
  (∀ (o : Lk) (s : State), Issuing s →
     let a : Word := uniReader s.dev o.a.toNat
     let k := kNatural o
     let one (i : Instr) (v : Word) : Prop := UniRuns i s 7 false (lenOf o.xl) 2 [.s o.a 1] (quiet (putWord wrS o.d v))
     one (.saddk o) (a + kSigned o) ∧ one (.sshlk o) (if 32 ≤ k.toNat then 0 else a <<< k.toNat) ∧
     one (.sshrk o) (if 32 ≤ k.toNat then 0 else a >>> k.toNat) ∧
     UniRuns (.smovk o) s 7 false (lenOf o.xl) 2 [] (quiet (putWord wrS o.d (kSigned o))))

/-- R156, R158, R161 to R163, R165: the uniform floats, conversions and conditions; flags go to every thread of the bundle. Destination
c7 discards the result (R59). -/
def Obligations.UniformFloatsAndConditions : Prop :=
  ∀ (s : State), Issuing s →
    let rd := uniReader s.dev
    let k := curSkein s.dev
    (∀ o : Lr,
      let x := lrXm o 4
      let n := tyRegs x.ty
      let lat : Nat := if x.ty = 5 then 8 else 2
      let run (i : Instr) (rds : List Rd) (r : List PWrite × FFlags) : Prop := UniRuns i s x.p x.n (lenOf o.xm) lat rds r
      run (.sfadd o) [.s o.a n, .s o.b n] (fltBin faddVal k o rd wrS) ∧ run (.sfmul o) [.s o.a n, .s o.b n] (fltBin fmulVal k o rd wrS) ∧
      run (.sffma o) [.s o.a n, .s o.b n, .s x.c n] (fltMad k o rd wrS) ∧
      let y := lrXm o 0
      UniRuns (.scvt o) s y.p y.n (lenOf o.xm) (if y.ty = 5 ∨ y.opx = 5 then 8 else 2) [.s o.a (tyRegs y.ty)] (cvtRes k o rd wrS)) ∧
    (∀ o : Lp,
      let y := lpXm o 4
      let x := lpXm o 0
      let pred (l : Nat) : Bool := readP s.dev k l (bitsOf o.a 0 3) != o.a.getLsbD 3
      let all := (lanesOf s.dev.cur.lanes).all pred
      let any := (lanesOf s.dev.cur.lanes).any pred
      UniRuns (.sfsetc o) s y.p y.n (lenOf o.xm) (if y.ty = 5 then 8 else 2) [.s o.a (tyRegs y.ty), .s o.b (tyRegs y.ty)]
        (putCond o.pd (fltCmp k o rd).1, if o.f then 0 else (fltCmp k o rd).2) ∧
      (intType x.ty → o.cc.toNat < 6 →
        UniRuns (.ssetc o) s x.p x.n (lenOf o.xm) 2 [.s o.a (tyRegs x.ty), .s o.b (tyRegs x.ty)]
          (quiet (putCond o.pd (relation o.cc.toNat (intVal rd o.a x.ty) (intVal rd o.b x.ty))))) ∧
      (o.cc.toNat < 3 →
        UniRuns (.ptoc o) s x.p x.n (lenOf o.xm) 2 [.pb (bitsOf o.a 0 3)]
          (quiet (putCond o.pd (if o.cc = 0 then any else if o.cc = 1 then all else all || !any))))) ∧
    ∀ o : Plop,
      UniRuns (.clop o) s (plopXm o).p (plopXm o).n (lenOf o.xm) 2 [.c o.pa.toNat, .c o.pb.toNat, .c o.pc.toNat]
        (quiet (putCond o.pd (table o.lut (readC s.dev k o.pa.toNat) (readC s.dev k o.pb.toNat) (readC s.dev k o.pc.toNat))))

/-- R164: MOVVS copies one lane's register, or pair, to the uniform set, and gives 0 for a lane outside the bundle. -/
def Obligations.LaneToUniform : Prop :=
  ∀ (o : Lk) (s : State), Issuing s →
    let k := kNatural o
    let n : Nat := if k.getLsbD 6 then 2 else 1
    let lane := if k.getLsbD 7 then (lanesOf s.dev.cur.lanes).headD 0 else k.toNat % 32
    let inside := s.dev.cur.lanes.getLsbD lane
    (isDet s.mgmt (curCtx s.dev) = true → inside = true → hazV (curSkein s.dev) (maskOf (· == lane)) o.a.toNat n = 0) →
    UniRuns (.movvs o) s 7 false (lenOf o.xl) 2 []
      (quiet ((List.range n).map fun i => .s (o.d.toNat + i) (if inside then readV s.dev (curSkein s.dev) lane (o.a.toNat + i) else 0)))

/-- R103, R104, R146, R166: RDSR of either set writes the special register, a 64-bit one to a pair, unless a deterministic context
asks for %clock, %spindle, %die or %quarter; the values are those of R103 for the registers named. -/
def Obligations.SpecialRegistersRead : Prop :=
  ∀ (o : Lk) (s : State), Issuing s →
    let code := (kNatural o).toNat
    let n : Nat := if code ∈ [0x01, 0x0D, 0x10, 0x11, 0x16] then 2 else 1
    let k := curSkein s.dev
    let g := curGroup s.dev
    let value (l : Nat) : Nat := specialReg s.mgmt s.dev l code
    (¬ (isDet s.mgmt (curCtx s.dev) = true ∧ code ∈ [0x16, 0x17, 0x18, 0x19]) →
      LaneRuns (.rdsr o) s 7 false (lenOf o.xl) 4 [] (fun l => quiet (splitRegs (wrV l) o.d.toNat (value l) n)) ∧
      UniRuns (.rdsrUniform o) s 7 false (lenOf o.xl) 2 []
        (quiet (splitRegs wrS o.d.toNat (value ((lanesOf s.dev.cur.lanes).headD 0)) n))) ∧
    ∀ l : Nat,
      (code = 0x00 → value l = l) ∧ (code = 0x01 → value l = (threadOf k l).wid.toNat) ∧ (code = 0x08 → value l = k.idx) ∧
      (code = 0x09 → value l = g.index % 2 ^ 32) ∧ (code = 0x0A → value l = g.index / 2 ^ 32) ∧
      (code = 0x0D → value l = (threadOf k l).stk.toNat) ∧ (code = 0x0E → value l = (threadOf k l).flags.toNat) ∧
      (code = 0x0F → value l = k.fpmode.toNat) ∧ (code = 0x11 → value l = g.gublock.toNat) ∧
      (code = 0x12 → value l = (ctxOf s.mgmt g.ctx).nlt.toNat % 2 ^ 32) ∧ (code = 0x17 → value l = g.spindle) ∧
      (code = 0x18 → value l = g.die) ∧ (code = 0x19 → value l = k.quarter) ∧ (code = 0x1A → value l = g.ctx)

/-- R140, R167: FLGCLR and WRSR complete and change the sticky flags of the bundle, %fpmode of the skein (a rounding field of 5 to 7 is
written as 0), or the %gublock that its group has from the next cycle on, and nothing else but what every issue does. A misaligned %gublock raises ALIGN, a non-canonical
one XLATE. That the ALIGN record's address is the misaligned value is the model's choice (notes/assumptions/8, 48). -/
def Obligations.SpecialRegistersWritten : Prop :=
  ∀ (o : Lk) (s : State), Issuing s →
    let u := s.dev.cur.skein
    let on := moved s o.w (lenOf o.xl) false
    let a : Word := uniReader s.dev o.a.toNat
    let p : DWord := readS64 s.dev (curSkein s.dev) o.a.toNat
    let wrsr (f : Dev) : Prop := exec (.wrsr o) s = .next (s.dev' f)
    let fault (c : Cause) (sub : Nat) : FaultInfo := { faultAt c p s.dev.cur.lanes with sub := sub }
    (Clear s (lanesUnder s 7 false) [.pb 7] →
      exec (.flgclr o) s = .next (s.dev' (modSkein on u fun k => modThreads k (lanesOf s.dev.cur.lanes) fun _ t =>
        { t with flags := t.flags &&& ~~~((kNatural o).setWidth 5) }))) ∧
    (kNatural o = 0x0F → Clear s s.dev.cur.lanes [.c 7, .s o.a 1] →
      wrsr (modSkein on u fun k => { k with fpmode := (if 5 ≤ a.toNat % 8 then 0 else a.setWidth 3).setWidth 4 ||| (a.setWidth 4 &&& 8) })) ∧
    (kNatural o = 0x11 → Clear s s.dev.cur.lanes [.c 7, .s o.a 2] →
      (p.toNat % 64 = 0 → nonCanon p = false → wrsr (modGroup on (curSkein s.dev).gid fun g => { g with gublockNext := some p })) ∧
      (p.toNat % 64 ≠ 0 → wrsr (trapped s o.w (lenOf o.xl) false (fault .align 0))) ∧
      (p.toNat % 64 = 0 → nonCanon p = true → wrsr (trapped s o.w (lenOf o.xl) false (fault .xlate 1))))

/-- R61, R147, R150, R171, R172: NOP and the jumps that complete put nothing but JMPL's link in flight; each lane that executes a lane
jump, or the whole bundle at a uniform one whose condition holds, goes to the target and every other lane of the bundle past the
instruction. A target of JMPL or JMP that is not a multiple of 4 raises ALIGN, naming the lanes whose target it is.
R95, R175: YIELD makes its skein the youngest under GTO and ends its greedy run, changes nothing under RR, and is a switching point
under DET; REGION opens a region of every thread of the bundle with the counts and the accumulator bit it names.
The model's choices in it: the address of the ALIGN record (notes/assumptions/8, 48), that JMPL's link is due after 4 cycles (10), that a
target keeps the pointer's tag bits (90), and that program counters are added to in 64 bits (91). -/
def Obligations.JumpsAndRegions : Prop :=
  (∀ (s : State), Issuing s →
     let plain : Nat → FFlags := fun _ => 0
     (∀ o : Ln, UniClear s 7 false [] → Runs (.nop o) s (past s 4) false 0 [] plain) ∧
     (∀ o : Lb,
       let target := s.dev.cur.pc + BitVec.ofInt 64 (4 * o.off.toInt)
       (LaneClear s o.p o.n [] → Runs (.brl o) s (fun l => if (lanesUnder s o.p o.n).getLsbD l then target else past s 4 l) false 0 []
         plain) ∧
       (UniClear s o.p o.n [] → Runs (.bra o) s (fun l => if condUnder s o.p o.n then target else past s 4 l) false 0 [] plain)) ∧
     ∀ o : Lr,
       let x := lrXm o 14
       let n := lenOf o.xm
       let ex := lanesUnder s x.p x.n
       let target := readS64 s.dev (curSkein s.dev) o.a.toNat
       let own (l : Nat) : DWord := getBits (laneReader s.dev l) o.a 2
       let bad := maskOf fun l => ex.getLsbD l && own l % 4 != 0
       (UniClear s x.p x.n [.s o.a 2] →
         (condUnder s x.p x.n = false ∨ target % 4 = 0 →
           Runs (.jmp o) s (fun l => if condUnder s x.p x.n then target else past s n l) false 0 [] plain) ∧
         (condUnder s x.p x.n = true → target % 4 ≠ 0 → Goes (.jmp o) s (trapped s o.w n false (faultAt .align target s.dev.cur.lanes)))) ∧
       (LaneClear s x.p x.n [.v o.a 2] →
         (bad = 0 → Runs (.jmpl o) s (fun l => if ex.getLsbD l then own l else past s n l) false 4
           ((lanesOf ex).flatMap fun l => putPair (wrV l) o.d (nextPc s.dev n)) plain) ∧
         (bad ≠ 0 → Goes (.jmpl o) s (trapped s o.w n false (faultAt .align (own ((lanesOf bad).headD 0)) bad))))) ∧
  (∀ (s : State), Issuing s → UniClear s 7 false [] →
     let u := s.dev.cur.skein
     (∀ o : Ln,
       let on := moved s o.w 4 false
       let q := quarterNo (curGroup s.dev) (curSkein s.dev)
       let st := tget on.quarters q blankQuarter
       let policy := policyOf s.mgmt (curGroup s.dev)
       (policy = 0 → Goes (.yield o) s (modSkein
         { on with
           nextId := s.dev.nextId + 1
           quarters := tset on.quarters q { st with gtoLast := none } } u fun k => { k with age := s.dev.nextId })) ∧
       (policy = 1 → Goes (.yield o) s on) ∧
       (policy = 2 → Goes (.yield o) s
         { on with quarters := tset on.quarters q { st with detCur := none, detYield := some u } })) ∧
     ∀ o : Lk,
       let r : Region := { entry := s.dev.cur.pc, nv := o.d.toNat, ns := o.a.toNat, acc := (kNatural o).getLsbD 0 }
       Goes (.region o) s (modSkein (moved s o.w (lenOf o.xl) false) u fun k =>
         modThreads k (lanesOf s.dev.cur.lanes) fun _ t => { t with region := some r }))

/-- R22, R148, R149: CALL stores the address of the next instruction 8 bytes below each executing lane's stack pointer, which moves
there, and goes to the target (in a deterministic context its thread's older buffered bytes of that word go; in run-ahead the store is
suppressed, R456); RET loads the address at the pointer, moves it up by 8 and goes there. Both complete when every check of
their accesses passes and no engine owns a line of theirs; a pointer of 0, or one outside the thread's stack region, raises BOUNDS,
and a loaded address that is not a multiple of 4 raises ALIGN, naming the lanes whose address it is. That those records' addresses are the
pointer and the lowest such lane's loaded address is the model's choice (notes/assumptions/8, 48). -/
def Obligations.CallAndReturn : Prop :=
  ∀ (s : State), Issuing s →
    let m := s.mgmt
    let d := s.dev
    let u := d.cur.skein
    let ctx := curCtx d
    let sp := curSpindle d
    let stk (l : Nat) : DWord := (threadOf (curSkein d) l).stk
    let start (l : Nat) : Nat := stackStart (curGroup d) (threadOf (curSkein d) l)
    let stop (l : Nat) : Nat := stackEnd (curGroup d) (threadOf (curSkein d) l)
    let up (d1 : Dev) (ls : Mask) (x : DWord) : Dev :=
      modSkein d1 u fun k => modThreads k (lanesOf ls) fun _ t => { t with stk := t.stk + x }
    (∀ (o : Lb) (ls : List (LAcc × Leaf × Nat)) (d1 : Dev),
      let ex := lanesUnder s o.p o.n
      LaneClear s o.p o.n [] → callChecks m d ex = .go ls → ownedLine d ls = none →
      let enter (d2 : Dev) : Dev := setPcs (up d2 ex (-8)) u ex (d.cur.pc + BitVec.ofInt 64 (4 * o.off.toInt))
      let took (x : LAcc × Leaf × Nat) (d2 : Dev) : Dev := sbufTake d2 (curSkein d).gid (ownNo (curSkein d) x.1.lane) x.2.2 8
      (runsAhead d = true → Goes (.call o) s (enter (moved s o.w 4 false))) ∧
      (runsAhead d = false → storeLanes m (moved s o.w 4 false) ctx sp 8 0 (fun _ => (d.cur.pc + 4).toNat) ls = .ok d1 →
        Goes (.call o) s (enter (if isDet m ctx then ls.foldl (fun d2 x => took x d2) d1 else d1))) ∧
      ∀ a ∈ ls, a.1.lane ∈ lanesOf ex ∧ a.1.p = stk a.1.lane - 8) ∧
    (∀ o : Lb,
      let ex := lanesUnder s o.p o.n
      let bad (l : Nat) : Bool := stk l == 0 || decide ((stk l).toNat < start l + 8)
      LaneClear s o.p o.n [] → (maskOf fun l => ex.getLsbD l && bad l) ≠ 0 →
      ∃ f : FaultInfo, f.cause = .bounds ∧ f.lanes = (maskOf fun l => ex.getLsbD l && bad l) ∧ f.addr = stk ((lanesOf f.lanes).headD 0) ∧
        Goes (.call o) s (trapped s o.w 4 false f)) ∧
    (∀ (o : Ln) (ls : List (LAcc × Leaf × Nat)) (vals : List (Nat × Nat)) (d1 : Dev) (lat : Nat),
      let ex := lanesUnder s 7 false
      LaneClear s 7 false [] → retChecks m d ex = .go ls → ownedLine d ls = none →
      loadLanes m (moved s o.w 4 false) ctx sp 8 0 ls = .ok (vals, d1, lat) →
      (∀ v ∈ vals, v.2 % 4 = 0) →
      Goes (.ret o) s (setLanePcs (up d1 ex 8) u (vals.map fun v => (v.1, BitVec.ofNat 64 v.2))) ∧
      ∀ a ∈ ls, a.1.lane ∈ lanesOf ex ∧ a.1.p = stk a.1.lane) ∧
    (∀ (o : Ln) (ls : List (LAcc × Leaf × Nat)) (vals : List (Nat × Nat)) (d1 : Dev) (lat : Nat),
      let ex := lanesUnder s 7 false
      LaneClear s 7 false [] → retChecks m d ex = .go ls → ownedLine d ls = none →
      loadLanes m (moved s o.w 4 false) ctx sp 8 0 ls = .ok (vals, d1, lat) →
      ∀ v r, (vals.filter fun v => v.2 % 4 != 0) = v :: r →
      ∃ f : FaultInfo, f.cause = .align ∧ f.lanes = (maskOf fun l => (v :: r).any fun x => x.1 == l) ∧ f.addr = BitVec.ofNat 64 v.2 ∧
        Goes (.ret o) s (trapped s o.w 4 false f)) ∧
    ∀ o : Ln,
      let ex := lanesUnder s 7 false
      let bad (l : Nat) : Bool := stk l == 0 || decide (stop l ≤ (stk l).toNat)
      LaneClear s 7 false [] → (maskOf fun l => ex.getLsbD l && bad l) ≠ 0 →
      ∃ f : FaultInfo, f.cause = .bounds ∧ f.lanes = (maskOf fun l => ex.getLsbD l && bad l) ∧ f.addr = stk ((lanesOf f.lanes).headD 0) ∧
        Goes (.ret o) s (trapped s o.w 4 false f)

/-- R173: BRX reads the 32-bit entry of its index from the table and goes to the instruction's own address plus it; an index not below
the count raises BOUNDS, a misaligned table ALIGN, an entry of 0 NULLTGT, one that is not a multiple of 4 ALIGN. -/
def Obligations.TableBranch : Prop :=
  ∀ (o : Lr) (s : State), Issuing s →
    let m := s.mgmt
    let d := s.dev
    let x := lrXm o 1
    let n := lenOf o.xm
    let base := readS64 d (curSkein d) o.a.toNat
    let i := (uniReader d o.b.toNat).toNat
    let p := base + BitVec.ofNat 64 (4 * i)
    let ls := d.cur.lanes
    UniClear s x.p x.n [.s o.d 1, .s o.a 2, .s o.b 1] →
    (condUnder s x.p x.n = false → Goes (.brx o) s (moved s o.w n false)) ∧
    (condUnder s x.p x.n = true →
      (base.toNat % 4 ≠ 0 → Goes (.brx o) s (trapped s o.w n false (faultAt .align base ls))) ∧
      (base.toNat % 4 = 0 → (uniReader d o.d.toNat).toNat ≤ i → Goes (.brx o) s (trapped s o.w n false (faultAt .bounds p ls))) ∧
      ∀ (a : LAcc) (l : Leaf) (pa v lat : Nat) (d1 : Dev), base.toNat % 4 = 0 → i < (uniReader d o.d.toNat).toNat →
        bundleChecks m d p 4 0 = .go [(a, l, pa)] → ownedLine d [(a, l, pa)] = none →
        loadVia m (moved s o.w n false) (curCtx d) (curSpindle d) p l pa 4 0 0 = .ok (v, d1, lat) →
        let e : Int := (BitVec.ofNat 32 (bundleOver m d pa 4 v)).toInt
        (e = 0 → Goes (.brx o) s (trapped s o.w n false (faultAt .nulltgt p ls))) ∧
        (e % 4 ≠ 0 → Goes (.brx o) s (trapped s o.w n false (faultAt .align p ls))) ∧
        (e ≠ 0 → e % 4 = 0 → Goes (.brx o) s (modSkein (setPcs (useCurr d1 (usedBy 0 l pa)) d.cur.skein ls (d.cur.pc + BitVec.ofInt 64 e)) d.cur.skein fun k =>
          { k with hold := cyclesOf d (curGroup d).die + max lat latL1 + 1 })))

/-- R442 to R446, R448: taking an exception. The skein stops at the instruction with nothing of it done: its registers, threads and
every other skein, and all of memory, are as they were; one record names cause, sub-code, address, program counter, lanes, data, context,
skein and group, and is due to be written. It holds for every fault of a bundle that does not run ahead, but an XLATE of a thread inside an explicit region, which begins a run-ahead.
That a faulting issue advances neither the rotation count nor the age is the model's choice (notes/assumptions/11). -/
def Obligations.ExceptionEntry : Prop :=
  ∀ (s : State) (w brk : Bool) (len : Nat) (f : FaultInfo), Issuing s → raOf (curSkein s.dev) s.dev.cur.lanes = none →
    (f.cause ≠ .xlate ∨ f.sub = 1 ∨ entryOf (curSkein s.dev) f.lanes = none) →
    let d := trapped s w len brk f
    let id := s.dev.nextId
    let g := curGroup s.dev
    d = { s.dev with
      nextId := id + 1
      skeins := d.skeins
      records := d.records
      agenda := d.agenda } ∧
    curSkein d = { curSkein s.dev with
      stops := (curSkein s.dev).stops ++ [id]
      park := none } ∧
    (∀ u, u ≠ s.dev.cur.skein → skein? d u = skein? s.dev u) ∧
    skeinGoes (curSkein d) = false ∧
    Instr.faultRecord id ∈ d.agenda ∧
    ∃ r : Rec, d.records = s.dev.records ++ [r] ∧ r.id = id ∧ r.cause = f.cause ∧ r.sub = BitVec.ofNat 8 f.sub ∧ r.addr = f.addr ∧
      r.pc = s.dev.cur.pc ∧ r.lanes = f.lanes ∧ r.data = f.data ∧ r.ctx = g.ctx ∧ r.skein = some s.dev.cur.skein ∧
      r.gindex = some (g.index, (curSkein s.dev).idx) ∧ r.slot = none ∧ r.more = []

/-- R75, R76, R154: BKPT, a word that fails its checks and a fetch that fails take their exception at the instruction: BKPT with K in
DATA and the executing lanes, ILLEGAL with the reason and both words, naming no lane for a word of the uniform set, and the cause of
the fetch at its address. That a fetch that failed is passed by 4 bytes at the first word and by 8 at the extension word, and that a word
whose opcode no row assigns has no extension word, are the model's choices (notes/assumptions/50, 89). -/
def Obligations.FaultsInPlace : Prop :=
  ∀ (s : State), Issuing s →
    let all := s.dev.cur.lanes
    (∀ o : Lk, LaneClear s 7 false [] →
      Goes (.bkpt o) s (trapped s o.w (lenOf o.xl) false
        { faultAt .bkpt 0 (lanesUnder s 7 false) with data := (kNatural o).setWidth 64 })) ∧
    (∀ (w0 ext : Word) (r : Reason),
      Goes (.illegalWord w0 ext r) s (trapped s false (if extFollows w0 then 8 else 4) false
        { faultAt .illegal 0 (if w0.getLsbD 31 then 0 else all) with
          sub := reasonCode r
          data := BitVec.ofNat 64 (w0.toNat + ext.toNat * 2 ^ 32) })) ∧
    ∀ (c : FetchCause) (addr : DWord),
      let len : Nat := if addr = s.dev.cur.pc then 4 else 8
      raOf (curSkein s.dev) all = none → entryOf (curSkein s.dev) all = none →
      Goes (.fetchFault c addr) s (trapped s false len false
        (match c with
          | .xlate x => { faultAt .xlate addr all with sub := xlateCode x }
          | .perm => faultAt .perm addr all
          | .dataerr => faultAt .dataerr addr all))

/-- R456: an XLATE, but for a non-canonical pointer, whose lowest thread is inside an explicit region begins a run-ahead of the bundle's
threads inside such regions: they pass over the instruction, the others stay at it, no record is posted yet, and the first fault and its
pages are kept. A run-ahead that ends puts its threads back to their region entries and stops the skein with one record of the first
fault, marked so, with the pages in its list. That the lowest faulting thread's region decides and is the record's, while threads in no region stay
at the instruction, is the model's choice (notes/assumptions/55). -/
def Obligations.RunAheadBeginsAndEnds : Prop :=
  ∀ (s : State), Issuing s →
    let u := s.dev.cur.skein
    (∀ (w brk : Bool) (len : Nat) (f : FaultInfo) (e : Region), raOf (curSkein s.dev) s.dev.cur.lanes = none → f.cause = .xlate →
      f.sub ≠ 1 → entryOf (curSkein s.dev) f.lanes = some e → f.lanes &&& s.dev.cur.lanes = f.lanes →
      let d := trapped s w len brk f
      let mine : Mask := maskOf fun l => s.dev.cur.lanes.getLsbD l && (threadOf (curSkein s.dev) l).region.isSome
      d.records = s.dev.records ∧ d.mem = s.dev.mem ∧
      ∃ r : RunAhead, raOf (curSkein d) s.dev.cur.lanes = some r ∧ r.lanes = mine ∧ r.pc = s.dev.cur.pc ∧ r.addr = f.addr ∧
        r.flanes = f.lanes &&& mine ∧ r.sub = BitVec.ofNat 8 f.sub ∧ r.entry = e.entry ∧ r.issues = 0 ∧ r.pages = addPages [] f.pages ∧
        ∀ l, l < 32 → (mine.getLsbD l = true → f.undefPc = false → (threadOf (curSkein d) l).pc = nextPc s.dev len) ∧
          (mine.getLsbD l = false → threadOf (curSkein d) l = threadOf (curSkein s.dev) l)) ∧
    (∀ ra : RunAhead, raOf (curSkein s.dev) s.dev.cur.lanes = some ra →
      ∃ d, Goes (.runAheadEnd u) s d ∧ d.mem = s.dev.mem ∧
        (curSkein d).runAhead = (curSkein s.dev).runAhead.filter (fun x => x.lanes &&& ra.lanes == 0) ∧
        (curSkein d).stops = (curSkein s.dev).stops ++ [s.dev.nextId] ∧
        (∀ l, l < 32 → threadOf (curSkein d) l =
          match ra.lanes.getLsbD l && (threadOf (curSkein s.dev) l).st != .exited, (threadOf (curSkein s.dev) l).region with
          | true, some r => { threadOf (curSkein s.dev) l with
              pc := r.entry
              region := none }
          | _, _ => threadOf (curSkein s.dev) l) ∧
        ∃ r : Rec, d.records = s.dev.records ++ [r] ∧ r.id = s.dev.nextId ∧ r.cause = .xlate ∧ r.sub = ra.sub ∧ r.addr = ra.addr ∧
          r.pc = ra.pc ∧ r.lanes = ra.flanes ∧ r.data = ra.entry ∧ r.ra = true ∧ r.more = pageSlots ra.pages) ∧
    (raOf (curSkein s.dev) s.dev.cur.lanes = none → Goes (.runAheadEnd u) s s.dev)

/-- R448, R350: RETRY lets the skein issue its instruction again, SKIP lets the record's lanes that still stand there go on after it
with nothing of it done, and SUPPLY does so with the value the handler left in DATA as the result; each ends the stop. Answered
RETRY, a watchdog's record restarts the count; BKPT's RETRY goes on after it (R154), and an engine's record only stops the skein. SKIP of
a DEADLOCK withdraws the lock request. After a failed reload at a reorder point RETRY reads the block again and SKIP completes the point
without it, once no other record stops it (R105). What SUPPLY writes stands against an older result still in flight (R100). The model's
choices in it: which lanes go on and that SUPPLY zero-extends DATA (notes/assumptions/50), what SKIP of a DEADLOCK does (50), and when the responses of several records take effect (49). -/
def Obligations.ExceptionReturn : Prop :=
  ∀ (s : State) (id : Nat) (r : Rec), rec? s.dev id = some r →
    let ended (d : Dev) (u : Nat) : Dev := releaseStop (dropWaiter d (.resp r.id)) u r.id
    let stands (d : Dev) (u : Nat) : Mask := maskOf fun l =>
      r.bundle.getLsbD l && (threadOf (skeinOf d u) l).pc == (if r.ra then r.data else r.pc) && (threadOf (skeinOf d u) l).st == .ready
    let waiting (u : Nat) : Mask := stands s.dev u
    (∀ u, r.skein = some u → r.reorder = true → r.cause ≠ .watchdog →
      let gid := r.group.getD 0
      let d1 := ended s.dev u
      (reorderReady d1 gid = false → Goes (.retry id) s d1 ∧ Goes (.skip id) s d1) ∧
      (reorderReady d1 gid = true → Goes (.skip id) s (reorderDone s.mgmt d1 gid none) ∧
        ∀ d2, tryReorder s.mgmt d1 gid = .ok d2 → Goes (.retry id) s d2)) ∧
    (∀ u, r.skein = some u → r.reorder = false →
      (r.eng = true → r.cause ≠ .watchdog → Goes (.retry id) s (ended s.dev u) ∧ Goes (.skip id) s (ended s.dev u)) ∧
      (r.cause = .deadlock → r.eng = false →
        let d1 := dropLockTimers (dropOtherEntries s.dev u none) u
        (∀ line va dst sc set, (skeinOf d1 u).park = some (.lock line va dst sc set) → Goes (.skip id) s (ended (unpark d1 u) u)) ∧
        ((skeinOf d1 u).park = none → Goes (.skip id) s (ended (setPcs d1 u (stands d1 u) r.next) u))) ∧
      (r.cause ≠ .watchdog → r.cause ≠ .bkpt → r.eng = false → Goes (.retry id) s (ended s.dev u)) ∧
      (r.cause = .bkpt → r.eng = false → Goes (.retry id) s (ended (setPcs s.dev u (waiting u) r.next) u)) ∧
      (r.cause ≠ .deadlock → r.eng = false → Goes (.skip id) s (ended (setPcs s.dev u (waiting u) r.next) u)) ∧
      ∀ (slot reg n x : Nat) (lane : Bool) (d1 : Dev), r.slot = some slot → r.sup = some (lane, reg, n) →
        distRead s.mgmt s.dev r.ctx (ringSlot (ctxOf s.mgmt r.ctx).faultq slot + 48) 8 8 = .ok (x, d1) →
        Goes (.supply id) s (ended (modSkein (setPcs s.dev u (waiting u) r.next) u fun k =>
          writeNow k (if lane then (lanesOf r.lanes).flatMap fun l => splitRegs (wrV l) reg x n else splitRegs wrS reg x n)) u)) ∧
    (r.cause = .watchdog → r.skein = none → Goes (.retry id) s { dropRec s.dev r.id with stalled := tdel s.dev.stalled r.ctx }) ∧
    ∀ (d : Dev) (u l : Nat), l < 32 → skein? d u ≠ none →
      (skeinOf (ended d u) u).stops = (skeinOf d u).stops.filter (fun j => j != r.id) ∧
      threadOf (skeinOf (ended d u) u) l = threadOf (skeinOf d u) l ∧ (ended d u).mem = d.mem

/-- R449: each kill carries itself out and ends its record. A skein's kill ends its threads, commands, locks, pins and waits (`killOne`);
a launch's kill takes every group of it and the other launches of its run; a context's clears EN in its queues and kills all its work.
R350, R458: a watchdog that expires while its context is still stalled posts WATCHDOG when a resident skein waits internally and
ALL-EXTERNAL otherwise, and changes nothing else; a service call answered by a refusal kills its skein. The model's choices in it: which launches KILL-LAUNCH of a WATCHDOG record takes, and the
other launches of the run (notes/assumptions/51), and which waits are internal (56). -/
def Obligations.Kills : Prop :=
  (∀ (s : State) (id : Nat) (r : Rec), rec? s.dev id = some r →
     let m := s.mgmt
     let d := s.dev
     (∀ (u : Nat) (d1 : Dev), r.skein = some u → (skein? d u).isSome = true → killOne m d u = .ok d1 →
       Goes (.killSkein id) s (killed d1 id)) ∧
     (∀ (i : Nat) (d1 : Dev), r.launch = some i → endLaunches m d [i] = .ok d1 → Goes (.killLaunch id) s (killed d1 id)) ∧
     (∀ d1 : Dev, r.launch = none → r.cause = .watchdog →
       endLaunches m d ((d.groups.filter fun g => g.ctx == r.ctx && g.resident).map fun g => g.launch) = .ok d1 →
       Goes (.killLaunch id) s (killed d1 id)) ∧
     (∀ d1 : Dev,
       let halted := (List.range 32).foldl (fun d n => if (subq d r.ctx n).en then haltQueue m d r.ctx n else d) d
       endLaunches m halted (((halted.launches.filter fun l => l.ctx == r.ctx).map fun l => l.id) ++
         (halted.groups.filter fun g => g.ctx == r.ctx).map fun g => g.launch) = .ok d1 →
       Goes (.killContext id) s (killed d1 id)) ∧
     (∀ i : Nat, r.skein = none → r.launch = none → r.cause ≠ .watchdog → i = id →
       Goes (.killSkein i) s (killed d i) ∧ Goes (.killLaunch i) s (killed d i))) ∧
  (∀ (s : State),
     (∀ ctx : Nat,
       let internal := s.dev.skeins.any fun k => k.resident && (groupOf s.dev k.gid).ctx == ctx && skeinWait k == some false
       (isStalled s.dev ctx = false → Goes (.watchdogExpiry ctx) s s.dev) ∧
       (isStalled s.dev ctx = true → Goes (.watchdogExpiry ctx) s
         (addRecord s.mgmt { s.dev with nextId := s.dev.nextId + 1 }
           (blankRec s.dev.nextId ctx (if internal then .watchdog else .allExternal))))) ∧
     ∀ (u slot : Nat) (ls : Mask) (pc : DWord) (d1 : Dev), (skeinOf s.dev u).park = some (.svc slot ls pc) →
       killOne s.mgmt s.dev u = .ok d1 → Goes (.svcKill u) s d1)

/-- R446: a fault record whose context has no ring, or whose ring's words cannot be read or slots written, is lost: device event 1,152 is
raised and the context is killed. One that fits the free slots of its ring is written there with its list of pages behind it, and the vector of the
fault queue is raised unless a handler is to take it. One that does not fit waits for HEAD to move. An ALL-EXTERNAL record that is lost
kills nothing. The locked lines of a skein that the record stops leave its L1 first (R341). How long a record waits for its slots, when
its handler is looked for, and that a ring whose HEAD and TAIL cannot be read counts as one that cannot be written, are the model's choice
(notes/assumptions/54). -/
def Obligations.RecordDelivery : Prop :=
  ∀ (s : State) (id : Nat) (r : Rec), rec? s.dev id = some r → r.slot = none → r.lost = false →
    (s.dev.records.find? fun q => q.ctx == r.ctx && unwritten q).map (fun q => q.id) = some id →
    ∀ d0 : Dev, (match r.skein with
      | some u => dropLocked s.mgmt s.dev u
      | none => (.ok s.dev : MemM Dev)) = .ok d0 →
    let q := (ctxOf s.mgmt r.ctx).faultq
    let told := interrupt (dropWaiter d0 (.resp r.id)) 1152
    let isLost : Prop :=
      (r.cause = .allExternal → Goes (.faultRecord id) s (nextRec (dropRec told r.id) r.ctx)) ∧
      (r.cause ≠ .allExternal →
        Goes (.faultRecord id) s (nextRec (postKill (modRec told r.id fun r => { r with lost := true }) r.id 6) r.ctx))
    (ringLog q = 0 → isLost) ∧
    (∀ e : DistErr, ringLog q ≠ 0 → ringRoom s.mgmt d0 r.ctx q = .bad e → isLost) ∧
    (∀ tail room : Nat, ringLog q ≠ 0 → ringRoom s.mgmt d0 r.ctx q = .ok (tail, room) →
      (room < 1 + r.more.length →
        Goes (.faultRecord id) s (waitAt s.mgmt (dropWaiter d0 (.resp r.id)) r.ctx (ringBase q) (.resp r.id))) ∧
      (∀ e : DistErr, 1 + r.more.length ≤ room →
        ringPut s.mgmt (dropWaiter d0 (.resp r.id)) r.ctx q tail (recordWord r :: r.more) = .bad e → isLost) ∧
      ∀ d1 : Dev, 1 + r.more.length ≤ room →
        ringPut s.mgmt (dropWaiter d0 (.resp r.id)) r.ctx q tail (recordWord r :: r.more) = .ok d1 →
        (∀ x : Nat, r.byHandler = false → r.cause ≠ .allExternal → hrec s.mgmt d1 r.ctx = .ok x → startsHandler x = true →
          Goes (.faultRecord id) s
          (lookAt s.mgmt (nextRec (modRec d1 r.id fun _ => { r with
            slot := some tail
            hand := true }) r.ctx) { r with
              slot := some tail
              hand := true } tail)) ∧
        (r.byHandler = true ∨ r.cause = .allExternal ∨ (∀ x, hrec s.mgmt d1 r.ctx = .ok x → startsHandler x = false) →
          Goes (.faultRecord id) s
          (lookAt s.mgmt (nextRec (faultVector (modRec d1 r.id fun _ => { r with
            slot := some tail
            hand := false }) r.ctx) r.ctx) { r with
              slot := some tail
              hand := false } tail)))

/-- R198, R224, R227: the scratch forms. An offset below 0 or past the group's scratchpad raises BOUNDS, else one not a multiple of the
access size ALIGN, naming the lanes whose own fault it is. LDS loads each lane's bytes; STS stores each lane's in ascending lane order,
and every scratch byte that no lane stores to stays. Memory and the L1 are as they were. -/
def Obligations.ScratchLoadsAndStores : Prop :=
  ∀ (o : Lm) (s : State), Issuing s →
    let d := s.dev
    let g := curGroup d
    let n := tyBytes o.xw.ty
    let ex := lanesUnder s o.xw.p o.xw.n
    let rds : List Rd := if ixOf o then [.v o.a 1] else []
    let off (l : Nat) : Int := (if ixOf o then ((laneReader d l o.a.toNat).toNat : Int) else 0) + o.xw.disp.toInt
    let outside (l : Nat) : Bool := decide (off l < 0) || decide ((1024 * hScratch g.header : Int) < off l + n)
    let uneven (l : Nat) : Bool := decide (off l % n ≠ 0)
    let out := maskOf fun l => ex.getLsbD l && outside l
    let odd := maskOf fun l => ex.getLsbD l && uneven l
    let fault (c : Cause) (ls : Mask) : FaultInfo := faultAt c (BitVec.ofInt 64 (off ((lanesOf ls).headD 0))) ls
    let on := moved s o.w 8 false
    let stored := (lanesOf ex).foldl (fun mem l => memPut mem (off l).toNat (patOf (laneReader d l) o.d o.xw.ty) n) g.scratch
    tyBytes o.xw.ty ≠ 0 →
    (LaneClear s o.xw.p o.xw.n rds →
      (out = 0 → odd = 0 → Goes (.lds o) s (addPend on d.cur.skein 14
        ((lanesOf ex).flatMap fun l => resOf (wrV l) o.d o.xw.ty (memNat g.scratch (off l).toNat n)))) ∧
      (out ≠ 0 → Goes (.lds o) s (trapped s o.w 8 false (fault .bounds out))) ∧
      (out = 0 → odd ≠ 0 → Goes (.lds o) s (trapped s o.w 8 false (fault .align odd)))) ∧
    (LaneClear s o.xw.p o.xw.n (.v o.d (tyRegs o.xw.ty) :: rds) →
      (out = 0 → odd = 0 → runsAhead d = false → Goes (.sts o) s (modGroup on g.gid fun x =>
        (lanesOf ex).foldl (fun x l => { x with scratch := memPut x.scratch (off l).toNat (patOf (laneReader d l) o.d o.xw.ty) n }) x)) ∧
      (out = 0 → odd = 0 → runsAhead d = true → Goes (.sts o) s on) ∧
      (out ≠ 0 → Goes (.sts o) s (trapped s o.w 8 false (fault .bounds out))) ∧
      (out = 0 → odd ≠ 0 → Goes (.sts o) s (trapped s o.w 8 false (fault .align odd)))) ∧
    on.mem = d.mem ∧ on.l1 = d.l1 ∧
    ∀ a : Nat, (∀ l ∈ lanesOf ex, a < (off l).toNat ∨ (off l).toNat + n ≤ a) → memByte stored a = memByte g.scratch a

/-- R208, R223, R224, R227: LD, ST, LDB and STB, in every state in which each lane's access passes its checks and no engine owns a line
of theirs: a load puts each lane's value in flight, zero for a lane that R208 drops; a store performs the lanes' stores in ascending
lane order, in a deterministic context as buffered words (R313), and does nothing while the skein runs ahead (R456). -/
def Obligations.GlobalLoadsAndStores : Prop :=
  ∀ (o : Lm) (s : State), Issuing s →
    let m := s.mgmt
    let d := s.dev
    let u := d.cur.skein
    let n := tyBytes o.xw.ty
    let pol := o.xw.pol.toNat
    let ex := lanesUnder s o.xw.p o.xw.n
    let on := moved s o.w 8 false
    let val (l : Nat) : Nat := patOf (laneReader d l) o.d o.xw.ty
    let load (i : Instr) (as : List LAcc) (rds : List Rd) : Prop :=
      ∀ (ls : List (LAcc × Leaf × Nat)) (vals : List (Nat × Nat)) (d1 : Dev) (lat : Nat), LaneClear s o.xw.p o.xw.n rds →
        loadChecks m d n n pol as = .go ls → ownedLine d ls = none →
        loadLanes m on (curCtx d) (curSpindle d) n pol ls = .ok (vals, d1, lat) →
        Goes i s (addPend d1 u (max lat 20) (vals.flatMap (fun v => resOf (wrV v.1) o.d o.xw.ty v.2) ++
          (as.filter fun a => a.drop).flatMap fun a => resOf (wrV a.lane) o.d o.xw.ty 0))
    let store (i : Instr) (as : List LAcc) (rds : List Rd) : Prop :=
      ∀ ls : List (LAcc × Leaf × Nat), LaneClear s o.xw.p o.xw.n (.v o.d (tyRegs o.xw.ty) :: rds) →
        storeChecks m d n n pol as = .go ls →
        (runsAhead d = true → Goes i s on) ∧
        (∀ d1, runsAhead d = false → isDet m (curCtx d) = false → ownedLine d ls = none →
          storeLanes m on (curCtx d) (curSpindle d) n pol val ls = .ok d1 → Goes i s d1) ∧
        ∀ d1, runsAhead d = false → isDet m (curCtx d) = true → ownedLine d ls = none →
          sbufPush on u (storeEntries d n pol val ls) = some d1 →
          Goes i s (spillLog m d1 (curCtx d) (curSpindle d) u (curSkein d).spilled)
    let glob := globalAccs d o (amOf o) (disp14 o) (lanesOf ex)
    let buf (store : Bool) : List LAcc := bufferAccs d o (ixOf o) (disp14 o) n store (lanesOf ex)
    load (.ld o) glob (globalRds o (amOf o)) ∧ store (.st o) glob (globalRds o (amOf o)) ∧
    load (.ldb o) (buf false) (bufferRds o (ixOf o)) ∧ store (.stb o) (buf true) (bufferRds o (ixOf o))

/-- R190, R209, R227: a global load whose lanes' accesses all hit in the spindle's L1 completes after 20 cycles with the bytes of the
L1's copies and changes nothing else; a store by one lane whose access hits puts its bytes into the L1's copy, whose words it makes
dirty, and every other byte of memory, as the spindle sees it, is as it was. Neither context is deterministic.
R182, R188, R224: where some executing lane's pointer is not canonical, LD and ST raise XLATE with sub-code 1, naming exactly those
lanes, with the lowest such lane's pointer, whatever the others' accesses come to. -/
def Obligations.CacheHitsAndPointers : Prop :=
  (∀ (o : Lm) (s : State) (line : Nat → L1Line), Issuing s → isDet s.mgmt (curCtx s.dev) = false → runsAhead s.dev = false →
     let d := s.dev
     let sp := curSpindle d
     let n := tyBytes o.xw.ty
     let ex := lanesUnder s o.xw.p o.xw.n
     let p (l : Nat) : DWord := globalPtr d o (amOf o) (disp14 o) l
     let val (l : Nat) : Nat := patOf (laneReader d l) o.d o.xw.ty
     ((∀ l ∈ lanesOf ex, Hits s (p l) n o.xw.pol.toNat false (line l)) →
       Runs (.ld o) s (past s 8) false 20 ((lanesOf ex).flatMap fun l =>
         resOf (wrV l) o.d o.xw.ty (takeBytes (line l).data ((p l).toNat % 128) n)) fun _ => 0) ∧
     ∀ l : Nat, lanesOf ex = [l] → Hits s (p l) n o.xw.pol.toNat true (line l) →
       ∃ t : Dev, Goes (.st o) s t ∧ t.mem = d.mem ∧
         (∀ a, a < 128 * (line l).pa + (p l).toNat % 128 ∨ 128 * (line l).pa + (p l).toNat % 128 + n ≤ a →
           byteSeen t sp a = byteSeen d sp a) ∧
         ∃ c, l1Phys t sp (line l).pa = some c ∧ takeBytes c.data ((p l).toNat % 128) n = val l % 2 ^ (8 * n) ∧
           wordsTouched (byteMask ((p l).toNat % 128) n) &&& ~~~c.dirty = 0) ∧
  (∀ (o : Lm) (s : State), Issuing s →
     let ex := lanesUnder s o.xw.p o.xw.n
     let p (l : Nat) : DWord := globalPtr s.dev o (amOf o) (disp14 o) l
     let bad := maskOf fun l => ex.getLsbD l && nonCanon (p l)
     let tells (f : FaultInfo) : Prop := f.cause = .xlate ∧ f.sub = 1 ∧ f.lanes = bad ∧ f.addr = p ((lanesOf bad).headD 0)
     bad ≠ 0 →
     (LaneClear s o.xw.p o.xw.n (globalRds o (amOf o)) → ∃ f, tells f ∧ Goes (.ld o) s (trapped s o.w 8 false f)) ∧
     (LaneClear s o.xw.p o.xw.n (.v o.d (tyRegs o.xw.ty) :: globalRds o (amOf o)) →
       ∃ f, tells f ∧ Goes (.st o) s (trapped s o.w 8 false f)))

/-- R229: the new value of an atomic, by operation, on `w`-bit patterns. Integer ADD wraps; MIN and MAX compare as the type says;
AND, OR and XOR are bitwise, at both widths; EXCH takes the operand; CAS takes the second operand where the first equals the old value.
A float ADD is FADD's sum rounded to nearest even and MIN and MAX are FMIN's and FMAX's; .f16x2 and .bf16x2 add element by element.
R65, R228 to R232, R383: ATOM, ATOMB and ATOMS complete, and end the regions of the executing lanes. Without a lane they only move on. On
memory the release comes first, then each address's lanes in ascending order, then the acquire, and each lane's old value is put in
flight; one wider than .gr in a deterministic context raises DETVIOL. By one lane on a line its L1 owns, at .gr or narrower and without
ordering, the L1's copy takes the new value. On the scratchpad each lane reads what the lanes before it left; a release waits for
registered surface writes; an offset outside the scratchpad raises BOUNDS, else a misaligned one ALIGN (R224). The model's choices in it:
that old values are due after 20 cycles, or 14 on the scratchpad (notes/assumptions/10), and that DETVIOL comes before the checks of the
accesses (6). -/
def Obligations.Atomics : Prop :=
  (∀ (ty : BitVec 4) (old x x2 : Nat), ty.toNat < 4 →
     let w := width ty
     let i (v : Nat) : Int := if ty = 0 ∨ ty = 2 then (BitVec.ofNat w v).toInt else ((v % 2 ^ w : Nat) : Int)
     old < 2 ^ w → x < 2 ^ w → x2 < 2 ^ w →
     atomNew 0 ty old x x2 = (old + x) % 2 ^ w ∧
     i (atomNew 1 ty old x x2) = min (i old) (i x) ∧ i (atomNew 2 ty old x x2) = max (i old) (i x) ∧
     atomNew 3 ty old x x2 = old &&& x ∧ atomNew 4 ty old x x2 = old ||| x ∧ atomNew 5 ty old x x2 = old ^^^ x ∧
     atomNew 6 ty old x x2 = x ∧ atomNew 7 ty old x x2 = (if old = x then x2 else old)) ∧
  (∀ (ty : BitVec 4) (old x x2 : Nat), ty = 4 ∨ ty = 5 ∨ ty = 8 ∨ ty = 9 ∨ ty = 14 →
     atomNew 3 ty old x x2 = old &&& x ∧ atomNew 4 ty old x x2 = old ||| x ∧ atomNew 5 ty old x x2 = old ^^^ x ∧
     atomNew 6 ty old x x2 = x ∧ atomNew 7 ty old x x2 = (if old = x then x2 else old)) ∧
  (∀ (ty : BitVec 4) (old x x2 : Nat),
     let f := fmtOf ty
     let sum (a b : Nat) : Nat := (faddVal f envRne (fdecode f a) (fdecode f b)).1
     (ty = 4 ∨ ty = 5 → atomNew 0 ty old x x2 = sum old x ∧ atomNew 1 ty old x x2 = (fminmax f envRne false old x).1 ∧
       atomNew 2 ty old x x2 = (fminmax f envRne true old x).1) ∧
     (ty = 8 ∨ ty = 9 → atomNew 0 ty old x x2 =
       sum (old % 2 ^ 16) (x % 2 ^ 16) + 2 ^ 16 * sum (old / 2 ^ 16) (x / 2 ^ 16))) ∧
  (∀ (o : Lm) (s : State), Issuing s →
     let m := s.mgmt
     let d := s.dev
     let n := tyBytes o.xw.ty
     let ex := lanesUnder s o.xw.p o.xw.n
     let on := movedIn s o.w 8 ex
     let dst (l x : Nat) : List PWrite := splitRegs (wrV l) o.d.toNat x (tyRegs o.xw.ty)
     let am : Nat := if atomForm o then 2 else 1
     let both (i : Instr) (as : List LAcc) (rds : List Rd) : Prop := LaneClear s o.xw.p o.xw.n (.v o.d (atomRegs o) :: rds) →
       (ex = 0 → Goes i s on) ∧
       (ex ≠ 0 → isDet m (curCtx d) = true → 3 ≤ o.xw.sc.toNat → Goes i s (trapped s o.w 8 true (faultAt .detviol 0 ex))) ∧
       (∀ (l : Nat) (a : LAcc) (c : L1Line), lanesOf ex = [l] → as = [a] → a.pre = none → a.drop = false → a.lane = l → Owns s a.p n c →
         isDet m (curCtx d) = false → atomOrd o = 0 → o.xw.sc.toNat ≤ 2 →
         let old := takeBytes c.data (a.p.toNat % 128) n
         let x := atomOperands d o l
         let bm := byteMask (a.p.toNat % 128) n
         Goes i s (addPend (modL1 on (curSpindle d) c.pa fun k => { k with
           data := overlay k.data (atByte (a.p.toNat % 128) (atomNew (atomOp o) o.xw.ty old x.1 x.2)) bm
           dirty := k.dirty ||| wordsTouched bm
           filled := k.filled &&& ~~~(wordsTouched bm) }) d.cur.skein 20 (dst l old))) ∧
       ∀ (ls : List (LAcc × Leaf × Nat)) (vs : List (Nat × Nat)) (d3 : Dev) (lat : Nat),
         ex ≠ 0 → (isDet m (curCtx d) = false ∨ o.xw.sc.toNat < 3) → atomChecks m d o as = .go ls → ownedLine d ls = none →
         atomDone m d on o ls = .ok (vs, d3, lat) →
         Goes i s (addPend d3 d.cur.skein (max lat 20) (vs.flatMap (fun v => dst v.1 v.2) ++
           (as.filter fun a => a.drop).flatMap fun a => dst a.lane 0))
     let off (l : Nat) : Int := (if atomForm o then ((laneReader d l o.a.toNat).toNat : Int) else 0) + atomDisp o
     both (.atom o) (globalAccs d o am (atomDisp o) (lanesOf ex)) (globalRds o am) ∧
     both (.atomb o) (bufferAccs d o (atomForm o) (atomDisp o) n true (lanesOf ex)) (bufferRds o (atomForm o)) ∧
     let out := maskOf fun l => ex.getLsbD l && (decide (off l < 0) || decide ((1024 * hScratch (curGroup d).header : Int) < off l + n))
     let odd := maskOf fun l => ex.getLsbD l && decide (off l % n ≠ 0)
     let fault (c : Cause) (ls : Mask) : FaultInfo := faultAt c (BitVec.ofInt 64 (off ((lanesOf ls).headD 0))) ls
     (LaneClear s o.xw.p o.xw.n (.v o.d (atomRegs o) :: (if atomForm o then [.v o.a 1] else [])) → n ≠ 0 →
       (out ≠ 0 → Goes (.atoms o) s (trapped s o.w 8 true (fault .bounds out))) ∧
       (out = 0 → odd ≠ 0 → Goes (.atoms o) s (trapped s o.w 8 true (fault .align odd)))) ∧
     (LaneClear s o.xw.p o.xw.n (.v o.d (atomRegs o) :: (if atomForm o then [.v o.a 1] else [])) → n ≠ 0 →
       (∀ l ∈ lanesOf ex, 0 ≤ off l ∧ off l + n ≤ 1024 * hScratch (curGroup d).header ∧ off l % n = 0) →
       let due : Option Nat := if atomRel o = true ∧ ex ≠ 0 then surfaceDue d (curSpindle d) else none
       let r := (lanesOf ex).foldl (fun (r : Group × List PWrite) l =>
         let old := memNat r.1.scratch (off l).toNat n
         let x := atomOperands d o l
         ({ r.1 with scratch := memPut r.1.scratch (off l).toNat (atomNew (atomOp o) o.xw.ty old x.1 x.2) n }, r.2 ++ dst l old))
         (curGroup d, [])
       (due = none → Goes (.atoms o) s (addPend (modGroup on (curGroup d).gid fun _ => r.1) d.cur.skein 14 r.2)) ∧
       ∀ line, due = some line → Goes (.atoms o) s (parkedIn s o.w 8 ex d (.half (2 * line)))))

/-- R168 to R170: SLD and SST complete once for the bundle, with one access at the base, the index and the displacement. -/
def Obligations.UniformLoadsAndStores : Prop :=
  ∀ (o : Lm) (s : State), Issuing s →
    let m := s.mgmt
    let d := s.dev
    let u := d.cur.skein
    let n := tyBytes o.xw.ty
    let pol := o.xw.pol.toNat
    let on := moved s o.w 8 false
    let rds : List Rd := .s o.sb 2 :: (if ixOf o then [.s o.a 1] else [])
    let p := uniPtr d o
    let x := patOf (uniReader d) o.d o.xw.ty
    let c := condUnder s o.xw.p o.xw.n
    p = readS64 d (curSkein d) o.sb.toNat + (if ixOf o then (uniReader d o.a.toNat).setWidth 64 else 0) + BitVec.ofInt 64 o.xw.disp.toInt ∧
    (UniClear s o.xw.p o.xw.n rds → c = false → Goes (.sld o) s on) ∧
    (UniClear s o.xw.p o.xw.n (.s o.d (tyRegs o.xw.ty) :: rds) → c = false → Goes (.sst o) s on) ∧
    (∀ (a : LAcc) (l : Leaf) (pa v lat : Nat) (d1 : Dev), UniClear s o.xw.p o.xw.n rds → c = true →
      bundleChecks m d p n pol = .go [(a, l, pa)] → ownedLine d [(a, l, pa)] = none →
      loadVia m on (curCtx d) (curSpindle d) p l pa n pol 0 = .ok (v, d1, lat) →
      Goes (.sld o) s (addPend (useCurr d1 (usedBy pol l pa)) u (max lat 20) (resOf wrS o.d o.xw.ty (bundleOver m d pa n v)))) ∧
    ∀ ls : List (LAcc × Leaf × Nat), UniClear s o.xw.p o.xw.n (.s o.d (tyRegs o.xw.ty) :: rds) → c = true →
      sstChecks m d p n pol = .go ls →
      (runsAhead d = true → Goes (.sst o) s on) ∧
      (∀ d1, runsAhead d = false → ownedLine d ls = none → isDet m (curCtx d) = false →
        storeLanes m on (curCtx d) (curSpindle d) n pol (fun _ => x) ls = .ok d1 → Goes (.sst o) s d1) ∧
      ∀ d1, runsAhead d = false → ownedLine d ls = none → isDet m (curCtx d) = true → sbufPush on u (bundleEntries m d p n x pol) = some d1 →
        Goes (.sst o) s (spillLog m d1 (curCtx d) (curSpindle d) u (curSkein d).spilled)

/-- R206, R233, R234: PRF completes in every state and neither faults nor waits. In a deterministic context it only moves on; with another
level than the L1 all it may do besides is to ask the host for halves of the lines (RdShared, R319). LDG loads the guard tag of each lane's granule, zero on an untagged page; STG stores the tags in ascending
lane order and does nothing while the skein runs ahead. -/
def Obligations.PrefetchAndTags : Prop :=
  ∀ (o : Lm) (s : State), Issuing s →
    let m := s.mgmt
    let d := s.dev
    let sp := curSpindle d
    let ex := lanesUnder s o.xw.p o.xw.n
    let on := moved s o.w 8 false
    let as := globalAccs d o (amOf o) (disp14 o) (lanesOf ex)
    (LaneClear s o.xw.p o.xw.n (globalRds o (amOf o)) →
      (∃ t, Goes (.prf o) s t ∧ ∀ u, skein? t u = skein? on u) ∧
      (isDet m (curCtx d) = true → Goes (.prf o) s on) ∧
      (bitsOf o.xw.sub 0 2 ≠ 0 → ∃ rs : List (Nat × HostReq), Goes (.prf o) s { on with hostReqs := on.hostReqs ++ rs } ∧
        ∀ r ∈ rs, r.2 = .rdShared) ∧
      ∀ ls, checkAll false (checkTag m d (curCtx d) sp false) as = .go ls → ownedLine d ls = none →
        Goes (.ldg o) s (addPend on d.cur.skein 20 (ls.flatMap fun x =>
          res1 (wrV x.1.lane) o.d (if x.2.1.tg then tagAt d sp x.2.2 else 0)))) ∧
    (LaneClear s o.xw.p o.xw.n (.v o.d 1 :: globalRds o (amOf o)) →
      ∀ ls, checkAll true (checkTag m d (curCtx d) sp true) as = .go ls →
        (runsAhead d = true → Goes (.stg o) s on) ∧
        ∀ d1, runsAhead d = false → ownedLine d ls = none →
          (ls.foldlM (fun (d1 : Dev) x => setTag m d1 (curCtx d) sp x.2.2 ((laneReader d x.1.lane o.d.toNat).setWidth 4)) on : MemM Dev) =
            .ok d1 → Goes (.stg o) s d1)

/-- R235 to R237, R247 to R254: STQ quantises the values of the executing lanes, those of the others taken as zero, into one staple, and
stores it once for the bundle; LDQ reads one staple and puts each executing lane's decoded elements in flight, or raises SELECTOR with
the staple's address where its header is invalid. Neither does anything but move on when no lane executes. -/
def Obligations.StapleInstructions : Prop :=
  ∀ (o : Lm) (s : State), Issuing s →
    let m := s.mgmt
    let d := s.dev
    let u := d.cur.skein
    let ex := lanesUnder s o.xw.p o.xw.n
    let on := moved s o.w 8 false
    let n := stapleBytes (stapleG o) (stapleW o)
    let pol := o.xw.pol.toNat
    let p := readS64 d (curSkein d) o.sb.toNat + BitVec.ofInt 64 o.xw.disp.toInt
    (LaneClear s o.xw.p o.xw.n [.v o.d (stapleG o / 32), .s o.sb 2] →
      (ex = 0 → Goes (.stq o) s on) ∧
      ∀ ls, ex ≠ 0 → stqChecks m d o = .go ls →
        (runsAhead d = true → Goes (.stq o) s on) ∧
        (∀ d1, runsAhead d = false → ownedLine d ls = none → isDet m (curCtx d) = false →
          storeSpan m on (curCtx d) (curSpindle d) p n (stqValue m d o ex) pol 0 = .ok d1 → Goes (.stq o) s d1) ∧
        ∀ d1, runsAhead d = false → ownedLine d ls = none → isDet m (curCtx d) = true →
          sbufPush on u (bundleEntries m d p n (stqValue m d o ex) pol) = some d1 →
          Goes (.stq o) s (spillLog m d1 (curCtx d) (curSpindle d) u (curSkein d).spilled)) ∧
    (LaneClear s o.xw.p o.xw.n [.s o.sb 2] →
      (ex = 0 → Goes (.ldq o) s on) ∧
      ∀ (ls : List (LAcc × Leaf × Nat)) (x lat : Nat) (d1 : Dev), ex ≠ 0 → ldqChecks m d o = .go ls → ownedLine d ls = none →
        loadSpan m on (curCtx d) (curSpindle d) p n pol 0 = .ok (x, d1, lat) →
        ((∀ l ∈ lanesOf ex, selectorBad (stapleW o) (stapleSeen m d o x l % 2 ^ 32) = false) →
          Goes (.ldq o) s (addPend d1 u (max lat 20) ((lanesOf ex).flatMap (ldqLane m d o x)))) ∧
        ((∃ l ∈ lanesOf ex, selectorBad (stapleW o) (stapleSeen m d o x l % 2 ^ 32) = true) →
          Goes (.ldq o) s (trapped s o.w 8 false (faultAt .selector p ex))))

/-- R332, R333, R335, R341, R356 to R359: LOCKL and UNLOCKL on a line that passes the checks of R357. A ninth lock gives LIMIT; a set
without a way for it, or a context at its quota, QUOTA; a free line whose first present waiter the skein is comes to it with GRANTED,
or BROKEN after a kill broke it; else the skein parks in the line's queue. A line held already, read-only, a peer's, or a scope a
deterministic context may not use, raises LOCKUSE, as does UNLOCKL of a line not held; else UNLOCKL releases at its scope and hands
the lock on.
R345, R346, R360, R361: PINL of a peer line raises PERM, and in a deterministic context one with sc ≠ 0 LOCKUSE; on a line pinned already
it gives GRANTED; without a way, quota or room in the slice's pins QUOTA; else it brings the line, pins it and gives GRANTED. UNPINL
releases a pin, if there is one. LSTAT reads the line's lock state, and raises DETVIOL in a deterministic context. Each only moves on,
and ends no region, when its guard condition fails (R65, R155). The model's choices in it: that statuses are due after 20 cycles
(notes/assumptions/10), and that LSTAT's DETVIOL comes before the checks of the line (6). -/
def Obligations.LocksAndPins : Prop :=
  (∀ (o : Lm) (s : State) (l : Leaf) (pa : Nat), Issuing s →
     let m := s.mgmt
     let d := s.dev
     let u := d.cur.skein
     let k := curSkein d
     let sc := o.xw.sc.toNat
     let p := linePtr d o
     let line := pa / 128
     let set := setOf (bitsOf p 7 41)
     let timed := o.xw.sub.getLsbD 3
     let on := moved s o.w 8 true
     let det := isDet m (curCtx d)
     let held := k.locks.any fun h => h.line == line
     let status (d1 : Dev) (x : Word) : Dev := addPend d1 u 20 [.s o.d.toNat x]
     (condUnder s o.xw.p o.xw.n = false → UniClear s o.xw.p o.xw.n [] →
       Goes (.lockl o) s (moved s o.w 8 false) ∧ Goes (.unlockl o) s (moved s o.w 8 false)) ∧
     (Reaches s p 128 l pa → condUnder s o.xw.p o.xw.n = true →
     (UniClear s o.xw.p o.xw.n (.s o.sb 2 :: (if timed then [.s o.a 1] else [])) →
       (l.w = false ∨ isPeer pa = true ∨ held = true ∨ (det = true ∧ 2 < sc) →
         Goes (.lockl o) s (trapped s o.w 8 true (faultAt .lockuse p d.cur.lanes))) ∧
       (l.w = true → isPeer pa = false → held = false → (det = false ∨ sc ≤ 2) →
         let d1 := dropOtherEntries d u (some line)
         let st := lockOf d1 line
         let queued := (lockOf d line).queue.any fun w => w.skein == u
         let q := if queued then
             modWhere (fun w => w.skein == u) (fun w => { w with
               present := true
               sc := sc }) st.queue
           else st.queue ++ [{ skein := u, sc := sc, present := true }]
         let mine := st.holder = none ∧ ((firstPresent { st with queue := q }).map fun w => w.skein) = some u
         let room := lockFits d (curSpindle d) set line && quotaLeft m d (curCtx d)
         (8 ≤ k.locks.length → Goes (.lockl o) s (status (dropOtherEntries on u (some line)) 4)) ∧
         (k.locks.length < 8 → room = false → Goes (.lockl o) s (status (dropOtherEntries on u none) 1)) ∧
         (k.locks.length < 8 → room = true →
           (∀ d2, mine → grantLock m { on with locks := d1.locks } u line p sc true = .ok d2 →
             Goes (.lockl o) s (status d2 (if st.broken then 3 else 0))) ∧
           (¬ mine →
             let n := (uniReader d o.a.toNat).toNat
             let d2 := setLock (dropTimeout d1 u) line { st with queue := q }
             let d3 := if timed && n != 0 then postAfter d2 (.die (curSpindle d / 48)) (1024 * n) (.lockTimeout u) else d2
             Goes (.lockl o) s (parked s o.w 8 true (if queued then d3 else postAfter d3 .slice 65536 (.deadlockCheck u))
               (.lock line p.toNat o.d.toNat sc set)))))) ∧
     (UniClear s o.xw.p o.xw.n [.s o.sb 2] →
       (held = false ∨ (det = true ∧ 2 < sc) → Goes (.unlockl o) s (trapped s o.w 8 true (faultAt .lockuse p d.cur.lanes))) ∧
       ∀ d1 d2, held = true → (det = false ∨ sc ≤ 2) → releaseAt m on (curCtx d) (curSpindle d) sc = .ok d1 →
         unlockLine m d1 u line = .ok d2 → Goes (.unlockl o) s d2))) ∧
  (∀ (o : Lm) (s : State) (l : Leaf) (pa : Nat), Issuing s →
     let m := s.mgmt
     let d := s.dev
     let u := d.cur.skein
     let k := curSkein d
     let ctx := curCtx d
     let sp := curSpindle d
     let sc := o.xw.sc.toNat
     let p := linePtr d o
     let va := bitsOf p 7 41
     let line := pa / 128
     let on := moved s o.w 8 true
     let det := isDet m ctx
     let status (d1 : Dev) (x : Word) : Dev := addPend d1 u 20 [.s o.d.toNat x]
     (condUnder s o.xw.p o.xw.n = false → UniClear s o.xw.p o.xw.n [] →
       let stays := moved s o.w 8 false
       Goes (.pinl o) s stays ∧ Goes (.unpinl o) s stays ∧ Goes (.lstat o) s stays) ∧
     (condUnder s o.xw.p o.xw.n = true → UniClear s o.xw.p o.xw.n [.s o.sb 2] →
     (det = true → Goes (.lstat o) s (trapped s o.w 8 false { faultAt .detviol 0 d.cur.lanes with sup := some (false, o.d.toNat, 1) })) ∧
     (Reaches s p 128 l pa →
       (det = false → Goes (.lstat o) s (addPend (moved s o.w 8 false) u 20 [.s o.d.toNat (BitVec.ofNat 32 (lockStat d u line))])) ∧
       Goes (.unpinl o) s (unpin on u line) ∧
       (isPeer pa = true → Goes (.pinl o) s (trapped s o.w 8 true (faultAt .perm p d.cur.lanes))) ∧
       (isPeer pa = false → det = true → sc ≠ 0 → Goes (.pinl o) s (trapped s o.w 8 true (faultAt .lockuse p d.cur.lanes))) ∧
       (isPeer pa = false → (det = false ∨ sc = 0) →
         let die := cachingDie (sp / 48) pa l.rp
         let l2 := sc == 4 || (sc == 3 && die == sp / 48)
         let pinned := k.pins.any fun x => x.line == line
         let room := pinFits d sp (setOf va) line && quotaLeft m d ctx && !(l2 && decide (1024 ≤ slicePins d die line))
         (pinned = true → Goes (.pinl o) s (status on 0)) ∧
         (pinned = false → room = false → Goes (.pinl o) s (status on 1)) ∧
         ∀ d1, pinned = false → room = true → fillLine m on ctx sp va l pa 40 = .ok d1 →
           let d2 := modSkein (modL1 d1 sp line fun c => { c with pin := true }) u fun k =>
             { k with pins := k.pins ++ [{ line := line, va := va }] }
           Goes (.pinl o) s (status (if l2 then { d2 with l2pins := d2.l2pins ++ [(u, line, die)] } else d2) 0)))))

/-- R179, R347, R348, R362, R363: WAITX, WAITV and JOIN on a word that passes its checks register, read the word at its slice and test
it: one whose condition holds completes, acquiring first where it says so, and writes the value (JOIN none); one whose condition does
not hold parks with its waiter registered. WAITX wants an external word and WAITV one that is not: else PERM; a WAITV that acquires
wider than .gr in a deterministic context raises DETVIOL. A guard condition that fails makes either only move on.
R338, R344, R348: the device steps of waiting. A timeout that finds the request still queued takes it away and gives TIMEOUT; a
closed cycle of lock waits into which the edges from a request lead posts one DEADLOCK record for each member, and none while it stands
reported; a line's wake-up reads and tests each of its waiters again, and lets those satisfied go on. That values and TIMEOUT are due
after 20 cycles is the model's choice (notes/assumptions/10), and so is DETVIOL before the checks of the word (6). -/
def Obligations.Waits : Prop :=
  (∀ (s : State) (l : Leaf) (pa : Nat), Issuing s →
     let m := s.mgmt
     let d := s.dev
     let u := d.cur.skein
     let ctx := curCtx d
     let test (i : Instr) (w : Bool) (len : Nat) (q : WaitReq) : Prop :=
       (∀ (x : Nat) (d1 : Dev), waitTest m (moved s w len true) u q = .ok (some x, d1) →
         Goes i s (addPend d1 u 20 (if q.join then [] else resOf wrS (BitVec.ofNat 7 q.d) (BitVec.ofNat 4 q.ty) x))) ∧
       ∀ (d0 d1 : Dev) (r : Option Nat), waitTest m (moved s w len true) u q = .ok (none, d0) → waitTest m d u q = .ok (r, d1) →
         Goes i s (parked s w len true { d1 with waiters := d1.waiters ++ [(q.line, .skein u)] } (.wait q))
     (∀ (o : Lm) (ext : Bool),
       let p := linePtr d o
       let ty := o.xw.ty
       let i : Instr := if ext then .waitx o else .waitv o
       let acq := o.xw.sub.getLsbD 3
       let sc := o.xw.sc.toNat
       let q : WaitReq :=
         { external := ext, join := false, line := pa / 128, va := p, ty := ty.toNat, cc := bitsOf o.xw.sub 0 3,
           v := BitVec.ofNat 64 (patOf (uniReader d) o.a ty), d := o.d.toNat, acq := if acq then sc else 0 }
       let barred : Prop := isDet m ctx = true ∧ ext = false ∧ acq = true ∧ 2 < sc
       (condUnder s o.xw.p o.xw.n = false → UniClear s o.xw.p o.xw.n [] → Goes i s (moved s o.w 8 false)) ∧
       (UniClear s o.xw.p o.xw.n [.s o.sb 2, .s o.a (tyRegs ty)] → condUnder s o.xw.p o.xw.n = true →
         (barred → Goes i s (trapped s o.w 8 true (faultAt .detviol 0 d.cur.lanes))) ∧
         (Reaches s p (tyBytes ty) l pa → ¬ barred →
           (isExternal m ctx p l ≠ ext → Goes i s (trapped s o.w 8 true (faultAt .perm p d.cur.lanes))) ∧
           (isExternal m ctx p l = ext → test i o.w 8 q)))) ∧
     ∀ o : Ue,
       let p := readS64 d (curSkein d) o.sp.toNat
       UniClear s 7 false [.s o.sp 2] → Reaches s p 8 l pa →
       test (.join o) o.w 4 { external := false, join := true, line := pa / 128, va := p, ty := 2, cc := 3, v := 0, d := 0, acq := 4 }) ∧
  (∀ (s : State),
     let m := s.mgmt
     let d := s.dev
     (∀ (u line va dst sc set : Nat), (skeinOf d u).park = some (.lock line va dst sc set) →
       Goes (.lockTimeout u) s (addPend (unpark (dropEntry d u line) u) u 20 [.s dst 2])) ∧
     (∀ u : Nat, (∀ line va dst sc set, (skeinOf d u).park ≠ some (.lock line va dst sc set)) → Goes (.lockTimeout u) s d) ∧
     (∀ u : Nat, waitChain d [] (d.skeins.length + 1) u = none → Goes (.deadlockCheck u) s d) ∧
     (∀ (u : Nat) (cycle : List (Nat × Nat)), waitChain d [] (d.skeins.length + 1) u = some cycle →
       let told := cycle.any fun x => (lockOf d x.2).reported.contains ((cycle.map fun y => y.1).insertionSort (· ≤ ·))
       (told = true → Goes (.deadlockCheck u) s d) ∧
       (told = false →
         ∃ t : Dev, Goes (.deadlockCheck u) s t ∧ t.mem = d.mem ∧ t.records.length = d.records.length + cycle.length ∧
           ∀ i, i < cycle.length → ∃ r ∈ t.records, r.id = d.nextId + i ∧ r.cause = .deadlock)) ∧
     (∀ (line : Nat) (d1 : Dev), wakeEach m d line ((d.waiters.filter fun w => w.1 == line).map fun w => w.2) = .ok d1 →
       Goes (.waitWake line) s d1) ∧
     (∀ (line u x : Nat) (q : WaitReq) (d1 : Dev), (skeinOf d u).park = some (.wait q) →
       (waitTest m d u q = .ok (none, d1) → wakeOne m d line (.skein u) = .ok d1) ∧
       (waitTest m d u q = .ok (some x, d1) → wakeOne m d line (.skein u) = .ok (addPend
         (unpark { d1 with waiters := d1.waiters.filter fun e => e != (line, .skein u) } u) u 20 (waitDst q x)))) ∧
     ∀ line c n : Nat, wakeOne m d line (.packet c n) = .ok (post d (.waitPacketWake c n)) ∧
       wakeOne m d line (.resp n) = .ok (post d (.faultRecord n)) ∧ wakeOne m d line (.svc n) = .ok (post d (.svcResume n)))

/-- R180, R181: EVENT releases at its scope, stores its value (1, or the literal) at its pointer when WR is set, and raises its vector
when IRQ is set; RTRIG writes a trigger register of the own context, after a release when it asks for one. -/
def Obligations.EventsAndTriggers : Prop :=
  ∀ (s : State), Issuing s →
    let m := s.mgmt
    let d := s.dev
    let ctx := curCtx d
    let sp := curSpindle d
    let event (i : Instr) (o : Ue) (len value : Nat) : Prop :=
      let wr := o.sub.getLsbD 4
      let sc := bitsOf o.sub 0 3
      let on := moved s o.w len true
      let p := readS64 d (curSkein d) o.sp.toNat
      let raise (d : Dev) : Dev := if o.sub.getLsbD 3 then interrupt d (18 * ctx + o.tag.toNat) else d
      UniClear s 7 false (if wr then [.s o.sp 2] else []) →
      (∀ d1, wr = false → releaseAt m on ctx sp sc = .ok d1 → Goes i s (raise d1)) ∧
      ∀ (l : Leaf) (pa : Nat) (d1 d2 : Dev), wr = true → checkPtr m d ctx sp p 8 8 true = .ok l pa →
        (isDevice pa = true ∨ linkUp d pa = true) → engineOwns d (pa / 128) = false → releaseAt m on ctx sp sc = .ok d1 →
        writeSlice m ctx d1 (some sp) (pa / 128) (byteMask (pa % 128) 8) (atByte (pa % 128) value) l.cmp = .ok d2 →
        Goes i s (raise (patchCopy d2 sp (pa / 128) (byteMask (pa % 128) 8) (atByte (pa % 128) value)))
    (∀ o : Ue, event (.event o) o 4 1) ∧ (∀ o : Ux, event (.eventLiteral o) o.ue 8 o.xl.toNat) ∧
    ∀ o : Ue, UniClear s 7 false [.s o.sp 2] →
      let v := readS64 d (curSkein d) o.sp.toNat
      let on := moved s o.w 4 true
      (o.sub.getLsbD 0 = false → Goes (.rtrig o) s (post on (.triggerWrite ctx o.tag.toNat v))) ∧
      ∀ d1, o.sub.getLsbD 0 = true → releaseAt m on ctx sp 4 = .ok d1 → Goes (.rtrig o) s (post d1 (.triggerWrite ctx o.tag.toNat v))

/-- R300, R352 to R355: BAR and BARP release at .gr and arrive with the bundle's threads, which wait at the slot unless BARP only
arrives; BARP's count must be from 1 to the group's threads, else BOUNDS. An arrival that does not complete its phase leaves it in the
slot. A fence at .sk or .gr is complete at once, but for a release with an earlier surface write due, which parks (R383); a wider one
parks, the write-backs of the spindle's dirty lines posted first where it releases, and its completion releases and acquires at its scope
before the skein goes on. That arrivals are kept by the threads' numbers at the start of the group is the model's choice
(notes/assumptions/20). -/
def Obligations.BarriersAndFences : Prop :=
  ∀ (s : State), Issuing s →
    let m := s.mgmt
    let d := s.dev
    let ctx := curCtx d
    let sp := curSpindle d
    (∀ o : Ue,
      let on := moved s o.w 4 true
      let n := (uniReader d o.sp.toNat).toNat
      let all := 32 * hSkeins (curGroup d).header
      let sc := bitsOf o.sub 0 3
      let kind := bitsOf o.sub 3 2
      (∀ d1 d2, UniClear s 7 false [] → releaseAt m on ctx sp 2 = .ok d1 → arrive m d1 o.tag.toNat 0 false false = .ok d2 →
        Goes (.bar o) s d2) ∧
      (UniClear s 7 false [.s o.sp 1] →
        (n = 0 ∨ all < n → Goes (.barp o) s (trapped s o.w 4 true (faultAt .bounds 0 d.cur.lanes))) ∧
        ∀ d1 d2, 0 < n → n ≤ all → releaseAt m on ctx sp 2 = .ok d1 → arrive m d1 o.tag.toNat n true (o.sub.getLsbD 0) = .ok d2 →
          Goes (.barp o) s d2) ∧
      (UniClear s 7 false [] →
        (sc ≤ 2 → (kind < 2 ∨ surfaceDue d sp = none) → Goes (.fence o) s (moved s o.w 4 false)) ∧
        (sc ≤ 2 → 2 ≤ kind → surfaceDue d sp ≠ none →
          Goes (.fence o) s (parked s o.w 4 false (post d (.fenceComplete d.cur.skein)) (.fence kind sc))) ∧
        (2 < sc →
          let es := if 2 ≤ kind then (dirtyLines d sp).map fun line => Instr.writebackMerge sp line else []
          Goes (.fence o) s (parked s o.w 4 false (post (postAll d es) (.fenceComplete d.cur.skein)) (.fence kind sc))))) ∧
    ∀ (slot n : Nat) (barp arv : Bool),
      let k := curSkein d
      let old := (tget? (groupOf d k.gid).bars slot).getD { barp := barp, n := n, arrived := [] }
      let p : Phase := { old with arrived := old.arrived ++
        ((lanesOf d.cur.lanes).map fun l => (threadOf k l).num0).filter fun t => !old.arrived.contains t }
      let d1 := modGroup d k.gid fun g => { g with bars := tset g.bars slot p }
      let d2 := if arv then d1
        else modSkein d1 d.cur.skein fun k => modThreads k (lanesOf d.cur.lanes) fun _ t => { t with st := .bar slot }
      (group? d k.gid).isSome = true →
      phaseDone (switchPoint d2 d.cur.skein) k.gid p = false → arrive m d slot n barp arv = .ok (switchPoint d2 d.cur.skein)

/-- R424, R426, R429: LDPX and LDCF complete when the surface, the pixels and the blocks pass their checks and no registered write of a
tile waits for a half: each executing lane's values go in flight, and the blocks they reconstructed are kept. Without an executing lane
they only move on; a failed check faults. -/
def Obligations.SurfaceLoads : Prop :=
  ∀ (o : Lm) (s : State), Issuing s →
    let m := s.mgmt
    let d := s.dev
    let ex := lanesUnder s o.xw.p o.xw.n
    let ls := lanesOf ex
    let on := moved s o.w 8 false
    let load (i : Instr) (ncomp : Nat) (predicts : Bool) (comps : List Nat) (undef : List PWrite)
        (value : Surf → Nat → SurfM (List PWrite × List (Nat × Nat × Nat × List Nat))) : Prop :=
      (ls = [] → Goes i s on) ∧
      (∀ (sf : Surf) (vs : List (Nat × (List PWrite × List (Nat × Nat × Nat × List Nat)))), ls ≠ [] →
        loadSurf m d o ncomp predicts comps ls = .ok sf → pixHalf m d o sf ls = none → perLane ls (value sf) = .ok vs →
        let kept := keepBlocks m (noteTiles m on (curCtx d) sf predicts (pixList d o ls)) (curCtx d) sf (vs.flatMap fun v => v.2.2)
        Goes i s (addPend kept d.cur.skein (surfLat d) (vs.flatMap fun v => v.2.1))) ∧
      ∀ (b : Bad) (who : Mask) (each : List Bad), ls ≠ [] → loadSurf m d o ncomp predicts comps ls = .error (.badAt b who each) →
        Goes i s (trapped s o.w 8 false (surfFault ex false undef b who each))
    LaneClear s o.xw.p o.xw.n [.s o.sb 2, .v o.a 1] →
    load (.ldpx o) (pixC0 o + pixNc o) true (pixComps o) (ls.flatMap fun l => splitRegs (wrV l) o.d.toNat 0 (pixNc o))
      (ldpxValue m d o) ∧
    load (.ldcf o) (coefComp o + 1) false [coefComp o] (ls.flatMap fun l => res1 (wrV l) o.d 0) (ldcfValue m d o)

/-- R382, R388, R425, R427, R428, R430, R436, R437: STPX, STCF, STMV and SURFCLR, when their checks pass and nothing has to be waited
for, make out one operation for each tile and park until those have been registered; without a lane, or a tile, they only move on. A
SEAL takes its place at once and parks until it has been applied; behind another SEAL of its surface it raises PERM; with EGR it wants
a stream of the own context with room.
R382, R388, R402, R425, R435: the operations of a waiting skein are registered, and it goes on once all are; one that comes after a
SEAL of its surface raises PERM and none of its operations is made. A registered operation waits for those registered before it on its
tile, is applied and leaves; a SEAL waits for the operations that stand before it and then sets SEALED and releases. The model's choices
in it: that a SEAL behind a pending SEAL meets a sealed surface, and that an operation is applied from its registration on
(notes/assumptions/28). -/
def Obligations.SurfaceWrites : Prop :=
  (∀ (s : State), Issuing s →
     let m := s.mgmt
     let d := s.dev
     let u := d.cur.skein
     let free (ctx : Nat) (sf : Surf) (ops : List SurfOp) : Prop := ∀ w, tryOps m d ctx sf ops ≠ .error (.need w)
     let sent (w : Bool) (len : Nat) (ends : Mask) (ops : List SurfOp) : Dev :=
       parkedIn s w len ends (post (addOps d ops) (.surfaceWriteRegistered u)) .surf
     (∀ (o : Lm) (sf : Surf),
       let ex := lanesUnder s o.xw.p o.xw.n
       (LaneClear s o.xw.p o.xw.n [.s o.sb 2, .v o.a 1, .v o.d (pixNc o + if pixOrd o then 1 else 0)] →
         (ex = 0 → Goes (.stpx o) s (moved s o.w 8 false)) ∧
         (ex ≠ 0 → stpxChecks m d o ex = .ok sf → free (curCtx d) sf (stpxOps m d o ex sf) →
           Goes (.stpx o) s (sent o.w 8 ex (stpxOps m d o ex sf)))) ∧
       (LaneClear s o.xw.p o.xw.n [.s o.sb 2, .v o.a 1, .v o.d 1] →
         (ex = 0 → Goes (.stcf o) s (moved s o.w 8 false)) ∧
         (ex ≠ 0 → stcfChecks m d o ex = .ok sf → free (curCtx d) sf (stcfOps m d o ex sf) →
           Goes (.stcf o) s (sent o.w 8 ex (stcfOps m d o ex sf))))) ∧
     (∀ (o : Ue) (sf : Surf), UniClear s 7 false [.s o.sp 4] →
       let clr := (clrTiles d o sf).map fun t => surfOp m d (surfPtr d o) d.cur.lanes t [.clear]
       (stmvChecks m d o = .ok sf → free (curCtx d) sf (stmvOps m d o sf) → Goes (.stmv o) s (sent o.w 4 (endsIf true) (stmvOps m d o sf))) ∧
       (clrChecks m d o = .ok sf →
         (clrTiles d o sf = [] → Goes (.surfclr o) s (moved s o.w 4 true)) ∧
         (clrTiles d o sf ≠ [] → free (curCtx d) sf clr → Goes (.surfclr o) s (sent o.w 4 (endsIf true) clr)))) ∧
     ∀ (o : Ue) (sf : Surf), UniClear s 7 false [.s o.sp 2] →
       let p := readS64 d (curSkein d) o.sp.toNat
       let egr := o.sub.getLsbD 0 && !d.sealOnly.contains u
       let key := 16 * (curGroup d).die + o.tag.toNat % 16
       let mine := ((tget? d.streams key).map fun x => x.ctx == curCtx d).getD false
       let full := ((tget? d.streams key).map fun x => decide (4 ≤ x.queue.length)).getD false
       openSurf m d (curCtx d) p true (fun _ => .ok ()) = .ok sf →
       let sealing := sealPending d (descNo m d (curCtx d) p)
       (sealing = true ∨ (egr = true ∧ mine = false) → Goes (.seal o) s (trapped s o.w 4 true (faultAt .perm p d.cur.lanes))) ∧
       (sealing = false → egr = true → mine = true → full = true →
         Goes (.seal o) s (parked s o.w 4 true d (.egress (curGroup d).die (o.tag.toNat % 16)))) ∧
       (sealing = false → (egr = false ∨ (mine = true ∧ full = false)) → surfCheck m d (curCtx d) p 4 4 stTile true = .ok () →
         Goes (.seal o) s (parked s o.w 4 true
           (post { d with
             nextId := d.nextId + 1
             surfOps := d.surfOps ++ [{ surfOp m d p d.cur.lanes 0 [.seal] with
               id := d.nextId
               reg := true }]
             sealOnly := d.sealOnly.filter fun v => v != u } (.surfaceOpApply d.nextId))
           (.seal d.nextId (if egr then some key else none))))) ∧
  (∀ (s : State),
     let m := s.mgmt
     let d := s.dev
     (∀ (u : Nat) (q : SurfOp) (r : List SurfOp), (skeinOf d u).park = some .surf →
       (d.surfOps.filter fun x => x.skein == u && !x.reg) = q :: r →
       let d1 := (q :: r).foldl registerOp d
       let left := d1.surfOps.filter fun x => x.skein == u && !x.reg
       (isSealed m d q = .ok false →
         (left = [] → Goes (.surfaceWriteRegistered u) s (unpark d1 u)) ∧ (left ≠ [] → Goes (.surfaceWriteRegistered u) s d1)) ∧
       (isSealed m d q = .ok true →
         let k := skeinOf d u
         Goes (.surfaceWriteRegistered u) s
           (takeFault m { d with surfOps := d.surfOps.filter fun x => x.reg || x.skein != u } u
             (threadOf k ((lanesOf k.parkLanes).headD 0)).pc k.parkNext k.parkLanes (faultAt .perm q.desc q.lanes)))) ∧
     (∀ u : Nat, (skeinOf d u).park ≠ some .surf → Goes (.surfaceWriteRegistered u) s d) ∧
     ∀ (id : Nat) (q : SurfOp), (d.surfOps.find? fun x => x.id == id && x.reg) = some q →
       (opWaits d q = true → Goes (.surfaceOpApply id) s d) ∧
       (∀ (sf : Surf) (d1 : Dev), q.acts.contains .seal = false → q.marks = [] → opWaits d q = false →
         readSurfAgain m d q.ctx q.desc = .ok sf →
         (q.acts.foldlM (fun d a => applyAct m d (spindleNo (groupOf d q.gid)) q.ctx sf q.tile a) d : SurfM Dev) = .ok d1 →
         ∃ t : Dev, Goes (.surfaceOpApply id) s t ∧ t.mem = d1.mem ∧ (∀ x ∈ t.surfOps, x.id ≠ id)) ∧
       ∀ d1 : Dev, q.acts.contains .seal = true → opWaits d q = false → (skeinOf d q.skein).park = some (.seal id none) →
         sealNow m d q none = .ok d1 →
         Goes (.surfaceOpApply id) s
           (unpark (namedBy d (groupOf d q.gid) { d1 with surfOps := d1.surfOps.filter fun x => x.id != id }) q.skein))

/-- R416 to R422, R431: SMP reads the image's descriptor and the program it names, then every texel of every lane, and puts four results
for each executing lane in flight, computed by the program's rule from the texels in tap order; a malformed descriptor or program raises
BOUNDS with its pointer.
R408 to R415, R432, R433: outside a tile group DSCL and DSCF raise PERM; inside one each executing lane in turn looks its key up. A
VALID entry of the key is a HIT with its value, a RESERVED one of any thread gives status 2, and a key with neither takes a way, status
1, unless every way of its set is reserved, status 2. DSCF makes the entry that its group reserved VALID with the lane's value. -/
def Obligations.Sampling : Prop :=
  (∀ (o : Lm) (s : State), Issuing s →
     let m := s.mgmt
     let d := s.dev
     let ex := lanesUnder s o.xw.p o.xw.n
     let ls := lanesOf ex
     let p := readS64 d (curSkein d) o.sb.toNat
     let on := moved s o.w 8 false
     LaneClear s o.xw.p o.xw.n [.s o.sb 2, .v o.a 2] →
     (ls = [] → Goes (.smp o) s on) ∧
     ∀ (a : LAcc) (l : Leaf) (pa x lat : Nat) (d1 : Dev), ls ≠ [] → bundleChecks m (forLanes d ex) p 32 0 = .go [(a, l, pa)] →
       ownedLine d [(a, l, pa)] = none → loadVia m on (curCtx d) (curSpindle d) p l pa 32 0 0 = .ok (x, d1, lat) →
       let desc := BitVec.ofNat 256 (bundleOver m (forLanes d ex) pa 32 x)
       let d1' := useCurr d1 (usedBy 0 l pa)
       (parseImage desc = none → Goes (.smp o) s (trapped s o.w 8 false (faultAt .bounds p ex))) ∧
       ∀ (g : Image) (y : Nat) (d2 : Dev), parseImage desc = some g → progLines m d1' (curCtx d) (curGroup d).launch (smpProg o g) = .ok (y, d2) →
         (parseProg (BitVec.ofNat 4096 y) = none → Goes (.smp o) s (trapped s o.w 8 false (faultAt .bounds (smpProg o g) ex))) ∧
         ∀ pr : Prog, parseProg (BitVec.ofNat 4096 y) = some pr →
           (isDet m (curCtx d) = true → pr.cmp = true → hazV (curSkein d) ex (o.a.toNat + 2) 1 = 0) →
           let result (d3 : Dev) (ts : List (List Nat)) : Prop :=
             Goes (.smp o) s (addPend d3 d.cur.skein (max (max lat 20) (surfLat d)) (smpWrites d o pr ls ts))
           (∀ (acc : List (LAcc × Leaf × Nat)) (vals : List (Nat × Nat)) (d3 : Dev) (t : Nat), g.pred = false →
             loadChecks m d (texelBytes g.fmt) (texelBytes g.fmt) 0 (texelAccs g (smpItems d o pr g ls)) = .go acc →
             ownedLine d acc = none → loadLanes m d2 (curCtx d) (curSpindle d) (texelBytes g.fmt) 0 acc = .ok (vals, d3, t) →
             result d3 (vals.map fun v => texelVals g.fmt v.2)) ∧
           ∀ (sf : Surf) (c : List (Nat × Unit)) (vs : List (Nat × List (List Nat × List (Nat × Nat × Nat × List Nat)))), g.pred = true →
             openSurf m d (curCtx d) g.base false (fun _ => .ok ()) = .ok sf →
             let items := smpItems d o pr { g with
               w := sf.w
               h := sf.h } ls
             perLane ls (predCheck m d sf items) = .ok c →
             (items.findSome? fun i => tileHalf d (descNo m d (curCtx d) g.base) (tileOfPix sf i.2.1 i.2.2)) = none →
             perLane ls (predValues m d sf items) = .ok vs →
             result (keepBlocks m (noteTiles m d2 (curCtx d) sf true items) (curCtx d) sf (vs.flatMap fun v => v.2.flatMap fun x => x.2))
               (vs.flatMap fun v => v.2.map fun x => x.1)) ∧
  (∀ (o : Lm) (s : State), Issuing s →
     let d := s.dev
     let u := d.cur.skein
     let g := curGroup d
     let sp := spindleNo g
     let ex := lanesUnder s o.xw.p o.xw.n
     let on := moved s o.w 8 false
     let resv (st : DscSt) : Bool := match st with | .reserved .. => true | _ => false
     (passOf d g = none →
       (LaneClear s o.xw.p o.xw.n [.v o.a 4] → ex ≠ 0 → Goes (.dscl o) s (trapped s o.w 8 false (faultAt .perm 0 ex))) ∧
       (LaneClear s o.xw.p o.xw.n [.v o.a 4, .v o.d 4] → ex ≠ 0 → Goes (.dscf o) s (trapped s o.w 8 false (faultAt .perm 0 ex)))) ∧
     ∀ pass : Nat, passOf d g = some pass →
       (LaneClear s o.xw.p o.xw.n [.v o.a 4] →
         let r := (lanesOf ex).foldl (dsclStep d o g pass) ([], on)
         Goes (.dscl o) s (addPend r.2 u (surfLat d) r.1)) ∧
       (LaneClear s o.xw.p o.xw.n [.v o.a 4, .v o.d 4] →
         Goes (.dscf o) s ((lanesOf ex).foldl (dscfStep d o g pass) on)) ∧
       ∀ (d1 : Dev) (lane : Nat) (key : DWord),
         let r := dscLookup d1 g pass lane key
         (∀ e, dscFind d1 sp g.ctx pass key (· == .valid) = some e → r.1 = 0 ∧ r.2.1 = e.val) ∧
         (dscFind d1 sp g.ctx pass key (· == .valid) = none → dscFind d1 sp g.ctx pass key resv ≠ none → r.1 = 2 ∧ r.2.2 = d1) ∧
         (dscFind d1 sp g.ctx pass key (· == .valid) = none → dscFind d1 sp g.ctx pass key resv = none →
           (dscWay d1 sp (dscSet key) lane = none → r.1 = 2 ∧ r.2.2 = d1) ∧
           ∀ w, dscWay d1 sp (dscSet key) lane = some w → r.1 = 1 ∧
             ∃ e ∈ r.2.2.dsc, e.spindle = sp ∧ e.set = dscSet key ∧ e.way = w ∧ e.key = key ∧ e.pass = pass ∧
               e.st = .reserved g.gid (threadOf (skeinOf d1 d1.cur.skein) lane).num0))

/-- R393, R396 to R398, R438, R439: TBEGIN with a well-formed block opens a pass on an idle tiler of its die, after a release at device
scope, and waits while another pass is open; TFLUSH without an open pass of its context raises QUEUEUSE, waits during a partial render,
and otherwise releases, discards partly assembled records, closes the bins and makes the tiles' rounds due. A round's group starts on
a spindle that fits, in whose sets its scratchpad takes its ways; the end of a partial render empties the bins and lets pushes go on. That
TFLUSH waits during a partial render is the model's choice (notes/assumptions/42). -/
def Obligations.Tiler : Prop :=
  ∀ (s : State),
    let m := s.mgmt
    let d := s.dev
    let g := curGroup d
    (Issuing s →
      (∀ (o : Ue) (a : LAcc) (l : Leaf) (pa x lat : Nat) (d1 : Dev) (h : BitVec 1024),
        let p := readS64 d (curSkein d) o.sp.toNat
        let b := BitVec.ofNat 512 (bundleOver m d pa 64 x)
        UniClear s 7 false [.s o.sp 2] → bundleChecks m d p 64 0 = .go [(a, l, pa)] → ownedLine d [(a, l, pa)] = none →
        loadVia m (moved s o.w 4 true) (curCtx d) (curSpindle d) p l pa 64 0 0 = .ok (x, d1, lat) → tbeginHeader m d p b = .ok h →
        (∀ d2, tget? d.tilers g.die = none → releaseAt m (useCurr d1 (usedBy 0 l pa)) (curCtx d) (curSpindle d) 4 = .ok d2 →
          Goes (.tbegin o) s (openPass m d2 g b h)) ∧
        ∀ d2, tget? d.tilers g.die ≠ none → releaseAt m d (curCtx d) (curSpindle d) 4 = .ok d2 →
          Goes (.tbegin o) s (parked s o.w 4 true d2 .tiler)) ∧
      ∀ o : Ue, UniClear s 7 false [] →
        (tget? d.tilers g.die = none → Goes (.tflush o) s (trapped s o.w 4 true (faultAt .queueuse 0 d.cur.lanes))) ∧
        ∀ p : Pass, tget? d.tilers g.die = some p →
          ((p.open_ = false ∨ p.ctx ≠ g.ctx) → Goes (.tflush o) s (trapped s o.w 4 true (faultAt .queueuse 0 d.cur.lanes))) ∧
          (p.open_ = true → p.ctx = g.ctx →
            (p.rendering = true → Goes (.tflush o) s (parked s o.w 4 true d .tiler)) ∧
            ∀ (d1 d3 d4 : Dev) (p2 : Pass), p.rendering = false → releaseAt m (moved s o.w 4 true) g.ctx (curSpindle d) 4 = .ok d1 →
              let c := dropPartial d1 g.die g.ctx
              closeBins m c.2 g.die { p with
                discarded := p.discarded + c.1
                open_ := false } g.launch (groupCls m d g) = .ok (p2, d3) →
              passProgress m { d3 with tilers := tset d3.tilers g.die p2 } g.die = .ok d4 → Goes (.tflush o) s d4)) ∧
    (∀ (die tile : Nat), tget? d.tilers die = none → Goes (.tileRoundStart die tile) s d ∧ Goes (.partialRenderEnd die) s d) ∧
    (∀ (die tile sp : Nat) (p : Pass) (r : RoundReq) (l : Launch) (d1 : Dev), tget? d.tilers die = some p → nextRound d p = some r →
      launch? d p.launch = some l → r.tile = tile → findSpindle m d die (startDemand p.ctx p.header) = some sp →
      acquireAt m d p.ctx (48 * die + sp) 4 = .ok d1 →
      let gr := launchGroup d1 l tile die sp
      ∀ d3 : Dev, clearWays m (startGroup gr.2 { gr.1 with
          tile := some r.round
          scratch := memBytes [] 0 r.input } (startThread p.header tile) (startS l.args tile)) p.ctx (48 * die + sp) = .ok d3 →
      ∃ t : Dev, Goes (.tileRoundStart die tile) s t ∧ t.mem = d3.mem ∧
        ∃ x ∈ t.groups, x.die = die ∧ x.spindle = sp ∧ x.tile = some r.round ∧ x.launch = l.id ∧ x.index = tile) ∧
    (∀ (die : Nat) (p : Pass), tget? d.tilers die = some p → (p.rendering = false ∨ p.rounds ≠ [] ∨ passGroups d p ≠ []) →
      Goes (.partialRenderEnd die) s d) ∧
    ∀ (die : Nat) (p : Pass), tget? d.tilers die = some p → p.rendering = true → p.rounds = [] → passGroups d p = [] → p.held = [] →
      Goes (.partialRenderEnd die) s (wakeTiler { d with tilers := tset d.tilers die { p with
        rendering := false
        recs := []
        used := 0
        partials := p.partials + 1
        held := [] } })

/-- R124, R125, R160, R394: MOV and SMOV between registers copy; with a queue register they push or pop one word for each executing
lane, or one element. A use that the binding does not allow raises QUEUEUSE; a pop with too few elements and a push that finds no room
wait; under a guard condition that fails SMOV with a queue register only moves on. An element pushed to an engine's queue is a command, done as its instruction does it.
R177, R290 to R293: QBIND binds a free queue register to an endpoint, QFREE frees it, QSTAT writes its state or, in a deterministic
context, raises DETVIOL, and SPAWN writes its record of eight registers to the spool queue's next entry, after a release if it asks for
one, and waits while the queue is full. A bound register, an unset spool queue and a second binding of an endpoint from 4 on raise
QUEUEUSE. The model's choices in it: that a command's bits [127:78] and its opcode must fit (notes/assumptions/45), what QSTAT counts
(43), and that what MOV and SMOV pop is due after 4 and 2 cycles (10). -/
def Obligations.Queues : Prop :=
  (∀ (o : Lr) (s : State), Issuing s →
     let m := s.mgmt
     let d := s.dev
     let u := d.cur.skein
     let x := lrXm o 0
     let len := lenOf o.xm
     let n := tyRegs x.ty
     let ex := lanesUnder s x.p x.n
     let ls := lanesOf ex
     let on := moved s o.w len true
     let onLanes := movedIn s o.w len ex
     let into := qOf (curSkein d) (qNo o.d)
     let out := qOf (curSkein d) (qNo o.a)
     let c := condUnder s x.p x.n
     let ctx := curCtx d
     let g := curGroup d
     (o.d.toNat < 120 → o.a.toNat < 120 → (bitType x.ty ∨ x.ty = 15) →
       LaneRuns (.mov o) s x.p x.n len 4 [.v o.a n] fun l => quiet (copyRegs (laneReader d l) (wrV l) o.a o.d n)) ∧
     (120 ≤ o.d.toNat → o.a.toNat < 120 → LaneClear s x.p x.n [.v o.a n] →
       (ls = [] → Goes (.mov o) s onLanes) ∧
       (ls ≠ [] → (into.bound = false ∨ into.ep ≠ 0 ∨ n ≠ 1) → Goes (.mov o) s (trapped s o.w len true (faultAt .queueuse 0 ex))) ∧
       (ls ≠ [] → into.bound = true → into.ep = 0 → n = 1 →
         let push := pushTiler m d onLanes (qNo o.d) (ls.map fun l => laneReader d l o.a.toNat)
         (∀ d1, push = .ok d1 → Goes (.mov o) s d1) ∧
         (push = .refused → Goes (.mov o) s (trapped s o.w len true (faultAt .queueuse 0 ex))) ∧
         (push = .full → Goes (.mov o) s (parkedIn s o.w len ex d .tiler)))) ∧
     (o.d.toNat < 120 → 120 ≤ o.a.toNat → LaneClear s x.p x.n [] →
       (ls = [] → Goes (.mov o) s onLanes) ∧
       (ls ≠ [] → (out.bound = false ∨ out.ep ≠ 6 ∨ n ≠ 1) → Goes (.mov o) s (trapped s o.w len true (faultAt .queueuse 0 ex))) ∧
       (ls ≠ [] → out.bound = true → out.ep = 6 → n = 1 →
         (out.elems.length < ls.length → Goes (.mov o) s (parkedIn s o.w len ex d .queue)) ∧
         (ls.length ≤ out.elems.length → Goes (.mov o) s (addPend
           (setQ onLanes u (qNo o.a) { out with elems := out.elems.drop ls.length }) u 4
           ((ls.zip out.elems).flatMap fun e => res1 (wrV e.1) o.d e.2.toNat))))) ∧
     (120 ≤ o.d.toNat ∨ 120 ≤ o.a.toNat → c = false → UniClear s x.p x.n [] → Goes (.smov o) s (moved s o.w len false)) ∧
     (120 ≤ o.d.toNat → o.a.toNat < 120 → UniClear s x.p x.n [.s o.a n] → c = true →
       let v := joinRegs (uniReader d) o.a.toNat n
       (uniBound into n = none → Goes (.smov o) s (trapped s o.w len true (faultAt .queueuse 0 d.cur.lanes))) ∧
       (uniBound into n = some 1 →
         (into.half = none → Goes (.smov o) s (setQ on u (qNo o.d) { into with half := some (BitVec.ofNat 128 v) })) ∧
         ∀ y, into.half = some y →
           (spoolFull m d ctx into.prio = true → Goes (.smov o) s (parked s o.w len true d .queue)) ∧
           ∀ d1, spoolFull m d ctx into.prio = false → pushSpool m on ctx into.prio (y.toNat + 2 ^ 128 * v) = .ok d1 →
             Goes (.smov o) s (setQ d1 u (qNo o.d) { into with half := none })) ∧
       ∀ ep, uniBound into n = some ep → ep ≠ 1 →
         let op := v / 2 ^ 64 % 256
         let tag := v / 2 ^ 72 % 64
         let p := BitVec.ofNat 64 v
         let mine := hTagBase g.header ≤ tag ∧ tag < hTagBase g.header + hTagCnt g.header
         let fits := (ep = 2 ∧ 0x53 ≤ op ∧ op ≤ 0x57) ∨ (ep = 3 ∧ 0x50 ≤ op ∧ op ≤ 0x52)
         (¬ (fits ∧ mine ∧ v < 2 ^ 78) → Goes (.smov o) s (trapped s o.w len true (faultAt .queueuse 0 d.cur.lanes))) ∧
         ∀ (a : LAcc) (l : Leaf) (pa y lat : Nat) (d1 : Dev), fits → mine → v < 2 ^ 78 → bundleChecks m d p 64 0 = .go [(a, l, pa)] →
           ownedLine d [(a, l, pa)] = none →
           loadVia m (if g.busy.getLsbD tag then d else on) ctx (curSpindle d) p l pa 64 0 0 = .ok (y, d1, lat) →
           let blk := BitVec.ofNat 512 (bundleOver m d pa 64 y)
           let d2 := useCurr d1 (usedBy 0 l pa)
           (g.busy.getLsbD tag = true → Goes (.smov o) s (parked s o.w len true d2 (.tag tag op false p blk))) ∧
           ∀ d3, g.busy.getLsbD tag = false → cmdHazard m d u op blk = false → sendCmd m d2 u d.cur.pc op tag false p blk = .ok d3 →
             Goes (.smov o) s d3) ∧
     (o.d.toNat < 120 → 120 ≤ o.a.toNat → UniClear s x.p x.n [] → c = true →
       (uniBound out n = none → Goes (.smov o) s (trapped s o.w len true (faultAt .queueuse 0 d.cur.lanes))) ∧
       ((uniBound out n = some 4 ∨ uniBound out n = some 5) →
         (out.elems = [] → Goes (.smov o) s (parked s o.w len true d .queue)) ∧
         ∀ e r, out.elems = e :: r → Goes (.smov o) s (addPend (setQ on u (qNo o.a) { out with elems := r }) u 2
           (splitRegs wrS o.d.toNat e.toNat n))) ∧
       ((uniBound out n = some 2 ∨ uniBound out n = some 3) →
         Goes (.smov o) s (trapped s o.w len true (faultAt .queueuse 0 d.cur.lanes))) ∧
       (uniBound out n = some 1 →
         let sp := spoolOf d ctx out.prio
         let put (d : Dev) (x : Nat) : Dev := addPend d u 2 (splitRegs wrS o.d.toNat x n)
         (∀ y, out.popHalf = some y → Goes (.smov o) s (put (setQ on u (qNo o.a) { out with popHalf := none }) y.toNat)) ∧
         (out.popHalf = none → sp.push ≤ sp.pop → Goes (.smov o) s (parked s o.w len true d .queue)) ∧
         ∀ y d1, out.popHalf = none → sp.pop < sp.push → distRead m on ctx (spoolEntry m ctx out.prio sp.pop) 32 32 = .ok (y, d1) →
           Goes (.smov o) s (put (setQ (spoolPopped d1 ctx out.prio) u (qNo o.a)
             { out with popHalf := some (BitVec.ofNat 128 (y / 2 ^ 128)) }) (y % 2 ^ 128))))) ∧
  (∀ (s : State), Issuing s →
     let m := s.mgmt
     let d := s.dev
     let u := d.cur.skein
     let ctx := curCtx d
     let k := curSkein d
     let refused (w : Bool) : Dev := trapped s w 4 true (faultAt .queueuse 0 d.cur.lanes)
     (∀ o : Ue,
       let on := moved s o.w 4 true
       let i := qNo o.sp
       let ep := bitsOf o.tag 0 4
       let prio := bitsOf o.tag 4 2
       let bad := (qOf k i).bound || (ep == 1 && spoolBase m ctx prio == 0) ||
         (decide (4 ≤ ep) && k.q.toList.any fun q => q.bound && q.ep == ep)
       (UniClear s 7 false [] →
         (bad = true → Goes (.qbind o) s (refused o.w)) ∧
         (bad = false → Goes (.qbind o) s (setQ on u i { blankQ with
           bound := true
           ep := ep
           prio := prio })) ∧
         Goes (.qfree o) s (setQ on u i blankQ)) ∧
       (UniClear s 7 false [.s o.sp 8] →
         let p := bitsOf o.sub 0 2
         let x := joinRegs (uniReader d) o.sp.toNat 8
         (spoolBase m ctx p = 0 → Goes (.spawn o) s (refused o.w)) ∧
         (spoolBase m ctx p ≠ 0 → spoolFull m d ctx p = true → o.sub.getLsbD 2 = false →
           Goes (.spawn o) s (parked s o.w 4 true d .queue)) ∧
         (∀ d1, spoolBase m ctx p ≠ 0 → spoolFull m d ctx p = true → o.sub.getLsbD 2 = true →
           releaseAt m d ctx (curSpindle d) 4 = .ok d1 → Goes (.spawn o) s (parked s o.w 4 true d1 .queue)) ∧
         (∀ d1, spoolBase m ctx p ≠ 0 → spoolFull m d ctx p = false → o.sub.getLsbD 2 = false → pushSpool m on ctx p x = .ok d1 →
           Goes (.spawn o) s d1) ∧
         ∀ d1 d2, spoolBase m ctx p ≠ 0 → spoolFull m d ctx p = false → o.sub.getLsbD 2 = true →
           releaseAt m on ctx (curSpindle d) 4 = .ok d1 → pushSpool m d1 ctx p x = .ok d2 → Goes (.spawn o) s d2)) ∧
     ∀ o : Lk, UniClear s 7 false [] →
       let q := qOf k ((kNatural o).toNat % 8)
       let state := if q.bound then
           2 ^ 31 + (if q.ovf then 2 ^ 30 else 0) + (if q.half.isSome then 2 ^ 29 else 0) + qCount m d q * 2 ^ 16 + q.prio * 2 ^ 4 + q.ep
         else 0
       (isDet m ctx = true → Goes (.qstat o) s (trapped s o.w (lenOf o.xl) false (detRead d.cur.lanes false o.d.toNat 1))) ∧
       (isDet m ctx = false → Goes (.qstat o) s (addPend (moved s o.w (lenOf o.xl) false) u 2 [.s o.d.toNat (BitVec.ofNat 32 state)])))

/-- R153, R457, R458: SVC without a request ring raises SVC with its number in DATA; with one it releases at system scope and parks until
its slots are written: a header and a block for each lane, TAIL behind them, then the service vector. Answered DONE 1, each lane's v0 to
v3 take its response words, against any older result in flight (R100), after an acquire at system scope, and the bundle goes on after the
call, once its skein is on a spindle; answered 0 it waits on, and any other answer kills the skein. A wake-up of a call that waits for room in the ring tries it again. -/
def Obligations.ServiceCalls : Prop :=
  ∀ (s : State),
    let m := s.mgmt
    let d := s.dev
    (∀ o : Lk, Issuing s → Clear s d.cur.lanes [.v 0 12] →
      let n := kNatural o
      (ringLog (ctxOf m (curCtx d)).ring = 0 → Goes (.svc o) s (trapped s o.w (lenOf o.xl) true
        { faultAt .svc 0 d.cur.lanes with data := n.setWidth 64 })) ∧
      ∀ d1, ringLog (ctxOf m (curCtx d)).ring ≠ 0 → releaseAt m d (curCtx d) (curSpindle d) 5 = .ok d1 →
        Goes (.svc o) s (parked s o.w (lenOf o.xl) true (post d1 (.requestRingWrite d.cur.skein)) (.ring n d.cur.lanes d.cur.pc))) ∧
    (∀ (u : Nat) (n : Word) (ls : Mask) (pc : DWord), (skeinOf d u).park = some (.ring n ls pc) →
      let k := skeinOf d u
      let g := groupOf d k.gid
      let ring := (ctxOf m g.ctx).ring
      let xs := svcHeader g k ls pc :: (lanesOf ls).map (svcBlock d g k n pc)
      ∀ tail room : Nat, ringRoom m d g.ctx ring = .ok (tail, room) →
        (room < 1 + (lanesOf ls).length →
          Goes (.requestRingWrite u) s (waitAt m (dropWaiter d (.svc u)) g.ctx (ringBase ring) (.svc u))) ∧
        ∀ d1, 1 + (lanesOf ls).length ≤ room → ringPut m (dropWaiter d (.svc u)) g.ctx ring tail xs = .ok d1 →
          Goes (.requestRingWrite u) s (waitAt m (modSkein (interrupt d1 (18 * g.ctx + 16)) u fun k =>
            { k with park := some (.svc tail ls pc) }) g.ctx (ringSlot ring tail) (.svc u))) ∧
    (∀ (u : Nat) (n : Word) (ls : Mask) (pc : DWord), (skeinOf d u).park = some (.ring n ls pc) →
      Goes (.svcResume u) s (post d (.requestRingWrite u))) ∧
    ∀ (u slot : Nat) (ls : Mask) (pc : DWord), (skeinOf d u).park = some (.svc slot ls pc) →
      let k := skeinOf d u
      let g := groupOf d k.gid
      (svcDone m d u = some (.ok 0) → Goes (.svcResume u) s d) ∧
      (∀ x, svcDone m d u = some (.ok x) → x ≠ 0 → x ≠ 1 → Goes (.svcResume u) s (post (dropWaiter d (.svc u)) (.svcKill u))) ∧
      (svcDone m d u = some (.ok 1) → k.resident = false → Goes (.svcResume u) s d) ∧
      ∀ (ws : List (Nat × Nat)) (d1 : Dev), svcDone m d u = some (.ok 1) → k.resident = true → ws.map Prod.fst = lanesOf ls →
        (∀ i x, ws[i]? = some x → svcWords m d g.ctx slot i = .ok x.2) → acquireAt m d g.ctx (spindleNo g) 5 = .ok d1 →
        Goes (.svcResume u) s (modSkein (unpark (dropWaiter d1 (.svc u)) u) u fun k =>
          writeNow k (ws.flatMap fun x => splitRegs (wrV x.1) 0 x.2 4))

/-- R258, R259, R263, R280 to R282: each of the eight command instructions reads its 64-byte block, from memory or from the group's
scratchpad, once, and, unless its tag is busy, for which it parks with the block it read, gives its engine the command with the block, the tag and the tile
descriptors it names, after a release at cluster scope if it asks for one; the tag's bit is cleared and the tag becomes busy. A scratch
block that is misaligned raises ALIGN and one past the scratchpad BOUNDS. That a parked form keeps the block it read is the model's choice
(notes/assumptions/27). -/
def Obligations.EngineCommands : Prop :=
  ∀ (o : Ue) (s : State), Issuing s →
    let m := s.mgmt
    let d := s.dev
    let k := curSkein d
    let g := curGroup d
    let ctx := curCtx d
    let tag := o.tag.toNat
    let base := if g.busy.getLsbD tag then d else moved s o.w 4 true
    let ops : List (Instr × Nat) :=
      [(.cpy o, 0x50), (.cpyg o, 0x51), (.cpyd o, 0x52), (.mxa o, 0x53), (.mxc o, 0x54), (.mxz o, 0x55), (.mxld o, 0x56), (.mxst o, 0x57)]
    ∀ i op, (i, op) ∈ ops →
      let descs (blk : BitVec 512) : List Nat := if blockBad op (hAcct g.header) blk then [] else (cmdDescs op blk).map fun x => x.1
      let cmd (addr : DWord) (blk : BitVec 512) : Cmd :=
        { op := op, block := blk, blockAddr := addr, tag := tag, skein := k.uid, gid := g.gid, ctx := ctx, pc := d.cur.pc,
          tds := (descs blk).map (readT d k), nlt := (ctxOf m ctx).nlt }
      let ready (blk : BitVec 512) : Prop := isDet m ctx = true → (descs blk).any (pendT k) = false
      let sent (d0 : Dev) (addr : DWord) (blk : BitVec 512) : Prop :=
        (g.busy.getLsbD tag = true → Goes i s (parked s o.w 4 true d0 (.tag tag op (o.sub.getLsbD 0) addr blk))) ∧
        (g.busy.getLsbD tag = false → ready blk → o.sub.getLsbD 0 = false → Goes i s (submit d0 (cmd addr blk))) ∧
        ∀ d1, g.busy.getLsbD tag = false → ready blk → o.sub.getLsbD 0 = true → releaseAt m d0 ctx (curSpindle d) 3 = .ok d1 →
          Goes i s (submit d1 (cmd addr blk))
      (o.sub.getLsbD 1 = true → UniClear s 7 false [.s o.sp 1] →
        let a := (uniReader d o.sp.toNat).toNat
        (a % 64 ≠ 0 → Goes i s (trapped s o.w 4 true (faultAt .align (BitVec.ofNat 64 a) d.cur.lanes))) ∧
        (a % 64 = 0 → 1024 * hScratch g.header < a + 64 →
          Goes i s (trapped s o.w 4 true (faultAt .bounds (BitVec.ofNat 64 a) d.cur.lanes))) ∧
        (a % 64 = 0 → a + 64 ≤ 1024 * hScratch g.header →
          sent base (BitVec.ofNat 64 a) (BitVec.ofNat 512 (memNat g.scratch a 64)))) ∧
      (o.sub.getLsbD 1 = false → UniClear s 7 false [.s o.sp 2] →
        let p := readS64 d k o.sp.toNat
        ∀ (a : LAcc) (l : Leaf) (pa x lat : Nat) (d1 : Dev), bundleChecks m d p 64 0 = .go [(a, l, pa)] →
          ownedLine d [(a, l, pa)] = none → loadVia m base ctx (curSpindle d) p l pa 64 0 0 = .ok (x, d1, lat) →
          sent (useCurr d1 (usedBy 0 l pa)) p (BitVec.ofNat 512 (bundleOver m d pa 64 x)))

/-- R263, R265, R287 to R290, R295: TWAIT with no tag of the group's range goes on, with its tags ready goes on after an acquire at
cluster scope, and else parks; TFIRST gives the lowest completed tag, TSTAT a tag's status entry or the mask of completed tags, and
TDESC writes a tile descriptor register of four uniform registers. In a deterministic context TFIRST, TSTAT's mask and TSTAT of a tag
not complete raise DETVIOL. TFIRST under a guard condition that fails only moves on. -/
def Obligations.TagInstructions : Prop :=
  ∀ (s : State), Issuing s →
    let m := s.mgmt
    let d := s.dev
    let u := d.cur.skein
    let g := curGroup d
    let ctx := curCtx d
    let det := isDet m ctx
    let mine := tagRange g
    (∀ o : Ue,
      let on := moved s o.w 4 false
      let x := readS64 d (curSkein d) o.sp.toNat
      let any := o.sub.getLsbD 0
      let w := x &&& mine
      let ready := g.tags &&& ~~~g.busy
      let met := if any then w &&& ready != 0 else w &&& ~~~ready == 0
      (UniClear s 7 false [.s o.sp 2] →
        (w = 0 → Goes (.twait o) s on) ∧
        (∀ d1, w ≠ 0 → met = true → acquireAt m on ctx (curSpindle d) 3 = .ok d1 → Goes (.twait o) s d1) ∧
        (w ≠ 0 → met = false → Goes (.twait o) s (parked s o.w 4 false d (.twait x any)))) ∧
      (UniClear s 7 false [.s o.sp 4] → Goes (.tdesc o) s (addPend (moved s o.w 4 true) u 2
        [.t (o.tag.toNat % 16) (BitVec.ofNat 128 (joinRegs (uniReader d) o.sp.toNat 4))]))) ∧
    (∀ o : Lr,
      let x := lrXm o 14
      let len := lenOf o.xm
      let w := readS64 d (curSkein d) o.a.toNat &&& mine &&& g.tags
      (condUnder s x.p x.n = false → UniClear s x.p x.n [] → Goes (.tfirst o) s (moved s o.w len false)) ∧
      (UniClear s x.p x.n [.s o.a 2] → condUnder s x.p x.n = true →
      (det = true → Goes (.tfirst o) s (trapped s o.w len false (detRead d.cur.lanes false o.d.toNat 1))) ∧
      (det = false → Goes (.tfirst o) s (addPend (moved s o.w len false) u 2 [.s o.d.toNat (BitVec.ofNat 32 (lowestBit w))])))) ∧
    ∀ o : Lk, UniClear s 7 false [] →
      let n := (kNatural o).toNat
      let len := lenOf o.xl
      let tag := n % 64
      let on := moved s o.w len false
      let put (x : Nat) (regs : Nat) : Dev := addPend on u 2 (splitRegs wrS o.d.toNat x regs)
      (n.testBit 7 = true →
        (det = true → Goes (.tstat o) s (trapped s o.w len false (detRead d.cur.lanes false o.d.toNat 2))) ∧
        (det = false → Goes (.tstat o) s (put (g.tags &&& mine).toNat 2))) ∧
      (n.testBit 7 = false →
        (det = true → g.tags.getLsbD tag = false → Goes (.tstat o) s (trapped s o.w len false (detRead d.cur.lanes false o.d.toNat 4))) ∧
        ((det = false ∨ g.tags.getLsbD tag = true) →
          Goes (.tstat o) s (put (tget g.status tag (statusEntry tag 0 0 0 0)).toNat 4)))

/-- R184, R258, R260, R263, R265, R266: an idle engine with a command of an enabled context starts the first one: it takes its destination
lines and its end becomes due; an engine that runs, or has none, starts nothing. The end of a command makes its writes, delivers its
status entry and sets its tag's bit, or leaves a record, makes the tag free, and starts the next command. A command of a context that is
not enabled neither starts nor ends. That reads and writes are made at the completion, after a free number of cycles, is the model's
choice (notes/assumptions/23), and so is when such a command goes on (23). -/
def Obligations.EngineSteps : Prop :=
  ∀ (e : Nat) (s : State),
    let m := s.mgmt
    let d := s.dev
    let x := engine d e
    (x.running = true ∨ x.queue = [] → Goes (.engineStart e) s d) ∧
    (x.running = false ∨ x.queue = [] → Goes (.engineComplete e) s d ∧ Goes (.engineStop e) s d) ∧
    (∀ (c : Cmd) (rest : List Cmd), x.queue = c :: rest → ctxEnabled m c.ctx = false →
      Goes (.engineStart e) s d ∧ Goes (.engineComplete e) s d ∧ Goes (.engineStop e) s d) ∧
    (∀ (c : Cmd) (rest : List Cmd) (r : ERun) (d1 : Dev), x.running = false → x.queue = c :: rest → ctxEnabled m c.ctx = true →
      runCmd m d c = .ok r →
      ((writtenLines r).foldlM (fun d l => engTake m c.ctx d l) d : MemM Dev) = .ok d1 →
      let stop : Bool := match runEnd r with | .record _ _ => true | _ => false
      let d2 := setEngine d1 e { x with
        running := true
        owned := takenLines r }
      let ev : Instr := if stop then .engineStop e else .engineComplete e
      (cmdBad (groupOf d c.gid) c = true → Goes (.engineStart e) s (post d2 ev)) ∧
      (cmdBad (groupOf d c.gid) c = false → ∃ n, Goes (.engineStart e) s (postAfter d2 (.die (groupOf d c.gid).die) n ev))) ∧
    (∀ i, (i = Instr.engineComplete e ∨ i = Instr.engineStop e) → Goes i s (endCommand m d e i)) ∧
    (∀ (c : Cmd) (code detail cause : Nat) (addr : DWord) (d1 : Dev), (group? d1 c.gid).isSome = true →
      (code ≠ 2 ∨ c.block.getLsbD 41 = false) →
      let t := tagEnd m d1 c (.status code detail addr cause)
      t.mem = d1.mem ∧ t.records = d1.records ∧
      (groupOf t c.gid).tags = (groupOf d1 c.gid).tags ||| bit64 c.tag ∧
      (groupOf t c.gid).busy = (groupOf d1 c.gid).busy &&& ~~~(bit64 c.tag) ∧
      tget? (groupOf t c.gid).status c.tag = some (statusEntry c.tag code detail addr cause)) ∧
    ∀ (c : Cmd) (cause : Cause) (addr : DWord) (d1 : Dev), (group? d1 c.gid).isSome = true →
      let t := tagEnd m d1 c (.record cause addr)
      t.mem = d1.mem ∧ (groupOf t c.gid).tags = (groupOf d1 c.gid).tags ∧
      (groupOf t c.gid).busy = (groupOf d1 c.gid).busy &&& ~~~(bit64 c.tag) ∧
      ∃ r : Rec, t.records = d1.records ++ [r] ∧ r.cause = cause ∧ r.addr = addr ∧ r.pc = c.pc ∧ r.eng = true

/-- R105, R151, R152, R460: EXIT ends the threads of its bundle alone, drops what is pending for them, and completes once what it lets
complete (barriers, a reorder point) has its data; where no barrier waits and no reorder point completes, all that follows is that a skein
without threads retires and the group may. REORDER makes the bundle's threads wait with their keys, and the last ones to come
complete the point; its order is that of the three keys. -/
def Obligations.ExitAndReorder : Prop :=
  (∀ (o : Ln) (s : State), Issuing s → UniClear s 7 false [] →
    let m := s.mgmt
    let d := s.dev
    let u := d.cur.skein
    let on := moved s o.w 4 false
    let gone := endThreads on u d.cur.lanes
    (∀ d1, afterExit m gone u = .ok d1 → Goes (.exit o) s d1) ∧
    (∀ l, l < 32 → threadOf (skeinOf gone u) l =
      (if d.cur.lanes.getLsbD l then { threadOf (skeinOf on u) l with
        st := .exited
        region := none } else threadOf (skeinOf on u) l)) ∧
    (∀ p ∈ (skeinOf gone u).pend, ∀ w ∈ p.ws, match w with
      | .v l _ _ => d.cur.lanes.getLsbD l = false
      | .p l _ _ => d.cur.lanes.getLsbD l = false
      | _ => True) ∧
    gone.mem = d.mem ∧ (∀ v, v ≠ u → skein? gone v = skein? d v) ∧
    ((groupOf (retireSkein gone u) (curSkein d).gid).bars = [] → reorderReady (retireSkein gone u) (curSkein d).gid = false →
      Goes (.exit o) s (tryRetire (retireSkein gone u) (curSkein d).gid))) ∧
  (∀ (o : Lr) (s : State), Issuing s → LaneClear s (lrXm o 1).p (lrXm o 1).n [.v o.a 1] →
    let m := s.mgmt
    let d := s.dev
    let len := lenOf o.xm
    let gid := (curSkein d).gid
    let waits := modSkein (moved s o.w len false) d.cur.skein fun k => modThreads k (lanesOf d.cur.lanes) fun l t => { t with
      pc := d.cur.pc
      st := .reorder (laneReader d l o.a.toNat) (nextPc d len) }
    let g := groupOf waits gid
    (reorderReady waits gid = false → Goes (.reorder o) s waits) ∧
    ∀ (l : Leaf) (pa x lat : Nat) (d1 : Dev), reorderReady waits gid = true →
      checkPtr m waits g.ctx (spindleNo g) g.gublock 64 4 false = .ok l pa →
      loadSpan m waits g.ctx (spindleNo g) g.gublock 64 0 61 = .ok (x, d1, lat) →
      Goes (.reorder o) s (reorderDone m d1 gid (some (BitVec.ofNat 512 x)))) ∧
  ∀ (d : Dev) (gid : Nat), ∃ ws : List Waiter105, ws.Perm (reorderWaiters d gid) ∧
    ws.Pairwise (fun a b => a.pc.toNat < b.pc.toNat ∨ (a.pc = b.pc ∧ (a.key.toNat < b.key.toNat ∨
      (a.key = b.key ∧ a.t.wid.toNat ≤ b.t.wid.toNat)))) ∧
    reordered d gid = (ws.map fun w => { w.t with
      pc := w.next
      st := .ready
      region := none }) ++ exitedThreads d gid

/-- R90, R96, R98: a result is written as a whole in its destinations, and nothing else of the skein's registers changes; afterwards it is
no longer in flight, and no result of an earlier instruction to one of its destinations is. A skein whose rotation count is 64 has
its turn marked. Nothing else of the machine changes. -/
def Obligations.ResultsAndRotation : Prop :=
  ∀ (u n : Nat) (s : State) (k : Skein), skein? s.dev u = some k →
    let done (i : Instr) (k1 : Skein) : Prop := ∃ t, exec i s = .next t ∧ t.mgmt = s.mgmt ∧
      t.dev = { s.dev with skeins := t.dev.skeins } ∧ skein? t.dev u = some k1 ∧ ∀ v, v ≠ u → skein? t.dev v = skein? s.dev v
    ((∀ p ∈ k.pend, p.id ≠ n) → done (.resultWriteback u n) k) ∧
    (∀ p, k.pend.find? (fun p => p.id == n) = some p → ∃ k1, done (.resultWriteback u n) k1 ∧
      k1 = { p.ws.foldl applyWrite k with pend := k1.pend } ∧
      (∀ q ∈ k1.pend, q.id ≠ n ∧ q.ws ≠ [] ∧ ∃ q0 ∈ k.pend, q0.id = q.id ∧ q0.due = q.due ∧ ∀ w ∈ q.ws, w ∈ q0.ws) ∧
      (∀ q ∈ k1.pend, q.id < n → ∀ w ∈ q.ws, ∀ v ∈ p.ws, sameDest w v = false) ∧
      ∀ q ∈ k.pend, q.ws ≠ [] → n < q.id → q ∈ k1.pend) ∧
    (k.rot = 64 → done (.issueRotation u) { k with rot := 65 }) ∧
    (k.rot ≠ 64 → done (.issueRotation u) k) ∧
    (∀ (l r : Nat) (x : Word), l < 32 → r < 120 → ∀ i j, i < 32 → j < 120 →
      regV (applyWrite k (.v l r x)) i j = if i = l ∧ j = r then x else regV k i j) ∧
    ∀ (r : Nat) (x : Word), r < 120 → ∀ j, j < 120 → regS (applyWrite k (.s r x)) j = if j = r then x else regS k j

/-- R36, R37, R53: no packet of a queue that is stopped, empty, or stands at a registered WAIT takes effect, nor one with SERIAL
before the queue's launches have retired. NOP moves HEAD on; LAUNCH reads the header and 64 bytes of arguments and adds the launch
under the most urgent class its header, its queue and its context allow; WAIT goes on at a word that has reached the value and else
registers with its line; what is malformed is passed over with a record.
R27, R30, R31, R181: a run begins only for a pending request of a reel without a run in progress, of its pending requests the one seen
first; of a reel above 63, or with no reel table, it is rejected with a record at the trigger value; else its nodes and patches are read,
the patches written, DONE of every node made 0, and every node's launch accepted. The model's choices in it: that an unreadable header is
passed over with a record (notes/assumptions/33), the record of a reel above 63 and its address (60), and that SERIAL is looked at before
a malformed packet is (88). -/
def Obligations.Packets : Prop :=
  (∀ (ctx n : Nat) (s : State),
     let m := s.mgmt
     let d := s.dev
     let q := subq d ctx n
     let src : Source := .queue ctx n
     let ops : List Instr := [.packetNop ctx n, .packetLaunch ctx n, .packetWait ctx n]
     let next (i : Instr) (d1 : Dev) : Prop := Goes i s (nextPacket m d1 ctx n)
     (∀ i ∈ ops, queueGoes d ctx n = false → Goes i s d) ∧
     (∀ i ∈ ops, ∀ x, queueGoes d ctx n = true → headPacket m d ctx n = .ok x → pkSerial x = true → launchesOf d src ≠ [] → Goes i s d) ∧
     (∀ i ∈ ops, ∀ e, queueGoes d ctx n = true → headPacket m d ctx n = .bad e → Goes i s (stopQueue m d ctx n e (headEntry q))) ∧
     (∀ x, queueGoes d ctx n = true → headPacket m d ctx n = .ok x → (pkSerial x = true → launchesOf d src = []) →
       (pkBad x = false → pkKind x = 0 → next (.packetNop ctx n) d) ∧
       (pkBad x = true → (pkKind x ≠ 1 ∧ pkKind x ≠ 2 → Goes (.packetNop ctx n) s (skipPacket m d ctx n)) ∧
         (pkKind x = 1 → Goes (.packetLaunch ctx n) s (skipPacket m d ctx n)) ∧
         (pkKind x = 2 → Goes (.packetWait ctx n) s (skipPacket m d ctx n))) ∧
       (pkBad x = false → pkKind x = 1 →
         let p := pkHeader x
         (∀ e, distRead m d ctx p 128 64 = .bad e → next (.packetLaunch ctx n) (distRecord m d ctx e p p)) ∧
         ∀ y d1, distRead m d ctx p 128 64 = .ok (y, d1) →
           let h := BitVec.ofNat 1024 y
           (∀ o, headerFault (isDet m ctx) h = some o →
             next (.packetLaunch ctx n) (takeLaunchFault m d1 ctx .illegal 0 (p + BitVec.ofNat 64 o) p (hLabel h))) ∧
           ∀ a d2, headerFault (isDet m ctx) h = none → distRead m d1 ctx (hArgs h) 64 64 = .ok (a, d2) →
             let r := addLaunch d2 ctx (.queue n) h p (BitVec.ofNat 512 a) (max (hClass h) (max (subq d ctx n).qclass (ctxClass m ctx)))
             (hasSlot r.2 src = true → next (.packetLaunch ctx n) (retrySlots (post r.2 (.plyDispatch r.1)))) ∧
             (hasSlot r.2 src = false → next (.packetLaunch ctx n) (retrySlots (seekSlot r.2 src)))) ∧
       (pkBad x = false → pkKind x = 2 →
         let p := pkWaddr x
         ∀ y d1, distRead m (dropWaiter d (.packet ctx n)) ctx p 8 8 = .ok (y, d1) →
           (pkValue x ≤ y → next (.packetWait ctx n) d1) ∧
           (y < pkValue x → Goes (.packetWait ctx n) s (seekSlot (setSubq (waitAt m d1 ctx p (.packet ctx n)) ctx n { subq d1 ctx n with
             waiting := true }) src)))) ∧
     (q.waiting = false → Goes (.waitPacketWake ctx n) s d) ∧
     (∀ x y d1, q.waiting = true → q.en = true → headPacket m d ctx n = .ok x → pkBad x = false → pkKind x = 2 →
       distRead m (dropWaiter d (.packet ctx n)) ctx (pkWaddr x) 8 8 = .ok (y, d1) → pkValue x ≤ y →
       next (.waitPacketWake ctx n) d1) ∧
     ∀ x, nextPacket m x ctx n = pumpQueue m (releaseIdle m (setSubq x ctx n { subq x ctx n with
       head := (subq x ctx n).head + 1
       waiting := false }) src) ctx n) ∧
  (∀ (ctx n : Nat) (s : State),
     let m := s.mgmt
     let d := s.dev
     let i : Instr := .reelRunBegin ctx n
     let pend := (tget? d.trigs (16 * ctx + n)).bind fun t => t.pending
     let d0 := clearTrig d ctx n
     (pend = none → Goes i s d) ∧
     ∀ v, pend = some v →
       let reel := tgReel v
       let turn := runsNext d ctx n reel
       ((∃ r ∈ d.runs, r.ctx = ctx ∧ r.reel = reel) → Goes i s d) ∧
       (∀ k t v1, k < 16 → k ≠ n → (16 * ctx + k, t) ∈ d.trigs → t.pending = some v1 → tgReel v1 = reel →
         (∀ t1, (16 * ctx + n, t1) ∈ d.trigs → t.seen < t1.seen) → Goes i s d) ∧
       (turn = true → (64 ≤ reel ∨ (ctxOf m ctx).reeltab = 0) →
         Goes i s (nextRuns (releaseIdle m (takeDeviceFault m d0 ctx .illegal 0 v 0) (.trig ctx n)) ctx)) ∧
       ∀ nodes ps d1, turn = true → reel < 64 → (ctxOf m ctx).reeltab ≠ 0 → readNodes m d0 ctx v = .ok nodes →
         readPatches m d0 ctx v nodes = .ok ps → beginRun m d0 ctx n v nodes ps = .ok d1 →
         (d1.runs.any fun r => r.ctx == ctx && r.reel == reel && r.nodes.isEmpty) = false →
         (hasSlot d1 (.trig ctx n) = true → Goes i s (retrySlots (offerLaunches d1 (.trig ctx n)))) ∧
         (hasSlot d1 (.trig ctx n) = false → Goes i s (retrySlots (seekSlot d1 (.trig ctx n)))))

/-- R22, R29, R38, R41 to R46, R50, R470: of the sources that wait the first takes the lowest free slot, or one of a greater class; a quantum
that expires passes its slot to a waiting source of no greater class or begins anew; a ply is placed whole on the first die in turn that
holds it, and the launch goes on behind it, when no group of its source waits to come first; else groups are pre-empted where that makes
it fit and all their saves find room; a saved group is placed again on its die; a spool record's group starts on a spindle that holds its
context, and the queue pops, after the queues before it. What has nothing to do changes nothing. The model's choices in it: on which die
victims are taken and that a less urgent group yields (notes/assumptions/21), when a pass that pre-empts is put off and that the victims
of a placement go together (22), and which die pops a record (47). -/
def Obligations.Placement : Prop :=
  ∀ (s : State),
    let m := s.mgmt
    let d := s.dev
    (∀ src : Source,
      let d1 := awaitSlot d src
      let free := (List.range 128).find? fun i => (tget? d1.slots i).isNone
      (hasWork d src = false ∨ hasSlot d src = true → Goes (.slotGrant src) s d) ∧
      ∀ w, hasWork d src = true → hasSlot d src = false → bestWaiting m d1 3 = some w →
        let given (d2 : Dev) : Prop := Goes (.slotGrant src) s (if w = src then d2 else postNew d2 (.slotGrant src))
        (∀ i, free = some i → given (mapSlot m d1 i w)) ∧
        (∀ i x, free = none → slotVictim m d1 (sourceCls m d1 w) = some (i, x) → canPass d1 x.src = true →
          given (passSlot m d1 i x.src w)) ∧
        (free = none → (∀ i x, slotVictim m d1 (sourceCls m d1 w) = some (i, x) → canPass d1 x.src = false) →
          Goes (.slotGrant src) s d1)) ∧
    (∀ slot, (tget? d.slots slot = none → Goes (.quantumExpiry slot) s d) ∧
      ∀ x, tget? d.slots slot = some x →
        (∀ w, bestWaiting m d (sourceCls m d x.src) = some w → Goes (.quantumExpiry slot) s
          (if canPass d x.src then passSlot m d slot x.src w else postAfter d .distaff 1 (.quantumExpiry slot))) ∧
        (bestWaiting m d (sourceCls m d x.src) = none → Goes (.quantumExpiry slot) s
          (postAfter d .distaff (2 ^ bitsOf (ctxOf m (sourceCtx x.src)).quantum 0 6) (.quantumExpiry slot)))) ∧
    (∀ id, (launch? d id = none → Goes (.plyDispatch id) s d) ∧
      ∀ l, launch? d id = some l →
        let may := mayStart d l && (goBefore d l).isEmpty && (nextPly l).all (mayPlace d l)
        (nextPly l = [] ∨ may = false → Goes (.plyDispatch id) s d) ∧
        (∀ die d1, nextPly l ≠ [] → may = true → firstDie m d l (offerOrder l) = .ok (some (die, d1)) →
          let d2 := modLaunch d1 id fun l => { l with
            next := l.next + (nextPly l).length
            lastDie := some die }
          Goes (.plyDispatch id) s (if l.next + (nextPly l).length < hNGroups l.header then post d2 (.plyDispatch id) else d2)) ∧
        (nextPly l ≠ [] → may = true → firstDie m d l (offerOrder l) = .ok none →
          let ways (die : Nat) : Option (List Nat) := plyVictims m (afterSaves d) l die (launchCls m d l) (nextPly l)
          ((∃ die ∈ offerOrder l, ways die = some []) → Goes (.plyDispatch id) s d) ∧
          (∀ vs, (∀ die ∈ offerOrder l, ways die ≠ some []) → (offerOrder l).findSome? ways = some vs →
            Goes (.plyDispatch id) s (if savesFit d vs then vs.foldl preemptGroup d else d)) ∧
          ((∀ die ∈ offerOrder l, ways die = none) → Goes (.plyDispatch id) s d))) ∧
    (∀ gid,
      let mine (g : Machine.Group) : Bool := g.gid == gid && !yields m d g.die (groupCls m d g)
      ((savedGroups d).find? mine = none → Goes (.groupReplace gid) s d) ∧
      ∀ g, (savedGroups d).find? mine = some g →
        (findSpindle m d g.die (againDemand d g) = none →
          (∀ d1, makeWay m d [g.die] (groupCls m d g) (againDemand d g) = some d1 → Goes (.groupReplace gid) s d1) ∧
          (makeWay m d [g.die] (groupCls m d g) (againDemand d g) = none → Goes (.groupReplace gid) s d)) ∧
        ∀ sp d1 d2, findSpindle m d g.die (againDemand d g) = some sp → acquireAt m d g.ctx (48 * g.die + sp) 4 = .ok d1 →
          placedAgain m d1 g sp = .ok d2 → Goes (.groupReplace gid) s d2) ∧
    ∀ die ctx prio,
      let q := spoolOf d ctx prio
      let p := spoolEntry m ctx prio q.pop
      (q.push ≤ q.pop → Goes (.spoolPop die ctx prio) s d) ∧
      (∀ y, q.pop < q.push → spoolBefore m d ctx die (List.range prio) = .ok (some y) →
        Goes (.spoolPop die ctx prio) s (postAll d [.spoolPop y.2 ctx y.1, .spoolPop die ctx prio])) ∧
      ∀ x d1, q.pop < q.push → spoolBefore m d ctx die (List.range prio) = .ok none → distRead m d ctx p 32 32 = .ok (x, d1) →
        let after (d : Dev) : Dev :=
          let q := spoolOf d ctx prio
          let d1 := wakeQueues (setSpool d ctx prio { q with pop := q.pop + 1 })
          if q.pop + 1 < q.push then announceSpool d1 ctx prio else d1
        (spoolBad x = true → Goes (.spoolPop die ctx prio) s (after (takeDeviceFault m d1 ctx .illegal 0 p p))) ∧
        ∀ sp d2, spoolBad x = false →
          ((searchOrder d die).filter fun sp => (groupsOn d (48 * die + sp)).any fun g => g.ctx == ctx).find?
            (fun sp => fitsOn m d die sp (startDemand ctx (spoolHeader (spVregs x) (spSregs x) (spCode x)))) = some sp →
          startSpool m d1 ctx die sp (max prio (ctxClass m ctx)) (.spool p (spJoin x) prio) x p (spFrame x) = .ok d2 →
          Goes (.spoolPop die ctx prio) s (after d2)

/-- R452 to R454, R460: a skein being pre-empted waits until its fences and surface writes have drained, and is then no longer resident
nor running ahead, its results written or dropped; a group is saved once all its skeins are and its commands have ended, with every
pin released and every locked line out of its L1, after a release at device scope, which follows from R300 and R301 and is the model's
reading of them (notes/assumptions/99); it retires once all its threads have exited, by the steps of R460, and with a killed one only
leaves. -/
def Obligations.SavingAndRetiring : Prop :=
  ∀ (s : State),
    let m := s.mgmt
    let d := s.dev
    (∀ u,
      let k := skeinOf d u
      (k.preempt = false ∨ k.resident = false → Goes (.preemptComplete u) s d) ∧
      (k.preempt = true → k.resident = true → drains k = true →
        Goes (.preemptComplete u) s (postAfter d (.die (groupOf d k.gid).die) 1 (.preemptComplete u))) ∧
      ∀ d1, k.preempt = true → k.resident = true → drains k = false → dropLocked m (givenUp d u) u = .ok d1 →
        Goes (.preemptComplete u) s (putAway m d1 u)) ∧
    (∀ (k : Skein) (n : Nat),
      let t := savedSkein d k n
      t.resident = false ∧ t.preempt = false ∧ t.pend = [] ∧ t.runAhead = [] ∧ t.uid = k.uid ∧ t.gid = k.gid ∧ t.locks = k.locks ∧
      ∀ l, l < 32 → (restarts k l = false → (threadOf t l).pc = (threadOf k l).pc) ∧
        ∀ r, restarts k l = true → (threadOf k l).region = some r → (threadOf t l).pc = r.entry) ∧
    (∀ gid, (group? d gid = none → Goes (.groupSave gid) s d ∧ Goes (.groupRetire gid) s d) ∧
      ∀ g, group? d gid = some g →
        (g.saveReq = false ∨ g.resident = false ∨ hasCommands d gid = true ∨ (∃ k ∈ skeinsOf d gid, k.resident = true) →
          Goes (.groupSave gid) s d) ∧
        (∀ d0 d1, g.saveReq = true → g.resident = true → hasCommands d gid = false → (∀ k ∈ skeinsOf d gid, k.resident = false) →
          giveUpLines m d gid = .ok d0 → releaseAt m d0 g.ctx (spindleNo g) 4 = .ok d1 →
          Goes (.groupSave gid) s (retryDispatch m (modGroup (writeArea d1 g.saveAt (groupArea g)) gid fun g => { g with
            resident := false
            saveReq := false }))) ∧
        ((∃ k ∈ skeinsOf d gid, allExited k = false) ∨ hasCommands d gid = true → Goes (.groupRetire gid) s d) ∧
        ∀ d1, (∀ k ∈ skeinsOf d gid, allExited k = true) → hasCommands d gid = false → retireGroup m d g = .ok d1 →
          Goes (.groupRetire gid) s d1) ∧
    ∀ (g : Group) (d1 d2 d3 d4 : Dev), g.killed = false → isDet m g.ctx = false → releaseAt m d g.ctx (spindleNo g) 4 = .ok d1 →
      eventWord m d1 g = .ok d2 → countRetired m d2 g = .ok d3 →
      (skeinsOf d3 g.gid).foldlM (fun d k => needOnly d (unlockAll m d k.uid)) d3 = .ok d4 →
      retireGroup m d g = afterGroup m (reportRetired m (removeGroup d4 g.gid) g) g

/-- R197, R204, R205, R211, R217, R218, R300: a fence that has drained makes its skein go on after its release and its acquire; a
write-back merges the dirty words of a copy; an invalidation of an L1 without the line is acknowledged by the directory, one of a
remote-origin copy does nothing; an eviction notice makes an L1 without a counted copy absent; an uncorrectable error
makes a device line POISON and changes no byte, and of a host line poisons the halves that its slice holds, which is the model's reading
(notes/assumptions/98). -/
def Obligations.CacheSteps : Prop :=
  ∀ (s : State),
    let m := s.mgmt
    let d := s.dev
    (∀ (u kind sc : Nat) (d1 d2 : Dev), (skeinOf d u).park = some (.fence kind sc) →
      let ctx := ctxOfSkein d u
      let sp := spOfSkein d u
      (if kind ≥ 2 then releaseAt m d ctx sp sc else .ok d) = .ok d1 →
      (if kind % 2 = 1 then acquireAt m d1 ctx sp sc else .ok d1) = .ok d2 →
      Goes (.fenceComplete u) s (unpark d2 u)) ∧
    (∀ sp line, l1Phys d sp line = none →
      Goes (.writebackMerge sp line) s d ∧ Goes (.invalidation sp line) s (dirDel d sp line) ∧
      Goes (.evictionNotice sp line) s (dirDel d sp line)) ∧
    (∀ sp line l, l1Phys d sp line = some l →
      (l.dirty = 0 → Goes (.writebackMerge sp line) s d) ∧
      (∀ d1, writeBackLine m d (ctxOfCopy m d sp line) sp line = .ok d1 → Goes (.writebackMerge sp line) s d1) ∧
      (l.home = false → Goes (.invalidation sp line) s d ∧ Goes (.evictionNotice sp line) s (dirDel d sp line)) ∧
      (∀ d1, l.home = true → invalidateCopy m (ctxOfCopy m d sp line) d sp line = .ok d1 → Goes (.invalidation sp line) s d1) ∧
      (l.home = true → l.queued = false → Goes (.evictionNotice sp line) s d)) ∧
    ∀ line, (isDevice (128 * line) = false → Goes (.uncorrectableError line) s (wakeLine { d with
        halves := d.halves.map fun e => if e.1 / 2 == line && e.2.st != .i then (e.1, { e.2 with poison := true }) else e } line)) ∧
      (isDevice (128 * line) = true → ∃ t, exec (.uncorrectableError line) s = .next t ∧ t.mgmt = m ∧ t.dev.mem = d.mem ∧
        badForm (formOf t.dev line) = true ∧ (∀ x, x ≠ line → formOf t.dev x = formOf d x) ∧
        t.dev.skeins = d.skeins ∧ t.dev.l1 = d.l1)

/-- R316, R319, R320, R322, R323, R325, R326: a snoop of a half that no engine and no lock holds is answered once the L1 copies of its
line are invalidated: the data of a modified half is sent, and the half's state is that of R320. A host read answers the bytes of a
device half and sets its host state; a host write replaces them; before full function a read is answered with poison, a write dropped,
and LINKERR counts both. A grant that was not asked for, and an answer without a snoop, change nothing. A peer's read, write and atomic
act on memory at system level. The waiters of a line look at it after a SnpInv has been answered (R364). The model's choices in it: what
an absent line is answered and that a write to it is dropped (notes/assumptions/66), that a grant may replace another half (15), and that
a snoop waits for an engine or a lock (65). -/
def Obligations.HostAndPeers : Prop :=
  ∀ (s : State),
    let m := s.mgmt
    let d := s.dev
    (∀ (half : Nat) (d1 : Dev), engineOwns d (half / 2) = false → lockHolds d (half / 2) = false →
      invalidateOthers m 0 d none (half / 2) = .ok d1 →
      (tget? d1.halves half = none → Goes (.snpdata half) s d1 ∧ Goes (.snpcur half) s d1) ∧
      ∀ h, tget? d1.halves half = some h →
        let sent := answer d1 (if h.poison then [] else natBytes h.data.toNat 64)
        let shared (x : Dev) : Dev := { x with halves := tset x.halves half { h with st := .s } }
        (h.st = .m → Goes (.snpdata half) s (shared sent) ∧ Goes (.snpcur half) s sent) ∧
        (h.st = .e → Goes (.snpdata half) s (shared d1) ∧ Goes (.snpcur half) s sent) ∧
        (h.st = .s → Goes (.snpdata half) s d1 ∧ Goes (.snpcur half) s sent)) ∧
    (∀ (half : Nat) (d1 : Dev), engineOwns d (half / 2) = false → lockHolds d (half / 2) = false →
      invalidateOthers m 0 d none (half / 2) = .ok d1 →
      (tget? d1.halves half = none → Goes (.snpinv half) s (wakeLine d1 (half / 2))) ∧
      ∀ h, tget? d1.halves half = some h →
        let gone (x : Dev) : Dev := wakeLine { x with halves := tdel x.halves half } (half / 2)
        (h.st = .m → Goes (.snpinv half) s (gone (answer d1 (if h.poison then [] else natBytes h.data.toNat 64)))) ∧
        (h.st ≠ .m → Goes (.snpinv half) s (gone d1))) ∧
    (∀ (half : Nat) (data : BitVec 512) (keep : HostKeep),
      let line := half / 2
      let kept (d : Dev) : Dev := match keep with
        | .none => { d with hostState := tdel d.hostState half }
        | .shared => { d with hostState := tset d.hostState half .s }
        | .owned => { d with hostState := tset d.hostState half .a }
      (d.stage ≠ 2 → Goes (.hostMemRead half keep) s (answer { d with linkErr := d.linkErr + 1 } []) ∧
        Goes (.hostMemWrite half data keep) s { d with linkErr := d.linkErr + 1 }) ∧
      (d.stage = 2 → present d line = false →
        Goes (.hostMemRead half keep) s (answer d []) ∧ Goes (.hostMemWrite half data keep) s d) ∧
      (∀ d1, d.stage = 2 → present d line = true → engineOwns d line = false →
        (if keep = .owned then invalidateOthers m 0 (wakeSlice d line) none line
          else recallOwner m 0 (wakeSlice d line) none line) = .ok d1 →
        Goes (.hostMemRead half keep) s (answer (kept d1) (if badForm (formOf (kept d1) line) then []
          else natBytes (halfData (memLine (kept d1) line) (half % 2 == 1)).toNat 64))) ∧
      ∀ d1, d.stage = 2 → present d line = true →
        writeSlice m 0 (wakeSlice { d with hostState := tdel d.hostState half } line) none line (byteMask (64 * (half % 2)) 64)
          (putHalf 0 (half % 2 == 1) data) false = .ok d1 →
        Goes (.hostMemWrite half data keep) s (kept d1)) ∧
    (∀ (half : Nat) (req : HostReq) (excl : Bool) (data : BitVec 512),
      let i : Instr := .hostLineGrant half req excl data
      ((half, req) ∉ d.hostReqs → Goes i s d) ∧
      ((half, req) ∈ d.hostReqs →
        let old : Half := (tget? d.halves half).getD { st := .i, data := 0, poison := false, curr := none }
        ∃ t, exec i s = .next t ∧ t.mgmt = m ∧ t.dev.mem = d.mem ∧ (half, req) ∉ t.dev.hostReqs ∧
          (∀ x, x ≠ half → tget? t.dev.halves x = tget? d.halves x ∨ (req ≠ .rdCurr ∧ tget? t.dev.halves x = none)) ∧
          (old.st = .e ∨ old.st = .m → tget? t.dev.halves half = some old) ∧
          (old.st ≠ .e → old.st ≠ .m → req = .rdShared → tget? t.dev.halves half = some
            { st := if excl then .e else .s, data := data, poison := false, curr := none }) ∧
          (old.st ≠ .e → old.st ≠ .m → req = .rdOwn → tget? t.dev.halves half = some
            { st := .e, data := data, poison := false, curr := none }) ∧
          (req = .rdCurr → tget? t.dev.halves half = some
            (if old.st = .i then { old with curr := some data } else old)))) ∧
    (∀ (half : Nat) (data : BitVec 512),
      let i : Instr := .bisnpResponse half data
      ((∀ q ∈ d.snoops, q.1 ≠ half) → Goes i s d) ∧
      ∀ q inv, d.snoops.find? (fun q => q.1 == half) = some (q, inv) →
        let d0 := { d with snoops := d.snoops.filter fun q => q.1 != half }
        let d1 := if tget? d.hostState half = some .a then takeHostData m d0 half data else d0
        Goes i s (resumeHalf { d1 with
          hostState := if inv then tdel d1.hostState half else tset d1.hostState half .s } half)) ∧
    ∀ (pa n : Nat) (bytes : List Byte) (op : PeerOp) (wide : Bool) (x y : DWord),
      let size := if wide then 8 else 4
      (peerMay d pa bytes.length = false → Goes (.peerMemWrite pa bytes) s d) ∧
      (∀ d1, peerMay d pa bytes.length = true → peerWrite m d pa bytes = .ok d1 → Goes (.peerMemWrite pa bytes) s d1) ∧
      (peerMay d pa n = false → Goes (.peerMemRead pa n) s (answer d [])) ∧
      (∀ o d1, peerMay d pa n = true → peerRead m d pa n = .ok (o, d1) → Goes (.peerMemRead pa n) s (answer d1 o)) ∧
      (peerMay d pa size = false ∨ pa % size ≠ 0 → Goes (.peerAtomicIn op wide pa x y) s (answer d [])) ∧
      ∀ o d1 d2, peerMay d pa size = true → pa % size = 0 → peerRead m d pa size = .ok (o, d1) →
        let a := x.toNat % 2 ^ (8 * size)
        peerWrite m d1 pa (natBytes (match op with
          | .fetchAdd => bytesNat o + a
          | .swap => a
          | .cas => if bytesNat o = a then y.toNat % 2 ^ (8 * size) else bytesNat o) size) = .ok d2 →
        Goes (.peerAtomicIn op wide pa x y) s (answer d2 o)

/-- R13, R316, R318, R325, R360, R364, R469, R475: a port that goes down is down with lane rate 0, modified halves of it are POISON, and a
HOST port still up hears of it; without one the host holds no half any more. A spindle without work is flushed and gated; a slice that
holds no modified and no pinned half wakes the waiters of its halves, gives each up with a CleanEvict and is gated; what is gated, has
work or holds such a half is not. A clock step of at most 8 is taken, one below 8 ends a thermal hold, a greater one changes nothing; a
thermal hold takes step 8 and an interrupt. The model's choices in it: what a port that goes down leaves (notes/assumptions/67), how a
spindle and a slice are gated (68), and which requests of power and clock units do nothing (79). -/
def Obligations.LinksPowerAndClocks : Prop :=
  ∀ (s : State),
    let m := s.mgmt
    let d := s.dev
    (∀ port, d.portUp.getLsbD port = false → Goes (.linkDown port) s d) ∧
    (∀ port, d.portUp.getLsbD port = true →
      let up := d.portUp &&& ~~~(BitVec.ofNat 4 (2 ^ port))
      let lost (e : Nat × Half) : Bool := linkOf d (64 * e.1) == port && e.2.st == .m
      ∃ t, exec (.linkDown port) s = .next t ∧ t.mgmt = m ∧ t.dev.mem = d.mem ∧ t.dev.portUp = up ∧
        t.dev.halves = d.halves.map (fun e => if lost e then (e.1, { e.2 with poison := true }) else e) ∧
        t.dev.irqs = d.irqs ++ (if up &&& ~~~d.portPeer = 0 then [] else [1154 + port]) ∧
        t.dev.hostReqs = d.hostReqs.filter (fun q => linkOf d (64 * q.1) != port) ∧
        t.dev.laneRates = d.laneRates.setIfInBounds port 0 ∧
        (up &&& ~~~d.portPeer = 0 → t.dev.hostState = [] ∧ t.dev.snoops = [])) ∧
    (∀ n, (groupsOn d n ≠ [] ∨ n ∈ d.gatedSpindles → Goes (.powerGate (.spindle n)) s d) ∧
      ∀ d1, groupsOn d n = [] → n ∉ d.gatedSpindles → flushSpindle m d n = .ok d1 →
        Goes (.powerGate (.spindle n)) s { d1 with gatedSpindles := d1.gatedSpindles ++ [n] }) ∧
    (∀ die n,
      let mine (h : Nat) : Bool := isHost (64 * h) && (portDie (portOf (64 * h)), sliceOf (64 * h)) == (die, n)
      ((die, n) ∈ d.gatedSlices → Goes (.powerGate (.slice die n)) s d) ∧
      ∀ d1, (die, n) ∉ d.gatedSlices → emptySlice m d die n = .ok d1 →
        ((∃ e ∈ d1.halves, mine e.1 = true ∧ (e.2.st = .m ∨ slicePinned d1 (e.1 / 2) = true)) →
          Goes (.powerGate (.slice die n)) s d1) ∧
        ((∀ e ∈ d1.halves, mine e.1 = true → e.2.st ≠ .m ∧ slicePinned d1 (e.1 / 2) = false) →
          let d2 := (d1.halves.filter fun e => mine e.1).foldl (fun d e => evictHalf (wakeLine d (e.1 / 2)) e.1) d1
          Goes (.powerGate (.slice die n)) s { d2 with gatedSlices := d2.gatedSlices ++ [(die, n)] })) ∧
    (∀ half h, tget? d.halves half = some h → h.st = .e ∨ h.st = .s →
      evictHalf d half = { d with
        halves := tdel d.halves half
        outbox := d.outbox ++ [.cleanEvict half] }) ∧
    (∀ die step, die < 16 →
      (8 < step → Goes (.clockStep die step) s d) ∧
      (step ≤ 8 → ∃ t, exec (.clockStep die step) s = .next t ∧
        t = s.dev' { d with
          clockStep := t.dev.clockStep
          hot := if step < 8 then d.hot &&& ~~~(BitVec.ofNat 16 (2 ^ die)) else d.hot } ∧
        t.dev.clockStep[die]? = some step ∧ ∀ e, e ≠ die → t.dev.clockStep[e]? = d.clockStep[e]?)) ∧
    ∀ die, die < 16 → ∃ t, exec (.thermalHold die) s = .next t ∧ t = s.dev' { d with
        clockStep := t.dev.clockStep
        hot := d.hot ||| BitVec.ofNat 16 (2 ^ die)
        irqs := d.irqs ++ [1153] } ∧ t.dev.clockStep[die]? = some 8 ∧ ∀ e, e ≠ die → t.dev.clockStep[e]? = d.clockStep[e]?

/-- R30, R35, R36, R49, R181, R327 to R329, R465, R475, R476: the doorbells act from full function on, before it each counts one LINKERR;
a queue whose tail is too far ahead stops with a record; LINKERR is cleared by its write; DIECAP takes 16 bits; a register write that a
rule refuses changes LINKERR alone; DETCTL changes only while its context has no work, and a partition only where R49 allows it. A write
of BAR0 or BAR2 at a register is that register's write; one that is no aligned word of 8 bytes is ignored on BAR0 and refused on BAR2.
R191, R192, R210: XINV takes the translations of its range out of the TLBs; HARVEST of its pages copies and clears their written
bits; at the end the command's DONE word takes 1, or 2 for a malformed one, and the next command begins. A context that becomes enabled
lets its work and its engines' commands go on (R184). The model's choices in it: that the tail is checked at QDOOR and QCFG and what
address its record has (notes/assumptions/60), that a misaligned BAR0 access is ignored (62), the destinations of a command (59), and
what PARTn and registers with bits without a meaning take (61). -/
def Obligations.RegisterWrites : Prop :=
  (∀ (s : State),
     let m := s.mgmt
     let d := s.dev
     let refused : Dev := { d with linkErr := d.linkErr + 1 }
     let stopped (x : Dev) (ctx n : Nat) : Dev := takeDeviceFault m (haltQueue m x ctx n) ctx .illegal 0 (BitVec.ofNat 64 (8 * n)) 0
     (∀ ctx n hi v,
       (d.stage ≠ 2 → Goes (.qdoorWrite ctx n v) s refused ∧ Goes (.triggerWrite ctx n v) s refused ∧
         Goes (.qcfgWrite ctx n hi v) s refused) ∧
       (d.stage = 2 →
         let q := subq d ctx n
         let ahead (q : SubQ) : Prop := 2 ^ q.logn < (q.tail - q.head).toNat
         let q1 := { q with tail := v.setWidth 32 }
         let d1 := setSubq d ctx n q1
         (ahead q1 → Goes (.qdoorWrite ctx n v) s (stopped d1 ctx n)) ∧
         (¬ ahead q1 → Goes (.qdoorWrite ctx n v) s (pumpQueue m (seekSlot (releaseIdle m d1 (.queue ctx n)) (.queue ctx n)) ctx n)) ∧
         Goes (.triggerWrite ctx n v) s (nextRuns (seekSlot { d with
           nextId := d.nextId + 1
           trigs := tset d.trigs (16 * ctx + n) { pending := some v, seen := d.nextId } } (.trig ctx n)) ctx) ∧
         (hi = true →
           let k := bitsOf v 0 6
           let q2 := { q with
             logn := k
             qclass := bitsOf v 6 2 }
           let d2 := setSubq d ctx n q2
           (bitsOf v 8 24 ≠ 0 ∨ k < 4 ∨ 16 < k → Goes (.qcfgWrite ctx n hi v) s refused) ∧
           (bitsOf v 8 24 = 0 → 4 ≤ k → k ≤ 16 →
             (q.en = true → ahead q2 → Goes (.qcfgWrite ctx n hi v) s (retryDispatch m (stopped d2 ctx n))) ∧
             (q.en = false ∨ ¬ ahead q2 → Goes (.qcfgWrite ctx n hi v) s (retryDispatch m d2)))) ∧
         (hi = false →
           let set (en : Bool) : Dev := setSubq d ctx n { q with
             base := v &&& ~~~31
             en := en }
           (bitsOf v 1 4 ≠ 0 → Goes (.qcfgWrite ctx n hi v) s refused) ∧
           (bitsOf v 1 4 = 0 → v.getLsbD 0 = false → Goes (.qcfgWrite ctx n hi v) s (haltQueue m (set false) ctx n)) ∧
           (bitsOf v 1 4 = 0 → v.getLsbD 0 = true → ahead q → Goes (.qcfgWrite ctx n hi v) s (stopped (set true) ctx n)) ∧
           (bitsOf v 1 4 = 0 → v.getLsbD 0 = true → ¬ ahead q → Goes (.qcfgWrite ctx n hi v) s
             (pumpQueue m (seekSlot (setSubq (set true) ctx n { subq (set true) ctx n with waiting := false }) (.queue ctx n)) ctx n))))) ∧
     (∀ v, Goes (.linkerrWrite v) s { d with linkErr := 0 }) ∧
     (∀ die v, die < 16 →
       (bitsOf v 16 48 = 0 → Goes (.diecapWrite die v) s { d with diecap := d.diecap.setIfInBounds die v }) ∧
       (bitsOf v 16 48 ≠ 0 → Goes (.diecapWrite die v) s refused)) ∧
     (∀ ctx v, ctx < 64 →
       (bitsOf v 1 63 ≠ 0 → Goes (.detctlWrite ctx v) s refused) ∧
       (v ≠ (ctxOf m ctx).detctl → hasWorkIn d ctx = true → Goes (.detctlWrite ctx v) s refused) ∧
       (bitsOf v 1 63 = 0 → v = (ctxOf m ctx).detctl → Goes (.detctlWrite ctx v) s d) ∧
       (bitsOf v 1 63 = 0 → hasWorkIn d ctx = false → ∃ t, exec (.detctlWrite ctx v) s = .next t ∧ t.dev = d ∧
         ctxOf t.mgmt ctx = { ctxOf m ctx with detctl := v } ∧ ∀ c, c ≠ ctx → ctxOf t.mgmt c = ctxOf m c)) ∧
     (∀ ctx die v, ctx < 64 → die < 16 →
       let m1 := setCtx m ctx { ctxOf m ctx with part := (ctxOf m ctx).part.setIfInBounds die v }
       (partitionBad m1 d ctx die v = true → Goes (.partitionWrite ctx die v) s refused) ∧
       (partitionBad m1 d ctx die v = false → exec (.partitionWrite ctx die v) s =
         .next { mgmt := m1, dev := retryDispatch m1 (evictForbidden m1 d) })) ∧
     (∀ off bytes v, off % 8 ≠ 0 ∨ bytes ≠ 8 → Goes (.registerWrite .bar0 { off := off, bytes := bytes } v) s d) ∧
     (∀ off bytes v, off % 8 ≠ 0 ∨ bytes ≠ 8 ∨ d.stage ≠ 2 → Goes (.registerWrite .bar2 { off := off, bytes := bytes } v) s refused) ∧
     (∀ v, let bar0 (off : Nat) (i : Instr) : Prop := exec (.registerWrite .bar0 { off := off, bytes := 8 } v) s = exec i s
       bar0 0x20 (.linkerrWrite v) ∧ (∀ die, die < 16 → bar0 (0x100 + 8 * die) (.diecapWrite die v)) ∧
       (∀ ctx, ctx < 64 → bar0 (0x10000 + 0x400 * ctx + 0x58) (.detctlWrite ctx v) ∧
         ∀ die, die < 16 → bar0 (0x10000 + 0x400 * ctx + 0x80 + 8 * die) (.partitionWrite ctx die v)) ∧
       (∀ i, i < 0x100 → Goes (.registerWrite .bar0 { off := 0x1800 + 8 * i, bytes := 8 } v) s { d with mbdata := tset d.mbdata i v })) ∧
     (∀ ctx v, ctx < 64 → d.stage = 2 →
       let bar2 (off : Nat) (i : Instr) : Prop := exec (.registerWrite .bar2 { off := 4096 * ctx + off, bytes := 8 } v) s = exec i s
       (∀ n, n < 32 → bar2 (8 * n) (.qdoorWrite ctx n v) ∧ bar2 (0x200 + 16 * n) (.qcfgWrite ctx n false v) ∧
         bar2 (0x208 + 16 * n) (.qcfgWrite ctx n true v)) ∧ (∀ n, n < 16 → bar2 (0x100 + 8 * n) (.triggerWrite ctx n v))) ∧
     ∀ ctx v, ctx < 64 →
       let at_ (o : Nat) : Instr := .registerWrite .bar0 { off := 0x10000 + 0x400 * ctx + o, bytes := 8 } v
       let changed (f : Ctx → Ctx) : State := { s with mgmt := setCtx m ctx (f (ctxOf m ctx)) }
       let put (o : Nat) (f : Ctx → Ctx) : Prop := exec (at_ o) s = .next (changed f)
       let putTry (o : Nat) (f : Ctx → Ctx) : Prop := exec (at_ o) s =
         .next { mgmt := (changed f).mgmt, dev := retryDispatch (changed f).mgmt d }
       let base (c : Ctx) : Ctx := { c with ptbase := v }
       let taken : Bool := v.getLsbD 0 && (List.range 64).any fun c => c != ctx && ctxEnabled m c && ctxAsid m c == bitsOf v 48 16
       let log := bitsOf v 0 5
       let sized : Prop := log = 0 ∨ (6 ≤ log ∧ log ≤ 16)
       put 0x18 (fun c => { c with nlt := c.nlt.extractLsb' 64 64 ++ v }) ∧
       put 0x20 (fun c => { c with nlt := v ++ c.nlt.extractLsb' 0 64 }) ∧
       put 0x28 (fun c => { c with pinquota := v }) ∧ put 0x38 (fun c => { c with sigwin := v }) ∧ put 0x40 (fun c => { c with termt := v }) ∧
       (bitsOf v 41 7 = 0 → bitsOf v 1 11 = 0 → taken = false →
         (v.getLsbD 0 = false → putTry 0x00 base) ∧
         (v.getLsbD 0 = true → exec (at_ 0x00) s =
           .next { mgmt := (changed base).mgmt, dev := retryEngines (retryDispatch (changed base).mgmt d) ctx })) ∧
       (v.toNat < 4 → putTry 0x08 (fun c => { c with ctxclass := v })) ∧
       (16 ≤ v.toNat → v.toNat ≤ 30 → put 0x10 (fun c => { c with quantum := v })) ∧
       (v.toNat < 2 ^ 32 → put 0x30 (fun c => { c with watchdog := v })) ∧
       (sized → bitsOf v 5 5 = 0 → bitsOf v 10 2 ≠ 3 → put 0x48 (fun c => { c with faultq := v })) ∧
       (sized → bitsOf v 5 7 = 0 → put 0x50 (fun c => { c with ring := v })) ∧
       (v.toNat % 2 ^ 22 = 0 → put 0x60 (fun c => { c with reeltab := v })) ∧
       (bitsOf v 41 7 ≠ 0 ∨ bitsOf v 1 11 ≠ 0 ∨ taken = true → Goes (at_ 0x00) s refused) ∧
       (4 ≤ v.toNat → Goes (at_ 0x08) s refused) ∧
       (v.toNat < 16 ∨ 30 < v.toNat → Goes (at_ 0x10) s refused) ∧
       (2 ^ 32 ≤ v.toNat → Goes (at_ 0x30) s refused) ∧
       (¬ sized ∨ bitsOf v 5 5 ≠ 0 ∨ bitsOf v 10 2 = 3 → Goes (at_ 0x48) s refused) ∧
       (¬ sized ∨ bitsOf v 5 7 ≠ 0 → Goes (at_ 0x50) s refused) ∧
       (v.toNat % 2 ^ 22 ≠ 0 → Goes (at_ 0x60) s refused)) ∧
  (∀ (cmd : BitVec 256) (ok : Bool) (s : State),
     let m := s.mgmt
     let d := s.dev
     let asid := ctxAsid m (mmCtx cmd)
     let more (d : Dev) : Dev := match d.mmq.tail with
       | c :: _ => mmBegin { d with mmq := d.mmq.tail } c
       | [] => { d with mmq := d.mmq.tail }
     ((∀ l ∈ d.l1, l.asid ≠ asid) → xinvLines m d cmd = .ok d) ∧
     (∀ d1, xinvLines m d cmd = .ok d1 → Goes (.xinv cmd) s (post (xinvTlbs m d1 cmd) (.mmcmdDone cmd true))) ∧
     (∀ x : Dev, (xinvTlbs m x cmd).tlb = x.tlb.filter (fun t => !(t.asid == asid && mmMeets cmd t.va t.leaf.size)) ∧
       (xinvTlbs m x cmd).mem = x.mem ∧ (xinvTlbs m x cmd).l1 = x.l1) ∧
     (∀ d1, ((List.range (mmCount cmd / 64)).foldlM (harvestGroup m cmd) d : MemM Dev) = .ok d1 →
       Goes (.harvest cmd) s (post d1 (.mmcmdDone cmd true))) ∧
     (∀ i d1, harvestGroup m cmd d i = .ok d1 → ∃ x : Nat,
       (∀ b, b < 64 → x.testBit b = tget d.written (mmAddr cmd / 4096 + 64 * i + b) false) ∧
       physWrite m { d with written := d.written.filter fun e =>
         !(decide (mmAddr cmd / 4096 + 64 * i ≤ e.1) && decide (e.1 < mmAddr cmd / 4096 + 64 * i + 64)) } (mmDest cmd + 8 * i) 8 x = .ok d1) ∧
     (mmDone cmd % 8 ≠ 0 → Goes (.mmcmdDone cmd ok) s (more d)) ∧
     ∀ d1, mmDone cmd % 8 = 0 → physWrite m d (mmDone cmd) 8 (if ok then 1 else 2) = .ok d1 → Goes (.mmcmdDone cmd ok) s (more d1))

/-- R471 to R474: each mailbox command ends with the state, the detail and the output of R472; the completion sets MBSTAT and tells the
host. IMAGE keeps the bytes read from the host for the next start, or fails. STREAMSTART of a stream that runs, or of a die without a
table, is refused; a stream that stops ends once its counts are written, and STREAMSTOP's DETAIL is the number of frames it emitted. The
model's choices in it: what is refused (notes/assumptions/70), and that the bytes an upload reads are a constant without a body (71). -/
def Obligations.Mailbox : Prop :=
  ∀ (cmd : DWord) (s : State),
    let m := s.mgmt
    let d := s.dev
    let k := mbArg cmd
    let body : List Byte := (List.range 4).flatMap (fun i => natBytes (mbWord d i).toNat 8) ++ measure d 0 ++ measure d 1 ++
      measure d 2 ++ natBytes d.startNo 8
    let es : List DWord := (d.startLog.drop k).take 256
    let ends (d : Dev) (st : BitVec 8) (detail outlen : Nat) : Dev := post d (.mailboxComplete st (BitVec.ofNat 32 detail) outlen)
    (∀ (st : BitVec 8) (detail : BitVec 32) (outlen : Nat), outlen < 2 ^ 16 →
      ∃ t, exec (.mailboxComplete st detail outlen) s = .next t ∧ t = s.dev' { d with
        mbstat := t.dev.mbstat
        irqs := d.irqs ++ [1158] } ∧
      t.dev.mbstat.extractLsb' 0 8 = st ∧ t.dev.mbstat.extractLsb' 8 8 = d.mbcmd.extractLsb' 8 8 ∧
      t.dev.mbstat.extractLsb' 16 32 = detail ∧ (t.dev.mbstat.extractLsb' 48 16).toNat = outlen) ∧
    (k < 1 ∨ 3 < k ∨ 2 ^ 26 < (mbWord d 1).toNat → Goes (.image cmd) s (ends d 3 0 0)) ∧
    (1 ≤ k → k ≤ 3 → (mbWord d 1).toNat ≤ 2 ^ 26 → Goes (.image cmd) s
      (match Config.hostImage d.free (mbWord d 0).toNat (mbWord d 1).toNat with
        | some x => ends { d with nextImages := d.nextImages.set (k - 1) (some x) } 2 0 0
        | none => ends d 4 0 0)) ∧
    Goes (.attest cmd) s (ends (mbPut d (body ++ bigBytes (Config.sm2Sign body).toNat 64)) 2 0 200) ∧
    Goes (.identity cmd) s (ends (mbPut d (bigBytes Config.identityKey.toNat 64)) 2 0 64) ∧
    Goes (.readlog cmd) s (ends (mbPut d (es.flatMap fun e => natBytes e.toNat 8)) 2 d.startLog.length (8 * es.length)) ∧
    (∃ t, exec (.clearlog cmd) s = .next t ∧ t = s.dev' (ends { d with startLog := t.dev.startLog } 2 0 0) ∧
      ∀ e, e ∈ t.dev.startLog ↔ e ∈ d.startLog ∧
        ¬ (leFailed e = true ∧ (k = 2 ^ 32 - 1 ∨ (leStep e = k % 256 ∧ leUnit e = k / 256 % 256)))) ∧
    (d.stage ≠ 2 → Goes (.streamtab cmd) s (ends d 3 0 0) ∧ Goes (.streamstart cmd) s (ends d 3 0 0) ∧
      (∀ x, stream? d (mbDie cmd) (mbStream cmd) = some x → Goes (.streamstop cmd) s (ends d 3 0 0))) ∧
    (d.stage = 2 →
      let a := mbWord d 0
      let busy : Bool := d.streams.any fun e => e.1 / 16 == k
      (15 < k ∨ a.toNat % 1024 ≠ 0 ∨ isDevice a.toNat = false ∨ busy = true → Goes (.streamtab cmd) s (ends d 3 0 0)) ∧
      (k ≤ 15 → a.toNat % 1024 = 0 → isDevice a.toNat = true → busy = false →
        Goes (.streamtab cmd) s (ends { d with streamTab := tset d.streamTab k a } 2 0 0)) ∧
      (mbStreamOk cmd = false ∨ (stream? d (mbDie cmd) (mbStream cmd)).isSome = true ∨ tget? d.streamTab (mbDie cmd) = none →
        Goes (.streamstart cmd) s (ends d 3 0 0)) ∧
      (mbStreamOk cmd = false → Goes (.streamstop cmd) s (ends d 3 0 0)) ∧
      (∀ tab x d1, mbStreamOk cmd = true → stream? d (mbDie cmd) (mbStream cmd) = none → tget? d.streamTab (mbDie cmd) = some tab →
        let pa := tab.toNat + 64 * mbStream cmd
        readSlice m 0 d none (pa / 128) false [pa / 64] .rdShared 72 = .ok (x, d1) →
        let r := halfData x (pa / 64 % 2 == 1)
        (srBad m r = true → Goes (.streamstart cmd) s (ends d1 3 0 0)) ∧
        (srBad m r = false → Goes (.streamstart cmd) s (ends (startStream d1 (mbDie cmd) (mbStream cmd) r) 2 0 0))) ∧
      ∀ x, mbStreamOk cmd = true → stream? d (mbDie cmd) (mbStream cmd) = some x →
        let d1 := setStream d (mbDie cmd) (mbStream cmd) { x with
          stopping := true
          queue := [] }
        (x.emitting ≠ none → Goes (.streamstop cmd) s d1) ∧
        (x.emitting = none → x.owed = 0 → Goes (.streamstop cmd) s (afterEmit m d1 (mbDie cmd) (mbStream cmd))) ∧
        ∀ d2, x.emitting = none → x.owed = 0 → writeStat m d1 { x with
            stopping := true
            queue := [] } = .ok d2 →
          Goes (.streamstop cmd) s (endStream d2 (mbDie cmd) (mbStream cmd))) ∧
    (∀ (e : Dev) (die n : Nat) (x : Stream), stream? e die n = some x → x.stopping = true →
      let t := endStream e die n
      stream? t die n = none ∧ Instr.mailboxComplete 2 (BitVec.ofNat 32 x.frames) 0 ∈ t.agenda) ∧
    (stream? d (mbDie cmd) (mbStream cmd) = none → Goes (.streamstop cmd) s (ends d 3 0 0))

/-- R206, R325, R465 to R470, R475: a reset, and a critical temperature, leave the management registers at their reset values, no work and
no cached state, and keep memory and the start log, with every guard tag 0; modified host halves are sent to the host, and halves the host
holds in S or A are asked back, the reset being complete when none is left. A start does nothing in full function or during such a reset;
else it runs its steps in order up to the one that ends it, and with no failure it reaches full function; one that ends before the
configuration is read leaves every port HOST. The model's choices in it: what a reset keeps, memory and the start log among it, and in
which order halves are asked back (notes/assumptions/77), and when a start does nothing (76, PRESUMED). -/
def Obligations.ResetAndStart : Prop :=
  ∀ (s : State),
    let d := s.dev
    (∀ i, (i = Instr.reset ∨ ∃ die, i = .criticalTemperature die) → ∃ t, exec i s = .next t ∧ t.mgmt = resetMgmt ∧
      t.dev.mem = d.mem ∧ t.dev.tags = [] ∧ t.dev.forms = d.forms ∧ t.dev.nextImages = d.nextImages ∧ t.dev.startLog = d.startLog ∧ t.dev.startNo = d.startNo ∧
      t.dev.skeins = [] ∧ t.dev.groups = [] ∧ t.dev.launches = [] ∧ t.dev.l1 = [] ∧ t.dev.tlb = [] ∧ t.dev.halves = [] ∧
      t.dev.stage = 0 ∧ t.dev.records = [] ∧ t.dev.agenda = [] ∧ t.dev.linkErr = (if d.resetting then d.linkErr else 0) ∧
      t.dev.outbox = d.outbox ++ (d.halves.filter fun e => e.2.st == .m && !e.2.poison).map (fun e => Msg.dirtyEvict e.1 e.2.data) ∧
      (d.hostState = [] → t.dev.hostState = [] ∧ t.dev.deferred = [] ∧ t.dev.snoops = [] ∧ t.dev.portUp = 0 ∧ t.dev.resetting = false) ∧
      ∀ e r, d.hostState = e :: r → t.dev.hostState = d.hostState ∧ t.dev.resetting = true ∧ t.dev.deferred = [(e.1, .reset)] ∧
        (e.1, true) ∈ t.dev.snoops) ∧
    ∀ r : StartReport,
      (d.stage = 2 ∨ d.resetting = true → Goes (.deviceStart r) s d) ∧
      (d.stage ≠ 2 → d.resetting = false →
        (∃ t, exec (.deviceStart r) s = .next t ∧ t.mgmt = s.mgmt ∧ t.dev.mem = d.mem ∧ t.dev.startNo = d.startNo + 1 ∧
          (∃ es, t.dev.startLog = d.startLog ++ es) ∧ t.dev.nextImages = [none, none, none] ∧
          ((0x01, 0) ∈ r.failed ∨ (0x02, 0) ∈ r.failed ∨ (0x03, 0) ∈ r.failed → t.dev.portPeer = 0) ∧
          (r.failed = [] → t.dev.stage = 2 ∧ t.dev.failStage = 0xFF ∧
            t.dev.startLog.length = d.startLog.length + startSteps.length) ∧
          ((0x02, 0) ∈ r.failed → (0x01, 0) ∉ r.failed → t.dev.stage = 0 ∧ t.dev.failStage = 1)))

/-- R40, R389 to R392: a due frame of a stream gives its queue's head launch class 0 and sets the next one due; at a deadline
the oldest queued surface begins, or the frame is missed and a record owed; an emission goes on while it is due and its ring has
room. A stream that is not there has no events. -/
def Obligations.EgressSteps : Prop :=
  ∀ (die n : Nat) (s : State),
    let m := s.mgmt
    let d := s.dev
    let again (x : Stream) : Dev := postAfter d (.die die) (frameLen x.record) (.frameDeadline die n)
    let soon (x : Stream) : Dev := postAfter d (.die die) (dueAfter x.record x.started (cyclesOf d die)) (.frameDue die n)
    (stream? d die n = none → Goes (.frameDue die n) s d ∧ Goes (.frameDeadline die n) s d ∧ Goes (.tileRowEmit die n) s d) ∧
    ∀ x, stream? d die n = some x →
      (framed d x.ctx (srQueue x.record) = true → Goes (.frameDue die n) s (soon x)) ∧
      (framed d x.ctx (srQueue x.record) = false →
        let first := ((launchesOf d (.queue x.ctx (srQueue x.record))).head?).map fun l => l.id
        Goes (.frameDue die n) s (retryDispatch m { soon x with
          frameDue := (soon x).frameDue ++ [(x.ctx, srQueue x.record, first)] })) ∧
      (x.stopping = true → Goes (.frameDeadline die n) s d) ∧
      (∀ p r, x.stopping = false → x.emitting = none → x.queue = p :: r →
        Goes (.frameDeadline die n) s (postNew (roomFree (setStream (again x) die n { x with
          frame := x.frame + 1
          emitting := some { desc := p, row := 0, col := 0, opened := false }
          began := cyclesOf d die
          queue := r }) die n) (.tileRowEmit die n))) ∧
      (x.stopping = false → x.emitting ≠ none ∨ x.queue = [] →
        Goes (.frameDeadline die n) s (postNew (setStream (again x) die n { x with
          frame := x.frame + 1
          missed := x.missed + 1
          owed := x.owed + 1 }) (.tileRowEmit die n))) ∧
      (∀ d1, nextEmit d die x = some 0 → emitNext m d die n x = .ok d1 → Goes (.tileRowEmit die n) s (afterEmit m d1 die n)) ∧
      (nextEmit d die x = some 0 → emitNext m d die n x = .full →
        Goes (.tileRowEmit die n) s (postAfter d (.die die) 1 (.tileRowEmit die n))) ∧
      (nextEmit d die x ≠ some 0 → Goes (.tileRowEmit die n) s (afterEmit m d die n))

/-- R89, R90: the bundle of least program counter holds exactly the threads that may issue and stand there, whether they run ahead or not;
none that may issue stands lower, and a skein with a thread that may issue has one. The bundle the rotation picks is another one, of
threads that stand at one address, and no thread outside the first bundle has gone longer without issuing than some thread of it. That
R89 is read so during a run-ahead too is the model's choice (notes/assumptions/55). -/
def Obligations.BundleChoice : Prop :=
  ∀ (k : Skein),
    let ls := readyMask k
    let low := (lowBundle k).1
    (ls ≠ 0 → low ≠ 0) ∧
    (∀ l, l < 32 → low.getLsbD l = true → ls.getLsbD l = true ∧ (threadOf k l).pc = (lowBundle k).2) ∧
    (∀ l, l < 32 → ls.getLsbD l = true → (threadOf k l).pc = (lowBundle k).2 → low.getLsbD l = true) ∧
    (∀ l, l < 32 → ls.getLsbD l = true → (lowBundle k).2.toNat ≤ (threadOf k l).pc.toNat) ∧
    (oldBundle k = none → ls &&& ~~~low = 0) ∧
    ∀ b pc, oldBundle k = some (b, pc) → b ≠ 0 ∧ b &&& low = 0 ∧
      (∀ l, l < 32 → b.getLsbD l = true → ls.getLsbD l = true ∧ (threadOf k l).pc = pc) ∧
      ∃ o, o < 32 ∧ b.getLsbD o = true ∧ ∀ l, l < 32 → ls.getLsbD l = true → low.getLsbD l = false →
        (threadOf k o).last ≤ (threadOf k l).last ∧ ((threadOf k o).last = (threadOf k l).last → pc.toNat ≤ (threadOf k l).pc.toNat)

/-- The frame of a step: it draws new free values, and does the first due event, whose steps of the device are each their meaning; with no
event due, the next skein's bundle issues (R55, R74, R76, R89, R90): words that decode run as their instruction, words that do not raise
the illegal-instruction fault, a word that cannot be fetched raises the fetch fault, one that has to come from the host is waited for;
where a run-ahead ends, it ends first (R456); with nothing to issue a cycle passes. An instruction word is read through the spindle's L1
(R193) from its page, which is executable and not writable. The model's choices in it: that a due event goes first, then an issue, then a
cycle (notes/assumptions/1), how a fetch uses the L1 (13), and that a word of an unassigned opcode has no extension word (89). -/
def Obligations.StepRunsDecoded : Prop :=
  ∀ (s : State),
    let m := s.mgmt
    let d := { s.dev with free := s.dev.free + 1 }
    (∀ e r, s.dev.agenda = e :: r → isWord e = false → step s = exec e { mgmt := m, dev := { d with agenda := r } }) ∧
    (s.dev.agenda = [] → pickQuarter m d = none → step s = .next { mgmt := m, dev := tick m d }) ∧
    (∀ q k g, s.dev.agenda = [] → pickQuarter m d = some (q, k, g) →
      let old := if 64 ≤ k.rot then oldBundle k else none
      let b := old.getD (lowBundle k)
      let pc := b.2
      let d1 : Dev := { d with
        turn := q + 1
        cur := { skein := k.uid, lanes := b.1, pc := pc, rotate := old.isSome } }
      let fetch (d : Dev) (p : DWord) : Fetched := fetchWord m d g.ctx (spindleNo g) p
      let runs (i : Instr) (d : Dev) : Prop := step s = (if raStops d i then exec (.runAheadEnd k.uid) { mgmt := m, dev := d }
        else exec i { mgmt := m, dev := d })
      let reads (w e : Word) (d : Dev) : Prop := (∀ i, decodeWords (allocOf g) w e = .ok i → runs i d) ∧
        ∀ r, decodeWords (allocOf g) w e = .error r → runs (.illegalWord w e r) d
      (k.rot = 64 → old ≠ none → step s = exec (.issueRotation k.uid) { mgmt := m, dev := d }) ∧
      (k.rot ≠ 64 ∨ old = none →
        (∀ c a, fetch d1 pc = .fault c a → runs (.fetchFault c a) d1) ∧
        (∀ n, fetch d1 pc = .wait n → step s = .next { mgmt := m, dev := parkFetch d1 k.uid n }) ∧
        ∀ w d2, fetch d1 pc = .word w d2 →
          (extFollows w = false → reads w 0 d2) ∧
          (extFollows w = true →
            (∀ c a, fetch d2 (pc + 4) = .fault c a → runs (.fetchFault c a) d2) ∧
            (∀ n, fetch d2 (pc + 4) = .wait n → step s = .next { mgmt := m, dev := parkFetch d2 k.uid n }) ∧
            ∀ e d3, fetch d2 (pc + 4) = .word e d3 → reads w e d3))) ∧
    ∀ ctx sp p,
      (∀ c, locate m d ctx sp p = .error (.xlate c) → fetchWord m d ctx sp p = .fault (.xlate c) p) ∧
      ∀ l pa, locate m d ctx sp p = .ok (l, pa) →
        (l.w = true ∨ l.xn = true → fetchWord m d ctx sp p = .fault .perm p) ∧
        (l.w = false → l.xn = false →
          (∀ x d1 lat, loadVia m d ctx sp p l pa 4 1 90 = .ok (x, d1, lat) →
            fetchWord m d ctx sp p = .word (BitVec.ofNat 32 x) d1) ∧
          ∀ c, emptyWay d sp (pa / 128) = none → waysAlong d sp (setOf (bitsOf p 7 41)) (pa / 128) = 0 → isPeer pa = false →
            l1Hit d sp (ctxAsid m ctx) (bitsOf p 7 41) = some c → c.stale = false → holds c (byteMask (pa % 128) 4) = true →
            cleanLost d c (byteMask (pa % 128) 4) = false →
            fetchWord m d ctx sp p = .word (BitVec.ofNat 32 (takeBytes c.data (pa % 128) 4)) d)

/-- Every instruction word and every step of the device answers a next state, from every state; and none but the host's register writes
(R49, R328, R329) and a reset (R325, R475) changes a management register. A step of the machine answers a next state wherever its
due events are steps of the device. -/
def Obligations.EveryStepCompletes : Prop :=
  (∀ (i : Instr) (s : State), ∃ t, exec i s = .next t ∧
    (t.mgmt = s.mgmt ∨ (∃ bar p v, i = .registerWrite bar p v) ∨ (∃ ctx v, i = .detctlWrite ctx v) ∨
      (∃ ctx die v, i = .partitionWrite ctx die v) ∨ i = .reset ∨ ∃ die, i = .criticalTemperature die) ∧
    (isWord i = true → t.mgmt = s.mgmt)) ∧
  ∀ s : State, AgendaOk s.dev → Steps s

/-- R35, R42, R49, R184, R328, R329, R445, R457: a step keeps the management registers legal: the zero bits of each register zero and its
fields in range, the address spaces of enabled contexts apart, every context with a spindle, exclusive contexts with none in common. -/
def Obligations.LegalRegistersKept : Prop :=
  ∀ s t : State, step s = .next t → MgmtLegal s.mgmt → MgmtLegal t.mgmt

/-- The machine right after reset. The spec's own values: R42's quantum 22, R49's partitions (every spindle, none exclusive), R184's
translation disabled, R328's PINQUOTA 4096 and TERMT 1e-4, R329's DETCTL 0, R349's watchdog 4096, R465's stage 0. The model's choices
(log entries 2, 4 and 5): no work, no cached line, no record and memory with nothing listed, LINKERR 0. The management registers are
legal and memory is in canonical form. -/
def Obligations.ResetState : Prop :=
  MgmtLegal State.reset.mgmt ∧ Memory.wf State.reset.dev.mem = true ∧ State.reset.dev.stage = 0 ∧
  State.reset.dev.skeins = [] ∧ State.reset.dev.groups = [] ∧ State.reset.dev.launches = [] ∧ State.reset.dev.l1 = [] ∧
  State.reset.dev.tlb = [] ∧ State.reset.dev.records = [] ∧ State.reset.dev.linkErr = 0 ∧
  ∀ c, c < 64 → ctxEnabled State.reset.mgmt c = false ∧ isDet State.reset.mgmt c = false ∧
    (ctxOf State.reset.mgmt c).quantum = 22 ∧ (ctxOf State.reset.mgmt c).pinquota = 4096 ∧
    (ctxOf State.reset.mgmt c).watchdog = 4096 ∧ (ctxOf State.reset.mgmt c).termt = 0x38D1B717 ∧
    exclusive State.reset.mgmt c = false ∧ ∀ die i, die < 16 → i < 48 → partBit State.reset.mgmt c die i = true

/-- R57 to R76: for every instruction word that a skein of an allocation may hold, with every operand at every value, decoding its bytes
gives it back with the bytes that follow; and bytes that decode are the bytes of what they decode to, which that skein may hold. -/
def Obligations.DecodeAndEncodeAgree : Prop :=
  ∀ (al : Alloc),
    (∀ (i : Instr) (rest : List Byte), isWord i = true → illegalReason al i = none →
      decodeBytes al (encodeBytes i ++ rest) = .ok (i, rest)) ∧
    ∀ (i : Instr) (bs rest : List Byte), decodeBytes al bs = .ok (i, rest) →
      bs = encodeBytes i ++ rest ∧ isWord i = true ∧ illegalReason al i = none ∧ lengthOf i = bs.length - rest.length

/-- R57 to R67, R72 to R76: the worked words of the manual decode to the instructions they stand for, and its illegal words
to the reasons it gives. -/
def Obligations.DecodedWords : Prop :=
  let ok (w e : Word) (i : Instr) : Prop := decodeWords fullAlloc w e = .ok i
  let bad (w e : Word) (r : Reason) : Prop := decodeWords fullAlloc w e = .error r
  let lr (d a b : BitVec 7) : Lr := { w := false, d := d, a := a, b := b, f := false, xm := none }
  let xw (ty : BitVec 4) (sc : BitVec 3) (sub : BitVec 4) (disp : BitVec 14) : Xw :=
    { p := 7, n := false, ty := ty, pol := 0, sc := sc, sub := sub, disp := disp }
  let lm (w : Bool) (d a sb : BitVec 7) (x : Xw) : Lm := { w := w, d := d, a := a, sb := sb, z := false, xw := x }
  let ue (sp : BitVec 7) (tag : BitVec 6) (sub : BitVec 9) : Ue := { w := false, sp := sp, tag := tag, sub := sub }
  ok 0x00418104 0 (.iadd (lr 3 1 2)) ∧
  ok 0x6AC4040A 0x0CA40200 (.ffma { lr 8 4 5 with
    w := true
    xm := some { c := 6, p := 2, n := true, rm := 1, sat := false, neg := 0, abs := 0, ty := 4, opx := 0 } }) ∧
  ok 0x80428308 0 (.sadd (lr 5 3 4)) ∧
  ok 0x8C0BFFFD 0 (.bra { w := false, p := 1, n := false, off := -3 }) ∧
  ok 0x05818002 0 (.shlk { w := false, d := 3, a := 0, k := 2, xl := none }) ∧
  ok 0x1D000000 0 (.exit { w := false, z := 0 }) ∧
  ok 0x08090206 0 (.isetp { w := false, pd := 1, cc := 2, a := 2, b := 3, f := false, xm := none }) ∧
  ok 0xAAC30504 0xE0020010 (.sld (lm false 6 5 2 (xw 0 0 8 16))) ∧
  ok 0x74020104 0xE4010000 (.ld (lm true 4 1 2 (xw 4 0 4 0))) ∧
  ok 0x75830208 0xE1100040 (.atom (lm true 6 2 4 (xw 1 4 0 64))) ∧
  ok 0x37040F08 0xE4000000 (.stq (lm false 8 15 4 (xw 4 0 0 0))) ∧
  ok 0x94020601 0 (.cpy (ue 4 3 1)) ∧
  ok 0x9080001C 0 (.fence (ue 0 0 0x1C)) ∧
  ok 0xB0C28614 0xE0120000 (.lockl (lm false 5 6 10 (xw 0 4 8 0))) ∧
  ok 0x78040208 0xE4030000 (.ldpx (lm true 8 2 4 (xw 4 0 12 0))) ∧
  ok 0x99020401 0 (.seal (ue 4 2 1)) ∧
  bad 0x00000000 0 .opcode ∧ bad 0x02818104 0 .opcode ∧ bad 0x3C000000 0 .xbit ∧ bad 0x20C18105 0x10 .zerobits ∧
  bad 0x2AC4040A 0x0CB80200 .reserved ∧ bad 0x94018601 0 .register ∧ bad 0x36030300 0xE0120000 .operand
end

