-- ==== Sys2Proof/Laws/State.lean ====
section
/-!
SUPPORT. What the updates of Machine/Ops.lean leave of the device and of a skein: one lemma per field per update, and how a look-up
meets an update.
-/

namespace Sys2Proof.Machine

/-! ## One lemma per field per update -/

/-! ### `modSkein` -/

@[simp] theorem modSkein_ticks (d : Dev) (u : Nat) (f : Skein → Skein) : (modSkein d u f).ticks = d.ticks := rfl
@[simp] theorem modSkein_dieCycles (d : Dev) (u : Nat) (f : Skein → Skein) : (modSkein d u f).dieCycles = d.dieCycles := rfl
@[simp] theorem modSkein_phase (d : Dev) (u : Nat) (f : Skein → Skein) : (modSkein d u f).phase = d.phase := rfl
@[simp] theorem modSkein_held (d : Dev) (u : Nat) (f : Skein → Skein) : (modSkein d u f).held = d.held := rfl
@[simp] theorem modSkein_turn (d : Dev) (u : Nat) (f : Skein → Skein) : (modSkein d u f).turn = d.turn := rfl
@[simp] theorem modSkein_agenda (d : Dev) (u : Nat) (f : Skein → Skein) : (modSkein d u f).agenda = d.agenda := rfl
@[simp] theorem modSkein_timers (d : Dev) (u : Nat) (f : Skein → Skein) : (modSkein d u f).timers = d.timers := rfl
@[simp] theorem modSkein_free (d : Dev) (u : Nat) (f : Skein → Skein) : (modSkein d u f).free = d.free := rfl
@[simp] theorem modSkein_nextId (d : Dev) (u : Nat) (f : Skein → Skein) : (modSkein d u f).nextId = d.nextId := rfl
@[simp] theorem modSkein_cur (d : Dev) (u : Nat) (f : Skein → Skein) : (modSkein d u f).cur = d.cur := rfl
@[simp] theorem modSkein_mem (d : Dev) (u : Nat) (f : Skein → Skein) : (modSkein d u f).mem = d.mem := rfl
@[simp] theorem modSkein_tags (d : Dev) (u : Nat) (f : Skein → Skein) : (modSkein d u f).tags = d.tags := rfl
@[simp] theorem modSkein_forms (d : Dev) (u : Nat) (f : Skein → Skein) : (modSkein d u f).forms = d.forms := rfl
@[simp] theorem modSkein_written (d : Dev) (u : Nat) (f : Skein → Skein) : (modSkein d u f).written = d.written := rfl
@[simp] theorem modSkein_l1 (d : Dev) (u : Nat) (f : Skein → Skein) : (modSkein d u f).l1 = d.l1 := rfl
@[simp] theorem modSkein_tlb (d : Dev) (u : Nat) (f : Skein → Skein) : (modSkein d u f).tlb = d.tlb := rfl
@[simp] theorem modSkein_rpPages (d : Dev) (u : Nat) (f : Skein → Skein) : (modSkein d u f).rpPages = d.rpPages := rfl
@[simp] theorem modSkein_rpHeld (d : Dev) (u : Nat) (f : Skein → Skein) : (modSkein d u f).rpHeld = d.rpHeld := rfl
@[simp] theorem modSkein_dir (d : Dev) (u : Nat) (f : Skein → Skein) : (modSkein d u f).dir = d.dir := rfl
@[simp] theorem modSkein_halves (d : Dev) (u : Nat) (f : Skein → Skein) : (modSkein d u f).halves = d.halves := rfl
@[simp] theorem modSkein_hostState (d : Dev) (u : Nat) (f : Skein → Skein) : (modSkein d u f).hostState = d.hostState := rfl
@[simp] theorem modSkein_snoops (d : Dev) (u : Nat) (f : Skein → Skein) : (modSkein d u f).snoops = d.snoops := rfl
@[simp] theorem modSkein_hostReqs (d : Dev) (u : Nat) (f : Skein → Skein) : (modSkein d u f).hostReqs = d.hostReqs := rfl
@[simp] theorem modSkein_deferred (d : Dev) (u : Nat) (f : Skein → Skein) : (modSkein d u f).deferred = d.deferred := rfl
@[simp] theorem modSkein_locks (d : Dev) (u : Nat) (f : Skein → Skein) : (modSkein d u f).locks = d.locks := rfl
@[simp] theorem modSkein_l2pins (d : Dev) (u : Nat) (f : Skein → Skein) : (modSkein d u f).l2pins = d.l2pins := rfl
@[simp] theorem modSkein_waiters (d : Dev) (u : Nat) (f : Skein → Skein) : (modSkein d u f).waiters = d.waiters := rfl
@[simp] theorem modSkein_launches (d : Dev) (u : Nat) (f : Skein → Skein) : (modSkein d u f).launches = d.launches := rfl
@[simp] theorem modSkein_groups (d : Dev) (u : Nat) (f : Skein → Skein) : (modSkein d u f).groups = d.groups := rfl
@[simp] theorem modSkein_skeins (d : Dev) (u : Nat) (f : Skein → Skein) : (modSkein d u f).skeins = modWhere (fun k => k.uid == u) f d.skeins := rfl
@[simp] theorem modSkein_subqs (d : Dev) (u : Nat) (f : Skein → Skein) : (modSkein d u f).subqs = d.subqs := rfl
@[simp] theorem modSkein_trigs (d : Dev) (u : Nat) (f : Skein → Skein) : (modSkein d u f).trigs = d.trigs := rfl
@[simp] theorem modSkein_runs (d : Dev) (u : Nat) (f : Skein → Skein) : (modSkein d u f).runs = d.runs := rfl
@[simp] theorem modSkein_spools (d : Dev) (u : Nat) (f : Skein → Skein) : (modSkein d u f).spools = d.spools := rfl
@[simp] theorem modSkein_slots (d : Dev) (u : Nat) (f : Skein → Skein) : (modSkein d u f).slots = d.slots := rfl
@[simp] theorem modSkein_waitq (d : Dev) (u : Nat) (f : Skein → Skein) : (modSkein d u f).waitq = d.waitq := rfl
@[simp] theorem modSkein_nextSpindle (d : Dev) (u : Nat) (f : Skein → Skein) : (modSkein d u f).nextSpindle = d.nextSpindle := rfl
@[simp] theorem modSkein_frameDue (d : Dev) (u : Nat) (f : Skein → Skein) : (modSkein d u f).frameDue = d.frameDue := rfl
@[simp] theorem modSkein_quarters (d : Dev) (u : Nat) (f : Skein → Skein) : (modSkein d u f).quarters = d.quarters := rfl
@[simp] theorem modSkein_stalled (d : Dev) (u : Nat) (f : Skein → Skein) : (modSkein d u f).stalled = d.stalled := rfl
@[simp] theorem modSkein_records (d : Dev) (u : Nat) (f : Skein → Skein) : (modSkein d u f).records = d.records := rfl
@[simp] theorem modSkein_irqs (d : Dev) (u : Nat) (f : Skein → Skein) : (modSkein d u f).irqs = d.irqs := rfl
@[simp] theorem modSkein_linkErr (d : Dev) (u : Nat) (f : Skein → Skein) : (modSkein d u f).linkErr = d.linkErr := rfl
@[simp] theorem modSkein_portUp (d : Dev) (u : Nat) (f : Skein → Skein) : (modSkein d u f).portUp = d.portUp := rfl
@[simp] theorem modSkein_portPeer (d : Dev) (u : Nat) (f : Skein → Skein) : (modSkein d u f).portPeer = d.portPeer := rfl
@[simp] theorem modSkein_mmcmd (d : Dev) (u : Nat) (f : Skein → Skein) : (modSkein d u f).mmcmd = d.mmcmd := rfl
@[simp] theorem modSkein_mmq (d : Dev) (u : Nat) (f : Skein → Skein) : (modSkein d u f).mmq = d.mmq := rfl
@[simp] theorem modSkein_outbox (d : Dev) (u : Nat) (f : Skein → Skein) : (modSkein d u f).outbox = d.outbox := rfl
@[simp] theorem modSkein_engines (d : Dev) (u : Nat) (f : Skein → Skein) : (modSkein d u f).engines = d.engines := rfl
@[simp] theorem modSkein_surfOps (d : Dev) (u : Nat) (f : Skein → Skein) : (modSkein d u f).surfOps = d.surfOps := rfl
@[simp] theorem modSkein_scache (d : Dev) (u : Nat) (f : Skein → Skein) : (modSkein d u f).scache = d.scache := rfl
@[simp] theorem modSkein_stiles (d : Dev) (u : Nat) (f : Skein → Skein) : (modSkein d u f).stiles = d.stiles := rfl
@[simp] theorem modSkein_tilers (d : Dev) (u : Nat) (f : Skein → Skein) : (modSkein d u f).tilers = d.tilers := rfl
@[simp] theorem modSkein_dsc (d : Dev) (u : Nat) (f : Skein → Skein) : (modSkein d u f).dsc = d.dsc := rfl
@[simp] theorem modSkein_progs (d : Dev) (u : Nat) (f : Skein → Skein) : (modSkein d u f).progs = d.progs := rfl
@[simp] theorem modSkein_streams (d : Dev) (u : Nat) (f : Skein → Skein) : (modSkein d u f).streams = d.streams := rfl
@[simp] theorem modSkein_streamTab (d : Dev) (u : Nat) (f : Skein → Skein) : (modSkein d u f).streamTab = d.streamTab := rfl
@[simp] theorem modSkein_sealOnly (d : Dev) (u : Nat) (f : Skein → Skein) : (modSkein d u f).sealOnly = d.sealOnly := rfl
@[simp] theorem modSkein_resetting (d : Dev) (u : Nat) (f : Skein → Skein) : (modSkein d u f).resetting = d.resetting := rfl
@[simp] theorem modSkein_stage (d : Dev) (u : Nat) (f : Skein → Skein) : (modSkein d u f).stage = d.stage := rfl
@[simp] theorem modSkein_failStage (d : Dev) (u : Nat) (f : Skein → Skein) : (modSkein d u f).failStage = d.failStage := rfl
@[simp] theorem modSkein_startNo (d : Dev) (u : Nat) (f : Skein → Skein) : (modSkein d u f).startNo = d.startNo := rfl
@[simp] theorem modSkein_startLog (d : Dev) (u : Nat) (f : Skein → Skein) : (modSkein d u f).startLog = d.startLog := rfl
@[simp] theorem modSkein_images (d : Dev) (u : Nat) (f : Skein → Skein) : (modSkein d u f).images = d.images := rfl
@[simp] theorem modSkein_nextImages (d : Dev) (u : Nat) (f : Skein → Skein) : (modSkein d u f).nextImages = d.nextImages := rfl
@[simp] theorem modSkein_stackMask (d : Dev) (u : Nat) (f : Skein → Skein) : (modSkein d u f).stackMask = d.stackMask := rfl
@[simp] theorem modSkein_edgeRates (d : Dev) (u : Nat) (f : Skein → Skein) : (modSkein d u f).edgeRates = d.edgeRates := rfl
@[simp] theorem modSkein_laneRates (d : Dev) (u : Nat) (f : Skein → Skein) : (modSkein d u f).laneRates = d.laneRates := rfl
@[simp] theorem modSkein_saveGb (d : Dev) (u : Nat) (f : Skein → Skein) : (modSkein d u f).saveGb = d.saveGb := rfl
@[simp] theorem modSkein_saveMoves (d : Dev) (u : Nat) (f : Skein → Skein) : (modSkein d u f).saveMoves = d.saveMoves := rfl
@[simp] theorem modSkein_mbcmd (d : Dev) (u : Nat) (f : Skein → Skein) : (modSkein d u f).mbcmd = d.mbcmd := rfl
@[simp] theorem modSkein_mbstat (d : Dev) (u : Nat) (f : Skein → Skein) : (modSkein d u f).mbstat = d.mbstat := rfl
@[simp] theorem modSkein_mbdata (d : Dev) (u : Nat) (f : Skein → Skein) : (modSkein d u f).mbdata = d.mbdata := rfl
@[simp] theorem modSkein_diecap (d : Dev) (u : Nat) (f : Skein → Skein) : (modSkein d u f).diecap = d.diecap := rfl
@[simp] theorem modSkein_clockStep (d : Dev) (u : Nat) (f : Skein → Skein) : (modSkein d u f).clockStep = d.clockStep := rfl
@[simp] theorem modSkein_hot (d : Dev) (u : Nat) (f : Skein → Skein) : (modSkein d u f).hot = d.hot := rfl
@[simp] theorem modSkein_saveUsed (d : Dev) (u : Nat) (f : Skein → Skein) : (modSkein d u f).saveUsed = d.saveUsed := rfl
@[simp] theorem modSkein_gatedSpindles (d : Dev) (u : Nat) (f : Skein → Skein) : (modSkein d u f).gatedSpindles = d.gatedSpindles := rfl
@[simp] theorem modSkein_gatedSlices (d : Dev) (u : Nat) (f : Skein → Skein) : (modSkein d u f).gatedSlices = d.gatedSlices := rfl

/-! ### `modGroup` -/

@[simp] theorem modGroup_ticks (d : Dev) (g : Nat) (f : Group → Group) : (modGroup d g f).ticks = d.ticks := rfl
@[simp] theorem modGroup_dieCycles (d : Dev) (g : Nat) (f : Group → Group) : (modGroup d g f).dieCycles = d.dieCycles := rfl
@[simp] theorem modGroup_phase (d : Dev) (g : Nat) (f : Group → Group) : (modGroup d g f).phase = d.phase := rfl
@[simp] theorem modGroup_held (d : Dev) (g : Nat) (f : Group → Group) : (modGroup d g f).held = d.held := rfl
@[simp] theorem modGroup_turn (d : Dev) (g : Nat) (f : Group → Group) : (modGroup d g f).turn = d.turn := rfl
@[simp] theorem modGroup_agenda (d : Dev) (g : Nat) (f : Group → Group) : (modGroup d g f).agenda = d.agenda := rfl
@[simp] theorem modGroup_timers (d : Dev) (g : Nat) (f : Group → Group) : (modGroup d g f).timers = d.timers := rfl
@[simp] theorem modGroup_free (d : Dev) (g : Nat) (f : Group → Group) : (modGroup d g f).free = d.free := rfl
@[simp] theorem modGroup_nextId (d : Dev) (g : Nat) (f : Group → Group) : (modGroup d g f).nextId = d.nextId := rfl
@[simp] theorem modGroup_cur (d : Dev) (g : Nat) (f : Group → Group) : (modGroup d g f).cur = d.cur := rfl
@[simp] theorem modGroup_mem (d : Dev) (g : Nat) (f : Group → Group) : (modGroup d g f).mem = d.mem := rfl
@[simp] theorem modGroup_tags (d : Dev) (g : Nat) (f : Group → Group) : (modGroup d g f).tags = d.tags := rfl
@[simp] theorem modGroup_forms (d : Dev) (g : Nat) (f : Group → Group) : (modGroup d g f).forms = d.forms := rfl
@[simp] theorem modGroup_written (d : Dev) (g : Nat) (f : Group → Group) : (modGroup d g f).written = d.written := rfl
@[simp] theorem modGroup_l1 (d : Dev) (g : Nat) (f : Group → Group) : (modGroup d g f).l1 = d.l1 := rfl
@[simp] theorem modGroup_tlb (d : Dev) (g : Nat) (f : Group → Group) : (modGroup d g f).tlb = d.tlb := rfl
@[simp] theorem modGroup_rpPages (d : Dev) (g : Nat) (f : Group → Group) : (modGroup d g f).rpPages = d.rpPages := rfl
@[simp] theorem modGroup_rpHeld (d : Dev) (g : Nat) (f : Group → Group) : (modGroup d g f).rpHeld = d.rpHeld := rfl
@[simp] theorem modGroup_dir (d : Dev) (g : Nat) (f : Group → Group) : (modGroup d g f).dir = d.dir := rfl
@[simp] theorem modGroup_halves (d : Dev) (g : Nat) (f : Group → Group) : (modGroup d g f).halves = d.halves := rfl
@[simp] theorem modGroup_hostState (d : Dev) (g : Nat) (f : Group → Group) : (modGroup d g f).hostState = d.hostState := rfl
@[simp] theorem modGroup_snoops (d : Dev) (g : Nat) (f : Group → Group) : (modGroup d g f).snoops = d.snoops := rfl
@[simp] theorem modGroup_hostReqs (d : Dev) (g : Nat) (f : Group → Group) : (modGroup d g f).hostReqs = d.hostReqs := rfl
@[simp] theorem modGroup_deferred (d : Dev) (g : Nat) (f : Group → Group) : (modGroup d g f).deferred = d.deferred := rfl
@[simp] theorem modGroup_locks (d : Dev) (g : Nat) (f : Group → Group) : (modGroup d g f).locks = d.locks := rfl
@[simp] theorem modGroup_l2pins (d : Dev) (g : Nat) (f : Group → Group) : (modGroup d g f).l2pins = d.l2pins := rfl
@[simp] theorem modGroup_waiters (d : Dev) (g : Nat) (f : Group → Group) : (modGroup d g f).waiters = d.waiters := rfl
@[simp] theorem modGroup_launches (d : Dev) (g : Nat) (f : Group → Group) : (modGroup d g f).launches = d.launches := rfl
@[simp] theorem modGroup_groups (d : Dev) (g : Nat) (f : Group → Group) : (modGroup d g f).groups = modWhere (fun x => x.gid == g) f d.groups := rfl
@[simp] theorem modGroup_skeins (d : Dev) (g : Nat) (f : Group → Group) : (modGroup d g f).skeins = d.skeins := rfl
@[simp] theorem modGroup_subqs (d : Dev) (g : Nat) (f : Group → Group) : (modGroup d g f).subqs = d.subqs := rfl
@[simp] theorem modGroup_trigs (d : Dev) (g : Nat) (f : Group → Group) : (modGroup d g f).trigs = d.trigs := rfl
@[simp] theorem modGroup_runs (d : Dev) (g : Nat) (f : Group → Group) : (modGroup d g f).runs = d.runs := rfl
@[simp] theorem modGroup_spools (d : Dev) (g : Nat) (f : Group → Group) : (modGroup d g f).spools = d.spools := rfl
@[simp] theorem modGroup_slots (d : Dev) (g : Nat) (f : Group → Group) : (modGroup d g f).slots = d.slots := rfl
@[simp] theorem modGroup_waitq (d : Dev) (g : Nat) (f : Group → Group) : (modGroup d g f).waitq = d.waitq := rfl
@[simp] theorem modGroup_nextSpindle (d : Dev) (g : Nat) (f : Group → Group) : (modGroup d g f).nextSpindle = d.nextSpindle := rfl
@[simp] theorem modGroup_frameDue (d : Dev) (g : Nat) (f : Group → Group) : (modGroup d g f).frameDue = d.frameDue := rfl
@[simp] theorem modGroup_quarters (d : Dev) (g : Nat) (f : Group → Group) : (modGroup d g f).quarters = d.quarters := rfl
@[simp] theorem modGroup_stalled (d : Dev) (g : Nat) (f : Group → Group) : (modGroup d g f).stalled = d.stalled := rfl
@[simp] theorem modGroup_records (d : Dev) (g : Nat) (f : Group → Group) : (modGroup d g f).records = d.records := rfl
@[simp] theorem modGroup_irqs (d : Dev) (g : Nat) (f : Group → Group) : (modGroup d g f).irqs = d.irqs := rfl
@[simp] theorem modGroup_linkErr (d : Dev) (g : Nat) (f : Group → Group) : (modGroup d g f).linkErr = d.linkErr := rfl
@[simp] theorem modGroup_portUp (d : Dev) (g : Nat) (f : Group → Group) : (modGroup d g f).portUp = d.portUp := rfl
@[simp] theorem modGroup_portPeer (d : Dev) (g : Nat) (f : Group → Group) : (modGroup d g f).portPeer = d.portPeer := rfl
@[simp] theorem modGroup_mmcmd (d : Dev) (g : Nat) (f : Group → Group) : (modGroup d g f).mmcmd = d.mmcmd := rfl
@[simp] theorem modGroup_mmq (d : Dev) (g : Nat) (f : Group → Group) : (modGroup d g f).mmq = d.mmq := rfl
@[simp] theorem modGroup_outbox (d : Dev) (g : Nat) (f : Group → Group) : (modGroup d g f).outbox = d.outbox := rfl
@[simp] theorem modGroup_engines (d : Dev) (g : Nat) (f : Group → Group) : (modGroup d g f).engines = d.engines := rfl
@[simp] theorem modGroup_surfOps (d : Dev) (g : Nat) (f : Group → Group) : (modGroup d g f).surfOps = d.surfOps := rfl
@[simp] theorem modGroup_scache (d : Dev) (g : Nat) (f : Group → Group) : (modGroup d g f).scache = d.scache := rfl
@[simp] theorem modGroup_stiles (d : Dev) (g : Nat) (f : Group → Group) : (modGroup d g f).stiles = d.stiles := rfl
@[simp] theorem modGroup_tilers (d : Dev) (g : Nat) (f : Group → Group) : (modGroup d g f).tilers = d.tilers := rfl
@[simp] theorem modGroup_dsc (d : Dev) (g : Nat) (f : Group → Group) : (modGroup d g f).dsc = d.dsc := rfl
@[simp] theorem modGroup_progs (d : Dev) (g : Nat) (f : Group → Group) : (modGroup d g f).progs = d.progs := rfl
@[simp] theorem modGroup_streams (d : Dev) (g : Nat) (f : Group → Group) : (modGroup d g f).streams = d.streams := rfl
@[simp] theorem modGroup_streamTab (d : Dev) (g : Nat) (f : Group → Group) : (modGroup d g f).streamTab = d.streamTab := rfl
@[simp] theorem modGroup_sealOnly (d : Dev) (g : Nat) (f : Group → Group) : (modGroup d g f).sealOnly = d.sealOnly := rfl
@[simp] theorem modGroup_resetting (d : Dev) (g : Nat) (f : Group → Group) : (modGroup d g f).resetting = d.resetting := rfl
@[simp] theorem modGroup_stage (d : Dev) (g : Nat) (f : Group → Group) : (modGroup d g f).stage = d.stage := rfl
@[simp] theorem modGroup_failStage (d : Dev) (g : Nat) (f : Group → Group) : (modGroup d g f).failStage = d.failStage := rfl
@[simp] theorem modGroup_startNo (d : Dev) (g : Nat) (f : Group → Group) : (modGroup d g f).startNo = d.startNo := rfl
@[simp] theorem modGroup_startLog (d : Dev) (g : Nat) (f : Group → Group) : (modGroup d g f).startLog = d.startLog := rfl
@[simp] theorem modGroup_images (d : Dev) (g : Nat) (f : Group → Group) : (modGroup d g f).images = d.images := rfl
@[simp] theorem modGroup_nextImages (d : Dev) (g : Nat) (f : Group → Group) : (modGroup d g f).nextImages = d.nextImages := rfl
@[simp] theorem modGroup_stackMask (d : Dev) (g : Nat) (f : Group → Group) : (modGroup d g f).stackMask = d.stackMask := rfl
@[simp] theorem modGroup_edgeRates (d : Dev) (g : Nat) (f : Group → Group) : (modGroup d g f).edgeRates = d.edgeRates := rfl
@[simp] theorem modGroup_laneRates (d : Dev) (g : Nat) (f : Group → Group) : (modGroup d g f).laneRates = d.laneRates := rfl
@[simp] theorem modGroup_saveGb (d : Dev) (g : Nat) (f : Group → Group) : (modGroup d g f).saveGb = d.saveGb := rfl
@[simp] theorem modGroup_saveMoves (d : Dev) (g : Nat) (f : Group → Group) : (modGroup d g f).saveMoves = d.saveMoves := rfl
@[simp] theorem modGroup_mbcmd (d : Dev) (g : Nat) (f : Group → Group) : (modGroup d g f).mbcmd = d.mbcmd := rfl
@[simp] theorem modGroup_mbstat (d : Dev) (g : Nat) (f : Group → Group) : (modGroup d g f).mbstat = d.mbstat := rfl
@[simp] theorem modGroup_mbdata (d : Dev) (g : Nat) (f : Group → Group) : (modGroup d g f).mbdata = d.mbdata := rfl
@[simp] theorem modGroup_diecap (d : Dev) (g : Nat) (f : Group → Group) : (modGroup d g f).diecap = d.diecap := rfl
@[simp] theorem modGroup_clockStep (d : Dev) (g : Nat) (f : Group → Group) : (modGroup d g f).clockStep = d.clockStep := rfl
@[simp] theorem modGroup_hot (d : Dev) (g : Nat) (f : Group → Group) : (modGroup d g f).hot = d.hot := rfl
@[simp] theorem modGroup_saveUsed (d : Dev) (g : Nat) (f : Group → Group) : (modGroup d g f).saveUsed = d.saveUsed := rfl
@[simp] theorem modGroup_gatedSpindles (d : Dev) (g : Nat) (f : Group → Group) : (modGroup d g f).gatedSpindles = d.gatedSpindles := rfl
@[simp] theorem modGroup_gatedSlices (d : Dev) (g : Nat) (f : Group → Group) : (modGroup d g f).gatedSlices = d.gatedSlices := rfl

/-! ### `modLaunch` -/

@[simp] theorem modLaunch_ticks (d : Dev) (i : Nat) (f : Launch → Launch) : (modLaunch d i f).ticks = d.ticks := rfl
@[simp] theorem modLaunch_dieCycles (d : Dev) (i : Nat) (f : Launch → Launch) : (modLaunch d i f).dieCycles = d.dieCycles := rfl
@[simp] theorem modLaunch_phase (d : Dev) (i : Nat) (f : Launch → Launch) : (modLaunch d i f).phase = d.phase := rfl
@[simp] theorem modLaunch_held (d : Dev) (i : Nat) (f : Launch → Launch) : (modLaunch d i f).held = d.held := rfl
@[simp] theorem modLaunch_turn (d : Dev) (i : Nat) (f : Launch → Launch) : (modLaunch d i f).turn = d.turn := rfl
@[simp] theorem modLaunch_agenda (d : Dev) (i : Nat) (f : Launch → Launch) : (modLaunch d i f).agenda = d.agenda := rfl
@[simp] theorem modLaunch_timers (d : Dev) (i : Nat) (f : Launch → Launch) : (modLaunch d i f).timers = d.timers := rfl
@[simp] theorem modLaunch_free (d : Dev) (i : Nat) (f : Launch → Launch) : (modLaunch d i f).free = d.free := rfl
@[simp] theorem modLaunch_nextId (d : Dev) (i : Nat) (f : Launch → Launch) : (modLaunch d i f).nextId = d.nextId := rfl
@[simp] theorem modLaunch_cur (d : Dev) (i : Nat) (f : Launch → Launch) : (modLaunch d i f).cur = d.cur := rfl
@[simp] theorem modLaunch_mem (d : Dev) (i : Nat) (f : Launch → Launch) : (modLaunch d i f).mem = d.mem := rfl
@[simp] theorem modLaunch_tags (d : Dev) (i : Nat) (f : Launch → Launch) : (modLaunch d i f).tags = d.tags := rfl
@[simp] theorem modLaunch_forms (d : Dev) (i : Nat) (f : Launch → Launch) : (modLaunch d i f).forms = d.forms := rfl
@[simp] theorem modLaunch_written (d : Dev) (i : Nat) (f : Launch → Launch) : (modLaunch d i f).written = d.written := rfl
@[simp] theorem modLaunch_l1 (d : Dev) (i : Nat) (f : Launch → Launch) : (modLaunch d i f).l1 = d.l1 := rfl
@[simp] theorem modLaunch_tlb (d : Dev) (i : Nat) (f : Launch → Launch) : (modLaunch d i f).tlb = d.tlb := rfl
@[simp] theorem modLaunch_rpPages (d : Dev) (i : Nat) (f : Launch → Launch) : (modLaunch d i f).rpPages = d.rpPages := rfl
@[simp] theorem modLaunch_rpHeld (d : Dev) (i : Nat) (f : Launch → Launch) : (modLaunch d i f).rpHeld = d.rpHeld := rfl
@[simp] theorem modLaunch_dir (d : Dev) (i : Nat) (f : Launch → Launch) : (modLaunch d i f).dir = d.dir := rfl
@[simp] theorem modLaunch_halves (d : Dev) (i : Nat) (f : Launch → Launch) : (modLaunch d i f).halves = d.halves := rfl
@[simp] theorem modLaunch_hostState (d : Dev) (i : Nat) (f : Launch → Launch) : (modLaunch d i f).hostState = d.hostState := rfl
@[simp] theorem modLaunch_snoops (d : Dev) (i : Nat) (f : Launch → Launch) : (modLaunch d i f).snoops = d.snoops := rfl
@[simp] theorem modLaunch_hostReqs (d : Dev) (i : Nat) (f : Launch → Launch) : (modLaunch d i f).hostReqs = d.hostReqs := rfl
@[simp] theorem modLaunch_deferred (d : Dev) (i : Nat) (f : Launch → Launch) : (modLaunch d i f).deferred = d.deferred := rfl
@[simp] theorem modLaunch_locks (d : Dev) (i : Nat) (f : Launch → Launch) : (modLaunch d i f).locks = d.locks := rfl
@[simp] theorem modLaunch_l2pins (d : Dev) (i : Nat) (f : Launch → Launch) : (modLaunch d i f).l2pins = d.l2pins := rfl
@[simp] theorem modLaunch_waiters (d : Dev) (i : Nat) (f : Launch → Launch) : (modLaunch d i f).waiters = d.waiters := rfl
@[simp] theorem modLaunch_launches (d : Dev) (i : Nat) (f : Launch → Launch) : (modLaunch d i f).launches = modWhere (fun x => x.id == i) f d.launches := rfl
@[simp] theorem modLaunch_groups (d : Dev) (i : Nat) (f : Launch → Launch) : (modLaunch d i f).groups = d.groups := rfl
@[simp] theorem modLaunch_skeins (d : Dev) (i : Nat) (f : Launch → Launch) : (modLaunch d i f).skeins = d.skeins := rfl
@[simp] theorem modLaunch_subqs (d : Dev) (i : Nat) (f : Launch → Launch) : (modLaunch d i f).subqs = d.subqs := rfl
@[simp] theorem modLaunch_trigs (d : Dev) (i : Nat) (f : Launch → Launch) : (modLaunch d i f).trigs = d.trigs := rfl
@[simp] theorem modLaunch_runs (d : Dev) (i : Nat) (f : Launch → Launch) : (modLaunch d i f).runs = d.runs := rfl
@[simp] theorem modLaunch_spools (d : Dev) (i : Nat) (f : Launch → Launch) : (modLaunch d i f).spools = d.spools := rfl
@[simp] theorem modLaunch_slots (d : Dev) (i : Nat) (f : Launch → Launch) : (modLaunch d i f).slots = d.slots := rfl
@[simp] theorem modLaunch_waitq (d : Dev) (i : Nat) (f : Launch → Launch) : (modLaunch d i f).waitq = d.waitq := rfl
@[simp] theorem modLaunch_nextSpindle (d : Dev) (i : Nat) (f : Launch → Launch) : (modLaunch d i f).nextSpindle = d.nextSpindle := rfl
@[simp] theorem modLaunch_frameDue (d : Dev) (i : Nat) (f : Launch → Launch) : (modLaunch d i f).frameDue = d.frameDue := rfl
@[simp] theorem modLaunch_quarters (d : Dev) (i : Nat) (f : Launch → Launch) : (modLaunch d i f).quarters = d.quarters := rfl
@[simp] theorem modLaunch_stalled (d : Dev) (i : Nat) (f : Launch → Launch) : (modLaunch d i f).stalled = d.stalled := rfl
@[simp] theorem modLaunch_records (d : Dev) (i : Nat) (f : Launch → Launch) : (modLaunch d i f).records = d.records := rfl
@[simp] theorem modLaunch_irqs (d : Dev) (i : Nat) (f : Launch → Launch) : (modLaunch d i f).irqs = d.irqs := rfl
@[simp] theorem modLaunch_linkErr (d : Dev) (i : Nat) (f : Launch → Launch) : (modLaunch d i f).linkErr = d.linkErr := rfl
@[simp] theorem modLaunch_portUp (d : Dev) (i : Nat) (f : Launch → Launch) : (modLaunch d i f).portUp = d.portUp := rfl
@[simp] theorem modLaunch_portPeer (d : Dev) (i : Nat) (f : Launch → Launch) : (modLaunch d i f).portPeer = d.portPeer := rfl
@[simp] theorem modLaunch_mmcmd (d : Dev) (i : Nat) (f : Launch → Launch) : (modLaunch d i f).mmcmd = d.mmcmd := rfl
@[simp] theorem modLaunch_mmq (d : Dev) (i : Nat) (f : Launch → Launch) : (modLaunch d i f).mmq = d.mmq := rfl
@[simp] theorem modLaunch_outbox (d : Dev) (i : Nat) (f : Launch → Launch) : (modLaunch d i f).outbox = d.outbox := rfl
@[simp] theorem modLaunch_engines (d : Dev) (i : Nat) (f : Launch → Launch) : (modLaunch d i f).engines = d.engines := rfl
@[simp] theorem modLaunch_surfOps (d : Dev) (i : Nat) (f : Launch → Launch) : (modLaunch d i f).surfOps = d.surfOps := rfl
@[simp] theorem modLaunch_scache (d : Dev) (i : Nat) (f : Launch → Launch) : (modLaunch d i f).scache = d.scache := rfl
@[simp] theorem modLaunch_stiles (d : Dev) (i : Nat) (f : Launch → Launch) : (modLaunch d i f).stiles = d.stiles := rfl
@[simp] theorem modLaunch_tilers (d : Dev) (i : Nat) (f : Launch → Launch) : (modLaunch d i f).tilers = d.tilers := rfl
@[simp] theorem modLaunch_dsc (d : Dev) (i : Nat) (f : Launch → Launch) : (modLaunch d i f).dsc = d.dsc := rfl
@[simp] theorem modLaunch_progs (d : Dev) (i : Nat) (f : Launch → Launch) : (modLaunch d i f).progs = d.progs := rfl
@[simp] theorem modLaunch_streams (d : Dev) (i : Nat) (f : Launch → Launch) : (modLaunch d i f).streams = d.streams := rfl
@[simp] theorem modLaunch_streamTab (d : Dev) (i : Nat) (f : Launch → Launch) : (modLaunch d i f).streamTab = d.streamTab := rfl
@[simp] theorem modLaunch_sealOnly (d : Dev) (i : Nat) (f : Launch → Launch) : (modLaunch d i f).sealOnly = d.sealOnly := rfl
@[simp] theorem modLaunch_resetting (d : Dev) (i : Nat) (f : Launch → Launch) : (modLaunch d i f).resetting = d.resetting := rfl
@[simp] theorem modLaunch_stage (d : Dev) (i : Nat) (f : Launch → Launch) : (modLaunch d i f).stage = d.stage := rfl
@[simp] theorem modLaunch_failStage (d : Dev) (i : Nat) (f : Launch → Launch) : (modLaunch d i f).failStage = d.failStage := rfl
@[simp] theorem modLaunch_startNo (d : Dev) (i : Nat) (f : Launch → Launch) : (modLaunch d i f).startNo = d.startNo := rfl
@[simp] theorem modLaunch_startLog (d : Dev) (i : Nat) (f : Launch → Launch) : (modLaunch d i f).startLog = d.startLog := rfl
@[simp] theorem modLaunch_images (d : Dev) (i : Nat) (f : Launch → Launch) : (modLaunch d i f).images = d.images := rfl
@[simp] theorem modLaunch_nextImages (d : Dev) (i : Nat) (f : Launch → Launch) : (modLaunch d i f).nextImages = d.nextImages := rfl
@[simp] theorem modLaunch_stackMask (d : Dev) (i : Nat) (f : Launch → Launch) : (modLaunch d i f).stackMask = d.stackMask := rfl
@[simp] theorem modLaunch_edgeRates (d : Dev) (i : Nat) (f : Launch → Launch) : (modLaunch d i f).edgeRates = d.edgeRates := rfl
@[simp] theorem modLaunch_laneRates (d : Dev) (i : Nat) (f : Launch → Launch) : (modLaunch d i f).laneRates = d.laneRates := rfl
@[simp] theorem modLaunch_saveGb (d : Dev) (i : Nat) (f : Launch → Launch) : (modLaunch d i f).saveGb = d.saveGb := rfl
@[simp] theorem modLaunch_saveMoves (d : Dev) (i : Nat) (f : Launch → Launch) : (modLaunch d i f).saveMoves = d.saveMoves := rfl
@[simp] theorem modLaunch_mbcmd (d : Dev) (i : Nat) (f : Launch → Launch) : (modLaunch d i f).mbcmd = d.mbcmd := rfl
@[simp] theorem modLaunch_mbstat (d : Dev) (i : Nat) (f : Launch → Launch) : (modLaunch d i f).mbstat = d.mbstat := rfl
@[simp] theorem modLaunch_mbdata (d : Dev) (i : Nat) (f : Launch → Launch) : (modLaunch d i f).mbdata = d.mbdata := rfl
@[simp] theorem modLaunch_diecap (d : Dev) (i : Nat) (f : Launch → Launch) : (modLaunch d i f).diecap = d.diecap := rfl
@[simp] theorem modLaunch_clockStep (d : Dev) (i : Nat) (f : Launch → Launch) : (modLaunch d i f).clockStep = d.clockStep := rfl
@[simp] theorem modLaunch_hot (d : Dev) (i : Nat) (f : Launch → Launch) : (modLaunch d i f).hot = d.hot := rfl
@[simp] theorem modLaunch_saveUsed (d : Dev) (i : Nat) (f : Launch → Launch) : (modLaunch d i f).saveUsed = d.saveUsed := rfl
@[simp] theorem modLaunch_gatedSpindles (d : Dev) (i : Nat) (f : Launch → Launch) : (modLaunch d i f).gatedSpindles = d.gatedSpindles := rfl
@[simp] theorem modLaunch_gatedSlices (d : Dev) (i : Nat) (f : Launch → Launch) : (modLaunch d i f).gatedSlices = d.gatedSlices := rfl

/-! ### `post` -/

@[simp] theorem post_ticks (d : Dev) (e : Instr) : (post d e).ticks = d.ticks := rfl
@[simp] theorem post_dieCycles (d : Dev) (e : Instr) : (post d e).dieCycles = d.dieCycles := rfl
@[simp] theorem post_phase (d : Dev) (e : Instr) : (post d e).phase = d.phase := rfl
@[simp] theorem post_held (d : Dev) (e : Instr) : (post d e).held = d.held := rfl
@[simp] theorem post_turn (d : Dev) (e : Instr) : (post d e).turn = d.turn := rfl
@[simp] theorem post_agenda (d : Dev) (e : Instr) : (post d e).agenda = d.agenda ++ [e] := rfl
@[simp] theorem post_timers (d : Dev) (e : Instr) : (post d e).timers = d.timers := rfl
@[simp] theorem post_free (d : Dev) (e : Instr) : (post d e).free = d.free := rfl
@[simp] theorem post_nextId (d : Dev) (e : Instr) : (post d e).nextId = d.nextId := rfl
@[simp] theorem post_cur (d : Dev) (e : Instr) : (post d e).cur = d.cur := rfl
@[simp] theorem post_mem (d : Dev) (e : Instr) : (post d e).mem = d.mem := rfl
@[simp] theorem post_tags (d : Dev) (e : Instr) : (post d e).tags = d.tags := rfl
@[simp] theorem post_forms (d : Dev) (e : Instr) : (post d e).forms = d.forms := rfl
@[simp] theorem post_written (d : Dev) (e : Instr) : (post d e).written = d.written := rfl
@[simp] theorem post_l1 (d : Dev) (e : Instr) : (post d e).l1 = d.l1 := rfl
@[simp] theorem post_tlb (d : Dev) (e : Instr) : (post d e).tlb = d.tlb := rfl
@[simp] theorem post_rpPages (d : Dev) (e : Instr) : (post d e).rpPages = d.rpPages := rfl
@[simp] theorem post_rpHeld (d : Dev) (e : Instr) : (post d e).rpHeld = d.rpHeld := rfl
@[simp] theorem post_dir (d : Dev) (e : Instr) : (post d e).dir = d.dir := rfl
@[simp] theorem post_halves (d : Dev) (e : Instr) : (post d e).halves = d.halves := rfl
@[simp] theorem post_hostState (d : Dev) (e : Instr) : (post d e).hostState = d.hostState := rfl
@[simp] theorem post_snoops (d : Dev) (e : Instr) : (post d e).snoops = d.snoops := rfl
@[simp] theorem post_hostReqs (d : Dev) (e : Instr) : (post d e).hostReqs = d.hostReqs := rfl
@[simp] theorem post_deferred (d : Dev) (e : Instr) : (post d e).deferred = d.deferred := rfl
@[simp] theorem post_locks (d : Dev) (e : Instr) : (post d e).locks = d.locks := rfl
@[simp] theorem post_l2pins (d : Dev) (e : Instr) : (post d e).l2pins = d.l2pins := rfl
@[simp] theorem post_waiters (d : Dev) (e : Instr) : (post d e).waiters = d.waiters := rfl
@[simp] theorem post_launches (d : Dev) (e : Instr) : (post d e).launches = d.launches := rfl
@[simp] theorem post_groups (d : Dev) (e : Instr) : (post d e).groups = d.groups := rfl
@[simp] theorem post_skeins (d : Dev) (e : Instr) : (post d e).skeins = d.skeins := rfl
@[simp] theorem post_subqs (d : Dev) (e : Instr) : (post d e).subqs = d.subqs := rfl
@[simp] theorem post_trigs (d : Dev) (e : Instr) : (post d e).trigs = d.trigs := rfl
@[simp] theorem post_runs (d : Dev) (e : Instr) : (post d e).runs = d.runs := rfl
@[simp] theorem post_spools (d : Dev) (e : Instr) : (post d e).spools = d.spools := rfl
@[simp] theorem post_slots (d : Dev) (e : Instr) : (post d e).slots = d.slots := rfl
@[simp] theorem post_waitq (d : Dev) (e : Instr) : (post d e).waitq = d.waitq := rfl
@[simp] theorem post_nextSpindle (d : Dev) (e : Instr) : (post d e).nextSpindle = d.nextSpindle := rfl
@[simp] theorem post_frameDue (d : Dev) (e : Instr) : (post d e).frameDue = d.frameDue := rfl
@[simp] theorem post_quarters (d : Dev) (e : Instr) : (post d e).quarters = d.quarters := rfl
@[simp] theorem post_stalled (d : Dev) (e : Instr) : (post d e).stalled = d.stalled := rfl
@[simp] theorem post_records (d : Dev) (e : Instr) : (post d e).records = d.records := rfl
@[simp] theorem post_irqs (d : Dev) (e : Instr) : (post d e).irqs = d.irqs := rfl
@[simp] theorem post_linkErr (d : Dev) (e : Instr) : (post d e).linkErr = d.linkErr := rfl
@[simp] theorem post_portUp (d : Dev) (e : Instr) : (post d e).portUp = d.portUp := rfl
@[simp] theorem post_portPeer (d : Dev) (e : Instr) : (post d e).portPeer = d.portPeer := rfl
@[simp] theorem post_mmcmd (d : Dev) (e : Instr) : (post d e).mmcmd = d.mmcmd := rfl
@[simp] theorem post_mmq (d : Dev) (e : Instr) : (post d e).mmq = d.mmq := rfl
@[simp] theorem post_outbox (d : Dev) (e : Instr) : (post d e).outbox = d.outbox := rfl
@[simp] theorem post_engines (d : Dev) (e : Instr) : (post d e).engines = d.engines := rfl
@[simp] theorem post_surfOps (d : Dev) (e : Instr) : (post d e).surfOps = d.surfOps := rfl
@[simp] theorem post_scache (d : Dev) (e : Instr) : (post d e).scache = d.scache := rfl
@[simp] theorem post_stiles (d : Dev) (e : Instr) : (post d e).stiles = d.stiles := rfl
@[simp] theorem post_tilers (d : Dev) (e : Instr) : (post d e).tilers = d.tilers := rfl
@[simp] theorem post_dsc (d : Dev) (e : Instr) : (post d e).dsc = d.dsc := rfl
@[simp] theorem post_progs (d : Dev) (e : Instr) : (post d e).progs = d.progs := rfl
@[simp] theorem post_streams (d : Dev) (e : Instr) : (post d e).streams = d.streams := rfl
@[simp] theorem post_streamTab (d : Dev) (e : Instr) : (post d e).streamTab = d.streamTab := rfl
@[simp] theorem post_sealOnly (d : Dev) (e : Instr) : (post d e).sealOnly = d.sealOnly := rfl
@[simp] theorem post_resetting (d : Dev) (e : Instr) : (post d e).resetting = d.resetting := rfl
@[simp] theorem post_stage (d : Dev) (e : Instr) : (post d e).stage = d.stage := rfl
@[simp] theorem post_failStage (d : Dev) (e : Instr) : (post d e).failStage = d.failStage := rfl
@[simp] theorem post_startNo (d : Dev) (e : Instr) : (post d e).startNo = d.startNo := rfl
@[simp] theorem post_startLog (d : Dev) (e : Instr) : (post d e).startLog = d.startLog := rfl
@[simp] theorem post_images (d : Dev) (e : Instr) : (post d e).images = d.images := rfl
@[simp] theorem post_nextImages (d : Dev) (e : Instr) : (post d e).nextImages = d.nextImages := rfl
@[simp] theorem post_stackMask (d : Dev) (e : Instr) : (post d e).stackMask = d.stackMask := rfl
@[simp] theorem post_edgeRates (d : Dev) (e : Instr) : (post d e).edgeRates = d.edgeRates := rfl
@[simp] theorem post_laneRates (d : Dev) (e : Instr) : (post d e).laneRates = d.laneRates := rfl
@[simp] theorem post_saveGb (d : Dev) (e : Instr) : (post d e).saveGb = d.saveGb := rfl
@[simp] theorem post_saveMoves (d : Dev) (e : Instr) : (post d e).saveMoves = d.saveMoves := rfl
@[simp] theorem post_mbcmd (d : Dev) (e : Instr) : (post d e).mbcmd = d.mbcmd := rfl
@[simp] theorem post_mbstat (d : Dev) (e : Instr) : (post d e).mbstat = d.mbstat := rfl
@[simp] theorem post_mbdata (d : Dev) (e : Instr) : (post d e).mbdata = d.mbdata := rfl
@[simp] theorem post_diecap (d : Dev) (e : Instr) : (post d e).diecap = d.diecap := rfl
@[simp] theorem post_clockStep (d : Dev) (e : Instr) : (post d e).clockStep = d.clockStep := rfl
@[simp] theorem post_hot (d : Dev) (e : Instr) : (post d e).hot = d.hot := rfl
@[simp] theorem post_saveUsed (d : Dev) (e : Instr) : (post d e).saveUsed = d.saveUsed := rfl
@[simp] theorem post_gatedSpindles (d : Dev) (e : Instr) : (post d e).gatedSpindles = d.gatedSpindles := rfl
@[simp] theorem post_gatedSlices (d : Dev) (e : Instr) : (post d e).gatedSlices = d.gatedSlices := rfl

/-! ### `postAll` -/

@[simp] theorem postAll_ticks (d : Dev) (es : List Instr) : (postAll d es).ticks = d.ticks := rfl
@[simp] theorem postAll_dieCycles (d : Dev) (es : List Instr) : (postAll d es).dieCycles = d.dieCycles := rfl
@[simp] theorem postAll_phase (d : Dev) (es : List Instr) : (postAll d es).phase = d.phase := rfl
@[simp] theorem postAll_held (d : Dev) (es : List Instr) : (postAll d es).held = d.held := rfl
@[simp] theorem postAll_turn (d : Dev) (es : List Instr) : (postAll d es).turn = d.turn := rfl
@[simp] theorem postAll_agenda (d : Dev) (es : List Instr) : (postAll d es).agenda = d.agenda ++ es := rfl
@[simp] theorem postAll_timers (d : Dev) (es : List Instr) : (postAll d es).timers = d.timers := rfl
@[simp] theorem postAll_free (d : Dev) (es : List Instr) : (postAll d es).free = d.free := rfl
@[simp] theorem postAll_nextId (d : Dev) (es : List Instr) : (postAll d es).nextId = d.nextId := rfl
@[simp] theorem postAll_cur (d : Dev) (es : List Instr) : (postAll d es).cur = d.cur := rfl
@[simp] theorem postAll_mem (d : Dev) (es : List Instr) : (postAll d es).mem = d.mem := rfl
@[simp] theorem postAll_tags (d : Dev) (es : List Instr) : (postAll d es).tags = d.tags := rfl
@[simp] theorem postAll_forms (d : Dev) (es : List Instr) : (postAll d es).forms = d.forms := rfl
@[simp] theorem postAll_written (d : Dev) (es : List Instr) : (postAll d es).written = d.written := rfl
@[simp] theorem postAll_l1 (d : Dev) (es : List Instr) : (postAll d es).l1 = d.l1 := rfl
@[simp] theorem postAll_tlb (d : Dev) (es : List Instr) : (postAll d es).tlb = d.tlb := rfl
@[simp] theorem postAll_rpPages (d : Dev) (es : List Instr) : (postAll d es).rpPages = d.rpPages := rfl
@[simp] theorem postAll_rpHeld (d : Dev) (es : List Instr) : (postAll d es).rpHeld = d.rpHeld := rfl
@[simp] theorem postAll_dir (d : Dev) (es : List Instr) : (postAll d es).dir = d.dir := rfl
@[simp] theorem postAll_halves (d : Dev) (es : List Instr) : (postAll d es).halves = d.halves := rfl
@[simp] theorem postAll_hostState (d : Dev) (es : List Instr) : (postAll d es).hostState = d.hostState := rfl
@[simp] theorem postAll_snoops (d : Dev) (es : List Instr) : (postAll d es).snoops = d.snoops := rfl
@[simp] theorem postAll_hostReqs (d : Dev) (es : List Instr) : (postAll d es).hostReqs = d.hostReqs := rfl
@[simp] theorem postAll_deferred (d : Dev) (es : List Instr) : (postAll d es).deferred = d.deferred := rfl
@[simp] theorem postAll_locks (d : Dev) (es : List Instr) : (postAll d es).locks = d.locks := rfl
@[simp] theorem postAll_l2pins (d : Dev) (es : List Instr) : (postAll d es).l2pins = d.l2pins := rfl
@[simp] theorem postAll_waiters (d : Dev) (es : List Instr) : (postAll d es).waiters = d.waiters := rfl
@[simp] theorem postAll_launches (d : Dev) (es : List Instr) : (postAll d es).launches = d.launches := rfl
@[simp] theorem postAll_groups (d : Dev) (es : List Instr) : (postAll d es).groups = d.groups := rfl
@[simp] theorem postAll_skeins (d : Dev) (es : List Instr) : (postAll d es).skeins = d.skeins := rfl
@[simp] theorem postAll_subqs (d : Dev) (es : List Instr) : (postAll d es).subqs = d.subqs := rfl
@[simp] theorem postAll_trigs (d : Dev) (es : List Instr) : (postAll d es).trigs = d.trigs := rfl
@[simp] theorem postAll_runs (d : Dev) (es : List Instr) : (postAll d es).runs = d.runs := rfl
@[simp] theorem postAll_spools (d : Dev) (es : List Instr) : (postAll d es).spools = d.spools := rfl
@[simp] theorem postAll_slots (d : Dev) (es : List Instr) : (postAll d es).slots = d.slots := rfl
@[simp] theorem postAll_waitq (d : Dev) (es : List Instr) : (postAll d es).waitq = d.waitq := rfl
@[simp] theorem postAll_nextSpindle (d : Dev) (es : List Instr) : (postAll d es).nextSpindle = d.nextSpindle := rfl
@[simp] theorem postAll_frameDue (d : Dev) (es : List Instr) : (postAll d es).frameDue = d.frameDue := rfl
@[simp] theorem postAll_quarters (d : Dev) (es : List Instr) : (postAll d es).quarters = d.quarters := rfl
@[simp] theorem postAll_stalled (d : Dev) (es : List Instr) : (postAll d es).stalled = d.stalled := rfl
@[simp] theorem postAll_records (d : Dev) (es : List Instr) : (postAll d es).records = d.records := rfl
@[simp] theorem postAll_irqs (d : Dev) (es : List Instr) : (postAll d es).irqs = d.irqs := rfl
@[simp] theorem postAll_linkErr (d : Dev) (es : List Instr) : (postAll d es).linkErr = d.linkErr := rfl
@[simp] theorem postAll_portUp (d : Dev) (es : List Instr) : (postAll d es).portUp = d.portUp := rfl
@[simp] theorem postAll_portPeer (d : Dev) (es : List Instr) : (postAll d es).portPeer = d.portPeer := rfl
@[simp] theorem postAll_mmcmd (d : Dev) (es : List Instr) : (postAll d es).mmcmd = d.mmcmd := rfl
@[simp] theorem postAll_mmq (d : Dev) (es : List Instr) : (postAll d es).mmq = d.mmq := rfl
@[simp] theorem postAll_outbox (d : Dev) (es : List Instr) : (postAll d es).outbox = d.outbox := rfl
@[simp] theorem postAll_engines (d : Dev) (es : List Instr) : (postAll d es).engines = d.engines := rfl
@[simp] theorem postAll_surfOps (d : Dev) (es : List Instr) : (postAll d es).surfOps = d.surfOps := rfl
@[simp] theorem postAll_scache (d : Dev) (es : List Instr) : (postAll d es).scache = d.scache := rfl
@[simp] theorem postAll_stiles (d : Dev) (es : List Instr) : (postAll d es).stiles = d.stiles := rfl
@[simp] theorem postAll_tilers (d : Dev) (es : List Instr) : (postAll d es).tilers = d.tilers := rfl
@[simp] theorem postAll_dsc (d : Dev) (es : List Instr) : (postAll d es).dsc = d.dsc := rfl
@[simp] theorem postAll_progs (d : Dev) (es : List Instr) : (postAll d es).progs = d.progs := rfl
@[simp] theorem postAll_streams (d : Dev) (es : List Instr) : (postAll d es).streams = d.streams := rfl
@[simp] theorem postAll_streamTab (d : Dev) (es : List Instr) : (postAll d es).streamTab = d.streamTab := rfl
@[simp] theorem postAll_sealOnly (d : Dev) (es : List Instr) : (postAll d es).sealOnly = d.sealOnly := rfl
@[simp] theorem postAll_resetting (d : Dev) (es : List Instr) : (postAll d es).resetting = d.resetting := rfl
@[simp] theorem postAll_stage (d : Dev) (es : List Instr) : (postAll d es).stage = d.stage := rfl
@[simp] theorem postAll_failStage (d : Dev) (es : List Instr) : (postAll d es).failStage = d.failStage := rfl
@[simp] theorem postAll_startNo (d : Dev) (es : List Instr) : (postAll d es).startNo = d.startNo := rfl
@[simp] theorem postAll_startLog (d : Dev) (es : List Instr) : (postAll d es).startLog = d.startLog := rfl
@[simp] theorem postAll_images (d : Dev) (es : List Instr) : (postAll d es).images = d.images := rfl
@[simp] theorem postAll_nextImages (d : Dev) (es : List Instr) : (postAll d es).nextImages = d.nextImages := rfl
@[simp] theorem postAll_stackMask (d : Dev) (es : List Instr) : (postAll d es).stackMask = d.stackMask := rfl
@[simp] theorem postAll_edgeRates (d : Dev) (es : List Instr) : (postAll d es).edgeRates = d.edgeRates := rfl
@[simp] theorem postAll_laneRates (d : Dev) (es : List Instr) : (postAll d es).laneRates = d.laneRates := rfl
@[simp] theorem postAll_saveGb (d : Dev) (es : List Instr) : (postAll d es).saveGb = d.saveGb := rfl
@[simp] theorem postAll_saveMoves (d : Dev) (es : List Instr) : (postAll d es).saveMoves = d.saveMoves := rfl
@[simp] theorem postAll_mbcmd (d : Dev) (es : List Instr) : (postAll d es).mbcmd = d.mbcmd := rfl
@[simp] theorem postAll_mbstat (d : Dev) (es : List Instr) : (postAll d es).mbstat = d.mbstat := rfl
@[simp] theorem postAll_mbdata (d : Dev) (es : List Instr) : (postAll d es).mbdata = d.mbdata := rfl
@[simp] theorem postAll_diecap (d : Dev) (es : List Instr) : (postAll d es).diecap = d.diecap := rfl
@[simp] theorem postAll_clockStep (d : Dev) (es : List Instr) : (postAll d es).clockStep = d.clockStep := rfl
@[simp] theorem postAll_hot (d : Dev) (es : List Instr) : (postAll d es).hot = d.hot := rfl
@[simp] theorem postAll_saveUsed (d : Dev) (es : List Instr) : (postAll d es).saveUsed = d.saveUsed := rfl
@[simp] theorem postAll_gatedSpindles (d : Dev) (es : List Instr) : (postAll d es).gatedSpindles = d.gatedSpindles := rfl
@[simp] theorem postAll_gatedSlices (d : Dev) (es : List Instr) : (postAll d es).gatedSlices = d.gatedSlices := rfl

/-! ### `postAfter` -/

@[simp] theorem postAfter_ticks (d : Dev) (c : Clock) (n : Nat) (e : Instr) : (postAfter d c n e).ticks = d.ticks := rfl
@[simp] theorem postAfter_dieCycles (d : Dev) (c : Clock) (n : Nat) (e : Instr) : (postAfter d c n e).dieCycles = d.dieCycles := rfl
@[simp] theorem postAfter_phase (d : Dev) (c : Clock) (n : Nat) (e : Instr) : (postAfter d c n e).phase = d.phase := rfl
@[simp] theorem postAfter_held (d : Dev) (c : Clock) (n : Nat) (e : Instr) : (postAfter d c n e).held = d.held := rfl
@[simp] theorem postAfter_turn (d : Dev) (c : Clock) (n : Nat) (e : Instr) : (postAfter d c n e).turn = d.turn := rfl
@[simp] theorem postAfter_agenda (d : Dev) (c : Clock) (n : Nat) (e : Instr) : (postAfter d c n e).agenda = d.agenda := rfl
@[simp] theorem postAfter_timers (d : Dev) (c : Clock) (n : Nat) (e : Instr) : (postAfter d c n e).timers = d.timers ++ [{ clock := c, due := clockNow d c + n, ev := e }] := rfl
@[simp] theorem postAfter_free (d : Dev) (c : Clock) (n : Nat) (e : Instr) : (postAfter d c n e).free = d.free := rfl
@[simp] theorem postAfter_nextId (d : Dev) (c : Clock) (n : Nat) (e : Instr) : (postAfter d c n e).nextId = d.nextId := rfl
@[simp] theorem postAfter_cur (d : Dev) (c : Clock) (n : Nat) (e : Instr) : (postAfter d c n e).cur = d.cur := rfl
@[simp] theorem postAfter_mem (d : Dev) (c : Clock) (n : Nat) (e : Instr) : (postAfter d c n e).mem = d.mem := rfl
@[simp] theorem postAfter_tags (d : Dev) (c : Clock) (n : Nat) (e : Instr) : (postAfter d c n e).tags = d.tags := rfl
@[simp] theorem postAfter_forms (d : Dev) (c : Clock) (n : Nat) (e : Instr) : (postAfter d c n e).forms = d.forms := rfl
@[simp] theorem postAfter_written (d : Dev) (c : Clock) (n : Nat) (e : Instr) : (postAfter d c n e).written = d.written := rfl
@[simp] theorem postAfter_l1 (d : Dev) (c : Clock) (n : Nat) (e : Instr) : (postAfter d c n e).l1 = d.l1 := rfl
@[simp] theorem postAfter_tlb (d : Dev) (c : Clock) (n : Nat) (e : Instr) : (postAfter d c n e).tlb = d.tlb := rfl
@[simp] theorem postAfter_rpPages (d : Dev) (c : Clock) (n : Nat) (e : Instr) : (postAfter d c n e).rpPages = d.rpPages := rfl
@[simp] theorem postAfter_rpHeld (d : Dev) (c : Clock) (n : Nat) (e : Instr) : (postAfter d c n e).rpHeld = d.rpHeld := rfl
@[simp] theorem postAfter_dir (d : Dev) (c : Clock) (n : Nat) (e : Instr) : (postAfter d c n e).dir = d.dir := rfl
@[simp] theorem postAfter_halves (d : Dev) (c : Clock) (n : Nat) (e : Instr) : (postAfter d c n e).halves = d.halves := rfl
@[simp] theorem postAfter_hostState (d : Dev) (c : Clock) (n : Nat) (e : Instr) : (postAfter d c n e).hostState = d.hostState := rfl
@[simp] theorem postAfter_snoops (d : Dev) (c : Clock) (n : Nat) (e : Instr) : (postAfter d c n e).snoops = d.snoops := rfl
@[simp] theorem postAfter_hostReqs (d : Dev) (c : Clock) (n : Nat) (e : Instr) : (postAfter d c n e).hostReqs = d.hostReqs := rfl
@[simp] theorem postAfter_deferred (d : Dev) (c : Clock) (n : Nat) (e : Instr) : (postAfter d c n e).deferred = d.deferred := rfl
@[simp] theorem postAfter_locks (d : Dev) (c : Clock) (n : Nat) (e : Instr) : (postAfter d c n e).locks = d.locks := rfl
@[simp] theorem postAfter_l2pins (d : Dev) (c : Clock) (n : Nat) (e : Instr) : (postAfter d c n e).l2pins = d.l2pins := rfl
@[simp] theorem postAfter_waiters (d : Dev) (c : Clock) (n : Nat) (e : Instr) : (postAfter d c n e).waiters = d.waiters := rfl
@[simp] theorem postAfter_launches (d : Dev) (c : Clock) (n : Nat) (e : Instr) : (postAfter d c n e).launches = d.launches := rfl
@[simp] theorem postAfter_groups (d : Dev) (c : Clock) (n : Nat) (e : Instr) : (postAfter d c n e).groups = d.groups := rfl
@[simp] theorem postAfter_skeins (d : Dev) (c : Clock) (n : Nat) (e : Instr) : (postAfter d c n e).skeins = d.skeins := rfl
@[simp] theorem postAfter_subqs (d : Dev) (c : Clock) (n : Nat) (e : Instr) : (postAfter d c n e).subqs = d.subqs := rfl
@[simp] theorem postAfter_trigs (d : Dev) (c : Clock) (n : Nat) (e : Instr) : (postAfter d c n e).trigs = d.trigs := rfl
@[simp] theorem postAfter_runs (d : Dev) (c : Clock) (n : Nat) (e : Instr) : (postAfter d c n e).runs = d.runs := rfl
@[simp] theorem postAfter_spools (d : Dev) (c : Clock) (n : Nat) (e : Instr) : (postAfter d c n e).spools = d.spools := rfl
@[simp] theorem postAfter_slots (d : Dev) (c : Clock) (n : Nat) (e : Instr) : (postAfter d c n e).slots = d.slots := rfl
@[simp] theorem postAfter_waitq (d : Dev) (c : Clock) (n : Nat) (e : Instr) : (postAfter d c n e).waitq = d.waitq := rfl
@[simp] theorem postAfter_nextSpindle (d : Dev) (c : Clock) (n : Nat) (e : Instr) : (postAfter d c n e).nextSpindle = d.nextSpindle := rfl
@[simp] theorem postAfter_frameDue (d : Dev) (c : Clock) (n : Nat) (e : Instr) : (postAfter d c n e).frameDue = d.frameDue := rfl
@[simp] theorem postAfter_quarters (d : Dev) (c : Clock) (n : Nat) (e : Instr) : (postAfter d c n e).quarters = d.quarters := rfl
@[simp] theorem postAfter_stalled (d : Dev) (c : Clock) (n : Nat) (e : Instr) : (postAfter d c n e).stalled = d.stalled := rfl
@[simp] theorem postAfter_records (d : Dev) (c : Clock) (n : Nat) (e : Instr) : (postAfter d c n e).records = d.records := rfl
@[simp] theorem postAfter_irqs (d : Dev) (c : Clock) (n : Nat) (e : Instr) : (postAfter d c n e).irqs = d.irqs := rfl
@[simp] theorem postAfter_linkErr (d : Dev) (c : Clock) (n : Nat) (e : Instr) : (postAfter d c n e).linkErr = d.linkErr := rfl
@[simp] theorem postAfter_portUp (d : Dev) (c : Clock) (n : Nat) (e : Instr) : (postAfter d c n e).portUp = d.portUp := rfl
@[simp] theorem postAfter_portPeer (d : Dev) (c : Clock) (n : Nat) (e : Instr) : (postAfter d c n e).portPeer = d.portPeer := rfl
@[simp] theorem postAfter_mmcmd (d : Dev) (c : Clock) (n : Nat) (e : Instr) : (postAfter d c n e).mmcmd = d.mmcmd := rfl
@[simp] theorem postAfter_mmq (d : Dev) (c : Clock) (n : Nat) (e : Instr) : (postAfter d c n e).mmq = d.mmq := rfl
@[simp] theorem postAfter_outbox (d : Dev) (c : Clock) (n : Nat) (e : Instr) : (postAfter d c n e).outbox = d.outbox := rfl
@[simp] theorem postAfter_engines (d : Dev) (c : Clock) (n : Nat) (e : Instr) : (postAfter d c n e).engines = d.engines := rfl
@[simp] theorem postAfter_surfOps (d : Dev) (c : Clock) (n : Nat) (e : Instr) : (postAfter d c n e).surfOps = d.surfOps := rfl
@[simp] theorem postAfter_scache (d : Dev) (c : Clock) (n : Nat) (e : Instr) : (postAfter d c n e).scache = d.scache := rfl
@[simp] theorem postAfter_stiles (d : Dev) (c : Clock) (n : Nat) (e : Instr) : (postAfter d c n e).stiles = d.stiles := rfl
@[simp] theorem postAfter_tilers (d : Dev) (c : Clock) (n : Nat) (e : Instr) : (postAfter d c n e).tilers = d.tilers := rfl
@[simp] theorem postAfter_dsc (d : Dev) (c : Clock) (n : Nat) (e : Instr) : (postAfter d c n e).dsc = d.dsc := rfl
@[simp] theorem postAfter_progs (d : Dev) (c : Clock) (n : Nat) (e : Instr) : (postAfter d c n e).progs = d.progs := rfl
@[simp] theorem postAfter_streams (d : Dev) (c : Clock) (n : Nat) (e : Instr) : (postAfter d c n e).streams = d.streams := rfl
@[simp] theorem postAfter_streamTab (d : Dev) (c : Clock) (n : Nat) (e : Instr) : (postAfter d c n e).streamTab = d.streamTab := rfl
@[simp] theorem postAfter_sealOnly (d : Dev) (c : Clock) (n : Nat) (e : Instr) : (postAfter d c n e).sealOnly = d.sealOnly := rfl
@[simp] theorem postAfter_resetting (d : Dev) (c : Clock) (n : Nat) (e : Instr) : (postAfter d c n e).resetting = d.resetting := rfl
@[simp] theorem postAfter_stage (d : Dev) (c : Clock) (n : Nat) (e : Instr) : (postAfter d c n e).stage = d.stage := rfl
@[simp] theorem postAfter_failStage (d : Dev) (c : Clock) (n : Nat) (e : Instr) : (postAfter d c n e).failStage = d.failStage := rfl
@[simp] theorem postAfter_startNo (d : Dev) (c : Clock) (n : Nat) (e : Instr) : (postAfter d c n e).startNo = d.startNo := rfl
@[simp] theorem postAfter_startLog (d : Dev) (c : Clock) (n : Nat) (e : Instr) : (postAfter d c n e).startLog = d.startLog := rfl
@[simp] theorem postAfter_images (d : Dev) (c : Clock) (n : Nat) (e : Instr) : (postAfter d c n e).images = d.images := rfl
@[simp] theorem postAfter_nextImages (d : Dev) (c : Clock) (n : Nat) (e : Instr) : (postAfter d c n e).nextImages = d.nextImages := rfl
@[simp] theorem postAfter_stackMask (d : Dev) (c : Clock) (n : Nat) (e : Instr) : (postAfter d c n e).stackMask = d.stackMask := rfl
@[simp] theorem postAfter_edgeRates (d : Dev) (c : Clock) (n : Nat) (e : Instr) : (postAfter d c n e).edgeRates = d.edgeRates := rfl
@[simp] theorem postAfter_laneRates (d : Dev) (c : Clock) (n : Nat) (e : Instr) : (postAfter d c n e).laneRates = d.laneRates := rfl
@[simp] theorem postAfter_saveGb (d : Dev) (c : Clock) (n : Nat) (e : Instr) : (postAfter d c n e).saveGb = d.saveGb := rfl
@[simp] theorem postAfter_saveMoves (d : Dev) (c : Clock) (n : Nat) (e : Instr) : (postAfter d c n e).saveMoves = d.saveMoves := rfl
@[simp] theorem postAfter_mbcmd (d : Dev) (c : Clock) (n : Nat) (e : Instr) : (postAfter d c n e).mbcmd = d.mbcmd := rfl
@[simp] theorem postAfter_mbstat (d : Dev) (c : Clock) (n : Nat) (e : Instr) : (postAfter d c n e).mbstat = d.mbstat := rfl
@[simp] theorem postAfter_mbdata (d : Dev) (c : Clock) (n : Nat) (e : Instr) : (postAfter d c n e).mbdata = d.mbdata := rfl
@[simp] theorem postAfter_diecap (d : Dev) (c : Clock) (n : Nat) (e : Instr) : (postAfter d c n e).diecap = d.diecap := rfl
@[simp] theorem postAfter_clockStep (d : Dev) (c : Clock) (n : Nat) (e : Instr) : (postAfter d c n e).clockStep = d.clockStep := rfl
@[simp] theorem postAfter_hot (d : Dev) (c : Clock) (n : Nat) (e : Instr) : (postAfter d c n e).hot = d.hot := rfl
@[simp] theorem postAfter_saveUsed (d : Dev) (c : Clock) (n : Nat) (e : Instr) : (postAfter d c n e).saveUsed = d.saveUsed := rfl
@[simp] theorem postAfter_gatedSpindles (d : Dev) (c : Clock) (n : Nat) (e : Instr) : (postAfter d c n e).gatedSpindles = d.gatedSpindles := rfl
@[simp] theorem postAfter_gatedSlices (d : Dev) (c : Clock) (n : Nat) (e : Instr) : (postAfter d c n e).gatedSlices = d.gatedSlices := rfl

/-! ### `interrupt` -/

@[simp] theorem interrupt_ticks (d : Dev) (e : Nat) : (interrupt d e).ticks = d.ticks := rfl
@[simp] theorem interrupt_dieCycles (d : Dev) (e : Nat) : (interrupt d e).dieCycles = d.dieCycles := rfl
@[simp] theorem interrupt_phase (d : Dev) (e : Nat) : (interrupt d e).phase = d.phase := rfl
@[simp] theorem interrupt_held (d : Dev) (e : Nat) : (interrupt d e).held = d.held := rfl
@[simp] theorem interrupt_turn (d : Dev) (e : Nat) : (interrupt d e).turn = d.turn := rfl
@[simp] theorem interrupt_agenda (d : Dev) (e : Nat) : (interrupt d e).agenda = d.agenda := rfl
@[simp] theorem interrupt_timers (d : Dev) (e : Nat) : (interrupt d e).timers = d.timers := rfl
@[simp] theorem interrupt_free (d : Dev) (e : Nat) : (interrupt d e).free = d.free := rfl
@[simp] theorem interrupt_nextId (d : Dev) (e : Nat) : (interrupt d e).nextId = d.nextId := rfl
@[simp] theorem interrupt_cur (d : Dev) (e : Nat) : (interrupt d e).cur = d.cur := rfl
@[simp] theorem interrupt_mem (d : Dev) (e : Nat) : (interrupt d e).mem = d.mem := rfl
@[simp] theorem interrupt_tags (d : Dev) (e : Nat) : (interrupt d e).tags = d.tags := rfl
@[simp] theorem interrupt_forms (d : Dev) (e : Nat) : (interrupt d e).forms = d.forms := rfl
@[simp] theorem interrupt_written (d : Dev) (e : Nat) : (interrupt d e).written = d.written := rfl
@[simp] theorem interrupt_l1 (d : Dev) (e : Nat) : (interrupt d e).l1 = d.l1 := rfl
@[simp] theorem interrupt_tlb (d : Dev) (e : Nat) : (interrupt d e).tlb = d.tlb := rfl
@[simp] theorem interrupt_rpPages (d : Dev) (e : Nat) : (interrupt d e).rpPages = d.rpPages := rfl
@[simp] theorem interrupt_rpHeld (d : Dev) (e : Nat) : (interrupt d e).rpHeld = d.rpHeld := rfl
@[simp] theorem interrupt_dir (d : Dev) (e : Nat) : (interrupt d e).dir = d.dir := rfl
@[simp] theorem interrupt_halves (d : Dev) (e : Nat) : (interrupt d e).halves = d.halves := rfl
@[simp] theorem interrupt_hostState (d : Dev) (e : Nat) : (interrupt d e).hostState = d.hostState := rfl
@[simp] theorem interrupt_snoops (d : Dev) (e : Nat) : (interrupt d e).snoops = d.snoops := rfl
@[simp] theorem interrupt_hostReqs (d : Dev) (e : Nat) : (interrupt d e).hostReqs = d.hostReqs := rfl
@[simp] theorem interrupt_deferred (d : Dev) (e : Nat) : (interrupt d e).deferred = d.deferred := rfl
@[simp] theorem interrupt_locks (d : Dev) (e : Nat) : (interrupt d e).locks = d.locks := rfl
@[simp] theorem interrupt_l2pins (d : Dev) (e : Nat) : (interrupt d e).l2pins = d.l2pins := rfl
@[simp] theorem interrupt_waiters (d : Dev) (e : Nat) : (interrupt d e).waiters = d.waiters := rfl
@[simp] theorem interrupt_launches (d : Dev) (e : Nat) : (interrupt d e).launches = d.launches := rfl
@[simp] theorem interrupt_groups (d : Dev) (e : Nat) : (interrupt d e).groups = d.groups := rfl
@[simp] theorem interrupt_skeins (d : Dev) (e : Nat) : (interrupt d e).skeins = d.skeins := rfl
@[simp] theorem interrupt_subqs (d : Dev) (e : Nat) : (interrupt d e).subqs = d.subqs := rfl
@[simp] theorem interrupt_trigs (d : Dev) (e : Nat) : (interrupt d e).trigs = d.trigs := rfl
@[simp] theorem interrupt_runs (d : Dev) (e : Nat) : (interrupt d e).runs = d.runs := rfl
@[simp] theorem interrupt_spools (d : Dev) (e : Nat) : (interrupt d e).spools = d.spools := rfl
@[simp] theorem interrupt_slots (d : Dev) (e : Nat) : (interrupt d e).slots = d.slots := rfl
@[simp] theorem interrupt_waitq (d : Dev) (e : Nat) : (interrupt d e).waitq = d.waitq := rfl
@[simp] theorem interrupt_nextSpindle (d : Dev) (e : Nat) : (interrupt d e).nextSpindle = d.nextSpindle := rfl
@[simp] theorem interrupt_frameDue (d : Dev) (e : Nat) : (interrupt d e).frameDue = d.frameDue := rfl
@[simp] theorem interrupt_quarters (d : Dev) (e : Nat) : (interrupt d e).quarters = d.quarters := rfl
@[simp] theorem interrupt_stalled (d : Dev) (e : Nat) : (interrupt d e).stalled = d.stalled := rfl
@[simp] theorem interrupt_records (d : Dev) (e : Nat) : (interrupt d e).records = d.records := rfl
@[simp] theorem interrupt_irqs (d : Dev) (e : Nat) : (interrupt d e).irqs = d.irqs ++ [e] := rfl
@[simp] theorem interrupt_linkErr (d : Dev) (e : Nat) : (interrupt d e).linkErr = d.linkErr := rfl
@[simp] theorem interrupt_portUp (d : Dev) (e : Nat) : (interrupt d e).portUp = d.portUp := rfl
@[simp] theorem interrupt_portPeer (d : Dev) (e : Nat) : (interrupt d e).portPeer = d.portPeer := rfl
@[simp] theorem interrupt_mmcmd (d : Dev) (e : Nat) : (interrupt d e).mmcmd = d.mmcmd := rfl
@[simp] theorem interrupt_mmq (d : Dev) (e : Nat) : (interrupt d e).mmq = d.mmq := rfl
@[simp] theorem interrupt_outbox (d : Dev) (e : Nat) : (interrupt d e).outbox = d.outbox := rfl
@[simp] theorem interrupt_engines (d : Dev) (e : Nat) : (interrupt d e).engines = d.engines := rfl
@[simp] theorem interrupt_surfOps (d : Dev) (e : Nat) : (interrupt d e).surfOps = d.surfOps := rfl
@[simp] theorem interrupt_scache (d : Dev) (e : Nat) : (interrupt d e).scache = d.scache := rfl
@[simp] theorem interrupt_stiles (d : Dev) (e : Nat) : (interrupt d e).stiles = d.stiles := rfl
@[simp] theorem interrupt_tilers (d : Dev) (e : Nat) : (interrupt d e).tilers = d.tilers := rfl
@[simp] theorem interrupt_dsc (d : Dev) (e : Nat) : (interrupt d e).dsc = d.dsc := rfl
@[simp] theorem interrupt_progs (d : Dev) (e : Nat) : (interrupt d e).progs = d.progs := rfl
@[simp] theorem interrupt_streams (d : Dev) (e : Nat) : (interrupt d e).streams = d.streams := rfl
@[simp] theorem interrupt_streamTab (d : Dev) (e : Nat) : (interrupt d e).streamTab = d.streamTab := rfl
@[simp] theorem interrupt_sealOnly (d : Dev) (e : Nat) : (interrupt d e).sealOnly = d.sealOnly := rfl
@[simp] theorem interrupt_resetting (d : Dev) (e : Nat) : (interrupt d e).resetting = d.resetting := rfl
@[simp] theorem interrupt_stage (d : Dev) (e : Nat) : (interrupt d e).stage = d.stage := rfl
@[simp] theorem interrupt_failStage (d : Dev) (e : Nat) : (interrupt d e).failStage = d.failStage := rfl
@[simp] theorem interrupt_startNo (d : Dev) (e : Nat) : (interrupt d e).startNo = d.startNo := rfl
@[simp] theorem interrupt_startLog (d : Dev) (e : Nat) : (interrupt d e).startLog = d.startLog := rfl
@[simp] theorem interrupt_images (d : Dev) (e : Nat) : (interrupt d e).images = d.images := rfl
@[simp] theorem interrupt_nextImages (d : Dev) (e : Nat) : (interrupt d e).nextImages = d.nextImages := rfl
@[simp] theorem interrupt_stackMask (d : Dev) (e : Nat) : (interrupt d e).stackMask = d.stackMask := rfl
@[simp] theorem interrupt_edgeRates (d : Dev) (e : Nat) : (interrupt d e).edgeRates = d.edgeRates := rfl
@[simp] theorem interrupt_laneRates (d : Dev) (e : Nat) : (interrupt d e).laneRates = d.laneRates := rfl
@[simp] theorem interrupt_saveGb (d : Dev) (e : Nat) : (interrupt d e).saveGb = d.saveGb := rfl
@[simp] theorem interrupt_saveMoves (d : Dev) (e : Nat) : (interrupt d e).saveMoves = d.saveMoves := rfl
@[simp] theorem interrupt_mbcmd (d : Dev) (e : Nat) : (interrupt d e).mbcmd = d.mbcmd := rfl
@[simp] theorem interrupt_mbstat (d : Dev) (e : Nat) : (interrupt d e).mbstat = d.mbstat := rfl
@[simp] theorem interrupt_mbdata (d : Dev) (e : Nat) : (interrupt d e).mbdata = d.mbdata := rfl
@[simp] theorem interrupt_diecap (d : Dev) (e : Nat) : (interrupt d e).diecap = d.diecap := rfl
@[simp] theorem interrupt_clockStep (d : Dev) (e : Nat) : (interrupt d e).clockStep = d.clockStep := rfl
@[simp] theorem interrupt_hot (d : Dev) (e : Nat) : (interrupt d e).hot = d.hot := rfl
@[simp] theorem interrupt_saveUsed (d : Dev) (e : Nat) : (interrupt d e).saveUsed = d.saveUsed := rfl
@[simp] theorem interrupt_gatedSpindles (d : Dev) (e : Nat) : (interrupt d e).gatedSpindles = d.gatedSpindles := rfl
@[simp] theorem interrupt_gatedSlices (d : Dev) (e : Nat) : (interrupt d e).gatedSlices = d.gatedSlices := rfl

/-! ### `countLinkErr` -/

@[simp] theorem countLinkErr_ticks (d : Dev) : (countLinkErr d).ticks = d.ticks := rfl
@[simp] theorem countLinkErr_dieCycles (d : Dev) : (countLinkErr d).dieCycles = d.dieCycles := rfl
@[simp] theorem countLinkErr_phase (d : Dev) : (countLinkErr d).phase = d.phase := rfl
@[simp] theorem countLinkErr_held (d : Dev) : (countLinkErr d).held = d.held := rfl
@[simp] theorem countLinkErr_turn (d : Dev) : (countLinkErr d).turn = d.turn := rfl
@[simp] theorem countLinkErr_agenda (d : Dev) : (countLinkErr d).agenda = d.agenda := rfl
@[simp] theorem countLinkErr_timers (d : Dev) : (countLinkErr d).timers = d.timers := rfl
@[simp] theorem countLinkErr_free (d : Dev) : (countLinkErr d).free = d.free := rfl
@[simp] theorem countLinkErr_nextId (d : Dev) : (countLinkErr d).nextId = d.nextId := rfl
@[simp] theorem countLinkErr_cur (d : Dev) : (countLinkErr d).cur = d.cur := rfl
@[simp] theorem countLinkErr_mem (d : Dev) : (countLinkErr d).mem = d.mem := rfl
@[simp] theorem countLinkErr_tags (d : Dev) : (countLinkErr d).tags = d.tags := rfl
@[simp] theorem countLinkErr_forms (d : Dev) : (countLinkErr d).forms = d.forms := rfl
@[simp] theorem countLinkErr_written (d : Dev) : (countLinkErr d).written = d.written := rfl
@[simp] theorem countLinkErr_l1 (d : Dev) : (countLinkErr d).l1 = d.l1 := rfl
@[simp] theorem countLinkErr_tlb (d : Dev) : (countLinkErr d).tlb = d.tlb := rfl
@[simp] theorem countLinkErr_rpPages (d : Dev) : (countLinkErr d).rpPages = d.rpPages := rfl
@[simp] theorem countLinkErr_rpHeld (d : Dev) : (countLinkErr d).rpHeld = d.rpHeld := rfl
@[simp] theorem countLinkErr_dir (d : Dev) : (countLinkErr d).dir = d.dir := rfl
@[simp] theorem countLinkErr_halves (d : Dev) : (countLinkErr d).halves = d.halves := rfl
@[simp] theorem countLinkErr_hostState (d : Dev) : (countLinkErr d).hostState = d.hostState := rfl
@[simp] theorem countLinkErr_snoops (d : Dev) : (countLinkErr d).snoops = d.snoops := rfl
@[simp] theorem countLinkErr_hostReqs (d : Dev) : (countLinkErr d).hostReqs = d.hostReqs := rfl
@[simp] theorem countLinkErr_deferred (d : Dev) : (countLinkErr d).deferred = d.deferred := rfl
@[simp] theorem countLinkErr_locks (d : Dev) : (countLinkErr d).locks = d.locks := rfl
@[simp] theorem countLinkErr_l2pins (d : Dev) : (countLinkErr d).l2pins = d.l2pins := rfl
@[simp] theorem countLinkErr_waiters (d : Dev) : (countLinkErr d).waiters = d.waiters := rfl
@[simp] theorem countLinkErr_launches (d : Dev) : (countLinkErr d).launches = d.launches := rfl
@[simp] theorem countLinkErr_groups (d : Dev) : (countLinkErr d).groups = d.groups := rfl
@[simp] theorem countLinkErr_skeins (d : Dev) : (countLinkErr d).skeins = d.skeins := rfl
@[simp] theorem countLinkErr_subqs (d : Dev) : (countLinkErr d).subqs = d.subqs := rfl
@[simp] theorem countLinkErr_trigs (d : Dev) : (countLinkErr d).trigs = d.trigs := rfl
@[simp] theorem countLinkErr_runs (d : Dev) : (countLinkErr d).runs = d.runs := rfl
@[simp] theorem countLinkErr_spools (d : Dev) : (countLinkErr d).spools = d.spools := rfl
@[simp] theorem countLinkErr_slots (d : Dev) : (countLinkErr d).slots = d.slots := rfl
@[simp] theorem countLinkErr_waitq (d : Dev) : (countLinkErr d).waitq = d.waitq := rfl
@[simp] theorem countLinkErr_nextSpindle (d : Dev) : (countLinkErr d).nextSpindle = d.nextSpindle := rfl
@[simp] theorem countLinkErr_frameDue (d : Dev) : (countLinkErr d).frameDue = d.frameDue := rfl
@[simp] theorem countLinkErr_quarters (d : Dev) : (countLinkErr d).quarters = d.quarters := rfl
@[simp] theorem countLinkErr_stalled (d : Dev) : (countLinkErr d).stalled = d.stalled := rfl
@[simp] theorem countLinkErr_records (d : Dev) : (countLinkErr d).records = d.records := rfl
@[simp] theorem countLinkErr_irqs (d : Dev) : (countLinkErr d).irqs = d.irqs := rfl
@[simp] theorem countLinkErr_linkErr (d : Dev) : (countLinkErr d).linkErr = d.linkErr + 1 := rfl
@[simp] theorem countLinkErr_portUp (d : Dev) : (countLinkErr d).portUp = d.portUp := rfl
@[simp] theorem countLinkErr_portPeer (d : Dev) : (countLinkErr d).portPeer = d.portPeer := rfl
@[simp] theorem countLinkErr_mmcmd (d : Dev) : (countLinkErr d).mmcmd = d.mmcmd := rfl
@[simp] theorem countLinkErr_mmq (d : Dev) : (countLinkErr d).mmq = d.mmq := rfl
@[simp] theorem countLinkErr_outbox (d : Dev) : (countLinkErr d).outbox = d.outbox := rfl
@[simp] theorem countLinkErr_engines (d : Dev) : (countLinkErr d).engines = d.engines := rfl
@[simp] theorem countLinkErr_surfOps (d : Dev) : (countLinkErr d).surfOps = d.surfOps := rfl
@[simp] theorem countLinkErr_scache (d : Dev) : (countLinkErr d).scache = d.scache := rfl
@[simp] theorem countLinkErr_stiles (d : Dev) : (countLinkErr d).stiles = d.stiles := rfl
@[simp] theorem countLinkErr_tilers (d : Dev) : (countLinkErr d).tilers = d.tilers := rfl
@[simp] theorem countLinkErr_dsc (d : Dev) : (countLinkErr d).dsc = d.dsc := rfl
@[simp] theorem countLinkErr_progs (d : Dev) : (countLinkErr d).progs = d.progs := rfl
@[simp] theorem countLinkErr_streams (d : Dev) : (countLinkErr d).streams = d.streams := rfl
@[simp] theorem countLinkErr_streamTab (d : Dev) : (countLinkErr d).streamTab = d.streamTab := rfl
@[simp] theorem countLinkErr_sealOnly (d : Dev) : (countLinkErr d).sealOnly = d.sealOnly := rfl
@[simp] theorem countLinkErr_resetting (d : Dev) : (countLinkErr d).resetting = d.resetting := rfl
@[simp] theorem countLinkErr_stage (d : Dev) : (countLinkErr d).stage = d.stage := rfl
@[simp] theorem countLinkErr_failStage (d : Dev) : (countLinkErr d).failStage = d.failStage := rfl
@[simp] theorem countLinkErr_startNo (d : Dev) : (countLinkErr d).startNo = d.startNo := rfl
@[simp] theorem countLinkErr_startLog (d : Dev) : (countLinkErr d).startLog = d.startLog := rfl
@[simp] theorem countLinkErr_images (d : Dev) : (countLinkErr d).images = d.images := rfl
@[simp] theorem countLinkErr_nextImages (d : Dev) : (countLinkErr d).nextImages = d.nextImages := rfl
@[simp] theorem countLinkErr_stackMask (d : Dev) : (countLinkErr d).stackMask = d.stackMask := rfl
@[simp] theorem countLinkErr_edgeRates (d : Dev) : (countLinkErr d).edgeRates = d.edgeRates := rfl
@[simp] theorem countLinkErr_laneRates (d : Dev) : (countLinkErr d).laneRates = d.laneRates := rfl
@[simp] theorem countLinkErr_saveGb (d : Dev) : (countLinkErr d).saveGb = d.saveGb := rfl
@[simp] theorem countLinkErr_saveMoves (d : Dev) : (countLinkErr d).saveMoves = d.saveMoves := rfl
@[simp] theorem countLinkErr_mbcmd (d : Dev) : (countLinkErr d).mbcmd = d.mbcmd := rfl
@[simp] theorem countLinkErr_mbstat (d : Dev) : (countLinkErr d).mbstat = d.mbstat := rfl
@[simp] theorem countLinkErr_mbdata (d : Dev) : (countLinkErr d).mbdata = d.mbdata := rfl
@[simp] theorem countLinkErr_diecap (d : Dev) : (countLinkErr d).diecap = d.diecap := rfl
@[simp] theorem countLinkErr_clockStep (d : Dev) : (countLinkErr d).clockStep = d.clockStep := rfl
@[simp] theorem countLinkErr_hot (d : Dev) : (countLinkErr d).hot = d.hot := rfl
@[simp] theorem countLinkErr_saveUsed (d : Dev) : (countLinkErr d).saveUsed = d.saveUsed := rfl
@[simp] theorem countLinkErr_gatedSpindles (d : Dev) : (countLinkErr d).gatedSpindles = d.gatedSpindles := rfl
@[simp] theorem countLinkErr_gatedSlices (d : Dev) : (countLinkErr d).gatedSlices = d.gatedSlices := rfl

/-! ## Looking up after an update -/

/-- The first element that a key names, after the elements of that key were changed and keep it. -/
theorem find_modWhere {α : Type} (key : α → Nat) (f : α → α) (hf : ∀ x, key (f x) = key x) (u v : Nat) (l : List α) :
    (modWhere (fun x => key x == u) f l).find? (fun x => key x == v) =
      (l.find? fun x => key x == v).map fun x => if v = u then f x else x := by
  have hk : ((fun x => key x == v) ∘ fun x => if key x == u then f x else x) = fun x => key x == v := by
    funext x; by_cases h : key x = u <;> simp [h, hf]
  rw [modWhere, List.find?_map, hk]
  cases hx : l.find? fun x => key x == v with
  | none => rfl
  | some x =>
    have hv : key x = v := by simpa using List.find?_some hx
    simp [hv]

theorem skein_modSkein (d : Dev) (u v : Nat) (f : Skein → Skein) (hf : ∀ k, (f k).uid = k.uid) :
    skein? (modSkein d u f) v = (skein? d v).map fun k => if v = u then f k else k :=
  find_modWhere (fun k : Skein => k.uid) f hf u v d.skeins

theorem skein_modSkein_ne {d : Dev} {u v : Nat} (f : Skein → Skein) (hf : ∀ k, (f k).uid = k.uid) (h : v ≠ u) :
    skein? (modSkein d u f) v = skein? d v := by
  rw [skein_modSkein d u v f hf]; simp [h]

theorem skein_modSkein_isSome (d : Dev) (u v : Nat) (f : Skein → Skein) (hf : ∀ k, (f k).uid = k.uid) :
    (skein? (modSkein d u f) v).isSome = (skein? d v).isSome := by
  rw [skein_modSkein d u v f hf]; simp

theorem skeinOf_modSkein {d : Dev} {u : Nat} (f : Skein → Skein) (hf : ∀ k, (f k).uid = k.uid) (h : (skein? d u).isSome = true) :
    skeinOf (modSkein d u f) u = f (skeinOf d u) := by
  obtain ⟨k, hk⟩ := Option.isSome_iff_exists.1 h
  simp [skeinOf, skein_modSkein d u u f hf, hk]

theorem group_modGroup (d : Dev) (g v : Nat) (f : Group → Group) (hf : ∀ x, (f x).gid = x.gid) :
    group? (modGroup d g f) v = (group? d v).map fun x => if v = g then f x else x :=
  find_modWhere (fun x : Group => x.gid) f hf g v d.groups

/-! ## Threads of a skein -/

theorem threadOf_setThread (k : Skein) (l j : Nat) (t : Thread) (hl : l < 32) :
    threadOf (setThread k l t) j = if j = l then t else threadOf k j := by
  unfold threadOf setThread
  by_cases h : j = l
  · subst h; simp [hl]
  · by_cases hj : j < 32
    · simp [hj, h, Ne.symm h]
    · simp [hj, h]

@[simp] theorem setThread_uid (k : Skein) (l : Nat) (t : Thread) : (setThread k l t).uid = k.uid := rfl
@[simp] theorem setThread_eq (k : Skein) (l : Nat) (t : Thread) :
    setThread k l t = { k with threads := k.threads.setIfInBounds l t } := rfl

/-- Changing threads changes nothing else of a skein. -/
theorem modThreads_frame (ls : List Nat) (f : Nat → Thread → Thread) :
    ∀ k : Skein, modThreads k ls f = { k with threads := (modThreads k ls f).threads } := by
  induction ls with
  | nil => intro k; rfl
  | cons a ls ih =>
    intro k
    show modThreads (modThread k a (f a)) ls f = _
    rw [ih]
    rfl

@[simp] theorem modThreads_uid (k : Skein) (ls : List Nat) (f : Nat → Thread → Thread) : (modThreads k ls f).uid = k.uid := by
  rw [modThreads_frame]

/-- Each thread of a list without repeats is changed once. -/
theorem threadOf_modThreads (f : Nat → Thread → Thread) (j : Nat) :
    ∀ (ls : List Nat) (k : Skein), ls.Nodup → (∀ l ∈ ls, l < 32) →
      threadOf (modThreads k ls f) j = if j ∈ ls then f j (threadOf k j) else threadOf k j := by
  intro ls
  induction ls with
  | nil => intro k _ _; simp [modThreads]
  | cons a ls ih =>
    intro k hn hb
    show threadOf (modThreads (modThread k a (f a)) ls f) j = _
    rw [ih _ hn.of_cons fun l hl => hb l (List.mem_cons_of_mem _ hl)]
    have ha : a < 32 := hb a List.mem_cons_self
    rw [modThread, threadOf_setThread k a j _ ha]
    have hna : a ∉ ls := (List.nodup_cons.1 hn).1
    by_cases h : j = a
    · subst h; simp [hna]
    · simp [h]

/-! ## Lanes of a mask -/

theorem mem_lanesOf {m : Mask} {l : Nat} : l ∈ lanesOf m ↔ l < 32 ∧ m.getLsbD l = true := by
  simp [lanesOf]

theorem lanesOf_nodup (m : Mask) : (lanesOf m).Nodup := List.Nodup.filter _ List.nodup_range

theorem lanesOf_lt {m : Mask} : ∀ l ∈ lanesOf m, l < 32 := fun _ h => (mem_lanesOf.1 h).1

theorem threadOf_modLanes (k : Skein) (m : Mask) (f : Nat → Thread → Thread) (j : Nat) (hj : j < 32) :
    threadOf (modThreads k (lanesOf m) f) j = if m.getLsbD j then f j (threadOf k j) else threadOf k j := by
  rw [threadOf_modThreads f j _ _ (lanesOf_nodup m) lanesOf_lt]
  simp [mem_lanesOf, hj]

end Sys2Proof.Machine
end

