-- ==== Sys2Proof/Laws/Exceptions.lean ====
section
/-!
SUPPORT. What taking an exception and returning from one can do (R443 to R449, R451), and the registers of a context after a write
of them: one lemma per operation, which callers cite.
-/

namespace Sys2Proof.Machine

/-! ## Registers of a context -/

theorem ctxOf_setCtx (m : Mgmt) (c j : Nat) (x : Ctx) (hc : c < 64) :
    ctxOf (setCtx m c x) j = if j = c then x else ctxOf m j := by
  unfold ctxOf setCtx
  by_cases h : j = c
  · subst h; simp [hc]
  · by_cases hj : j < 64
    · simp [hj, h, Ne.symm h]
    · simp [hj, h]

/-! ## Handing over a record -/

/-- Every event of taking a record is at the end of the agenda: the record's delivery, and the kill that POLICY names. -/
theorem addRecord_spec (m : Mgmt) (d : Dev) (r : Rec) : ∃ (ans : Option (BitVec 8)) (kill : List Instr),
    addRecord m d r =
      { d with
        records := d.records ++ [{ r with ans := ans, due := ans.isSome }],
        agenda := d.agenda ++ .faultRecord r.id :: kill } ∧
    (kill = [] ∨ kill = [.killLaunch r.id] ∨ kill = [.killContext r.id]) := by
  unfold addRecord
  by_cases hc : (r.cause == .allExternal) = true
  · exact ⟨none, [], by simp [hc, post], .inl rfl⟩
  · by_cases h1 : (bitsOf (ctxOf m r.ctx).faultq 10 2 == 1) = true
    · exact ⟨some 5, [.killLaunch r.id], by simp [hc, h1, post], .inr (.inl rfl)⟩
    · by_cases h2 : (bitsOf (ctxOf m r.ctx).faultq 10 2 == 2) = true
      · exact ⟨some 6, [.killContext r.id], by simp [hc, h1, h2, post], .inr (.inr rfl)⟩
      · exact ⟨none, [], by simp [hc, h1, h2, post], .inl rfl⟩

/-- With POLICY 0 the record is written without an answer and nothing is killed. -/
theorem addRecord_plain {m : Mgmt} {d : Dev} {r : Rec} (hp : bitsOf (ctxOf m r.ctx).faultq 10 2 = 0) :
    addRecord m d r =
      { d with records := d.records ++ [{ r with ans := none, due := false }], agenda := d.agenda ++ [.faultRecord r.id] } := by
  simp [addRecord, hp, post]

/-- Taking an exception changes the skein's stops and its park, the next name, the records and the agenda, and nothing else. -/
theorem takeFault_spec (m : Mgmt) (d : Dev) (u : Nat) (pc next : DWord) (bundle : Mask) (f : FaultInfo) :
    ∃ (r : Rec) (kill : List Instr),
      takeFault m d u pc next bundle f =
        { modSkein d u (fun k => { k with stops := k.stops ++ [d.nextId], park := none }) with
          nextId := d.nextId + 1, records := d.records ++ [r], agenda := d.agenda ++ .faultRecord d.nextId :: kill } ∧
      r.id = d.nextId ∧ r.cause = f.cause ∧ r.sub = BitVec.ofNat 8 f.sub ∧ r.addr = f.addr ∧ r.pc = pc ∧ r.lanes = f.lanes ∧
      r.data = f.data ∧ r.skein = some (skeinOf d u).uid ∧ r.ctx = (groupOf d (skeinOf d u).gid).ctx := by
  have h := addRecord_spec m
    (modSkein (fresh d).2 u fun k => { k with stops := k.stops ++ [(fresh d).1], park := none })
    (recGroup (groupOf d (skeinOf d u).gid) (skeinOf d u)
      { blankRec (fresh d).1 (groupOf d (skeinOf d u).gid).ctx f.cause with
        sub := BitVec.ofNat 8 f.sub, addr := f.addr, pc := pc, lanes := f.lanes, data := f.data, bundle := bundle, next := next,
        sup := f.sup })
  obtain ⟨ans, kill, he, -⟩ := h
  exact ⟨_, kill, he, rfl, rfl, rfl, rfl, rfl, rfl, rfl, rfl, rfl⟩

/-- A record that names no skein changes the next name, the records and the agenda, and nothing else. -/
theorem takeDeviceFault_spec (m : Mgmt) (d : Dev) (ctx : Nat) (c : Cause) (sub : Nat) (addr hdr : DWord) :
    ∃ (r : Rec) (kill : List Instr),
      takeDeviceFault m d ctx c sub addr hdr =
        { d with nextId := d.nextId + 1, records := d.records ++ [r], agenda := d.agenda ++ .faultRecord d.nextId :: kill } ∧
      r.id = d.nextId ∧ r.ctx = ctx ∧ r.cause = c ∧ r.sub = BitVec.ofNat 8 sub ∧ r.addr = addr ∧ r.hdr = hdr ∧ r.skein = none := by
  obtain ⟨ans, kill, he, -⟩ := addRecord_spec m (fresh d).2
    { blankRec (fresh d).1 ctx c with sub := BitVec.ofNat 8 sub, addr := addr, hdr := hdr }
  exact ⟨_, kill, he, rfl, rfl, rfl, rfl, rfl, rfl, rfl⟩

/-! ## Returning -/

/-- A record that no longer stops its skein is gone, and the skein's other stops stand. -/
theorem releaseStop_spec (d : Dev) (u i : Nat) :
    releaseStop d u i =
      { modSkein d u (fun k => { k with stops := k.stops.filter fun j => j != i }) with
        records := d.records.filter fun r => r.id != i } := rfl

theorem releaseStop_skein {d : Dev} {u i : Nat} (h : (skein? d u).isSome = true) :
    skeinOf (releaseStop d u i) u = { skeinOf d u with stops := (skeinOf d u).stops.filter fun j => j != i } := by
  have := skeinOf_modSkein (d := d) (u := u) (fun k => { k with stops := k.stops.filter fun j => j != i }) (fun _ => rfl) h
  simpa [releaseStop, skeinOf, skein?] using this

end Sys2Proof.Machine
end

