-- ==== Sys2Proof/Laws/Issue.lean ====
section
/-!
SUPPORT. What an issue comes to: the shared operations of Machine/Issue.lean, each with one lemma that says all it does to a skein
that issues.
-/

namespace Sys2Proof.Machine

/-! ## An issue that is performed, faults or parks -/

/-- An issue without a hazard is what its own action comes to. -/
theorem issue_done {m : Mgmt} {d d1 : Dev} {h : Hd} {hz : Mask} {body : Dev → Res}
    (hc : isDet m (curCtx d) = true → hz = 0) (hb : body (advance m d h) = .done d1) : issue m d h hz body = d1 := by
  unfold issue
  cases hd : isDet m (curCtx d)
  · simp [hb]
  · simp [hc hd, hb]

theorem issue_fault {m : Mgmt} {d : Dev} {h : Hd} {hz : Mask} {body : Dev → Res} {f : FaultInfo}
    (hc : isDet m (curCtx d) = true → hz = 0) (hb : body (advance m d h) = .fault f) : issue m d h hz body = faulted m d h f := by
  unfold issue
  cases hd : isDet m (curCtx d)
  · simp [hb]
  · simp [hc hd, hb]

theorem issue_park {m : Mgmt} {d d1 : Dev} {h : Hd} {hz : Mask} {body : Dev → Res} {p : Park}
    (hc : isDet m (curCtx d) = true → hz = 0) (hb : body (advance m d h) = .park d1 p) :
    issue m d h hz body = parkSkein m d d1 h p := by
  unfold issue
  cases hd : isDet m (curCtx d)
  · simp [hb]
  · simp [hc hd, hb]

/-- An issue that meets an owner's words to be recalled leaves its thread at the instruction. -/
theorem issue_again {m : Mgmt} {d d1 : Dev} {h : Hd} {hz : Mask} {body : Dev → Res}
    (hc : isDet m (curCtx d) = true → hz = 0) (hb : body (advance m d h) = .again d1) : issue m d h hz body = d1 := by
  unfold issue
  cases hd : isDet m (curCtx d)
  · simp [hb]
  · simp [hc hd, hb]

/-- A fault does not depend on the regions its instruction would end. -/
theorem faulted_ends (m : Mgmt) (d : Dev) (h : Hd) (e : Mask) (f : FaultInfo) :
    faulted m d { h with ends := e } f = faulted m d h f := rfl

/-- A head as the lane set issues it under its guard (R65). -/
def inLanes (s : State) (h : Hd) : Hd := { h with ends := h.ends &&& lanesUnder s h.p h.n }

theorem laneIssue_done {s : State} {d1 : Dev} {h : Hd} {body : Mask → Dev → Res} (hc : LaneClear s h.p h.n h.rds)
    (hb : body (lanesUnder s h.p h.n) (advance s.mgmt s.dev (inLanes s h)) = .done d1) :
    laneIssue s.mgmt s.dev h body = d1 :=
  issue_done (h := inLanes s h) hc hb

theorem laneIssue_fault {s : State} {h : Hd} {body : Mask → Dev → Res} {f : FaultInfo} (hc : LaneClear s h.p h.n h.rds)
    (hb : body (lanesUnder s h.p h.n) (advance s.mgmt s.dev (inLanes s h)) = .fault f) :
    laneIssue s.mgmt s.dev h body = faulted s.mgmt s.dev h f :=
  issue_fault (h := inLanes s h) hc hb

theorem laneIssue_park {s : State} {d1 : Dev} {h : Hd} {body : Mask → Dev → Res} {p : Park} (hc : LaneClear s h.p h.n h.rds)
    (hb : body (lanesUnder s h.p h.n) (advance s.mgmt s.dev (inLanes s h)) = .park d1 p) :
    laneIssue s.mgmt s.dev h body = parkSkein s.mgmt s.dev d1 (inLanes s h) p :=
  issue_park (h := inLanes s h) hc hb

/-- An instruction that ends no region. -/
theorem inLanes_plain {s : State} {h : Hd} (hb : h.ends = 0) : inLanes s h = h := by
  cases h; subst hb; simp [inLanes]

/-- An issue of the uniform set, with its hazard and its body. -/
theorem uniIssue_clear {s : State} {h : Hd} (hc : UniClear s h.p h.n h.rds) :
    isDet s.mgmt (curCtx s.dev) = true →
      (if hazOf (curSkein s.dev) s.dev.cur.lanes s.dev.cur.lanes (uniReads h (guardCond s.dev (curSkein s.dev) h.p h.n)) == 0
        then 0 else s.dev.cur.lanes) = (0 : Mask) := by
  intro hd
  have : hazOf (curSkein s.dev) s.dev.cur.lanes s.dev.cur.lanes
      (uniReads h (guardCond s.dev (curSkein s.dev) h.p h.n)) = 0 := hc hd
  simp [this]

/-- An issue of the uniform set whose guard condition holds is an issue of its body; another one is only the move (R65, R155). -/
theorem uniIssue_on {s : State} {h : Hd} {body : Dev → Res} (hg : condUnder s h.p h.n = true) :
    ∃ hz, uniIssue s.mgmt s.dev h body = issue s.mgmt s.dev h hz body ∧
      (UniClear s h.p h.n h.rds → isDet s.mgmt (curCtx s.dev) = true → hz = 0) := by
  refine ⟨_, ?_, fun hc => uniIssue_clear (h := h) hc⟩
  have hg : guardCond s.dev (curSkein s.dev) h.p h.n = true := hg
  unfold uniIssue
  simp only [hg, if_true]

theorem uniIssue_done {s : State} {d1 : Dev} {h : Hd} {body : Dev → Res} (hc : UniClear s h.p h.n h.rds)
    (hg : condUnder s h.p h.n = true) (hb : body (advance s.mgmt s.dev h) = .done d1) : uniIssue s.mgmt s.dev h body = d1 := by
  obtain ⟨hz, he, h0⟩ := uniIssue_on (body := body) hg
  rw [he]; exact issue_done (h0 hc) hb

theorem uniIssue_fault {s : State} {h : Hd} {body : Dev → Res} {f : FaultInfo} (hc : UniClear s h.p h.n h.rds)
    (hg : condUnder s h.p h.n = true) (hb : body (advance s.mgmt s.dev h) = .fault f) :
    uniIssue s.mgmt s.dev h body = faulted s.mgmt s.dev h f := by
  obtain ⟨hz, he, h0⟩ := uniIssue_on (body := body) hg
  rw [he]; exact issue_fault (h0 hc) hb

theorem uniIssue_park {s : State} {d1 : Dev} {h : Hd} {body : Dev → Res} {p : Park} (hc : UniClear s h.p h.n h.rds)
    (hg : condUnder s h.p h.n = true) (hb : body (advance s.mgmt s.dev h) = .park d1 p) :
    uniIssue s.mgmt s.dev h body = parkSkein s.mgmt s.dev d1 h p := by
  obtain ⟨hz, he, h0⟩ := uniIssue_on (body := body) hg
  rw [he]; exact issue_park (h0 hc) hb

theorem uniIssue_skip {s : State} {h : Hd} {body : Dev → Res} (hc : UniClear s h.p h.n h.rds)
    (hg : condUnder s h.p h.n = false) : uniIssue s.mgmt s.dev h body = advance s.mgmt s.dev { h with ends := 0 } := by
  have h0 := uniIssue_clear (h := h) hc
  have hg : guardCond s.dev (curSkein s.dev) h.p h.n = false := hg
  unfold uniIssue
  simp only [hg] at h0 ⊢
  exact issue_done h0 rfl

/-- A guard of p7 or c7, not negated, always holds (R59). -/
theorem readP_seven (d : Dev) (k : Skein) (l : Nat) : readP d k l 7 = true := by
  unfold readP; split <;> simp [regP]
theorem readC_seven (d : Dev) (k : Skein) : readC d k 7 = true := by
  unfold readC; split <;> simp [regC]
@[simp] theorem condUnder_seven (s : State) : condUnder s 7 false = true := by
  simp [condUnder, guardCond, readC_seven]

/-! ## The counts of an issue and the move of the bundle -/

/-- How the issuing skein stands after `advance`. -/
def advanced (d : Dev) (h : Hd) (k : Skein) : Skein :=
  let others := readyMask k &&& ~~~d.cur.lanes
  let k1 := modThreads k (lanesOf d.cur.lanes) fun _ t => { t with last := d.ticks }
  let k2 : Skein :=
    { k1 with
      rot := if d.cur.rotate || others == 0 then 0 else k.rot + 1, marker := h.w,
      runAhead := k.runAhead.map (raCount d.cur.lanes) }
  let k3 := modThreads k2 (lanesOf d.cur.lanes) fun _ t => { t with pc := nextPc d h.len }
  if h.ends == 0 then k3 else modThreads k3 (lanesOf (d.cur.lanes &&& h.ends)) fun _ t => { t with region := none }

theorem advanced_uid (d : Dev) (h : Hd) (k : Skein) : (advanced d h k).uid = k.uid := by
  unfold advanced; split <;> simp

/-- The update `noteIssue` makes of the issuing skein. -/
def noted (d : Dev) (h : Hd) (rot : Bool) (k : Skein) : Skein :=
  { modThreads k (lanesOf d.cur.lanes) fun _ t => { t with last := d.ticks } with
    rot := if rot then 0 else k.rot + 1, marker := h.w, runAhead := k.runAhead.map (raCount d.cur.lanes) }

theorem noted_uid (d : Dev) (h : Hd) (rot : Bool) (k : Skein) : (noted d h rot k).uid = k.uid := by simp [noted]

theorem noteIssue_eq (m : Mgmt) (d : Dev) (h : Hd) : ∃ qs st, noteIssue m d h =
    { modSkein d d.cur.skein (noted d h (d.cur.rotate || (readyMask (curSkein d) &&& ~~~d.cur.lanes) == 0)) with
      quarters := qs, stalled := st } := ⟨_, _, rfl⟩

/-- The device after the counts and the move: the issuing skein is `advanced`; other skeins, and all but the skeins, the quarters'
choices and the watchdog's counts, are as they were. -/
theorem advance_spec (m : Mgmt) (d : Dev) (h : Hd) :
    ∃ ks qs st, advance m d h = { d with skeins := ks, quarters := qs, stalled := st } ∧
      (∀ u, u ≠ d.cur.skein → skein? (advance m d h) u = skein? d u) ∧
      (skein? (advance m d h) d.cur.skein).isSome = (skein? d d.cur.skein).isSome ∧
      ((skein? d d.cur.skein).isSome = true → curSkein (advance m d h) = advanced d h (curSkein d)) := by
  obtain ⟨qs, st, he⟩ := noteIssue_eq m d h
  let r := d.cur.rotate || (readyMask (curSkein d) &&& ~~~d.cur.lanes) == 0
  let f1 := noted d h r
  let f2 : Skein → Skein := fun k => modThreads k (lanesOf d.cur.lanes) fun _ t => { t with pc := nextPc d h.len }
  let f3 : Skein → Skein := fun k => modThreads k (lanesOf (d.cur.lanes &&& h.ends)) fun _ t => { t with region := none }
  have h1 : ∀ k, (f1 k).uid = k.uid := noted_uid d h r
  have h2 : ∀ k, (f2 k).uid = k.uid := fun k => by simp [f2]
  have h3 : ∀ k, (f3 k).uid = k.uid := fun k => by simp [f3]
  have hs2 : ∀ v, skein? (setPcs (noteIssue m d h) d.cur.skein d.cur.lanes (nextPc d h.len)) v =
      (skein? (modSkein d d.cur.skein f1) v).map fun k => if v = d.cur.skein then f2 k else k := by
    intro v
    show skein? (modSkein _ _ f2) v = _
    rw [skein_modSkein _ _ _ f2 h2, he]
    rfl
  by_cases hb : h.ends ≠ 0
  · have hadv : advance m d h = modSkein (setPcs (noteIssue m d h) d.cur.skein d.cur.lanes (nextPc d h.len)) d.cur.skein f3 := by
      unfold advance; rw [if_neg (by simpa using hb)]; rfl
    have hs3 : ∀ v, skein? (advance m d h) v =
        (skein? d v).map fun k => if v = d.cur.skein then f3 (f2 (f1 k)) else k := by
      intro v
      rw [hadv, skein_modSkein _ _ _ f3 h3, hs2, skein_modSkein _ _ _ f1 h1]
      by_cases hv : v = d.cur.skein <;> simp [hv, Function.comp_def]
    refine ⟨_, qs, st, by rw [hadv, he]; rfl, ?_, ?_, ?_⟩
    · intro u hu; rw [hs3]; simp [hu]
    · rw [hs3]; simp
    · intro hk
      obtain ⟨k, hk⟩ := Option.isSome_iff_exists.1 hk
      have hcur : (advance m d h).cur = d.cur := by rw [hadv, he]; rfl
      have hck : curSkein d = k := by simp [curSkein, skeinOf, hk]
      have hr : r = (d.cur.rotate || (readyMask k &&& ~~~d.cur.lanes) == 0) := by simp only [r, hck]
      unfold curSkein at *
      rw [hcur, skeinOf, hs3, hk, hck]
      simp only [advanced, beq_iff_eq, if_neg hb]
      simp [f3, f2, f1, noted, hr]
  · have hb : h.ends = 0 := by simpa using hb
    have hadv : advance m d h = setPcs (noteIssue m d h) d.cur.skein d.cur.lanes (nextPc d h.len) := by
      unfold advance; rw [if_pos (by simp [hb])]
    have hs3 : ∀ v, skein? (advance m d h) v =
        (skein? d v).map fun k => if v = d.cur.skein then f2 (f1 k) else k := by
      intro v
      rw [hadv, hs2, skein_modSkein _ _ _ f1 h1]
      by_cases hv : v = d.cur.skein <;> simp [hv, Function.comp_def]
    refine ⟨_, qs, st, by rw [hadv, he]; rfl, ?_, ?_, ?_⟩
    · intro u hu; rw [hs3]; simp [hu]
    · rw [hs3]; simp
    · intro hk
      obtain ⟨k, hk⟩ := Option.isSome_iff_exists.1 hk
      have hcur : (advance m d h).cur = d.cur := by rw [hadv, he]; rfl
      have hck : curSkein d = k := by simp [curSkein, skeinOf, hk]
      have hr : r = (d.cur.rotate || (readyMask k &&& ~~~d.cur.lanes) == 0) := by simp only [r, hck]
      unfold curSkein at *
      rw [hcur, skeinOf, hs3, hk, hck]
      simp [advanced, hb, f2, f1, noted, hr]

/-- A thread of the skein that has issued. -/
theorem threadOf_advanced (d : Dev) (h : Hd) (k : Skein) (l : Nat) (hl : l < 32) :
    threadOf (advanced d h k) l = { threadOf k l with
      pc := if d.cur.lanes.getLsbD l then nextPc d h.len else (threadOf k l).pc
      region := if d.cur.lanes.getLsbD l && h.ends.getLsbD l then none else (threadOf k l).region
      last := if d.cur.lanes.getLsbD l then d.ticks else (threadOf k l).last } := by
  have key : ∀ k0 : Skein, ∀ a c e, threadOf { k0 with rot := a, marker := c, runAhead := e } l = threadOf k0 l :=
    fun _ _ _ _ => rfl
  unfold advanced
  by_cases hb : h.ends = 0
  · rw [if_pos (by simp [hb])]
    (repeat rw [threadOf_modLanes _ _ _ _ hl]); rw [key, threadOf_modLanes _ _ _ _ hl]
    cases hm : d.cur.lanes.getLsbD l <;> simp [hb]
  · rw [if_neg (by simpa using hb)]
    (repeat rw [threadOf_modLanes _ _ _ _ hl]); rw [key, threadOf_modLanes _ _ _ _ hl]
    cases hm : d.cur.lanes.getLsbD l <;> cases he : h.ends.getLsbD l <;> simp [hm, he]

/-- The issuing skein after `advance`, its threads and counts aside. -/
theorem advanced_frame (d : Dev) (h : Hd) (k : Skein) :
    advanced d h k = { k with
      threads := (advanced d h k).threads, rot := (advanced d h k).rot,
      marker := (advanced d h k).marker, runAhead := (advanced d h k).runAhead } := by
  unfold advanced
  by_cases hb : h.ends = 0
  · rw [if_pos (by simp [hb]), modThreads_frame, modThreads_frame _ _ k]
  · rw [if_neg (by simpa using hb), modThreads_frame _ _ (modThreads _ _ _), modThreads_frame, modThreads_frame _ _ k]

/-! ## Flags and results -/

/-- The flags of a list of lanes without repeats, raised. -/
theorem orFlags_map (d : Dev) (u : Nat) (ls : List Nat) (g : Nat → FFlags) :
    orFlags d u (ls.map fun l => (l, g l)) =
      modSkein d u fun k => modThreads k ls fun l t => { t with flags := t.flags ||| g l } := by
  unfold orFlags modThreads
  simp only [List.foldl_map]

/-- Results put in flight. -/
theorem addPend_eq (d : Dev) (u lat : Nat) (ws : List PWrite) :
    ∃ n, addPend d u lat ws = modSkein { d with nextId := n } u fun k => { k with pend := k.pend ++
      (if ws.isEmpty then [] else
        [{ id := d.nextId, due := cyclesOf d (groupOf d (skeinOf d u).gid).die + lat, ws := ws }]) } := by
  unfold addPend
  cases hw : ws.isEmpty
  · exact ⟨d.nextId + 1, rfl⟩
  · refine ⟨d.nextId, ?_⟩
    simp only [if_true, List.append_nil]
    have : modWhere (fun k : Skein => k.uid == u) (fun k => k) d.skeins = d.skeins := by simp [modWhere]
    simp only [modSkein, this]

/-- An instruction that has been performed by raising flags and putting results in flight is one that only computes results. -/
theorem issued_of (s : State) (h : Hd) (lat : Nat) (ls : List Nat) (g : Nat → FFlags) (ws : List PWrite) (fl : Nat → FFlags)
    (he : h.ends = 0) (hi : Issuing s) (hn : ls.Nodup) (hb : ∀ l ∈ ls, l < 32) (hf : ∀ l, l < 32 → fl l = if l ∈ ls then g l else 0) :
    Issued s
      { s with
        dev := addPend (orFlags (advance s.mgmt s.dev h) s.dev.cur.skein (ls.map fun l => (l, g l))) s.dev.cur.skein lat ws }
      (past s h.len) false lat ws fl := by
  obtain ⟨ks, qs, st, ha, ho, hk, hc⟩ := advance_spec s.mgmt s.dev h
  have hi' := hi
  rw [Issuing] at hi
  have hc := hc hi
  rw [hi] at hk
  rw [orFlags_map]
  generalize hda : advance s.mgmt s.dev h = da at *
  let u := s.dev.cur.skein
  let f2 : Skein → Skein := fun k => modThreads k ls fun l t => { t with flags := t.flags ||| g l }
  have h2 : ∀ k, (f2 k).uid = k.uid := fun k => by simp [f2]
  obtain ⟨n, hp⟩ := addPend_eq (modSkein da u f2) u lat ws
  let cy : Nat := cyclesOf (modSkein da u f2) (groupOf (modSkein da u f2) (skeinOf (modSkein da u f2) u).gid).die + lat
  let f3 : Skein → Skein := fun k =>
    { k with pend := k.pend ++ (if ws.isEmpty then [] else [{ id := (modSkein da u f2).nextId, due := cy, ws := ws }]) }
  have h3 : ∀ k, (f3 k).uid = k.uid := fun k => rfl
  have hp : addPend (modSkein da u f2) u lat ws = modSkein { modSkein da u f2 with nextId := n } u f3 := hp
  have hs2 : skeinOf (modSkein da u f2) u = f2 (advanced s.dev h (curSkein s.dev)) := by
    rw [skeinOf_modSkein f2 h2 hk, ← hc]
    have : da.cur = s.dev.cur := by rw [ha]
    simp only [curSkein, this]
  have hcur : (addPend (modSkein da u f2) u lat ws).cur = s.dev.cur := by rw [hp, ha]; rfl
  have hs3 : curSkein (addPend (modSkein da u f2) u lat ws) = f3 (f2 (advanced s.dev h (curSkein s.dev))) := by
    have e : ∀ d : Dev, skeinOf { d with nextId := n } u = skeinOf d u := fun _ => rfl
    have e1 : ∀ d : Dev, skein? { d with nextId := n } u = skein? d u := fun _ => rfl
    unfold curSkein
    rw [hcur, hp, show s.dev.cur.skein = u from rfl, skeinOf_modSkein f3 h3, e, hs2]
    · rfl
    · rw [e1, skein_modSkein_isSome _ _ _ _ h2]; exact hk
  have hfr2 : f2 (advanced s.dev h (curSkein s.dev)) =
      { advanced s.dev h (curSkein s.dev) with threads := (f2 (advanced s.dev h (curSkein s.dev))).threads } :=
    modThreads_frame _ _ _
  have hth : ∀ l, l < 32 → threadOf (f2 (advanced s.dev h (curSkein s.dev))) l =
      { threadOf (advanced s.dev h (curSkein s.dev)) l with
        flags := (threadOf (advanced s.dev h (curSkein s.dev)) l).flags ||| fl l } := by
    intro l hl
    rw [show f2 = fun k => modThreads k ls fun l t => { t with flags := t.flags ||| g l } from rfl]
    simp only
    rw [threadOf_modThreads _ _ _ _ hn hb, hf l hl]
    by_cases hm : l ∈ ls <;> simp [hm]
  have hgid : (f2 (advanced s.dev h (curSkein s.dev))).gid = (curSkein s.dev).gid := by
    rw [hfr2, advanced_frame]
  constructor
  · rfl
  · show addPend (modSkein da u f2) u lat ws = _
    rw [hp, ha]; rfl
  · intro v hv
    show skein? (addPend (modSkein da u f2) u lat ws) v = _
    rw [hp, skein_modSkein_ne f3 h3 hv, ← ho v hv]
    exact skein_modSkein_ne f2 h2 hv
  · show curSkein (addPend (modSkein da u f2) u lat ws) = _
    rw [hs3]
    show f3 (f2 (advanced s.dev h (curSkein s.dev))) = _
    conv_lhs => simp only [f3]
    rw [hfr2, advanced_frame s.dev h (curSkein s.dev)]
  · show (curSkein (addPend (modSkein da u f2) u lat ws)).pend = _
    rw [hs3]
    have hp0 : (f2 (advanced s.dev h (curSkein s.dev))).pend = (curSkein s.dev).pend := by rw [hfr2, advanced_frame]
    show (f2 (advanced s.dev h (curSkein s.dev))).pend ++ _ = _
    rw [hp0, newResults]
    simp only [cy]
    rw [hs2, hgid]
    have e1 : (modSkein da u f2).nextId = s.dev.nextId := by rw [ha]; rfl
    have e2 : ∀ x, cyclesOf (modSkein da u f2) x = cyclesOf s.dev x := by rw [ha]; intro x; rfl
    have e3 : ∀ x, groupOf (modSkein da u f2) x = groupOf s.dev x := by rw [ha]; intro x; rfl
    rw [e1, e2, e3]; rfl
  · intro l hl
    show threadOf (curSkein (addPend (modSkein da u f2) u lat ws)) l = _
    rw [threadAfter]
    show _ = ({ threadOf (curSkein s.dev) l with
      pc := _, flags := _, region := _, last := (threadOf (curSkein (addPend (modSkein da u f2) u lat ws)) l).last } : Thread)
    rw [hs3]
    show threadOf (f2 (advanced s.dev h (curSkein s.dev))) l = ({ threadOf (curSkein s.dev) l with
      pc := _, flags := _, region := _, last := (threadOf (f2 (advanced s.dev h (curSkein s.dev))) l).last } : Thread)
    rw [hth l hl, threadOf_advanced _ _ _ _ hl]
    have e0 : ∀ i, BitVec.getLsbD h.ends i = false := by intro i; rw [he]; exact BitVec.getLsbD_zero
    simp only [e0, Bool.and_false, Bool.false_and]
    rfl

/-- Results without flags. -/
theorem issued_plain (s : State) (h : Hd) (lat : Nat) (ws : List PWrite) (he : h.ends = 0) (hi : Issuing s) :
    Issued s { s with dev := addPend (advance s.mgmt s.dev h) s.dev.cur.skein lat ws } (past s h.len) false lat ws fun _ => 0 := by
  have key := issued_of s h lat [] (fun _ => 0) ws (fun _ => 0) he hi List.nodup_nil (by simp) (by simp)
  have e : orFlags (advance s.mgmt s.dev h) s.dev.cur.skein ([].map fun l => (l, (0 : FFlags))) = advance s.mgmt s.dev h := by
    rw [orFlags_map]
    have : modWhere (fun k : Skein => k.uid == s.dev.cur.skein) (fun k => k) (advance s.mgmt s.dev h).skeins =
        (advance s.mgmt s.dev h).skeins := by simp [modWhere]
    show modSkein _ _ (fun k => k) = _
    simp only [modSkein, this]
  rw [e] at key
  exact key

/-- Nothing but the move. -/
theorem issued_move (s : State) (h : Hd) (lat : Nat) (he : h.ends = 0) (hi : Issuing s) :
    Issued s { s with dev := advance s.mgmt s.dev h } (past s h.len) false lat [] fun _ => 0 := issued_plain s h lat [] he hi

/-! ## Instructions that only compute results -/

/-- The flags of the executing lanes. -/
theorem laneFlags (ex : Mask) (g : Nat → FFlags) :
    ∀ l, l < 32 → (if ex.getLsbD l then g l else 0) = if l ∈ lanesOf ex then g l else 0 := by
  intro l hl; simp [mem_lanesOf, hl]

/-- A lane instruction whose results may use the values of every lane (R108, R141). -/
theorem crossLane_runs {s : State} {h : Hd} {lat : Nat} {f : List Nat → Nat → List PWrite × FFlags} (he : h.ends = 0)
    (hi : Issuing s) (hc : LaneClear s h.p h.n h.rds) :
    Issued s { s with dev := crossLane s.mgmt s.dev h lat f } (past s h.len) false lat
      ((lanesOf (lanesUnder s h.p h.n)).flatMap fun l => (f (lanesOf (lanesUnder s h.p h.n)) l).1)
      (fun l => if (lanesUnder s h.p h.n).getLsbD l then (f (lanesOf (lanesUnder s h.p h.n)) l).2 else 0) := by
  let ex := lanesUnder s h.p h.n
  have hd : crossLane s.mgmt s.dev h lat f =
      addPend (orFlags (advance s.mgmt s.dev h) s.dev.cur.skein ((lanesOf ex).map fun l => (l, (f (lanesOf ex) l).2)))
        s.dev.cur.skein lat ((lanesOf ex).flatMap fun l => (f (lanesOf ex) l).1) := by
    refine laneIssue_done hc ?_
    rw [inLanes_plain he]
    simp only [List.map_map, Function.comp_def, List.flatMap_map]
    rfl
  rw [hd]
  exact issued_of s h lat _ _ _ _ he hi (lanesOf_nodup ex) lanesOf_lt (laneFlags ex _)

/-- A lane instruction that computes each lane's results from its own sources (R108). -/
theorem laneAlu_runs {s : State} {h : Hd} {lat : Nat} {f : Nat → Reader → Writer → List PWrite × FFlags} (he : h.ends = 0)
    (hi : Issuing s) (hc : LaneClear s h.p h.n h.rds) :
    Issued s { s with dev := laneAlu s.mgmt s.dev h lat f } (past s h.len) false lat
      ((lanesOf (lanesUnder s h.p h.n)).flatMap fun l => (f l (laneReader s.dev l) (wrV l)).1)
      (fun l => if (lanesUnder s h.p h.n).getLsbD l then (f l (laneReader s.dev l) (wrV l)).2 else 0) :=
  crossLane_runs (f := fun _ l => f l (laneReader s.dev l) (wrV l)) he hi hc

/-- A uniform instruction that computes once (R155, R156). -/
theorem uniAlu_runs {s : State} {h : Hd} {lat : Nat} {f : Reader → Writer → List PWrite × FFlags} (he : h.ends = 0)
    (hi : Issuing s) (hc : UniClear s h.p h.n h.rds) :
    Issued s { s with dev := uniAlu s.mgmt s.dev h lat f } (past s h.len) false lat
      (if condUnder s h.p h.n then (f (uniReader s.dev) wrS).1 else [])
      (fun l => if condUnder s h.p h.n && s.dev.cur.lanes.getLsbD l then (f (uniReader s.dev) wrS).2 else 0) := by
  cases hg : condUnder s h.p h.n
  · have hd : uniAlu s.mgmt s.dev h lat f = advance s.mgmt s.dev { h with ends := 0 } := uniIssue_skip hc hg
    rw [hd, show { h with ends := 0 } = h by cases h; subst he; rfl]
    simpa using issued_move s h lat he hi
  · have hd : uniAlu s.mgmt s.dev h lat f = addPend (orFlags (advance s.mgmt s.dev h) s.dev.cur.skein
        ((lanesOf s.dev.cur.lanes).map fun l => (l, (f (uniReader s.dev) wrS).2))) s.dev.cur.skein lat
        (f (uniReader s.dev) wrS).1 := uniIssue_done hc hg rfl
    rw [hd]
    simpa using issued_of s h lat _ _ (f (uniReader s.dev) wrS).1 _ he hi (lanesOf_nodup _) lanesOf_lt
      (laneFlags s.dev.cur.lanes fun _ => (f (uniReader s.dev) wrS).2)

/-! ## The shapes of statements about them -/

/-- What every instruction that is performed begins with, by its head. -/
theorem advance_moved {s : State} {h : Hd} (hf : h.fp64 = false) : advance s.mgmt s.dev h = movedIn s h.w h.len h.ends := by
  cases h; subst hf; rfl
theorem faulted_trapped {s : State} {h : Hd} {f : FaultInfo} (brk : Bool) (hf : h.fp64 = false) :
    faulted s.mgmt s.dev h f = trapped s h.w h.len brk f := by
  cases h; subst hf; rfl
theorem parkSkein_parked {s : State} {h : Hd} {d : Dev} {p : Park} (hf : h.fp64 = false) :
    parkSkein s.mgmt s.dev d h p = parkedIn s h.w h.len h.ends d p := by
  cases h; subst hf; rfl

/-- A meaning of the uniform set that is performed, faults, parks, or is passed over. -/
theorem run_uni {s : State} {h : Hd} {body : Mgmt → Dev → Dev → Res} {d1 : Dev}
    (hc : UniClear s h.p h.n h.rds) (hg : condUnder s h.p h.n = true)
    (hb : body s.mgmt s.dev (movedIn s h.w h.len h.ends) = .done d1) (hf : h.fp64 = false) :
    s.run (fun m d => uniIssue m d h (body m d)) = .next (s.dev' d1) :=
  congrArg (fun x => Host.Outcome.next (s.dev' x)) (uniIssue_done hc hg (by rw [advance_moved hf]; exact hb))

theorem run_uni_skip {s : State} {h : Hd} {body : Mgmt → Dev → Dev → Res}
    (hc : UniClear s h.p h.n h.rds) (hg : condUnder s h.p h.n = false)
    (hf : h.fp64 = false) : s.run (fun m d => uniIssue m d h (body m d)) = .next (s.dev' (movedIn s h.w h.len 0)) :=
  congrArg (fun x => Host.Outcome.next (s.dev' x)) ((uniIssue_skip hc hg).trans (advance_moved (h := { h with ends := 0 }) hf))

theorem run_uni_fault {s : State} {h : Hd} {body : Mgmt → Dev → Dev → Res} {f : FaultInfo} (brk : Bool)
    (hc : UniClear s h.p h.n h.rds) (hg : condUnder s h.p h.n = true)
    (hb : body s.mgmt s.dev (movedIn s h.w h.len h.ends) = .fault f) (hf : h.fp64 = false) :
    s.run (fun m d => uniIssue m d h (body m d)) = .next (s.dev' (trapped s h.w h.len brk f)) :=
  congrArg (fun x => Host.Outcome.next (s.dev' x))
    ((uniIssue_fault hc hg (by rw [advance_moved hf]; exact hb)).trans (faulted_trapped brk hf))

theorem run_uni_park {s : State} {h : Hd} {body : Mgmt → Dev → Dev → Res} {d1 : Dev} {p : Park}
    (hc : UniClear s h.p h.n h.rds) (hg : condUnder s h.p h.n = true)
    (hb : body s.mgmt s.dev (movedIn s h.w h.len h.ends) = .park d1 p) (hf : h.fp64 = false) :
    s.run (fun m d => uniIssue m d h (body m d)) = .next (s.dev' (parkedIn s h.w h.len h.ends d1 p)) :=
  congrArg (fun x => Host.Outcome.next (s.dev' x))
    ((uniIssue_park hc hg (by rw [advance_moved hf]; exact hb)).trans (parkSkein_parked hf))

/-- The same of the lane set, whose breakers end the regions of the executing lanes. -/
theorem run_lane {s : State} {h : Hd} {body : Mgmt → Dev → Mask → Dev → Res} {d1 : Dev}
    (hc : LaneClear s h.p h.n h.rds)
    (hb : body s.mgmt s.dev (lanesUnder s h.p h.n) (movedIn s h.w h.len (h.ends &&& lanesUnder s h.p h.n)) = .done d1)
    (hf : h.fp64 = false) : s.run (fun m d => laneIssue m d h (body m d)) = .next (s.dev' d1) :=
  congrArg (fun x => Host.Outcome.next (s.dev' x))
    (laneIssue_done hc (by rw [advance_moved (h := inLanes s h) hf]; exact hb))

theorem run_lane_fault {s : State} {h : Hd} {body : Mgmt → Dev → Mask → Dev → Res} {f : FaultInfo} (brk : Bool)
    (hc : LaneClear s h.p h.n h.rds)
    (hb : body s.mgmt s.dev (lanesUnder s h.p h.n) (movedIn s h.w h.len (h.ends &&& lanesUnder s h.p h.n)) = .fault f)
    (hf : h.fp64 = false) : s.run (fun m d => laneIssue m d h (body m d)) = .next (s.dev' (trapped s h.w h.len brk f)) :=
  congrArg (fun x => Host.Outcome.next (s.dev' x))
    ((laneIssue_fault hc (by rw [advance_moved (h := inLanes s h) hf]; exact hb)).trans (faulted_trapped brk hf))

theorem run_lane_park {s : State} {h : Hd} {body : Mgmt → Dev → Mask → Dev → Res} {d1 : Dev} {p : Park}
    (hc : LaneClear s h.p h.n h.rds)
    (hb : body s.mgmt s.dev (lanesUnder s h.p h.n) (movedIn s h.w h.len (h.ends &&& lanesUnder s h.p h.n)) = .park d1 p)
    (hf : h.fp64 = false) : s.run (fun m d => laneIssue m d h (body m d)) =
      .next (s.dev' (parkedIn s h.w h.len (h.ends &&& lanesUnder s h.p h.n) d1 p)) :=
  congrArg (fun x => Host.Outcome.next (s.dev' x))
    ((laneIssue_park hc (by rw [advance_moved (h := inLanes s h) hf]; exact hb)).trans (parkSkein_parked (h := inLanes s h) hf))

theorem LaneRuns.congr {i : Instr} {s : State} {p : BitVec 3} {n : Bool} {len lat : Nat} {rds : List Rd}
    {f g : Nat → List PWrite × FFlags} (h : LaneRuns i s p n len lat rds f) (he : ∀ l, f l = g l) :
    LaneRuns i s p n len lat rds g := by
  obtain rfl : f = g := funext he
  exact h

theorem laneRuns_cross {i : Instr} {s : State} {h : Hd} {lat : Nat} {f : List Nat → Nat → List PWrite × FFlags} (hi : Issuing s)
    (hb : h.ends = 0) (he : exec i s = .next { s with dev := crossLane s.mgmt s.dev h lat f }) :
    LaneRuns i s h.p h.n h.len lat h.rds (f (lanesOf (lanesUnder s h.p h.n))) :=
  fun hc => ⟨_, he, crossLane_runs (lat := lat) (f := f) hb hi hc⟩

theorem laneRuns_alu {i : Instr} {s : State} {h : Hd} {lat : Nat} {f : Nat → Reader → Writer → List PWrite × FFlags}
    (hi : Issuing s) (hb : h.ends = 0) (he : exec i s = .next { s with dev := laneAlu s.mgmt s.dev h lat f }) :
    LaneRuns i s h.p h.n h.len lat h.rds fun l => f l (laneReader s.dev l) (wrV l) :=
  laneRuns_cross (f := fun _ l => f l (laneReader s.dev l) (wrV l)) hi hb he

theorem uniRuns_alu {i : Instr} {s : State} {h : Hd} {lat : Nat} {f : Reader → Writer → List PWrite × FFlags}
    (hi : Issuing s) (hb : h.ends = 0) (he : exec i s = .next { s with dev := uniAlu s.mgmt s.dev h lat f }) :
    UniRuns i s h.p h.n h.len lat h.rds (f (uniReader s.dev) wrS) :=
  fun hc => ⟨_, he, uniAlu_runs (lat := lat) (f := f) hb hi hc⟩

end Sys2Proof.Machine
end

