-- ==== Sys2Proof/Laws/Memory.lean ====
section
/-!
SUPPORT. Tables and memory: a read after a write, and the canonical form of memory (addresses strictly rising, no entry equal to
what an unlisted address reads as), which every operation on memory keeps.
-/

namespace Sys2Proof.Machine

/-! ## Tables -/

section
variable {α : Type}

@[simp] theorem tget_nil (k : Nat) : tget? ([] : Table α) k = none := rfl

/-- A key read after a value was stored at a key. -/
theorem tget_tset (t : Table α) (k j : Nat) (v : α) : tget? (tset t k v) j = if k = j then some v else tget? t j := by
  induction t with
  | nil => simp [tset, tget?]
  | cons e r ih =>
    obtain ⟨i, w⟩ := e
    unfold tset
    split
    · simp [tget?]
    · split
      · next h => subst h; by_cases hk : i = j <;> simp [tget?, hk]
      · next h => by_cases hi : i = j
                  · have : k ≠ j := fun e => h (hi.trans e.symm)
                    simp [tget?, hi, this]
                  · simp [tget?, hi, ih]

@[simp] theorem tget_tset_same (t : Table α) (k : Nat) (v : α) : tget? (tset t k v) k = some v := by simp [tget_tset]
theorem tget_tset_ne {t : Table α} {k j : Nat} {v : α} (h : k ≠ j) : tget? (tset t k v) j = tget? t j := by simp [tget_tset, h]

/-- A key read after a key was removed. -/
theorem tget_tdel (t : Table α) (k j : Nat) : tget? (tdel t k) j = if k = j then none else tget? t j := by
  induction t with
  | nil => simp [tdel]
  | cons e r ih =>
    obtain ⟨i, w⟩ := e
    unfold tdel
    split
    · next h =>
      subst h
      rw [ih]
      by_cases hj : i = j <;> simp [tget?, hj]
    · next h =>
      by_cases hi : i = j
      · have : k ≠ j := fun e => h (hi.trans e.symm)
        simp [tget?, hi, this]
      · simp [tget?, hi, ih]

/-- A key read after a value was stored in canonical form. -/
theorem tget_tput [DecidableEq α] (t : Table α) (k j : Nat) (v dflt : α) :
    tget (tput t k v dflt) j dflt = if k = j then v else tget t j dflt := by
  unfold tget tput
  split
  · next h => rw [tget_tdel]; by_cases hk : k = j <;> simp [hk, h]
  · rw [tget_tset]; by_cases hk : k = j <;> simp [hk]

/-- What keys that rise from above a bound say of the first one. -/
theorem trising_tset (t : Table α) (lo : Option Nat) (k : Nat) (v : α) (ht : trising lo t = true)
    (hk : ∀ l, lo = some l → l < k) : trising lo (tset t k v) = true := by
  induction t generalizing lo with
  | nil => cases lo with
    | none => simp [tset, trising]
    | some l => simp [tset, trising, hk l rfl]
  | cons e r ih =>
    obtain ⟨i, w⟩ := e
    simp only [trising, Bool.and_eq_true] at ht
    unfold tset
    split
    · next h =>
      simp only [trising, Bool.and_eq_true, decide_eq_true_eq]
      refine ⟨?_, h, ht.2⟩
      cases lo with
      | none => rfl
      | some l => simp [hk l rfl]
    · split
      · next h => subst h; simp only [trising, Bool.and_eq_true]; exact ht
      · next h1 h2 =>
        simp only [trising, Bool.and_eq_true]
        exact ⟨ht.1, ih (some i) ht.2 (by intro l hl; cases hl; omega)⟩

theorem trising_weaken (t : Table α) (i : Nat) (lo : Option Nat) (ht : trising (some i) t = true)
    (hi : ∀ l, lo = some l → l < i) : trising lo t = true := by
  cases t with
  | nil => rfl
  | cons e r =>
    obtain ⟨j, w⟩ := e
    simp only [trising, Bool.and_eq_true, decide_eq_true_eq] at ht ⊢
    refine ⟨?_, ht.2⟩
    cases lo with
    | none => rfl
    | some l => simpa using Nat.lt_trans (hi l rfl) ht.1

theorem trising_tdel (t : Table α) (lo : Option Nat) (k : Nat) (ht : trising lo t = true) : trising lo (tdel t k) = true := by
  induction t generalizing lo with
  | nil => rfl
  | cons e r ih =>
    obtain ⟨i, w⟩ := e
    simp only [trising, Bool.and_eq_true] at ht
    unfold tdel
    split
    · refine ih lo (trising_weaken r i lo ht.2 ?_)
      intro l hl; subst hl; simpa using ht.1
    · simp only [trising, Bool.and_eq_true]; exact ⟨ht.1, ih _ ht.2⟩

theorem mem_tset {t : Table α} {k : Nat} {v : α} {e : Nat × α} (h : e ∈ tset t k v) : e = (k, v) ∨ e ∈ t := by
  induction t with
  | nil => simp only [tset, List.mem_singleton] at h; exact .inl h
  | cons x r ih =>
    obtain ⟨i, w⟩ := x
    unfold tset at h
    split at h
    · simpa using h
    · split at h
      · simp only [List.mem_cons] at h ⊢; exact h.imp id .inr
      · simp only [List.mem_cons] at h ⊢
        rcases h with h | h
        · exact .inr (.inl h)
        · exact (ih h).imp id .inr

theorem mem_tdel {t : Table α} {k : Nat} {e : Nat × α} (h : e ∈ tdel t k) : e ∈ t := by
  induction t with
  | nil => exact h
  | cons x r ih =>
    obtain ⟨i, w⟩ := x
    unfold tdel at h
    split at h
    · exact List.mem_cons_of_mem _ (ih h)
    · simp only [List.mem_cons] at h ⊢; exact h.imp id ih

/-- Storing in canonical form keeps it. -/
theorem twf_tput [DecidableEq α] (t : Table α) (k : Nat) (v dflt : α) (h : twf t dflt = true) : twf (tput t k v dflt) dflt = true := by
  simp only [twf, Bool.and_eq_true, List.all_eq_true, Bool.not_eq_true', decide_eq_false_iff_not] at h ⊢
  unfold tput
  split
  · exact ⟨trising_tdel t none k h.1, fun e he => h.2 e (mem_tdel he)⟩
  · next hv =>
    refine ⟨trising_tset t none k v h.1 (by simp), fun e he => ?_⟩
    rcases mem_tset he with rfl | he
    · exact hv
    · exact h.2 e he

end

/-! ## Memory (R2) -/

/-- A byte read after a byte was written. -/
theorem memByte_memSet (mem : List Host.Cell) (a j : Nat) (b : Byte) :
    memByte (memSet mem a b) j = if a = j then b else memByte mem j := tget_tput mem a j b unlistedByte

@[simp] theorem memByte_memSet_same (mem : List Host.Cell) (a : Nat) (b : Byte) : memByte (memSet mem a b) a = b := by
  simp [memByte_memSet]
theorem memByte_memSet_ne {mem : List Host.Cell} {a j : Nat} {b : Byte} (h : a ≠ j) :
    memByte (memSet mem a b) j = memByte mem j := by simp [memByte_memSet, h]

/-- A byte read after `n` bytes of a natural were written from `a` on. -/
theorem memByte_memPut (mem : List Host.Cell) (a x n j : Nat) :
    memByte (memPut mem a x n) j = if a ≤ j ∧ j < a + n then BitVec.ofNat 8 (x / 256 ^ (j - a)) else memByte mem j := by
  induction n generalizing mem a x with
  | zero => rw [memPut, if_neg (by omega)]
  | succ n ih =>
    rw [memPut, ih, memByte_memSet]
    by_cases h : a = j
    · subst h; simp
    · by_cases h1 : a + 1 ≤ j ∧ j < a + 1 + n
      · have h2 : a ≤ j ∧ j < a + (n + 1) := ⟨by omega, by omega⟩
        have h3 : j - a = (j - (a + 1)) + 1 := by omega
        rw [if_pos h1, if_pos h2, h3, pow_succ', Nat.div_div_eq_div_mul]
      · rw [if_neg h1, if_neg h, if_neg (by omega)]

/-- Bytes outside those written read as before. -/
theorem memByte_memPut_outside {mem : List Host.Cell} {a x n j : Nat} (h : ¬ (a ≤ j ∧ j < a + n)) :
    memByte (memPut mem a x n) j = memByte mem j := by rw [memByte_memPut, if_neg h]

theorem wf_memSet {mem : List Host.Cell} (a : Nat) (b : Byte) (h : Memory.wf mem = true) : Memory.wf (memSet mem a b) = true :=
  twf_tput mem a b unlistedByte h

theorem wf_memPut {mem : List Host.Cell} (a x n : Nat) (h : Memory.wf mem = true) : Memory.wf (memPut mem a x n) = true := by
  induction n generalizing mem a x with
  | zero => exact h
  | succ n ih => exact ih (a + 1) (x / 256) (wf_memSet a _ h)

theorem wf_memBytes {mem : List Host.Cell} (a : Nat) (bs : List Byte) (h : Memory.wf mem = true) :
    Memory.wf (memBytes mem a bs) = true := by
  induction bs generalizing mem a with
  | nil => exact h
  | cons b r ih => exact ih (a + 1) (wf_memSet a b h)

/-- Noting a mapping for replication writes no memory. -/
@[simp] theorem pruneRp_mem (d : Dev) : (pruneRp d).mem = d.mem := by unfold pruneRp; split <;> rfl
@[simp] theorem noteRp_mem (d : Dev) (line : Nat) (x : Line) : (noteRp d line x).mem = d.mem := by
  unfold noteRp
  generalize List.range 16 = ls
  suffices h : ∀ (ls : List Nat) (e : Dev), e.mem = d.mem → (ls.foldl _ e).mem = d.mem from h ls d rfl
  intro ls
  induction ls with
  | nil => exact fun e he => he
  | cons i r ih =>
    intro e he
    refine ih _ ?_
    dsimp only
    split
    · exact he
    · split <;> simp [he]

/-- The two operations that write device memory: a line at its slice, and a save area. -/
theorem wf_putLine (d : Dev) (line : Nat) (x : Line) (cmp : Bool) (h : Memory.wf d.mem = true) :
    Memory.wf (putLine d line x cmp).mem = true := by
  unfold putLine; exact wf_memPut _ _ _ ((noteRp_mem d line x).symm ▸ h)

theorem wf_writeArea (d : Dev) (a : Nat) (ps : List (Nat × Nat × Nat)) (h : Memory.wf d.mem = true) :
    Memory.wf (writeArea d a ps).mem = true := by
  unfold writeArea
  induction ps generalizing d with
  | nil => exact h
  | cons p r ih => exact ih { d with mem := memPut d.mem (a + p.1) p.2.2 p.2.1 } (wf_memPut _ _ _ h)

theorem wf_reset : Memory.wf State.reset.dev.mem = true := rfl

end Sys2Proof.Machine
end

