-- ==== Sys2Proof/Machine/Reads.lean ====
section
/-!
DEFINITION. What the host reads from the device's registers: BAR0 (R328, R330, R469, R471, R475) and the doorbell pages of BAR2
(R35, R327). A read changes nothing, so it is no step of the device.
-/

namespace Sys2Proof.Machine

/-- A register value laid out by 8-byte words: one aligned word of it. -/
def wordOf {w : Nat} (x : BitVec w) (i : Nat) : DWord := BitVec.ofNat 64 (x.toNat / 2 ^ (64 * i))

/-- One bit for each unit of a list. -/
def bitsWhere (n : Nat) (f : Nat → Bool) : Nat := ((List.range n).map fun i => if f i then 2 ^ i else 0).sum

/-- PORTSTAT (R328). (DESIGN CHOICE: notes/assumptions/63) -/
def readPortstat (d : Dev) : DWord :=
  BitVec.ofNat 64 (((List.range 4).map fun k =>
    ((if d.portUp.getLsbD k then 1 else 0) + (if d.portPeer.getLsbD k then 2 else 0)) * 2 ^ (4 * k)).sum)

/-- DIETHERM (R475); the model holds no temperature, so TEMP is a free value. (DESIGN CHOICE: notes/assumptions/63, 79) -/
def readDietherm (d : Dev) (die : Nat) : DWord :=
  BitVec.ofNat 64 ((freeVal d (31000 + die)).toNat % 65536 + (if d.hot.getLsbD die then 2 ^ 23 else 0) +
    (d.clockStep[die]?).getD 0 * 2 ^ 24)

/-- Device memory open to contexts (R469): the stacks present less the save regions. -/
def memBytesOpen (d : Dev) : Nat :=
  (((List.range 32).filter fun s => d.stackMask.getLsbD s).length) * 2 ^ 36 -
    (((List.range 16).filterMap fun i => saveRegion d i).map fun r => r.2).sum

/-- The bytes of a list of small numbers. -/
def packBytes (xs : List Nat) : Nat := bytesNat (xs.map fun x => BitVec.ofNat 8 x)

/-- STARTSTAT (R469). (DESIGN CHOICE: notes/assumptions/63) -/
def readStartstat (d : Dev) : BitVec 512 :=
  BitVec.ofNat 512 (d.stackMask.toNat + bitsWhere 24 (fun e => (d.edgeRates[e]?).getD 0 != 0) * 2 ^ 32 + memBytesOpen d * 2 ^ 64 +
    packBytes d.edgeRates.toList * 2 ^ 128 + packBytes d.laneRates.toList * 2 ^ 320 + d.stage * 2 ^ 352 +
    d.failStage.toNat * 2 ^ 360 + d.startNo % 2 ^ 64 * 2 ^ 384 + d.saveGb * 2 ^ 30 * 2 ^ 448)

/-- A word of a context's block of management registers (R328). -/
def readCtxReg (c : Ctx) (off : Nat) : DWord :=
  match off with
  | 0x00 => c.ptbase
  | 0x08 => c.ctxclass
  | 0x10 => c.quantum
  | 0x18 => wordOf c.nlt 0
  | 0x20 => wordOf c.nlt 1
  | 0x28 => c.pinquota
  | 0x30 => c.watchdog
  | 0x38 => c.sigwin
  | 0x40 => c.termt
  | 0x48 => c.faultq
  | 0x50 => c.ring
  | 0x58 => c.detctl
  | 0x60 => c.reeltab
  | _ => if 0x80 ≤ off ∧ off < 0x100 ∧ off % 8 = 0 then (c.part[(off - 0x80) / 8]?).getD 0 else 0

/-- A word of BAR0; other offsets read as 0, and so do the bits of MMCMD that are zero by definition (R3). -/
def bar0Word (s : State) (off : Nat) : DWord :=
  let d := s.dev
  if off < 8 then wordOf d.mmcmd 0 &&& ~~~0xFFFFC000
  else if off < 0x20 then wordOf d.mmcmd (off / 8)
  else if off = 0x20 then d.linkErr
  else if off = 0x28 then readPortstat d
  else if 0x100 ≤ off ∧ off < 0x180 then (d.diecap[(off - 0x100) / 8]?).getD 0
  else if 0x200 ≤ off ∧ off < 0x280 then readDietherm d ((off - 0x200) / 8)
  else if off = 0x1000 then d.mbcmd
  else if off = 0x1008 then d.mbstat
  else if 0x1040 ≤ off ∧ off < 0x1080 then wordOf (readStartstat d) ((off - 0x1040) / 8)
  else if 0x1800 ≤ off ∧ off < 0x2000 then
    if bitsOf d.mbstat 0 8 = 1 then freeVal d (32000 + off / 8) else mbWord d ((off - 0x1800) / 8)
  else if 0x10000 ≤ off ∧ off < 0x20000 then readCtxReg (ctxOf s.mgmt ((off - 0x10000) / 0x400)) (off % 0x400)
  else 0

/-- QCFGn, its low or its high word (R36). -/
def readQcfg (d : Dev) (ctx n : Nat) (hi : Bool) : DWord :=
  let q := subq d ctx n
  if hi then BitVec.ofNat 64 (q.logn + q.qclass * 2 ^ 6 + q.head.toNat * 2 ^ 32)
  else q.base + (if q.en then 1 else 0)

/-- A word of BAR2. -/
def bar2Word (s : State) (off : Nat) : DWord :=
  let ctx := off / 4096
  let o := off % 4096
  let c := ctxOf s.mgmt ctx
  if decide (64 ≤ ctx) then 0
  else if o < 0x100 then (subq s.dev ctx (o / 8)).tail.setWidth 64
  else if o < 0x180 then (readTrig s.dev ctx ((o - 0x100) / 8)).getD 0
  else if 0x200 ≤ o ∧ o < 0x400 then readQcfg s.dev ctx ((o - 0x200) / 16) (o / 8 % 2 == 1)
  else if 0x400 ≤ o ∧ o < 0x420 then (c.spoolcfg[(o - 0x400) / 8]?).getD 0
  else if o = 0x420 then c.ctxclass
  else if o = 0x428 then c.quantum
  else 0

/-- What a read at an offset returns: the bytes of the register from there on (R327, R328). (DESIGN CHOICE: notes/assumptions/63) -/
def readBar0 (s : State) (off : Nat) : DWord := bar0Word s (off / 8 * 8) >>> (8 * (off % 8))
def readBar2 (s : State) (off : Nat) : DWord := bar2Word s (off / 8 * 8) >>> (8 * (off % 8))

end Sys2Proof.Machine
end

