-- ==== Sys2Proof/Tests/Slice0.lean ====
section
/-!
SUPPORT. The model's own tests: ill-formed terms, words of the manual's tables and words written out from its encodings, single
steps with the results the manual's rules give, and for each statement of Certificates/Slice0 a witness of its hypotheses.
-/

namespace Sys2Proof.Tests
open Sys2Proof.Machine Sys2Proof.Claims
set_option Elab.async false

/-! ## Bodies -/

def lr (d a b : BitVec 7) : Lr := { w := false, d := d, a := a, b := b, f := false, xm := none }
def lk (d a : BitVec 7) (k : BitVec 8) : Lk := { w := false, d := d, a := a, k := k, xl := none }
def lp (pd : BitVec 3) (cc : BitVec 4) (a b : BitVec 7) : Lp := { w := false, pd := pd, cc := cc, a := a, b := b, f := false, xm := none }
def ue (sp : BitVec 7) (tag : BitVec 6) (sub : BitVec 9) : Ue := { w := false, sp := sp, tag := tag, sub := sub }
def ln : Ln := { w := false, z := 0 }
def xm (ty : BitVec 4) (opx : BitVec 7) : Xm :=
  { c := 0, p := 7, n := false, rm := 0, sat := false, neg := 0, abs := 0, ty := ty, opx := opx }
def xw (ty : BitVec 4) (sc : BitVec 3) (sub : BitVec 4) (disp : BitVec 14) : Xw :=
  { p := 7, n := false, ty := ty, pol := 0, sc := sc, sub := sub, disp := disp }
def lm (d a sb : BitVec 7) (x : Xw) : Lm := { w := false, d := d, a := a, sb := sb, z := false, xw := x }
def waits (o : Lm) : Lm := { o with w := true }

/-! ## WellFormed: an ill-formed term for each check (R63, R74, R75; the parts of the device) -/

theorem test_wf_good : WellFormed (.iadd (lr 3 1 2)) = true := by decide +kernel
theorem test_wf_reserved : WellFormed (.fence (ue 0 0 4)) = false := by decide +kernel
theorem test_wf_zerobits : WellFormed (.iaddk { lk 3 1 5 with xl := some 0x10 }) = false := by decide +kernel
theorem test_wf_type : WellFormed (.iadd { lr 3 1 2 with xm := some (xm 4 0) }) = false := by decide +kernel
theorem test_wf_register : WellFormed (.stmv (ue 6 0 0)) = false := by decide +kernel
theorem test_wf_queue : WellFormed (.iadd (lr 120 1 2)) = false := by decide +kernel
theorem test_wf_operand : WellFormed (.stq (lm 8 0 4 (xw 4 0 0 0))) = false := by decide +kernel
theorem test_wf_xbit : WellFormed (.eventLiteral { ue := ue 12 0 0xD, xl := 1 }) = false := by decide +kernel
theorem test_wf_context : WellFormed (.detctlWrite 64 0) = false := by decide +kernel
theorem test_wf_queue_number : WellFormed (.packetNop 0 32) = false := by decide +kernel
theorem test_wf_trigger : WellFormed (.triggerWrite 0 16 0) = false := by decide +kernel
theorem test_wf_die : WellFormed (.thermalHold 16) = false := by decide +kernel
theorem test_wf_partition : WellFormed (.partitionWrite 3 16 0) = false := by decide +kernel
theorem test_wf_step : WellFormed (.clockStep 0 9) = false := by decide +kernel
theorem test_wf_spool : WellFormed (.spoolPop 0 0 4) = false := by decide +kernel
theorem test_wf_port : WellFormed (.linkDown 4) = false := by decide +kernel
theorem test_wf_row : WellFormed (.tileRowEmit 16 0) = false := by decide +kernel

/-! ## Decoding: words of the manual's tables (chapters 4, 5, 7, 8, 11, 12, 15, 20, 21, 25) and words by R60 to R67 -/

/-- What the decoder makes of a word and the word after it. -/
def reads (w e : Word) (i : Instr) : Bool := match decodeWords fullAlloc w e with | .ok j => decide (j = i) | .error _ => false
def refuses (w e : Word) (r : Reason) : Bool := match decodeWords fullAlloc w e with | .ok _ => false | .error q => decide (q = r)

theorem test_decode_integer : reads 0x00418104 0 (.iadd (lr 3 1 2)) = true ∧ reads 0x05810001 0 (.shlk (lk 2 0 1)) = true ∧
    reads 0x08090206 0 (.isetp (lp 1 2 2 3)) = true := by decide +kernel
-- R60: OP 0x03 at [28:22] is 0x00C00000; d = 3 at [21:15] is 0x18000, a = 3 at [14:8] is 0x300, k8 = 0xFF
theorem test_decode_iaddk : reads 0x00C183FF 0 (.iaddk (lk 3 3 0xFF)) = true := by decide +kernel
theorem test_decode_xm : reads 0x6AC4040A 0x0CA40200
    (.ffma { lr 8 4 5 with
      w := true
      xm := some { c := 6, p := 2, n := true, rm := 1, sat := false, neg := 0, abs := 0, ty := 4, opx := 0 } }) = true := by
  decide +kernel
theorem test_decode_cvt : reads 0x2EC28400 0x01C20210 (.cvt { lr 5 4 0 with xm := some { xm 4 0x10 with sat := true } }) = true := by
  decide +kernel
theorem test_decode_lred : reads 0x71848800 0x01C00200 (.lred { lr 9 8 0 with
    w := true
    xm := some (xm 4 0) }) = true := by decide +kernel
theorem test_decode_movsv : reads 0x09028B00 0 (.movsv (lr 5 11 0) ) = true := by decide +kernel
theorem test_decode_brl : reads 0x1C0C0002 0 (.brl { w := false, p := 1, n := true, off := 2 }) = true := by decide +kernel
theorem test_decode_exit : reads 0x1D000000 0 (.exit ln) = true ∧ reads 0xC0000000 0 (.nop { ln with w := true }) = true ∧
    reads 0x8D000000 0 (.yield ln) = true := by decide +kernel
theorem test_decode_uniform : reads 0x80428308 0 (.sadd (lr 5 3 4)) = true ∧ reads 0xC60A0828 0 (.ssetc { lp 1 4 8 20 with w := true }) = true ∧
    reads 0x8C0BFFFD 0 (.bra { w := false, p := 1, n := false, off := -3 }) = true := by decide +kernel
-- R62: OP 0x32 at [28:22] with S is 0x8C800000; d = 4 is 0x20000, a = 10 is 0xA00, b = 5 at [7:1] is 0xA
theorem test_decode_brx : reads 0x8C820A0A 0 (.brx (lr 4 10 5)) = true := by decide +kernel
theorem test_decode_region : reads 0x8D430400 0 (.region (lk 6 4 0)) = true := by decide +kernel
theorem test_decode_sld : reads 0xAAC30504 0xE0020010 (.sld (lm 6 5 2 (xw 0 0 8 16))) = true := by decide +kernel
theorem test_decode_spawn : reads 0x98040005 0 (.spawn (ue 8 0 5)) = true ∧ reads 0x98460000 0 (.join (ue 12 0 0)) = true ∧
    reads 0x9880040D 0 (.event (ue 0 2 0xD)) = true ∧ reads 0x98C50601 0 (.rtrig (ue 10 3 1)) = true := by decide +kernel
theorem test_decode_memory : reads 0x74020104 0xE4010000 (.ld (waits (lm 4 1 2 (xw 4 0 4 0)))) = true ∧
    reads 0x34410300 0xE0010000 (.st (lm 2 3 0 (xw 0 0 4 0))) = true ∧ reads 0x35050300 0xEE020100 (.lds (lm 10 3 0 (xw 14 0 8 256))) = true := by
  decide +kernel
theorem test_decode_atom : reads 0x75830208 0xE1100040 (.atom (waits (lm 6 2 4 (xw 1 4 0 64)))) = true ∧
    reads 0x37040F08 0xE4000000 (.stq (lm 8 15 4 (xw 4 0 0 0))) = true := by decide +kernel
theorem test_decode_engine : reads 0x94020601 0 (.cpy (ue 4 3 1)) = true ∧ reads 0x94C60A02 0 (.mxa (ue 12 5 2)) = true ∧
    reads 0x96050001 0 (.twait (ue 10 0 1)) = true ∧ reads 0x96FD0600 0 (.qbind (ue 122 3 0)) = true ∧
    reads 0x96840080 0 (.tstat (lk 8 0 0x80)) = true := by decide +kernel
theorem test_decode_sync : reads 0x90000600 0 (.bar (ue 0 3 0)) = true ∧ reads 0x9080001C 0 (.fence (ue 0 0 0x1C)) = true ∧
    reads 0xB0C28614 0xE0120000 (.lockl (lm 5 6 10 (xw 0 4 8 0))) = true ∧
    reads 0xF1C38614 0xE1174000 (.waitx (waits (lm 7 6 10 (xw 1 5 13 0)))) = true := by decide +kernel
theorem test_decode_surface : reads 0x78040208 0xE4030000 (.ldpx (waits (lm 8 2 4 (xw 4 0 12 0)))) = true ∧
    reads 0x99020401 0 (.seal (ue 4 2 1)) = true ∧ reads 0x99C20000 0 (.tbegin (ue 4 0 0)) = true := by decide +kernel
theorem test_decode_illegal : refuses 0x00000000 0 .opcode = true ∧ refuses 0x3C000000 0 .xbit = true ∧
    refuses 0x20C18105 0x10 .zerobits = true ∧ refuses 0x2AC4040A 0x0CB80200 .reserved = true ∧ refuses 0x99430000 0 .register = true ∧
    refuses 0x36030300 0xE0120000 .operand = true := by decide +kernel
theorem test_encode : encode (.iadd (lr 3 1 2)) = [0x00418104] ∧ encode (.sld (lm 6 5 2 (xw 0 0 8 16))) = [0xAAC30504, 0xE0020010] := by
  decide +kernel

/-! ## A small machine: one skein of one group of context 0, a page of data at 0x2000, some registers -/

/-- Vector registers of a lane: v0 its number, v2 thrice it, v3 its four-byte offset, v4 1.0, v5 the greatest and v6 the least signed
word, v7 all ones, v8 and v9 the address 0x2000 plus the offset, v10 0x2002. -/
def regsOf (l : Nat) : Vector Word 120 :=
  let v0 : Vector Word 120 := Vector.replicate 120 0
  let set (v : Vector Word 120) (e : Nat × Nat) : Vector Word 120 := v.setIfInBounds e.1 (BitVec.ofNat 32 e.2)
  [(0, l), (2, 3 * l), (3, 4 * l), (4, 0x3F800000), (5, 0x7FFFFFFF), (6, 0x80000000), (7, 0xFFFFFFFF), (8, 0x2000 + 4 * l),
    (10, 0x2002)].foldl set v0
def theThread (l : Nat) : Thread := { progThread l with
  v := regsOf l
  p := if l < 16 then 2 else 0 }

/-- The skein: s2, s3 the address 0x2000, s4 five, s5 seven, s6 all ones, s8 0x2002, s10 0x8000; c1 true. -/
def theSkein : Skein :=
  let set (v : Vector Word 120) (e : Nat × Nat) : Vector Word 120 := v.setIfInBounds e.1 (BitVec.ofNat 32 e.2)
  { progSkein with
    threads := Vector.ofFn fun l : Fin 32 => theThread l.val
    s := [(2, 0x2000), (4, 5), (5, 7), (6, 0xFFFFFFFF), (8, 0x2002), (10, 0x8000)].foldl set (Vector.replicate 120 0)
    c := 2 }
/-- The group has four KiB of scratchpad and one accumulator. -/
def theGroup : Group := { progGroup with
  header := progHeader + 2 ^ 528 + 4 * 2 ^ 552
  gublock := 0x2000 }

/-- The machine as that skein is about to issue with all lanes at 0x1000; the page at 0x2000 lies at 0x21000 (R186: V, L, W, XN) and
holds its own words' numbers. -/
def dataMem : List Host.Cell := memPut (memPut (progTables []) 0x13010 0x2100F 8) 0x21000
  ((List.range 32).foldl (fun x i => x + (i + 1) * 2 ^ (32 * i)) 0) 128
def sM : State :=
  { mgmt := { ctxs := resetMgmt.ctxs.setIfInBounds 0 (progCtx resetCtx) }
    dev := { progDev resetDev [] with
      mem := dataMem
      groups := [theGroup]
      skeins := [theSkein]
      cur := { skein := 0, lanes := 0xFFFFFFFF, pc := 0x1000, rotate := false } } }
/-- The same machine with a deterministic context. -/
def sD : State := { sM with mgmt := { ctxs := sM.mgmt.ctxs.setIfInBounds 0 { ctxOf sM.mgmt 0 with detctl := 1 } } }

/-- The page of data as a leaf, and the spindle's L1 with its first line; the bundle is lanes 0 and 1. -/
def theLeaf : Leaf :=
  { base := 0x21000, size := 4096, pol := 0, sys := false, cmp := false, rp := false, tg := false, xn := true, w := true }
def theLine : L1Line :=
  { spindle := 0, asid := 0, va := 0x2000 / 128, pa := 0x21000 / 128, data := BitVec.ofNat 1024 (memNat dataMem 0x21000 128),
    filled := 0xFFFFFFFF, dirty := 0, tags := 0, leaf := theLeaf, home := true, pin := false, lock := false, st := .s, queued := false,
    stale := false }
def sC : State := { sM with dev := { sM.dev with
  l1 := [theLine]
  tlb := [{ cluster := false, unit := 0, asid := 0, va := 0x2000, leaf := theLeaf }]
  cur := { skein := 0, lanes := 3, pc := 0x1000, rotate := false } } }

/-- A device with its skein changed. -/
def onSkein (f : Skein → Skein) (s : State) : State := { s with dev := modSkein s.dev 0 f }
/-- The machine after an instruction. -/
def after (i : Instr) (s : State) : State := match exec i s with | .next t => t | _ => s
def devAfter (i : Instr) (s : State) : Dev := (after i s).dev
/-- The results an instruction has put in flight: of a lane's register, of a uniform register, a predicate, a condition. -/
def puts (i : Instr) (s : State) : List PWrite := (curSkein (devAfter i s)).pend.flatMap fun p => p.ws
def gives (i : Instr) (s : State) (l r : Nat) (x : Word) : Bool := (puts i s).contains (.v l r x)
def givesS (i : Instr) (s : State) (r : Nat) (x : Word) : Bool := (puts i s).contains (.s r x)
/-- The records an instruction leaves: cause, address, lanes. -/
def faults (i : Instr) (s : State) : List (Cause × DWord × Mask) := (devAfter i s).records.map fun r => (r.cause, r.addr, r.lanes)
def pcOf (d : Dev) (l : Nat) : DWord := (threadOf (curSkein d) l).pc

/-! ## Single steps, with the results of the rules named -/

-- R114: wrapping and saturating addition of the greatest word and the lane's number
theorem test_iadd_wraps : gives (.iadd (lr 12 5 0)) sM 1 12 0x80000000 = true := by decide +kernel
theorem test_iadd_saturates : gives (.iadd { lr 12 5 0 with xm := some { xm 0 0 with sat := true } }) sM 9 12 0x7FFFFFFF = true := by
  decide +kernel
theorem test_isub_order : gives (.isub (lr 12 0 2)) sM 1 12 0xFFFFFFFE = true := by decide +kernel
theorem test_iaddk_signed : gives (.iaddk (lk 12 2 0xFF)) sM 1 12 2 = true := by decide +kernel
theorem test_imulh_signed : gives (.imulh (lr 12 6 6)) sM 0 12 0x40000000 = true := by decide +kernel
-- R115: the least word divided by minus one, and a division by zero
theorem test_idiv_least : gives (.idiv (lr 12 6 7)) sM 0 12 0x80000000 = true := by decide +kernel
theorem test_idiv_zero : gives (.idiv (lr 12 5 0)) sM 0 12 0xFFFFFFFF = true := by decide +kernel
-- R116, R117
theorem test_andn : gives (.andn (lr 12 7 5)) sM 0 12 0x80000000 = true := by decide +kernel
theorem test_andk_natural : gives (.andk (lk 12 7 0x81)) sM 0 12 0x81 = true := by decide +kernel
theorem test_shl_width : gives (.shl (lr 12 7 3)) sM 8 12 0 = true := by decide +kernel
theorem test_sar_width : gives (.sar (lr 12 6 3)) sM 31 12 0xFFFFFFFF = true := by decide +kernel
-- R118 to R120: fields of all ones at bit 4
theorem test_clz : gives (.clz (lr 12 4 0)) sM 0 12 2 = true := by decide +kernel
theorem test_brev : gives (.brev (lr 12 4 0)) sM 0 12 0x1FC := by decide +kernel
theorem test_lea : gives (.lea { lr 12 0 2 with xm := some (xm 14 2) }) sM 3 12 39 = true := by decide +kernel
-- R122, R123
theorem test_isetp_lt : (puts (.isetp (lp 2 2 6 0)) sM).contains (.p 0 2 true) = true := by decide +kernel
theorem test_sel_false : gives (.sel { lr 12 4 5 with xm := some { xm 0 0 with p := 1 } }) sM 20 12 0x7FFFFFFF = true := by decide +kernel
-- R108: no result in a lane whose guard is false
theorem test_guard : gives (.iadd { lr 12 0 0 with xm := some { xm 0 0 with p := 1 } }) sM 15 12 30 = true ∧
    (puts (.iadd { lr 12 0 0 with xm := some { xm 0 0 with p := 1 } }) sM).length = 16 := by decide +kernel
-- R124, R126
theorem test_movk : gives (.movk { lk 12 0 0 with xl := some 0x12345678 }) sM 31 12 0x12345678 = true := by decide +kernel
theorem test_movsv : gives (.movsv (lr 12 4 0)) sM 31 12 5 = true := by decide +kernel
theorem test_plop : (puts (.plop { w := false, pd := 2, pa := 1, pb := 7, pc := 7, lut := 0x80, z := 0, xm := none }) sM).contains
    (.p 15 2 true) = true := by decide +kernel
-- R129 to R131, R137: 1.0 + 1.0, the canonical NaN of infinity less infinity's kind (0 · NaN), 1.0 / 1.0, 1.0 to an integer
theorem test_fadd : gives (.fadd (lr 12 4 4)) sM 0 12 0x40000000 = true := by decide +kernel
theorem test_fmul_nan : gives (.fmul (lr 12 4 7)) sM 0 12 0x7FC00000 = true := by decide +kernel
theorem test_fdiv_zero : gives (.fdiv (lr 12 4 1)) sM 0 12 0x7F800000 = true ∧
    (threadOf (curSkein (devAfter (.fdiv (lr 12 4 1)) sM)) 0).flags = 2 := by decide +kernel
theorem test_fclass : gives (.fclass (lr 12 1 0)) sM 0 12 0x20 = true ∨ gives (.fclass (lr 12 1 0)) sM 0 12 0x40 = true := by
  decide +kernel
-- R139: selector bytes 3, 2, 1, 0 of v5, one with the sign of byte 3
theorem test_prmt : gives (.prmt { lr 12 7 3 with xm := some { xm 14 0 with c := 5 } }) sM 0 12 0xFFFFFFFF = true := by decide +kernel
-- R142 to R145: lane 3 from lane 2, the ballot of p1, the sum of 0 to 31, the mask of equal values
theorem test_shflup : gives (.shflup (lr 12 0 3)) sM 0 12 0 = true := by decide +kernel
theorem test_ballot : gives (.ballot { w := false, d := 12, pd := 0, ps := 1, n := false, mode := 0, z := 0, xm := none }) sM 31 12
    0x0000FFFF = true := by decide +kernel
theorem test_lred : gives (.lred { lr 12 0 0 with xm := some (xm 0 0) }) sM 7 12 496 = true := by decide +kernel
theorem test_match : gives (.matchLanes (lr 12 4 0)) sM 9 12 0xFFFFFFFF = true := by decide +kernel
-- R157, R158, R161: uniform arithmetic and conditions
theorem test_sadd : givesS (.sadd (lr 12 4 6)) sM 12 4 = true := by decide +kernel
theorem test_ssetc : (puts (.ssetc (lp 2 2 6 4)) sM).contains (.c 2 true) = true := by decide +kernel
theorem test_movvs : givesS (.movvs (lk 12 0 0)) sM 12 0 = true := by decide +kernel
-- R147, R171, R175: the branch targets, lane by lane and for the bundle
theorem test_brl : pcOf (devAfter (.brl { w := false, p := 1, n := false, off := 2 }) sM) 15 = 0x1008 ∧
    pcOf (devAfter (.brl { w := false, p := 1, n := false, off := 2 }) sM) 16 = 0x1004 := by decide +kernel
theorem test_bra_back : pcOf (devAfter (.bra { w := false, p := 1, n := false, off := -3 }) sM) 31 = 0xFF4 := by decide +kernel
theorem test_bkpt : faults (.bkpt (lk 0 0 7)) sM = [(.bkpt, 0, 0xFFFFFFFF)] := by decide +kernel
theorem test_illegal : faults (.illegalWord 0 0 .opcode) sM = [(.illegal, 0, 0xFFFFFFFF)] ∨
    (faults (.illegalWord 0 0 .opcode) sM).map (fun f => f.1) = [.illegal] := by decide +kernel
-- R151: EXIT of all lanes retires the skein, and the group is due to retire
theorem test_exit : (curSkein (devAfter (.exit ln) sM)).resident = false ∧ (devAfter (.exit ln) sM).agenda = [.groupRetire 0] := by
  decide +kernel
-- R169, R193, R363: a load and a store of lanes 0 and 1 at an L1 that holds the line; a misaligned pointer
theorem test_ld : gives (.ld (lm 12 3 2 (xw 0 0 4 0))) sC 1 12 2 = true := by decide +kernel
theorem test_ld_align : faults (.ld (lm 12 10 0 (xw 0 0 8 0))) sC = [(.align, 0x2002, 3)] := by decide +kernel
theorem test_st : byteSeen (devAfter (.st (lm 6 3 2 (xw 0 0 4 0))) sC) 0 0x21007 = 0x80 := by decide +kernel
theorem test_sld : givesS (.sld (lm 12 0 2 (xw 0 0 0 4))) sC 12 2 = true := by decide +kernel
theorem test_lds : gives (.lds (lm 12 3 0 (xw 0 0 8 0))) sM 1 12 0 = true := by decide +kernel


-- R8: the first and last edge along a row, and along a column
theorem test_edges : edgeDies 0 = (0, 1) ∧ edgeDies 11 = (14, 15) ∧ edgeDies 12 = (0, 4) ∧ edgeDies 23 = (11, 15) := by decide +kernel

/-! ## Witnesses: for each statement a state and operands that meet its hypotheses, clause by clause -/

/-- Of a computation that may fail: whether it does not, and its value. -/
def isOk {ε α : Type} (x : Except ε α) : Bool := match x with | .ok _ => true | .error _ => false
def getOk {ε α : Type} (x : Except ε α) (y : α) : α := match x with | .ok a => a | .error _ => y
/-- Of the checks of accesses: whether they pass, and the accesses. -/
def passes (c : Checked) : Bool := match c with | .go _ => true | _ => false
def passed (c : Checked) : List (LAcc × Leaf × Nat) := match c with | .go ls => ls | _ => []

/-- Where the context is not deterministic no register is a hazard (R99). -/
theorem clear_of_free {s : State} {ex : Mask} {rds : List Rd} (h : isDet s.mgmt (curCtx s.dev) = false) : Clear s ex rds :=
  fun h1 => absurd (h.symm.trans h1) (by decide)
theorem free_sM : isDet sM.mgmt (curCtx sM.dev) = false := by decide +kernel
theorem free_sC : isDet sC.mgmt (curCtx sC.dev) = false := by decide +kernel
theorem issuing_sM : Issuing sM := by unfold Issuing; decide +kernel
theorem issuing_sC : Issuing sC := by unfold Issuing; decide +kernel
theorem issuing_sD : Issuing sD := by unfold Issuing; decide +kernel
/-- The deterministic machine: no result is in flight, so nothing is pending. -/
theorem det_sD : isDet sD.mgmt (curCtx sD.dev) = true ∧ hazOf (curSkein sD.dev) sD.dev.cur.lanes 0xFFFFFFFF [.pb 7, .v 5 1, .v 0 1] = 0 := by
  decide +kernel

/-- The integer types 0 and 3 at their ends, in a machine of each kind. -/
theorem wit_LaneIntegerArithmetic : Issuing sM ∧ intType (lrXm (lr 12 5 0) 0).ty ∧ intType (lrXm { lr 12 4 6 with xm := some (xm 3 0) } 0).ty ∧
    LaneClear sM 7 false [.v 5 1, .v 0 1] ∧ Issuing sD ∧ Clear sD 0xFFFFFFFF [.pb 7, .v 5 1, .v 0 1] :=
  ⟨issuing_sM, by unfold intType; decide +kernel, by unfold intType; decide +kernel, clear_of_free free_sM, issuing_sD, fun _ => det_sD.2⟩
theorem wit_LaneBits : Issuing sM ∧ bitType (lrXm (lr 12 5 0) 0).ty ∧ bitType (lrXm { lr 12 4 6 with xm := some (xm 14 0) } 0).ty ∧
    LaneClear sM 7 false [.v 5 1, .v 0 1] ∧ (lrXm (lr 12 5 0) 0).ty = 0 ∧ (lrXm { lr 12 4 6 with xm := some (xm 1 0) } 1).ty = 1 :=
  ⟨issuing_sM, .inl (by decide +kernel), .inr (by decide +kernel), clear_of_free free_sM, by decide +kernel, by decide +kernel⟩
theorem wit_LaneMoves : Issuing sM ∧ bitType (lrXm (lr 12 5 0) 0).ty ∧ (lrXm { lr 119 116 6 with xm := some (xm 15 0) } 0).ty = 15 ∧
    (lr 119 116 6).a.toNat < 120 ∧ (lr 119 116 6).d.toNat < 120 ∧ LaneClear sM 7 false [.v 116 4] :=
  ⟨issuing_sM, .inl (by decide +kernel), by decide +kernel, by decide +kernel, by decide +kernel, clear_of_free free_sM⟩
def lvOf (mode : BitVec 3) : Lv := { w := false, d := 12, pd := 0, ps := 1, n := false, mode := mode, z := 0, xm := none }
theorem wit_LanePredicates : Issuing sM ∧ intType (lpXm (lp 1 5 6 0) 0).ty ∧ (lp 1 5 6 0).cc.toNat < 6 ∧ (lvOf 0).mode = 0 ∧
    (lvOf 1).mode = 1 ∧ (lvOf 2).mode = 2 ∧ (lvOf 3).mode = 3 ∧ LaneClear sM 7 false [.v 6 1, .v 0 1] :=
  ⟨issuing_sM, by unfold intType; decide +kernel, by decide +kernel, rfl, rfl, rfl, rfl, clear_of_free free_sM⟩
theorem wit_LaneFloat : Issuing sM ∧ LaneClear sM 7 false [.v 4 1, .v 4 1] ∧ Issuing sD ∧ isDet sD.mgmt (curCtx sD.dev) = true :=
  ⟨issuing_sM, clear_of_free free_sM, issuing_sD, det_sD.1⟩
theorem wit_FloatSpecialCases : fmtF64 ∈ [fmtF64, fmtF32, fmtF16, fmtBF16] ∧ fmtBF16 ∈ [fmtF64, fmtF32, fmtF16, fmtBF16] ∧
    fisNan (.nan false false) = true ∧ (1 : Nat) ≠ 0 := by decide +kernel
theorem wit_CrossLane : Issuing sM ∧ bitType (lrXm (lr 12 0 3) 0).ty ∧ (lvOf 2).mode.toNat < 3 ∧ LaneClear sM 7 false [.v 0 1, .v 3 1] :=
  ⟨issuing_sM, .inl (by decide +kernel), by decide +kernel, clear_of_free free_sM⟩
theorem wit_UniformInteger : Issuing sM ∧ intType (lrXm (lr 12 4 6) 0).ty ∧ bitType (lrXm (lr 12 4 6) 0).ty ∧
    (lr 119 0 0).a.toNat < 120 ∧ (lr 119 0 0).d.toNat < 120 ∧ UniClear sM 7 false [.s 4 1, .s 6 1] :=
  ⟨issuing_sM, by unfold intType; decide +kernel, .inl (by decide +kernel), by decide +kernel, by decide +kernel, clear_of_free free_sM⟩
theorem wit_UniformFloatsAndConditions : Issuing sM ∧ intType (lpXm (lp 2 5 6 4) 0).ty ∧ (lp 2 5 6 4).cc.toNat < 6 ∧ (lp 2 2 0 0).cc.toNat < 3 ∧
    UniClear sM 7 false [.s 4 1, .s 6 1] :=
  ⟨issuing_sM, by unfold intType; decide +kernel, by decide +kernel, by decide +kernel, clear_of_free free_sM⟩
/-- MOVVS of lane 31 in a deterministic context, where v0 is not pending. -/
theorem wit_LaneToUniform : Issuing sD ∧ isDet sD.mgmt (curCtx sD.dev) = true ∧ sD.dev.cur.lanes.getLsbD 31 = true ∧
    hazV (curSkein sD.dev) (maskOf (· == 31)) 0 1 = 0 ∧ UniClear sM 7 false [] :=
  ⟨issuing_sD, det_sD.1, by decide +kernel, by decide +kernel, clear_of_free free_sM⟩
/-- RDSR of %wid, and of %clock where the context is not deterministic. -/
theorem wit_SpecialRegistersRead : Issuing sM ∧ (kNatural (lk 12 0 0x16)).toNat = 0x16 ∧ ¬ (isDet sM.mgmt (curCtx sM.dev) = true) ∧
    Issuing sD ∧ (kNatural (lk 12 0 0x01)).toNat ∉ [0x16, 0x17, 0x18, 0x19] ∧ LaneClear sM 7 false [] :=
  ⟨issuing_sM, by decide +kernel, by rw [free_sM]; decide, issuing_sD, by decide +kernel, clear_of_free free_sM⟩
/-- WRSR of %fpmode; of %gublock from s2 (0x2000), from s8 (misaligned) and from s12, made a non-canonical address. -/
def sNon : State := onSkein (fun k => { k with s := k.s.setIfInBounds 13 0x100000 }) sM
theorem wit_SpecialRegistersWritten : Issuing sM ∧ LaneClear sM 7 false [] ∧ kNatural (lk 0 4 0x0F) = 0x0F ∧ kNatural (lk 0 2 0x11) = 0x11 ∧
    (readS64 sM.dev (curSkein sM.dev) 2).toNat % 64 = 0 ∧ nonCanon (readS64 sM.dev (curSkein sM.dev) 2) = false ∧
    (readS64 sM.dev (curSkein sM.dev) 8).toNat % 64 ≠ 0 ∧ (readS64 sNon.dev (curSkein sNon.dev) 12).toNat % 64 = 0 ∧
    nonCanon (readS64 sNon.dev (curSkein sNon.dev) 12) = true ∧ Clear sM 0xFFFFFFFF [.c 7, .s 2 2] :=
  ⟨issuing_sM, clear_of_free free_sM, by decide +kernel, by decide +kernel, by decide +kernel, by decide +kernel, by decide +kernel,
    by decide +kernel, by decide +kernel, clear_of_free free_sM⟩

/-- The bundle is lane 0; its stack pointer, its L1 line of the stack (the zero page at physical 0x22000) and the TLB entry. -/
def stackLeaf : Leaf := { theLeaf with base := 0x22000 }
def stackLine : L1Line := { theLine with
  va := 1
  pa := 0x22080 / 128
  data := 0x1000 * 2 ^ (8 * 120)
  leaf := stackLeaf }
def atStack (stk : DWord) : State :=
  let s := onSkein (fun k => modThreads k [0] fun _ t => { t with stk := stk }) sM
  { s with dev := { s.dev with
    l1 := [stackLine]
    tlb := [{ cluster := false, unit := 0, asid := 0, va := 0, leaf := stackLeaf }]
    cur := { skein := 0, lanes := 1, pc := 0x1000, rotate := false } } }

/-- The group under RR, for YIELD; s10 holds 0x8000 with a zero above it. -/
def sRR : State := { sM with dev := { sM.dev with groups := [{ theGroup with header := theGroup.header + 2 ^ 496 }] } }
theorem wit_JumpsAndRegions : Issuing sM ∧ UniClear sM 7 false [] ∧ condUnder sM 7 false = true ∧ condUnder sM 0 false = false ∧
    readS64 sM.dev (curSkein sM.dev) 2 % 4 = 0 ∧ readS64 sM.dev (curSkein sM.dev) 8 % 4 ≠ 0 ∧
    (maskOf fun l => sM.dev.cur.lanes.getLsbD l && getBits (laneReader sM.dev l) 8 2 % 4 != 0) = 0 ∧
    (maskOf fun l => sM.dev.cur.lanes.getLsbD l && getBits (laneReader sM.dev l) 10 2 % 4 != 0) ≠ 0 ∧
    policyOf sM.mgmt (curGroup sM.dev) = 0 ∧ policyOf sRR.mgmt (curGroup sRR.dev) = 1 ∧ policyOf sD.mgmt (curGroup sD.dev) = 2 :=
  ⟨issuing_sM, clear_of_free free_sM, by and_intros <;> decide +kernel⟩

/-- Threads inside a region; a run-ahead of every lane. -/
def inRegion (ls : List Nat) : Skein → Skein := fun k => modThreads k ls fun _ t => { t with
  region := some { entry := 0x1000, nv := 4, ns := 2, acc := false } }
def aRun : RunAhead :=
  { lanes := 0xFFFFFFFF, pc := 0x1000, addr := 0x5000, flanes := 1, sub := 3, entry := 0x1000, next := 0x1008, issues := 2,
    pages := [0x5003] }

/-- CALL with its pointer at 256 (its first word below is at 248, the top of line 1), RET with it at 248, and the pointers that fail:
CALL's at 0 and at 4, RET's at 256, the end of the region; CALL in run-ahead. -/
def sCall : State := atStack 256
def sRet : State := atStack 248
def callMoved (s : State) : Dev := moved s false 4 false
/-- RET's loaded address made odd; what RET of lane 0 loads. -/
def sRetOdd : State := { sRet with dev := { sRet.dev with l1 := [{ stackLine with data := 0x1002 * 2 ^ (8 * 120) }] } }
def retLoads (s : State) : Option (List (Nat × Nat)) :=
  match loadLanes s.mgmt (callMoved s) 0 0 8 0 (passed (retChecks s.mgmt s.dev 1)) with | .ok (vs, _, _) => some vs | .error _ => none
def sCallRun : State := onSkein (fun k => { inRegion [0] k with runAhead := [{ aRun with lanes := 1 }] }) sCall
theorem wit_CallAndReturn : Issuing sCall ∧ isDet sCall.mgmt (curCtx sCall.dev) = false ∧
    (passed (callChecks sCall.mgmt sCall.dev 1)).length = 1 ∧
    ownedLine sCall.dev (passed (callChecks sCall.mgmt sCall.dev 1)) = none ∧ runsAhead sCall.dev = false ∧
    isOk (storeLanes sCall.mgmt (callMoved sCall) 0 0 8 0 (fun _ => (sCall.dev.cur.pc + 4).toNat)
      (passed (callChecks sCall.mgmt sCall.dev 1))) = true ∧
    (passed (retChecks sRet.mgmt sRet.dev 1)).length = 1 ∧ ownedLine sRet.dev (passed (retChecks sRet.mgmt sRet.dev 1)) = none ∧
    retLoads sRet = some [(0, 0x1000)] ∧ retLoads sRetOdd = some [(0, 0x1002)] ∧
    ((passed (retChecks sRetOdd.mgmt sRetOdd.dev 1)).length = 1 ∧ ownedLine sRetOdd.dev (passed (retChecks sRetOdd.mgmt sRetOdd.dev 1)) = none) ∧
    ((atStack 4).dev.cur.lanes = 1 ∧ (threadOf (curSkein (atStack 4).dev) 0).stk.toNat <
      stackStart (curGroup (atStack 4).dev) (threadOf (curSkein (atStack 4).dev) 0) + 8) ∧
    stackEnd (curGroup sCall.dev) (threadOf (curSkein sCall.dev) 0) ≤ (threadOf (curSkein sCall.dev) 0).stk.toNat ∧
    runsAhead sCallRun.dev = true ∧ (passed (callChecks sCallRun.mgmt sCallRun.dev 1)).length = 1 ∧ Issuing sCallRun := by
  refine ⟨by unfold Issuing; decide +kernel, ?_⟩
  and_intros <;> first | decide +kernel | (unfold Issuing; decide +kernel)

/-- BRX from s2 with s12 = 0 or s4 = 5 as the index and a count of 7 or 5: entries 1 (misaligned), 5 in the last word and, of a line
with a zero word, 0; from s8 the table is misaligned. -/
def sZero : State := { sC with dev := { sC.dev with l1 := [{ theLine with data := 0x8 }] } }
def tableEntry (s : State) (p : DWord) : Option Int :=
  match passed (bundleChecks s.mgmt s.dev p 4 0) with
  | [(_, l, pa)] =>
    match loadVia s.mgmt (moved s false 4 false) (curCtx s.dev) (curSpindle s.dev) p l pa 4 0 0 with
    | .ok (v, _, _) => some (BitVec.ofNat 32 (bundleOver s.mgmt s.dev pa 4 v)).toInt
    | .error _ => none
  | _ => none
theorem wit_TableBranch : Issuing sC ∧ UniClear sC 7 false [.s 5 1, .s 2 2, .s 12 1] ∧ condUnder sC 7 false = true ∧ condUnder sC 0 false = false ∧
    (readS64 sC.dev (curSkein sC.dev) 8).toNat % 4 ≠ 0 ∧ (readS64 sC.dev (curSkein sC.dev) 2).toNat % 4 = 0 ∧
    (uniReader sC.dev 4).toNat ≤ (uniReader sC.dev 4).toNat ∧ (uniReader sC.dev 4).toNat < (uniReader sC.dev 5).toNat ∧
    tableEntry sC 0x2014 = some 6 ∧ tableEntry sZero 0x2000 = some 8 ∧ tableEntry sZero 0x2014 = some 0 ∧
    ownedLine sC.dev (passed (bundleChecks sC.mgmt sC.dev 0x2014 4 0)) = none := by
  refine ⟨issuing_sC, clear_of_free free_sC, ?_⟩
  and_intros <;> decide +kernel

/-- An ALIGN outside regions; an XLATE inside them, where run-ahead begins, with every lane of the bundle in a region or the low half
alone; a skein that runs ahead. -/
def sIn : State := onSkein (inRegion (List.range 32)) sM
def sMixed : State := onSkein (inRegion (List.range 16)) sM
def sRun : State := onSkein (fun k => { inRegion (List.range 32) k with runAhead := [aRun] }) sM
theorem wit_ExceptionEntry : Issuing sM ∧ raOf (curSkein sM.dev) sM.dev.cur.lanes = none ∧ (faultAt .align 0x2002 1).cause ≠ .xlate ∧
    { faultAt .xlate 0x2002 1 with sub := 1 }.sub = 1 ∧ entryOf (curSkein sMixed.dev) (1 <<< 16) = none :=
  ⟨issuing_sM, by and_intros <;> decide +kernel⟩
theorem wit_FaultsInPlace : Issuing sM ∧ LaneClear sM 7 false [] ∧ raOf (curSkein sM.dev) sM.dev.cur.lanes = none ∧
    entryOf (curSkein sM.dev) sM.dev.cur.lanes = none :=
  ⟨issuing_sM, clear_of_free free_sM, by decide +kernel, by decide +kernel⟩
theorem wit_RunAheadBeginsAndEnds : Issuing sIn ∧ Issuing sMixed ∧ Issuing sRun ∧ raOf (curSkein sIn.dev) sIn.dev.cur.lanes = none ∧
    (faultAt .xlate 0x5000 1).cause = .xlate ∧ (faultAt .xlate 0x5000 1).sub ≠ 1 ∧
    (entryOf (curSkein sIn.dev) (faultAt .xlate 0x5000 1).lanes).isSome = true ∧
    (entryOf (curSkein sMixed.dev) (faultAt .xlate 0x5000 0x18001).lanes).isSome = true ∧
    (0x18001 : Mask) &&& sMixed.dev.cur.lanes = 0x18001 ∧ (faultAt .xlate 0x5000 1).undefPc = false ∧
    raOf (curSkein sRun.dev) sRun.dev.cur.lanes = some aRun := by
  refine ⟨by unfold Issuing; decide +kernel, by unfold Issuing; decide +kernel, by unfold Issuing; decide +kernel, ?_⟩
  and_intros <;> decide +kernel

/-- Of a Distaff's access: whether it succeeds, and its value. -/
def distOk {α : Type} (x : Machine.Dist α) : Bool := match x with | .ok _ => true | _ => false
def distVal {α : Type} (x : Machine.Dist α) (y : α) : α := match x with | .ok a => a | _ => y

/-- A record of a cause, of the skein or of none, in slot 0 of a fault queue of 64 slots at 0x2000. -/
def recAt (c : Cause) (u : Option Nat) : Rec := { blankRec 9 0 c with
  skein := u
  launch := u
  pc := 0x1000
  lanes := 0xFFFFFFFF
  bundle := 0xFFFFFFFF
  next := 0x1004
  slot := some 0
  sup := some (true, 12, 1) }
def sRec (c : Cause) (u : Option Nat) : State :=
  { mgmt := { ctxs := sM.mgmt.ctxs.setIfInBounds 0 { ctxOf sM.mgmt 0 with faultq := 0x2006 } }
    dev := { sM.dev with
      records := [recAt c u]
      nextId := 10 } }
def engRec : Rec := { recAt .align (some 0) with eng := true }
def ownLock : Park := .lock 0x420 0x2000 12 2 0
def sDead (p : Option Park) : State := onSkein (fun k => { k with park := p }) (sRec .deadlock (some 0))
def withdrawn (s : State) : Dev := dropLockTimers (dropOtherEntries s.dev 0 none) 0
theorem wit_ExceptionReturn : rec? (sRec .align (some 0)).dev 9 = some (recAt .align (some 0)) ∧ (recAt .align (some 0)).reorder = false ∧
    (recAt .align (some 0)).cause ≠ .watchdog ∧ (recAt .align (some 0)).cause ≠ .bkpt ∧ (recAt .align (some 0)).cause ≠ .deadlock ∧
    (recAt .align (some 0)).eng = false ∧ rec? (sRec .bkpt (some 0)).dev 9 = some (recAt .bkpt (some 0)) ∧
    (recAt .align (some 0)).slot = some 0 ∧ (recAt .align (some 0)).sup = some (true, 12, 1) ∧
    distOk (distRead (sRec .align (some 0)).mgmt (sRec .align (some 0)).dev 0 (ringSlot 0x2006 0 + 48) 8 8) = true ∧
    rec? (sRec .watchdog none).dev 9 = some (recAt .watchdog none) ∧ skein? (sRec .align (some 0)).dev 0 ≠ none ∧
    (rec? { (sRec .align (some 0)).dev with records := [engRec] } 9 = some engRec ∧ engRec.eng = true ∧ engRec.cause ≠ .watchdog) ∧
    rec? (sDead (some ownLock)).dev 9 = some (recAt .deadlock (some 0)) ∧ (skeinOf (withdrawn (sDead (some ownLock))) 0).park = some ownLock ∧
    (skeinOf (withdrawn (sDead none)) 0).park = none := by
  and_intros <;> decide +kernel

/-- The skein waits for the answer of a service call. -/
def sSvc : State := onSkein (fun k => { k with
  park := some (.svc 0 3 0x1000)
  parkLanes := 3 }) sM
theorem wit_Kills : rec? (sRec .align (some 0)).dev 9 = some (recAt .align (some 0)) ∧ (recAt .align (some 0)).skein = some 0 ∧
    (skein? (sRec .align (some 0)).dev 0).isSome = true ∧ isOk (killOne (sRec .align (some 0)).mgmt (sRec .align (some 0)).dev 0) = true ∧
    (recAt .align (some 0)).launch = some 0 ∧ isOk (endLaunches (sRec .align (some 0)).mgmt (sRec .align (some 0)).dev [0]) = true ∧
    (recAt .watchdog none).launch = none ∧ (sRec .watchdog none).dev.groups.filter (fun g => g.ctx == 0 && g.resident) = [theGroup] ∧
    rec? (sRec .illegal none).dev 9 = some (recAt .illegal none) ∧ (recAt .illegal none).cause ≠ .watchdog ∧
    isStalled sM.dev 0 = false ∧ isStalled (onSkein (fun k => { k with stops := [9] }) sM).dev 0 = true ∧
    (skeinOf sSvc.dev 0).park = some (.svc 0 3 0x1000) ∧ isOk (killOne sSvc.mgmt sSvc.dev 0) = true := by
  and_intros <;> decide +kernel

/-- A record still to be written, in a context without a ring and in one with a ring of 64 slots whose HEAD and TAIL are 0 or whose
TAIL is 64; a handler raised it. One that a handler is to take, in a ring whose HREC has CODE 0x1000; one of a skein; an ALL-EXTERNAL
record. -/
def newRecord : Rec := { blankRec 9 0 .illegal with byHandler := true }
def sNoRing : State := { sM with dev := { sM.dev with records := [newRecord] } }
def sRing : State := { sNoRing with
  mgmt := { ctxs := sM.mgmt.ctxs.setIfInBounds 0 { ctxOf sM.mgmt 0 with faultq := 0x2006 } }
  dev := { sNoRing.dev with mem := memPut dataMem 0x21000 0 64 } }
def sFull : State := { sRing with dev := { sRing.dev with mem := memPut sRing.dev.mem 0x21008 64 8 } }
def hostRec : Rec := blankRec 9 0 .illegal
def lockRec : Rec := { newRecord with skein := some 0 }
def sHand : State := { sRing with dev := { sRing.dev with
  mem := memPut sRing.dev.mem 0x21020 0x1000 32
  records := [hostRec] } }
def written : Dev := distVal (ringPut sHand.mgmt (dropWaiter sHand.dev (.resp 9)) 0 0x2006 0 [recordWord hostRec]) sHand.dev
/-- A ring in an unmapped page, and one in a page that is not writable. -/
def isBad {α : Type} (x : Machine.Dist α) : Bool := match x with | .bad _ => true | _ => false
def sShut : State := { sRing with dev := { sRing.dev with
  tlb := [{ cluster := false, unit := noSpindle, asid := 0, va := 0x2000, leaf := { theLeaf with w := false } }] } }
def roomOf (s : State) : Nat × Nat := distVal (ringRoom s.mgmt s.dev 0 0x2006) (0, 0)
theorem wit_RecordDelivery : rec? sNoRing.dev 9 = some newRecord ∧ newRecord.slot = none ∧ newRecord.lost = false ∧ newRecord.skein = none ∧
    (sNoRing.dev.records.find? fun q => q.ctx == 0 && unwritten q).map (fun q => q.id) = some 9 ∧
    ringLog (ctxOf sNoRing.mgmt 0).faultq = 0 ∧ newRecord.cause ≠ .allExternal ∧
    ringLog (ctxOf sRing.mgmt 0).faultq ≠ 0 ∧ distOk (ringRoom sRing.mgmt sRing.dev 0 0x2006) = true ∧ roomOf sRing = (0, 64) ∧
    roomOf sFull = (64, 0) ∧ newRecord.byHandler = true ∧
    distOk (ringPut sRing.mgmt (dropWaiter sRing.dev (.resp 9)) 0 0x2006 0 [recordWord newRecord]) = true ∧
    (hostRec.byHandler = false ∧ hostRec.cause ≠ .allExternal ∧ rec? sHand.dev 9 = some hostRec ∧ roomOf sHand = (0, 64)) ∧
    distOk (hrec sHand.mgmt written 0) = true ∧ startsHandler (distVal (hrec sHand.mgmt written 0) 0) = true ∧
    isOk (dropLocked sM.mgmt { sM.dev with records := [lockRec] } 0) = true ∧ (blankRec 9 0 .allExternal).cause = .allExternal := by
  and_intros <;> decide +kernel

theorem wit_RecordDelivery_room : isBad (ringRoom sRing.mgmt sRing.dev 0 0x9006) = true ∧ ringLog 0x9006 ≠ 0 ∧ roomOf sShut = (0, 64) := by
  and_intros <;> decide +kernel
theorem wit_RecordDelivery_put : isBad (ringPut sShut.mgmt (dropWaiter sShut.dev (.resp 9)) 0 0x2006 0 [recordWord newRecord]) = true := by
  decide +kernel

/-- Scratch: lane offsets 4 · l with a displacement of 0, of -4 (outside for lane 0) and of 2 (uneven), in a group of four KiB. -/
def lanesBad (s : State) (f : Nat → Bool) : Mask := maskOf fun l => s.dev.cur.lanes.getLsbD l && f l
def scratchOff (s : State) (x : Int) (l : Nat) : Int := ((laneReader s.dev l 3).toNat : Int) + x
theorem wit_ScratchLoadsAndStores : Issuing sM ∧ tyBytes 0 ≠ 0 ∧ ixOf (lm 12 3 0 (xw 0 0 8 0)) = true ∧
    LaneClear sM 7 false [.v 12 1, .v 3 1] ∧ 1024 * hScratch (curGroup sM.dev).header = 4096 ∧
    (lanesBad sM fun l => decide (scratchOff sM 0 l < 0) || decide (4096 < scratchOff sM 0 l + 4)) = 0 ∧
    (lanesBad sM fun l => decide (scratchOff sM 0 l % 4 ≠ 0)) = 0 ∧ (lanesBad sM fun l => decide (scratchOff sM (-4) l < 0)) = 1 ∧
    (lanesBad sM fun l => decide (4096 < scratchOff sM 4000 l + 4)) = 0xFF000000 ∧
    (lanesBad sM fun l => decide (scratchOff sM 2 l % 4 ≠ 0)) ≠ 0 ∧ runsAhead sM.dev = false ∧ runsAhead sRun.dev = true ∧ Issuing sRun := by
  refine ⟨issuing_sM, by decide +kernel, by decide +kernel, clear_of_free free_sM, ?_⟩
  and_intros <;> first | decide +kernel | (unfold Issuing; decide +kernel)

/-- The cached machine with a buffer descriptor in s16 to s19 (base 0x2000, size 4096; another with size 4 that drops what lies
beyond); in a deterministic context; and running ahead. -/
def sBuf (size flags : Nat) : State :=
  onSkein (fun k => { k with s := [(16, 0x2000), (18, size), (19, flags)].foldl (fun v e => v.setIfInBounds e.1 (BitVec.ofNat 32 e.2)) k.s }) sC
def sCD : State := { sC with mgmt := sD.mgmt }
def sCRun : State := onSkein (fun k => { inRegion [0, 1] k with runAhead := [{ aRun with lanes := 3 }] }) sC
def oLd : Lm := lm 12 3 2 (xw 0 0 4 0)
def oLdb : Lm := lm 12 0 16 (xw 0 0 8 0)
def accs (s : State) (o : Lm) : List LAcc := globalAccs s.dev o (amOf o) (disp14 o) [0, 1]
def baccs (s : State) (st : Bool) : List LAcc := bufferAccs s.dev oLdb true 0 4 st [0, 1]
def ldOk (s : State) (as : List LAcc) (n : Nat) : Bool :=
  let c := loadChecks s.mgmt s.dev 4 4 0 as
  passes c && (passed c).length == n && (ownedLine s.dev (passed c)).isNone &&
    isOk (loadLanes s.mgmt (moved s false 8 false) (curCtx s.dev) (curSpindle s.dev) 4 0 (passed c))
def stOk (s : State) (as : List LAcc) : Bool :=
  let c := storeChecks s.mgmt s.dev 4 4 0 as
  passes c && (passed c).length == 2 && (ownedLine s.dev (passed c)).isNone &&
    isOk (storeLanes s.mgmt (moved s false 8 false) (curCtx s.dev) (curSpindle s.dev) 4 0 (fun l => l + 7) (passed c))
theorem wit_GlobalLoadsAndStores : Issuing sC ∧ LaneClear sC 7 false (globalRds oLd (amOf oLd)) ∧ lanesOf (lanesUnder sC 7 false) = [0, 1] ∧
    ldOk sC (accs sC oLd) 2 = true ∧ stOk sC (accs sC oLd) = true ∧ ldOk (sBuf 4096 0) (baccs (sBuf 4096 0) false) 2 = true ∧
    stOk (sBuf 4096 0) (baccs (sBuf 4096 0) true) = true ∧ ldOk (sBuf 4 2) (baccs (sBuf 4 2) false) 1 = true ∧
    isDet sCD.mgmt (curCtx sCD.dev) = true ∧ runsAhead sCD.dev = false ∧
    (sbufPush (moved sCD false 8 false) 0 (storeEntries sCD.dev 4 0 (fun l => l) (passed (storeChecks sCD.mgmt sCD.dev 4 4 0 (accs sCD oLd))))).isSome =
      true ∧ runsAhead sCRun.dev = true ∧ passes (storeChecks sCRun.mgmt sCRun.dev 4 4 0 (accs sCRun oLd)) = true := by
  refine ⟨issuing_sC, clear_of_free free_sC, ?_⟩
  and_intros <;> decide +kernel

/-- A hit at the first word of the line and, for a store, at its last. -/
theorem wit_hit (p : DWord) (st : Bool) (h : p = 0x2000 ∨ p = 0x207C) : Hits sC p 4 0 st theLine := by
  rcases h with rfl | rfl <;> cases st <;> constructor <;> decide +kernel
/-- The pair v5, v6 is no canonical pointer. -/
def oWild : Lm := lm 12 5 2 (xw 0 0 8 0)
theorem wit_CacheHitsAndPointers : Issuing sC ∧ isDet sC.mgmt (curCtx sC.dev) = false ∧ runsAhead sC.dev = false ∧
    lanesOf (lanesUnder sC 7 false) = [0, 1] ∧ globalPtr sC.dev oLd (amOf oLd) (disp14 oLd) 0 = 0x2000 ∧
    globalPtr sC.dev oLd (amOf oLd) (disp14 oLd) 1 = 0x2004 ∧ amOf oWild = 2 ∧
    (lanesBad sC fun l => nonCanon (globalPtr sC.dev oWild 2 0 l)) = 3 := by
  refine ⟨issuing_sC, free_sC, ?_⟩
  and_intros <;> decide +kernel

/-- ATOM and ATOMS of an addition at scopes .gr and .dv. -/
def oAtom (sc : BitVec 3) : Lm := lm 12 3 2 (xw 0 sc 8 0)
def atomsOk (s : State) (o : Lm) (as : List LAcc) : Bool :=
  let c := atomChecks s.mgmt s.dev o as
  passes c && (passed c).length == 2 && (ownedLine s.dev (passed c)).isNone &&
    isOk (atomDone s.mgmt s.dev (movedIn s false 8 (lanesUnder s 7 false)) o (passed c))
/-- The line owned whole by the spindle's L1, its bundle lane 0 alone; a registered surface write that a release waits for. -/
def ownLine : L1Line := { theLine with st := .e }
def sOwn : State := { sC with dev := { sC.dev with
  l1 := [ownLine]
  cur := { skein := 0, lanes := 1, pc := 0x1000, rotate := false } } }
def duePix : SurfOp :=
  { id := 5, skein := 0, gid := 0, ctx := 0, lanes := 1, desc := 0x2000, dhalf := 0x840, tile := 0, acts := [.clear], comp0 := 0, ord := [],
    marks := [], placed := true, reg := true }
def sDue : State := { sC with dev := { sC.dev with surfOps := [duePix] } }
/-- The addition at .gr as a release. -/
def oRel : Lm := { oAtom 2 with xw := { (oAtom 2).xw with disp := 0x2000 } }
theorem wit_owns : Owns sOwn 0x2000 4 ownLine :=
  ⟨by constructor <;> decide +kernel, rfl, by decide +kernel, by decide +kernel, by decide +kernel⟩
theorem wit_Atomics : ((4 : BitVec 4) = 4 ∧ (14 : BitVec 4) = 14 ∧ (9 : BitVec 4) = 9) ∧ ((0 : BitVec 4).toNat < 4 ∧ (3 : BitVec 4).toNat < 4 ∧ 2 ^ 32 - 1 < 2 ^ width 0 ∧ 2 ^ 64 - 1 < 2 ^ width 3) ∧ Issuing sC ∧
    LaneClear sC 7 false [.v 12 1, .v 3 1, .s 2 2] ∧ isDet sC.mgmt (curCtx sC.dev) = false ∧ Issuing sOwn ∧ Owns sOwn 0x2000 4 ownLine ∧
    isDet sCD.mgmt (curCtx sCD.dev) = true ∧ 3 ≤ (oAtom 3).xw.sc.toNat ∧ (oAtom 2).xw.sc.toNat < 3 ∧
    lanesUnder sC 7 false ≠ 0 ∧ lanesUnder sC 0 false = 0 ∧ lanesOf (lanesUnder sOwn 7 false) = [0] ∧
    ((globalAccs sOwn.dev (oAtom 2) 1 0 [0]).map fun a => (a.lane, a.p, a.drop, a.pre.isNone)) = [(0, 0x2000, false, true)] ∧
    isDet sOwn.mgmt (curCtx sOwn.dev) = false ∧ atomOrd (oAtom 2) = 0 ∧ atomRel oRel = true ∧
    atomsOk sC (oAtom 2) (globalAccs sC.dev (oAtom 2) 2 0 [0, 1]) = false ∧
    atomsOk sC (oAtom 2) (globalAccs sC.dev (oAtom 2) 1 0 [0, 1]) = true ∧
    ((lanesBad sC fun l => decide (scratchOff sC (-4) l < 0)) = 1 ∧ (lanesBad sC fun l => decide (4096 < scratchOff sC 4092 l + 4)) = 2 ∧
      (lanesBad sC fun l => decide (scratchOff sC 2 l < 0) || decide (4096 < scratchOff sC 2 l + 4)) = 0 ∧
      (lanesBad sC fun l => decide (scratchOff sC 2 l % 4 ≠ 0)) = 3) ∧
    tyBytes (oAtom 2).xw.ty ≠ 0 ∧ surfaceDue sC.dev (curSpindle sC.dev) = none ∧ surfaceDue sDue.dev (curSpindle sDue.dev) = some 0x420 ∧
    ∀ l ∈ lanesOf (lanesUnder sC 7 false), (0 : Int) ≤ scratchOff sC 0 l ∧ scratchOff sC 0 l + 4 ≤ (1024 * hScratch (curGroup sC.dev).header : Nat) ∧
      scratchOff sC 0 l % 4 = 0 := by
  refine ⟨by decide +kernel, by decide +kernel, issuing_sC, clear_of_free free_sC, free_sC, by unfold Issuing; decide +kernel, wit_owns, ?_⟩
  and_intros <;> decide +kernel

/-- SLD and SST of one word at 0x2004. -/
def oSld : Lm := lm 12 0 2 (xw 0 0 0 4)
def onePass (c : Checked) : Bool := (passed c).length == 1
def sldOk (s : State) (p : DWord) (n : Nat) : Bool :=
  match bundleChecks s.mgmt s.dev p n 0 with
  | .go [(a, l, pa)] => (ownedLine s.dev [(a, l, pa)]).isNone &&
      isOk (loadVia s.mgmt (moved s false 8 false) (curCtx s.dev) (curSpindle s.dev) p l pa n 0 0)
  | _ => false
def sstOk (s : State) (p : DWord) (n : Nat) : Bool :=
  let c := sstChecks s.mgmt s.dev p n 0
  onePass c && (ownedLine s.dev (passed c)).isNone &&
    isOk (storeLanes s.mgmt (moved s false 8 false) (curCtx s.dev) (curSpindle s.dev) n 0 (fun _ => 9) (passed c))
theorem wit_UniformLoadsAndStores : Issuing sC ∧ UniClear sC 7 false [.s 2 2] ∧ condUnder sC 7 false = true ∧ condUnder sC 0 false = false ∧
    uniPtr sC.dev oSld = 0x2004 ∧ sldOk sC 0x2004 4 = true ∧ sstOk sC 0x2004 4 = true ∧ runsAhead sC.dev = false ∧ runsAhead sCRun.dev = true ∧
    onePass (sstChecks sCRun.mgmt sCRun.dev 0x2004 4 0) = true ∧ onePass (sstChecks sCD.mgmt sCD.dev 0x2004 4 0) = true ∧
    (sbufPush (moved sCD false 8 false) 0 (bundleEntries sCD.mgmt sCD.dev 0x2004 4 9 0)).isSome = true := by
  refine ⟨issuing_sC, clear_of_free free_sC, ?_⟩
  and_intros <;> decide +kernel

/-- The page with other bits; with guard tags. -/
def withLeaf (l : Leaf) : State := { sC with dev := { sC.dev with
  l1 := [{ theLine with leaf := l }]
  tlb := [{ cluster := false, unit := 0, asid := 0, va := 0x2000, leaf := l }] } }
def sTag : State := withLeaf { theLeaf with tg := true }
def sTagRun : State := onSkein (fun k => { inRegion [0, 1] k with runAhead := [{ aRun with lanes := 3 }] }) sTag
theorem wit_PrefetchAndTags : Issuing sC ∧ LaneClear sC 7 false [.v 12 1, .v 3 1, .s 2 2] ∧ isDet sCD.mgmt (curCtx sCD.dev) = true ∧
    bitsOf (1 : BitVec 4) 0 2 ≠ 0 ∧ passes (checkAll false (checkTag sC.mgmt sC.dev 0 0 false) (accs sC oLd)) = true ∧
    passes (checkAll true (checkTag sTag.mgmt sTag.dev 0 0 true) (accs sTag oLd)) = true ∧
    ownedLine sTag.dev (passed (checkAll true (checkTag sTag.mgmt sTag.dev 0 0 true) (accs sTag oLd))) = none ∧
    isOk ((passed (checkAll true (checkTag sTag.mgmt sTag.dev 0 0 true) (accs sTag oLd))).foldlM
      (fun (d1 : Dev) x => setTag sTag.mgmt d1 0 0 x.2.2 3) (moved sTag false 8 false) : MemM Dev) = true ∧
    runsAhead sTagRun.dev = true ∧
    passes (checkAll true (checkTag sTagRun.mgmt sTagRun.dev 0 0 true) (accs sTagRun oLd)) = true := by
  refine ⟨issuing_sC, clear_of_free free_sC, ?_⟩
  and_intros <;> decide +kernel

/-- A staple of 32 four-bit elements at 0x2000: 20 bytes whose header is 1, or 2^28, which is invalid. -/
def oStq : Lm := lm 4 0 2 (xw 4 0 0 0)
def sBad : State := { sC with dev := { sC.dev with l1 := [{ theLine with data := 2 ^ 28 }] } }
def ldqHead (s : State) : Option Bool :=
  let c := ldqChecks s.mgmt s.dev oStq
  match loadSpan s.mgmt (moved s false 8 false) 0 0 0x2000 (stapleBytes 32 4) 0 0 with
  | .ok (x, _, _) => if onePass c && (ownedLine s.dev (passed c)).isNone then
      some (selectorBad 4 (stapleSeen s.mgmt s.dev oStq x 0 % 2 ^ 32)) else none
  | .error _ => none
theorem wit_StapleInstructions : Issuing sC ∧ LaneClear sC 7 false [.v 4 1, .s 2 2] ∧ lanesUnder sC 7 false ≠ 0 ∧ lanesUnder sC 0 false = 0 ∧
    passes (stqChecks sC.mgmt sC.dev oStq) = true ∧ passes (stqChecks sCRun.mgmt sCRun.dev oStq) = true ∧
    isOk (storeSpan sC.mgmt (moved sC false 8 false) 0 0 0x2000 20 (stqValue sC.mgmt sC.dev oStq 3) 0 0) = true ∧
    passes (stqChecks sCD.mgmt sCD.dev oStq) = true ∧
    (sbufPush (moved sCD false 8 false) 0 (bundleEntries sCD.mgmt sCD.dev 0x2000 20 (stqValue sCD.mgmt sCD.dev oStq 3) 0)).isSome = true ∧
    ldqHead sC = some false ∧ ldqHead sBad = some true := by
  refine ⟨issuing_sC, clear_of_free free_sC, ?_⟩
  and_intros <;> decide +kernel

/-- A lock's line: free; held by the skein; waited for by another; the skein with eight locks; the context without quota; a read-only
page. -/
def theHeld : HeldLock := { line := 0x420, va := 0x40, set := setOf 0x40, empty := false }
def sHeld : State := { onSkein (fun k => { k with locks := [theHeld] }) sC with
  dev := { (onSkein (fun k => { k with locks := [theHeld] }) sC).dev with locks := [(0x420, { noLock with holder := some 0 })] } }
def sTaken : State := { sC with dev := { sC.dev with locks := [(0x420, { noLock with holder := some 7 })] } }
def sEight : State := onSkein (fun k => { k with locks := (List.range 8).map fun i => { theHeld with line := i } }) sC
def sPoor : State := { sC with mgmt := { ctxs := sC.mgmt.ctxs.setIfInBounds 0 { ctxOf sC.mgmt 0 with pinquota := 0 } } }
def sReadOnly : State := withLeaf { theLeaf with w := false }
def oLock : Lm := lm 12 4 2 (xw 0 2 8 0)
theorem reaches_line (s : State) (w : Bool) (n : Nat) (hn : n = 128 ∨ n = 8 ∨ n = 4) (hl : locate s.mgmt s.dev (curCtx s.dev) (curSpindle s.dev) 0x2000 =
    .ok ({ theLeaf with w := w }, 0x21000)) (he : engineOwns s.dev 0x420 = false) : Reaches s 0x2000 n { theLeaf with w := w } 0x21000 :=
  ⟨by decide +kernel, by rcases hn with rfl | rfl | rfl <;> decide, hl, by rfl, he⟩
def reached (s : State) (w : Bool) : Bool := (match locate s.mgmt s.dev (curCtx s.dev) (curSpindle s.dev) 0x2000 with
  | .ok (l, pa) => decide (l = { theLeaf with w := w } ∧ pa = 0x21000) | .error _ => false) && !engineOwns s.dev 0x420
theorem wit_LocksAndPins : Issuing sC ∧ Reaches sC 0x2000 128 theLeaf 0x21000 ∧ linePtr sC.dev oLock = 0x2000 ∧ condUnder sC 7 false = true ∧
    UniClear sC 7 false [.s 2 2, .s 4 1] ∧ isPeer 0x21000 = false ∧ isPeer (2 ^ 50) = true ∧
    (reached sReadOnly false && reached sHeld true && reached sTaken true && reached sEight true && reached sPoor true && reached sCD true) = true ∧
    (curSkein sC.dev).locks.length < 8 ∧ 8 ≤ (curSkein sEight.dev).locks.length ∧
    (lockFits sC.dev 0 (setOf 0x40) 0x420 && quotaLeft sC.mgmt sC.dev 0) = true ∧
    (lockFits sPoor.dev 0 (setOf 0x40) 0x420 && quotaLeft sPoor.mgmt sPoor.dev 0) = false ∧
    (lockOf sC.dev 0x420).holder = none ∧ (lockOf sTaken.dev 0x420).holder ≠ none ∧
    isOk (grantLock sC.mgmt { moved sC false 8 true with locks := sC.dev.locks } 0 0x420 0x2000 2 true) = true ∧
    ((curSkein sHeld.dev).locks.any fun h => h.line == 0x420) = true ∧
    isOk ((releaseAt sHeld.mgmt (moved sHeld false 8 true) 0 0 2).bind fun d1 => unlockLine sHeld.mgmt d1 0 0x420) = true ∧
    isDet sCD.mgmt (curCtx sCD.dev) = true ∧ isDet sC.mgmt (curCtx sC.dev) = false ∧
    ((curSkein (onSkein (fun k => { k with pins := [{ line := 0x420, va := 0x40 }] }) sC).dev).pins.any fun x => x.line == 0x420) = true ∧
    ((curSkein sC.dev).pins.any fun x => x.line == 0x420) = false ∧
    (pinFits sC.dev 0 (setOf 0x40) 0x420 && quotaLeft sC.mgmt sC.dev 0 &&
      !decide (1024 ≤ slicePins sC.dev (cachingDie 0 0x21000 false) 0x420)) = true ∧
    (pinFits sPoor.dev 0 (setOf 0x40) 0x420 && quotaLeft sPoor.mgmt sPoor.dev 0) = false ∧
    condUnder sC 0 false = false ∧ UniClear sC 0 false [] ∧
    isOk (fillLine sC.mgmt (moved sC false 8 true) 0 0 0x40 theLeaf 0x21000 40) = true := by
  refine ⟨issuing_sC, reaches_line sC true 128 (.inl rfl) (by rfl) (by decide +kernel), by decide +kernel, by decide +kernel,
    clear_of_free free_sC, ?_⟩
  and_intros <;> first | exact clear_of_free free_sC | decide +kernel

/-- Waits on the first word of the line, which is 1: satisfied by "less or equal 5", not by "greater than 5"; from outside, where SIGWIN
holds the page; a JOIN of a double word that is 2 · 2^32 + 1, and of one that is 0. -/
def waitReq (ext : Bool) (cc : Nat) : WaitReq :=
  { external := ext, join := false, line := 0x420, va := 0x2000, ty := 0, cc := cc, v := 5, d := 12, acq := 0 }
def joinReq : WaitReq := { external := false, join := true, line := 0x420, va := 0x2000, ty := 2, cc := 3, v := 0, d := 0, acq := 4 }
def sJoined : State := { sC with dev := { sC.dev with
  mem := memPut dataMem 0x21000 0 8
  l1 := [] } }
def sWin : State := { sC with mgmt := { ctxs := sC.mgmt.ctxs.setIfInBounds 0 { ctxOf sC.mgmt 0 with sigwin := 0x2000 } } }
def waitSays (s : State) (d : Dev) (q : WaitReq) : Option (Option Nat) := match waitTest s.mgmt d 0 q with | .ok (x, _) => some x | .error _ => none
theorem wit_Waits : Issuing sC ∧ UniClear sC 7 false [.s 2 2, .s 4 1] ∧ condUnder sC 7 false = true ∧ Reaches sC 0x2000 4 theLeaf 0x21000 ∧
    Reaches sC 0x2000 8 theLeaf 0x21000 ∧ isExternal sC.mgmt 0 0x2000 theLeaf = false ∧ isExternal sWin.mgmt 0 0x2000 theLeaf = true ∧
    waitSays sC (moved sC false 8 true) (waitReq false 3) = some (some 1) ∧ waitSays sC (moved sC false 8 true) (waitReq false 4) = some none ∧
    (waitSays sC sC.dev (waitReq false 4)).isSome = true ∧ waitSays sWin (moved sWin false 8 true) (waitReq true 3) = some (some 1) ∧
    waitSays sC (moved sC false 4 true) joinReq = some none ∧ waitSays sJoined (moved sJoined false 4 true) joinReq = some (some 0) ∧
    condUnder sC 0 false = false ∧ UniClear sC 0 false [] ∧ isDet sCD.mgmt (curCtx sCD.dev) = true ∧ UniClear sCD 7 false [.s 2 2, .s 4 1] ∧
    Issuing sCD := by
  refine ⟨issuing_sC, clear_of_free free_sC, by decide +kernel, reaches_line sC true 4 (.inr (.inr rfl)) (by rfl) (by decide +kernel),
    reaches_line sC true 8 (.inr (.inl rfl)) (by rfl) (by decide +kernel), ?_⟩
  and_intros <;> first | exact clear_of_free free_sC | decide +kernel | (unfold Issuing; decide +kernel) | exact fun _ => by decide +kernel
/-- A parked lock request; a closed cycle of two skeins; a parked wait with its waiter. -/
def sQueued : State := onSkein (fun k => { k with park := some (.lock 0x420 0x2000 12 2 0) }) sC
def sCycle : State := { sC with dev := { sC.dev with
  skeins := [theSkein, { theSkein with uid := 1 }]
  locks := [(5, { noLock with
      holder := some 1
      queue := [{ skein := 0, sc := 2, present := true }] }),
    (6, { noLock with
      holder := some 0
      queue := [{ skein := 1, sc := 2, present := true }] })] } }
/-- A third skein whose request leads into the cycle; the cycle reported; whether it is. -/
def sTail : State := { sCycle with dev := { sCycle.dev with
  skeins := sCycle.dev.skeins ++ [{ theSkein with uid := 2 }]
  locks := sCycle.dev.locks ++ [(7, { noLock with
    holder := some 0
    queue := [{ skein := 2, sc := 2, present := true }] })] } }
def sTold : State := { sCycle with dev := setLock sCycle.dev 6 { lockOf sCycle.dev 6 with reported := [[0, 1]] } }
def reportedIn (s : State) : Bool :=
  ([(0, 5), (1, 6)] : List (Nat × Nat)).any fun x =>
    (lockOf s.dev x.2).reported.contains (([(0, 5), (1, 6)] : List (Nat × Nat)).map (fun y => y.1) |>.insertionSort (· ≤ ·))
def sParked (cc : Nat) : State := { sC with dev := { (onSkein (fun k => { k with park := some (.wait (waitReq false cc)) }) sC).dev with
  waiters := [(0x420, .skein 0)] } }
theorem wit_Waits_steps : (skeinOf sQueued.dev 0).park = some (.lock 0x420 0x2000 12 2 0) ∧ (skeinOf sC.dev 0).park = none ∧
    waitChain sC.dev [] 2 0 = none ∧ waitChain sCycle.dev [] 3 0 = some [(0, 5), (1, 6)] ∧ reportedIn sCycle = false ∧
    waitChain sTail.dev [] 4 2 = some [(0, 5), (1, 6)] ∧ reportedIn sTold = true ∧ waitChain sTold.dev [] 3 0 = some [(0, 5), (1, 6)] ∧
    isOk (wakeEach (sParked 3).mgmt (sParked 3).dev 0x420 [.skein 0]) = true ∧
    (skeinOf (sParked 3).dev 0).park = some (.wait (waitReq false 3)) ∧ waitSays (sParked 3) (sParked 3).dev (waitReq false 3) = some (some 1) ∧
    waitSays (sParked 4) (sParked 4).dev (waitReq false 4) = some none := by
  and_intros <;> decide +kernel

theorem wit_EventsAndTriggers : Issuing sC ∧ UniClear sC 7 false [.s 2 2] ∧ (ue 2 3 0x1D).sub.getLsbD 4 = true ∧ (ue 2 3 0xD).sub.getLsbD 4 = false ∧
    isOk (releaseAt sC.mgmt (moved sC false 4 true) 0 0 5) = true ∧
    (match checkPtr sC.mgmt sC.dev 0 0 0x2000 8 8 true with | .ok _ pa => pa == 0x21000 && isDevice pa | _ => false) = true ∧
    engineOwns sC.dev 0x420 = false ∧
    isOk ((releaseAt sC.mgmt (moved sC false 4 true) 0 0 5).bind fun d1 => writeSlice sC.mgmt 0 d1 (some 0) 0x420 (byteMask 0 8) (atByte 0 1) false) =
      true ∧ (ue 2 3 0).sub.getLsbD 0 = false ∧ (ue 2 3 1).sub.getLsbD 0 = true ∧ isOk (releaseAt sC.mgmt (moved sC false 4 true) 0 0 4) = true := by
  refine ⟨issuing_sC, clear_of_free free_sC, ?_⟩
  and_intros <;> decide +kernel

/-- BARP of s4 = 5 threads, of s12 = 0 and of s10 = 0x8000; fences at scopes 2 and 3, and one at scope 2 with a surface write due; an
arrival of 2 of 5 threads. -/
def dueOp : SurfOp := { surfOp sC.mgmt sC.dev 0 1 0 [.clear] with reg := true }
theorem wit_BarriersAndFences : Issuing sC ∧ UniClear sC 7 false [.s 4 1] ∧ (uniReader sC.dev 12).toNat = 0 ∧ 32 < (uniReader sC.dev 10).toNat ∧
    0 < (uniReader sC.dev 4).toNat ∧ (uniReader sC.dev 4).toNat ≤ 32 * hSkeins (curGroup sC.dev).header ∧
    isOk ((releaseAt sC.mgmt (moved sC false 4 true) 0 0 2).bind fun d1 => arrive sC.mgmt d1 0 0 false false) = true ∧
    isOk ((releaseAt sC.mgmt (moved sC false 4 true) 0 0 2).bind fun d1 => arrive sC.mgmt d1 0 5 true false) = true ∧
    bitsOf (2 : BitVec 9) 0 3 ≤ 2 ∧ bitsOf (2 : BitVec 9) 3 2 < 2 ∧ surfaceDue sC.dev 0 = none ∧ 2 < bitsOf (0x1C : BitVec 9) 0 3 ∧
    (2 ≤ bitsOf (0x1C : BitVec 9) 3 2 ∧ dirtyLines sC.dev 0 = [] ∧ dirtyLines { sC.dev with l1 := [{ theLine with dirty := 1 }] } 0 = [0x420]) ∧
    (group? sC.dev (curSkein sC.dev).gid).isSome = true ∧
    surfaceDue { sC.dev with surfOps := [dueOp] } 0 ≠ none ∧ 2 ≤ bitsOf (0x12 : BitVec 9) 3 2 ∧ bitsOf (0x12 : BitVec 9) 0 3 ≤ 2 ∧
    phaseDone (switchPoint sC.dev 0) (curSkein sC.dev).gid { barp := true, n := 5, arrived := [0, 1] } = false := by
  refine ⟨issuing_sC, clear_of_free free_sC, ?_⟩
  and_intros <;> decide +kernel

/-- A surface of one tile of one 8-bit component (budget 24 bits) at 0x2000: headers at 0x2080, slots at 0x2100, the counter at 0x2F80
(R368). The bundle is lane 0, whose pixel is (0, 0); s20 holds the descriptor's address, s24 to s27 it and one tile to clear. Each slot's first byte is 0x10, a block of
zero levels (R376). The translation of the page is at hand for the Distaff's accesses, so that no table has to be evaluated. -/
def surfDesc : Nat := 2 ^ 36 + 2 ^ 52 + 0x2080 * 2 ^ 320 + 0x2100 * 2 ^ 384 + 0x2F80 * 2 ^ 448
def surfMem (desc : Nat) : List Host.Cell :=
  memPut (memPut [] 0x21000 desc 64) 0x21100 ((List.range 16).foldl (fun x i => x + 0x10 * 2 ^ (24 * i)) 0) 48
def atHand : TlbEntry := { cluster := false, unit := noSpindle, asid := 0, va := 0x2000, leaf := theLeaf }
def sSurf (desc : Nat) : State :=
  let s := onSkein (fun k => { k with
    s := [(20, 0x2000), (24, 0x2000), (27, 0x10001)].foldl (fun v e => v.setIfInBounds e.1 (BitVec.ofNat 32 e.2)) k.s }) sC
  { s with dev := { s.dev with
    mem := surfMem desc
    l1 := []
    tlb := [atHand, { atHand with unit := 0 }]
    cur := { skein := 0, lanes := 1, pc := 0x1000, rotate := false } } }
def oPx : Lm := lm 12 3 20 (xw 0 0 0 0)
def surfOf (x : SurfM Surf) : Option Surf := match x with | .ok s => some s | .error _ => none
def theSurf : Surf :=
  { addr := 0x2000, ovf := 0x2F80, slots := 0x2100, hdrs := 0x2080, refs := [], w := 16, h := 16, qp := 0, budget := 24, depth := 0,
    sealed := false, fmt := 0, comps := 1, bits := 8 }
def sS : State := sSurf surfDesc
theorem free_sS : isDet sS.mgmt (curCtx sS.dev) = false := by decide +kernel
theorem wit_SurfaceLoads : Issuing sS ∧ LaneClear sS 7 false [.s 20 2, .v 3 1] ∧ lanesOf (lanesUnder sS 7 false) = [0] ∧
    lanesOf (lanesUnder sS 0 false) = [] ∧
    surfOf (loadSurf sS.mgmt sS.dev oPx 1 true [0] [0]) = some theSurf ∧ pixHalf sS.mgmt sS.dev oPx theSurf [0] = none ∧
    isOk (perLane [0] (ldpxValue sS.mgmt sS.dev oPx theSurf)) = true ∧
    surfOf (loadSurf sS.mgmt sS.dev oPx 1 false [0] [0]) = some theSurf ∧
    isOk (perLane [0] (ldcfValue sS.mgmt sS.dev oPx theSurf)) = true ∧
    (match loadSurf sS.mgmt sS.dev { oPx with a := 7 } 1 true [0] [0] with | .error (.badAt b _ _) => b.cause == .bounds | _ => false) = true := by
  refine ⟨by unfold Issuing; decide +kernel, clear_of_free free_sS, ?_⟩
  and_intros <;> decide +kernel

/-- STCF names lane 0's v3 = 0 as a level; the one tile cleared; the surface sealed; a stream of context 0, and one with four surfaces. -/
def freeOps (s : State) (ops : List SurfOp) : Bool := match tryOps s.mgmt s.dev 0 theSurf ops with | .error (.need _) => false | _ => true
def oMv : Ue := ue 20 0 0
def oClr : Ue := ue 24 0 0
def clrOps : List SurfOp := (clrTiles sS.dev oClr theSurf).map fun t => surfOp sS.mgmt sS.dev 0x2000 1 t [.clear]
def aStream (n : Nat) : Stream :=
  { record := 0, ctx := 0, started := 0, frame := 0, queue := List.replicate n 0, emitting := none, began := 0, owed := 0, produced := 0,
    frames := 0, missed := 0, last := 0, stopping := false }
def sStream (n : Nat) : State := { sS with dev := { sS.dev with streams := [(2, aStream n)] } }
theorem wit_SurfaceWrites : Issuing sS ∧ LaneClear sS 7 false [.s 20 2, .v 3 1, .v 12 1] ∧ lanesUnder sS 7 false ≠ 0 ∧ lanesUnder sS 0 false = 0 ∧
    surfOf (stpxChecks sS.mgmt sS.dev oPx 1) = some theSurf ∧ freeOps sS (stpxOps sS.mgmt sS.dev oPx 1 theSurf) = true ∧
    surfOf (stcfChecks sS.mgmt sS.dev oPx 1) = some theSurf ∧ freeOps sS (stcfOps sS.mgmt sS.dev oPx 1 theSurf) = true ∧
    surfOf (stmvChecks sS.mgmt sS.dev oMv) = some theSurf ∧ freeOps sS (stmvOps sS.mgmt sS.dev oMv theSurf) = true ∧
    surfOf (clrChecks sS.mgmt sS.dev oClr) = some theSurf ∧ clrTiles sS.dev oClr theSurf = [0] ∧ clrTiles sS.dev oMv theSurf = [] ∧
    surfOf (clrChecks sS.mgmt sS.dev oMv) = some theSurf ∧ freeOps sS clrOps = true := by
  refine ⟨by unfold Issuing; decide +kernel, clear_of_free free_sS, ?_⟩
  and_intros <;> decide +kernel
theorem wit_SurfaceWrites_seal : UniClear sS 7 false [.s 20 2] ∧
    surfOf (openSurf sS.mgmt sS.dev 0 0x2000 true fun _ => .ok ()) = some theSurf ∧ (ue 20 2 1).sub.getLsbD 0 = true ∧
    sS.dev.sealOnly.contains 0 = false ∧ tget? sS.dev.streams 2 = none ∧ tget? (sStream 4).dev.streams 2 = some (aStream 4) ∧
    tget? (sStream 3).dev.streams 2 = some (aStream 3) ∧ isOk (surfCheck sS.mgmt sS.dev 0 0x2000 4 4 stTile true) = true := by
  refine ⟨clear_of_free free_sS, ?_⟩
  and_intros <;> decide +kernel
/-- Operations made out and not registered, of an open and of a sealed surface; a registered write; a SEAL, alone and behind a write. -/
def clrOp : SurfOp := { surfOp sS.mgmt sS.dev 0x2000 1 0 [.clear] with id := 5 }
def sealOp : SurfOp := { clrOp with
  id := 6
  acts := [.seal]
  reg := true }
def laterOp : SurfOp := { clrOp with
  id := 7
  reg := true }
def sMade (desc : Nat) (park : Park) (ops : List SurfOp) : State :=
  let s := onSkein (fun k => { k with park := some park }) (sSurf desc)
  { s with dev := { s.dev with surfOps := ops } }
def sealedDesc : Nat := surfDesc + 2 ^ 12
theorem wit_SurfaceWrites_steps : (skeinOf (sMade surfDesc .surf [clrOp]).dev 0).park = some .surf ∧
    ((sMade surfDesc .surf [clrOp]).dev.surfOps.filter fun x => x.skein == 0 && !x.reg) = [clrOp] ∧
    (match isSealed sS.mgmt (sMade surfDesc .surf [clrOp]).dev clrOp with | .ok b => !b | .error _ => false) = true ∧
    (match isSealed sS.mgmt (sMade sealedDesc .surf [clrOp]).dev clrOp with | .ok b => b | .error _ => false) = true ∧
    (registerOp (sMade surfDesc .surf [clrOp]).dev clrOp).surfOps = [{ clrOp with
      placed := true
      reg := true }] ∧
    (skeinOf sS.dev 0).park ≠ some .surf ∧ clrOp.acts.contains .seal = false ∧ clrOp.marks = [] ∧
    surfOf (readSurfAgain sS.mgmt sS.dev 0 0x2000) = some theSurf ∧ isOk (applyAct sS.mgmt sS.dev (spindleNo (groupOf sS.dev 0)) 0 theSurf 0 .clear) = true ∧
    ((sMade surfDesc .surf [{ clrOp with reg := true }, sealOp]).dev.surfOps.find? fun x => x.id == 6 && x.reg) = some sealOp ∧
    opWaits (sMade surfDesc .surf [{ clrOp with reg := true }, sealOp]).dev sealOp = true ∧
    opWaits (sMade surfDesc (.seal 6 none) [sealOp]).dev sealOp = false ∧
    opWaits (sMade surfDesc .surf [{ clrOp with reg := true }]).dev { clrOp with reg := true } = false ∧
    opWaits (sMade surfDesc .surf [{ clrOp with reg := true }, laterOp]).dev laterOp = true ∧
    sealPending (sMade surfDesc .surf [sealOp]).dev clrOp.dhalf = true ∧ sealPending sS.dev clrOp.dhalf = false ∧
    isOk (sealNow sS.mgmt (sMade surfDesc (.seal 6 none) [sealOp]).dev sealOp none) = true := by
  and_intros <;> decide +kernel

/-- A plain image of one four-byte texel, at 0x2060, and the surface as an image, at 0x2040; the filter table at 0x2200 has a program of one
tap in slot 0 and none in slot 1; 0x2080 holds no image. -/
def plainImg : Nat := 3 + 2 ^ 64 + 2 ^ 80 + 64 * 2 ^ 96 + 0x2080 * 2 ^ 128 + 0x2200 * 2 ^ 192
def predImg : Nat := 256 + 0x2000 * 2 ^ 128 + 0x2200 * 2 ^ 192
def sImg : State :=
  let s := onSkein (fun k => { k with
    s := [(20, 0x2060), (22, 0x2040), (24, 0x2080)].foldl (fun v e => v.setIfInBounds e.1 (BitVec.ofNat 32 e.2)) k.s }) sS
  { s with dev := { s.dev with mem := memPut (memPut (memPut (surfMem surfDesc) 0x21040 predImg 32) 0x21060 plainImg 32) 0x21380 1 1 } }
theorem free_sImg : isDet sImg.mgmt (curCtx sImg.dev) = false := by decide +kernel
def oSmp : Lm := lm 12 3 20 (xw 4 0 0 0)
def imgAt (p : DWord) : Option Image :=
  match bundleChecks sImg.mgmt (forLanes sImg.dev 1) p 32 0 with
  | .go [(a, l, pa)] =>
    if (ownedLine sImg.dev [(a, l, pa)]).isSome then none
    else match loadVia sImg.mgmt (moved sImg false 8 false) 0 0 p l pa 32 0 0 with
      | .ok (x, _, _) => parseImage (BitVec.ofNat 256 (bundleOver sImg.mgmt (forLanes sImg.dev 1) pa 32 x))
      | .error _ => none
  | _ => none
def thePlain : Image := { ftab := 0x2200, base := 0x2080, pitch := 64, w := 1, h := 1, pred := false, fmt := 3 }
def thePred : Image := { ftab := 0x2200, base := 0x2000, pitch := 0, w := 0, h := 0, pred := true, fmt := 0 }
def progAt (p : DWord) : Option Prog :=
  match progLines sImg.mgmt sImg.dev 0 0 p with
  | .ok (y, _) => parseProg (BitVec.ofNat 4096 y)
  | .error _ => none
def tap0 : Tap := { factor := .fin false 0 0, dx := 0, dy := 0, px := 0, py := 0, op := 0, mask := 0 }
def smpItemsOf (g : Image) : List (Nat × Nat × Nat) := match progAt 0x2200 with | some pr => smpItems sImg.dev oSmp pr g [0] | none => []
theorem wit_Sampling : Issuing sImg ∧ LaneClear sImg 7 false [.s 20 2, .v 3 2] ∧ lanesOf (lanesUnder sImg 7 false) = [0] ∧
    lanesOf (lanesUnder sImg 0 false) = [] ∧ imgAt 0x2060 = some thePlain ∧ imgAt 0x2040 = some thePred ∧
    (passes (bundleChecks sImg.mgmt (forLanes sImg.dev 1) 0x2080 32 0) && (imgAt 0x2080).isNone) = true ∧
    ((progAt 0x2200).map fun p => p.taps.length) = some 1 ∧ isOk (progLines sImg.mgmt sImg.dev 0 0 0x2400) = true ∧ progAt 0x2400 = none ∧
    smpItemsOf thePlain = [(0, 0, 0)] ∧
    isOk (loadLanes sImg.mgmt sImg.dev 0 0 4 0 (passed (loadChecks sImg.mgmt sImg.dev 4 4 0 (texelAccs thePlain [(0, 0, 0)])))) = true ∧
    (passed (loadChecks sImg.mgmt sImg.dev 4 4 0 (texelAccs thePlain [(0, 0, 0)]))).length = 1 ∧
    surfOf (openSurf sImg.mgmt sImg.dev 0 0x2000 false fun _ => .ok ()) = some theSurf ∧
    isOk (perLane [0] (predCheck sImg.mgmt sImg.dev theSurf [(0, 0, 0)])) = true ∧
    tileHalf sImg.dev (descNo sImg.mgmt sImg.dev 0 0x2000) 0 = none ∧
    isOk (perLane [0] (predValues sImg.mgmt sImg.dev theSurf [(0, 0, 0)])) = true := by
  refine ⟨by unfold Issuing; decide +kernel, clear_of_free free_sImg, ?_⟩
  and_intros <;> decide +kernel
/-- A group of a tile, with a VALID and a RESERVED entry of the cache; a set whose four ways are reserved. -/
def aPass : Pass :=
  { ctx := 0, launch := 0, by_ := 0, block := 0, header := progHeader, cls := 0, hdrAddr := 0, open_ := true, recs := [], used := 0,
    arrivals := 0, records := 0, discarded := 0, partials := 0, groups := 0, rounds := [], rendering := false, held := [], id := 3 }
def anEntry (way : Nat) (key : DWord) (st : DscSt) : Dsc :=
  { spindle := 0, set := dscSet key, way := way, ctx := 0, pass := 3, key := key, val := 9, st := st, used := 0 }
def sTile (es : List Dsc) : State := { sM with dev := { sM.dev with
  groups := [{ theGroup with
    kind := .tile 0
    tile := some { tile := 0, across := 1, round := 0, last := true, quads := [], done := [] } }]
  tilers := [(0, aPass)]
  dsc := es } }
def fullSet : List Dsc := (List.range 4).map fun i => anEntry i (BitVec.ofNat 64 (i * 2 ^ 20 + i * 2 ^ 10)) (.reserved 0 0)
theorem wit_Sampling_dsc : Issuing (sTile []) ∧ LaneClear sM 7 false [.v 0 4, .v 12 4] ∧ LaneClear (sTile []) 7 false [.v 0 4, .v 12 4] ∧
    passOf sM.dev theGroup = none ∧ lanesUnder sM 7 false ≠ 0 ∧ passOf (sTile []).dev (curGroup (sTile []).dev) = some 3 ∧
    dscFind (sTile [anEntry 0 5 .valid]).dev 0 0 3 5 (· == .valid) = some (anEntry 0 5 .valid) ∧
    dscFind (sTile [anEntry 0 5 (.reserved 0 1)]).dev 0 0 3 5 (· == .valid) = none ∧
    (dscFind (sTile [anEntry 0 5 (.reserved 0 1)]).dev 0 0 3 5 fun st => match st with | .reserved .. => true | _ => false).isSome = true ∧
    (dscFind (sTile []).dev 0 0 3 5 fun st => match st with | .reserved .. => true | _ => false) = none ∧
    dscWay (sTile fullSet).dev 0 0 0 = none ∧ dscWay (sTile [anEntry 0 0 .valid, anEntry 1 0 (.reserved 0 0),
      anEntry 2 0 (.reserved 0 0), anEntry 3 0 (.reserved 0 0)]).dev 0 0 0 = some 0 := by
  refine ⟨by unfold Issuing; decide +kernel, clear_of_free free_sM, clear_of_free (by decide +kernel), ?_⟩
  and_intros <;> decide +kernel

/-- A pass over a surface of 16 × 16 at 0x2000: block at 0x2400, shading launch's header at 0x2800, status at 0x2C00, depth at 0x3000, bins
at 0x10000 (64 KiB), in a page of 2 MiB at 0x200000 (R393). -/
def bigLeaf : Leaf := { theLeaf with
  base := 0x200000
  size := 2 ^ 21 }
def passBlock : Nat := 0x2000 + 0x3000 * 2 ^ 64 + 0x10000 * 2 ^ 128 + 64 * 2 ^ 192 + 0x2800 * 2 ^ 256 + 0x2C00 * 2 ^ 320
def tileHeader : BitVec 1024 := progHeader + 17 * 2 ^ 552
def sPass (p : Option Pass) : State :=
  let s := onSkein (fun k => { k with s := k.s.setIfInBounds 20 0x2400 }) sM
  { s with dev := { s.dev with
    mem := memPut (memPut (memPut [] 0x202000 surfDesc 64) 0x202400 passBlock 64) 0x202800 tileHeader.toNat 128
    tlb := [{ atHand with
        va := 0
        leaf := bigLeaf }, { atHand with
        unit := 0
        va := 0
        leaf := bigLeaf }]
    tilers := match p with | some p => [(0, p)] | none => []
    cur := { skein := 0, lanes := 1, pc := 0x1000, rotate := false } } }
def bPass : Pass := { aPass with
  block := BitVec.ofNat 512 passBlock
  header := tileHeader }
def blockAt : Option Dev :=
  let s := sPass none
  match bundleChecks s.mgmt s.dev 0x2400 64 0 with
  | .go [(a, l, pa)] =>
    if (ownedLine s.dev [(a, l, pa)]).isSome then none
    else match loadVia s.mgmt (moved s false 4 true) 0 0 0x2400 l pa 64 0 0 with
      | .ok (x, d1, _) => if bundleOver s.mgmt s.dev pa 64 x = passBlock then some d1 else none
      | .error _ => none
  | _ => none
def flushed : ERunM Dev :=
  let s := sPass (some bPass)
  match releaseAt s.mgmt (moved s false 4 true) 0 0 4 with
  | .error _ => .ok s.dev
  | .ok d1 =>
    let c := dropPartial d1 0 0
    (closeBins s.mgmt c.2 0 { bPass with
      discarded := 0 + c.1
      open_ := false } 0 (groupCls s.mgmt s.dev theGroup)).bind fun r => passProgress s.mgmt { r.2 with tilers := tset r.2.tilers 0 r.1 } 0
def aRound : RoundReq := { tile := 0, round := { tile := 0, across := 1, round := 0, last := true, quads := [], done := [] }, input := [] }
def rPass : Pass := { bPass with
  launch := 5
  rounds := [aRound] }
def sRound : State :=
  let s := sPass (some rPass)
  { s with dev := { s.dev with launches := [progLaunch, { progLaunch with
    id := 5
    src := .tile 0
    header := tileHeader }] } }
def roundSeated : MemM Dev :=
  let gr := launchGroup sRound.dev ((launch? sRound.dev 5).getD progLaunch) 0 0 1
  clearWays sRound.mgmt (startGroup gr.2 { gr.1 with
    tile := some aRound.round
    scratch := memBytes [] 0 aRound.input } (startThread rPass.header 0) (startS progLaunch.args 0)) 0 1
theorem wit_Tiler : Issuing (sPass none) ∧ UniClear (sPass none) 7 false [.s 20 2] ∧ blockAt.isSome = true ∧
    (match tbeginHeader (sPass none).mgmt (sPass none).dev 0x2400 (BitVec.ofNat 512 passBlock) with | .ok h => h == tileHeader | .error _ => false) = true ∧
    tget? (sPass none).dev.tilers 0 = none ∧ isOk (releaseAt (sPass none).mgmt (moved (sPass none) false 4 true) 0 0 4) = true ∧
    tget? (sPass (some bPass)).dev.tilers 0 = some bPass ∧ isOk (releaseAt (sPass (some bPass)).mgmt (sPass (some bPass)).dev 0 0 4) = true ∧
    bPass.open_ = true ∧ bPass.ctx = (curGroup (sPass none).dev).ctx ∧ bPass.rendering = false ∧ isOk flushed = true ∧
    nextRound sRound.dev rPass = some aRound ∧ (launch? sRound.dev 5).isSome = true ∧
    (findSpindle sRound.mgmt sRound.dev 0 (startDemand 0 tileHeader)).isSome = true ∧ isOk (acquireAt sRound.mgmt sRound.dev 0 1 4) = true ∧
    isOk roundSeated = true ∧ passGroups sRound.dev rPass = [] ∧ rPass.rounds ≠ [] ∧ bPass.rounds = [] ∧ bPass.held = [] := by
  refine ⟨by unfold Issuing; decide +kernel, clear_of_free (by decide +kernel), ?_⟩
  and_intros <;> decide +kernel

/-- Queue register 0 as given, a spool queue of 16 entries at 0x2000 for priority 0. -/
def sQueue (q : QReg) : State :=
  { mgmt := { ctxs := sM.mgmt.ctxs.setIfInBounds 0 { ctxOf sM.mgmt 0 with spoolcfg := (ctxOf sM.mgmt 0).spoolcfg.setIfInBounds 0 0x2004 } }
    dev := { (onSkein (fun k => { k with q := k.q.setIfInBounds 0 q }) sC).dev with tlb := [atHand, { atHand with unit := 0 }] } }
def qTo (ep : Nat) : QReg := { blankQ with
  bound := true
  ep := ep }
def sFullSpool : State := { sQueue blankQ with dev := { (sQueue blankQ).dev with spools := [(0, { push := 16, pop := 0 })] } }
def withPass (s : State) (p : Pass) : State := { s with dev := { s.dev with tilers := [(0, p)] } }
def pushSays (s : State) : Nat := match pushTiler s.mgmt s.dev (movedIn s false 4 3) 0 [1, 2] with | .ok _ => 0 | .refused => 1 | .full => 2 | .wait _ => 3
theorem wit_Queues_moves : Issuing (sQueue (qTo 0)) ∧ (lr 120 4 0).d.toNat = 120 ∧ (lr 12 127 0).a.toNat = 127 ∧ (lr 119 119 0).d.toNat < 120 ∧
    isDet (sQueue (qTo 0)).mgmt 0 = false ∧ lanesOf (lanesUnder (sQueue (qTo 0)) 7 false) = [0, 1] ∧ lanesOf (lanesUnder (sQueue (qTo 0)) 0 false) = [] ∧
    qOf (curSkein (sQueue (qTo 0)).dev) (qNo 120) = qTo 0 ∧ (qTo 0).ep = 0 ∧ (qTo 1).ep ≠ 0 ∧
    pushSays (withPass (sQueue (qTo 0)) aPass) = 0 ∧ pushSays (sQueue (qTo 0)) = 1 ∧ pushSays (withPass (sQueue (qTo 0)) { aPass with rendering := true }) = 2 ∧
    (qTo 6).ep = 6 ∧ (qTo 6).elems.length < 2 ∧ 2 ≤ ({ qTo 6 with elems := [5, 6] } : QReg).elems.length ∧
    uniBound (qTo 0) 4 = none ∧ uniBound (qTo 1) 4 = some 1 ∧ uniBound (qTo 4) 2 = some 4 ∧ (qTo 1).half = none ∧ (qTo 4).elems = [] ∧
    spoolFull (sQueue (qTo 1)).mgmt (sQueue (qTo 1)).dev 0 0 = false ∧ spoolFull sFullSpool.mgmt sFullSpool.dev 0 0 = true ∧
    distOk (pushSpool (sQueue (qTo 1)).mgmt (moved (sQueue (qTo 1)) false 4 true) 0 0 77) = true ∧
    condUnder (sQueue (qTo 1)) 0 false = false ∧ UniClear (sQueue (qTo 1)) 0 false [] := by
  refine ⟨by unfold Issuing; decide +kernel, ?_⟩
  and_intros <;> first | exact clear_of_free (by decide +kernel) | decide +kernel
theorem wit_Queues : UniClear sM 7 false [.s 12 8] ∧ spoolBase sM.mgmt 0 0 = 0 ∧ spoolBase (sQueue blankQ).mgmt 0 0 ≠ 0 ∧ (qTo 1).bound = true ∧
    blankQ.bound = false ∧ (ue 12 0 0).sub.getLsbD 2 = false ∧ (ue 12 0 4).sub.getLsbD 2 = true ∧
    isOk (releaseAt (sQueue blankQ).mgmt (moved (sQueue blankQ) false 4 true) 0 0 4) = true ∧ isDet sD.mgmt (curCtx sD.dev) = true ∧
    isOk (releaseAt sFullSpool.mgmt sFullSpool.dev 0 0 4) = true ∧ isDet (sQueue blankQ).mgmt (curCtx (sQueue blankQ).dev) = false := by
  refine ⟨clear_of_free free_sM, ?_⟩
  and_intros <;> decide +kernel

/-- Pops of a spool queue that holds one entry, of one that holds none, and of an entry's second half; a command pushed: MXZ with tag 5
and its block at 0x2000. -/
def sOneEntry : State := { sQueue (qTo 1) with dev := { (sQueue (qTo 1)).dev with spools := [(0, { push := 1, pop := 0 })] } }
def queued : Nat := 0x2000 + 2 ^ 64 * 0x55 + 2 ^ 72 * 5
def queuedOk (s : State) : Bool :=
  match bundleChecks s.mgmt s.dev 0x2000 64 0 with
  | .go [(a, l, pa)] => (ownedLine s.dev [(a, l, pa)]).isNone &&
      match loadVia s.mgmt (moved s false 4 true) 0 0 0x2000 l pa 64 0 0 with
      | .ok (_, d1, _) =>
        !cmdHazard s.mgmt s.dev 0 0x55 0 && isOk (sendCmd s.mgmt (useCurr d1 (usedBy 0 l pa)) 0 0x1000 0x55 5 false 0x2000 0)
      | .error _ => false
  | _ => false
theorem wit_Queues_uniform : uniBound (qTo 2) 4 = some 2 ∧ uniBound (qTo 3) 4 = some 3 ∧ uniBound (qTo 5) 2 = some 5 ∧
    ({ qTo 1 with popHalf := some 9 } : QReg).popHalf = some 9 ∧ (qTo 1).popHalf = none ∧ (spoolOf (sQueue (qTo 1)).dev 0 0).push = 0 ∧
    (spoolOf sOneEntry.dev 0 0).pop < (spoolOf sOneEntry.dev 0 0).push ∧
    distOk (distRead sOneEntry.mgmt (moved sOneEntry false 4 true) 0 (spoolEntry sOneEntry.mgmt 0 0 0) 32 32) = true ∧
    queued < 2 ^ 78 ∧ queued / 2 ^ 64 % 256 = 0x55 ∧ queued / 2 ^ 72 % 64 = 5 ∧ hTagBase theGroup.header ≤ 5 ∧
    5 < hTagBase theGroup.header + hTagCnt theGroup.header ∧ queuedOk (sQueue (qTo 2)) = true ∧ theGroup.busy.getLsbD 5 = false := by
  and_intros <;> decide +kernel

/-- A request ring of 64 slots at 0x2000, its HEAD and TAIL 0 or its TAIL 64; a skein whose slots are due, and one whose answer, DONE,
stands in its header's slot. -/
def svcMem (tail done : Nat) : List Host.Cell := memPut (memPut [] 0x21008 tail 8) 0x21078 done 8
def sSvcAt (park : Option Park) (tail done : Nat) : State :=
  { mgmt := { ctxs := sM.mgmt.ctxs.setIfInBounds 0 { ctxOf sM.mgmt 0 with ring := 0x2006 } }
    dev := { (onSkein (fun k => { k with
      park := park
      parkLanes := 1 }) sM).dev with
        mem := svcMem tail done
        tlb := [atHand] } }
def ringPark : Park := .ring 3 1 0x1000
def svcPark : Park := .svc 0 1 0x1000
def roomIn (s : State) : Nat × Nat := distVal (ringRoom s.mgmt s.dev 0 0x2006) (0, 0)
def doneOf (s : State) : Option Nat := match svcDone s.mgmt s.dev 0 with | some (.ok x) => some x | _ => none
/-- The words of the answer's first block; the same call of a group that is saved. -/
def svcWord0 : Nat := distVal (svcWords (sSvcAt (some svcPark) 2 1).mgmt (sSvcAt (some svcPark) 2 1).dev 0 0 0) 0
def sCallAway : State := onSkein (fun k => { k with resident := false }) (sSvcAt (some svcPark) 2 1)
theorem wit_ServiceCalls : Issuing sM ∧ Clear sM sM.dev.cur.lanes [.v 0 12] ∧ ringLog (ctxOf sM.mgmt 0).ring = 0 ∧
    ringLog (ctxOf (sSvcAt none 0 0).mgmt 0).ring ≠ 0 ∧ isOk (releaseAt (sSvcAt none 0 0).mgmt (sSvcAt none 0 0).dev 0 0 5) = true ∧
    (skeinOf (sSvcAt (some ringPark) 0 0).dev 0).park = some ringPark ∧ roomIn (sSvcAt (some ringPark) 0 0) = (0, 64) ∧
    roomIn (sSvcAt (some ringPark) 64 0) = (64, 0) ∧
    distOk (ringPut (sSvcAt (some ringPark) 0 0).mgmt (dropWaiter (sSvcAt (some ringPark) 0 0).dev (.svc 0)) 0 0x2006 0
      [svcHeader theGroup (skeinOf (sSvcAt (some ringPark) 0 0).dev 0) 1 0x1000, 7]) = true ∧
    (skeinOf (sSvcAt (some svcPark) 2 1).dev 0).park = some svcPark ∧ doneOf (sSvcAt (some svcPark) 2 0) = some 0 ∧
    doneOf (sSvcAt (some svcPark) 2 1) = some 1 ∧ doneOf (sSvcAt (some svcPark) 2 9) = some 9 ∧
    distOk (svcWords (sSvcAt (some svcPark) 2 1).mgmt (sSvcAt (some svcPark) 2 1).dev 0 0 0) = true ∧ theGroup.resident = true ∧
    ([(0, svcWord0)].map Prod.fst = lanesOf 1 ∧ ([(0, svcWord0)] : List (Nat × Nat)).length = 1) ∧
    (skeinOf sCallAway.dev 0).resident = false ∧ (skeinOf (sSvcAt (some svcPark) 2 1).dev 0).resident = true ∧
    (skeinOf sCallAway.dev 0).park = some svcPark ∧ doneOf sCallAway = some 1 ∧
    isOk (acquireAt (sSvcAt (some svcPark) 2 1).mgmt (sSvcAt (some svcPark) 2 1).dev 0 0 5) = true := by
  refine ⟨issuing_sM, clear_of_free free_sM, ?_⟩
  and_intros <;> decide +kernel

/-- The command block of MXZ on accumulator 0 at 0x2080, which is all zeros; a busy tag; the scratchpad's offsets 0, 4 (misaligned)
and 4096 (beyond). -/
def sCmd (busy : DWord) : State :=
  let s := onSkein (fun k => { k with
    s := [(20, 0x2080), (22, 4), (23, 4096)].foldl (fun v e => v.setIfInBounds e.1 (BitVec.ofNat 32 e.2)) k.s }) sS
  { s with dev := { s.dev with groups := [{ theGroup with busy := busy }] } }
def cmdRead (s : State) (base : Dev) : Bool :=
  match bundleChecks s.mgmt s.dev 0x2080 64 0 with
  | .go [(a, l, pa)] => (ownedLine s.dev [(a, l, pa)]).isNone && isOk (loadVia s.mgmt base 0 0 0x2080 l pa 64 0 0)
  | _ => false
theorem wit_EngineCommands : Issuing (sCmd 0) ∧ UniClear (sCmd 0) 7 false [.s 20 2] ∧ (ue 20 1 0).sub.getLsbD 1 = false ∧
    (ue 20 1 2).sub.getLsbD 1 = true ∧ cmdRead (sCmd 0) (moved (sCmd 0) false 4 true) = true ∧ cmdRead (sCmd 2) (sCmd 2).dev = true ∧ (curGroup (sCmd 2).dev).busy.getLsbD 1 = true ∧
    (curGroup (sCmd 0).dev).busy.getLsbD 1 = false ∧ (ue 20 1 1).sub.getLsbD 0 = true ∧ isDet (sCmd 0).mgmt (curCtx (sCmd 0).dev) = false ∧
    isOk (releaseAt (sCmd 0).mgmt (moved (sCmd 0) false 4 true) 0 0 3) = true ∧
    (uniReader (sCmd 0).dev 22).toNat % 64 ≠ 0 ∧ (uniReader (sCmd 0).dev 23).toNat % 64 = 0 ∧
    1024 * hScratch (curGroup (sCmd 0).dev).header < (uniReader (sCmd 0).dev 23).toNat + 64 ∧ (uniReader (sCmd 0).dev 12).toNat = 0 := by
  refine ⟨by unfold Issuing; decide +kernel, clear_of_free (by decide +kernel), ?_⟩
  and_intros <;> decide +kernel

/-- TWAIT on tags 0 and 2 (s4 = 5): none of the group's, completed, and outstanding; TSTAT of tag 1 and of the mask. -/
def sTags (tags : DWord) : State := { sM with dev := { sM.dev with groups := [{ theGroup with tags := tags }] } }
def waited (s : State) : DWord := readS64 s.dev (curSkein s.dev) 4 &&& tagRange (curGroup s.dev)
theorem wit_TagInstructions : Issuing (sTags 0x700000005) ∧ UniClear (sTags 0x700000005) 7 false [.s 4 2] ∧ readS64 sM.dev (curSkein sM.dev) 12 &&& tagRange theGroup = 0 ∧
    waited (sTags 0x700000005) ≠ 0 ∧ waited (sTags 0x700000005) &&& ~~~(0x700000005 &&& ~~~(curGroup (sTags 0x700000005).dev).busy) = 0 ∧
    isOk (acquireAt (sTags 0x700000005).mgmt (moved (sTags 0x700000005) false 4 false) 0 0 3) = true ∧
    waited (sTags 1) &&& ~~~(1 &&& ~~~(curGroup (sTags 1).dev).busy) ≠ 0 ∧ condUnder (sTags 0x700000005) 7 false = true ∧
    isDet (sTags 0x700000005).mgmt (curCtx (sTags 0x700000005).dev) = false ∧ isDet sD.mgmt (curCtx sD.dev) = true ∧ (kNatural (lk 12 0 0x80)).toNat.testBit 7 = true ∧
    (kNatural (lk 12 0 0)).toNat.testBit 7 = false ∧ (curGroup sD.dev).tags.getLsbD 0 = false ∧ (curGroup (sTags 1).dev).tags.getLsbD 0 = true ∧
    condUnder (sTags 1) 0 false = false ∧ UniClear (sTags 1) 0 false [] := by
  refine ⟨by unfold Issuing; decide +kernel, clear_of_free (by decide +kernel), ?_⟩
  and_intros <;> first | exact clear_of_free (by decide +kernel) | decide +kernel

/-- An engine with MXZ first in its queue, idle and running; a copy whose block is malformed. -/
def aCmd (op : Nat) : Cmd :=
  { op := op, block := 0, blockAddr := 0x2080, tag := 1, skein := 0, gid := 0, ctx := 0, pc := 0x1000, tds := [], nlt := 0 }
def sEngine (op : Nat) (running : Bool) : State := { sS with dev := { sS.dev with
  engines := [(0, { queue := [aCmd op], running := running, owned := [] })] } }
theorem wit_EngineSteps : (engine sS.dev 0).queue = [] ∧ (engine sS.dev 0).running = false ∧ (engine (sEngine 0x55 true).dev 0).running = true ∧
    (engine (sEngine 0x55 false).dev 0).queue = [aCmd 0x55] ∧
    isOk ((runCmd sS.mgmt (sEngine 0x55 false).dev (aCmd 0x55)).map fun r => writtenLines r == []) = true ∧
    isOk (([] : List Nat).foldlM (fun d l => engTake sS.mgmt 0 d l) sS.dev : MemM Dev) = true ∧
    cmdBad (groupOf sS.dev 0) (aCmd 0x55) = false ∧ cmdBad (groupOf sS.dev 0) (aCmd 0x50) = true ∧
    isOk (runCmd sS.mgmt (sEngine 0x50 false).dev (aCmd 0x50)) = true ∧ (group? sS.dev 0).isSome = true ∧
    (aCmd 0x55).block.getLsbD 41 = false ∧ ctxEnabled sS.mgmt (aCmd 0x55).ctx = true ∧ ctxEnabled resetMgmt (aCmd 0x55).ctx = false := by
  and_intros <;> decide +kernel

/-- Two threads are left, the others have exited. EXIT of both, no barrier in use; REORDER of one, and of both with the table's block
readable. -/
def sPair (ls : Mask) : State :=
  let s := onSkein (fun k => modThreads k ((List.range 32).drop 2) fun _ t => { t with st := .exited }) sM
  { s with dev := { s.dev with
    tlb := [atHand, { atHand with unit := 0 }]
    cur := { s.dev.cur with lanes := ls } } }
def waitsAll (s : State) : Dev :=
  modSkein (moved s false 4 false) 0 fun k => modThreads k (lanesOf s.dev.cur.lanes) fun l t => { t with
    pc := s.dev.cur.pc
    st := .reorder (laneReader s.dev l 0) (nextPc s.dev 4) }
def goneAll : Dev := endThreads (moved (sPair 3) false 4 false) 0 3
theorem free_sPair : isDet (sPair 3).mgmt (curCtx (sPair 3).dev) = false ∧ isDet (sPair 1).mgmt (curCtx (sPair 1).dev) = false := by
  decide +kernel
theorem issuing_sPair : Issuing (sPair 3) := by unfold Issuing; decide +kernel
theorem wit_ExitAndReorder : Issuing (sPair 3) ∧ UniClear (sPair 3) 7 false [] ∧ isOk (afterExit (sPair 3).mgmt goneAll 0) = true ∧
    (groupOf (retireSkein goneAll 0) 0).bars = [] ∧ reorderReady (retireSkein goneAll 0) 0 = false ∧
    LaneClear (sPair 1) 7 false [.v 0 1] ∧ reorderReady (waitsAll (sPair 1)) 0 = false ∧ reorderReady (waitsAll (sPair 3)) 0 = true ∧
    (match checkPtr (sPair 3).mgmt (waitsAll (sPair 3)) 0 0 0x2000 64 4 false with | .ok _ _ => true | _ => false) = true ∧
    isOk (loadSpan (sPair 3).mgmt (waitsAll (sPair 3)) 0 0 0x2000 64 0 61) = true := by
  refine ⟨issuing_sPair, clear_of_free free_sPair.1, ?_, ?_, ?_, clear_of_free free_sPair.2, ?_, ?_, ?_, ?_⟩ <;> decide +kernel

/-- A record of a failed reload at a reorder point: all have come again, or not. -/
def againRec : Rec := { recAt .align (some 0) with
  reorder := true
  group := some 0 }
def sReload (d : Dev) : State := { sPair 3 with dev := { d with records := [againRec] } }
def freed (s : State) : Dev := releaseStop (dropWaiter s.dev (.resp 9)) 0 9
theorem wit_ExceptionReturn_reorder : rec? (sReload (sPair 3).dev).dev 9 = some againRec ∧ againRec.skein = some 0 ∧ againRec.reorder = true ∧
    againRec.cause ≠ .watchdog ∧ againRec.group.getD 0 = 0 ∧ reorderReady (freed (sReload (sPair 3).dev)) 0 = false ∧
    reorderReady (freed (sReload (waitsAll (sPair 3)))) 0 = true ∧
    isOk (tryReorder (sPair 3).mgmt (freed (sReload (waitsAll (sPair 3)))) 0) = true := by
  and_intros <;> decide +kernel

/-- A skein with two results in flight, and one due to rotate. -/
def pendSkein : Skein := { theSkein with
  pend := [{ id := 3, due := 0, ws := [.v 0 1 7] }, { id := 4, due := 0, ws := [.v 0 1 8] }]
  rot := 64 }
theorem wit_ResultsAndRotation : skein? (onSkein (fun _ => pendSkein) sM).dev 0 = some pendSkein ∧
    (pendSkein.pend.find? fun p => p.id == 3) = some { id := 3, due := 0, ws := [.v 0 1 7] } ∧ (∀ p ∈ theSkein.pend, p.id ≠ 3) ∧
    pendSkein.rot = 64 ∧ theSkein.rot ≠ 64 := by
  refine ⟨by rfl, ?_, ?_, ?_, ?_⟩ <;> decide +kernel

/-- Queue 0 of context 0 at 0x2000 with one packet; a header at 0x2400 whose arguments stand at 0x2500; a word, 3, at 0x2800. -/
def sPacket (pk : Nat) (head : Word) (waiting : Bool) : State := { sM with dev := { sM.dev with
  mem := memPut (memPut (memPut [] 0x21000 pk 32) 0x21400 (progHeader.toNat + 0x2500 * 2 ^ 64) 128) 0x21800 3 8
  tlb := [atHand]
  launches := []
  subqs := [(0, { base := 0x2000, logn := 4, qclass := 0, en := true, head := head, tail := 1, waiting := waiting })] } }
def pkLaunch : Nat := 1 + 0x2400 * 2 ^ 64
def pkWait (v : Nat) : Nat := 2 + 0x2800 * 2 ^ 128 + v * 2 ^ 192
def packetOf (s : State) : Option Nat := match headPacket s.mgmt s.dev 0 0 with | .ok x => some x | _ => none
def wordAt (s : State) (p : DWord) (n al : Nat) : Option Nat := match distRead s.mgmt s.dev 0 p n al with | .ok (x, _) => some x | _ => none
theorem wit_Packets : queueGoes (sPacket 0 1 false).dev 0 0 = false ∧ queueGoes (sPacket 0 0 false).dev 0 0 = true ∧
    packetOf (sPacket 0 0 false) = some 0 ∧ pkBad 0 = false ∧ pkSerial 0 = false ∧ pkSerial 512 = true ∧ packetOf (sPacket 512 0 false) = some 512 ∧
    launchesOf sM.dev (.queue 0 0) ≠ [] ∧ launchesOf (sPacket 0 0 false).dev (.queue 0 0) = [] ∧
    (match headPacket (sPacket 0 0 false).mgmt { (sPacket 0 0 false).dev with tlb := [] } 0 0 with | .bad _ => true | _ => false) = true ∧
    pkBad 3 = true ∧ pkKind 3 = 3 ∧ pkBad 257 = true ∧ pkKind 257 = 1 ∧ pkBad 258 = true ∧ pkKind 258 = 2 ∧
    packetOf (sPacket pkLaunch 0 false) = some pkLaunch ∧ pkBad pkLaunch = false ∧ pkKind pkLaunch = 1 ∧
    wordAt (sPacket pkLaunch 0 false) 0x2400 128 64 = some (progHeader.toNat + 0x2500 * 2 ^ 64) ∧
    headerFault false (BitVec.ofNat 1024 (progHeader.toNat + 0x2500 * 2 ^ 64)) = none ∧ headerFault false 0 = some 16 ∧
    wordAt (sPacket pkLaunch 0 false) 0x2500 64 64 = some 0 ∧ distOk (distRead sM.mgmt { sM.dev with mem := [], tlb := [] } 0 0x9000 128 64) = false ∧
    packetOf (sPacket (pkWait 3) 0 false) = some (pkWait 3) ∧ pkKind (pkWait 3) = 2 ∧ wordAt (sPacket (pkWait 3) 0 true) 0x2800 8 8 = some 3 ∧
    pkValue (pkWait 3) ≤ 3 ∧ 3 < pkValue (pkWait 4) ∧ (subq (sPacket (pkWait 3) 0 true).dev 0 0).waiting = true ∧
    (subq (sPacket 0 0 false).dev 0 0).waiting = false := by
  and_intros <;> decide +kernel
/-- A reel of one node, number 255 of reel 0, at 0x400000, in a page of 2 MiB. -/
def sReel (pend : Option DWord) (runs : List Run) (table : DWord) : State :=
  { mgmt := { ctxs := sM.mgmt.ctxs.setIfInBounds 0 { ctxOf sM.mgmt 0 with reeltab := table } }
    dev := { sM.dev with
      mem := memPut [] 0x20FF00 progHeader.toNat 256
      tlb := [{ atHand with
        va := 0x400000
        leaf := bigLeaf }]
      runs := runs
      trigs := [(0, { pending := pend, seen := 0 })] } }
def aTrig : DWord := 0xFF00
def theNodes : List (Nat × BitVec 2048) := [(255, BitVec.ofNat 2048 progHeader.toNat)]
def nodesRead : Option (List (Nat × BitVec 2048)) :=
  match readNodes (sReel none [] 0x400000).mgmt (clearTrig (sReel (some aTrig) [] 0x400000).dev 0 0) 0 aTrig with | .ok x => some x | .error _ => none
def runBegun : Option Dev :=
  match beginRun (sReel none [] 0x400000).mgmt (clearTrig (sReel (some aTrig) [] 0x400000).dev 0 0) 0 0 aTrig theNodes [] with
  | .ok d => some d | .error _ => none
/-- Two requests of reel 0, of trigger 0 seen before that of trigger 1. -/
def sTwoReqs : State := { sM with dev := { sM.dev with
  trigs := [(1, { pending := some aTrig, seen := 5 }), (0, { pending := some aTrig, seen := 2 })] } }
theorem wit_Packets_runs : ((tget? (sReel none [] 0).dev.trigs 0).bind fun t => t.pending) = none ∧
    ((tget? (sReel (some aTrig) [] 0).dev.trigs 0).bind fun t => t.pending) = some aTrig ∧
    ((sReel (some aTrig) [{ id := 7, ctx := 0, trig := 1, reel := 0, nodes := [] }] 0).dev.runs.any fun r => r.ctx == 0 && r.reel == tgReel aTrig) = true ∧
    (sReel (some aTrig) [] 0).dev.runs = [] ∧ (ctxOf (sReel none [] 0).mgmt 0).reeltab = 0 ∧ (ctxOf (sReel none [] 0x400000).mgmt 0).reeltab ≠ 0 ∧
    nodesRead = some theNodes ∧ isOk (readPatches (sReel none [] 0).mgmt (sReel none [] 0).dev 0 aTrig theNodes) = true ∧
    (runBegun.map fun d => d.runs.any fun r => r.ctx == 0 && r.reel == 0 && r.nodes.isEmpty) = some false ∧
    (runBegun.map fun d => hasSlot d (.trig 0 0)) = some false ∧
    hasSlot { (sReel none [] 0).dev with slots := [(3, { src := .trig 0 0, order := 0 })] } (.trig 0 0) = true ∧
    runsNext (sReel (some aTrig) [] 0).dev 0 0 0 = true ∧ runsNext sTwoReqs.dev 0 1 0 = false ∧ runsNext sTwoReqs.dev 0 0 0 = true ∧
    tgReel aTrig < 64 ∧ 64 ≤ tgReel (aTrig + 64) := by
  and_intros <;> decide +kernel

/-- Launches of queue `n` of a class, and slots: none, one, all of them held by queue 1. -/
def aLaunch (n cls : Nat) : Launch := { progLaunch with
  id := n
  src := .queue n
  header := progHeader + BitVec.ofNat 1024 (cls * 2 ^ 498)
  next := 0
  lastDie := none }
def sWork (slots : Table Slot) (waitq : List (Source × Nat)) (ls : List Launch) : State := { sM with dev := { sM.dev with
  groups := []
  skeins := []
  launches := ls
  slots := slots
  waitq := waitq } }
def src (n : Nat) : Source := .queue 0 n
def heldBy (n k : Nat) : Table Slot := (List.range k).map fun i => (i, { src := src n, order := i })
/-- The waiting source that is taken when a source is looked at; whether it takes a slot from another. -/
def takes (s : State) (n : Nat) : Option Source := bestWaiting s.mgmt (awaitSlot s.dev (src n)) 3
def robs (s : State) (n : Nat) : Bool := ((slotVictim s.mgmt s.dev (sourceCls s.mgmt s.dev (src n))).map fun v => canPass s.dev v.2.src) == some true
theorem wit_Placement_slots : hasWork (sWork [] [] []).dev (src 0) = false ∧ hasWork (sWork [] [] [aLaunch 0 0]).dev (src 0) = true ∧
    hasSlot (sWork [] [] [aLaunch 0 0]).dev (src 0) = false ∧ hasSlot (sWork (heldBy 0 1) [] [aLaunch 0 0]).dev (src 0) = true ∧
    takes (sWork [] [] [aLaunch 0 0]) 0 = some (src 0) ∧ takes (sWork [] [(src 0, 0)] [aLaunch 0 0, aLaunch 1 0]) 1 = some (src 0) ∧
    takes (sWork [] [(src 1, 0)] [aLaunch 0 0, aLaunch 1 2]) 0 = some (src 0) ∧
    ((List.range 128).find? fun i => (tget? (sWork [] [] []).dev.slots i).isNone) = some 0 ∧
    ((List.range 128).find? fun i => (tget? (sWork (heldBy 1 128) [] []).dev.slots i).isNone) = none ∧
    robs (sWork (heldBy 1 128) [] [aLaunch 0 0, aLaunch 1 2]) 0 = true ∧ robs (sWork (heldBy 1 128) [] [aLaunch 0 0, aLaunch 1 0]) 0 = false ∧
    tget? (sWork (heldBy 1 1) [] []).dev.slots 5 = none ∧ tget? (sWork (heldBy 1 1) [] []).dev.slots 0 = some { src := src 1, order := 0 } ∧
    bestWaiting sM.mgmt (sWork (heldBy 1 1) [(src 0, 0)] [aLaunch 0 0, aLaunch 1 0]).dev 0 = some (src 0) ∧
    canPass (sWork (heldBy 1 1) [(src 0, 0)] [aLaunch 0 0, aLaunch 1 0]).dev (src 1) = true ∧
    bestWaiting sM.mgmt (sWork (heldBy 1 1) [] [aLaunch 1 0]).dev 0 = none := by
  and_intros <;> decide +kernel

/-- Context 0 may use one spindle alone, whose barrier slots a group of class 3 or 0 has taken; a group that is saved. -/
def sCrowd (cls : Nat) : State :=
  { mgmt := { ctxs := sM.mgmt.ctxs.setIfInBounds 0 { ctxOf sM.mgmt 0 with part := (Vector.replicate 16 0).setIfInBounds 0 1 } }
    dev := { sM.dev with
      launches := [aLaunch 0 0, { aLaunch 1 cls with next := 1 }]
      groups := [{ theGroup with launch := 1 }]
      slots := heldBy 0 1 } }
def victims (s : State) : Option (List Nat) := (offerOrder (aLaunch 0 0)).findSome? fun die =>
  plyVictims s.mgmt (afterSaves s.dev) (aLaunch 0 0) die (launchCls s.mgmt s.dev (aLaunch 0 0)) [0]
/-- The same without save space on any die; its group on its way out. -/
def sTight : State := { sCrowd 3 with dev := { (sCrowd 3).dev with saveGb := 0 } }
def sLeaving : State := { sCrowd 3 with dev := { (sCrowd 3).dev with groups := [{ theGroup with
  launch := 1
  saveReq := true }] } }
def sAgain : State := { sM with dev := { sM.dev with
  groups := [{ theGroup with resident := false }]
  slots := heldBy 0 1 } }
def sAgainCrowd (cls : Nat) : State := { sCrowd cls with dev := { (sCrowd cls).dev with
  groups := [{ theGroup with launch := 1 }, { theGroup with
    gid := 1
    resident := false }] } }
theorem wit_Placement_plies : launch? (sWork [] [] []).dev 0 = none ∧ launch? (sWork (heldBy 0 1) [] [aLaunch 0 0]).dev 0 = some (aLaunch 0 0) ∧
    nextPly (aLaunch 0 0) = [0] ∧ nextPly progLaunch = [] ∧ mayStart (sWork (heldBy 0 1) [] [aLaunch 0 0]).dev (aLaunch 0 0) = true ∧
    goBefore (sWork (heldBy 0 1) [] [aLaunch 0 0]).dev (aLaunch 0 0) = [] ∧
    (nextPly (aLaunch 0 0)).all (mayPlace (sWork (heldBy 0 1) [] [aLaunch 0 0]).dev (aLaunch 0 0)) = true ∧
    offerOrder (aLaunch 0 0) = List.range 16 ∧
    (match firstDie sM.mgmt (sWork (heldBy 0 1) [] [aLaunch 0 0]).dev (aLaunch 0 0) (List.range 16) with | .ok (some (0, _)) => true | _ => false) = true ∧
    (match firstDie (sCrowd 3).mgmt (sCrowd 3).dev (aLaunch 0 0) (List.range 16) with | .ok none => true | _ => false) = true ∧
    victims (sCrowd 3) = some [0] ∧ victims (sCrowd 0) = none ∧ savesFit (sCrowd 3).dev [0] = true ∧ savesFit sTight.dev [0] = false ∧
    victims sTight = some [0] ∧ plyVictims sLeaving.mgmt (afterSaves sLeaving.dev) (aLaunch 0 0) 0 0 [0] = some [] ∧
    (match firstDie sLeaving.mgmt sLeaving.dev (aLaunch 0 0) (List.range 16) with | .ok none => true | _ => false) = true := by
  and_intros <;> decide +kernel
theorem wit_Placement_saved : savedGroups sM.dev = [] ∧ (savedGroups sAgain.dev).map (fun g => g.gid) = [0] ∧ yields sAgain.mgmt sAgain.dev 0 0 = false ∧
    (findSpindle sAgain.mgmt sAgain.dev 0 (againDemand sAgain.dev theGroup)).isSome = true ∧ isOk (acquireAt sAgain.mgmt sAgain.dev 0 0 4) = true ∧
    (savedGroups (sAgainCrowd 3).dev).map (fun g => g.gid) = [1] ∧ yields (sAgainCrowd 3).mgmt (sAgainCrowd 3).dev 0 0 = false ∧
    findSpindle (sAgainCrowd 3).mgmt (sAgainCrowd 3).dev 0 (startDemand 0 progHeader) = none ∧
    (makeWay (sAgainCrowd 3).mgmt (sAgainCrowd 3).dev [0] 0 (startDemand 0 progHeader)).isSome = true ∧
    (makeWay (sAgainCrowd 0).mgmt (sAgainCrowd 0).dev [0] 0 (startDemand 0 progHeader)).isNone = true ∧
    isOk (placedAgain sAgain.mgmt sAgain.dev { theGroup with resident := false } 0) = true := by
  and_intros <;> decide +kernel

/-- A spool record of one granule of each kind at the head of queue 0, or of queues 0 and 1. -/
def spRec : Nat := 0x1000 + 2 ^ 192 + 2 ^ 196
def sSpool (x : Nat) : State := { sQueue blankQ with dev := { (sQueue blankQ).dev with
  mem := memPut [] 0x21000 x 32
  spools := [(0, { push := 1, pop := 0 }), (1, { push := 1, pop := 0 })] } }
def popped (x : Nat) : Option Nat := match distRead (sSpool x).mgmt (sSpool x).dev 0 0x2000 32 32 with | .ok (y, _) => some y | _ => none
def comesFirst' (prio : Nat) : Option (Option (Nat × Nat)) :=
  match spoolBefore (sSpool spRec).mgmt (sSpool spRec).dev 0 0 (List.range prio) with | .ok x => some x | .error _ => none
theorem wit_Placement : (spoolOf sM.dev 0 0).push ≤ (spoolOf sM.dev 0 0).pop ∧ popped spRec = some spRec ∧ popped 0 = some 0 ∧ spoolBad spRec = false ∧
    spoolBad 0 = true ∧ comesFirst' 0 = some none ∧ comesFirst' 1 = some (some (0, 0)) ∧
    (((searchOrder (sSpool spRec).dev 0).filter fun sp => (groupsOn (sSpool spRec).dev sp).any fun g => g.ctx == 0).find? fun sp =>
      fitsOn (sSpool spRec).mgmt (sSpool spRec).dev 0 sp (startDemand 0 (spoolHeader 1 1 0x1000))) = some 0 ∧
    isOk (startSpool (sSpool spRec).mgmt (sSpool spRec).dev 0 0 0 0 (.spool 0x2000 0 0) spRec 0x2000 0) = true := by
  and_intros <;> decide +kernel

/-- A skein being pre-empted, and one whose fence drains; a group being saved, its skein put away; a group whose skein has retired. -/
def leaving (park : Option Park) : State := onSkein (fun k => { k with
  preempt := true
  park := park }) sM
def sAway : State := { sM with dev := { sM.dev with
  skeins := [{ theSkein with resident := false }]
  groups := [{ theGroup with saveReq := true }] } }
def sOver : State := { sM with dev := { sM.dev with skeins := [{ theSkein with
  resident := false
  threads := theSkein.threads.map fun t => { t with st := .exited } }] } }
theorem wit_SavingAndRetiring : (skeinOf sM.dev 0).preempt = false ∧ (skeinOf (leaving none).dev 0).preempt = true ∧
    (skeinOf (leaving none).dev 0).resident = true ∧ drains (skeinOf (leaving none).dev 0) = false ∧
    drains (skeinOf (leaving (some (.fence 1 3))).dev 0) = true ∧ isOk (dropLocked sM.mgmt (givenUp (leaving none).dev 0) 0) = true ∧
    (restarts theSkein 0 = false ∧ restarts (inRegion [0] theSkein) 0 = true ∧ ((threadOf (inRegion [0] theSkein) 0).region.map fun r => r.entry) = some 0x1000) ∧ group? sM.dev 9 = none ∧ (group? sAway.dev 0).isSome = true ∧
    (groupOf sM.dev 0).saveReq = false ∧ (groupOf sAway.dev 0).saveReq = true ∧ (groupOf sAway.dev 0).resident = true ∧ hasCommands sAway.dev 0 = false ∧
    (∀ k ∈ skeinsOf sAway.dev 0, k.resident = false) ∧ isOk ((giveUpLines sAway.mgmt sAway.dev 0).bind fun d0 => releaseAt sAway.mgmt d0 0 0 4) = true ∧
    ((skeinsOf sM.dev 0).any fun k => !allExited k) = true ∧ (∀ k ∈ skeinsOf sOver.dev 0, allExited k = true) ∧
    isOk (retireGroup sOver.mgmt sOver.dev theGroup) = true ∧ theGroup.killed = false ∧ isDet sOver.mgmt theGroup.ctx = false ∧
    isOk (releaseAt sOver.mgmt sOver.dev 0 0 4) = true ∧
    isOk ((eventWord sOver.mgmt sOver.dev theGroup).bind fun d2 => countRetired sOver.mgmt d2 theGroup) = true ∧ (skeinsOf sOver.dev 0).all (fun k => k.locks.isEmpty) = true := by
  and_intros <;> decide +kernel

/-- A fence that parks; the line in the L1, clean and dirty, of home and of remote origin. -/
def sFence : State := onSkein (fun k => { k with park := some (.fence 3 3) }) sC
def withLine (l : L1Line) : State := { sC with dev := { sC.dev with l1 := [l] } }
theorem wit_CacheSteps : (skeinOf sFence.dev 0).park = some (.fence 3 3) ∧
    isOk ((releaseAt sFence.mgmt sFence.dev 0 0 3).bind fun d1 => acquireAt sFence.mgmt d1 0 0 3) = true ∧ l1Phys sM.dev 0 0x420 = none ∧
    l1Phys sC.dev 0 0x420 = some theLine ∧ theLine.dirty = 0 ∧ theLine.home = true ∧ theLine.queued = false ∧
    l1Phys (withLine { theLine with dirty := 1 }).dev 0 0x420 = some { theLine with dirty := 1 } ∧
    isOk (writeBackLine sC.mgmt (withLine { theLine with dirty := 1 }).dev 0 0 0x420) = true ∧
    l1Phys (withLine { theLine with home := false }).dev 0 0x420 = some { theLine with home := false } ∧
    isOk (invalidateCopy sC.mgmt 0 sC.dev 0 0x420) = true ∧ isDevice (128 * 2 ^ 44) = false ∧ isDevice (128 * 0x420) = true := by
  and_intros <;> decide +kernel

/-- A host half, 2^45, absent, in M, E and S; half 0x840 of device memory; a grant asked for; a snoop outstanding. -/
def aHalf (st : HalfSt) : Half := { st := st, data := 5, poison := false, curr := none }
def sHost (st : HalfSt) : State := { sS with dev := { sS.dev with
  halves := [(2 ^ 45, aHalf st)]
  hostReqs := [(2 ^ 45 + 1, .rdShared)]
  snoops := [(0x840, true)] } }
def early : State := { sS with dev := { sS.dev with stage := 1 } }
theorem wit_HostAndPeers : engineOwns sS.dev (2 ^ 44) = false ∧ lockHolds sS.dev (2 ^ 44) = false ∧
    isOk (invalidateOthers sS.mgmt 0 sS.dev none (2 ^ 44)) = true ∧
    isOk (invalidateOthers sS.mgmt 0 (wakeLine sS.dev (2 ^ 44)) none (2 ^ 44)) = true ∧ ((aHalf .e).st = .e ∧ (aHalf .s).st = .s ∧ (aHalf .i).st = .i) ∧
    (2 ^ 45, HostReq.rdCurr) ∈ [(2 ^ 45, HostReq.rdCurr)] ∧ tget? sS.dev.halves (2 ^ 45) = none ∧
    (match invalidateOthers sS.mgmt 0 (sHost .m).dev none (2 ^ 44) with | .ok d => tget? d.halves (2 ^ 45) == some (aHalf .m) | .error _ => false) = true ∧
    tget? (sHost .e).dev.halves (2 ^ 45) = some (aHalf .e) ∧ tget? (sHost .s).dev.halves (2 ^ 45) = some (aHalf .s) ∧ early.dev.stage ≠ 2 ∧
    sS.dev.stage = 2 ∧ present sS.dev (2 ^ 44) = false ∧ present sS.dev 0x420 = true ∧ engineOwns sS.dev 0x420 = false ∧
    isOk (invalidateOthers sS.mgmt 0 (wakeSlice sS.dev 0x420) none 0x420) = true ∧ isOk (recallOwner sS.mgmt 0 (wakeSlice sS.dev 0x420) none 0x420) = true ∧
    isOk (writeSlice sS.mgmt 0 (wakeSlice { sS.dev with hostState := tdel sS.dev.hostState 0x840 } 0x420) none 0x420 (byteMask 0 64)
      (putHalf 0 false 5) false) = true ∧ (2 ^ 45, HostReq.rdShared) ∉ (sHost .s).dev.hostReqs ∧ (2 ^ 45 + 1, HostReq.rdShared) ∈ (sHost .s).dev.hostReqs ∧
    sS.dev.snoops = [] ∧ (sHost .s).dev.snoops.find? (fun q => q.1 == 0x840) = some (0x840, true) ∧ peerMay early.dev 0x21000 4 = false ∧
    peerMay sS.dev 0x21000 4 = true ∧ 0x21001 % 4 ≠ 0 ∧ isOk (peerWrite sS.mgmt sS.dev 0x21000 [1, 2, 3, 4]) = true ∧
    isOk (peerRead sS.mgmt sS.dev 0x21000 4) = true := by
  and_intros <;> decide +kernel

/-- Port 1 up and port 0 down; spindle 0 at work, spindle 1 idle; slices with and without a modified half. -/
theorem wit_LinksPowerAndClocks : (2 : BitVec 4).getLsbD 0 = false ∧ (2 : BitVec 4).getLsbD 1 = true ∧ groupsOn sM.dev 0 ≠ [] ∧ groupsOn sM.dev 1 = [] ∧
    1 ∉ sM.dev.gatedSpindles ∧ isOk (flushSpindle sM.mgmt sM.dev 1) = true ∧ (0, 3) ∉ sM.dev.gatedSlices ∧ isOk (emptySlice sM.mgmt sM.dev 0 3) = true ∧
    slicePinned sM.dev (2 ^ 44) = false ∧ slicePinned { sM.dev with l2pins := [(0, 2 ^ 44, 0)] } (2 ^ 44) = true ∧
    (portDie (portOf (64 * 2 ^ 45)), sliceOf (64 * 2 ^ 45)) = (0, 132) ∧ isOk (emptySlice sM.mgmt (sHost .m).dev 0 132) = true ∧ (aHalf .m).st = .m ∧ 8 < 9 ∧ 15 < 16 ∧
    tget? (sHost .e).dev.halves (2 ^ 45) = some (aHalf .e) ∧ (2 : BitVec 4) &&& ~~~(2 : BitVec 4) = 0 ∧ (2 : BitVec 4) &&& ~~~(1 : BitVec 4) ≠ 0 := by
  and_intros <;> decide +kernel

/-- Register writes: a tail within and beyond a queue of 16, reels 0 and 64, values of each register at the ends of its range. -/
theorem wit_RegisterWrites : early.dev.stage ≠ 2 ∧ sM.dev.stage = 2 ∧ (subq sM.dev 0 0).logn = 4 ∧ ((16 : Word) - (subq sM.dev 0 0).head).toNat ≤ 2 ^ 4 ∧
    2 ^ 4 < ((17 : Word) - (subq sM.dev 0 0).head).toNat ∧ 64 ≤ tgReel 64 ∧ tgReel 63 < 64 ∧ bitsOf (16 : DWord) 8 24 = 0 ∧ bitsOf (16 : DWord) 0 6 ≤ 16 ∧
    4 ≤ bitsOf (4 : DWord) 0 6 ∧ bitsOf (0x2000 : DWord) 1 4 = 0 ∧ (0x2000 : DWord).getLsbD 0 = false ∧ bitsOf (0xFFFF : DWord) 16 48 = 0 ∧
    bitsOf (0x10000 : DWord) 16 48 ≠ 0 ∧ bitsOf (2 : DWord) 1 63 ≠ 0 ∧ bitsOf (1 : DWord) 1 63 = 0 ∧ (1 : DWord) ≠ (ctxOf sM.mgmt 0).detctl ∧
    hasWorkIn sM.dev 0 = true ∧ hasWorkIn sM.dev 1 = false ∧
    partitionBad (setCtx sM.mgmt 0 { ctxOf sM.mgmt 0 with part := (ctxOf sM.mgmt 0).part.setIfInBounds 0 (2 ^ 48) }) sM.dev 0 0 (2 ^ 48) = true ∧
    partitionBad (setCtx sM.mgmt 0 { ctxOf sM.mgmt 0 with part := (ctxOf sM.mgmt 0).part.setIfInBounds 0 1 }) sM.dev 0 0 1 = false ∧
    (3 : DWord).toNat < 4 ∧ 4 ≤ (4 : DWord).toNat ∧ 16 ≤ (16 : DWord).toNat ∧ (30 : DWord).toNat ≤ 30 ∧ 30 < (31 : DWord).toNat ∧
    (0x400000 : DWord).toNat % 2 ^ 22 = 0 ∧ (1 : DWord).toNat % 2 ^ 22 ≠ 0 ∧ 12 % 8 ≠ 0 ∧ bitsOf (0x401 : DWord) 10 2 ≠ 3 ∧
    (bitsOf (6 : DWord) 0 5 = 6 ∧ bitsOf (5 : DWord) 0 5 = 5 ∧ bitsOf (16 : DWord) 0 5 = 16 ∧ bitsOf (17 : DWord) 0 5 = 17) ∧
    ((1 : DWord).getLsbD 0 && (List.range 64).any fun c => c != 1 && ctxEnabled sM.mgmt c && ctxAsid sM.mgmt c == bitsOf (1 : DWord) 48 16) = true ∧
    bitsOf (0x100001 : DWord) 1 11 = 0 ∧ bitsOf (2 ^ 41 : DWord) 41 7 ≠ 0 := by
  and_intros <;> decide +kernel
/-- XINV and HARVEST of 64 pages from 0, the bitmap to 0x21000, DONE at 0x21100; a misaligned DONE. -/
def mmOf (done : Nat) : BitVec 256 := BitVec.ofNat 256 (64 * 2 ^ 32 + 0x21000 * 2 ^ 128 + done * 2 ^ 192)
theorem wit_RegisterWrites_commands : (∀ l ∈ sM.dev.l1, l.asid ≠ ctxAsid sM.mgmt (mmCtx (mmOf 0x21100))) ∧
    isOk (xinvLines sM.mgmt sM.dev (mmOf 0x21100)) = true ∧ mmCount (mmOf 0x21100) / 64 = 1 ∧
    isOk (harvestGroup sM.mgmt (mmOf 0x21100) sM.dev 0) = true ∧ mmDone (mmOf 0x21101) % 8 ≠ 0 ∧ mmDone (mmOf 0x21100) % 8 = 0 ∧
    isOk (physWrite sM.mgmt sM.dev (mmDone (mmOf 0x21100)) 8 1) = true := by
  and_intros <;> decide +kernel

/-- Mailbox commands: image numbers 0, 3 and 4; a stream of die 0 that does not run, runs, and emits; its record at 0x21400 in the table at
0x21000, good and malformed. -/
def mbOf (arg : Nat) : DWord := BitVec.ofNat 64 (arg * 2 ^ 32)
def goodRecord : Nat := 1 + 16 * 2 ^ 256 + 16 * 2 ^ 261
def anEmission : Emission := { desc := 0x2000, row := 0, col := 0, opened := true }
def sMail (rec : Nat) : State := { sM with dev := { sM.dev with
  mem := memPut [] 0x21080 rec 64
  mbdata := [(0, 0x21000)]
  streamTab := [(0, 0x21000)]
  streams := [(3, aStream 1), (4, { aStream 1 with emitting := some anEmission })] } }
def recordRead (rec : Nat) : Option (BitVec 512) :=
  match readSlice (sMail rec).mgmt 0 (sMail rec).dev none 0x421 false [0x842] .rdShared 72 with
  | .ok (x, _) => some (halfData x false) | .error _ => none
/-- The counts of a stream of `sEgr` that stops written to 0x2F00. -/
def statWritten : Bool :=
  let x : Stream := { aStream 0 with
    record := BitVec.ofNat 512 (16 * 2 ^ 256 + 2 ^ 272 + 0x2400 * 2 ^ 320 + 0x2F00 * 2 ^ 384 + 0x2F40 * 2 ^ 448)
    stopping := true }
  match writeStat sS.mgmt (setStream sS.dev 0 2 x) x with | .ok _ => true | _ => false
theorem wit_Mailbox : (mbArg (mbOf 0) < 1 ∧ 3 < mbArg (mbOf 4) ∧ 1 ≤ mbArg (mbOf 3) ∧ mbArg (mbOf 3) ≤ 3) ∧ (mbWord sM.dev 1).toNat ≤ 2 ^ 26 ∧
    2 ^ 16 - 1 < 2 ^ 16 ∧ early.dev.stage ≠ 2 ∧ stream? (sMail 0).dev (mbDie (mbOf 3)) (mbStream (mbOf 3)) = some (aStream 1) ∧
    15 < mbArg (mbOf 16) ∧ mbArg (mbOf 15) ≤ 15 ∧ (mbWord (sMail 0).dev 0).toNat % 1024 = 0 ∧ isDevice (mbWord (sMail 0).dev 0).toNat = true ∧
    ((sMail 0).dev.streams.any fun e => e.1 / 16 == 15) = false ∧ ((sMail 0).dev.streams.any fun e => e.1 / 16 == 0) = true ∧
    mbStreamOk (mbOf 2) = true ∧ stream? (sMail 0).dev 0 2 = none ∧ tget? (sMail 0).dev.streamTab 0 = some 0x21000 ∧
    (recordRead 0).map (srBad sM.mgmt) = some true ∧ (recordRead goodRecord).isSome = true ∧ (aStream 1).emitting = none ∧ (aStream 1).owed = 0 ∧
    (stream? (sMail 0).dev 0 4).map (fun x => x.emitting) = some (some anEmission) ∧ mbStreamOk (mbOf 16) = false ∧
    (stream? (sMail 0).dev (mbDie (mbOf 3)) (mbStream (mbOf 3))).isSome = true ∧ tget? sM.dev.streamTab (mbDie (mbOf 2)) = none ∧
    statWritten = true ∧ stream? (sMail 0).dev 0 3 = some (aStream 1) := by
  and_intros <;> decide +kernel

/-- The host holds no half, or one; a reset that waits for it. -/
def sHeld' : State := { sM with dev := { sM.dev with hostState := [(5, .a)] } }
theorem wit_ResetAndStart : sM.dev.hostState = [] ∧ sHeld'.dev.hostState = (5, HostSt.a) :: [] ∧ sM.dev.stage = 2 ∧ sM.dev.resetting = false ∧
    State.reset.dev.stage ≠ 2 ∧ State.reset.dev.resetting = false ∧
    (match exec .reset sHeld' with | .next t => t.dev.resetting | _ => false) = true ∧
    ((0x02, 0) ∈ [(0x02, 0)] ∧ (0x01, 0) ∉ [(0x02, 0)] ∧ (0x03, 0) ∈ [(0x03, 0)]) := by
  and_intros <;> decide +kernel

/-- A frame of two tiles whose first is due to be emitted, into a ring of 64 KiB at 0x2400 with room and without; streams of die 0: with a queued surface, idle, stopping, owing a record, and one whose queue's launch has class 0 already. -/
def sEgr : State :=
  let s := sSurf (surfDesc + 2 ^ 36)
  { s with dev := { s.dev with mem := memPut s.dev.mem 0x21F00 0 8 } }
def egrStream (produced : Nat) : Stream := { aStream 0 with
  record := BitVec.ofNat 512 (16 * 2 ^ 256 + 2 ^ 272 + 0x2400 * 2 ^ 320 + 0x2F00 * 2 ^ 384)
  emitting := some anEmission
  produced := produced }
def emits (produced : Nat) : Option Bool := match emitNext sEgr.mgmt sEgr.dev 0 2 (egrStream produced) with
  | .ok _ => some true
  | .full => some false
  | _ => none
def sFrames (x : Stream) : State := { sS with dev := { sS.dev with streams := [(2, x)] } }
theorem wit_EgressSteps : stream? sM.dev 0 2 = none ∧ stream? (sFrames (aStream 1)).dev 0 2 = some (aStream 1) ∧
    framed sM.dev 0 (srQueue 0) = false ∧ framed { sM.dev with frameDue := [(0, 0, none)] } 0 (srQueue 0) = true ∧ (aStream 1).stopping = false ∧
    (aStream 1).queue = 0 :: [] ∧ (aStream 0).queue = [] ∧ nextEmit sM.dev 0 (aStream 1) = none ∧
    nextEmit sM.dev 0 { aStream 1 with owed := 1 } = some 0 ∧
    nextEmit sEgr.dev 0 (egrStream 0) = some 0 ∧ emits 0 = some true ∧ emits (2 ^ 20) = some false := by
  and_intros <;> decide +kernel

/-- All lanes at one address, and one lane further on. -/
def apart : Skein := modThreads theSkein [3] fun _ t => { t with pc := 0x1008 }
theorem wit_BundleChoice : readyMask theSkein ≠ 0 ∧ theSkein.runAhead = [] ∧ (oldBundle theSkein).isNone = true ∧
    oldBundle apart = some (8, 0x1008) ∧ (lowBundle apart).1.getLsbD 0 = true ∧ (lowBundle apart).1.getLsbD 3 = false ∧
    (lowBundle (curSkein sRun.dev)).1 = 0xFFFFFFFF ∧
    (lowBundle { inRegion [0] theSkein with runAhead := [{ aRun with lanes := 1 }] }).1 = 0xFFFFFFFF := by
  and_intros <;> decide +kernel

/-- From reset with IADD placed, with an FFMA of two words, and with a zero word; an event due; nothing to issue. -/
def sWord (nbits w : Nat) : State := State.reset.withFetchWord nbits w
def sFfma : State := sWord 64 (0x6AC4040A + 0x0CA40200 * 2 ^ 32)
def sLast : State := { sM with dev := { sM.dev with mem := memPut (progTables []) 0x20FFC 0x6AC4040A 4 } }
def fetched (s : State) (p : DWord) : Option Word := match fetchWord s.mgmt s.dev 0 0 p with | .word w _ => some w | _ => none
def second (s : State) (p : DWord) : Option Word := match fetchWord s.mgmt s.dev 0 0 p with
  | .word _ d => (match fetchWord s.mgmt d 0 0 (p + 4) with | .word w _ => some w | _ => none)
  | _ => none
def fetchFails (s : State) (p : DWord) : Option (FetchCause × DWord) := match fetchWord s.mgmt s.dev 0 0 p with
  | .fault c a => some (c, a)
  | _ => none
def fetchWaits (s : State) (p : DWord) : Bool := match fetchWord s.mgmt s.dev 0 0 p with | .wait _ => true | _ => false
def picked (s : State) : Option (Nat × Nat) := (pickQuarter s.mgmt s.dev).map fun x => (x.1, x.2.1.uid)
/-- The code page in host memory; a code line in the L1; a skein whose rotation is due, or marked. -/
def codeLeaf : Leaf := { theLeaf with
  base := 0x20000
  w := false
  xn := false }
def withCode (base : Nat) (l1 : List L1Line) : State := { sM with dev := { sM.dev with
  tlb := [{ cluster := false, unit := 0, asid := 0, va := 0x1000, leaf := { codeLeaf with base := base } }]
  l1 := l1
  portUp := 15 } }
def codeLine : L1Line := { theLine with
  va := 0x1000 / 128
  pa := 0x20000 / 128
  leaf := codeLeaf }
def turning (rot : Nat) : State := onSkein (fun _ => { apart with rot := rot }) sM
theorem wit_StepRunsDecoded : isWord (.plyDispatch 0) = false ∧ sM.dev.agenda = [] ∧ picked State.reset = none ∧ picked (sWord 32 0x00418104) = some (0, 0) ∧
    (progSkein.rot < 64 ∧ raStops sM.dev (.iadd (lr 3 1 2)) = false) ∧ raStops sRun.dev (.exit ln) = true ∧
    picked (turning 64) = some (0, 0) ∧ picked (turning 65) = some (0, 0) ∧ oldBundle { apart with rot := 65 } = some (8, 0x1008) ∧
    fetched (sWord 32 0x00418104) 0x1000 = some 0x00418104 ∧
    extFollows 0x00418104 = false ∧ (decodeWords fullAlloc 0x00418104 0).isOk = true ∧ fetched (sWord 32 0) 0x1000 = some 0 ∧
    (decodeWords fullAlloc 0 0).isOk = false ∧ fetched sFfma 0x1000 = some 0x6AC4040A ∧ extFollows 0x6AC4040A = true ∧
    second sFfma 0x1000 = some 0x0CA40200 ∧ (decodeWords fullAlloc 0x6AC4040A 0x0CA40200).isOk = true ∧
    (decodeWords fullAlloc 0x6AC4040A 0x0CB80200).isOk = false ∧ fetched sLast 0x1FFC = some 0x6AC4040A ∧
    fetchFails sLast 0x2000 = some (.xlate .unmapped, 0x2000) ∧ fetchFails sM 0x5000 = some (.xlate .unmapped, 0x5000) := by
  and_intros <;> decide +kernel
theorem wit_StepRunsDecoded_fetch : fetchWaits (withCode (2 ^ 51) []) 0x1000 = true ∧ fetchFails sC 0x2000 = some (.perm, 0x2000) ∧
    (match locate sM.mgmt (withCode 0x20000 [codeLine]).dev 0 0 0x1000 with | .ok (l, pa) => decide (l = codeLeaf) && pa == 0x20000 | _ => false) = true ∧
    emptyWay (withCode 0x20000 [codeLine]).dev 0 (0x20000 / 128) = none ∧ isPeer 0x20000 = false ∧
    l1Hit (withCode 0x20000 [codeLine]).dev 0 (ctxAsid sM.mgmt 0) (0x1000 / 128) = some codeLine ∧ codeLine.stale = false ∧
    holds codeLine (byteMask 0 4) = true ∧ waysAlong (withCode 0x20000 [codeLine]).dev 0 (setOf (0x1000 / 128)) (0x20000 / 128) = 0 ∧
    cleanLost (withCode 0x20000 [codeLine]).dev codeLine (byteMask 0 4) = false ∧
    isOk (loadVia sM.mgmt (withCode 0x20000 []).dev 0 0 0x1000 codeLeaf 0x20000 4 1 90) = true := by
  and_intros <;> decide +kernel
theorem wit_EveryStepCompletes : AgendaOk sM.dev ∧ AgendaOk { sM.dev with agenda := [.plyDispatch 0, .reset] } := by
  unfold AgendaOk; decide +kernel

/-- Context 0 with its translation on, the others as after reset: legal registers of a machine that takes a step. -/
theorem legal_resetCtx : CtxLegal resetCtx ∧ CtxLegal (progCtx resetCtx) := by
  have h : ∀ die : Fin 16, resetCtx.part[die] = 0x0000FFFFFFFFFFFF := by decide +kernel
  have hs : ∀ n : Fin 4, resetCtx.spoolcfg[n] = 0 := by decide +kernel
  have part : ∀ (die : Nat) (x : DWord), resetCtx.part[die]? = some x → bitsOf x 48 15 = 0 ∧ (die ≠ 0 → x.getLsbD 63 = false) := by
    intro die x hx
    obtain ⟨hd, hx⟩ := Vector.getElem?_eq_some_iff.mp hx
    have : x = 0x0000FFFFFFFFFFFF := by rw [← hx]; exact h ⟨die, hd⟩
    subst this; exact ⟨by decide +kernel, fun _ => by decide +kernel⟩
  have spool : ∀ (n : Nat) (x : DWord), resetCtx.spoolcfg[n]? = some x → x = 0 ∨ (bitsOf x 5 7 = 0 ∧ 4 ≤ bitsOf x 0 5 ∧ bitsOf x 0 5 ≤ 20) := by
    intro n x hx
    obtain ⟨hn, hx⟩ := Vector.getElem?_eq_some_iff.mp hx
    exact .inl (by rw [← hx]; exact hs ⟨n, hn⟩)
  constructor <;> exact ⟨by decide +kernel, by decide +kernel, by decide +kernel, by decide +kernel, by decide +kernel, by decide +kernel,
    by decide +kernel, by decide +kernel, part, spool⟩
theorem ctxs_sM (c : Fin 64) : ctxOf sM.mgmt c = if c = 0 then progCtx resetCtx else resetCtx := by
  revert c; decide +kernel
theorem wit_LegalRegistersKept : MgmtLegal sM.mgmt ∧ Steps sM := by
  have en : ∀ c : Fin 64, ctxEnabled sM.mgmt c = true → c = 0 := by decide +kernel
  have ex : ∀ c : Fin 64, exclusive sM.mgmt c = false := by decide +kernel
  have sp : ∀ c : Fin 64, partBit sM.mgmt c 0 0 = true := by decide +kernel
  refine ⟨⟨fun c hc => ?_, fun a b ha hb hab ea eb => absurd ?_ hab, fun c hc => ⟨0, 0, by decide, by decide, sp ⟨c, hc⟩⟩,
    fun a b ha _ _ ea _ => absurd (ex ⟨a, ha⟩) (by simp [ea])⟩, ?_⟩
  · rw [ctxs_sM ⟨c, hc⟩]; split
    · exact legal_resetCtx.2
    · exact legal_resetCtx.1
  · have h1 := en ⟨a, ha⟩ ea
    have h2 := en ⟨b, hb⟩ eb
    exact (Fin.mk.inj (h1.trans h2.symm))
  · have h : (match step sM with | .next _ => true | _ => false) = true := by decide +kernel
    unfold Steps
    revert h
    cases step sM <;> simp
theorem wit_DecodeAndEncodeAgree : isWord (.iadd (lr 3 1 2)) = true ∧ illegalReason fullAlloc (.iadd (lr 3 1 2)) = none ∧
    (decodeBytes fullAlloc [0x04, 0x81, 0x41, 0x00, 0xFF]).isOk = true := by decide +kernel

end Sys2Proof.Tests
end

section
/-!
PROOFS. Links that go down, power gates, clock steps and thermal holds: what each of these events does to the device, one lemma per
event and outcome.
-/

namespace Sys2Proof.Machine

/-! ## The rows of the events -/

theorem exec_linkDown (port : Nat) (s : State) : exec (.linkDown port) s = execLinkDown port s := rfl
theorem exec_powerGate (u : GateUnit) (s : State) : exec (.powerGate u) s = execPowerGate u s := rfl
theorem exec_clockStep (die step : Nat) (s : State) : exec (.clockStep die step) s = execClockStep die step s := rfl
theorem exec_thermalHold (die : Nat) (s : State) : exec (.thermalHold die) s = execThermalHold die s := rfl

/-- A row that runs an update of the device goes to the device the update gives. -/
theorem goes_run {i : Instr} {s : State} {f : Mgmt → Dev → Dev} {d : Dev} (he : exec i s = s.run f) (hd : f s.mgmt s.dev = d) :
    Goes i s d := by
  subst hd; exact he

/-- An event whose accesses all come through is what they make of the device. -/
@[simp] theorem memEvent_ok (d d1 : Dev) (ev : Instr) : memEvent d ev (.ok d1) = d1 := rfl

/-! ## What waits for halves goes on -/

/-- Resuming what waits for some halves changes the skeins, the deferred events and the agenda, and nothing else. -/
theorem foldl_resumeHalf_spec (hs : List Nat) (d : Dev) : ∃ sk df ag,
    hs.foldl resumeHalf d = { d with skeins := sk, deferred := df, agenda := ag } := by
  induction hs generalizing d with
  | nil => exact ⟨_, _, _, rfl⟩
  | cons h hs ih =>
    obtain ⟨sk, df, ag, he⟩ := ih (resumeHalf d h)
    exact ⟨sk, df, ag, he⟩

/-! ## Links (R318) -/

/-- The device with a port down: its lane rate 0, its modified halves poisoned, its requests to the host gone. -/
def portDown (d : Dev) (port : Nat) : Dev :=
  { d with
    portUp := d.portUp &&& ~~~(BitVec.ofNat 4 (2 ^ port))
    laneRates := d.laneRates.setIfInBounds port 0
    halves := d.halves.map fun e => if linkOf d (64 * e.1) == port && e.2.st == .m then (e.1, { e.2 with poison := true }) else e
    hostReqs := d.hostReqs.filter fun q => linkOf d (64 * q.1) != port }

/-- The halves that were asked for through a port. -/
def askedThrough (d : Dev) (port : Nat) : List Nat := (d.hostReqs.filter fun q => linkOf d (64 * q.1) == port).map fun q => q.1

/-- The device after no HOST port is left: the host holds no half, and what waits for its answers goes on. -/
def hostGone (d : Dev) : Dev := (d.snoops.map fun q => q.1).foldl resumeHalf { d with snoops := [], hostState := [] }

theorem hostGone_spec (d : Dev) : ∃ sk df ag,
    hostGone d = { d with snoops := [], hostState := [], skeins := sk, deferred := df, agenda := ag } :=
  foldl_resumeHalf_spec _ _

/-- A port that is down already changes nothing. -/
theorem linkDown_of_down {s : State} {port : Nat} (h : s.dev.portUp.getLsbD port = false) : Goes (.linkDown port) s s.dev :=
  goes_run (exec_linkDown port s) (by simp [h])

/-- With a HOST port still up the host hears of the port that goes down, and what waits for halves asked for through it goes on. -/
theorem linkDown_of_hostLeft {s : State} {port : Nat} (h : s.dev.portUp.getLsbD port = true)
    (hl : (portDown s.dev port).portUp &&& ~~~s.dev.portPeer ≠ 0) :
    Goes (.linkDown port) s ((askedThrough s.dev port).foldl resumeHalf (interrupt (portDown s.dev port) (1154 + port))) := by
  refine goes_run (exec_linkDown port s) ?_
  have hb : (s.dev.portUp &&& ~~~(BitVec.ofNat 4 (2 ^ port)) &&& ~~~s.dev.portPeer != 0) = true := bne_iff_ne.2 hl
  simp only [h, hb, if_true]
  rfl

/-- Without a HOST port left nobody hears of the port that goes down, and what waits for the host goes on. -/
theorem linkDown_of_no_hostLeft {s : State} {port : Nat} (h : s.dev.portUp.getLsbD port = true)
    (hl : (portDown s.dev port).portUp &&& ~~~s.dev.portPeer = 0) :
    Goes (.linkDown port) s (hostGone ((askedThrough s.dev port).foldl resumeHalf (portDown s.dev port))) := by
  refine goes_run (exec_linkDown port s) ?_
  have hb : (s.dev.portUp &&& ~~~(BitVec.ofNat 4 (2 ^ port)) &&& ~~~s.dev.portPeer != 0) = false := bne_eq_false_iff_eq.2 hl
  simp only [h, hb, if_false, Bool.false_eq_true]
  rfl

/-- A port that goes down leaves `portDown`, with the event of a HOST port still up or without any hold of the host; beyond this only
the skeins, the deferred events and the agenda change. -/
theorem linkDown_spec {s : State} {port : Nat} (h : s.dev.portUp.getLsbD port = true) : ∃ sk df ag irqs snoops hostState,
    Goes (.linkDown port) s { portDown s.dev port with
      irqs := irqs, snoops := snoops, hostState := hostState, skeins := sk, deferred := df, agenda := ag } ∧
    irqs = s.dev.irqs ++ (if (portDown s.dev port).portUp &&& ~~~s.dev.portPeer = 0 then [] else [1154 + port]) ∧
    ((portDown s.dev port).portUp &&& ~~~s.dev.portPeer = 0 → hostState = [] ∧ snoops = []) := by
  by_cases hl : (portDown s.dev port).portUp &&& ~~~s.dev.portPeer = 0
  · obtain ⟨sk, df, ag, he⟩ := foldl_resumeHalf_spec (askedThrough s.dev port) (portDown s.dev port)
    obtain ⟨sk', df', ag', he'⟩ := hostGone_spec ((askedThrough s.dev port).foldl resumeHalf (portDown s.dev port))
    rw [he] at he'
    exact ⟨sk', df', ag', _, _, _, he' ▸ he ▸ linkDown_of_no_hostLeft h hl,
      by rw [if_pos hl]; exact (List.append_nil _).symm, fun _ => ⟨rfl, rfl⟩⟩
  · obtain ⟨sk, df, ag, he⟩ :=
      foldl_resumeHalf_spec (askedThrough s.dev port) (interrupt (portDown s.dev port) (1154 + port))
    exact ⟨sk, df, ag, _, _, _, he ▸ linkDown_of_hostLeft h hl, by rw [if_neg hl]; rfl, fun h0 => absurd h0 hl⟩

/-! ## Power gates (R325, R360, R364) -/

/-- A spindle that has work, or is gated already, is left as it is. -/
theorem powerGate_spindle_of_busy {s : State} {n : Nat} (h : groupsOn s.dev n ≠ [] ∨ n ∈ s.dev.gatedSpindles) :
    Goes (.powerGate (.spindle n)) s s.dev :=
  goes_run (exec_powerGate (.spindle n) s) (if_pos (by simpa [List.isEmpty_iff] using h))

/-- A spindle without work is flushed and then gated. -/
theorem powerGate_spindle_of_idle {s : State} {n : Nat} {d1 : Dev} (hg : groupsOn s.dev n = []) (hn : n ∉ s.dev.gatedSpindles)
    (hf : flushSpindle s.mgmt s.dev n = .ok d1) :
    Goes (.powerGate (.spindle n)) s { d1 with gatedSpindles := d1.gatedSpindles ++ [n] } :=
  goes_run (exec_powerGate (.spindle n) s) (by simp [hg, hn, hf, Except.map])

/-- Whether a half is a host half of a slice. -/
def halfAt (die n : Nat) (h : Nat) : Bool := isHost (64 * h) && portSlice h == (die, n)

/-- Whether a half keeps its slice from being gated: it is modified (R325), or pinned there (R360). -/
def keepsSlice (d : Dev) (e : Nat × Half) : Bool := e.2.st == .m || slicePinned d (e.1 / 2)

/-- The waiters of some halves woken, each half given up after its own (R364). -/
def giveUpHalves (d : Dev) (es : List (Nat × Half)) : Dev := es.foldl (fun d e => evictHalf (wakeLine d (e.1 / 2)) e.1) d

/-- A slice that is gated already is left as it is. -/
theorem powerGate_slice_of_gated {s : State} {die n : Nat} (h : (die, n) ∈ s.dev.gatedSlices) :
    Goes (.powerGate (.slice die n)) s s.dev :=
  goes_run (exec_powerGate (.slice die n) s) (if_pos (by simpa using h))

/-- A slice that is not gated is emptied, and then gated unless a half of it keeps it from that. -/
theorem powerGate_slice_of_emptied {s : State} {die n : Nat} {d1 : Dev} (h : (die, n) ∉ s.dev.gatedSlices)
    (he : emptySlice s.mgmt s.dev die n = .ok d1) :
    Goes (.powerGate (.slice die n)) s
      (if (d1.halves.filter fun e => halfAt die n e.1).any (keepsSlice d1) then d1
      else
        let d2 := giveUpHalves d1 (d1.halves.filter fun e => halfAt die n e.1)
        { d2 with gatedSlices := d2.gatedSlices ++ [(die, n)] }) := by
  refine goes_run (exec_powerGate (.slice die n) s) ?_
  simp only [List.contains_eq_mem, h, decide_false, Bool.false_eq_true, if_false, he, Except.map, memEvent_ok]
  rfl

/-- Some half of a slice keeps it from being gated exactly when it is modified or pinned there. -/
theorem any_keepsSlice_iff {d : Dev} {die n : Nat} : (d.halves.filter fun e => halfAt die n e.1).any (keepsSlice d) = true ↔
    ∃ e ∈ d.halves, halfAt die n e.1 = true ∧ (e.2.st = .m ∨ slicePinned d (e.1 / 2) = true) := by
  simp [keepsSlice]

/-- A slice with a modified or a pinned half is emptied of its L1 copies and not gated. -/
theorem powerGate_slice_of_kept {s : State} {die n : Nat} {d1 : Dev} (h : (die, n) ∉ s.dev.gatedSlices)
    (he : emptySlice s.mgmt s.dev die n = .ok d1)
    (hk : ∃ e ∈ d1.halves, halfAt die n e.1 = true ∧ (e.2.st = .m ∨ slicePinned d1 (e.1 / 2) = true)) :
    Goes (.powerGate (.slice die n)) s d1 := by
  have hg := powerGate_slice_of_emptied h he
  rwa [if_pos (any_keepsSlice_iff.2 hk)] at hg

/-- A slice without such a half gives its halves up and is gated. -/
theorem powerGate_slice_of_clean {s : State} {die n : Nat} {d1 : Dev} (h : (die, n) ∉ s.dev.gatedSlices)
    (he : emptySlice s.mgmt s.dev die n = .ok d1)
    (hk : ∀ e ∈ d1.halves, halfAt die n e.1 = true → e.2.st ≠ .m ∧ slicePinned d1 (e.1 / 2) = false) :
    let d2 := giveUpHalves d1 (d1.halves.filter fun e => halfAt die n e.1)
    Goes (.powerGate (.slice die n)) s { d2 with gatedSlices := d2.gatedSlices ++ [(die, n)] } := by
  have hg := powerGate_slice_of_emptied h he
  rwa [if_neg] at hg
  rw [any_keepsSlice_iff]
  rintro ⟨e, hm, ha, hst | hp⟩
  · exact (hk e hm ha).1 hst
  · simp [(hk e hm ha).2] at hp

/-- A clean half is given back to the host (R319). -/
theorem evictHalf_of_clean {d : Dev} {half : Nat} {h : Half} (hh : tget? d.halves half = some h) (hs : h.st = .e ∨ h.st = .s) :
    evictHalf d half = { d with halves := tdel d.halves half, outbox := d.outbox ++ [.cleanEvict half] } := by
  obtain hs | hs := hs <;> simp [evictHalf, hh, hs, send]

/-! ## Clocks and heat (R13, R475) -/

@[simp] theorem setStep_clockStep_same {d : Dev} {die : Nat} (step : Nat) (h : die < 16) :
    (setStep d die step).clockStep[die]? = some step := by
  simp [setStep, h]
theorem setStep_clockStep_ne {d : Dev} {die e : Nat} (step : Nat) (h : e ≠ die) :
    (setStep d die step).clockStep[e]? = d.clockStep[e]? :=
  Vector.getElem?_setIfInBounds_ne h.symm

theorem clockStep_of_le {die step : Nat} (s : State) (h : step ≤ 8) : Goes (.clockStep die step) s (setStep s.dev die step) :=
  goes_run (exec_clockStep die step s) (if_pos h)
theorem clockStep_of_gt {die step : Nat} (s : State) (h : 8 < step) : Goes (.clockStep die step) s s.dev :=
  goes_run (exec_clockStep die step s) (if_neg (by omega))

/-- A thermal hold takes step 8, marks the die hot and interrupts. -/
theorem thermalHold_goes (die : Nat) (s : State) : Goes (.thermalHold die) s
    { setStep s.dev die 8 with hot := s.dev.hot ||| dieBit die, irqs := s.dev.irqs ++ [1153] } :=
  goes_run (exec_thermalHold die s) rfl

/-! ## The statement -/

/-- Settles O49: each clause is the lemma of its event and outcome. -/
theorem linksPowerAndClocks : Obligations.LinksPowerAndClocks := by
  intro s m d
  refine ⟨fun port h => linkDown_of_down h, fun port h => ?linkDown,
    fun n => ⟨powerGate_spindle_of_busy, fun d1 hg hn hf => powerGate_spindle_of_idle hg hn hf⟩,
    fun die n => ⟨powerGate_slice_of_gated,
      fun d1 hn he => ⟨powerGate_slice_of_kept hn he, powerGate_slice_of_clean hn he⟩⟩,
    fun half h hh hs => evictHalf_of_clean hh hs,
    fun die step hd => ⟨clockStep_of_gt s, fun hs => ?clockStep⟩, fun die hd => ?thermalHold⟩
  case linkDown =>
    obtain ⟨sk, df, ag, irqs, snoops, hostState, hg, hirqs, hgone⟩ := linkDown_spec h
    exact ⟨_, hg, rfl, rfl, rfl, rfl, hirqs, rfl, rfl, hgone⟩
  case clockStep =>
    exact ⟨_, clockStep_of_le s hs, rfl, setStep_clockStep_same step hd, fun e he => setStep_clockStep_ne step he⟩
  case thermalHold =>
    exact ⟨_, thermalHold_goes die s, rfl, setStep_clockStep_same 8 hd, fun e he => setStep_clockStep_ne 8 he⟩

end Sys2Proof.Machine
end

section
/-!
PROOFS. Packets of a submission queue (R36, R37, R53) and runs of a reel (R27 to R31): one lemma per event and outcome.
-/

namespace Sys2Proof.Machine

/-! ## The rows of the events -/

theorem exec_packetNop (ctx n : Nat) (s : State) : exec (.packetNop ctx n) s = execPacketNop ctx n s := rfl
theorem exec_packetLaunch (ctx n : Nat) (s : State) : exec (.packetLaunch ctx n) s = execPacketLaunch ctx n s := rfl
theorem exec_packetWait (ctx n : Nat) (s : State) : exec (.packetWait ctx n) s = execPacketWait ctx n s := rfl
theorem exec_waitPacketWake (ctx n : Nat) (s : State) : exec (.waitPacketWake ctx n) s = execWaitPacketWake ctx n s := rfl
theorem exec_reelRunBegin (ctx n : Nat) (s : State) : exec (.reelRunBegin ctx n) s = execReelRunBegin ctx n s := rfl

/-- The device an event goes to, written in another way. -/
theorem Goes.congr {i : Instr} {s : State} {d d1 : Dev} (h : Goes i s d) (he : d = d1) : Goes i s d1 := he ▸ h

/-! ## The packet at HEAD -/

section
variable {m : Mgmt} {d : Dev} {ctx n x : Nat} {ev : Instr} {f : Nat → Dev}

theorem onPacket_of_stopped (h : queueGoes d ctx n = false) : onPacket m d ctx n ev f = d := by
  simp [onPacket, h]

theorem onPacket_of_bad {e : DistErr} (h : queueGoes d ctx n = true) (hp : headPacket m d ctx n = .bad e) :
    onPacket m d ctx n ev f = stopQueue m d ctx n e (headEntry (subq d ctx n)) := by
  simp [onPacket, h, hp]

theorem onPacket_of_serial (h : queueGoes d ctx n = true) (hp : headPacket m d ctx n = .ok x) (hs : pkSerial x = true)
    (hl : launchesOf d (.queue ctx n) ≠ []) : onPacket m d ctx n ev f = d := by
  simp [onPacket, h, hp, hs, hl]

theorem onPacket_of_free (h : queueGoes d ctx n = true) (hp : headPacket m d ctx n = .ok x)
    (hs : pkSerial x = true → launchesOf d (.queue ctx n) = []) : onPacket m d ctx n ev f = f x := by
  have hb : (pkSerial x && !(launchesOf d (.queue ctx n)).isEmpty) = false := by
    cases hx : pkSerial x
    · rfl
    · simp [hs hx]
  simp [onPacket, h, hp, hb]

end

/-- The three steps that a packet can come to. -/
def packetSteps (ctx n : Nat) : List Instr := [.packetNop ctx n, .packetLaunch ctx n, .packetWait ctx n]

/-- Each of them is a step on the packet at HEAD. -/
theorem packetStep_onPacket {ctx n : Nat} {i : Instr} (hi : i ∈ packetSteps ctx n) : ∃ f : Mgmt → Dev → Nat → Dev,
    ∀ s, exec i s = s.run fun m d => onPacket m d ctx n i (f m d) := by
  simp only [packetSteps, List.mem_cons, List.not_mem_nil, or_false] at hi
  obtain rfl | rfl | rfl := hi
  · exact ⟨_, exec_packetNop ctx n⟩
  · exact ⟨_, exec_packetLaunch ctx n⟩
  · exact ⟨_, exec_packetWait ctx n⟩

section
variable {s : State} {ctx n : Nat} {i : Instr}

theorem packetStep_of_stopped (hi : i ∈ packetSteps ctx n) (h : queueGoes s.dev ctx n = false) : Goes i s s.dev := by
  obtain ⟨f, he⟩ := packetStep_onPacket hi
  exact goes_run (he s) (onPacket_of_stopped h)

theorem packetStep_of_serial {x : Nat} (hi : i ∈ packetSteps ctx n) (h : queueGoes s.dev ctx n = true)
    (hp : headPacket s.mgmt s.dev ctx n = .ok x) (hs : pkSerial x = true) (hl : launchesOf s.dev (.queue ctx n) ≠ []) :
    Goes i s s.dev := by
  obtain ⟨f, he⟩ := packetStep_onPacket hi
  exact goes_run (he s) (onPacket_of_serial h hp hs hl)

theorem packetStep_of_bad {e : DistErr} (hi : i ∈ packetSteps ctx n) (h : queueGoes s.dev ctx n = true)
    (hp : headPacket s.mgmt s.dev ctx n = .bad e) :
    Goes i s (stopQueue s.mgmt s.dev ctx n e (headEntry (subq s.dev ctx n))) := by
  obtain ⟨f, he⟩ := packetStep_onPacket hi
  exact goes_run (he s) (onPacket_of_bad h hp)

end

/-! ## A packet that takes effect -/

/-- The packet `x` at HEAD may take effect now: the queue goes, and SERIAL does not hold it back (R36, R53). -/
structure AtHead (s : State) (ctx n x : Nat) : Prop where
  goes : queueGoes s.dev ctx n = true
  read : headPacket s.mgmt s.dev ctx n = .ok x
  serial : pkSerial x = true → launchesOf s.dev (.queue ctx n) = []

theorem AtHead.onPacket {s : State} {ctx n x : Nat} {ev : Instr} {f : Nat → Dev} (h : AtHead s ctx n x) :
    onPacket s.mgmt s.dev ctx n ev f = f x := onPacket_of_free h.goes h.read h.serial

section
variable {s : State} {ctx n x : Nat}

theorem packetNop_passes (h : AtHead s ctx n x) (hb : pkBad x = false) (hk : pkKind x = 0) :
    Goes (.packetNop ctx n) s (nextPacket s.mgmt s.dev ctx n) :=
  goes_run (exec_packetNop ctx n s) (h.onPacket.trans (by simp [hk, hb]))

theorem packetNop_skips (h : AtHead s ctx n x) (hb : pkBad x = true) (hk : pkKind x ≠ 1 ∧ pkKind x ≠ 2) :
    Goes (.packetNop ctx n) s (skipPacket s.mgmt s.dev ctx n) :=
  goes_run (exec_packetNop ctx n s) (h.onPacket.trans (by simp [hk, hb]))

theorem packetLaunch_skips (h : AtHead s ctx n x) (hb : pkBad x = true) (hk : pkKind x = 1) :
    Goes (.packetLaunch ctx n) s (skipPacket s.mgmt s.dev ctx n) :=
  goes_run (exec_packetLaunch ctx n s) (h.onPacket.trans (by simp [hk, hb]))

theorem packetWait_skips (h : AtHead s ctx n x) (hb : pkBad x = true) (hk : pkKind x = 2) :
    Goes (.packetWait ctx n) s (skipPacket s.mgmt s.dev ctx n) :=
  goes_run (exec_packetWait ctx n s) (h.onPacket.trans (by simp [hk, hb]))

/-! ### LAUNCH -/

/-- A header that cannot be read leaves a record, and the packet is passed over. -/
theorem packetLaunch_unread {e : DistErr} (h : AtHead s ctx n x) (hb : pkBad x = false) (hk : pkKind x = 1)
    (hr : distRead s.mgmt s.dev ctx (pkHeader x) 128 64 = .bad e) :
    Goes (.packetLaunch ctx n) s (nextPacket s.mgmt (distRecord s.mgmt s.dev ctx e (pkHeader x) (pkHeader x)) ctx n) :=
  goes_run (exec_packetLaunch ctx n s) (h.onPacket.trans (by simp [hk, hb, hr]))

/-- A header with an offending field leaves a record that names the field (R19). -/
theorem packetLaunch_rejected {y o : Nat} {d1 : Dev} (h : AtHead s ctx n x) (hb : pkBad x = false) (hk : pkKind x = 1)
    (hr : distRead s.mgmt s.dev ctx (pkHeader x) 128 64 = .ok (y, d1))
    (hf : headerFault (isDet s.mgmt ctx) (BitVec.ofNat 1024 y) = some o) :
    Goes (.packetLaunch ctx n) s (nextPacket s.mgmt (takeLaunchFault s.mgmt d1 ctx .illegal 0 (pkHeader x + BitVec.ofNat 64 o)
      (pkHeader x) (hLabel (BitVec.ofNat 1024 y))) ctx n) :=
  goes_run (exec_packetLaunch ctx n s) (h.onPacket.trans (by simp [hk, hb, hr, hf]))

/-- A launch offered: its first ply is due where its source holds a slot, and else the source waits for one (R41). -/
def offerLaunch (r : Nat × Dev) (src : Source) : Dev := if hasSlot r.2 src then post r.2 (.plyDispatch r.1) else seekSlot r.2 src

/-- A launch whose header and arguments have been read is accepted under the most urgent class its header, its queue and its context
allow (R39). -/
theorem packetLaunch_accepted {y a : Nat} {d1 d2 : Dev} (h : AtHead s ctx n x) (hb : pkBad x = false) (hk : pkKind x = 1)
    (hr : distRead s.mgmt s.dev ctx (pkHeader x) 128 64 = .ok (y, d1))
    (hf : headerFault (isDet s.mgmt ctx) (BitVec.ofNat 1024 y) = none)
    (ha : distRead s.mgmt d1 ctx (hArgs (BitVec.ofNat 1024 y)) 64 64 = .ok (a, d2)) :
    Goes (.packetLaunch ctx n) s (nextPacket s.mgmt (retrySlots (offerLaunch
      (addLaunch d2 ctx (.queue n) (BitVec.ofNat 1024 y) (pkHeader x) (BitVec.ofNat 512 a)
        (max (hClass (BitVec.ofNat 1024 y)) (max (subq s.dev ctx n).qclass (ctxClass s.mgmt ctx)))) (.queue ctx n))) ctx n) :=
  goes_run (exec_packetLaunch ctx n s) (h.onPacket.trans (by simp [hk, hb, hr, hf, ha, offerLaunch]))

/-! ### WAIT -/

theorem tryWait_of_reached {m : Mgmt} {d d1 : Dev} {y : Nat} {ev : Instr}
    (hr : distRead m (dropWaiter d (.packet ctx n)) ctx (pkWaddr x) 8 8 = .ok (y, d1)) (hv : pkValue x ≤ y) :
    tryWait m d ctx n x ev = nextPacket m d1 ctx n := by
  simp [tryWait, hr, hv]

theorem tryWait_of_below {m : Mgmt} {d d1 : Dev} {y : Nat} {ev : Instr}
    (hr : distRead m (dropWaiter d (.packet ctx n)) ctx (pkWaddr x) 8 8 = .ok (y, d1)) (hv : y < pkValue x) :
    tryWait m d ctx n x ev =
      seekSlot (setSubq (waitAt m d1 ctx (pkWaddr x) (.packet ctx n)) ctx n { subq d1 ctx n with waiting := true }) (.queue ctx n) := by
  simp [tryWait, hr, hv]

theorem packetWait_tries (h : AtHead s ctx n x) (hb : pkBad x = false) (hk : pkKind x = 2) :
    Goes (.packetWait ctx n) s (tryWait s.mgmt s.dev ctx n x (.packetWait ctx n)) :=
  goes_run (exec_packetWait ctx n s) (h.onPacket.trans (by simp [hk, hb]))

theorem waitPacketWake_of_not_waiting (hw : (subq s.dev ctx n).waiting = false) : Goes (.waitPacketWake ctx n) s s.dev :=
  goes_run (exec_waitPacketWake ctx n s) (by simp [hw])

theorem waitPacketWake_tries (hw : (subq s.dev ctx n).waiting = true) (he : (subq s.dev ctx n).en = true)
    (hp : headPacket s.mgmt s.dev ctx n = .ok x) (hb : pkBad x = false) (hk : pkKind x = 2) :
    Goes (.waitPacketWake ctx n) s (tryWait s.mgmt s.dev ctx n x (.waitPacketWake ctx n)) :=
  goes_run (exec_waitPacketWake ctx n s) (by simp [hw, he, hp, hb, hk])

end

/-! ## Runs of a reel -/

/-- While a run of a reel is in progress none of its requests begins (R30). -/
theorem runsNext_of_run {d : Dev} {ctx n reel : Nat} (h : ∃ r ∈ d.runs, r.ctx = ctx ∧ r.reel = reel) :
    runsNext d ctx n reel = false := by
  have ha : (d.runs.any fun r => r.ctx == ctx && r.reel == reel) = true := by simpa using h
  simp [runsNext, ha]

theorem mem_pendingOf {d : Dev} {ctx reel : Nat} {t : Nat × Trig} :
    t ∈ pendingOf d ctx reel ↔ t ∈ d.trigs ∧ t.1 / 16 = ctx ∧ ∃ v, t.2.pending = some v ∧ tgReel v = reel := by
  cases ht : t.2.pending <;> simp [pendingOf, ht]

/-- The pending request of a reel that comes first was seen before every other. -/
theorem head_pendingOf_seen_le {d : Dev} {ctx reel : Nat} {t x : Nat × Trig} (h : (pendingOf d ctx reel).head? = some x)
    (ht : t ∈ pendingOf d ctx reel) : x.2.seen ≤ t.2.seen := by
  have hs : (pendingOf d ctx reel).Pairwise fun a b => a.2.seen ≤ b.2.seen := by
    have : Std.Total fun a b : Nat × Trig => a.2.seen ≤ b.2.seen := ⟨fun a b => Nat.le_total _ _⟩
    have : IsTrans (Nat × Trig) fun a b => a.2.seen ≤ b.2.seen := ⟨fun _ _ _ => Nat.le_trans⟩
    exact List.pairwise_insertionSort _ _
  cases hl : pendingOf d ctx reel with
  | nil => simp [hl] at h
  | cons y r =>
    rw [hl] at h hs ht
    obtain rfl : y = x := by simpa using h
    obtain rfl | ht := List.mem_cons.1 ht
    · exact Nat.le_refl _
    · exact (List.pairwise_cons.1 hs).1 t ht

/-- A request of a reel does not begin before one that was seen earlier (R30). -/
theorem runsNext_of_older {d : Dev} {ctx n k reel : Nat} {t : Trig} {v : DWord} (hk : k < 16) (ht : (16 * ctx + k, t) ∈ d.trigs)
    (hv : t.pending = some v) (hr : tgReel v = reel) (ho : ∀ t1, (16 * ctx + n, t1) ∈ d.trigs → t.seen < t1.seen) :
    runsNext d ctx n reel = false := by
  have hm : (16 * ctx + k, t) ∈ pendingOf d ctx reel := mem_pendingOf.2 ⟨ht, by show (16 * ctx + k) / 16 = ctx; omega, v, hv, hr⟩
  have hh : ((pendingOf d ctx reel).head?.map fun t => t.1) ≠ some (16 * ctx + n) := by
    intro he
    obtain ⟨⟨a, t1⟩, hx, rfl⟩ := Option.map_eq_some_iff.1 he
    have hin := (mem_pendingOf.1 (List.mem_of_mem_head? hx)).1
    exact absurd (head_pendingOf_seen_le hx hm) (Nat.not_le.2 (ho t1 hin))
  simp [runsNext, hh]

section
variable {s : State} {ctx n : Nat} {v : DWord}

theorem reelRunBegin_of_no_request (h : readTrig s.dev ctx n = none) : Goes (.reelRunBegin ctx n) s s.dev :=
  goes_run (exec_reelRunBegin ctx n s) (by simp [h])

theorem reelRunBegin_of_not_next (h : readTrig s.dev ctx n = some v) (ht : runsNext s.dev ctx n (tgReel v) = false) :
    Goes (.reelRunBegin ctx n) s s.dev :=
  goes_run (exec_reelRunBegin ctx n s) (by simp [h, ht])

/-- A run of a reel above 63, or without a reel table, is rejected with a record. -/
theorem reelRunBegin_of_no_reel (h : readTrig s.dev ctx n = some v) (ht : runsNext s.dev ctx n (tgReel v) = true)
    (hr : 64 ≤ tgReel v ∨ (ctxOf s.mgmt ctx).reeltab = 0) :
    Goes (.reelRunBegin ctx n) s (nextRuns (releaseIdle s.mgmt
      (takeDeviceFault s.mgmt (clearTrig s.dev ctx n) ctx .illegal 0 v 0) (.trig ctx n)) ctx) := by
  have hc : (decide (64 ≤ tgReel v) || (ctxOf s.mgmt ctx).reeltab == 0) = true := by simpa using hr
  exact goes_run (exec_reelRunBegin ctx n s) (by simp only [h, ht, hc, if_true]; rfl)

/-- A run that has nodes begins, and its launches are offered. -/
theorem reelRunBegin_of_begun {nodes : List (Nat × BitVec 2048)} {ps : List (DWord × Nat × Nat)} {d1 : Dev}
    (h : readTrig s.dev ctx n = some v) (ht : runsNext s.dev ctx n (tgReel v) = true) (hr : tgReel v < 64)
    (htab : (ctxOf s.mgmt ctx).reeltab ≠ 0) (hn : readNodes s.mgmt (clearTrig s.dev ctx n) ctx v = .ok nodes)
    (hp : readPatches s.mgmt (clearTrig s.dev ctx n) ctx v nodes = .ok ps)
    (hb : beginRun s.mgmt (clearTrig s.dev ctx n) ctx n v nodes ps = .ok d1)
    (hx : (d1.runs.any fun r => r.ctx == ctx && r.reel == tgReel v && r.nodes.isEmpty) = false) :
    Goes (.reelRunBegin ctx n) s
      (retrySlots (if hasSlot d1 (.trig ctx n) then offerLaunches d1 (.trig ctx n) else seekSlot d1 (.trig ctx n))) := by
  have hc : (decide (64 ≤ tgReel v) || (ctxOf s.mgmt ctx).reeltab == 0) = false := by
    simpa using And.intro hr htab
  exact goes_run (exec_reelRunBegin ctx n s)
    (by simp only [h, ht, hc, hn, hp, hb, hx, Bool.not_true, Bool.false_eq_true, if_false])

end

/-! ## The statement -/

/-- Settles O44: each clause is the lemma of its event and outcome. -/
theorem packets : Obligations.Packets := by
  refine ⟨fun ctx n s => ?queue, fun ctx n s => ?reel⟩
  case queue =>
    refine ⟨fun i hi h => packetStep_of_stopped hi h, fun i hi x h hp hs hl => packetStep_of_serial hi h hp hs hl,
      fun i hi e h hp => packetStep_of_bad hi h hp, fun x hg hp hs => ?taken,
      waitPacketWake_of_not_waiting,
      fun x y d1 hw he hp hb hk hr hv => (waitPacketWake_tries hw he hp hb hk).congr (tryWait_of_reached hr hv), fun x => rfl⟩
    have h : AtHead s ctx n x := ⟨hg, hp, hs⟩
    refine ⟨packetNop_passes h, fun hb => ⟨packetNop_skips h hb, packetLaunch_skips h hb, packetWait_skips h hb⟩,
      fun hb hk => ⟨fun e => packetLaunch_unread h hb hk, fun y d1 hr => ⟨fun o => packetLaunch_rejected h hb hk hr,
        fun a d2 hf ha => ?accepted⟩⟩,
      fun hb hk y d1 hr => ⟨fun hv => (packetWait_tries h hb hk).congr (tryWait_of_reached hr hv),
        fun hv => (packetWait_tries h hb hk).congr (tryWait_of_below hr hv)⟩⟩
    have hg := packetLaunch_accepted h hb hk hr hf ha
    exact ⟨fun hslot => by rwa [offerLaunch, if_pos hslot] at hg,
      fun hslot => by rwa [offerLaunch, if_neg (Bool.eq_false_iff.1 hslot)] at hg⟩
  case reel =>
    refine ⟨reelRunBegin_of_no_request, fun v hv => ⟨fun hr => reelRunBegin_of_not_next hv (runsNext_of_run hr),
      fun k t v1 hk _ ht hp hr ho => reelRunBegin_of_not_next hv (runsNext_of_older hk ht hp hr ho), reelRunBegin_of_no_reel hv,
      fun nodes ps d1 hturn hlt htab hn hps hb hx => ?begun⟩⟩
    have hg := reelRunBegin_of_begun hv hturn hlt htab hn hps hb hx
    exact ⟨fun hslot => by rwa [if_pos hslot] at hg, fun hslot => by rwa [if_neg (Bool.eq_false_iff.1 hslot)] at hg⟩

end Sys2Proof.Machine
end

section
/-!
PROOFS. The statement about placement (O45) names, in its clause on a ply that is placed, the ply of each launch it changes; the step
moves every launch of the number on by the length of the one ply it has placed. Two launches of one number tell the two apart.
-/

namespace Sys2Proof.Machine

theorem exec_plyDispatch (id : Nat) (s : State) : exec (.plyDispatch id) s = execPlyDispatch id s := rfl

/-- Whether a launch's next ply may be placed: its source holds a slot, no group of it waits to come first, and every group of the ply
may start (R43, R29). -/
def mayDispatch (d : Dev) (l : Launch) : Bool := mayStart d l && (goBefore d l).isEmpty && (nextPly l).all (mayPlace d l)

theorem ply_held_iff {d : Dev} {l : Launch} :
    ((nextPly l).isEmpty || !mayStart d l || !(goBefore d l).isEmpty || !(nextPly l).all (mayPlace d l)) = true ↔
      nextPly l = [] ∨ mayDispatch d l = false := by
  simp only [mayDispatch, Bool.or_eq_true, Bool.not_eq_true', Bool.and_eq_false_iff, List.isEmpty_iff, or_assoc]

/-- The launches of a number moved on behind a ply of some groups on a die. -/
def plyPlaced (d : Dev) (id die groups : Nat) : Dev :=
  modLaunch d id fun l => { l with next := l.next + groups, lastDie := some die }

/-- A ply placed whole on a die: the launch goes on behind it, and is due again while it has groups left. -/
theorem plyDispatch_of_placed {s : State} {id die : Nat} {l : Launch} {d1 : Dev} (h : launch? s.dev id = some l) (hn : nextPly l ≠ [])
    (hm : mayDispatch s.dev l = true) (hf : firstDie s.mgmt s.dev l (offerOrder l) = .ok (some (die, d1))) :
    Goes (.plyDispatch id) s
      (if l.next + (nextPly l).length < hNGroups l.header then post (plyPlaced d1 id die (nextPly l).length) (.plyDispatch id)
      else plyPlaced d1 id die (nextPly l).length) := by
  have hh := (ply_held_iff (d := s.dev)).not.2 (not_or.2 ⟨hn, by simp [hm]⟩)
  exact goes_run (exec_plyDispatch id s) (by simp only [h]; exact (if_neg hh).trans (by simp only [hf]; rfl))

/-- An event goes to one device. -/
theorem Goes.unique {i : Instr} {s : State} {d e : Dev} (hd : Goes i s d) (he : Goes i s e) : d = e := by
  have h := hd.symm.trans he
  injection h with h
  exact congrArg State.dev h

/-- The launches of a device that a ply has been placed on. -/
def launchesPlaced : MemM (Option (Nat × Dev)) → List Launch
  | .ok (some x) => x.2.launches
  | _ => []

/-- A launch of one group that has not started, and one whose group has. -/
def freshLaunch : Launch := { progLaunch with next := 0, lastDie := none }

/-- Two launches of number 0 in an empty device of context 0; their queue holds a slot. -/
def twins : State :=
  { mgmt := { ctxs := resetMgmt.ctxs.setIfInBounds 0 (progCtx resetCtx) }
    dev := { resetDev with launches := [freshLaunch, progLaunch], slots := [(0, { src := .queue 0 0, order := 0 })] } }

theorem nextPly_freshLaunch : nextPly freshLaunch = [0] := by decide +kernel
theorem nextPly_progLaunch : nextPly progLaunch = [] := by decide +kernel

/-- The first launch's ply is placed, and neither launch has been changed by that. -/
theorem launchesPlaced_twins :
    launchesPlaced (firstDie twins.mgmt twins.dev freshLaunch (offerOrder freshLaunch)) = [freshLaunch, progLaunch] := by
  decide +kernel

theorem firstDie_twins : ∃ die d1,
    firstDie twins.mgmt twins.dev freshLaunch (offerOrder freshLaunch) = .ok (some (die, d1)) ∧ d1.launches = [freshLaunch, progLaunch] := by
  have h := launchesPlaced_twins
  cases hf : firstDie twins.mgmt twins.dev freshLaunch (offerOrder freshLaunch) with
  | error e => simp [hf, launchesPlaced] at h
  | ok o =>
    cases o with
    | none => simp [hf, launchesPlaced] at h
    | some x => exact ⟨x.1, x.2, rfl, by simpa [hf, launchesPlaced] using h⟩

/-- A change of the launches of number 0 changes both. -/
theorem modWhere_twins (f : Launch → Launch) :
    modWhere (fun l => l.id == 0) f [freshLaunch, progLaunch] = [f freshLaunch, f progLaunch] := rfl

/-- Refutes O45: where two launches have one number, the step moves both on by the length of the ply it has placed; the statement moves
the second, whose one group has started, on by the length of its own next ply, which is empty. -/
theorem not_placement : ¬ Obligations.Placement := by
  intro h
  have hfirst : launch? twins.dev 0 = some freshLaunch := rfl
  obtain ⟨die, d1, hf, hl⟩ := firstDie_twins
  obtain ⟨-, -, hply, -⟩ := h twins
  obtain ⟨-, hplaced, -⟩ := (hply 0).2 freshLaunch hfirst
  have hnext : nextPly freshLaunch ≠ [] := by simp [nextPly_freshLaunch]
  have hmay : mayDispatch twins.dev freshLaunch = true := by decide +kernel
  have hlast : ¬ freshLaunch.next + (nextPly freshLaunch).length < hNGroups freshLaunch.header := by decide +kernel
  have hstated := hplaced die d1 hnext hmay hf
  have hgoes := plyDispatch_of_placed hfirst hnext hmay hf
  dsimp only at hstated
  rw [if_neg hlast] at hstated hgoes
  have hd := congrArg Dev.launches (hgoes.unique hstated)
  simp only [plyPlaced, modLaunch, hl, modWhere_twins, List.cons.injEq, Launch.mk.injEq, nextPly_freshLaunch, nextPly_progLaunch] at hd
  simp at hd

end Sys2Proof.Machine
end

section
/-!
PROOFS. CALL and RET (R22, R148, R149): the checks of their accesses, and what each of them comes to.
-/

namespace Sys2Proof.Machine

theorem exec_call (o : Lb) (s : State) : exec (.call o) s = execCall o s := rfl
theorem exec_ret (o : Ln) (s : State) : exec (.ret o) s = execRet o s := rfl

/-! ## Masks made of tests -/

theorem getLsbD_foldl_maskOf (f : Nat → Bool) (ls : List Nat) (hls : ∀ l ∈ ls, l < 32) (j : Nat) : ∀ x : Mask,
    (ls.foldl (fun m i => if f i then m ||| BitVec.ofNat 32 (2 ^ i) else m) x).getLsbD j =
      (x.getLsbD j || (decide (j ∈ ls) && f j)) := by
  induction ls with
  | nil => intro x; simp
  | cons a ls ih =>
    intro x
    rw [List.foldl_cons, ih fun l hl => hls l (List.mem_cons_of_mem _ hl)]
    have ha : a < 32 := hls a List.mem_cons_self
    have hbit : (BitVec.ofNat 32 (2 ^ a)).getLsbD j = decide (j = a) := by
      rw [BitVec.getLsbD_ofNat, Nat.testBit_two_pow]
      by_cases h : j = a
      · subst h; simp [ha]
      · simp [h, Ne.symm h]
    cases hf : f a
    · have hne : f j = true → j ≠ a := fun h e => by simp [e, hf] at h
      cases hj : f j <;> simp [hj, hne]
    · rw [if_pos rfl, BitVec.getLsbD_or, hbit]
      by_cases hj : j = a
      · simp [hj, hf]
      · simp [hj]

theorem getLsbD_maskOf (f : Nat → Bool) (j : Nat) : (maskOf f).getLsbD j = (decide (j < 32) && f j) := by
  unfold maskOf
  rw [getLsbD_foldl_maskOf f _ (fun l hl => List.mem_range.1 hl)]
  simp

theorem lanesOf_maskOf (f : Nat → Bool) : lanesOf (maskOf f) = (List.range 32).filter f := by
  unfold lanesOf
  refine List.filter_congr fun l hl => ?_
  rw [getLsbD_maskOf, decide_eq_true (List.mem_range.1 hl), Bool.true_and]

theorem maskOf_congr {f g : Nat → Bool} (h : ∀ l, l < 32 → f l = g l) : maskOf f = maskOf g := by
  refine BitVec.eq_of_getLsbD_eq fun j hj => ?_
  rw [getLsbD_maskOf, getLsbD_maskOf, h j hj]

theorem maskOf_eq_zero_iff {f : Nat → Bool} : maskOf f = 0 ↔ (List.range 32).filter f = [] := by
  rw [← lanesOf_maskOf]
  constructor
  · intro h; rw [h]; rfl
  · intro h
    refine BitVec.eq_of_getLsbD_eq fun j hj => ?_
    have : j ∉ lanesOf (maskOf f) := by simp [h]
    simpa [mem_lanesOf, hj] using this

/-- The lanes of a mask that pass a test. -/
theorem filter_lanesOf (ex : Mask) (f : Nat → Bool) :
    (lanesOf ex).filter f = (List.range 32).filter fun l => ex.getLsbD l && f l := by
  rw [lanesOf, List.filter_filter]
  exact List.filter_congr fun l _ => Bool.and_comm _ _

/-! ## The checks of all lanes -/

/-- Accesses that pass the checks are accesses that were checked. -/
theorem mem_of_checkAll_go {store : Bool} {chk : LAcc → Chk} {as : List LAcc} {ls : List (LAcc × Leaf × Nat)}
    (h : checkAll store chk as = .go ls) : ∀ a ∈ ls, a.1 ∈ as := by
  unfold checkAll at h
  simp only at h
  split at h
  · split at h <;> cases h
  · cases h
  · cases h
  · injection h with h
    subst h
    intro a ha
    simp only [List.mem_filterMap, List.mem_map] at ha
    obtain ⟨c, ⟨b, hb, rfl⟩, hc⟩ := ha
    split at hc
    · cases hc; exact hb
    · cases hc

/-- Whether a lane's checks fail, or wait, only after a place in their order. -/
def FailsAfter (st : Nat) : Chk → Prop
  | .bad b => st < b.stage
  | .wait w _ => st < w
  | _ => True

theorem failsAfter_errChk {st stage : Nat} (addr : DWord) (e : MemErr) (h : st < stage) (h4 : st < 5) :
    FailsAfter st (errChk stage addr e) := by
  cases e <;> simp [errChk, FailsAfter, stData, stXlate, stPerm, stGuard] <;> omega

theorem mem_of_foldl_pick {α : Type} {f : Option α → α → Option α} (hf : ∀ w c, f w c = w ∨ f w c = some c) {y : α} :
    ∀ (xs : List α) (w : Option α), xs.foldl f w = some y → y ∈ xs ∨ w = some y := by
  intro xs
  induction xs with
  | nil => intro w h; exact .inr h
  | cons x xs ih =>
    intro w h
    obtain hm | hw := ih (f w x) h
    · exact .inl (List.mem_cons_of_mem _ hm)
    · obtain he | he := hf w x
      · exact .inr (he ▸ hw)
      · rw [he] at hw
        cases hw
        exact .inl List.mem_cons_self

theorem failsAfter_checkPtr (m : Mgmt) (d : Dev) (ctx sp : Nat) (p : DWord) (n al : Nat) (store : Bool) :
    FailsAfter stBounds (checkPtr m d ctx sp p n al store) := by
  unfold checkPtr
  split
  · simp [FailsAfter, stBounds, stAlign]
  · split
    · simp [FailsAfter, stBounds, stCanon]
    · simp only
      split
      · next hw =>
        obtain hm | hm := mem_of_foldl_pick (fun w c => by
          cases w with
          | none => exact .inr rfl
          | some x => exact (ite_eq_or_eq _ _ _).symm) _ _ hw
        · obtain ⟨⟨q, r⟩, -, hr⟩ := List.mem_filterMap.1 hm
          cases r with
          | error e =>
            obtain rfl := Option.some.inj hr
            exact failsAfter_errChk _ _ (by decide) (by decide)
          | ok x => cases hr
        · cases hm
      · simp [FailsAfter]
      · simp [FailsAfter]

theorem failsAfter_checkUni {m : Mgmt} {d : Dev} {ctx sp n al : Nat} {store : Bool} {probe : Leaf → Nat → Option (DWord × MemErr)}
    {a : LAcc} : FailsAfter stBounds (checkUni m d ctx sp n al store probe a) := by
  have hp := failsAfter_checkPtr m d ctx sp a.p n al store
  unfold checkUni
  split
  · split
    · exact failsAfter_errChk _ _ (by decide) (by decide)
    · trivial
  · exact hp

/-- The failures and the waits that the checks of some accesses come to. -/
def failuresOf (chk : LAcc → Chk) (as : List LAcc) : List (Nat × Bad) :=
  (as.map fun a => (a, chk a)).filterMap fun x => match x.2 with | .bad b => some (x.1.lane, b) | _ => none
def waitsOf (chk : LAcc → Chk) (as : List LAcc) : List (Nat × Need) :=
  (as.map fun a => (a, chk a)).filterMap fun x => match x.2 with | .wait s n => some (s, n) | _ => none

theorem mem_failuresOf {chk : LAcc → Chk} {as : List LAcc} {x : Nat × Bad} (h : x ∈ failuresOf chk as) :
    ∃ a ∈ as, chk a = .bad x.2 := by
  simp only [failuresOf, List.mem_filterMap, List.mem_map] at h
  obtain ⟨_, ⟨a, ha, rfl⟩, hx⟩ := h
  refine ⟨a, ha, ?_⟩
  cases hc : chk a <;> simp only [hc, reduceCtorEq, Option.some.injEq] at hx
  subst hx; rfl

theorem failuresOf_cons (chk : LAcc → Chk) (a : LAcc) (as : List LAcc) :
    failuresOf chk (a :: as) = failuresOf chk [a] ++ failuresOf chk as := by
  simp only [failuresOf, List.map_cons, List.map_nil, ← List.filterMap_append]
  rfl

theorem failuresOf_of_bad {chk : LAcc → Chk} {a : LAcc} {b : Bad} (h : chk a = .bad b) : failuresOf chk [a] = [(a.lane, b)] := by
  simp [failuresOf, h]

/-- An access that fails only after a place has no failure there. -/
theorem failuresOf_of_failsAfter {chk : LAcc → Chk} {a : LAcc} {st : Nat} (h : FailsAfter st (chk a)) :
    (failuresOf chk [a]).filter (fun x => x.2.stage == st) = [] := by
  refine List.filter_eq_nil_iff.2 fun x hx => ?_
  obtain ⟨a', ha, hc⟩ := mem_failuresOf hx
  obtain rfl := List.mem_singleton.1 ha
  rw [hc] at h
  simpa using Nat.ne_of_gt h

theorem mem_waitsOf {chk : LAcc → Chk} {as : List LAcc} {w : Nat × Need} (h : w ∈ waitsOf chk as) :
    ∃ a ∈ as, chk a = .wait w.1 w.2 := by
  simp only [waitsOf, List.mem_filterMap, List.mem_map] at h
  obtain ⟨_, ⟨a, ha, rfl⟩, hw⟩ := h
  refine ⟨a, ha, ?_⟩
  cases hc : chk a <;> simp only [hc, reduceCtorEq, Option.some.injEq] at hw
  subst hw; rfl

/-- The fault of the failures is raised when each wait comes after some failure. -/
theorem checkAll_of_failures {store : Bool} {chk : LAcc → Chk} {as : List LAcc} {f : FaultInfo}
    (hf : pickFault (failuresOf chk as) store = some f)
    (hw : ∀ w ∈ waitsOf chk as, (failuresOf chk as).any (fun b => decide (b.2.stage < w.1)) = true) : checkAll store chk as = .fault f := by
  unfold checkAll
  simp only
  split
  · next f' st w hp hwt =>
    obtain rfl : f' = f := Option.some.inj (hp.symm.trans hf)
    obtain hm | hm := mem_of_foldl_pick (fun w c => by
      cases w with
      | none => exact .inr rfl
      | some x => exact (ite_eq_or_eq _ _ _).symm) _ _ hwt
    · exact if_pos (hw _ hm)
    · cases hm
  · next f' hp _ =>
    obtain rfl : f' = f := Option.some.inj (hp.symm.trans hf)
    rfl
  · next hp _ => cases hp.symm.trans hf
  · next hp _ => cases hp.symm.trans hf

theorem foldl_min_eq {α : Type} (k : α → Nat) (st : Nat) : ∀ (xs : List α) (a : Nat), (∀ x ∈ xs, st ≤ k x) → st ≤ a →
    (a = st ∨ ∃ x ∈ xs, k x = st) → xs.foldl (fun s x => min s (k x)) a = st := by
  intro xs
  induction xs with
  | nil => intro a _ _ h; simpa using h
  | cons x xs ih =>
    intro a hx ha h
    have hkx := hx x List.mem_cons_self
    refine ih (min a (k x)) (fun y hy => hx y (List.mem_cons_of_mem _ hy)) (by omega) ?_
    obtain h | ⟨y, hy, he⟩ := h
    · exact .inl (by omega)
    · obtain rfl | hy := List.mem_cons.1 hy
      · exact .inl (by omega)
      · exact .inr ⟨y, hy, he⟩

/-- The fault picked is that of the failures at the least place, and names the first of them. -/
theorem pickFault_of_least {bads : List (Nat × Bad)} {st : Nat} {b : Nat × Bad} {r : List (Nat × Bad)} (store : Bool)
    (hle : ∀ x ∈ bads, st ≤ x.2.stage) (hst : st ≤ 100) (h : bads.filter (fun x => x.2.stage == st) = b :: r) :
    ∃ f, pickFault bads store = some f ∧ f.cause = b.2.cause ∧ f.addr = b.2.addr ∧
      f.lanes = maskOf fun l => (b :: r).any fun x => x.1 == l := by
  have hb : b ∈ bads ∧ b.2.stage = st := by
    simpa using List.mem_filter.1 (h ▸ List.mem_cons_self : b ∈ bads.filter fun x => x.2.stage == st)
  have hmin : bads.foldl (fun s x => min s x.2.stage) 100 = st :=
    foldl_min_eq (fun x : Nat × Bad => x.2.stage) st bads 100 hle hst (.inr ⟨b, hb⟩)
  simp only [pickFault, hmin, h]
  exact ⟨_, rfl, rfl, rfl, rfl⟩

/-! ## The checks of stack accesses -/

/-- The failure of an access whose stack pointer is out of its region (R22). -/
def outOfStack (stk : DWord) : Bad := { stage := stBounds, cause := .bounds, sub := 0, addr := stk }

theorem checkLane_stackAcc_bad {m : Mgmt} {d : Dev} {ctx sp n al : Nat} {store : Bool} {probe : Leaf → Nat → Option (DWord × MemErr)}
    (stk p : DWord) (l : Nat) {bad : Bool} (hb : bad = true) :
    checkLane m d ctx sp n al store probe (stackAcc stk p l bad) = .bad (outOfStack stk) := by
  subst hb; rfl

theorem failsAfter_checkLane_stackAcc {m : Mgmt} {d : Dev} {ctx sp n al : Nat} {store : Bool}
    {probe : Leaf → Nat → Option (DWord × MemErr)} (stk p : DWord) (l : Nat) {bad : Bool} (hb : bad = false) :
    FailsAfter stBounds (checkLane m d ctx sp n al store probe (stackAcc stk p l bad)) := by
  subst hb
  by_cases hc : nonCanon p = true
  · simp [checkLane, stackAcc, hc, FailsAfter, stBounds, stCanon]
  · simp only [checkLane, stackAcc, hc, Bool.false_eq_true, if_false]
    exact failsAfter_checkUni

section
variable {chk : LAcc → Chk} {stk p : Nat → DWord} {bad : Nat → Bool} {ls : List Nat}
  (hbad : ∀ l, bad l = true → chk (stackAcc (stk l) (p l) l (bad l)) = .bad (outOfStack (stk l)))
  (hgood : ∀ l, bad l = false → FailsAfter stBounds (chk (stackAcc (stk l) (p l) l (bad l))))
include hbad hgood

/-- The failures at the first place are those of the stack pointers. -/
theorem failuresOf_stackAcc :
    (failuresOf chk (ls.map fun l => stackAcc (stk l) (p l) l (bad l))).filter (fun x => x.2.stage == stBounds) =
      (ls.filter bad).map fun l => (l, outOfStack (stk l)) := by
  induction ls with
  | nil => rfl
  | cons a ls ih =>
    rw [List.map_cons, failuresOf_cons, List.filter_append, ih]
    cases hb : bad a
    · rw [← hb, failuresOf_of_failsAfter (hgood a hb), List.nil_append, List.filter_cons_of_neg (by simp [hb])]
    · rw [← hb, failuresOf_of_bad (hbad a hb), List.filter_cons_of_pos hb]
      rfl

/-- The lanes of a bundle whose stack pointer is out of its region are the ones its BOUNDS names, with the lowest one's pointer; the
checks of other lanes come later (R224). -/
theorem checkAll_stackAcc (store : Bool) (hls : ls.filter bad ≠ []) :
    ∃ f, checkAll store chk (ls.map fun l => stackAcc (stk l) (p l) l (bad l)) = .fault f ∧ f.cause = .bounds ∧
      f.addr = stk ((ls.filter bad).headD 0) ∧ f.lanes = maskOf fun l => (ls.filter bad).any fun x => x == l := by
  have hfirst := failuresOf_stackAcc hbad hgood (ls := ls)
  have hle : ∀ x ∈ failuresOf chk (ls.map fun l => stackAcc (stk l) (p l) l (bad l)), stBounds ≤ x.2.stage := by
    intro x hx
    obtain ⟨a, ha, hc⟩ := mem_failuresOf hx
    obtain ⟨l, -, rfl⟩ := List.mem_map.1 ha
    cases hb : bad l
    · have hg := hgood l hb
      rw [hc] at hg
      exact Nat.le_of_lt hg
    · rw [hbad l hb] at hc
      injection hc with hc
      exact hc ▸ Nat.le_refl _
  obtain ⟨l0, r, hl⟩ := List.exists_cons_of_ne_nil hls
  rw [hl, List.map_cons] at hfirst
  obtain ⟨f, hf, hcause, haddr, hlanes⟩ := pickFault_of_least store hle (by decide) hfirst
  refine ⟨f, checkAll_of_failures hf fun w hw => ?waits, hcause, by rw [haddr, hl]; rfl, ?lanes⟩
  case lanes =>
    rw [hlanes, hl]
    simp only [List.any_cons, List.any_map, Function.comp_def]
  case waits =>
    have hm : (l0, outOfStack (stk l0)) ∈ failuresOf chk (ls.map fun l => stackAcc (stk l) (p l) l (bad l)) :=
      List.mem_of_mem_filter (hfirst ▸ List.mem_cons_self)
    refine List.any_eq_true.2 ⟨_, hm, decide_eq_true ?_⟩
    obtain ⟨a, ha, hc⟩ := mem_waitsOf hw
    obtain ⟨l, -, rfl⟩ := List.mem_map.1 ha
    cases hb : bad l
    · have hg := hgood l hb
      rwa [hc] at hg
    · cases (hbad l hb).symm.trans hc

end

/-- The same of the lanes of a mask. -/
theorem checkAll_stackLanes {store : Bool} {chk : LAcc → Chk} {stk p : Nat → DWord} {bad : Nat → Bool} {ex : Mask}
    (hbad : ∀ l, bad l = true → chk (stackAcc (stk l) (p l) l (bad l)) = .bad (outOfStack (stk l)))
    (hgood : ∀ l, bad l = false → FailsAfter stBounds (chk (stackAcc (stk l) (p l) l (bad l))))
    (hex : maskOf (fun l => ex.getLsbD l && bad l) ≠ 0) :
    ∃ f, checkAll store chk ((lanesOf ex).map fun l => stackAcc (stk l) (p l) l (bad l)) = .fault f ∧ f.cause = .bounds ∧
      f.lanes = maskOf (fun l => ex.getLsbD l && bad l) ∧ f.addr = stk ((lanesOf f.lanes).headD 0) := by
  have hls : (lanesOf ex).filter bad = lanesOf (maskOf fun l => ex.getLsbD l && bad l) := by
    rw [filter_lanesOf, lanesOf_maskOf]
  have hne : (lanesOf ex).filter bad ≠ [] := by
    rw [filter_lanesOf]; exact mt maskOf_eq_zero_iff.2 hex
  obtain ⟨f, hf, hcause, haddr, hlanes⟩ := checkAll_stackAcc hbad hgood store hne
  have hm : f.lanes = maskOf fun l => ex.getLsbD l && bad l := by
    rw [hlanes]
    refine maskOf_congr fun l hl => ?_
    simp [List.any_beq', List.contains_eq_mem, mem_lanesOf, hl]
  exact ⟨f, hf, hcause, hm, by rw [haddr, hls, hm]⟩

/-- Whether a lane's stack pointer lets no word be pushed below it, or popped (R22, R148, R149). -/
def cannotPush (d : Dev) (l : Nat) : Bool :=
  let t := threadOf (curSkein d) l
  t.stk == 0 || decide (t.stk.toNat < stackStart (curGroup d) t + 8)
def cannotPop (d : Dev) (l : Nat) : Bool :=
  let t := threadOf (curSkein d) l
  t.stk == 0 || decide (stackEnd (curGroup d) t ≤ t.stk.toNat)

theorem callChecks_of_cannotPush {m : Mgmt} {d : Dev} {ex : Mask} (h : maskOf (fun l => ex.getLsbD l && cannotPush d l) ≠ 0) :
    ∃ f, callChecks m d ex = .fault f ∧ f.cause = .bounds ∧ f.lanes = maskOf (fun l => ex.getLsbD l && cannotPush d l) ∧
      f.addr = (threadOf (curSkein d) ((lanesOf f.lanes).headD 0)).stk :=
  checkAll_stackLanes (stk := fun l => (threadOf (curSkein d) l).stk) (p := fun l => (threadOf (curSkein d) l).stk - 8)
    (fun l hl => checkLane_stackAcc_bad _ _ l hl) (fun l hl => failsAfter_checkLane_stackAcc _ _ l hl) h

theorem retChecks_of_cannotPop {m : Mgmt} {d : Dev} {ex : Mask} (h : maskOf (fun l => ex.getLsbD l && cannotPop d l) ≠ 0) :
    ∃ f, retChecks m d ex = .fault f ∧ f.cause = .bounds ∧ f.lanes = maskOf (fun l => ex.getLsbD l && cannotPop d l) ∧
      f.addr = (threadOf (curSkein d) ((lanesOf f.lanes).headD 0)).stk :=
  checkAll_stackLanes (stk := fun l => (threadOf (curSkein d) l).stk) (p := fun l => (threadOf (curSkein d) l).stk)
    (fun l hl => checkLane_stackAcc_bad _ _ l hl) (fun l hl => failsAfter_checkLane_stackAcc _ _ l hl) h

/-- The accesses that CALL makes are 8 bytes below the pointers of executing lanes, those of RET at them. -/
theorem callChecks_go {m : Mgmt} {d : Dev} {ex : Mask} {ls : List (LAcc × Leaf × Nat)} (h : callChecks m d ex = .go ls) :
    ∀ a ∈ ls, a.1.lane ∈ lanesOf ex ∧ a.1.p = (threadOf (curSkein d) a.1.lane).stk - 8 := by
  intro a ha
  obtain ⟨l, hl, he⟩ := List.mem_map.1 (mem_of_checkAll_go h a ha)
  rw [← he]
  exact ⟨hl, rfl⟩

theorem retChecks_go {m : Mgmt} {d : Dev} {ex : Mask} {ls : List (LAcc × Leaf × Nat)} (h : retChecks m d ex = .go ls) :
    ∀ a ∈ ls, a.1.lane ∈ lanesOf ex ∧ a.1.p = (threadOf (curSkein d) a.1.lane).stk := by
  intro a ha
  obtain ⟨l, hl, he⟩ := List.mem_map.1 (mem_of_checkAll_go h a ha)
  rw [← he]
  exact ⟨hl, rfl⟩

/-! ## CALL (R148) -/

/-- What the action of a lane instruction that ends no region finds: the move alone. -/
theorem advance_inLanes {s : State} {h : Hd} (he : h.ends = 0) (hf : h.fp64 = false) :
    advance s.mgmt s.dev (inLanes s h) = moved s h.w h.len false := by
  rw [inLanes_plain he, advance_moved hf, he]; rfl

section
variable {i : Instr} {s : State} {h : Hd} {f : Mgmt → Dev → Dev} {body : Mask → Dev → Res}

/-- A lane instruction that ends no region and is performed, or faults. -/
theorem goes_laneDone {d1 : Dev} (he : exec i s = s.run f) (hf : f s.mgmt s.dev = laneIssue s.mgmt s.dev h body)
    (hends : h.ends = 0) (hfp : h.fp64 = false) (hc : LaneClear s h.p h.n h.rds)
    (hb : body (lanesUnder s h.p h.n) (moved s h.w h.len false) = .done d1) : Goes i s d1 :=
  goes_run he (hf.trans (laneIssue_done hc (by rw [advance_inLanes hends hfp]; exact hb)))

theorem goes_laneFault {e : FaultInfo} (he : exec i s = s.run f) (hf : f s.mgmt s.dev = laneIssue s.mgmt s.dev h body)
    (hends : h.ends = 0) (hfp : h.fp64 = false) (hc : LaneClear s h.p h.n h.rds)
    (hb : body (lanesUnder s h.p h.n) (moved s h.w h.len false) = .fault e) : Goes i s (trapped s h.w h.len false e) :=
  goes_run he (hf.trans ((laneIssue_fault hc (by rw [advance_inLanes hends hfp]; exact hb)).trans (faulted_trapped false hfp)))

end

/-- The executing lanes of a CALL entered: their pointers 8 bytes lower, the lanes at the target. -/
def entered (s : State) (o : Lb) (d : Dev) : Dev :=
  setPcs (moveStk d s.dev.cur.skein (lanesUnder s o.p o.n) (-8)) s.dev.cur.skein (lanesUnder s o.p o.n) (branchTarget s.dev o)

section
variable {s : State} {o : Lb} {ls : List (LAcc × Leaf × Nat)} (hc : LaneClear s o.p o.n [])
include hc

theorem call_of_cannotPush (h : maskOf (fun l => (lanesUnder s o.p o.n).getLsbD l && cannotPush s.dev l) ≠ 0) :
    ∃ f : FaultInfo, f.cause = .bounds ∧ f.lanes = maskOf (fun l => (lanesUnder s o.p o.n).getLsbD l && cannotPush s.dev l) ∧
      f.addr = (threadOf (curSkein s.dev) ((lanesOf f.lanes).headD 0)).stk ∧ Goes (.call o) s (trapped s o.w 4 false f) := by
  obtain ⟨f, hf, hcause, hlanes, haddr⟩ := callChecks_of_cannotPush (m := s.mgmt) h
  refine ⟨{ f with undefPc := true }, hcause, hlanes, haddr, ?_⟩
  exact goes_laneFault (h := hdLb o) (exec_call o s) rfl rfl rfl hc (by simp only [hdLb, hf])

variable (hk : callChecks s.mgmt s.dev (lanesUnder s o.p o.n) = .go ls) (hl : ownedLine s.dev ls = none)
include hk hl

/-- In run-ahead the store is suppressed (R456). -/
theorem call_of_runsAhead (hr : runsAhead s.dev = true) : Goes (.call o) s (entered s o (moved s o.w 4 false)) :=
  goes_laneDone (h := hdLb o) (exec_call o s) rfl rfl rfl hc (by simp only [hdLb, hk, hl, hr, if_true]; rfl)

/-- A store of the lanes' return address, and in a deterministic context the older buffered bytes of that word gone. -/
theorem call_of_stored {d1 : Dev} (hr : runsAhead s.dev = false)
    (hs : storeLanes s.mgmt (moved s o.w 4 false) (curCtx s.dev) (curSpindle s.dev) 8 0 (fun _ => (s.dev.cur.pc + 4).toNat) ls = .ok d1) :
    Goes (.call o) s (entered s o (if isDet s.mgmt (curCtx s.dev) then
      ls.foldl (fun d x => sbufTake d (curSkein s.dev).gid (ownNo (curSkein s.dev) x.1.lane) x.2.2 8) d1 else d1)) :=
  goes_laneDone (h := hdLb o) (exec_call o s) rfl rfl rfl hc
    (by simp only [hdLb, hk, hl, hr, Bool.false_eq_true, if_false, hs]; rfl)

end

/-! ## RET (R149) -/

/-- The loaded addresses that no instruction stands at. -/
def misaligned (vals : List (Nat × Nat)) : List (Nat × Nat) := vals.filter fun v => v.2 % 4 != 0

/-- The failure of a lane whose loaded address is misaligned. -/
def badTarget (v : Nat × Nat) : Nat × Bad := (v.1, { stage := stAlign, cause := .align, sub := 0, addr := BitVec.ofNat 64 v.2 })

theorem badTargets_eq (vals : List (Nat × Nat)) :
    (vals.filterMap fun v => if v.2 % 4 = 0 then none
      else some (v.1, ({ stage := stAlign, cause := .align, sub := 0, addr := BitVec.ofNat 64 v.2 } : Bad))) =
      (misaligned vals).map badTarget := by
  induction vals with
  | nil => rfl
  | cons v r ih => by_cases h : v.2 % 4 = 0 <;> simp_all [misaligned, badTarget]

section
variable {s : State} {o : Ln} {ls : List (LAcc × Leaf × Nat)} (hc : LaneClear s 7 false [])
include hc

theorem ret_of_cannotPop (h : maskOf (fun l => (lanesUnder s 7 false).getLsbD l && cannotPop s.dev l) ≠ 0) :
    ∃ f : FaultInfo, f.cause = .bounds ∧ f.lanes = maskOf (fun l => (lanesUnder s 7 false).getLsbD l && cannotPop s.dev l) ∧
      f.addr = (threadOf (curSkein s.dev) ((lanesOf f.lanes).headD 0)).stk ∧ Goes (.ret o) s (trapped s o.w 4 false f) := by
  obtain ⟨f, hf, hcause, hlanes, haddr⟩ := retChecks_of_cannotPop (m := s.mgmt) h
  refine ⟨{ f with undefPc := true }, hcause, hlanes, haddr, ?_⟩
  exact goes_laneFault (h := hd o.w 4 []) (exec_ret o s) rfl rfl rfl hc (by simp only [hd, hf])

variable {vals : List (Nat × Nat)} {d1 : Dev} {lat : Nat} (hk : retChecks s.mgmt s.dev (lanesUnder s 7 false) = .go ls)
  (hl : ownedLine s.dev ls = none)
  (hv : loadLanes s.mgmt (moved s o.w 4 false) (curCtx s.dev) (curSpindle s.dev) 8 0 ls = .ok (vals, d1, lat))
include hk hl hv

theorem ret_of_aligned (ha : misaligned vals = []) : Goes (.ret o) s
    (setLanePcs (moveStk d1 s.dev.cur.skein (lanesUnder s 7 false) 8) s.dev.cur.skein (vals.map fun v => (v.1, BitVec.ofNat 64 v.2))) :=
  goes_laneDone (h := hd o.w 4 []) (exec_ret o s) rfl rfl rfl hc
    (by simp only [hd, hk, hl, hv, badTargets_eq, ha]; rfl)

theorem ret_of_misaligned {v : Nat × Nat} {r : List (Nat × Nat)} (ha : misaligned vals = v :: r) :
    ∃ f : FaultInfo, f.cause = .align ∧ f.lanes = (maskOf fun l => (v :: r).any fun x => x.1 == l) ∧ f.addr = BitVec.ofNat 64 v.2 ∧
      Goes (.ret o) s (trapped s o.w 4 false f) := by
  have hall : ((v :: r).map badTarget).filter (fun x => x.2.stage == stAlign) = badTarget v :: r.map badTarget := by
    rw [List.filter_eq_self.2, List.map_cons]
    intro x hx
    obtain ⟨y, -, rfl⟩ := List.mem_map.1 hx
    rfl
  have hle : ∀ x ∈ (v :: r).map badTarget, stAlign ≤ x.2.stage := by
    intro x hx
    obtain ⟨y, -, rfl⟩ := List.mem_map.1 hx
    exact Nat.le_refl _
  obtain ⟨f, hf, hcause, haddr, hlanes⟩ := pickFault_of_least false hle (by decide) hall
  refine ⟨f, hcause, ?_, haddr, ?_⟩
  · rw [hlanes]
    simp only [List.any_cons, List.any_map, Function.comp_def]
    rfl
  · exact goes_laneFault (h := hd o.w 4 []) (exec_ret o s) rfl rfl rfl hc
      (by simp only [hd, hk, hl, hv, badTargets_eq, ha, hf])

end

/-! ## The statement -/

/-- Settles O14: each clause is the lemma of its instruction and outcome. -/
theorem callAndReturn : Obligations.CallAndReturn := by
  intro s _ m d u ctx sp stk start stop up
  refine ⟨fun o ls d1 hc hk hl => ⟨call_of_runsAhead hc hk hl, call_of_stored hc hk hl, callChecks_go hk⟩,
    fun o hc h => call_of_cannotPush hc h,
    fun o ls vals d1 lat hc hk hl hv ha => ⟨ret_of_aligned hc hk hl hv ?_, retChecks_go hk⟩,
    fun o ls vals d1 lat hc hk hl hv v r ha => ret_of_misaligned hc hk hl hv ha,
    fun o hc h => ret_of_cannotPop hc h⟩
  exact List.filter_eq_nil_iff.2 fun v hv => by simp [ha v hv]

end Sys2Proof.Machine
end

section
/-!
PROOFS. Register writes of the host (R30, R35, R36, R49, R327 to R329, R475, R476) and memory-management commands (R191, R192, R210): what
each write does, where each register lies in its window, and what a command comes to.
-/

namespace Sys2Proof.Machine

/-! ## The rows of the events -/

theorem exec_qdoorWrite (ctx n : Nat) (v : DWord) (s : State) : exec (.qdoorWrite ctx n v) s = execQdoorWrite ctx n v s := rfl
theorem exec_triggerWrite (ctx n : Nat) (v : DWord) (s : State) : exec (.triggerWrite ctx n v) s = execTriggerWrite ctx n v s := rfl
theorem exec_qcfgWrite (ctx n : Nat) (hi : Bool) (v : DWord) (s : State) :
    exec (.qcfgWrite ctx n hi v) s = execQcfgWrite ctx n hi v s := rfl
theorem exec_linkerrWrite (v : DWord) (s : State) : exec (.linkerrWrite v) s = execLinkerrWrite v s := rfl
theorem exec_diecapWrite (die : Nat) (v : DWord) (s : State) : exec (.diecapWrite die v) s = execDiecapWrite die v s := rfl
theorem exec_detctlWrite (ctx : Nat) (v : DWord) (s : State) : exec (.detctlWrite ctx v) s = .next (writeDetctl s ctx v) := rfl
theorem exec_partitionWrite (ctx die : Nat) (v : DWord) (s : State) :
    exec (.partitionWrite ctx die v) s = .next (writePart s ctx die v) := rfl
theorem exec_bar0 (off bytes : Nat) (v : DWord) (s : State) :
    exec (.registerWrite .bar0 { off := off, bytes := bytes } v) s = .next (writeBar0 s off bytes v) := rfl
theorem exec_bar2 (off bytes : Nat) (v : DWord) (s : State) :
    exec (.registerWrite .bar2 { off := off, bytes := bytes } v) s = .next (writeBar2 s off bytes v) := rfl
theorem exec_xinv (cmd : BitVec 256) (s : State) : exec (.xinv cmd) s = execXinv cmd s := rfl
theorem exec_harvest (cmd : BitVec 256) (s : State) : exec (.harvest cmd) s = execHarvest cmd s := rfl
theorem exec_mmcmdDone (cmd : BitVec 256) (ok : Bool) (s : State) : exec (.mmcmdDone cmd ok) s = execMmcmdDone cmd ok s := rfl

/-- A row that answers a state whose management registers are as they were. -/
theorem goes_next {i : Instr} {s t : State} {d : Dev} (he : exec i s = .next t) (ht : t = s.dev' d) : Goes i s d :=
  he.trans (congrArg _ ht)

theorem clearAt_iff {v : DWord} {lo n : Nat} : clearAt v lo n = true ↔ bitsOf v lo n = 0 := beq_iff_eq
theorem clearAt_of_eq {v : DWord} {lo n : Nat} (h : bitsOf v lo n = 0) : clearAt v lo n = true := clearAt_iff.2 h
theorem clearAt_of_ne {v : DWord} {lo n : Nat} (h : bitsOf v lo n ≠ 0) : clearAt v lo n = false :=
  Bool.eq_false_iff.2 (mt clearAt_iff.1 h)

/-- The bits from `lo` up are zero exactly in a small word. -/
theorem bitsOf_top {v : DWord} (lo : Nat) (h : lo ≤ 64) : bitsOf v lo (64 - lo) = 0 ↔ v.toNat < 2 ^ lo := by
  have hv : v.toNat / 2 ^ lo < 2 ^ (64 - lo) := by
    rw [Nat.div_lt_iff_lt_mul (Nat.two_pow_pos lo), ← Nat.pow_add, Nat.sub_add_cancel h]
    exact v.isLt
  rw [bitsOf, Nat.mod_eq_of_lt hv, Nat.div_eq_zero_iff]
  simp

/-! ## Doorbells (R30, R35, R36) -/

theorem doorbell_of_full {d f : Dev} (h : d.stage = 2) : doorbell d f = f := by simp [doorbell, fullFn, h]
theorem doorbell_of_early {d f : Dev} (h : d.stage ≠ 2) : doorbell d f = countLinkErr d := by simp [doorbell, fullFn, h]

theorem tailBad_eq_false_iff {q : SubQ} : tailBad q = false ↔ ¬ 2 ^ q.logn < (q.tail - q.head).toNat := decide_eq_false_iff_not
theorem tailBad_iff {q : SubQ} : tailBad q = true ↔ 2 ^ q.logn < (q.tail - q.head).toNat := decide_eq_true_iff

section
variable {s : State} {ctx n : Nat} {v : DWord} {hi : Bool}

theorem doorbells_early (h : s.dev.stage ≠ 2) : Goes (.qdoorWrite ctx n v) s (countLinkErr s.dev) ∧
    Goes (.triggerWrite ctx n v) s (countLinkErr s.dev) ∧ Goes (.qcfgWrite ctx n hi v) s (countLinkErr s.dev) :=
  ⟨goes_run (exec_qdoorWrite ctx n v s) (doorbell_of_early h), goes_run (exec_triggerWrite ctx n v s) (doorbell_of_early h),
    goes_run (exec_qcfgWrite ctx n hi v s) (doorbell_of_early h)⟩

theorem qdoorWrite_goes (h : s.dev.stage = 2) : Goes (.qdoorWrite ctx n v) s (writeQdoor s.mgmt s.dev ctx n v) :=
  goes_run (exec_qdoorWrite ctx n v s) (doorbell_of_full h)
theorem triggerWrite_goes (h : s.dev.stage = 2) : Goes (.triggerWrite ctx n v) s (writeTrig s.dev ctx n v) :=
  goes_run (exec_triggerWrite ctx n v s) (doorbell_of_full h)
theorem qcfgWrite_goes (h : s.dev.stage = 2) : Goes (.qcfgWrite ctx n hi v) s (writeQcfg s.mgmt s.dev ctx n hi v) :=
  goes_run (exec_qcfgWrite ctx n hi v s) (doorbell_of_full h)

end

section
variable {m : Mgmt} {d : Dev} {ctx n : Nat} {v : DWord}

/-- A queue with a new tail, with the geometry of a high word, and with the ring of a low word. -/
def withTail (q : SubQ) (v : DWord) : SubQ := { q with tail := v.setWidth 32 }
def withSize (q : SubQ) (v : DWord) : SubQ := { q with logn := bitsOf v 0 6, qclass := bitsOf v 6 2 }
def withRing (q : SubQ) (v : DWord) (en : Bool) : SubQ := { q with base := v &&& ~~~31, en := en }

theorem writeQdoor_of_ahead (h : tailBad (withTail (subq d ctx n) v) = true) :
    writeQdoor m d ctx n v = tailStop m (setSubq d ctx n (withTail (subq d ctx n) v)) ctx n := if_pos h
theorem writeQdoor_of_room (h : tailBad (withTail (subq d ctx n) v) = false) : writeQdoor m d ctx n v =
    pumpQueue m (seekSlot (releaseIdle m (setSubq d ctx n (withTail (subq d ctx n) v)) (.queue ctx n)) (.queue ctx n)) ctx n :=
  if_neg (Bool.eq_false_iff.1 h)

theorem writeQcfg_hi_refused (h : bitsOf v 8 24 ≠ 0 ∨ bitsOf v 0 6 < 4 ∨ 16 < bitsOf v 0 6) :
    writeQcfg m d ctx n true v = countLinkErr d :=
  if_pos (by simpa [clearAt, or_assoc] using h)

section
variable (hz : bitsOf v 8 24 = 0) (h4 : 4 ≤ bitsOf v 0 6) (h16 : bitsOf v 0 6 ≤ 16)
include hz h4 h16

/-- A high word that is taken. -/
theorem writeQcfg_hi_taken : writeQcfg m d ctx n true v = retryDispatch m
    (if (subq d ctx n).en && tailBad (withSize (subq d ctx n) v) then tailStop m (setSubq d ctx n (withSize (subq d ctx n) v)) ctx n
    else setSubq d ctx n (withSize (subq d ctx n) v)) :=
  if_neg (by simp [clearAt, hz, h4, h16])

theorem writeQcfg_hi_stops (he : (subq d ctx n).en = true) (ha : tailBad (withSize (subq d ctx n) v) = true) :
    writeQcfg m d ctx n true v = retryDispatch m (tailStop m (setSubq d ctx n (withSize (subq d ctx n) v)) ctx n) := by
  rw [writeQcfg_hi_taken hz h4 h16, he, ha]; rfl

theorem writeQcfg_hi_stands (h : (subq d ctx n).en = false ∨ tailBad (withSize (subq d ctx n) v) = false) :
    writeQcfg m d ctx n true v = retryDispatch m (setSubq d ctx n (withSize (subq d ctx n) v)) := by
  rw [writeQcfg_hi_taken hz h4 h16, Bool.and_eq_false_iff.2 h]; rfl

end

theorem writeQcfg_lo_refused (h : bitsOf v 1 4 ≠ 0) : writeQcfg m d ctx n false v = countLinkErr d :=
  if_pos (by simp [clearAt_of_ne h])

section
variable (h : bitsOf v 1 4 = 0)
include h

/-- A low word that is taken: the queue is disabled, or stops when its tail is too far ahead, or goes on. -/
theorem writeQcfg_lo_taken : writeQcfg m d ctx n false v =
    (let d1 := setSubq d ctx n (withRing (subq d ctx n) v (v.getLsbD 0))
    if !v.getLsbD 0 then haltQueue m d1 ctx n
    else if tailBad (subq d ctx n) then tailStop m d1 ctx n
    else pumpQueue m (seekSlot (setSubq d1 ctx n { subq d1 ctx n with waiting := false }) (.queue ctx n)) ctx n) :=
  if_neg (by simp [clearAt_of_eq h])

theorem writeQcfg_lo_disables (hv : v.getLsbD 0 = false) :
    writeQcfg m d ctx n false v = haltQueue m (setSubq d ctx n (withRing (subq d ctx n) v false)) ctx n := by
  rw [writeQcfg_lo_taken h, hv]; rfl

theorem writeQcfg_lo_stops (hv : v.getLsbD 0 = true) (ha : tailBad (subq d ctx n) = true) :
    writeQcfg m d ctx n false v = tailStop m (setSubq d ctx n (withRing (subq d ctx n) v true)) ctx n := by
  rw [writeQcfg_lo_taken h, hv, ha]; rfl

theorem writeQcfg_lo_pumps (hv : v.getLsbD 0 = true) (ha : tailBad (subq d ctx n) = false) : writeQcfg m d ctx n false v =
    (let d1 := setSubq d ctx n (withRing (subq d ctx n) v true)
    pumpQueue m (seekSlot (setSubq d1 ctx n { subq d1 ctx n with waiting := false }) (.queue ctx n)) ctx n) := by
  rw [writeQcfg_lo_taken h, hv, ha]; rfl

end

end

/-! ## DIECAP, DETCTL and the partition registers (R475, R329, R49) -/

theorem diecapWrite_taken {s : State} {die : Nat} {v : DWord} (h : bitsOf v 16 48 = 0) :
    Goes (.diecapWrite die v) s { s.dev with diecap := s.dev.diecap.setIfInBounds die v } :=
  goes_run (exec_diecapWrite die v s) (if_pos (clearAt_of_eq h))
theorem diecapWrite_refused {s : State} {die : Nat} {v : DWord} (h : bitsOf v 16 48 ≠ 0) :
    Goes (.diecapWrite die v) s (countLinkErr s.dev) :=
  goes_run (exec_diecapWrite die v s) (if_neg (by simp [clearAt_of_ne h]))

section
variable {s : State} {ctx : Nat} {v : DWord}

theorem writeDetctl_reserved (h : bitsOf v 1 63 ≠ 0) : writeDetctl s ctx v = s.refuse :=
  if_pos (by simp [clearAt_of_ne h])
theorem writeDetctl_same (h : bitsOf v 1 63 = 0) (hv : v = (ctxOf s.mgmt ctx).detctl) : writeDetctl s ctx v = s := by
  simp [writeDetctl, clearAt_of_eq h, ← hv]
theorem writeDetctl_busy (hv : v ≠ (ctxOf s.mgmt ctx).detctl) (hw : hasWorkIn s.dev ctx = true) : writeDetctl s ctx v = s.refuse := by
  by_cases h : bitsOf v 1 63 = 0
  · simp [writeDetctl, clearAt_of_eq h, hv, hw]
  · exact writeDetctl_reserved h
theorem writeDetctl_idle (h : bitsOf v 1 63 = 0) (hv : v ≠ (ctxOf s.mgmt ctx).detctl) (hw : hasWorkIn s.dev ctx = false) :
    writeDetctl s ctx v = s.withCtx ctx fun c => { c with detctl := v } := by
  simp [writeDetctl, clearAt_of_eq h, hv, hw]

/-- A context without work takes DETCTL, and no other register of it or of another context changes. -/
theorem detctlWrite_taken (hc : ctx < 64) (h : bitsOf v 1 63 = 0) (hw : hasWorkIn s.dev ctx = false) :
    ∃ t, exec (.detctlWrite ctx v) s = .next t ∧ t.dev = s.dev ∧
      ctxOf t.mgmt ctx = { ctxOf s.mgmt ctx with detctl := v } ∧ ∀ c, c ≠ ctx → ctxOf t.mgmt c = ctxOf s.mgmt c := by
  refine ⟨_, exec_detctlWrite ctx v s, ?_⟩
  by_cases hv : v = (ctxOf s.mgmt ctx).detctl
  · rw [writeDetctl_same h hv]
    exact ⟨rfl, by rw [hv], fun _ _ => rfl⟩
  · rw [writeDetctl_idle h hv hw]
    exact ⟨rfl, by simp [State.withCtx, ctxOf_setCtx _ _ _ _ hc], fun c hne => by simp [State.withCtx, ctxOf_setCtx _ _ _ _ hc, hne]⟩

/-- The management registers with a partition register of a context written. -/
def withPart (m : Mgmt) (ctx die : Nat) (v : DWord) : Mgmt :=
  setCtx m ctx { ctxOf m ctx with part := (ctxOf m ctx).part.setIfInBounds die v }

theorem writePart_refused {die : Nat} (h : partitionBad (withPart s.mgmt ctx die v) s.dev ctx die v = true) :
    writePart s ctx die v = s.refuse := if_pos h
theorem writePart_taken {die : Nat} (h : partitionBad (withPart s.mgmt ctx die v) s.dev ctx die v = false) : writePart s ctx die v =
    { mgmt := withPart s.mgmt ctx die v
      dev := retryDispatch (withPart s.mgmt ctx die v) (evictForbidden (withPart s.mgmt ctx die v) s.dev) } :=
  if_neg (Bool.eq_false_iff.1 h)

end

/-! ## Where the registers lie (R327, R328, R35) -/

section
variable {s : State} {v : DWord}

theorem writeBar0_of_misplaced {off bytes : Nat} (h : off % 8 ≠ 0 ∨ bytes ≠ 8) : writeBar0 s off bytes v = s :=
  if_pos (by simpa using h)
theorem writeBar2_of_misplaced {off bytes : Nat} (h : off % 8 ≠ 0 ∨ bytes ≠ 8 ∨ s.dev.stage ≠ 2) :
    writeBar2 s off bytes v = s.refuse :=
  if_pos (by simpa [fullFn, or_assoc] using h)

theorem writeBar0_linkerr : writeBar0 s 0x20 8 v = { s with dev := clearLinkerr s.dev } := rfl

theorem writeBar0_diecap {die : Nat} (h : die < 16) : writeBar0 s (0x100 + 8 * die) 8 v = { s with dev := writeDiecap s.dev die v } := by
  generalize ho : 0x100 + 8 * die = off
  obtain ⟨h8, h1, h2, h3, hi⟩ : off % 8 = 0 ∧ ¬ off < 0x20 ∧ off ≠ 0x20 ∧
    (0x100 ≤ off ∧ off < 0x180) ∧ (off - 0x100) / 8 = die := by omega
  simp [writeBar0, h8, h1, h2, h3, hi]

theorem writeBar0_mbdata {i : Nat} (h : i < 0x100) :
    writeBar0 s (0x1800 + 8 * i) 8 v = { s with dev := { s.dev with mbdata := tset s.dev.mbdata i v } } := by
  generalize ho : 0x1800 + 8 * i = off
  obtain ⟨h8, h1, h2, h3, h4, h5, hi⟩ : off % 8 = 0 ∧ ¬ off < 0x20 ∧ off ≠ 0x20 ∧ ¬ off < 0x180 ∧ off ≠ 0x1000 ∧
    (0x1800 ≤ off ∧ off < 0x2000) ∧ (off - 0x1800) / 8 = i := by omega
  simp [writeBar0, h8, h1, h2, h3, h4, h5, hi]

/-- A context's block of management registers. -/
theorem writeBar0_ctxReg {ctx o : Nat} (hc : ctx < 64) (hlt : o < 0x400) (ho : o % 8 = 0) :
    writeBar0 s (0x10000 + 0x400 * ctx + o) 8 v = writeCtxReg s ctx o v := by
  generalize hoff : 0x10000 + 0x400 * ctx + o = off
  obtain ⟨h8, h1, h2, h3, h4, h5, h6, hi, hm⟩ : off % 8 = 0 ∧ ¬ off < 0x20 ∧ off ≠ 0x20 ∧ ¬ off < 0x180 ∧ off ≠ 0x1000 ∧
    ¬ off < 0x2000 ∧ (0x10000 ≤ off ∧ off < 0x20000) ∧ (off - 0x10000) / 0x400 = ctx ∧ off % 0x400 = o := by omega
  simp [writeBar0, h8, h1, h2, h3, h4, h5, h6, hi, hm]

theorem writeCtxReg_part {ctx die : Nat} (h : die < 16) : writeCtxReg s ctx (0x80 + 8 * die) v = writePart s ctx die v := by
  generalize ho : 0x80 + 8 * die = off
  obtain ⟨hin, hi⟩ : (0x80 ≤ off ∧ off < 0x100 ∧ off % 8 = 0) ∧ (off - 0x80) / 8 = die := by omega
  have hlow := hin.1
  unfold writeCtxReg
  split
  case h_14 => rw [if_pos hin, hi]
  all_goals omega

/-- A context's doorbell page, from full function on. -/
theorem writeBar2_page {ctx o : Nat} (hs : s.dev.stage = 2) (hc : ctx < 64) (hlt : o < 4096) (ho : o % 8 = 0) :
    writeBar2 s (4096 * ctx + o) 8 v =
      if o < 0x100 then { s with dev := writeQdoor s.mgmt s.dev ctx (o / 8) v }
      else if o < 0x180 then { s with dev := writeTrig s.dev ctx ((o - 0x100) / 8) v }
      else if 0x200 ≤ o ∧ o < 0x400 then { s with dev := writeQcfg s.mgmt s.dev ctx ((o - 0x200) / 16) (o / 8 % 2 == 1) v }
      else if 0x400 ≤ o ∧ o < 0x420 then writeSpoolcfg s ctx ((o - 0x400) / 8) v
      else s := by
  generalize hoff : 4096 * ctx + o = off
  obtain ⟨h8, hi, hm⟩ : off % 8 = 0 ∧ off / 4096 = ctx ∧ off % 4096 = o := by omega
  simp [writeBar2, fullFn, hs, h8, hi, hm, hc]

section
variable {ctx : Nat} (hs : s.dev.stage = 2) (hc : ctx < 64)
include hs hc

theorem writeBar2_qdoor {n : Nat} (hn : n < 32) :
    writeBar2 s (4096 * ctx + 8 * n) 8 v = { s with dev := writeQdoor s.mgmt s.dev ctx n v } := by
  rw [writeBar2_page hs hc (by omega) (by omega), if_pos (by omega), Nat.mul_div_cancel_left n (by decide)]

theorem writeBar2_trig {n : Nat} (hn : n < 16) :
    writeBar2 s (4096 * ctx + (0x100 + 8 * n)) 8 v = { s with dev := writeTrig s.dev ctx n v } := by
  rw [writeBar2_page hs hc (by omega) (by omega), if_neg (by omega), if_pos (by omega), Nat.add_sub_cancel_left,
    Nat.mul_div_cancel_left n (by decide)]

/-- The low word of QCFGn at 0x200 + 16 n, the high word 8 bytes on. -/
theorem writeBar2_qcfg {n o : Nat} {hi : Bool} (hn : n < 32) (ho : o = 0x200 + 16 * n + if hi then 8 else 0) :
    writeBar2 s (4096 * ctx + o) 8 v = { s with dev := writeQcfg s.mgmt s.dev ctx n hi v } := by
  obtain ⟨hno, hr, h8, hd⟩ : ¬ o < 0x180 ∧ (0x200 ≤ o ∧ o < 0x400) ∧ o % 8 = 0 ∧ (o - 0x200) / 16 = n := by
    cases hi <;> simp only [Bool.false_eq_true, if_false, if_true] at ho <;> omega
  have hw : (o / 8 % 2 == 1) = hi := by
    cases hi <;> simp only [Bool.false_eq_true, if_false, if_true] at ho
    · exact beq_false_of_ne (by omega)
    · exact beq_iff_eq.2 (by omega)
  rw [writeBar2_page hs hc (by omega) h8, if_neg (by omega), if_neg hno, if_pos hr, hd, hw]

end

end

/-! ## A context's registers (R328, R35, R42, R184, R445, R457) -/

section
variable {s : State} {ctx : Nat} {v : DWord}

theorem writeIf_taken {ok : Bool} {f : Ctx → Ctx} (h : ok = true) : writeIf s ctx ok f = s.withCtx ctx f := if_pos h
theorem writeIf_refused {ok : Bool} {f : Ctx → Ctx} (h : ok = false) : writeIf s ctx ok f = s.refuse := if_neg (Bool.eq_false_iff.1 h)

theorem writeNlt_low : writeCtxReg s ctx 0x18 v = s.withCtx ctx fun c => { c with nlt := c.nlt.extractLsb' 64 64 ++ v } := rfl
theorem writeNlt_high : writeCtxReg s ctx 0x20 v = s.withCtx ctx fun c => { c with nlt := v ++ c.nlt.extractLsb' 0 64 } := rfl
theorem writePinquota : writeCtxReg s ctx 0x28 v = s.withCtx ctx fun c => { c with pinquota := v } := rfl
theorem writeSigwin : writeCtxReg s ctx 0x38 v = s.withCtx ctx fun c => { c with sigwin := v } := rfl
theorem writeTermt : writeCtxReg s ctx 0x40 v = s.withCtx ctx fun c => { c with termt := v } := rfl

theorem writeQuantum_taken (h16 : 16 ≤ v.toNat) (h30 : v.toNat ≤ 30) :
    writeCtxReg s ctx 0x10 v = s.withCtx ctx fun c => { c with quantum := v } := writeIf_taken (by simp [h16, h30])
theorem writeQuantum_refused (h : v.toNat < 16 ∨ 30 < v.toNat) : writeCtxReg s ctx 0x10 v = s.refuse :=
  writeIf_refused (by simp only [Bool.and_eq_false_iff, decide_eq_false_iff_not]; omega)

theorem writeWatchdog_taken (h : v.toNat < 2 ^ 32) : writeCtxReg s ctx 0x30 v = s.withCtx ctx fun c => { c with watchdog := v } :=
  writeIf_taken (clearAt_of_eq ((bitsOf_top 32 (by decide)).2 h))
theorem writeWatchdog_refused (h : 2 ^ 32 ≤ v.toNat) : writeCtxReg s ctx 0x30 v = s.refuse :=
  writeIf_refused (clearAt_of_ne (mt (bitsOf_top 32 (by decide)).1 (Nat.not_lt.2 h)))

theorem writeCtxclass_taken (h : v.toNat < 4) : writeCtxReg s ctx 0x08 v = (s.withCtx ctx fun c => { c with ctxclass := v }).retry :=
  if_pos (clearAt_of_eq ((bitsOf_top 2 (by decide)).2 h))
theorem writeCtxclass_refused (h : 4 ≤ v.toNat) : writeCtxReg s ctx 0x08 v = s.refuse :=
  if_neg (Bool.eq_false_iff.1 (clearAt_of_ne (mt (bitsOf_top 2 (by decide)).1 (Nat.not_lt.2 h))))

/-- A log2 slot count of FAULTQ or RING is 0, or 6 to 16. -/
theorem logOk_iff : logOk v = true ↔ (bitsOf v 0 5 = 0 ∨ (6 ≤ bitsOf v 0 5 ∧ bitsOf v 0 5 ≤ 16)) := by
  simp [logOk]

theorem logOk_eq_false_iff : logOk v = false ↔ ¬ (bitsOf v 0 5 = 0 ∨ (6 ≤ bitsOf v 0 5 ∧ bitsOf v 0 5 ≤ 16)) := by
  rw [← logOk_iff, Bool.not_eq_true]

theorem writeFaultq_taken (hl : logOk v = true) (h5 : bitsOf v 5 5 = 0) (h10 : bitsOf v 10 2 ≠ 3) :
    writeCtxReg s ctx 0x48 v = s.withCtx ctx fun c => { c with faultq := v } :=
  writeIf_taken (by simp [hl, clearAt_of_eq h5, h10])
theorem writeFaultq_refused (h : logOk v = false ∨ bitsOf v 5 5 ≠ 0 ∨ bitsOf v 10 2 = 3) : writeCtxReg s ctx 0x48 v = s.refuse :=
  writeIf_refused (by simpa only [clearAt, Bool.and_eq_false_iff, or_assoc, beq_eq_false_iff_ne, bne_eq_false_iff_eq] using h)

theorem writeRing_taken (hl : logOk v = true) (h5 : bitsOf v 5 7 = 0) :
    writeCtxReg s ctx 0x50 v = s.withCtx ctx fun c => { c with ring := v } :=
  writeIf_taken (by simp [hl, clearAt_of_eq h5])
theorem writeRing_refused (h : logOk v = false ∨ bitsOf v 5 7 ≠ 0) : writeCtxReg s ctx 0x50 v = s.refuse :=
  writeIf_refused (by simpa only [clearAt, Bool.and_eq_false_iff, beq_eq_false_iff_ne] using h)

theorem bitsOf_zero (n : Nat) : bitsOf v 0 n = v.toNat % 2 ^ n := by rw [bitsOf, pow_zero, Nat.div_one]

theorem writeReeltab_taken (h : v.toNat % 2 ^ 22 = 0) :
    writeCtxReg s ctx 0x60 v = s.withCtx ctx fun c => { c with reeltab := v } :=
  writeIf_taken (clearAt_of_eq ((bitsOf_zero 22).trans h))
theorem writeReeltab_refused (h : v.toNat % 2 ^ 22 ≠ 0) : writeCtxReg s ctx 0x60 v = s.refuse :=
  writeIf_refused (clearAt_of_ne (bitsOf_zero (v := v) 22 ▸ h))

end

/-- Whether another enabled context has the address space that a value of PTBASE enables (R184). -/
def spaceTaken (m : Mgmt) (ctx : Nat) (v : DWord) : Bool :=
  v.getLsbD 0 && (List.range 64).any fun c => c != ctx && ctxEnabled m c && ctxAsid m c == bitsOf v 48 16

section
variable {s : State} {ctx : Nat} {v : DWord}

theorem writePtbase_refused (h : bitsOf v 41 7 ≠ 0 ∨ bitsOf v 1 11 ≠ 0 ∨ spaceTaken s.mgmt ctx v = true) :
    writePtbase s ctx v = s.refuse :=
  if_pos (by simpa [clearAt, spaceTaken, or_assoc] using h)

section
variable (h41 : bitsOf v 41 7 = 0) (h1 : bitsOf v 1 11 = 0) (ht : spaceTaken s.mgmt ctx v = false)
include h41 h1 ht

/-- A value of PTBASE that is taken: waiting work is offered again, and the engines' commands go on where it enables the context. -/
theorem writePtbase_taken : writePtbase s ctx v =
    (let s1 := (s.withCtx ctx fun c => { c with ptbase := v }).retry
    if v.getLsbD 0 then { s1 with dev := retryEngines s1.dev ctx } else s1) := by
  unfold spaceTaken at ht
  exact if_neg (by simp only [clearAt_of_eq h41, clearAt_of_eq h1, ht]; decide)

theorem writePtbase_disables (hv : v.getLsbD 0 = false) : writeCtxReg s ctx 0x00 v =
    { mgmt := (s.withCtx ctx fun c => { c with ptbase := v }).mgmt
      dev := retryDispatch (s.withCtx ctx fun c => { c with ptbase := v }).mgmt s.dev } := by
  show writePtbase s ctx v = _
  rw [writePtbase_taken h41 h1 ht, hv]; rfl

theorem writePtbase_enables (hv : v.getLsbD 0 = true) : writeCtxReg s ctx 0x00 v =
    { mgmt := (s.withCtx ctx fun c => { c with ptbase := v }).mgmt
      dev := retryEngines (retryDispatch (s.withCtx ctx fun c => { c with ptbase := v }).mgmt s.dev) ctx } := by
  show writePtbase s ctx v = _
  rw [writePtbase_taken h41 h1 ht, hv]
  simp only [if_true, State.retry, State.withCtx]

end

end

/-! ## Memory-management commands (R191, R192, R210) -/

@[simp] theorem pruneRp_tlb (d : Dev) : (pruneRp d).tlb = d.tlb := by unfold pruneRp; split <;> rfl
@[simp] theorem pruneRp_l1 (d : Dev) : (pruneRp d).l1 = d.l1 := by unfold pruneRp; split <;> rfl

/-- XINV of a context without a copy in any L1 changes no line. -/
theorem xinvLines_of_none {m : Mgmt} {d : Dev} {cmd : BitVec 256} (h : ∀ l ∈ d.l1, l.asid ≠ ctxAsid m (mmCtx cmd)) :
    xinvLines m d cmd = .ok d := by
  have hf : (d.l1.filter fun l => l.asid == ctxAsid m (mmCtx cmd) && mmMeets cmd (128 * l.va) 128) = [] :=
    List.filter_eq_nil_iff.2 fun l hl => by simp [h l hl]
  unfold xinvLines
  simp only [hf]
  rfl

theorem xinvTlbs_spec (m : Mgmt) (d : Dev) (cmd : BitVec 256) :
    (xinvTlbs m d cmd).tlb = d.tlb.filter (fun t => !(t.asid == ctxAsid m (mmCtx cmd) && mmMeets cmd t.va t.leaf.size)) ∧
      (xinvTlbs m d cmd).mem = d.mem ∧ (xinvTlbs m d cmd).l1 = d.l1 := by
  simp [xinvTlbs]

theorem xinv_goes {s : State} {cmd : BitVec 256} {d1 : Dev} (h : xinvLines s.mgmt s.dev cmd = .ok d1) :
    Goes (.xinv cmd) s (post (xinvTlbs s.mgmt d1 cmd) (.mmcmdDone cmd true)) :=
  goes_run (exec_xinv cmd s) (by simp only [h]; rfl)

theorem harvest_goes {s : State} {cmd : BitVec 256} {d1 : Dev}
    (h : ((List.range (mmCount cmd / 64)).foldlM (harvestGroup s.mgmt cmd) s.dev : MemM Dev) = .ok d1) :
    Goes (.harvest cmd) s (post d1 (.mmcmdDone cmd true)) :=
  goes_run (exec_harvest cmd s) (by simp only [h])

/-- The natural whose low `k` bits are the values of a test. -/
def bitsFrom (f : Nat → Bool) (k : Nat) : Nat := (List.range k).foldl (fun n b => if f b then n + 2 ^ b else n) 0

theorem bitsFrom_succ (f : Nat → Bool) (k : Nat) : bitsFrom f (k + 1) = if f k then bitsFrom f k + 2 ^ k else bitsFrom f k := by
  simp [bitsFrom, List.range_succ]

theorem bitsFrom_lt (f : Nat → Bool) (k : Nat) : bitsFrom f k < 2 ^ k := by
  induction k with
  | zero => simp [bitsFrom]
  | succ k ih => rw [bitsFrom_succ, pow_succ]; split <;> omega

theorem testBit_bitsFrom (f : Nat → Bool) (k j : Nat) : (bitsFrom f k).testBit j = (decide (j < k) && f j) := by
  induction k with
  | zero => simp [bitsFrom]
  | succ k ih =>
    have hor : bitsFrom f k + 2 ^ k = 2 ^ k ||| bitsFrom f k := by
      rw [Nat.add_comm]; simpa using Nat.two_pow_add_eq_or_of_lt (bitsFrom_lt f k) 1
    have hlt : j ≠ k → decide (j < k + 1) = decide (j < k) := fun hj => decide_eq_decide.2 (by omega)
    rw [bitsFrom_succ]
    cases hf : f k
    · rw [if_neg Bool.false_ne_true, ih]
      by_cases hj : j = k
      · simp [hj, hf]
      · rw [hlt hj]
    · rw [if_pos rfl, hor, Nat.testBit_or, ih, Nat.testBit_two_pow]
      by_cases hj : j = k
      · simp [hj, hf]
      · rw [hlt hj, decide_eq_false (Ne.symm hj), Bool.false_or]

/-- The written bits of 64 pages that HARVEST copies, and the device with them cleared (R210). -/
theorem harvestGroup_spec {m : Mgmt} {cmd : BitVec 256} {d d1 : Dev} {i : Nat} (h : harvestGroup m cmd d i = .ok d1) : ∃ x : Nat,
    (∀ b, b < 64 → x.testBit b = tget d.written (mmAddr cmd / 4096 + 64 * i + b) false) ∧
    physWrite m { d with written := d.written.filter fun e =>
      !(decide (mmAddr cmd / 4096 + 64 * i ≤ e.1) && decide (e.1 < mmAddr cmd / 4096 + 64 * i + 64)) } (mmDest cmd + 8 * i) 8 x = .ok d1 :=
  ⟨bitsFrom (fun b => tget d.written (mmAddr cmd / 4096 + 64 * i + b) false) 64,
    fun b hb => by rw [testBit_bitsFrom, decide_eq_true hb, Bool.true_and], h⟩

/-- The next memory-management command begins. -/
def nextCommand (d : Dev) : Dev :=
  match d.mmq.tail with
  | c :: _ => mmBegin { d with mmq := d.mmq.tail } c
  | [] => { d with mmq := d.mmq.tail }

section
variable {s : State} {cmd : BitVec 256} {ok : Bool}

theorem mmcmdDone_misaligned (h : mmDone cmd % 8 ≠ 0) : Goes (.mmcmdDone cmd ok) s (nextCommand s.dev) :=
  goes_run (exec_mmcmdDone cmd ok s) (if_pos (bne_iff_ne.2 h))

theorem mmcmdDone_written {d1 : Dev} (h : mmDone cmd % 8 = 0)
    (hw : physWrite s.mgmt s.dev (mmDone cmd) 8 (if ok then 1 else 2) = .ok d1) : Goes (.mmcmdDone cmd ok) s (nextCommand d1) :=
  goes_run (exec_mmcmdDone cmd ok s) ((if_neg (by simp [h])).trans (by simp only [hw]; rfl))

end

/-! ## The statement -/

section
variable {s : State} {ctx o : Nat} {v : DWord}

/-- A write at a context's block through BAR0 that stores, that stores and offers waiting work again, or that is refused. -/
theorem ctxReg_goes (hc : ctx < 64) (ho : o < 0x400 ∧ o % 8 = 0) :
    exec (.registerWrite .bar0 { off := 0x10000 + 0x400 * ctx + o, bytes := 8 } v) s = .next (writeCtxReg s ctx o v) :=
  (exec_bar0 _ _ v s).trans (congrArg _ (writeBar0_ctxReg hc ho.1 ho.2))

theorem ctxReg_next {t : State} (hc : ctx < 64) (ho : o < 0x400 ∧ o % 8 = 0) (h : writeCtxReg s ctx o v = t) :
    exec (.registerWrite .bar0 { off := 0x10000 + 0x400 * ctx + o, bytes := 8 } v) s = .next t :=
  h ▸ ctxReg_goes hc ho

theorem ctxReg_refused (hc : ctx < 64) (ho : o < 0x400 ∧ o % 8 = 0) (h : writeCtxReg s ctx o v = s.refuse) :
    Goes (.registerWrite .bar0 { off := 0x10000 + 0x400 * ctx + o, bytes := 8 } v) s (countLinkErr s.dev) :=
  ctxReg_next hc ho h

end

/-- Settles O50: each clause is the lemma of its register, or of its command, and outcome. -/
theorem registerWrites : Obligations.RegisterWrites := by
  refine ⟨fun s => ⟨fun ctx n hi v => ⟨fun h => doorbells_early h, fun hs => ?doorbells⟩,
      fun v => goes_run (exec_linkerrWrite v s) rfl,
      fun die v _ => ⟨diecapWrite_taken, diecapWrite_refused⟩,
      fun ctx v hc => ⟨fun h => goes_next (exec_detctlWrite ctx v s) (writeDetctl_reserved h),
        fun hv hw => goes_next (exec_detctlWrite ctx v s) (writeDetctl_busy hv hw),
        fun h hv => goes_next (exec_detctlWrite ctx v s) (writeDetctl_same h hv), detctlWrite_taken hc⟩,
      fun ctx die v _ _ => ⟨fun h => goes_next (exec_partitionWrite ctx die v s) (writePart_refused h),
        fun h => (exec_partitionWrite ctx die v s).trans (congrArg _ (writePart_taken h))⟩,
      fun off bytes v h => goes_next (exec_bar0 off bytes v s) (writeBar0_of_misplaced h),
      fun off bytes v h => goes_next (exec_bar2 off bytes v s) (writeBar2_of_misplaced h),
      fun v => ?bar0, fun ctx v hc hs => ?bar2, fun ctx v hc => ?ctxRegs⟩,
    fun cmd ok s => ⟨xinvLines_of_none, fun d1 => xinv_goes, fun x => xinvTlbs_spec s.mgmt x cmd, fun d1 => harvest_goes,
      fun i d1 => harvestGroup_spec, mmcmdDone_misaligned, fun d1 => mmcmdDone_written⟩⟩
  case doorbells =>
    refine ⟨fun h => ?_, fun h => ?_, triggerWrite_goes hs, fun hhi => ?_, fun hlo => ?_⟩
    · exact (qdoorWrite_goes hs).congr (writeQdoor_of_ahead (tailBad_iff.2 h))
    · exact (qdoorWrite_goes hs).congr (writeQdoor_of_room (tailBad_eq_false_iff.2 h))
    · subst hhi
      have hg := qcfgWrite_goes (ctx := ctx) (n := n) (v := v) (hi := true) hs
      exact ⟨fun h => hg.congr (writeQcfg_hi_refused h), fun hz h4 h16 => ⟨
        fun he ha => hg.congr (writeQcfg_hi_stops hz h4 h16 he (tailBad_iff.2 ha)),
        fun h => hg.congr (writeQcfg_hi_stands hz h4 h16 (h.imp_right tailBad_eq_false_iff.2))⟩⟩
    · subst hlo
      have hg := qcfgWrite_goes (ctx := ctx) (n := n) (v := v) (hi := false) hs
      exact ⟨fun h => hg.congr (writeQcfg_lo_refused h), fun h hv => hg.congr (writeQcfg_lo_disables h hv),
        fun h hv ha => hg.congr (writeQcfg_lo_stops h hv (tailBad_iff.2 ha)),
        fun h hv ha => hg.congr (writeQcfg_lo_pumps h hv (tailBad_eq_false_iff.2 ha))⟩
  case bar0 =>
    refine ⟨(exec_bar0 _ _ v s).trans (congrArg _ writeBar0_linkerr),
      fun die hd => (exec_bar0 _ _ v s).trans (congrArg _ (writeBar0_diecap hd)),
      fun ctx hc => ⟨ctxReg_goes hc (by decide), fun die hd => ?_⟩,
      fun i hi => goes_next (exec_bar0 _ _ v s) (writeBar0_mbdata hi)⟩
    rw [Nat.add_assoc (0x10000 + 0x400 * ctx)]
    exact ctxReg_next hc (by omega) (writeCtxReg_part hd)
  case bar2 =>
    exact ⟨fun n hn => ⟨(exec_bar2 _ _ v s).trans ((congrArg _ (writeBar2_qdoor hs hc hn)).trans (qdoorWrite_goes hs).symm),
        (exec_bar2 _ _ v s).trans ((congrArg _ (writeBar2_qcfg (hi := false) hs hc hn rfl)).trans (qcfgWrite_goes hs).symm),
        (exec_bar2 _ _ v s).trans ((congrArg _ (writeBar2_qcfg hs hc hn (by rw [if_pos rfl]; omega))).trans (qcfgWrite_goes hs).symm)⟩,
      fun n hn => (exec_bar2 _ _ v s).trans ((congrArg _ (writeBar2_trig hs hc hn)).trans (triggerWrite_goes hs).symm)⟩
  case ctxRegs =>
    exact ⟨ctxReg_next hc (by decide) writeNlt_low, ctxReg_next hc (by decide) writeNlt_high,
      ctxReg_next hc (by decide) writePinquota, ctxReg_next hc (by decide) writeSigwin, ctxReg_next hc (by decide) writeTermt,
      fun h41 h1 ht => ⟨fun hv => ctxReg_next hc (by decide) (writePtbase_disables h41 h1 ht hv),
        fun hv => ctxReg_next hc (by decide) (writePtbase_enables h41 h1 ht hv)⟩,
      fun h => ctxReg_next hc (by decide) (writeCtxclass_taken h),
      fun h16 h30 => ctxReg_next hc (by decide) (writeQuantum_taken h16 h30),
      fun h => ctxReg_next hc (by decide) (writeWatchdog_taken h),
      fun hl h5 h10 => ctxReg_next hc (by decide) (writeFaultq_taken (logOk_iff.2 hl) h5 h10),
      fun hl h5 => ctxReg_next hc (by decide) (writeRing_taken (logOk_iff.2 hl) h5),
      fun h => ctxReg_next hc (by decide) (writeReeltab_taken h),
      fun h => ctxReg_refused hc (by decide) (writePtbase_refused h),
      fun h => ctxReg_refused hc (by decide) (writeCtxclass_refused h),
      fun h => ctxReg_refused hc (by decide) (writeQuantum_refused h),
      fun h => ctxReg_refused hc (by decide) (writeWatchdog_refused h),
      fun h => ctxReg_refused hc (by decide) (writeFaultq_refused (h.imp_left logOk_eq_false_iff.2)),
      fun h => ctxReg_refused hc (by decide) (writeRing_refused (h.imp_left logOk_eq_false_iff.2)),
      fun h => ctxReg_refused hc (by decide) (writeReeltab_refused h)⟩

end Sys2Proof.Machine
end

section
/-!
PROOFS. The management registers stay legal (R35, R42, R49, R184, R328, R329, R445, R457): which steps write them, that a write of one
context keeps them legal when that context's registers fit the others', that each register write stores only values that fit, and that
they are legal after a reset.
-/

namespace Sys2Proof.Machine

/-! ## One context's registers among the others' -/

/-- What legal registers are, said of one context: its own values are legal, its address space and its exclusive spindles are no other
context's, and it permits some spindle. -/
structure Fits (m : Mgmt) (c : Nat) : Prop where
  own : CtxLegal (ctxOf m c)
  space : ctxEnabled m c = true → ∀ b, b < 64 → b ≠ c → ctxEnabled m b = true → ctxAsid m b ≠ ctxAsid m c
  spindle : ∃ die i, die < 16 ∧ i < 48 ∧ partBit m c die i = true
  alone : exclusive m c = true → ∀ b, b < 64 → b ≠ c → exclusive m b = true →
    ∀ die i, die < 16 → i < 48 → ¬ (partBit m c die i = true ∧ partBit m b die i = true)

theorem mgmtLegal_iff {m : Mgmt} : MgmtLegal m ↔ ∀ c, c < 64 → Fits m c where
  mp h c hc :=
    { own := h.own c hc
      space := fun he b hb hn hbe => h.spaces b c hb hc hn hbe he
      spindle := h.spindles c hc
      alone := fun he b hb hn hbe => h.apart c b hc hb hn.symm he hbe }
  mpr h :=
    { own := fun c hc => (h c hc).own
      spaces := fun a b ha hb hn hae hbe => (h b hb).space hbe a ha hn hae
      spindles := fun c hc => (h c hc).spindle
      apart := fun a b ha hb hn hae hbe => (h a ha).alone hae b hb hn.symm hbe }

/-! ## Registers of a context written -/

/-- There are no registers of a context from 64 on. -/
theorem setCtx_of_le {c : Nat} (m : Mgmt) (x : Ctx) (hc : 64 ≤ c) : setCtx m c x = m := by
  rw [setCtx, Vector.setIfInBounds_eq_of_size_le hc]

section
variable {m : Mgmt} {c b : Nat} {x : Ctx}

theorem ctxOf_setCtx_same (hc : c < 64) : ctxOf (setCtx m c x) c = x := by rw [ctxOf_setCtx m c c x hc, if_pos rfl]

theorem ctxOf_setCtx_ne (hb : b ≠ c) : ctxOf (setCtx m c x) b = ctxOf m b := by
  obtain hc | hc := Nat.lt_or_ge c 64
  · rw [ctxOf_setCtx m c b x hc, if_neg hb]
  · rw [setCtx_of_le m x hc]

/-- Another context's registers are as they were. -/
theorem ctxEnabled_setCtx_ne (hb : b ≠ c) : ctxEnabled (setCtx m c x) b = ctxEnabled m b := by rw [ctxEnabled, ctxOf_setCtx_ne hb]; rfl
theorem ctxAsid_setCtx_ne (hb : b ≠ c) : ctxAsid (setCtx m c x) b = ctxAsid m b := by rw [ctxAsid, ctxOf_setCtx_ne hb]; rfl
theorem exclusive_setCtx_ne (hb : b ≠ c) : exclusive (setCtx m c x) b = exclusive m b := by rw [exclusive, ctxOf_setCtx_ne hb]; rfl
theorem partBit_setCtx_ne (hb : b ≠ c) (die i : Nat) : partBit (setCtx m c x) b die i = partBit m b die i := by
  rw [partBit, ctxOf_setCtx_ne hb]; rfl

/-- Legal registers stay legal where one context's are written so that it fits the others'. -/
theorem MgmtLegal.setCtx (h : MgmtLegal m) (hf : c < 64 → Fits (setCtx m c x) c) : MgmtLegal (setCtx m c x) := by
  obtain hc | hc := Nat.lt_or_ge c 64
  · have hw := hf hc
    refine mgmtLegal_iff.2 fun a ha => ?_
    obtain rfl | hac := eq_or_ne a c
    · exact hw
    have ho := mgmtLegal_iff.1 h a ha
    refine ⟨?own, fun hae b hb hba hbe => ?space, ?spindle, fun hae b hb hba hbe die i hd hi => ?alone⟩
    case own => rw [ctxOf_setCtx_ne hac]; exact ho.own
    case space =>
      obtain rfl | hbc := eq_or_ne b c
      · exact (hw.space hbe a ha hac hae).symm
      · rw [ctxEnabled_setCtx_ne hac] at hae
        rw [ctxEnabled_setCtx_ne hbc] at hbe
        rw [ctxAsid_setCtx_ne hac, ctxAsid_setCtx_ne hbc]
        exact ho.space hae b hb hba hbe
    case spindle => simp only [partBit_setCtx_ne hac]; exact ho.spindle
    case alone =>
      obtain rfl | hbc := eq_or_ne b c
      · exact fun hp => hw.alone hbe a ha hac hae die i hd hi hp.symm
      · rw [exclusive_setCtx_ne hac] at hae
        rw [exclusive_setCtx_ne hbc] at hbe
        rw [partBit_setCtx_ne hac, partBit_setCtx_ne hbc]
        exact ho.alone hae b hb hba hbe die i hd hi
  · rwa [setCtx_of_le m x hc]

/-- A context whose PTBASE is kept has its address space to itself as before. -/
theorem Fits.space_of_ptbase (h : Fits m c) (hc : c < 64) (hp : x.ptbase = (ctxOf m c).ptbase) :
    ctxEnabled (setCtx m c x) c = true → ∀ b, b < 64 → b ≠ c → ctxEnabled (setCtx m c x) b = true →
      ctxAsid (setCtx m c x) b ≠ ctxAsid (setCtx m c x) c := by
  have he : ctxEnabled (setCtx m c x) c = ctxEnabled m c := by rw [ctxEnabled, ctxOf_setCtx_same hc, hp]; rfl
  have ha : ctxAsid (setCtx m c x) c = ctxAsid m c := by rw [ctxAsid, ctxOf_setCtx_same hc, hp]; rfl
  intro hce b hb hbc hbe
  rw [he] at hce
  rw [ctxEnabled_setCtx_ne hbc] at hbe
  rw [ctxAsid_setCtx_ne hbc, ha]
  exact h.space hce b hb hbc hbe

/-- A context that keeps its partition fits when its own values are legal and its address space is no other context's. -/
theorem Fits.setCtx_of_part (h : Fits m c) (hc : c < 64) (hp : x.part = (ctxOf m c).part) (hx : CtxLegal x)
    (hs : ctxEnabled (setCtx m c x) c = true → ∀ b, b < 64 → b ≠ c → ctxEnabled (setCtx m c x) b = true →
      ctxAsid (setCtx m c x) b ≠ ctxAsid (setCtx m c x) c) : Fits (setCtx m c x) c := by
  have he : exclusive (setCtx m c x) c = exclusive m c := by rw [exclusive, ctxOf_setCtx_same hc, hp]; rfl
  have hb : ∀ die i, partBit (setCtx m c x) c die i = partBit m c die i := fun die i => by
    rw [partBit, ctxOf_setCtx_same hc, hp]; rfl
  refine ⟨by rwa [ctxOf_setCtx_same hc], hs, ?spindle, fun hce a ha hac hae die i hd hi => ?alone⟩
  case spindle => simp only [hb]; exact h.spindle
  case alone =>
    rw [he] at hce
    rw [exclusive_setCtx_ne hac] at hae
    rw [hb, partBit_setCtx_ne hac]
    exact h.alone hce a ha hac hae die i hd hi

end

/-! ## Registers that concern their own context alone -/

/-- A change of a context's registers that keeps them legal, PTBASE and the partition as they are. -/
structure KeepsLegal (f : Ctx → Ctx) : Prop where
  own : ∀ c, CtxLegal c → CtxLegal (f c)
  ptbase : ∀ c, (f c).ptbase = c.ptbase
  part : ∀ c, (f c).part = c.part

section
variable {s : State} {ctx : Nat} {v : DWord}

theorem legal_withCtx {f : Ctx → Ctx} (h : MgmtLegal s.mgmt) (hf : KeepsLegal f) : MgmtLegal (s.withCtx ctx f).mgmt :=
  h.setCtx fun hc =>
    have hfit := mgmtLegal_iff.1 h ctx hc
    hfit.setCtx_of_part hc (hf.part _) (hf.own _ hfit.own) (hfit.space_of_ptbase hc (hf.ptbase _))

theorem legal_writeIf {ok : Bool} {f : Ctx → Ctx} (h : MgmtLegal s.mgmt) (hf : ok = true → KeepsLegal f) :
    MgmtLegal (writeIf s ctx ok f).mgmt := by
  cases hok : ok
  · rw [writeIf_refused rfl]; exact h
  · rw [writeIf_taken rfl]; exact legal_withCtx h (hf hok)

theorem keepsLegal_ctxclass (hv : v.toNat < 4) : KeepsLegal fun c => { c with ctxclass := v } :=
  ⟨fun _ hc => { hc with ctxclass := hv }, fun _ => rfl, fun _ => rfl⟩
theorem keepsLegal_quantum (hv : 16 ≤ v.toNat ∧ v.toNat ≤ 30) : KeepsLegal fun c => { c with quantum := v } :=
  ⟨fun _ hc => { hc with quantum := hv }, fun _ => rfl, fun _ => rfl⟩
theorem keepsLegal_nlt (f : BitVec 128 → BitVec 128) : KeepsLegal fun c => { c with nlt := f c.nlt } :=
  ⟨fun _ hc => { hc with }, fun _ => rfl, fun _ => rfl⟩
theorem keepsLegal_pinquota (v : DWord) : KeepsLegal fun c => { c with pinquota := v } :=
  ⟨fun _ hc => { hc with }, fun _ => rfl, fun _ => rfl⟩
theorem keepsLegal_watchdog (hv : v.toNat < 2 ^ 32) : KeepsLegal fun c => { c with watchdog := v } :=
  ⟨fun _ hc => { hc with watchdog := hv }, fun _ => rfl, fun _ => rfl⟩
theorem keepsLegal_sigwin (v : DWord) : KeepsLegal fun c => { c with sigwin := v } :=
  ⟨fun _ hc => { hc with }, fun _ => rfl, fun _ => rfl⟩
theorem keepsLegal_termt (v : DWord) : KeepsLegal fun c => { c with termt := v } :=
  ⟨fun _ hc => { hc with }, fun _ => rfl, fun _ => rfl⟩
theorem keepsLegal_faultq (hl : logOk v = true) (h5 : bitsOf v 5 5 = 0) (h10 : bitsOf v 10 2 ≠ 3) :
    KeepsLegal fun c => { c with faultq := v } :=
  ⟨fun _ hc => { hc with faultq := ⟨logOk_iff.1 hl, h5, h10⟩ }, fun _ => rfl, fun _ => rfl⟩
theorem keepsLegal_ring (hl : logOk v = true) (h5 : bitsOf v 5 7 = 0) : KeepsLegal fun c => { c with ring := v } :=
  ⟨fun _ hc => { hc with ring := ⟨logOk_iff.1 hl, h5⟩ }, fun _ => rfl, fun _ => rfl⟩
theorem keepsLegal_detctl (hv : v.toNat < 2) : KeepsLegal fun c => { c with detctl := v } :=
  ⟨fun _ hc => { hc with detctl := hv }, fun _ => rfl, fun _ => rfl⟩
theorem keepsLegal_reeltab (hv : bitsOf v 0 22 = 0) : KeepsLegal fun c => { c with reeltab := v } :=
  ⟨fun _ hc => { hc with reeltab := hv }, fun _ => rfl, fun _ => rfl⟩

/-- What a register of a vector holds after one of them was written. -/
theorem eq_or_of_setIfInBounds {α : Type} {k n i : Nat} {xs : Vector α k} {a x : α} (h : (xs.setIfInBounds n a)[i]? = some x) :
    (n = i ∧ a = x) ∨ xs[i]? = some x := by
  rw [Vector.getElem?_setIfInBounds] at h
  split at h
  next hi =>
    split at h
    · exact .inl ⟨hi, Option.some.inj h⟩
    · cases h
  next => exact .inr h

theorem keepsLegal_spoolcfg {n : Nat} (h5 : bitsOf v 5 7 = 0) (h4 : 4 ≤ bitsOf v 0 5) (h20 : bitsOf v 0 5 ≤ 20) :
    KeepsLegal fun c => { c with spoolcfg := c.spoolcfg.setIfInBounds n v } := by
  refine ⟨fun c hc => { hc with spoolcfg := fun i x hx => ?_ }, fun _ => rfl, fun _ => rfl⟩
  obtain ⟨-, rfl⟩ | hx := eq_or_of_setIfInBounds hx
  · exact .inr ⟨h5, h4, h20⟩
  · exact hc.spoolcfg i x hx

theorem legal_writeDetctl (h : MgmtLegal s.mgmt) : MgmtLegal (writeDetctl s ctx v).mgmt := by
  by_cases hr : bitsOf v 1 63 = 0
  · by_cases hv : v = (ctxOf s.mgmt ctx).detctl
    · rwa [writeDetctl_same hr hv]
    · cases hw : hasWorkIn s.dev ctx
      · rw [writeDetctl_idle hr hv hw]
        exact legal_withCtx h (keepsLegal_detctl ((bitsOf_top 1 (by decide)).1 hr))
      · rw [writeDetctl_busy hv hw]; exact h
  · rw [writeDetctl_reserved hr]; exact h

/-! ## PTBASE (R184) -/

theorem spaceTaken_eq_false {m : Mgmt} (h : spaceTaken m ctx v = false) (hv : v.getLsbD 0 = true) :
    ∀ b, b < 64 → b ≠ ctx → ctxEnabled m b = true → ctxAsid m b ≠ bitsOf v 48 16 := by
  simp only [spaceTaken, hv, Bool.true_and, List.any_eq_false, List.mem_range, Bool.and_eq_true, bne_iff_ne, beq_iff_eq] at h
  exact fun b hb hn he ha => h b hb ⟨⟨hn, he⟩, ha⟩

/-- A context whose PTBASE is written fits when the value's zero bits are zero and its address space is not taken. -/
theorem Fits.setCtx_ptbase {m : Mgmt} (h : Fits m ctx) (hc : ctx < 64) (h41 : bitsOf v 41 7 = 0) (h1 : bitsOf v 1 11 = 0)
    (ht : spaceTaken m ctx v = false) : Fits (setCtx m ctx { ctxOf m ctx with ptbase := v }) ctx := by
  refine h.setCtx_of_part hc rfl { h.own with ptbase := ⟨h1, h41⟩ } fun hce b hb hbc hbe => ?_
  rw [ctxEnabled, ctxOf_setCtx_same hc] at hce
  rw [ctxEnabled_setCtx_ne hbc] at hbe
  rw [ctxAsid_setCtx_ne hbc, ctxAsid, ctxAsid, ctxOf_setCtx_same hc]
  exact spaceTaken_eq_false ht hce b hb hbc hbe

theorem legal_writePtbase (h : MgmtLegal s.mgmt) : MgmtLegal (writePtbase s ctx v).mgmt := by
  by_cases hr : bitsOf v 41 7 ≠ 0 ∨ bitsOf v 1 11 ≠ 0 ∨ spaceTaken s.mgmt ctx v = true
  · rw [writePtbase_refused hr]; exact h
  · obtain ⟨h41, h1, ht⟩ : bitsOf v 41 7 = 0 ∧ bitsOf v 1 11 = 0 ∧ spaceTaken s.mgmt ctx v = false := by simpa using hr
    have hw : MgmtLegal (s.withCtx ctx fun c => { c with ptbase := v }).mgmt :=
      h.setCtx fun hc => (mgmtLegal_iff.1 h ctx hc).setCtx_ptbase hc h41 h1 ht
    rw [writePtbase_taken h41 h1 ht]
    dsimp only
    split <;> exact hw

/-! ## The partition (R49) -/

theorem permitsAny_iff {m : Mgmt} : permitsAny m ctx = true ↔ ∃ die i, die < 16 ∧ i < 48 ∧ partBit m ctx die i = true := by
  simp [permitsAny, permitsOn]

theorem shareSpindle_iff {m : Mgmt} {a b : Nat} : shareSpindle m a b = true ↔
    ∃ die i, die < 16 ∧ i < 48 ∧ partBit m a die i = true ∧ partBit m b die i = true := by
  simp [shareSpindle]

/-- What a partition that is not refused is: its zero bits are zero, it permits some spindle, and if it is exclusive it has none in
common with another exclusive one. -/
theorem partitionBad_eq_false {m : Mgmt} {d : Dev} {die : Nat} (h : partitionBad m d ctx die v = false) :
    (bitsOf v 48 15 = 0 ∧ (die ≠ 0 → v.getLsbD 63 = false)) ∧ permitsAny m ctx = true ∧
    (exclusive m ctx = true → ∀ b, b < 64 → b ≠ ctx → exclusive m b = true → shareSpindle m ctx b = false) := by
  simp only [partitionBad, Bool.or_eq_false_iff, Bool.not_eq_false'] at h
  obtain ⟨⟨⟨⟨⟨hz, hx⟩, hclash⟩, hany⟩, -⟩, -⟩ := h
  exact ⟨⟨clearAt_iff.1 hz, fun hd => by simpa [hd] using hx⟩, hany, fun he => by simpa [he] using hclash⟩

/-- A context whose partition is written fits when the partition is not refused. -/
theorem Fits.setCtx_part {m : Mgmt} {d : Dev} {die : Nat} (h : Fits m ctx) (hc : ctx < 64)
    (hb : partitionBad (withPart m ctx die v) d ctx die v = false) : Fits (withPart m ctx die v) ctx := by
  obtain ⟨hv, hany, hclash⟩ := partitionBad_eq_false hb
  refine ⟨?own, h.space_of_ptbase hc rfl, permitsAny_iff.1 hany, fun he b hb hbc hbe die i hd hi hp => ?alone⟩
  case own =>
    rw [withPart, ctxOf_setCtx_same hc]
    refine { h.own with part := fun i x hx => ?_ }
    obtain ⟨rfl, rfl⟩ | hx := eq_or_of_setIfInBounds hx
    · exact hv
    · exact h.own.part i x hx
  case alone =>
    exact Bool.eq_false_iff.1 (hclash he b hb hbc hbe) (shareSpindle_iff.2 ⟨die, i, hd, hi, hp⟩)

theorem legal_writePart {die : Nat} (h : MgmtLegal s.mgmt) : MgmtLegal (writePart s ctx die v).mgmt := by
  cases hb : partitionBad (withPart s.mgmt ctx die v) s.dev ctx die v
  · rw [writePart_taken hb]
    exact h.setCtx fun hc => (mgmtLegal_iff.1 h ctx hc).setCtx_part hc hb
  · rw [writePart_refused hb]; exact h

/-! ## The windows of the host (R327, R328) -/

@[simp] theorem retry_mgmt (s : State) : s.retry.mgmt = s.mgmt := by simp only [State.retry]

/-- A write in a context's block, register by register. -/
theorem legal_writeCtxReg {off : Nat} (h : MgmtLegal s.mgmt) : MgmtLegal (writeCtxReg s ctx off v).mgmt := by
  unfold writeCtxReg
  split
  case h_1 => exact legal_writePtbase h
  case h_2 =>
    split
    next hv => rw [retry_mgmt]; exact legal_withCtx h (keepsLegal_ctxclass ((bitsOf_top 2 (by decide)).1 (clearAt_iff.1 hv)))
    next => exact h
  case h_3 => exact legal_writeIf h fun hok => keepsLegal_quantum (by simpa using hok)
  case h_4 => exact legal_withCtx h (keepsLegal_nlt fun x => x.extractLsb' 64 64 ++ v)
  case h_5 => exact legal_withCtx h (keepsLegal_nlt fun x => v ++ x.extractLsb' 0 64)
  case h_6 => exact legal_withCtx h (keepsLegal_pinquota v)
  case h_7 => exact legal_writeIf h fun hok => keepsLegal_watchdog ((bitsOf_top 32 (by decide)).1 (clearAt_iff.1 hok))
  case h_8 => exact legal_withCtx h (keepsLegal_sigwin v)
  case h_9 => exact legal_withCtx h (keepsLegal_termt v)
  case h_10 =>
    refine legal_writeIf h fun hok => ?_
    obtain ⟨⟨hl, h5⟩, h10⟩ : (logOk v = true ∧ clearAt v 5 5 = true) ∧ bitsOf v 10 2 ≠ 3 := by simpa using hok
    exact keepsLegal_faultq hl (clearAt_iff.1 h5) h10
  case h_11 =>
    refine legal_writeIf h fun hok => ?_
    obtain ⟨hl, h5⟩ := (Bool.and_eq_true ..).mp hok
    exact keepsLegal_ring hl (clearAt_iff.1 h5)
  case h_12 => exact legal_writeDetctl h
  case h_13 => exact legal_writeIf h fun hok => keepsLegal_reeltab (clearAt_iff.1 hok)
  case h_14 =>
    split
    · exact legal_writePart h
    · exact h

theorem legal_writeSpoolcfg {n : Nat} (h : MgmtLegal s.mgmt) : MgmtLegal (writeSpoolcfg s ctx n v).mgmt := by
  refine legal_writeIf h fun hok => ?_
  obtain ⟨⟨h5, h4⟩, h20⟩ : (clearAt v 5 7 = true ∧ 4 ≤ bitsOf v 0 5) ∧ bitsOf v 0 5 ≤ 20 := by simpa using hok
  exact keepsLegal_spoolcfg (clearAt_iff.1 h5) h4 h20

/-- Of BAR0 the contexts' blocks alone hold registers of a context. -/
theorem legal_writeBar0 {off bytes : Nat} (h : MgmtLegal s.mgmt) : MgmtLegal (writeBar0 s off bytes v).mgmt := by
  unfold writeBar0
  dsimp only
  split_ifs
  · exact h
  · exact h
  · exact h
  · exact h
  · exact h
  · exact h
  · exact legal_writeCtxReg h
  · exact h

/-- Of BAR2 SPOOLCFG alone is a register of a context that writes change. -/
theorem legal_writeBar2 {off bytes : Nat} (h : MgmtLegal s.mgmt) : MgmtLegal (writeBar2 s off bytes v).mgmt := by
  unfold writeBar2
  dsimp only
  split_ifs
  · exact h
  · exact h
  · exact h
  · exact h
  · exact h
  · exact legal_writeSpoolcfg h
  · exact h

end

/-! ## Reset -/

@[simp] theorem ctxOf_resetMgmt (c : Nat) : ctxOf resetMgmt c = resetCtx := by
  rw [ctxOf, resetMgmt, Vector.getElem?_replicate]
  split <;> rfl

/-- Every partition register permits the 48 spindles of its die. -/
theorem partBit_resetMgmt (c : Nat) {die i : Nat} (hd : die < 16) (hi : i < 48) : partBit resetMgmt c die i = true := by
  have hall : ∀ i < 48, (0x0000FFFFFFFFFFFF : DWord).getLsbD i = true := by decide
  simpa [partBit, resetCtx, hd] using hall i hi

theorem ctxEnabled_resetMgmt (c : Nat) : ctxEnabled resetMgmt c = false := by rw [ctxEnabled, ctxOf_resetMgmt]; rfl
theorem exclusive_resetMgmt (c : Nat) : exclusive resetMgmt c = false := by rw [exclusive, ctxOf_resetMgmt]; rfl

theorem ctxLegal_resetCtx : CtxLegal resetCtx where
  ptbase := by decide
  ctxclass := by decide
  quantum := by decide
  watchdog := by decide
  faultq := by decide
  ring := by decide
  detctl := by decide
  reeltab := by decide
  part die x hx := by
    obtain ⟨-, rfl⟩ : die < 16 ∧ (0x0000FFFFFFFFFFFF : DWord) = x := by simpa [resetCtx, Vector.getElem?_replicate] using hx
    exact ⟨by decide, fun _ => by decide⟩
  spoolcfg n x hx := by
    obtain ⟨-, rfl⟩ : n < 4 ∧ (0 : DWord) = x := by simpa [resetCtx, Vector.getElem?_replicate] using hx
    exact .inl rfl

theorem mgmtLegal_resetMgmt : MgmtLegal resetMgmt :=
  mgmtLegal_iff.2 fun c _ =>
    { own := (ctxOf_resetMgmt c).symm ▸ ctxLegal_resetCtx
      space := fun he => absurd he (Bool.eq_false_iff.1 (ctxEnabled_resetMgmt c))
      spindle := ⟨0, 0, by decide, by decide, partBit_resetMgmt c (by decide) (by decide)⟩
      alone := fun he => absurd he (Bool.eq_false_iff.1 (exclusive_resetMgmt c)) }

/-! ## Every step -/

/-- The steps that write management registers: the host's register writes (R49, R328, R329) and a reset (R325, R475). -/
def writesMgmt : Instr → Bool
  | .registerWrite .. | .detctlWrite .. | .partitionWrite .. | .reset | .criticalTemperature _ => true
  | _ => false

/-- Every other step answers a next state, and leaves the management registers as they were. -/
theorem goes_of_not_writesMgmt {i : Instr} (h : writesMgmt i = false) (s : State) : ∃ d, Goes i s d := by
  cases i
  case registerWrite | detctlWrite | partitionWrite | reset | criticalTemperature => cases h
  all_goals exact ⟨_, rfl⟩

theorem legal_exec {i : Instr} {s t : State} (h : MgmtLegal s.mgmt) (he : exec i s = .next t) : MgmtLegal t.mgmt := by
  cases hw : writesMgmt i
  · obtain ⟨d, hd⟩ := goes_of_not_writesMgmt hw s
    cases hd.symm.trans he
    exact h
  · unfold writesMgmt at hw
    split at hw
    case h_1 bar p v =>
      cases bar
      · cases (exec_bar0 p.off p.bytes v s).symm.trans he; exact legal_writeBar0 h
      · cases (exec_bar2 p.off p.bytes v s).symm.trans he; exact legal_writeBar2 h
    case h_2 ctx v => cases (exec_detctlWrite ctx v s).symm.trans he; exact legal_writeDetctl h
    case h_3 ctx die v => cases (exec_partitionWrite ctx die v s).symm.trans he; exact legal_writePart h
    case h_4 | h_5 => cases he; exact mgmtLegal_resetMgmt
    case h_6 => cases hw

/-- A step of the machine keeps the management registers, or is one event's or instruction's, on some device. -/
theorem step_cases {s t : State} (h : step s = .next t) : t.mgmt = s.mgmt ∨ ∃ i d, exec i (s.dev' d) = .next t := by
  unfold step at h
  split at h
  case h_1 e d _ =>
    split at h
    · cases h
    · exact .inr ⟨e, d, h⟩
  case h_2 i d _ => exact .inr ⟨i, d, h⟩
  case h_3 d _ => cases h; exact .inl rfl

/-- Settles O57: the step keeps the registers, or is one instruction's or event's, which keeps them legal. -/
theorem legalRegistersKept : Obligations.LegalRegistersKept := by
  intro s t hstep hlegal
  obtain hm | ⟨i, d, he⟩ := step_cases hstep
  · rwa [hm]
  · exact legal_exec (s := s.dev' d) hlegal he

/-- Settles O58: every register of a context has its value at reset, and the device is the one after reset. -/
theorem resetState : Obligations.ResetState := by
  refine ⟨mgmtLegal_resetMgmt, wf_reset, rfl, rfl, rfl, rfl, rfl, rfl, rfl, rfl, fun c _ => ?_⟩
  have hctx : ctxOf State.reset.mgmt c = resetCtx := ctxOf_resetMgmt c
  rw [hctx, isDet, hctx]
  exact ⟨ctxEnabled_resetMgmt c, rfl, rfl, rfl, rfl, rfl, exclusive_resetMgmt c, fun die i => partBit_resetMgmt c⟩

end Sys2Proof.Machine
end

section
/-!
PROOFS. Egress streams (R40, R389 to R392): what a due frame, a deadline and an emission come to, one lemma per event and outcome.
-/

namespace Sys2Proof.Machine

/-! ## The rows of the events -/

theorem exec_frameDue (die n : Nat) (s : State) : exec (.frameDue die n) s = execFrameDue die n s := rfl
theorem exec_frameDeadline (die n : Nat) (s : State) : exec (.frameDeadline die n) s = execFrameDeadline die n s := rfl
theorem exec_tileRowEmit (die n : Nat) (s : State) : exec (.tileRowEmit die n) s = execTileRowEmit die n s := rfl

section
variable {s : State} {die n : Nat}

/-- A stream that is not there has no events. -/
theorem streamEvents_of_none (h : stream? s.dev die n = none) :
    Goes (.frameDue die n) s s.dev ∧ Goes (.frameDeadline die n) s s.dev ∧ Goes (.tileRowEmit die n) s s.dev :=
  ⟨goes_run (exec_frameDue die n s) (by simp only [h]), goes_run (exec_frameDeadline die n s) (by simp only [h]),
    goes_run (exec_tileRowEmit die n s) (by simp only [h])⟩

variable {x : Stream} (hx : stream? s.dev die n = some x)
include hx

/-! ## Frames due (R40, R390) -/

/-- The device with the stream's next frame due. -/
def dueAgain (d : Dev) (die n : Nat) (x : Stream) : Dev :=
  postAfter d (.die die) (dueAfter x.record x.started (cyclesOf d die)) (.frameDue die n)

/-- The queue's frame is due already. -/
theorem frameDue_of_framed (hf : framed s.dev x.ctx (srQueue x.record) = true) :
    Goes (.frameDue die n) s (dueAgain s.dev die n x) :=
  goes_run (exec_frameDue die n s) (by simp only [hx]; exact if_pos hf)

/-- The launch at the queue's head has class 0 from now on. -/
theorem frameDue_of_not_framed (hf : framed s.dev x.ctx (srQueue x.record) = false) :
    Goes (.frameDue die n) s (retryDispatch s.mgmt { dueAgain s.dev die n x with
      frameDue := (dueAgain s.dev die n x).frameDue ++
        [(x.ctx, srQueue x.record, ((launchesOf s.dev (.queue x.ctx (srQueue x.record))).head?).map fun l => l.id)] }) :=
  goes_run (exec_frameDue die n s) (by simp only [hx]; exact if_neg (Bool.eq_false_iff.1 hf))

/-! ## Deadlines (R390) -/

/-- The device with the stream's next deadline due. -/
def deadlineAgain (d : Dev) (die n : Nat) (x : Stream) : Dev :=
  postAfter d (.die die) (frameLen x.record) (.frameDeadline die n)

theorem frameDeadline_of_stopping (hs : x.stopping = true) : Goes (.frameDeadline die n) s s.dev :=
  goes_run (exec_frameDeadline die n s) (by simp only [hx]; exact if_pos hs)

/-- The oldest queued surface begins to be emitted. -/
theorem frameDeadline_of_queued {p : DWord} {r : List DWord} (hs : x.stopping = false) (he : x.emitting = none)
    (hq : x.queue = p :: r) :
    Goes (.frameDeadline die n) s (postNew (roomFree (setStream (deadlineAgain s.dev die n x) die n { x with
      frame := x.frame + 1
      emitting := some { desc := p, row := 0, col := 0, opened := false }
      began := cyclesOf s.dev die
      queue := r }) die n) (.tileRowEmit die n)) :=
  goes_run (exec_frameDeadline die n s) (by
    simp only [hx]; exact (if_neg (Bool.eq_false_iff.1 hs)).trans (by simp only [he, hq]; rfl))

/-- With a frame still being emitted, or no surface queued, the frame is missed and its record owed. -/
theorem frameDeadline_of_missed (hs : x.stopping = false) (hm : x.emitting ≠ none ∨ x.queue = []) :
    Goes (.frameDeadline die n) s (postNew (setStream (deadlineAgain s.dev die n x) die n { x with
      frame := x.frame + 1
      missed := x.missed + 1
      owed := x.owed + 1 }) (.tileRowEmit die n)) :=
  goes_run (exec_frameDeadline die n s) (by
    simp only [hx]
    refine (if_neg (Bool.eq_false_iff.1 hs)).trans ?_
    split
    next he hq => simp [he, hq] at hm
    next => rfl)

/-! ## Emissions (R391, R392) -/

theorem tileRowEmit_of_emitted {d1 : Dev} (h0 : nextEmit s.dev die x = some 0) (he : emitNext s.mgmt s.dev die n x = .ok d1) :
    Goes (.tileRowEmit die n) s (afterEmit s.mgmt d1 die n) :=
  goes_run (exec_tileRowEmit die n s) (by simp only [hx, h0, he])

/-- An emission that finds the ring full is tried again a cycle later (notes/assumptions/32). -/
theorem tileRowEmit_of_full (h0 : nextEmit s.dev die x = some 0) (he : emitNext s.mgmt s.dev die n x = .full) :
    Goes (.tileRowEmit die n) s (postAfter s.dev (.die die) 1 (.tileRowEmit die n)) :=
  goes_run (exec_tileRowEmit die n s) (by simp only [hx, h0, he])

/-- With nothing due at once nothing is emitted: `h0` leaves the event's match its last branch. -/
theorem tileRowEmit_of_not_due (h0 : nextEmit s.dev die x ≠ some 0) :
    Goes (.tileRowEmit die n) s (afterEmit s.mgmt s.dev die n) :=
  goes_run (exec_tileRowEmit die n s) (by simp only [hx])

end

/-! ## The statement -/

/-- Settles O53: each clause is the lemma of its event and outcome. -/
theorem egressSteps : Obligations.EgressSteps := by
  intro die n s
  exact ⟨streamEvents_of_none, fun x hx => ⟨frameDue_of_framed hx, frameDue_of_not_framed hx, frameDeadline_of_stopping hx,
    fun p r => frameDeadline_of_queued hx, frameDeadline_of_missed hx, fun d1 => tileRowEmit_of_emitted hx,
    tileRowEmit_of_full hx, tileRowEmit_of_not_due hx⟩⟩

end Sys2Proof.Machine
end

section
/-!
PROOFS. The fields of words (R57 to R67), the rows of the opcode maps (R72, R73) and bytes (R2): encoding an instruction and decoding it
undo each other.
-/

namespace Sys2Proof

/-! ## Fields of a word, read and placed -/

theorem flag_eq_field (w : Word) (i : Nat) : flag w i = (field w i 1).getLsbD 0 := by
  simp [flag, field]

@[simp] theorem field_or (x y : Word) (lo n : Nat) : field (x ||| y) lo n = field x lo n ||| field y lo n := by
  ext i hi
  simp [field]

/-- A field reads what was placed in it, and nothing of what was placed outside. -/
theorem field_put_same {n lo : Nat} (b : BitVec n) (h : lo + n ≤ 32) : field (put b lo) lo n = b := by
  ext i hi
  have hlt : lo + i < 32 := by omega
  simp [field, put, hlt, BitVec.getLsbD_eq_getElem hi]

theorem field_put_of_disjoint {m lo lo' n : Nat} (b : BitVec m) (h : lo + n ≤ lo' ∨ lo' + m ≤ lo) : field (put b lo') lo n = 0 := by
  ext i hi
  simp only [field, put, BitVec.getElem_extractLsb', BitVec.getLsbD_shiftLeft, BitVec.getLsbD_setWidth]
  obtain h | h := h
  · simp [show lo + i < lo' by omega]
  · simp [BitVec.getLsbD_of_ge b (lo + i - lo') (by omega)]

theorem getLsbD_put_field (w : Word) (lo n i : Nat) :
    (put (field w lo n) lo).getLsbD i = (decide (lo ≤ i) && decide (i < lo + n) && w.getLsbD i) := by
  by_cases hi : i < 32
  · by_cases hlo : lo ≤ i
    · simp [put, field, hi, hlo, show ¬ i < lo by omega, show lo + (i - lo) = i by omega,
        show i - lo < n ↔ i < lo + n by omega]
    · simp [put, hlo, show i < lo by omega]
  · simp [BitVec.getLsbD_of_ge w i (by omega), BitVec.getLsbD_of_ge _ i (show 32 ≤ i by omega)]

/-- Two neighbouring fields in their places are the field they make together. -/
theorem put_field_or {w : Word} {hi lo m n : Nat} (h : hi = lo + m) :
    put (field w hi n) hi ||| put (field w lo m) lo = put (field w lo (m + n)) lo := by
  subst h
  refine BitVec.eq_of_getLsbD_eq fun i _ => ?_
  simp only [BitVec.getLsbD_or, getLsbD_put_field]
  rcases Nat.lt_or_ge i lo with h1 | h1
  · simp [show ¬ lo + m ≤ i by omega, show ¬ lo ≤ i by omega]
  · rcases Nat.lt_or_ge i (lo + m) with h2 | h2
    · simp [show ¬ lo + m ≤ i by omega, h1, h2, show i < lo + (m + n) by omega]
    · simp [h1, h2, show ¬ i < lo + m by omega, show i < lo + m + n ↔ i < lo + (m + n) by omega]

theorem put_field_all (w : Word) : put (field w 0 32) 0 = w := by
  refine BitVec.eq_of_getLsbD_eq fun i hi => ?_
  simp [-BitVec.getLsbD_eq_getElem, getLsbD_put_field, hi]

theorem ofBool_flag (w : Word) (i : Nat) : BitVec.ofBool (flag w i) = field w i 1 := by
  ext j hj
  obtain rfl : j = 0 := by omega
  simp [flag_eq_field]

theorem putBit_flag (w : Word) (i : Nat) : putBit (flag w i) i = put (field w i 1) i := by
  rw [putBit, ofBool_flag]

/-! ## Extension words and bodies -/

theorem xmWord_xmOf (e : Word) : xmWord (xmOf e) = e := by
  simp only [xmWord, xmOf, putBit_flag, put_field_or]
  exact put_field_all e

theorem xmOf_xmWord (x : Xm) : xmOf (xmWord x) = x := by
  simp (disch := omega) [xmWord, xmOf, putBit, flag_eq_field, field_put_same, field_put_of_disjoint]

theorem xwWord_xwOf (e : Word) : xwWord (xwOf e) = e := by
  simp only [xwWord, xwOf, putBit_flag, put_field_or]
  exact put_field_all e

theorem xwOf_xwWord (x : Xw) : xwOf (xwWord x) = x := by
  simp (disch := omega) [xwWord, xwOf, putBit, flag_eq_field, field_put_same, field_put_of_disjoint]

/-- An XM that its word gives back where there is one. -/
theorem xm_of_word (xm : Option Xm) : (if xm.isSome then some (xmOf ((xm.map xmWord).getD 0)) else none) = xm := by
  cases xm with
  | none => rfl
  | some x => simp [xmOf_xmWord]

/-! ## Word 0 (R57) -/

/-- The key of a row in the two opcode maps: S above OP. -/
def keyFrom (s : BitVec 1) (op : BitVec 7) : BitVec 8 := s ++ op
def keyOf (w : Word) : BitVec 8 := keyFrom (field w 31 1) (field w 22 7)

theorem getLsbD_keyFrom (s : BitVec 1) (op : BitVec 7) (i : Nat) :
    (keyFrom s op).getLsbD i = if i < 7 then op.getLsbD i else s.getLsbD (i - 7) :=
  BitVec.getLsbD_append

theorem extractLsb'_keyFrom_high (s : BitVec 1) (op : BitVec 7) : (keyFrom s op).extractLsb' 7 1 = s := by
  ext i hi
  rw [BitVec.getElem_extractLsb', getLsbD_keyFrom, if_neg (by omega), Nat.add_sub_cancel_left, BitVec.getLsbD_eq_getElem hi]

theorem extractLsb'_keyFrom_low (s : BitVec 1) (op : BitVec 7) : (keyFrom s op).extractLsb' 0 7 = op := by
  ext i hi
  rw [BitVec.getElem_extractLsb', getLsbD_keyFrom, Nat.zero_add, if_pos hi, BitVec.getLsbD_eq_getElem hi]

theorem keyFrom_extractLsb' (key : BitVec 8) : keyFrom (key.extractLsb' 7 1) (key.extractLsb' 0 7) = key := by
  refine BitVec.eq_of_getLsbD_eq fun i hi => ?_
  rw [getLsbD_keyFrom]
  split
  · next h => rw [BitVec.getLsbD_extractLsb', decide_eq_true h, Bool.true_and, Nat.zero_add]
  · next h => rw [BitVec.getLsbD_extractLsb', decide_eq_true (by omega), Bool.true_and, show 7 + (i - 7) = i by omega]

/-- The row of a key (R58, R72, R73). -/
def shapeOfKey (key : BitVec 8) : Option Shape :=
  if key.getLsbD 7 then uniformShape (key.extractLsb' 0 7).toNat else laneShape (key.extractLsb' 0 7).toNat

theorem shapeOf_eq (w : Word) : shapeOf w = shapeOfKey (keyOf w) := by
  rw [shapeOf, shapeOfKey, keyOf, extractLsb'_keyFrom_low, getLsbD_keyFrom, flag_eq_field]
  rfl

/-- A word is its key, W, X and its body. -/
theorem word0_keyOf (w : Word) : word0 (keyOf w) (flag w 30) (flag w 29) (put (field w 0 22) 0) = w := by
  simp only [word0, keyOf, extractLsb'_keyFrom_high, extractLsb'_keyFrom_low, putBit_flag, put_field_or]
  exact put_field_all w

/-- A body leaves the bits of S, W, X and OP clear. -/
def IsBody (body : Word) : Prop := ∀ lo n, 22 ≤ lo → field body lo n = 0

section
variable {key : BitVec 8} {w x : Bool} {body : Word}

theorem field_word0 {lo n : Nat} (h : lo + n ≤ 22) : field (word0 key w x body) lo n = field body lo n := by
  simp (disch := omega) [word0, putBit, field_put_of_disjoint]

theorem flag_word0 {i : Nat} (h : i < 22) : flag (word0 key w x body) i = flag body i := by
  rw [flag_eq_field, field_word0 (by omega), ← flag_eq_field]

theorem flag_word0_w (hb : IsBody body) : flag (word0 key w x body) 30 = w := by
  simp (disch := omega) [flag_eq_field, word0, putBit, field_put_of_disjoint, field_put_same, hb 30 1]

theorem flag_word0_x (hb : IsBody body) : flag (word0 key w x body) 29 = x := by
  simp (disch := omega) [flag_eq_field, word0, putBit, field_put_of_disjoint, field_put_same, hb 29 1]

theorem keyOf_word0 (hb : IsBody body) : keyOf (word0 key w x body) = key := by
  simp (disch := omega) only [keyOf, word0, putBit, field_or, field_put_of_disjoint, field_put_same, hb 31 1, hb 22 7]
  simp [keyFrom_extractLsb']

theorem shapeOf_word0 (hb : IsBody body) : shapeOf (word0 key w x body) = shapeOfKey key := by
  rw [shapeOf_eq, keyOf_word0 hb]

end

/-! ## Bodies (R60, R62) -/

theorem isBody_lr (o : Lr) : IsBody (lrBody o) := fun lo n h => by
  simp (disch := omega) [lrBody, putBit, field_put_of_disjoint]
theorem isBody_lk (o : Lk) : IsBody (lkBody o) := fun lo n h => by
  simp (disch := omega) [lkBody, field_put_of_disjoint]
theorem isBody_lp (o : Lp) : IsBody (lpBody o) := fun lo n h => by
  simp (disch := omega) [lpBody, putBit, field_put_of_disjoint]
theorem isBody_lv (o : Lv) : IsBody (lvBody o) := fun lo n h => by
  simp (disch := omega) [lvBody, putBit, field_put_of_disjoint]
theorem isBody_plop (o : Plop) : IsBody (plopBody o) := fun lo n h => by
  simp (disch := omega) [plopBody, field_put_of_disjoint]
theorem isBody_lm (o : Lm) : IsBody (lmBody o) := fun lo n h => by
  simp (disch := omega) [lmBody, putBit, field_put_of_disjoint]
theorem isBody_lb (o : Lb) : IsBody (lbBody o) := fun lo n h => by
  simp (disch := omega) [lbBody, putBit, field_put_of_disjoint]
theorem isBody_ln (o : Ln) : IsBody (put o.z 0) := fun _ _ h => field_put_of_disjoint _ (.inr h)
theorem isBody_ue (o : Ue) : IsBody (ueBody o) := fun lo n h => by
  simp (disch := omega) [ueBody, field_put_of_disjoint]

section
variable (w e : Word)

theorem lrBody_lrOf : lrBody (lrOf w e) = put (field w 0 22) 0 := by
  simp only [lrBody, lrOf, putBit_flag, put_field_or]
theorem lkBody_lkOf : lkBody (lkOf w e) = put (field w 0 22) 0 := by
  simp only [lkBody, lkOf, put_field_or]
theorem lpBody_lpOf : lpBody (lpOf w e) = put (field w 0 22) 0 := by
  simp only [lpBody, lpOf, putBit_flag, put_field_or]
theorem lvBody_lvOf : lvBody (lvOf w e) = put (field w 0 22) 0 := by
  simp only [lvBody, lvOf, putBit_flag, put_field_or]
theorem plopBody_plopOf : plopBody (plopOf w e) = put (field w 0 22) 0 := by
  simp only [plopBody, plopOf, put_field_or]
theorem lmBody_lmOf : lmBody (lmOf w e) = put (field w 0 22) 0 := by
  simp only [lmBody, lmOf, putBit_flag, put_field_or]
theorem lbBody_lbOf : lbBody (lbOf w) = put (field w 0 22) 0 := by
  simp only [lbBody, lbOf, putBit_flag, put_field_or]
theorem ueBody_ueOf : ueBody (ueOf w) = put (field w 0 22) 0 := by
  simp only [ueBody, ueOf, put_field_or]

end

section
variable {key : BitVec 8} {e : Word}

theorem lrOf_word0 (o : Lr) : lrOf (word0 key o.w o.xm.isSome (lrBody o)) ((o.xm.map xmWord).getD 0) = o := by
  have hb := isBody_lr o
  obtain ⟨w, d, a, b, f, xm⟩ := o
  have hx := xm_of_word xm
  simp (disch := omega) only [lrOf, flag_word0_w hb, flag_word0_x hb, field_word0, flag_word0, hx]
  simp (disch := omega) [lrBody, putBit, flag_eq_field, field_put_same, field_put_of_disjoint]

theorem lkOf_word0 (o : Lk) : lkOf (word0 key o.w o.xl.isSome (lkBody o)) (o.xl.getD 0) = o := by
  have hb := isBody_lk o
  obtain ⟨w, d, a, k, xl⟩ := o
  have hx : (if xl.isSome then some (xl.getD 0) else none) = xl := by cases xl <;> rfl
  simp (disch := omega) only [lkOf, flag_word0_w hb, flag_word0_x hb, field_word0, hx]
  simp (disch := omega) [lkBody, field_put_same, field_put_of_disjoint]

theorem lpOf_word0 (o : Lp) : lpOf (word0 key o.w o.xm.isSome (lpBody o)) ((o.xm.map xmWord).getD 0) = o := by
  have hb := isBody_lp o
  obtain ⟨w, pd, cc, a, b, f, xm⟩ := o
  have hx := xm_of_word xm
  simp (disch := omega) only [lpOf, flag_word0_w hb, flag_word0_x hb, field_word0, flag_word0, hx]
  simp (disch := omega) [lpBody, putBit, flag_eq_field, field_put_same, field_put_of_disjoint]

theorem lvOf_word0 (o : Lv) : lvOf (word0 key o.w o.xm.isSome (lvBody o)) ((o.xm.map xmWord).getD 0) = o := by
  have hb := isBody_lv o
  obtain ⟨w, d, pd, ps, n, mode, z, xm⟩ := o
  have hx := xm_of_word xm
  simp (disch := omega) only [lvOf, flag_word0_w hb, flag_word0_x hb, field_word0, flag_word0, hx]
  simp (disch := omega) [lvBody, putBit, flag_eq_field, field_put_same, field_put_of_disjoint]

theorem plopOf_word0 (o : Plop) : plopOf (word0 key o.w o.xm.isSome (plopBody o)) ((o.xm.map xmWord).getD 0) = o := by
  have hb := isBody_plop o
  obtain ⟨w, pd, pa, pb, pc, lut, z, xm⟩ := o
  have hx := xm_of_word xm
  simp (disch := omega) only [plopOf, flag_word0_w hb, flag_word0_x hb, field_word0, hx]
  simp (disch := omega) [plopBody, field_put_same, field_put_of_disjoint]

theorem lmOf_word0 (o : Lm) : lmOf (word0 key o.w true (lmBody o)) (xwWord o.xw) = o := by
  have hb := isBody_lm o
  obtain ⟨w, d, a, sb, z, xw⟩ := o
  simp (disch := omega) only [lmOf, flag_word0_w hb, field_word0, flag_word0, xwOf_xwWord]
  simp (disch := omega) [lmBody, putBit, flag_eq_field, field_put_same, field_put_of_disjoint]

theorem lbOf_word0 (o : Lb) : lbOf (word0 key o.w false (lbBody o)) = o := by
  have hb := isBody_lb o
  obtain ⟨w, p, n, off⟩ := o
  simp (disch := omega) only [lbOf, flag_word0_w hb, field_word0, flag_word0]
  simp (disch := omega) [lbBody, putBit, flag_eq_field, field_put_same, field_put_of_disjoint]

theorem lnOf_word0 (o : Ln) : lnOf (word0 key o.w false (put o.z 0)) = o := by
  have hb := isBody_ln o
  obtain ⟨w, z⟩ := o
  simp (disch := omega) only [lnOf, flag_word0_w hb, field_word0, field_put_same]

theorem ueOf_word0 (x : Bool) (o : Ue) : ueOf (word0 key o.w x (ueBody o)) = o := by
  have hb := isBody_ue o
  obtain ⟨w, sp, tag, sub⟩ := o
  simp (disch := omega) only [ueOf, flag_word0_w hb, field_word0]
  simp (disch := omega) [ueBody, field_put_same, field_put_of_disjoint]

end

/-! ## From an instruction to its words -/

/-- The words of an instruction decode to it, before the checks of its allocation. -/
def Decodes (i : Instr) : Prop :=
  ∃ (w : Word) (e : Option Word), encode i = w :: e.toList ∧ extFollows w = e.isSome ∧ instrOf w (e.getD 0) = .ok i

/-- The formats that an extension word may follow (R63). -/
def Shape.extends : Shape → Bool
  | .lr _ | .lk _ | .lp _ | .lv _ | .plop _ | .lm _ | .event => true
  | .lb _ | .ln _ | .ue _ => false

/-- What words of a format are. -/
def Shape.read (sh : Shape) (w e : Word) : Except Reason Instr :=
  match sh with
  | .lr mk => .ok (mk (lrOf w e))
  | .lk mk => .ok (mk (lkOf w e))
  | .lp mk => .ok (mk (lpOf w e))
  | .lv mk => .ok (mk (lvOf w e))
  | .plop mk => .ok (mk (plopOf w e))
  | .lm mk => if flag w 29 then .ok (mk (lmOf w e)) else .error .xbit
  | .lb mk => if flag w 29 then .error .xbit else .ok (mk (lbOf w))
  | .ln mk => if flag w 29 then .error .xbit else .ok (mk (lnOf w))
  | .ue mk => if flag w 29 then .error .xbit else .ok (mk (ueOf w))
  | .event => if flag w 29 then .ok (.eventLiteral { ue := ueOf w, xl := e }) else .ok (.event (ueOf w))

theorem instrOf_eq {w e : Word} {sh : Shape} (hs : shapeOf w = some sh) : instrOf w e = sh.read w e := by
  unfold instrOf
  rw [hs]
  cases sh <;> rfl

theorem extFollows_eq {w : Word} {sh : Shape} (hs : shapeOf w = some sh) : extFollows w = (flag w 29 && sh.extends) := by
  unfold extFollows
  rw [hs]
  cases sh <;> rfl

section
variable {i : Instr} {key : BitVec 8} {w x : Bool} {body : Word} {e : Option Word} {sh : Shape}

/-- Words of a row, with an extension word where X is set and the format takes one, decode to what the format reads. -/
theorem decodes_of_shape (hb : IsBody body) (hs : shapeOfKey key = some sh) (he : encode i = word0 key w x body :: e.toList)
    (hx : (x && sh.extends) = e.isSome) (hi : sh.read (word0 key w x body) (e.getD 0) = .ok i) : Decodes i := by
  have hs := (shapeOf_word0 (w := w) (x := x) hb).trans hs
  exact ⟨_, e, he, by rw [extFollows_eq hs, flag_word0_x hb, hx], (instrOf_eq hs).trans hi⟩

theorem decodes_lr {mk : Lr → Instr} {o : Lr} (he : encode (mk o) = lrWords key o) (hs : shapeOfKey key = some (.lr mk)) :
    Decodes (mk o) :=
  decodes_of_shape (isBody_lr o) hs he (by simp [Shape.extends]) (by rw [Shape.read, lrOf_word0])

theorem decodes_lk {mk : Lk → Instr} {o : Lk} (he : encode (mk o) = lkWords key o) (hs : shapeOfKey key = some (.lk mk)) :
    Decodes (mk o) :=
  decodes_of_shape (isBody_lk o) hs he (by simp [Shape.extends]) (by rw [Shape.read, lkOf_word0])

theorem decodes_lp {mk : Lp → Instr} {o : Lp} (he : encode (mk o) = lpWords key o) (hs : shapeOfKey key = some (.lp mk)) :
    Decodes (mk o) :=
  decodes_of_shape (isBody_lp o) hs he (by simp [Shape.extends]) (by rw [Shape.read, lpOf_word0])

theorem decodes_lv {mk : Lv → Instr} {o : Lv} (he : encode (mk o) = lvWords key o) (hs : shapeOfKey key = some (.lv mk)) :
    Decodes (mk o) :=
  decodes_of_shape (isBody_lv o) hs he (by simp [Shape.extends]) (by rw [Shape.read, lvOf_word0])

theorem decodes_plop {mk : Plop → Instr} {o : Plop} (he : encode (mk o) = plopWords key o)
    (hs : shapeOfKey key = some (.plop mk)) : Decodes (mk o) :=
  decodes_of_shape (isBody_plop o) hs he (by simp [Shape.extends]) (by rw [Shape.read, plopOf_word0])

theorem decodes_lm {mk : Lm → Instr} {o : Lm} (he : encode (mk o) = lmWords key o) (hs : shapeOfKey key = some (.lm mk)) :
    Decodes (mk o) :=
  have hb := isBody_lm o
  decodes_of_shape (e := some (xwWord o.xw)) hb hs he rfl
    (by rw [Shape.read, flag_word0_x hb, if_pos rfl, Option.getD_some, lmOf_word0])

theorem decodes_lb {mk : Lb → Instr} {o : Lb} (he : encode (mk o) = lbWords key o) (hs : shapeOfKey key = some (.lb mk)) :
    Decodes (mk o) :=
  have hb := isBody_lb o
  decodes_of_shape (e := none) hb hs he rfl (by rw [Shape.read, flag_word0_x hb, if_neg Bool.false_ne_true, lbOf_word0])

theorem decodes_ln {mk : Ln → Instr} {o : Ln} (he : encode (mk o) = lnWords key o) (hs : shapeOfKey key = some (.ln mk)) :
    Decodes (mk o) :=
  have hb := isBody_ln o
  decodes_of_shape (e := none) hb hs he rfl (by rw [Shape.read, flag_word0_x hb, if_neg Bool.false_ne_true, lnOf_word0])

theorem decodes_ue {mk : Ue → Instr} {o : Ue} (he : encode (mk o) = ueWords key o) (hs : shapeOfKey key = some (.ue mk)) :
    Decodes (mk o) :=
  have hb := isBody_ue o
  decodes_of_shape (e := none) hb hs he rfl (by rw [Shape.read, flag_word0_x hb, if_neg Bool.false_ne_true, ueOf_word0])

/-- EVENT's row is its X bit's to split (R63, R180). -/
theorem decodes_event (o : Ue) : Decodes (.event o) :=
  have hb := isBody_ue o
  decodes_of_shape (key := 0xE2) (sh := .event) (e := none) hb rfl rfl rfl
    (by rw [Shape.read, flag_word0_x hb, if_neg Bool.false_ne_true, ueOf_word0])

theorem decodes_eventLiteral (o : Ux) : Decodes (.eventLiteral o) :=
  have hb := isBody_ue o.ue
  decodes_of_shape (key := 0xE2) (sh := .event) (e := some o.xl) hb rfl rfl rfl
    (by rw [Shape.read, flag_word0_x hb, if_pos rfl, ueOf_word0, Option.getD_some])

end

/-- The rows of R72 and R73, by format: each instruction's words decode to it. -/
theorem decodes_of_isWord {i : Instr} (h : isWord i = true) : Decodes i := by
  cases i
  case iadd o | isub o | imul o | imulh o | imad o | idiv o | imin o | imax o | and o | or o | xor o | andn o | shl o | shr o |
    sar o | popc o | clz o | brev o | bfe o | bfi o | lea o | sel o | mov o | movsv o | fadd o | fmul o | ffma o | fmin o |
    fmax o | fdiv o | rcp o | rsq o | sqrt o | ex2 o | lg2 o | sinpi o | cospi o | frnd o | fclass o | fscale o | fdot2 o |
    cvt o | cvtp o | prmt o | flgrd o | shfl o | shflup o | shfldn o | shflx o | lred o | lscan o | matchLanes o | jmpl o |
    reorder o | sadd o | ssub o | smul o | smad o | smin o | smax o | sand o | sor o | sxor o | sshl o | sshr o | ssar o |
    spopc o | sclz o | slea o | ssel o | smov o | sfadd o | sfmul o | sffma o | scvt o | jmp o | brx o | tfirst o =>
    exact decodes_lr rfl rfl
  case iaddk o | andk o | ork o | xork o | shlk o | shrk o | sark o | movk o | flgclr o | rdsr o | svc o | bkpt o | saddk o |
    sshlk o | sshrk o | smovk o | movvs o | rdsrUniform o | wrsr o | region o | tstat o | qstat o => exact decodes_lk rfl rfl
  case isetp o | fsetp o | ssetc o | sfsetc o | ptoc o => exact decodes_lp rfl rfl
  case pmov o | vote o | ballot o => exact decodes_lv rfl rfl
  case plop o | clop o => exact decodes_plop rfl rfl
  case ld o | st o | ldb o | stb o | lds o | sts o | atom o | atomb o | atoms o | prf o | ldg o | stg o | stq o | ldq o |
    ldpx o | stpx o | ldcf o | stcf o | smp o | dscl o | dscf o | sld o | sst o | lockl o | unlockl o | pinl o | unpinl o |
    waitx o | waitv o | lstat o => exact decodes_lm rfl rfl
  case brl o | call o | bra o => exact decodes_lb rfl rfl
  case ret o | exit o | nop o | yield o => exact decodes_ln rfl rfl
  case spawn o | join o | rtrig o | bar o | barp o | fence o | cpy o | cpyg o | cpyd o | mxa o | mxc o | mxz o | mxld o |
    mxst o | twait o | qbind o | qfree o | tdesc o | stmv o | surfclr o | tbegin o | tflush o => exact decodes_ue rfl rfl
  case event o => exact decodes_event o
  case eventLiteral o => exact decodes_eventLiteral o
  -- SEAL, whose constructor bears a keyword's name, is the first case left; the others are steps of the device, which no word is
  next o => exact decodes_ue rfl rfl
  all_goals cases h

/-! ## From words to an instruction and back -/

/-- What the instructions of a key's row encode to. -/
def Shape.Encodes (key : BitVec 8) : Shape → Prop
  | .lr mk => ∀ o, encode (mk o) = lrWords key o
  | .lk mk => ∀ o, encode (mk o) = lkWords key o
  | .lp mk => ∀ o, encode (mk o) = lpWords key o
  | .lv mk => ∀ o, encode (mk o) = lvWords key o
  | .plop mk => ∀ o, encode (mk o) = plopWords key o
  | .lm mk => ∀ o, encode (mk o) = lmWords key o
  | .lb mk => ∀ o, encode (mk o) = lbWords key o
  | .ln mk => ∀ o, encode (mk o) = lnWords key o
  | .ue mk => ∀ o, encode (mk o) = ueWords key o
  | .event => (∀ o, encode (.event o) = ueWords key o) ∧ ∀ o, encode (.eventLiteral o) = [ueWord key true o.ue, o.xl]

theorem laneShape_encodes {op : Nat} {sh : Shape} (h : laneShape op = some sh) : sh.Encodes (BitVec.ofNat 8 op) := by
  unfold laneShape at h
  split at h <;> cases h <;> exact fun _ => rfl

theorem uniformShape_encodes {op : Nat} {sh : Shape} (h : uniformShape op = some sh) : sh.Encodes (BitVec.ofNat 8 (128 + op)) := by
  unfold uniformShape at h
  split at h <;> cases h
  case h_43 => exact ⟨fun _ => rfl, fun _ => rfl⟩
  all_goals exact fun _ => rfl

theorem toNat_keyFrom (s : BitVec 1) (op : BitVec 7) : (keyFrom s op).toNat = s.toNat * 128 + op.toNat := by
  have h : (keyFrom s op).toNat = s.toNat <<< 7 ||| op.toNat := BitVec.toNat_append s op
  rw [h, ← Nat.shiftLeft_add_eq_or_of_lt op.isLt, Nat.shiftLeft_eq]

theorem shapeOf_encodes {w : Word} {sh : Shape} (h : shapeOf w = some sh) : sh.Encodes (keyOf w) := by
  have hk : keyOf w = BitVec.ofNat 8 ((flag w 31).toNat * 128 + (field w 22 7).toNat) := by
    rw [← BitVec.toNat_ofBool, ofBool_flag, ← toNat_keyFrom, BitVec.ofNat_toNat, BitVec.setWidth_eq, keyOf]
  rw [hk]
  unfold shapeOf at h
  cases hs : flag w 31 <;> rw [hs] at h
  · simpa using laneShape_encodes h
  · exact uniformShape_encodes h

section
variable (w e : Word)

theorem lrWords_lrOf : lrWords (keyOf w) (lrOf w e) = w :: if flag w 29 then [e] else [] := by
  have hw := word0_keyOf w
  rw [lrWords, lrBody_lrOf]
  cases hx : flag w 29 <;> rw [hx] at hw <;> simp [lrOf, hx, hw, xmWord_xmOf]

theorem lkWords_lkOf : lkWords (keyOf w) (lkOf w e) = w :: if flag w 29 then [e] else [] := by
  have hw := word0_keyOf w
  rw [lkWords, lkBody_lkOf]
  cases hx : flag w 29 <;> rw [hx] at hw <;> simp [lkOf, hx, hw]

theorem lpWords_lpOf : lpWords (keyOf w) (lpOf w e) = w :: if flag w 29 then [e] else [] := by
  have hw := word0_keyOf w
  rw [lpWords, lpBody_lpOf]
  cases hx : flag w 29 <;> rw [hx] at hw <;> simp [lpOf, hx, hw, xmWord_xmOf]

theorem lvWords_lvOf : lvWords (keyOf w) (lvOf w e) = w :: if flag w 29 then [e] else [] := by
  have hw := word0_keyOf w
  rw [lvWords, lvBody_lvOf]
  cases hx : flag w 29 <;> rw [hx] at hw <;> simp [lvOf, hx, hw, xmWord_xmOf]

theorem plopWords_plopOf : plopWords (keyOf w) (plopOf w e) = w :: if flag w 29 then [e] else [] := by
  have hw := word0_keyOf w
  rw [plopWords, plopBody_plopOf]
  cases hx : flag w 29 <;> rw [hx] at hw <;> simp [plopOf, hx, hw, xmWord_xmOf]

theorem lmWords_lmOf (hx : flag w 29 = true) : lmWords (keyOf w) (lmOf w e) = [w, e] := by
  have hw := word0_keyOf w
  rw [lmWords, lmBody_lmOf, show (lmOf w e).xw = xwOf e from rfl, xwWord_xwOf]
  rw [hx] at hw
  exact congrArg (· :: [e]) hw

theorem lbWords_lbOf (hx : flag w 29 = false) : lbWords (keyOf w) (lbOf w) = [w] := by
  have hw := word0_keyOf w
  rw [lbWords, lbBody_lbOf]
  rw [hx] at hw
  exact congrArg (· :: []) hw

theorem lnWords_lnOf (hx : flag w 29 = false) : lnWords (keyOf w) (lnOf w) = [w] := by
  have hw := word0_keyOf w
  rw [hx] at hw
  exact congrArg (· :: []) hw

theorem ueWord_ueOf : ueWord (keyOf w) (flag w 29) (ueOf w) = w := by
  rw [ueWord, ueBody_ueOf]
  exact word0_keyOf w

end

/-- Words that decode are the words of what they decode to. -/
theorem encode_of_instrOf {w e : Word} {i : Instr} (h : instrOf w e = .ok i) :
    encode i = w :: if extFollows w then [e] else [] := by
  cases hs : shapeOf w with
  | none => rw [instrOf, hs] at h; cases h
  | some sh =>
    have he := shapeOf_encodes hs
    rw [instrOf_eq hs] at h
    rw [extFollows_eq hs]
    cases sh with
    | lr mk => cases h; rw [he, lrWords_lrOf, Shape.extends, Bool.and_true]
    | lk mk => cases h; rw [he, lkWords_lkOf, Shape.extends, Bool.and_true]
    | lp mk => cases h; rw [he, lpWords_lpOf, Shape.extends, Bool.and_true]
    | lv mk => cases h; rw [he, lvWords_lvOf, Shape.extends, Bool.and_true]
    | plop mk => cases h; rw [he, plopWords_plopOf, Shape.extends, Bool.and_true]
    | lm mk =>
      cases hx : flag w 29 <;> rw [Shape.read, hx] at h <;> cases h
      rw [he, lmWords_lmOf w e hx]; rfl
    | lb mk =>
      cases hx : flag w 29 <;> rw [Shape.read, hx] at h <;> cases h
      rw [he, lbWords_lbOf w hx]; rfl
    | ln mk =>
      cases hx : flag w 29 <;> rw [Shape.read, hx] at h <;> cases h
      rw [he, lnWords_lnOf w hx]; rfl
    | ue mk =>
      have hw := ueWord_ueOf w
      cases hx : flag w 29 <;> rw [Shape.read, hx] at h <;> rw [hx] at hw <;> cases h
      rw [he, ueWords, hw]; rfl
    | event =>
      have hw := ueWord_ueOf w
      cases hx : flag w 29 <;> rw [Shape.read, hx] at h <;> rw [hx] at hw <;> cases h
      · rw [he.1, ueWords, hw]; rfl
      · rw [he.2, hw]; rfl

/-! ## Bytes (R2) -/

theorem getLsbD_wordOfBytes (b0 b1 b2 b3 : Byte) (i : Nat) : (wordOfBytes b0 b1 b2 b3).getLsbD i =
    if i < 8 then b0.getLsbD i else if i < 16 then b1.getLsbD (i - 8) else if i < 24 then b2.getLsbD (i - 16)
    else b3.getLsbD (i - 24) := by
  have h : (wordOfBytes b0 b1 b2 b3).getLsbD i = @BitVec.getLsbD (8 + 8 + 8 + 8) (b3 ++ b2 ++ b1 ++ b0) i := rfl
  simp only [h, BitVec.getLsbD_append, Nat.sub_sub, show i - 8 < 8 ↔ i < 16 by omega,
    show i - (8 + 8) < 8 ↔ i < 24 by omega]

theorem wordOfBytes_bytesOfWord (w : Word) :
    wordOfBytes (w.extractLsb' 0 8) (w.extractLsb' 8 8) (w.extractLsb' 16 8) (w.extractLsb' 24 8) = w := by
  refine BitVec.eq_of_getLsbD_eq fun i hi => ?_
  simp only [getLsbD_wordOfBytes, BitVec.getLsbD_extractLsb']
  split
  · next h => simp [h]
  split
  · next h h' => simp [show i - 8 < 8 by omega, show 8 + (i - 8) = i by omega]
  split
  · next h h' h'' => simp [show i - 16 < 8 by omega, show 16 + (i - 16) = i by omega]
  · next h h' h'' => simp [show i - 24 < 8 by omega, show 24 + (i - 24) = i by omega]

theorem bytesOfWord_wordOfBytes (b0 b1 b2 b3 : Byte) : bytesOfWord (wordOfBytes b0 b1 b2 b3) = [b0, b1, b2, b3] := by
  have hb (k : Nat) (b : Byte) (h : ∀ i, i < 8 → (wordOfBytes b0 b1 b2 b3).getLsbD (k + i) = b.getLsbD i) :
      (wordOfBytes b0 b1 b2 b3).extractLsb' k 8 = b :=
    BitVec.eq_of_getLsbD_eq fun i hi => by rw [BitVec.getLsbD_extractLsb', decide_eq_true hi, Bool.true_and, h i hi]
  rw [bytesOfWord, hb 0 b0, hb 8 b1, hb 16 b2, hb 24 b3] <;> intro i hi <;> rw [getLsbD_wordOfBytes]
  · rw [if_neg (by omega), if_neg (by omega), if_neg (by omega), Nat.add_sub_cancel_left]
  · rw [if_neg (by omega), if_neg (by omega), if_pos (by omega), Nat.add_sub_cancel_left]
  · rw [if_neg (by omega), if_pos (by omega), Nat.add_sub_cancel_left]
  · rw [if_pos (by omega), Nat.zero_add]

section
variable {al : Machine.Alloc} {i : Instr} {w e : Word} {rest bs : List Byte}

theorem decodeWords_ok : decodeWords al w e = .ok i ↔ instrOf w e = .ok i ∧ Machine.illegalReason al i = none := by
  unfold decodeWords
  split
  · next r h => simp [h]
  · next j h =>
    simp only [h, Except.ok.injEq]
    constructor
    · split
      · simp
      · next hr => simp only [Except.ok.injEq]; rintro rfl; exact ⟨rfl, hr⟩
    · rintro ⟨rfl, hr⟩
      simp [hr]

theorem decodeBytes_one (hx : extFollows w = false) (h : decodeWords al w 0 = .ok i) :
    decodeBytes al (bytesOfWord w ++ rest) = .ok (i, rest) := by
  simp only [bytesOfWord, List.cons_append, List.nil_append, decodeBytes, wordOfBytes_bytesOfWord, hx, Bool.false_eq_true, if_false, h]

theorem decodeBytes_two (hx : extFollows w = true) (h : decodeWords al w e = .ok i) :
    decodeBytes al (bytesOfWord w ++ (bytesOfWord e ++ rest)) = .ok (i, rest) := by
  simp only [bytesOfWord, List.cons_append, List.nil_append, decodeBytes, wordOfBytes_bytesOfWord, hx, if_true, h]

/-- Bytes that decode are those of one word, or of two where an extension word follows, that decode. -/
theorem decodeBytes_ok (h : decodeBytes al bs = .ok (i, rest)) : ∃ w e, decodeWords al w e = .ok i ∧
    bs = (w :: if extFollows w then [e] else []).flatMap bytesOfWord ++ rest := by
  unfold decodeBytes at h
  split at h
  · next b0 b1 b2 b3 r =>
    simp only at h
    split at h
    · next hx =>
      split at h
      · next e0 e1 e2 e3 r' =>
        refine ⟨wordOfBytes b0 b1 b2 b3, wordOfBytes e0 e1 e2 e3, ?_⟩
        split at h <;> cases h
        next hd => exact ⟨hd, by simp [hx, bytesOfWord_wordOfBytes]⟩
      · cases h
    · next hx =>
      refine ⟨wordOfBytes b0 b1 b2 b3, 0, ?_⟩
      split at h <;> cases h
      next hd => exact ⟨hd, by simp [hx, bytesOfWord_wordOfBytes]⟩
  · cases h

end

theorem length_flatMap_bytesOfWord (ws : List Word) : (ws.flatMap bytesOfWord).length = 4 * ws.length := by
  induction ws with
  | nil => rfl
  | cons w ws ih => rw [List.flatMap_cons, List.length_append, ih, List.length_cons]; simp [bytesOfWord]; omega

/-! ## The statement -/

theorem decodeBytes_encodeBytes {al : Machine.Alloc} {i : Instr} (rest : List Byte) (hi : isWord i = true)
    (hr : Machine.illegalReason al i = none) : decodeBytes al (encodeBytes i ++ rest) = .ok (i, rest) := by
  obtain ⟨w, e, he, hx, hd⟩ := decodes_of_isWord hi
  have hd := decodeWords_ok.2 ⟨hd, hr⟩
  rw [encodeBytes, he]
  cases e with
  | none => simpa using decodeBytes_one hx hd
  | some e => simpa using decodeBytes_two hx hd

theorem encodeBytes_of_decodeBytes {al : Machine.Alloc} {i : Instr} {bs rest : List Byte} (h : decodeBytes al bs = .ok (i, rest)) :
    bs = encodeBytes i ++ rest ∧ isWord i = true ∧ Machine.illegalReason al i = none ∧ lengthOf i = bs.length - rest.length := by
  obtain ⟨w, e, hd, hbs⟩ := decodeBytes_ok h
  obtain ⟨hd, hr⟩ := decodeWords_ok.1 hd
  have he := encode_of_instrOf hd
  have hbs : bs = encodeBytes i ++ rest := by rw [hbs, encodeBytes, he]
  refine ⟨hbs, by rw [isWord, he]; rfl, hr, ?_⟩
  rw [hbs, List.length_append, Nat.add_sub_cancel, encodeBytes, length_flatMap_bytesOfWord, lengthOf]

/-- Settles O59: the rows of the opcode maps encode and decode alike, and bytes are those of words. -/
theorem decodeAndEncodeAgree : Obligations.DecodeAndEncodeAgree :=
  fun _ => ⟨fun _ rest hi hr => decodeBytes_encodeBytes rest hi hr, fun _ _ _ h => encodeBytes_of_decodeBytes h⟩

end Sys2Proof
end

section
/-!
PROOFS. NOP, the jumps of the lane set and of the uniform set (R147, R150, R171, R172), YIELD and REGION (R95, R175): what each moves,
and what JMPL and JMP fault on.
-/

namespace Sys2Proof.Machine
open Claims

/-! ## Program counters set after an issue -/

theorem skein_advance_isSome {s : State} {h : Hd} (hi : Issuing s) :
    (skein? (advance s.mgmt s.dev h) s.dev.cur.skein).isSome = true := by
  obtain ⟨ks, qs, st, -, -, hk, -⟩ := advance_spec s.mgmt s.dev h
  exact hk.trans hi

theorem advance_nextId (m : Mgmt) (d : Dev) (h : Hd) : (advance m d h).nextId = d.nextId := by
  obtain ⟨ks, qs, st, ha, -⟩ := advance_spec m d h
  rw [ha]

theorem lanesUnder_bundle {s : State} {p : BitVec 3} {n : Bool} {l : Nat} (h : (lanesUnder s p n).getLsbD l = true) :
    s.dev.cur.lanes.getLsbD l = true := by
  rw [lanesUnder, guardMask, getLsbD_maskOf] at h
  simp only [Bool.and_eq_true] at h
  exact h.2.1

/-- An issue that also moves lanes of its bundle. -/
theorem Issued.setPcs {s t : State} {pcs g : Nat → DWord} {brk : Bool} {lat : Nat} {ws : List PWrite} {fl : Nat → FFlags}
    (ls : Mask) (h : Issued s t pcs brk lat ws fl) (ht : (skein? t.dev s.dev.cur.skein).isSome = true)
    (hls : ∀ l, ls.getLsbD l = true → s.dev.cur.lanes.getLsbD l = true) :
    Issued s (t.dev' (modSkein t.dev s.dev.cur.skein fun k => modThreads k (lanesOf ls) fun l th => { th with pc := g l }))
      (fun l => if ls.getLsbD l then g l else pcs l) brk lat ws fl := by
  let f : Skein → Skein := fun k => modThreads k (lanesOf ls) fun l th => { th with pc := g l }
  have hf : ∀ k, (f k).uid = k.uid := fun k => modThreads_uid _ _ _
  have hcur : t.dev.cur = s.dev.cur := by rw [h.dev]
  have hk : curSkein (modSkein t.dev s.dev.cur.skein f) = f (curSkein t.dev) := by
    rw [curSkein, modSkein_cur, hcur, skeinOf_modSkein f hf ht, curSkein, hcur]
  have hfr : f (curSkein t.dev) = { curSkein t.dev with threads := (f (curSkein t.dev)).threads } := modThreads_frame _ _ _
  constructor
  case mgmt => exact h.mgmt
  case dev =>
    show modSkein t.dev s.dev.cur.skein f = _
    conv_lhs => rw [modSkein, h.dev]
    rfl
  case others => exact fun u hu => (skein_modSkein_ne f hf hu).trans (h.others u hu)
  case skein =>
    show curSkein (modSkein t.dev s.dev.cur.skein f) = { curSkein s.dev with
      threads := (curSkein (modSkein t.dev s.dev.cur.skein f)).threads, pend := (curSkein (modSkein t.dev s.dev.cur.skein f)).pend
      rot := (curSkein (modSkein t.dev s.dev.cur.skein f)).rot, marker := (curSkein (modSkein t.dev s.dev.cur.skein f)).marker
      runAhead := (curSkein (modSkein t.dev s.dev.cur.skein f)).runAhead }
    rw [hk, hfr, h.skein]
  case results =>
    show (curSkein (modSkein t.dev s.dev.cur.skein f)).pend = _
    rw [hk, hfr]
    exact h.results
  case threads =>
    intro l hl
    have hth := h.threads l hl
    have hm : threadOf (f (curSkein t.dev)) l =
        if ls.getLsbD l then { threadOf (curSkein t.dev) l with pc := g l } else threadOf (curSkein t.dev) l :=
      threadOf_modLanes _ _ _ _ hl
    have hlast : (threadOf (f (curSkein t.dev)) l).last = (threadOf (curSkein t.dev) l).last := by rw [hm]; split <;> rfl
    show threadOf (curSkein (modSkein t.dev s.dev.cur.skein f)) l =
      threadAfter s (s.dev' (modSkein t.dev s.dev.cur.skein f)) (fun l => if ls.getLsbD l then g l else pcs l) brk fl l
    simp only [threadAfter, State.dev', hk, hlast]
    rw [hm, hth, threadAfter]
    cases hb : s.dev.cur.lanes.getLsbD l
    · have : ls.getLsbD l = false := Bool.eq_false_iff.2 fun h1 => by simp [hls l h1] at hb
      simp [this]
    · cases ls.getLsbD l <;> rfl

theorem modSkein_comm (d : Dev) (u : Nat) (f g : Skein → Skein) (hf : ∀ k, (f k).uid = k.uid) (hg : ∀ k, (g k).uid = k.uid)
    (h : ∀ k, f (g k) = g (f k)) : modSkein (modSkein d u f) u g = modSkein (modSkein d u g) u f := by
  simp only [modSkein, modWhere, List.map_map]
  congr 1
  refine List.map_congr_left fun k _ => ?_
  by_cases hk : k.uid = u <;> simp [hk, hf, hg, h]

/-- Changing threads does not look at the results in flight. -/
theorem modThreads_pend (ls : List Nat) (f : Nat → Thread → Thread) (ps : List Pend) :
    ∀ k : Skein, modThreads { k with pend := ps } ls f = { modThreads k ls f with pend := ps } := by
  induction ls with
  | nil => exact fun _ => rfl
  | cons a ls ih => exact fun k => ih (modThread k a (f a))

/-- Results are put in flight alike before and after threads are changed. -/
theorem addPend_modThreads (d : Dev) (u lat : Nat) (ws : List PWrite) (ls : List Nat) (f : Nat → Thread → Thread) :
    addPend (modSkein d u fun k => modThreads k ls f) u lat ws = modSkein (addPend d u lat ws) u fun k => modThreads k ls f := by
  have hu : ∀ k, (modThreads k ls f).uid = k.uid := fun k => modThreads_uid _ _ _
  have hgid : (skeinOf (modSkein d u fun k => modThreads k ls f) u).gid = (skeinOf d u).gid := by
    simp only [skeinOf, skein_modSkein d u u _ hu, if_true]
    cases skein? d u with
    | none => rfl
    | some k => simp only [Option.map_some, Option.getD_some]; rw [modThreads_frame]
  unfold addPend
  split
  · rfl
  · simp only [hgid]
    refine modSkein_comm { d with nextId := d.nextId + 1 } u _ _ hu (fun _ => rfl) fun k => ?_
    rw [modThreads_pend, modThreads_frame ls f k]

theorem skein_addPend_isSome (d : Dev) (u v lat : Nat) (ws : List PWrite) :
    (skein? (addPend d u lat ws) v).isSome = (skein? d v).isSome := by
  unfold addPend
  split
  · rfl
  · refine skein_modSkein_isSome _ u v _ ?_
    exact fun _ => rfl

/-! ## Jumps of the lane set and of the uniform set -/

theorem exec_nop (o : Ln) (s : State) : exec (.nop o) s = execNop o s := rfl
theorem exec_brl (o : Lb) (s : State) : exec (.brl o) s = execBrl o s := rfl
theorem exec_bra (o : Lb) (s : State) : exec (.bra o) s = execBra o s := rfl
theorem exec_jmp (o : Lr) (s : State) : exec (.jmp o) s = execJmp o s := rfl
theorem exec_jmpl (o : Lr) (s : State) : exec (.jmpl o) s = execJmpl o s := rfl
theorem exec_yield (o : Ln) (s : State) : exec (.yield o) s = execYield o s := rfl
theorem exec_region (o : Lk) (s : State) : exec (.region o) s = execRegion o s := rfl

/-- An instruction whose action is `f` completes as `Issued` says of the device that `f` gives. -/
theorem runs_of {i : Instr} {s : State} {f : Mgmt → Dev → Dev} {d : Dev} {pcs : Nat → DWord} {brk : Bool} {lat : Nat}
    {ws : List PWrite} {fl : Nat → FFlags} (he : exec i s = s.run f) (hd : f s.mgmt s.dev = d)
    (h : Issued s (s.dev' d) pcs brk lat ws fl) : Runs i s pcs brk lat ws fl :=
  ⟨_, goes_run he hd, h⟩

section
variable {s : State} {h : Hd}

/-- The executing lanes of a jump go to their targets, the others past it, with the links in flight. -/
theorem issued_jump {lat : Nat} {ws : List PWrite} {target : Nat → DWord} (ls : Mask) (he : h.ends = 0) (hi : Issuing s)
    (hls : ∀ l, ls.getLsbD l = true → s.dev.cur.lanes.getLsbD l = true) :
    Issued s (s.dev' (addPend (modSkein (advance s.mgmt s.dev h) s.dev.cur.skein fun k =>
        modThreads k (lanesOf ls) fun l t => { t with pc := target l }) s.dev.cur.skein lat ws))
      (fun l => if ls.getLsbD l then target l else past s h.len l) false lat ws fun _ => 0 := by
  rw [addPend_modThreads]
  refine Issued.setPcs ls (issued_plain s h lat ws he hi) ?_ hls
  exact (skein_addPend_isSome _ _ _ _ _).trans (skein_advance_isSome hi)

/-- A lane jump of every executing lane to one target. -/
theorem issued_setPcs (ls : Mask) (pc : DWord) (he : h.ends = 0) (hi : Issuing s)
    (hls : ∀ l, ls.getLsbD l = true → s.dev.cur.lanes.getLsbD l = true) :
    Issued s (s.dev' (setPcs (advance s.mgmt s.dev h) s.dev.cur.skein ls pc))
      (fun l => if ls.getLsbD l then pc else past s h.len l) false 0 [] fun _ => 0 :=
  issued_jump (ws := []) (target := fun _ => pc) ls he hi hls

/-- The lanes outside the bundle stand where they stood. -/
theorem Issued.congr_pcs {t : State} {pcs pcs' : Nat → DWord} {brk : Bool} {lat : Nat} {ws : List PWrite} {fl : Nat → FFlags}
    (h : Issued s t pcs brk lat ws fl) (hp : ∀ l, s.dev.cur.lanes.getLsbD l = true → pcs l = pcs' l) :
    Issued s t pcs' brk lat ws fl := by
  refine ⟨h.mgmt, h.dev, h.others, h.skein, h.results, fun l hl => (h.threads l hl).trans ?_⟩
  cases hb : s.dev.cur.lanes.getLsbD l
  · simp [threadAfter, hb]
  · simp [threadAfter, hb, hp l hb]

end

section
variable {s : State} (hi : Issuing s)
include hi

theorem nop_runs {o : Ln} (hc : UniClear s 7 false []) : Runs (.nop o) s (past s 4) false 0 [] fun _ => 0 :=
  runs_of (exec_nop o s) (uniIssue_done (h := hd o.w 4 []) hc (condUnder_seven s) rfl) (issued_move s (hd o.w 4 []) 0 rfl hi)

theorem brl_runs {o : Lb} (hc : LaneClear s o.p o.n []) : Runs (.brl o) s
    (fun l => if (lanesUnder s o.p o.n).getLsbD l then branchTarget s.dev o else past s 4 l) false 0 [] fun _ => 0 := by
  refine runs_of (exec_brl o s) (laneIssue_done (h := hdLb o) hc ?_)
    (issued_setPcs (h := hdLb o) (lanesUnder s o.p o.n) _ rfl hi fun _ => lanesUnder_bundle)
  rw [inLanes_plain rfl]
  rfl

/-- A uniform jump moves the whole bundle where its condition holds, and else is passed over. -/
theorem uniJump_runs {i : Instr} {h : Hd} {pc : DWord} {body : Mgmt → Dev → Dev → Res}
    (hx : exec i s = s.run fun m d => uniIssue m d h (body m d)) (he : h.ends = 0) (hc : UniClear s h.p h.n h.rds)
    (hb : condUnder s h.p h.n = true → body s.mgmt s.dev (advance s.mgmt s.dev h) =
      .done (setPcs (advance s.mgmt s.dev h) s.dev.cur.skein s.dev.cur.lanes pc)) :
    Runs i s (fun l => if condUnder s h.p h.n then pc else past s h.len l) false 0 [] fun _ => 0 := by
  cases hg : condUnder s h.p h.n
  · have hd : uniIssue s.mgmt s.dev h (body s.mgmt s.dev) = advance s.mgmt s.dev h := by
      rw [uniIssue_skip hc hg, ← he]
    exact runs_of hx hd (issued_move s h 0 he hi)
  · have hall := issued_setPcs s.dev.cur.lanes pc he hi fun _ hl => hl
    refine runs_of hx (uniIssue_done hc hg (hb hg)) (hall.congr_pcs fun l hl => ?_)
    rw [if_pos hl, if_pos rfl]

theorem bra_runs {o : Lb} (hc : UniClear s o.p o.n []) : Runs (.bra o) s
    (fun l => if condUnder s o.p o.n then branchTarget s.dev o else past s 4 l) false 0 [] fun _ => 0 :=
  uniJump_runs hi (h := hdLb o) (exec_bra o s) rfl hc fun _ => rfl

end

/-! ## JMP and JMPL (R150, R172) -/

theorem umod_four_eq_zero_iff {x : DWord} : x % 4 = 0 ↔ x.toNat % 4 = 0 := by
  rw [← BitVec.toNat_inj, BitVec.toNat_umod]; rfl

/-- The guard of an XM does not depend on the type a word has without one. -/
theorem lrXm_guard (o : Lr) (a b : BitVec 4) : (lrXm o a).p = (lrXm o b).p ∧ (lrXm o a).n = (lrXm o b).n := by
  cases h : o.xm <;> simp [lrXm, h, xmDefault]

section
variable {s : State} {o : Lr}

/-- The head of JMP. -/
def hdJmp (o : Lr) : Hd := hdXm o.w (lenOf o.xm) (lrXm o 14) [.s o.a 2]

theorem jmp_runs (hi : Issuing s) (hc : UniClear s (lrXm o 14).p (lrXm o 14).n [.s o.a 2])
    (ht : condUnder s (lrXm o 14).p (lrXm o 14).n = false ∨ readS64 s.dev (curSkein s.dev) o.a.toNat % 4 = 0) :
    Runs (.jmp o) s (fun l => if condUnder s (lrXm o 14).p (lrXm o 14).n then readS64 s.dev (curSkein s.dev) o.a.toNat
      else past s (lenOf o.xm) l) false 0 [] fun _ => 0 := by
  refine uniJump_runs hi (h := hdJmp o) (exec_jmp o s) rfl hc fun hg => ?_
  have ht : (readS64 s.dev (curSkein s.dev) o.a.toNat).toNat % 4 = 0 :=
    umod_four_eq_zero_iff.1 (ht.resolve_left fun h => Bool.false_ne_true (h.symm.trans hg))
  simp only [ht, bne_self_eq_false, Bool.false_eq_true, if_false]

theorem jmp_of_misaligned (hc : UniClear s (lrXm o 14).p (lrXm o 14).n [.s o.a 2])
    (hg : condUnder s (lrXm o 14).p (lrXm o 14).n = true) (ht : readS64 s.dev (curSkein s.dev) o.a.toNat % 4 ≠ 0) :
    Goes (.jmp o) s (trapped s o.w (lenOf o.xm) false
      (faultAt .align (readS64 s.dev (curSkein s.dev) o.a.toNat) s.dev.cur.lanes)) := by
  have ht := mt umod_four_eq_zero_iff.2 ht
  refine goes_run (exec_jmp o s) ((uniIssue_fault (h := hdJmp o) hc hg ?_).trans (faulted_trapped false rfl))
  exact if_pos (bne_iff_ne.2 ht)

end

/-! ### The pair of a target and of a link -/

theorem getBits_pair (rd : Reader) (r : BitVec 7) : getBits rd r 2 = BitVec.ofNat 64 (joinRegs rd r.toNat 2) := by
  have h0 := (rd r.toNat).isLt
  have h1 := (rd (r.toNat + 1)).isLt
  refine BitVec.eq_of_toNat_eq ?_
  show (rd (r.toNat + 1) ++ rd r.toNat).toNat = _
  rw [BitVec.toNat_append, ← Nat.shiftLeft_add_eq_or_of_lt h0, Nat.shiftLeft_eq, BitVec.toNat_ofNat]
  simp only [joinRegs]
  omega

theorem splitRegs_pair (wr : Writer) (r : BitVec 7) (x : DWord) : splitRegs wr r.toNat x.toNat 2 = putPair wr r x := by
  have h0 : BitVec.ofNat 32 x.toNat = x.extractLsb' 0 32 := BitVec.eq_of_toNat_eq (by simp)
  have h1 : BitVec.ofNat 32 (x.toNat / 2 ^ 32) = x.extractLsb' 32 32 :=
    BitVec.eq_of_toNat_eq (by simp [Nat.shiftRight_eq_div_pow])
  simp only [splitRegs, putPair, h0, h1]

/-- Only an XLATE's pages are kept, by a run-ahead. -/
theorem faulted_pages {m : Mgmt} {d : Dev} {h : Hd} {f : FaultInfo} (ps : List DWord) (hc : f.cause ≠ .xlate) :
    faulted m d h { f with pages := ps } = faulted m d h f := by
  have hs : (f.cause == Cause.xlate) = false := beq_eq_false_iff_ne.2 hc
  unfold faulted
  simp only [hs, Bool.false_and, Bool.false_eq_true, if_false]
  rfl

/-- The failures of the lanes whose target is misaligned. -/
def alignBad (a : DWord) : Bad := { stage := stAlign, cause := .align, sub := 0, addr := a }

theorem alignBads_eq (ex : Mask) (own : Nat → DWord) :
    ((lanesOf ex).map fun l => (l, own l)).filterMap (fun t => if t.2.toNat % 4 = 0 then none else some (t.1, alignBad t.2)) =
      (lanesOf (maskOf fun l => ex.getLsbD l && own l % 4 != 0)).map fun l => (l, alignBad (own l)) := by
  rw [lanesOf_maskOf, ← filter_lanesOf]
  induction lanesOf ex with
  | nil => rfl
  | cons a ls ih =>
    rw [List.map_cons, List.filterMap_cons]
    by_cases h : own a % 4 = 0
    · rw [if_pos (umod_four_eq_zero_iff.1 h), List.filter_cons, if_neg (fun hb => bne_iff_ne.1 hb h), ← ih]
    · rw [if_neg (mt umod_four_eq_zero_iff.2 h), List.filter_cons, if_pos (bne_iff_ne.2 h), List.map_cons, ← ih]

/-- Of failures that are all misaligned targets the fault names every lane, and the lowest one's target. -/
theorem pickFault_alignBads {own : Nat → DWord} {bad : Mask} (h : lanesOf bad ≠ []) : ∃ ps,
    pickFault ((lanesOf bad).map fun l => (l, alignBad (own l))) false =
      some { faultAt .align (own ((lanesOf bad).headD 0)) bad with pages := ps } := by
  have hstage : ∀ x ∈ (lanesOf bad).map fun l => (l, alignBad (own l)), x.2.stage = stAlign := by
    intro x hx
    obtain ⟨l, -, rfl⟩ := List.mem_map.1 hx
    rfl
  obtain ⟨l0, r, hl⟩ := List.exists_cons_of_ne_nil h
  have hmin : ((lanesOf bad).map fun l => (l, alignBad (own l))).foldl (fun s b => min s b.2.stage) 100 = stAlign :=
    foldl_min_eq (fun x : Nat × Bad => x.2.stage) stAlign _ 100 (fun x hx => (hstage x hx).ge) (by decide)
      (.inr ⟨(l0, alignBad (own l0)), by simp [hl], rfl⟩)
  have hall : ((lanesOf bad).map fun l => (l, alignBad (own l))).filter (fun b => b.2.stage == stAlign) =
      (lanesOf bad).map fun l => (l, alignBad (own l)) :=
    List.filter_eq_self.2 fun x hx => beq_iff_eq.2 (hstage x hx)
  have hbad : (maskOf fun l => ((lanesOf bad).map fun l => (l, alignBad (own l))).any fun x => x.1 == l) = bad := by
    refine BitVec.eq_of_getLsbD_eq fun j hj => ?_
    rw [getLsbD_maskOf]
    simp [List.any_map, Function.comp_def, List.any_beq', List.contains_eq_mem, mem_lanesOf, hj]
  simp only [pickFault, hmin, hall, hbad]
  rw [hl]
  exact ⟨_, rfl⟩

section
variable {s : State} {o : Lr}

/-- The target of a lane's JMPL, and the lanes whose target is misaligned. -/
def jmplTarget (s : State) (o : Lr) (l : Nat) : DWord := getBits (laneReader s.dev l) o.a 2
def jmplBad (s : State) (o : Lr) : Mask :=
  maskOf fun l => (lanesUnder s (lrXm o 14).p (lrXm o 14).n).getLsbD l && jmplTarget s o l % 4 != 0

/-- The head of JMPL. -/
def hdJmpl (o : Lr) : Hd := hdXm o.w (lenOf o.xm) (lrXm o 14) [.v o.a 2]

/-- JMPL's action: the fault of its misaligned targets, or the targets with the links in flight. -/
def jmplBody (s : State) (o : Lr) (ex : Mask) (da : Dev) : Res :=
  let bads := (lanesOf (maskOf fun l => ex.getLsbD l && jmplTarget s o l % 4 != 0)).map fun l => (l, alignBad (jmplTarget s o l))
  match pickFault bads false with
  | some f => .fault f
  | none => .done (addPend (modSkein da s.dev.cur.skein fun k =>
      modThreads k (lanesOf ex) fun l t => { t with pc := jmplTarget s o l }) s.dev.cur.skein 4
      ((lanesOf ex).flatMap fun l => putPair (wrV l) o.d (nextPc s.dev (lenOf o.xm))))

theorem setLanePcs_map (d : Dev) (u : Nat) (ls : List Nat) (pc : Nat → DWord) :
    setLanePcs d u (ls.map fun l => (l, pc l)) = modSkein d u fun k => modThreads k ls fun l t => { t with pc := pc l } := by
  simp only [setLanePcs, modThreads, List.foldl_map]

theorem exec_jmpl_body : exec (.jmpl o) s = s.run fun m d => laneIssue m d (hdJmpl o) (jmplBody s o) := by
  have hh : hdXm o.w (lenOf o.xm) (lrXm o 0) [.v o.a 2] = hdJmpl o := by
    rw [hdJmpl, hdXm, hdXm, (lrXm_guard o 0 14).1, (lrXm_guard o 0 14).2]
  rw [exec_jmpl]
  refine congrArg (fun d => Host.Outcome.next (s.dev' d)) ?_
  show laneIssue s.mgmt s.dev (hdXm o.w (lenOf o.xm) (lrXm o 0) [.v o.a 2]) _ = _
  rw [hh]
  congr 1
  funext ex da
  rw [jmplBody, ← alignBads_eq, ← setLanePcs_map]
  simp only [jmplTarget, getBits_pair, ← splitRegs_pair, List.flatMap_map]
  rfl

theorem jmpl_runs (hi : Issuing s) (hc : LaneClear s (lrXm o 14).p (lrXm o 14).n [.v o.a 2]) (hb : jmplBad s o = 0) :
    Runs (.jmpl o) s
      (fun l => if (lanesUnder s (lrXm o 14).p (lrXm o 14).n).getLsbD l then jmplTarget s o l else past s (lenOf o.xm) l) false 4
      ((lanesOf (lanesUnder s (lrXm o 14).p (lrXm o 14).n)).flatMap fun l => putPair (wrV l) o.d (nextPc s.dev (lenOf o.xm)))
      fun _ => 0 := by
  refine runs_of exec_jmpl_body (laneIssue_done (h := hdJmpl o) hc ?_)
    (issued_jump (h := hdJmpl o) (lanesUnder s (lrXm o 14).p (lrXm o 14).n) rfl hi fun _ => lanesUnder_bundle)
  have hp : pickFault ((lanesOf (jmplBad s o)).map fun l => (l, alignBad (jmplTarget s o l))) false = none := by rw [hb]; rfl
  show jmplBody s o (lanesUnder s (lrXm o 14).p (lrXm o 14).n) (advance s.mgmt s.dev (inLanes s (hdJmpl o))) = _
  rw [inLanes_plain rfl, jmplBody, ← jmplBad, hp]

theorem jmpl_of_misaligned (hc : LaneClear s (lrXm o 14).p (lrXm o 14).n [.v o.a 2]) (hb : jmplBad s o ≠ 0) :
    Goes (.jmpl o) s (trapped s o.w (lenOf o.xm) false
      (faultAt .align (jmplTarget s o ((lanesOf (jmplBad s o)).headD 0)) (jmplBad s o))) := by
  have hne : lanesOf (jmplBad s o) ≠ [] := by
    rw [jmplBad, lanesOf_maskOf]
    exact mt maskOf_eq_zero_iff.2 hb
  obtain ⟨ps, hp⟩ := pickFault_alignBads (own := jmplTarget s o) hne
  have hbody : jmplBody s o (lanesUnder s (lrXm o 14).p (lrXm o 14).n) (advance s.mgmt s.dev (inLanes s (hdJmpl o))) =
      .fault { faultAt .align (jmplTarget s o ((lanesOf (jmplBad s o)).headD 0)) (jmplBad s o) with pages := ps } := by
    rw [jmplBody, ← jmplBad, hp]
  refine goes_run exec_jmpl_body ((laneIssue_fault (h := hdJmpl o) hc hbody).trans ?_)
  rw [faulted_pages ps (by simp [faultAt]), faulted_trapped false rfl]
  rfl

end

/-- K read as natural (R113). -/
theorem immOf_natural (o : Lk) : immOf o false = kNatural o := by
  cases h : o.xl <;> simp [immOf, kNatural, h]

/-! ## YIELD and REGION (R95, R175) -/

section
variable {s : State} (hc : UniClear s 7 false [])
include hc

/-- A uniform instruction without a guard is its action on the moved bundle. -/
theorem goes_uniDone {i : Instr} {h : Hd} {d1 : Dev} {body : Mgmt → Dev → Dev → Res}
    (hx : exec i s = s.run fun m d => uniIssue m d h (body m d)) (hp : h.p = 7) (hn : h.n = false) (hr : h.rds = [])
    (he : h.ends = 0) (hf : h.fp64 = false) (hb : body s.mgmt s.dev (moved s h.w h.len false) = .done d1) : Goes i s d1 := by
  refine goes_run hx (uniIssue_done (by rw [hp, hn, hr]; exact hc) (by rw [hp, hn]; exact condUnder_seven s) ?_)
  rw [advance_moved hf, he]
  exact hb

theorem yield_of_gto {o : Ln} (hp : policyOf s.mgmt (curGroup s.dev) = 0) : Goes (.yield o) s
    (modSkein { moved s o.w 4 false with
        nextId := s.dev.nextId + 1
        quarters := tset (moved s o.w 4 false).quarters (quarterNo (curGroup s.dev) (curSkein s.dev))
          { tget (moved s o.w 4 false).quarters (quarterNo (curGroup s.dev) (curSkein s.dev)) blankQuarter with gtoLast := none } }
      s.dev.cur.skein fun k => { k with age := s.dev.nextId }) := by
  refine goes_uniDone hc (h := hd o.w 4 []) (exec_yield o s) rfl rfl rfl rfl rfl ?_
  have hn : (moved s o.w 4 false).nextId = s.dev.nextId := advance_nextId _ _ _
  simp only [hp, fresh, hd, hn]

theorem yield_of_rr {o : Ln} (hp : policyOf s.mgmt (curGroup s.dev) = 1) : Goes (.yield o) s (moved s o.w 4 false) :=
  goes_uniDone hc (h := hd o.w 4 []) (exec_yield o s) rfl rfl rfl rfl rfl (by simp only [hp, hd])

theorem yield_of_det {o : Ln} (hp : policyOf s.mgmt (curGroup s.dev) = 2) : Goes (.yield o) s
    { moved s o.w 4 false with
      quarters := tset (moved s o.w 4 false).quarters (quarterNo (curGroup s.dev) (curSkein s.dev))
        { tget (moved s o.w 4 false).quarters (quarterNo (curGroup s.dev) (curSkein s.dev)) blankQuarter with
          detCur := none
          detYield := some s.dev.cur.skein } } :=
  goes_uniDone hc (h := hd o.w 4 []) (exec_yield o s) rfl rfl rfl rfl rfl (by simp only [hp, hd])

theorem region_opens (o : Lk) : Goes (.region o) s (modSkein (moved s o.w (lenOf o.xl) false) s.dev.cur.skein fun k =>
    modThreads k (lanesOf s.dev.cur.lanes) fun _ t => { t with
      region := some { entry := s.dev.cur.pc, nv := o.d.toNat, ns := o.a.toNat, acc := (kNatural o).getLsbD 0 } }) :=
  goes_uniDone hc (h := hd o.w (lenOf o.xl) []) (exec_region o s) rfl rfl rfl rfl rfl (by rw [← immOf_natural]; rfl)

end

/-! ## The statement -/

/-- Settles O13: each clause is the lemma of its instruction and outcome. -/
theorem jumpsAndRegions : Obligations.JumpsAndRegions := by
  refine ⟨fun s hi => ⟨fun o => nop_runs hi, fun o => ⟨brl_runs hi, bra_runs hi⟩, fun o => ⟨fun hc => ?_, fun hc => ?_⟩⟩,
    fun s _ hc => ⟨fun o => ⟨yield_of_gto hc, yield_of_rr hc, yield_of_det hc⟩, region_opens hc⟩⟩
  · exact ⟨jmp_runs hi hc, jmp_of_misaligned hc⟩
  · exact ⟨jmpl_runs hi hc, jmpl_of_misaligned hc⟩

end Sys2Proof.Machine
end

section
/-!
PROOFS. The worked words of the manual (R57 to R67, R72 to R76) at the decoder.
-/

namespace Sys2Proof

/-- Settles O60: the decoder evaluated on each word. -/
theorem decodedWords : Obligations.DecodedWords := by
  unfold Obligations.DecodedWords
  intro ok bad lr xw lm ue
  exact ⟨rfl, rfl, rfl, rfl, rfl, rfl, rfl, rfl, rfl, rfl, rfl, rfl, rfl, rfl, rfl, rfl, rfl, rfl, rfl, rfl, rfl, rfl, rfl⟩

end Sys2Proof
end

section
/-!
PROOFS. BKPT, words that fail their checks and fetches that fail (R75, R76, R154): each takes its exception at the instruction.
-/

namespace Sys2Proof.Machine
open Claims

theorem exec_bkpt (o : Lk) (s : State) : exec (.bkpt o) s = execBkpt o s := rfl
theorem exec_illegalWord (w0 ext : Word) (r : Reason) (s : State) : exec (.illegalWord w0 ext r) s = execIllegalWord w0 ext r s := rfl
theorem exec_fetchFault (c : FetchCause) (addr : DWord) (s : State) : exec (.fetchFault c addr) s = execFetchFault c addr s := rfl

section
variable {s : State}

theorem bkpt_faults {o : Lk} (hc : LaneClear s 7 false []) : Goes (.bkpt o) s (trapped s o.w (lenOf o.xl) false
    { faultAt .bkpt 0 (lanesUnder s 7 false) with data := (kNatural o).setWidth 64 }) :=
  goes_laneFault (h := hd o.w (lenOf o.xl) []) (exec_bkpt o s) rfl rfl rfl hc (by rw [← immOf_natural]; rfl)

theorem illegalWord_faults (w0 ext : Word) (r : Reason) :
    Goes (.illegalWord w0 ext r) s (trapped s false (if extFollows w0 then 8 else 4) false
      { faultAt .illegal 0 (if w0.getLsbD 31 then 0 else s.dev.cur.lanes) with
        sub := reasonCode r
        data := BitVec.ofNat 64 (w0.toNat + ext.toNat * 2 ^ 32) }) :=
  goes_run (exec_illegalWord w0 ext r s) (faulted_trapped false rfl)

/-- The fault of a fetch (R55, R218). -/
def fetchFaultAt (c : FetchCause) (addr : DWord) (all : Mask) : FaultInfo :=
  match c with
  | .xlate x => { faultAt .xlate addr all with sub := xlateCode x }
  | .perm => faultAt .perm addr all
  | .dataerr => faultAt .dataerr addr all

theorem fetchFaultAt_lanes (c : FetchCause) (addr : DWord) (all : Mask) : (fetchFaultAt c addr all).lanes = all := by
  cases c <;> rfl

/-- A fault of a bundle that neither runs ahead nor has its lowest thread in a region is taken (R448). -/
theorem faulted_taken {m : Mgmt} {d : Dev} {h : Hd} {f : FaultInfo} (hr : raOf (curSkein d) d.cur.lanes = none)
    (he : entryOf (curSkein d) f.lanes = none) :
    faulted m d h f = takeFault m d d.cur.skein d.cur.pc (nextPc d h.len) d.cur.lanes f := by
  simp only [curSkein] at hr he
  unfold faulted
  simp only [hr, he]
  cases f.cause == Cause.xlate && f.sub != xlateCode .noncanon <;> rfl

theorem fetchFault_faults (c : FetchCause) (addr : DWord) (hr : raOf (curSkein s.dev) s.dev.cur.lanes = none)
    (he : entryOf (curSkein s.dev) s.dev.cur.lanes = none) :
    Goes (.fetchFault c addr) s (trapped s false (if addr = s.dev.cur.pc then 4 else 8) false
      (fetchFaultAt c addr s.dev.cur.lanes)) := by
  refine goes_run (exec_fetchFault c addr s) ?_
  rw [trapped, faulted_taken hr (by rw [fetchFaultAt_lanes]; exact he)]
  simp only [hr, he, beq_iff_eq]
  cases c with
  | xlate x => cases x <;> rfl
  | perm => rfl
  | dataerr => rfl

end

/-- Settles O17: each clause is the lemma of its instruction or event. -/
theorem faultsInPlace : Obligations.FaultsInPlace := by
  intro s _ all
  exact ⟨fun o => bkpt_faults, illegalWord_faults, fun c addr hr he => fetchFault_faults c addr hr he⟩

end Sys2Proof.Machine
end

section
/-!
PROOFS. The frame of a step (R55, R74, R76, R89, R90, R456): what the device does next, the fetch of an instruction and of a word (R193).
-/

namespace Sys2Proof.Machine

/-! ## What the device does next -/

/-- The bundle that the age rotation picks where its count is reached (R90). -/
def rotated (k : Skein) : Option (Mask × DWord) := if 64 ≤ k.rot then oldBundle k else none

/-- The bundle of a skein that issues, and the device that serves it. -/
def servedBundle (k : Skein) : Mask × DWord := (rotated k).getD (lowBundle k)
def served (d : Dev) (q : Nat) (k : Skein) : Dev :=
  { d with
    turn := q + 1
    cur := { skein := k.uid, lanes := (servedBundle k).1, pc := (servedBundle k).2, rotate := (rotated k).isSome } }

/-- What a fetched bundle of a skein makes the device do. -/
def Todo.choice (u : Nat) : Todo → Choice
  | .wait n d => .quiet (parkFetch d u n)
  | .run i d => if raStops d i then .event (.runAheadEnd u) d else .issue i d

section
variable {m : Mgmt} {d : Dev}

theorem choose_event {e : Instr} {r : List Instr} (ha : d.agenda = e :: r) : choose m d = .event e { d with agenda := r } := by
  unfold choose
  simp only [ha]

theorem choose_quiet (ha : d.agenda = []) (hp : pickQuarter m d = none) : choose m d = .quiet (tick m d) := by
  unfold choose
  simp only [ha, hp]

variable {q : Nat} {k : Skein} {g : Group} (ha : d.agenda = []) (hp : pickQuarter m d = some (q, k, g))
include ha hp

theorem choose_rotation (hk : k.rot = 64) (ho : rotated k ≠ none) : choose m d = .event (.issueRotation k.uid) d := by
  obtain ⟨b, hb⟩ := Option.ne_none_iff_exists'.1 ho
  rw [rotated, hk] at hb
  unfold choose
  simp only [ha, hp, hk, hb]

theorem choose_served (hr : k.rot ≠ 64 ∨ rotated k = none) :
    choose m d = (fetchInstr m (served d q k) g (servedBundle k).2).choice k.uid := by
  unfold choose
  split
  · next e r he => cases ha.symm.trans he
  · simp only [hp]
    split
    · next b h64 hb => exact absurd h64 (hr.resolve_right (by rw [rotated, hb]; exact Option.some_ne_none b))
    · rfl

end

/-! ## A step -/

section
variable {s : State}

theorem step_event {e : Instr} {d : Dev} (h : choose s.mgmt s.dev.fresh = .event e d) (he : isWord e = false) :
    step s = exec e (s.dev' d) := by
  unfold step
  rw [h]
  exact if_neg (Bool.eq_false_iff.1 he)

theorem step_quiet {d : Dev} (h : choose s.mgmt s.dev.fresh = .quiet d) : step s = .next (s.dev' d) := by
  unfold step
  rw [h]
  rfl

/-- A fetched instruction runs, unless it ends a run-ahead, which then ends first (R456). -/
theorem step_run {u : Nat} {i : Instr} {d : Dev} (h : choose s.mgmt s.dev.fresh = Todo.choice u (.run i d)) :
    step s = if raStops d i then exec (.runAheadEnd u) (s.dev' d) else exec i (s.dev' d) := by
  rw [Todo.choice] at h
  cases hr : raStops d i
  · rw [hr, if_neg Bool.false_ne_true] at h
    rw [if_neg Bool.false_ne_true, step, h]
    rfl
  · rw [hr, if_pos rfl] at h
    rw [if_pos rfl, step_event h rfl]

end

/-! ## Fetch of an instruction (R55, R76) -/

section
variable {m : Mgmt} {d d1 : Dev} {g : Group} {pc : DWord} {w : Word}

theorem decoded_ok {i : Instr} {e : Word} (h : decodeWords (allocOf g) w e = .ok i) : decoded g w e = i := by
  rw [decoded, h]

theorem decoded_error {r : Reason} {e : Word} (h : decodeWords (allocOf g) w e = .error r) : decoded g w e = .illegalWord w e r := by
  rw [decoded, h]

theorem fetchInstr_fault {c : FetchCause} {a : DWord} (h : fetchWord m d g.ctx (spindleNo g) pc = .fault c a) :
    fetchInstr m d g pc = .run (.fetchFault c a) d := by
  simp only [fetchInstr, h]

theorem fetchInstr_wait {n : Need} (h : fetchWord m d g.ctx (spindleNo g) pc = .wait n) : fetchInstr m d g pc = .wait n d := by
  simp only [fetchInstr, h]

variable (h : fetchWord m d g.ctx (spindleNo g) pc = .word w d1)
include h

theorem fetchInstr_one (hx : extFollows w = false) : fetchInstr m d g pc = .run (decoded g w 0) d1 := by
  simp only [fetchInstr, h, hx, Bool.false_eq_true, if_false]

theorem fetchInstr_two {e : Word} {d2 : Dev} (hx : extFollows w = true)
    (h2 : fetchWord m d1 g.ctx (spindleNo g) (pc + 4) = .word e d2) : fetchInstr m d g pc = .run (decoded g w e) d2 := by
  simp only [fetchInstr, h, hx, if_true, h2]

theorem fetchInstr_ext_fault {c : FetchCause} {a : DWord} (hx : extFollows w = true)
    (h2 : fetchWord m d1 g.ctx (spindleNo g) (pc + 4) = .fault c a) : fetchInstr m d g pc = .run (.fetchFault c a) d1 := by
  simp only [fetchInstr, h, hx, if_true, h2]

theorem fetchInstr_ext_wait {n : Need} (hx : extFollows w = true)
    (h2 : fetchWord m d1 g.ctx (spindleNo g) (pc + 4) = .wait n) : fetchInstr m d g pc = .wait n d1 := by
  simp only [fetchInstr, h, hx, if_true, h2]

end

/-! ## Fetch of a word (R55, R193) -/

section
variable {m : Mgmt} {d : Dev} {ctx sp : Nat} {p : DWord}

theorem fetchWord_of_xlate {c : XlateCause} (h : locate m d ctx sp p = .error (.xlate c)) :
    fetchWord m d ctx sp p = .fault (.xlate c) p := by
  simp only [fetchWord, h]

variable {l : Leaf} {pa : Nat} (h : locate m d ctx sp p = .ok (l, pa))
include h

/-- A page that is writable or not executable is none to fetch from. -/
theorem fetchWord_of_perm (hl : l.w = true ∨ l.xn = true) : fetchWord m d ctx sp p = .fault .perm p := by
  have hl : (l.w || l.xn) = true := Bool.or_eq_true_iff.2 hl
  simp only [fetchWord, h, hl, if_true]

variable (hw : l.w = false) (hx : l.xn = false)
include hw hx

theorem fetchWord_of_load {x lat : Nat} {d1 : Dev} (hv : loadVia m d ctx sp p l pa 4 1 90 = .ok (x, d1, lat)) :
    fetchWord m d ctx sp p = .word (BitVec.ofNat 32 x) d1 := by
  simp only [fetchWord, h, hw, hx, Bool.or_self, Bool.false_eq_true, if_false, hv]

end

theorem claimWay_none {m : Mgmt} {d : Dev} {ctx sp pa k : Nat} {p : DWord} {l : Leaf} (he : emptyWay d sp (pa / 128) = none)
    (hn : waysAlong d sp (setOf (bitsOf p 7 41)) (pa / 128) = 0) : claimWay m d ctx sp p l pa k = .ok (d, false) := by
  simp only [claimWay, he, hn]
  rfl

/-- A load that acts under policy 0 or 1 of a line that the L1 holds with its words sound leaves the device as it is. -/
theorem loadAt_hit {m : Mgmt} {d : Dev} {ctx sp pa n pol k : Nat} {p : DWord} {l : Leaf} {c : L1Line} (hp : policyAt pol l false < 2)
    (hpeer : isPeer pa = false) (hit : l1Hit d sp (ctxAsid m ctx) (bitsOf p 7 41) = some c) (hs : c.stale = false)
    (hh : holds c (byteMask (pa % 128) n) = true) (hl : cleanLost d c (byteMask (pa % 128) n) = false) :
    loadAt m d ctx sp p l pa n pol k = .ok (takeBytes c.data (pa % 128) n, d, latL1) := by
  have hva : bitsOf p 7 41 % 2 ^ 41 = bitsOf p 7 41 := Nat.mod_mod _ _
  unfold loadAt
  simp only [hpeer, hva, hit, hs, hh, hl, Bool.false_eq_true, if_false, show policyAt pol l false ≠ 4 by omega,
    show policyAt pol l false ≠ 3 by omega, show policyAt pol l false ≠ 2 by omega, Bool.not_false, Bool.and_self, if_true]

/-- A word in a line that the spindle's L1 holds is read there, and the device stays as it is. -/
theorem fetchWord_of_hit {m : Mgmt} {d : Dev} {ctx sp pa : Nat} {p : DWord} {l : Leaf} {c : L1Line}
    (h : locate m d ctx sp p = .ok (l, pa)) (hw : l.w = false) (hx : l.xn = false)
    (he : emptyWay d sp (pa / 128) = none) (hn : waysAlong d sp (setOf (bitsOf p 7 41)) (pa / 128) = 0) (hpeer : isPeer pa = false)
    (hit : l1Hit d sp (ctxAsid m ctx) (bitsOf p 7 41) = some c) (hs : c.stale = false)
    (hh : holds c (byteMask (pa % 128) 4) = true) (hl : cleanLost d c (byteMask (pa % 128) 4) = false) :
    fetchWord m d ctx sp p = .word (BitVec.ofNat 32 (takeBytes c.data (pa % 128) 4)) d := by
  refine fetchWord_of_load h hw hx (lat := latL1) ?_
  have hp : policyAt 1 l false = 1 := rfl
  rw [loadVia, claimWay_none he hn]
  exact loadAt_hit (pol := 1) (by rw [hp]; decide) hpeer hit hs hh hl

/-! ## The statement -/

/-- A bundle that is served runs what its words come to, or waits for them. -/
theorem choose_of_fetchInstr {s : State} {q : Nat} {k : Skein} {g : Group} {t : Todo} (ha : s.dev.agenda = [])
    (hp : pickQuarter s.mgmt s.dev.fresh = some (q, k, g)) (hr : k.rot ≠ 64 ∨ rotated k = none)
    (hf : fetchInstr s.mgmt (served s.dev.fresh q k) g (servedBundle k).2 = t) :
    choose s.mgmt s.dev.fresh = t.choice k.uid := by
  rw [choose_served (d := s.dev.fresh) ha hp hr, hf]

/-- Settles O55: the device's next event, issue or cycle, the fetch of an instruction, and the fetch of a word. -/
theorem stepRunsDecoded : Obligations.StepRunsDecoded := by
  intro s m d
  refine ⟨fun e r ha he => step_event (choose_event ha) he, fun ha hp => step_quiet (choose_quiet ha hp), ?_, ?_⟩
  · intro q k g ha hp old b pc d1 fetch runs reads
    refine ⟨fun hk ho => step_event (choose_rotation ha hp hk ho) rfl, fun hr => ?_⟩
    have hrun {i : Instr} {d2 : Dev} (hf : fetchInstr m d1 g pc = .run i d2) : runs i d2 := step_run (choose_of_fetchInstr ha hp hr hf)
    have hwait {n : Need} {d2 : Dev} (hf : fetchInstr m d1 g pc = .wait n d2) : step s = .next { mgmt := m, dev := parkFetch d2 k.uid n } :=
      step_quiet (choose_of_fetchInstr ha hp hr hf)
    have hreads {w e : Word} {d2 : Dev} (hf : fetchInstr m d1 g pc = .run (decoded g w e) d2) : reads w e d2 :=
      ⟨fun i hi => hrun (decoded_ok hi ▸ hf), fun r hi => hrun (decoded_error hi ▸ hf)⟩
    exact ⟨fun c a h => hrun (fetchInstr_fault h), fun n h => hwait (fetchInstr_wait h), fun w d2 h =>
      ⟨fun hx => hreads (fetchInstr_one h hx), fun hx => ⟨fun c a h2 => hrun (fetchInstr_ext_fault h hx h2),
        fun n h2 => hwait (fetchInstr_ext_wait h hx h2), fun e d3 h2 => hreads (fetchInstr_two h hx h2)⟩⟩⟩
  · intro ctx sp p
    exact ⟨fun c => fetchWord_of_xlate, fun l pa h => ⟨fetchWord_of_perm h, fun hw hx => ⟨fun x d1 lat => fetchWord_of_load h hw hx,
      fun c he hn hpeer => fetchWord_of_hit h hw hx he hn hpeer⟩⟩⟩

end Sys2Proof.Machine
end

section
/-!
PROOFS. Special registers read by RDSR of the lane set and of the uniform set (R103, R104, R146, R166).
-/

namespace Sys2Proof.Machine
open Claims

theorem exec_rdsr (o : Lk) (s : State) : exec (.rdsr o) s = execRdsr o s := rfl
theorem exec_rdsrUniform (o : Lk) (s : State) : exec (.rdsrUniform o) s = execRdsrUniform o s := rfl

/-! ## Instructions that only put results in flight -/

section
variable {i : Instr} {s : State} {h : Hd} {lat : Nat} (hi : Issuing s) (he : h.ends = 0)
include hi he

/-- A lane instruction that puts each executing lane's results in flight and raises no flag (R108). -/
theorem laneRuns_quiet {f : Nat → List PWrite} {body : Mgmt → Dev → Mask → Dev → Res}
    (hx : exec i s = s.run fun m d => laneIssue m d h (body m d))
    (hb : ∀ ex da, body s.mgmt s.dev ex da = .done (addPend da s.dev.cur.skein lat ((lanesOf ex).flatMap f))) :
    LaneRuns i s h.p h.n h.len lat h.rds fun l => quiet (f l) := by
  intro hc
  have hd := laneIssue_done (body := body s.mgmt s.dev) hc (hb _ _)
  rw [inLanes_plain he] at hd
  simp only [quiet, ite_self]
  exact runs_of hx hd (issued_plain s h lat _ he hi)

/-- A uniform instruction without a guard that puts results in flight once and raises no flag (R155). -/
theorem uniRuns_quiet {ws : List PWrite} {body : Mgmt → Dev → Dev → Res}
    (hx : exec i s = s.run fun m d => uniIssue m d h (body m d)) (hp : h.p = 7) (hn : h.n = false)
    (hb : ∀ da, body s.mgmt s.dev da = .done (addPend da s.dev.cur.skein lat ws)) :
    UniRuns i s 7 false h.len lat h.rds (quiet ws) := by
  intro hc
  have hg : condUnder s h.p h.n = true := by rw [hp, hn]; exact condUnder_seven s
  have hd := uniIssue_done (body := body s.mgmt s.dev) (by rw [hp, hn]; exact hc) hg (hb _)
  simp only [quiet, ite_self, condUnder_seven, if_true]
  exact runs_of hx hd (issued_plain s h lat ws he hi)

end

/-! ## The values (R103) -/

theorem lkNat_eq (o : Lk) : lkNat o = (kNatural o).toNat := by
  cases h : o.xl with
  | some x => simp [lkNat, kNatural, h]
  | none =>
    have hk : o.k.toNat < 2 ^ 32 := o.k.isLt.trans (by decide)
    simp only [lkNat, kNatural, h, Option.map_none, Option.getD_none, BitVec.toNat_setWidth, Nat.mod_eq_of_lt hk]

theorem srRegs_eq (code : Nat) : srRegs code = if code ∈ [0x01, 0x0D, 0x10, 0x11, 0x16] then 2 else 1 := by
  simp only [srRegs, sr64, List.contains_iff_mem]

theorem srUndet_iff {code : Nat} : srUndet code = true ↔ code ∈ [0x16, 0x17, 0x18, 0x19] := List.contains_iff_mem

section
variable (m : Mgmt) (d : Dev) (l : Nat)

theorem specialReg_lane : specialReg m d l 0x00 = l := rfl
theorem specialReg_wid : specialReg m d l 0x01 = (threadOf (curSkein d) l).wid.toNat := rfl
theorem specialReg_skein : specialReg m d l 0x08 = (curSkein d).idx := rfl
theorem specialReg_group_low : specialReg m d l 0x09 = (curGroup d).index % 2 ^ 32 := rfl
theorem specialReg_group_high : specialReg m d l 0x0A = (curGroup d).index / 2 ^ 32 := rfl
theorem specialReg_stk : specialReg m d l 0x0D = (threadOf (curSkein d) l).stk.toNat := rfl
theorem specialReg_flags : specialReg m d l 0x0E = (threadOf (curSkein d) l).flags.toNat := rfl
theorem specialReg_fpmode : specialReg m d l 0x0F = (curSkein d).fpmode.toNat := rfl
theorem specialReg_gublock : specialReg m d l 0x11 = (curGroup d).gublock.toNat := rfl
theorem specialReg_nlt : specialReg m d l 0x12 = (ctxOf m (curGroup d).ctx).nlt.toNat % 2 ^ 32 :=
  congrArg (· % 2 ^ 32) (Nat.div_one _)
theorem specialReg_spindle : specialReg m d l 0x17 = (curGroup d).spindle := rfl
theorem specialReg_die : specialReg m d l 0x18 = (curGroup d).die := rfl
theorem specialReg_quarter : specialReg m d l 0x19 = (curSkein d).quarter := rfl
theorem specialReg_ctx : specialReg m d l 0x1A = (curGroup d).ctx := rfl

/-- A register's value by its number. -/
theorem specialReg_of {code c v : Nat} (h : specialReg m d l c = v) (hc : code = c) : specialReg m d l code = v := hc ▸ h

end

/-! ## The reads (R104, R146, R166) -/

section
variable {o : Lk} {s : State} (hi : Issuing s)
  (hr : ¬ (isDet s.mgmt (curCtx s.dev) = true ∧ (kNatural o).toNat ∈ [0x16, 0x17, 0x18, 0x19]))
include hr

/-- No deterministic context asks for a register that is not its own (R104). -/
theorem readable_of_not_undet : (isDet s.mgmt (curCtx s.dev) && srUndet (lkNat o)) = false := by
  rw [lkNat_eq, ← Bool.not_eq_true, Bool.and_eq_true, srUndet_iff]
  exact hr

include hi

theorem rdsr_runs : LaneRuns (.rdsr o) s 7 false (lenOf o.xl) 4 []
    fun l => quiet (splitRegs (wrV l) o.d.toNat (specialReg s.mgmt s.dev l (lkNat o)) (srRegs (lkNat o))) :=
  laneRuns_quiet (h := hd o.w (lenOf o.xl) []) hi rfl (exec_rdsr o s)
    fun ex da => by rw [readable_of_not_undet hr, if_neg Bool.false_ne_true]; rfl

theorem rdsrUniform_runs : UniRuns (.rdsrUniform o) s 7 false (lenOf o.xl) 2 []
    (quiet (splitRegs wrS o.d.toNat (specialReg s.mgmt s.dev ((lanesOf s.dev.cur.lanes).headD 0) (lkNat o)) (srRegs (lkNat o)))) :=
  uniRuns_quiet (h := hd o.w (lenOf o.xl) []) hi rfl (exec_rdsrUniform o s) rfl rfl
    fun da => by rw [readable_of_not_undet hr, if_neg Bool.false_ne_true]; rfl

end

/-- Settles O11: each RDSR puts its register's value in flight, and each value is that of the table. -/
theorem specialRegistersRead : Obligations.SpecialRegistersRead := by
  intro o s hi code n k g value
  refine ⟨fun hr => ?_, fun l => ?_⟩
  · have hreads := And.intro (rdsr_runs hi hr) (rdsrUniform_runs hi hr)
    rw [srRegs_eq, lkNat_eq] at hreads
    exact hreads
  · have named {c v : Nat} := specialReg_of s.mgmt s.dev l (code := code) (c := c) (v := v)
    exact ⟨named (specialReg_lane ..), named (specialReg_wid ..), named (specialReg_skein ..), named (specialReg_group_low ..),
      named (specialReg_group_high ..), named (specialReg_stk ..), named (specialReg_flags ..), named (specialReg_fpmode ..),
      named (specialReg_gublock ..), named (specialReg_nlt ..), named (specialReg_spindle ..), named (specialReg_die ..),
      named (specialReg_quarter ..), named (specialReg_ctx ..)⟩

end Sys2Proof.Machine
end

section
/-!
PROOFS. EXIT and the end of threads (R151, R460), REORDER and the order of its threads (R105, R152).
-/

namespace Sys2Proof.Machine

theorem exec_exit (o : Ln) (s : State) : exec (.exit o) s = execExit o s := rfl
theorem exec_reorder (o : Lr) (s : State) : exec (.reorder o) s = execReorder o s := rfl

/-! ## The device that an instruction begins with -/

section
variable (s : State) (w : Bool) (len : Nat) (brk : Bool)

theorem moved_eq : ∃ ks qs st, moved s w len brk = { s.dev with skeins := ks, quarters := qs, stalled := st } := by
  obtain ⟨ks, qs, st, he, -⟩ := advance_spec s.mgmt s.dev
    { w := w, len := len, p := 7, n := false, rds := [], ends := endsIf brk, fp64 := false }
  exact ⟨ks, qs, st, he⟩

theorem moved_mem : (moved s w len brk).mem = s.dev.mem := by
  obtain ⟨ks, qs, st, he⟩ := moved_eq s w len brk
  rw [he]

theorem moved_cur : (moved s w len brk).cur = s.dev.cur := by
  obtain ⟨ks, qs, st, he⟩ := moved_eq s w len brk
  rw [he]

theorem skein_moved_ne {v : Nat} (hv : v ≠ s.dev.cur.skein) : skein? (moved s w len brk) v = skein? s.dev v := by
  obtain ⟨-, -, -, -, ho, -⟩ := advance_spec s.mgmt s.dev
    { w := w, len := len, p := 7, n := false, rds := [], ends := endsIf brk, fp64 := false }
  exact ho v hv

variable {s}

theorem skein_moved_isSome (hi : Issuing s) : (skein? (moved s w len brk) s.dev.cur.skein).isSome = true := skein_advance_isSome hi

theorem skeinOf_moved_gid (hi : Issuing s) : (skeinOf (moved s w len brk) s.dev.cur.skein).gid = (curSkein s.dev).gid := by
  obtain ⟨-, -, -, -, -, -, hk⟩ := advance_spec s.mgmt s.dev
    { w := w, len := len, p := 7, n := false, rds := [], ends := endsIf brk, fp64 := false }
  have hmoved : curSkein (moved s w len brk) = advanced s.dev _ (curSkein s.dev) := hk hi
  rw [curSkein, moved_cur] at hmoved
  rw [hmoved, advanced_frame]

end

/-! ## The end of threads (R151) -/

/-- Whether a result goes to a register or a predicate of a lane of the mask. -/
def ofLanes (ls : Mask) : PWrite → Bool
  | .v l _ _ => ls.getLsbD l
  | .p l _ _ => ls.getLsbD l
  | _ => false

/-- A skein whose threads of a mask end: what is pending for them is dropped. -/
def ended (ls : Mask) (k : Skein) : Skein :=
  let k1 := modThreads k (lanesOf ls) fun _ t => { t with st := .exited, region := none }
  { k1 with pend := (k1.pend.map fun p => { p with ws := p.ws.filter fun w => !ofLanes ls w }).filter fun p => !p.ws.isEmpty }

theorem endThreads_eq (d : Dev) (u : Nat) (ls : Mask) : endThreads d u ls = modSkein
    (freeDsc d (skeinOf d u).gid ((lanesOf ls).map fun l => (threadOf (skeinOf d u) l).num0).contains) u (ended ls) := rfl

section
variable {ls : Mask} {k : Skein}

theorem ended_uid (k : Skein) : (ended ls k).uid = k.uid := modThreads_uid _ _ _

theorem ended_gid : (ended ls k).gid = k.gid := by rw [ended, modThreads_frame]

theorem threadOf_ended {l : Nat} (hl : l < 32) : threadOf (ended ls k) l =
    if ls.getLsbD l then { threadOf k l with st := .exited, region := none } else threadOf k l := threadOf_modLanes _ _ _ _ hl

theorem ofLanes_ended {p : Pend} {w : PWrite} (hp : p ∈ (ended ls k).pend) (hw : w ∈ p.ws) : ofLanes ls w = false := by
  obtain ⟨q, -, rfl⟩ := List.mem_map.1 (List.mem_of_mem_filter hp)
  simpa using (List.mem_filter.1 hw).2

end

section
variable {d : Dev} {u : Nat} (ls : Mask)

theorem endThreads_mem : (endThreads d u ls).mem = d.mem := by rw [endThreads_eq]; rfl

theorem skein_endThreads_ne {v : Nat} (hv : v ≠ u) : skein? (endThreads d u ls) v = skein? d v := by
  rw [endThreads_eq, skein_modSkein_ne _ ended_uid hv]; rfl

theorem skeinOf_endThreads (hu : (skein? d u).isSome = true) : skeinOf (endThreads d u ls) u = ended ls (skeinOf d u) := by
  rw [endThreads_eq]
  exact skeinOf_modSkein _ ended_uid hu

end

/-! ## What the end of threads lets complete (R460) -/

section
variable {m : Mgmt} {d : Dev} {gid : Nat}

theorem tryBarriers_of_none (h : (groupOf d gid).bars = []) : tryBarriers m d gid = .ok d := by
  rw [tryBarriers, h]; rfl

theorem tryReorder_of_not_ready (h : reorderReady d gid = false) : tryReorder m d gid = .ok d := by
  rw [tryReorder, h]; rfl

theorem tryReorder_of_loaded {l : Leaf} {pa x lat : Nat} {d1 : Dev} (hr : reorderReady d gid = true)
    (hp : checkPtr m d (groupOf d gid).ctx (spindleNo (groupOf d gid)) (groupOf d gid).gublock 64 4 false = .ok l pa)
    (hx : loadSpan m d (groupOf d gid).ctx (spindleNo (groupOf d gid)) (groupOf d gid).gublock 64 0 61 = .ok (x, d1, lat)) :
    tryReorder m d gid = .ok (reorderDone m d1 gid (some (BitVec.ofNat 512 x))) := by
  simp only [tryReorder, hr, hp, hx, Bool.not_true, Bool.false_eq_true, if_false]

theorem afterExit_of_nothing {u : Nat} (hg : (skeinOf d u).gid = gid) (hb : (groupOf (retireSkein d u) gid).bars = [])
    (hr : reorderReady (retireSkein d u) gid = false) : afterExit m d u = .ok (tryRetire (retireSkein d u) gid) := by
  simp only [afterExit, hg, tryBarriers_of_none hb, tryReorder_of_not_ready hr]
  rfl

end

/-! ## EXIT and REORDER -/

theorem exit_goes {s : State} {o : Ln} {d1 : Dev} (hc : UniClear s 7 false [])
    (h : afterExit s.mgmt (endThreads (moved s o.w 4 false) s.dev.cur.skein s.dev.cur.lanes) s.dev.cur.skein = .ok d1) :
    Goes (.exit o) s d1 :=
  goes_uniDone hc (h := hd o.w 4 []) (exec_exit o s) rfl rfl rfl rfl rfl (by simp only [hd, h])

/-- The device in which the threads of the bundle wait at a REORDER with their keys. -/
def reorderWaiting (s : State) (o : Lr) : Dev :=
  modSkein (moved s o.w (lenOf o.xm) false) s.dev.cur.skein fun k => modThreads k (lanesOf s.dev.cur.lanes) fun l t =>
    { t with pc := s.dev.cur.pc, st := .reorder (laneReader s.dev l o.a.toNat) (nextPc s.dev (lenOf o.xm)) }

theorem reorder_goes {s : State} {o : Lr} {d1 : Dev} (hc : LaneClear s (lrXm o 1).p (lrXm o 1).n [.v o.a 1])
    (h : tryReorder s.mgmt (reorderWaiting s o) (curSkein s.dev).gid = .ok d1) : Goes (.reorder o) s d1 :=
  goes_laneDone (h := hdXm o.w (lenOf o.xm) (lrXm o 1) [.v o.a 1]) (exec_reorder o s) rfl rfl rfl hc
    (by rw [reorderWaiting] at h; simp only [hdXm, h])

/-! ## The order of a reorder point (R105) -/

/-- The order of three keys that one number stands for. -/
theorem reorderKey_le {a b : Waiter105} (h : reorderKey a ≤ reorderKey b) : a.pc.toNat < b.pc.toNat ∨ (a.pc = b.pc ∧
    (a.key.toNat < b.key.toNat ∨ (a.key = b.key ∧ a.t.wid.toNat ≤ b.t.wid.toNat))) := by
  have hka := a.key.isLt
  have hkb := b.key.isLt
  have hwa := a.t.wid.isLt
  have hwb := b.t.wid.isLt
  unfold reorderKey at h
  obtain hpc | hpc | hpc := lt_trichotomy a.pc.toNat b.pc.toNat
  · exact .inl hpc
  · refine .inr ⟨BitVec.eq_of_toNat_eq hpc, ?_⟩
    obtain hkey | hkey | hkey := lt_trichotomy a.key.toNat b.key.toNat
    · exact .inl hkey
    · exact .inr ⟨BitVec.eq_of_toNat_eq hkey, by omega⟩
    · omega
  · omega

/-- The threads that wait at a point, in its order. -/
def sortedWaiters (d : Dev) (gid : Nat) : List Waiter105 := (reorderWaiters d gid).insertionSort fun a b => reorderKey a ≤ reorderKey b

theorem sortedWaiters_pairwise (d : Dev) (gid : Nat) : (sortedWaiters d gid).Pairwise fun a b => reorderKey a ≤ reorderKey b :=
  have : Std.Total fun a b : Waiter105 => reorderKey a ≤ reorderKey b := ⟨fun _ _ => le_total _ _⟩
  have : IsTrans Waiter105 fun a b => reorderKey a ≤ reorderKey b := ⟨fun _ _ _ => le_trans⟩
  List.pairwise_insertionSort _ _

/-! ## The statement -/

/-- Settles O42: EXIT is the end of its threads and what follows, REORDER the wait of its threads and the completion of the point, and the
point's order is that of a sort. -/
theorem exitAndReorder : Obligations.ExitAndReorder := by
  refine ⟨fun o s hi hc => ?_, fun o s hi hc => ?_, fun d gid => ?_⟩
  · intro m d u on gone
    have hon := skein_moved_isSome o.w 4 false hi
    have hgone : skeinOf gone u = ended d.cur.lanes (skeinOf on u) := skeinOf_endThreads _ hon
    have hgid : (skeinOf gone u).gid = (curSkein d).gid := by
      rw [hgone, ended_gid]; exact skeinOf_moved_gid o.w 4 false hi
    refine ⟨fun d1 => exit_goes hc, fun l hl => ?_, fun p hp w hw => ?_, ?_, fun v hv => ?_, fun hb hr => ?_⟩
    · rw [hgone]
      exact threadOf_ended hl
    · rw [hgone] at hp
      have hout := ofLanes_ended hp hw
      cases w with
      | v | p => exact hout
      | s | c | t => trivial
    · exact (endThreads_mem _).trans (moved_mem s o.w 4 false)
    · exact (skein_endThreads_ne _ hv).trans (skein_moved_ne s o.w 4 false hv)
    · exact exit_goes hc (afterExit_of_nothing hgid hb hr)
  · intro m d len gid waits g
    exact ⟨fun hr => reorder_goes hc (tryReorder_of_not_ready hr),
      fun l pa x lat d1 hr hp hx => reorder_goes hc (tryReorder_of_loaded hr hp hx)⟩
  · exact ⟨sortedWaiters d gid, List.perm_insertionSort _ _, (sortedWaiters_pairwise d gid).imp reorderKey_le, rfl⟩

end Sys2Proof.Machine
end

section
/-!
PROOFS. RESULT_WRITEBACK (R96, R98) and ISSUE_ROTATION (R90): what each changes of its skein.
-/

namespace Sys2Proof.Machine

theorem exec_resultWriteback (u n : Nat) (s : State) : exec (.resultWriteback u n) s = execResultWriteback u n s := rfl
theorem exec_issueRotation (u : Nat) (s : State) : exec (.issueRotation u) s = execIssueRotation u s := rfl

/-! ## An event of one skein -/

/-- The event answers a next state in which the skein `u` is `k`, and nothing else of the machine has changed. -/
def Leaves (i : Instr) (s : State) (u : Nat) (k : Skein) : Prop :=
  ∃ t, exec i s = .next t ∧ t.mgmt = s.mgmt ∧ t.dev = { s.dev with skeins := t.dev.skeins } ∧ skein? t.dev u = some k ∧
    ∀ v, v ≠ u → skein? t.dev v = skein? s.dev v

theorem leaves_of_modSkein {i : Instr} {s : State} {u : Nat} {k : Skein} {f : Skein → Skein} (hk : skein? s.dev u = some k)
    (hf : ∀ k, (f k).uid = k.uid) (hx : exec i s = s.run fun _ d => modSkein d u f) : Leaves i s u (f k) := by
  refine ⟨_, hx, rfl, rfl, ?_, fun v => skein_modSkein_ne f hf⟩
  show skein? (modSkein s.dev u f) u = some (f k)
  rw [skein_modSkein _ _ _ f hf, hk, Option.map_some, if_pos rfl]

/-! ## A result written (R96) -/

@[simp] theorem applyWrite_uid (k : Skein) (w : PWrite) : (applyWrite k w).uid = k.uid := by cases w <;> rfl

@[simp] theorem foldl_applyWrite_uid (ws : List PWrite) : ∀ k : Skein, (ws.foldl applyWrite k).uid = k.uid := by
  induction ws with
  | nil => exact fun _ => rfl
  | cons w ws ih => exact fun k => (ih (applyWrite k w)).trans (applyWrite_uid k w)

theorem regV_applyWrite {k : Skein} {l r : Nat} (x : Word) (hl : l < 32) (hr : r < 120) (i j : Nat) :
    regV (applyWrite k (.v l r x)) i j = if i = l ∧ j = r then x else regV k i j := by
  simp only [regV, applyWrite, modThread, threadOf_setThread k l i _ hl]
  by_cases hi : i = l
  · subst hi
    by_cases hj : j = r
    · simp [hj, hr]
    · simp [hj, Ne.symm hj]
  · simp [hi]

theorem regS_applyWrite {k : Skein} {r : Nat} (x : Word) (hr : r < 120) (j : Nat) :
    regS (applyWrite k (.s r x)) j = if j = r then x else regS k j := by
  by_cases hj : j = r
  · simp [regS, applyWrite, hj, hr]
  · simp [regS, applyWrite, hj, Ne.symm hj]

/-! ## A result leaves the results in flight (R98, R100) -/

/-- What an older result keeps when the result `p` of number `n` is written. -/
def superseded (p : Pend) (n : Nat) (q : Pend) : Pend :=
  if q.id < n then { q with ws := q.ws.filter fun w => !p.ws.any (sameDest w) } else q

@[simp] theorem superseded_id (p : Pend) (n : Nat) (q : Pend) : (superseded p n q).id = q.id := by unfold superseded; split <;> rfl
@[simp] theorem superseded_due (p : Pend) (n : Nat) (q : Pend) : (superseded p n q).due = q.due := by unfold superseded; split <;> rfl

theorem superseded_of_le {p q : Pend} {n : Nat} (h : n ≤ q.id) : superseded p n q = q := if_neg (Nat.not_lt.2 h)

theorem mem_superseded {p q : Pend} {n : Nat} {w : PWrite} (h : w ∈ (superseded p n q).ws) : w ∈ q.ws := by
  unfold superseded at h
  split at h
  · exact List.mem_of_mem_filter h
  · exact h

theorem sameDest_superseded {p q : Pend} {n : Nat} {w v : PWrite} (hq : q.id < n) (hw : w ∈ (superseded p n q).ws) (hv : v ∈ p.ws) :
    sameDest w v = false := by
  rw [superseded, if_pos hq] at hw
  have hn := (List.mem_filter.1 hw).2
  simp only [Bool.not_eq_true', List.any_eq_false] at hn
  exact Bool.eq_false_iff.2 (hn v hv)

section
variable {k : Skein} {n : Nat}

theorem writeBack_of_absent (h : ∀ p ∈ k.pend, p.id ≠ n) : writeBack k n = k := by
  have hn : k.pend.find? (fun p => p.id == n) = none := List.find?_eq_none.2 fun p hp => by simpa using h p hp
  rw [writeBack, hn]

theorem writeBack_of_found {p : Pend} (h : k.pend.find? (fun p => p.id == n) = some p) : writeBack k n =
    { p.ws.foldl applyWrite k with
      pend := ((k.pend.filter fun q => q.id != n).map (superseded p n)).filter fun q => !q.ws.isEmpty } := by
  rw [writeBack, h]
  rfl

theorem writeBack_uid (k : Skein) : (writeBack k n).uid = k.uid := by
  cases h : k.pend.find? fun p => p.id == n with
  | none => rw [writeBack, h]
  | some p => rw [writeBack_of_found h]; exact foldl_applyWrite_uid _ _

/-- The results in flight after a write-back are the others', without what it supersedes. -/
theorem mem_writeBack_pend {p q : Pend} (h : k.pend.find? (fun p => p.id == n) = some p) :
    q ∈ (writeBack k n).pend ↔ q.ws ≠ [] ∧ ∃ r ∈ k.pend, r.id ≠ n ∧ superseded p n r = q := by
  rw [writeBack_of_found h]
  simp only [List.mem_filter, List.mem_map, bne_iff_ne, and_assoc, Bool.not_eq_true', List.isEmpty_eq_false_iff]
  exact and_comm

end

/-! ## The turn of the rotation (R90) -/

/-- A skein whose rotation count is 64 has its turn marked. -/
def turnMarked (k : Skein) : Skein := if k.rot = 64 then { k with rot := 65 } else k

theorem turnMarked_uid (k : Skein) : (turnMarked k).uid = k.uid := by unfold turnMarked; split <;> rfl
theorem turnMarked_of_due {k : Skein} (h : k.rot = 64) : turnMarked k = { k with rot := 65 } := if_pos h
theorem turnMarked_of_not_due {k : Skein} (h : k.rot ≠ 64) : turnMarked k = k := if_neg h

/-! ## The statement -/

section
variable {s : State} {u n : Nat} {k : Skein} (hk : skein? s.dev u = some k)
include hk

theorem resultWriteback_leaves (n : Nat) : Leaves (.resultWriteback u n) s u (writeBack k n) :=
  leaves_of_modSkein hk (fun _ => writeBack_uid _) (exec_resultWriteback u n s)

theorem issueRotation_leaves : Leaves (.issueRotation u) s u (turnMarked k) :=
  leaves_of_modSkein hk turnMarked_uid (exec_issueRotation u s)

end

/-- Settles O43: the events are changes of one skein, a result is taken out of those in flight with what it supersedes, and a write of
one register leaves the others. -/
theorem resultsAndRotation : Obligations.ResultsAndRotation := by
  intro u n s k hk outcome
  refine ⟨fun ha => ?_, fun p hp => ⟨writeBack k n, resultWriteback_leaves hk n, ?_, ?_, ?_, ?_⟩, fun hr => ?_, fun hr => ?_,
    fun l r x hl hr i j _ _ => regV_applyWrite x hl hr i j, fun r x hr j _ => regS_applyWrite x hr j⟩
  · exact writeBack_of_absent ha ▸ resultWriteback_leaves hk n
  · rw [writeBack_of_found hp]
  · intro q hq
    obtain ⟨hne, r, hr, hid, rfl⟩ := (mem_writeBack_pend hp).1 hq
    exact ⟨by rwa [superseded_id], hne, r, hr, (superseded_id ..).symm, (superseded_due ..).symm, fun w => mem_superseded⟩
  · intro q hq hlt w hw v hv
    obtain ⟨-, r, -, -, rfl⟩ := (mem_writeBack_pend hp).1 hq
    exact sameDest_superseded (by rwa [superseded_id] at hlt) hw hv
  · intro q hq hne hlt
    exact (mem_writeBack_pend hp).2 ⟨hne, q, hq, hlt.ne', superseded_of_le hlt.le⟩
  · exact turnMarked_of_due hr ▸ issueRotation_leaves hk
  · have h := issueRotation_leaves hk
    rwa [turnMarked_of_not_due hr] at h

end Sys2Proof.Machine
end

section
/-!
PROOFS. The bundle of least program counter (R89) and the bundle that the age rotation picks (R90).
-/

namespace Sys2Proof.Machine

/-! ## Masks and their lanes -/

theorem exists_lane_of_ne_zero {m : Mask} (h : m ≠ 0) : ∃ l, l ∈ lanesOf m := by
  by_contra hn
  refine h (BitVec.eq_of_getLsbD_eq fun j hj => (Bool.eq_false_iff.2 fun hb => ?_).trans BitVec.getLsbD_zero.symm)
  exact hn ⟨j, mem_lanesOf.2 ⟨hj, hb⟩⟩

theorem ne_zero_of_mem_lanesOf {m : Mask} {l : Nat} (h : l ∈ lanesOf m) : m ≠ 0 := by
  rintro rfl
  simp [mem_lanesOf] at h

theorem mem_lanesOf_maskOf {f : Nat → Bool} {l : Nat} : l ∈ lanesOf (maskOf f) ↔ l < 32 ∧ f l = true := by
  rw [lanesOf_maskOf, List.mem_filter, List.mem_range]

/-! ## The first of the least, and the greatest -/

/-- Of two lanes the later one where its key is less. -/
def lesser (key : Nat → Nat) (o q : Nat) : Nat := if key q < key o then q else o

theorem lesser_spec (key : Nat → Nat) (o q : Nat) :
    (lesser key o q = o ∨ lesser key o q = q) ∧ key (lesser key o q) ≤ key o ∧ key (lesser key o q) ≤ key q := by
  unfold lesser
  split
  · exact ⟨.inr rfl, by omega, le_rfl⟩
  · exact ⟨.inl rfl, le_rfl, by omega⟩

theorem foldl_lesser_spec (key : Nat → Nat) (r : List Nat) : ∀ o : Nat,
    r.foldl (lesser key) o ∈ o :: r ∧ ∀ l ∈ o :: r, key (r.foldl (lesser key) o) ≤ key l := by
  induction r with
  | nil => simp
  | cons q r ih =>
    intro o
    obtain ⟨hm, hle⟩ := ih (lesser key o q)
    obtain ⟨hor, ho, hq⟩ := lesser_spec key o q
    have hfirst := hle _ List.mem_cons_self
    rw [List.foldl_cons]
    constructor
    · obtain he | he := List.mem_cons.1 hm
      · rw [he]
        obtain h | h := hor <;> simp [h]
      · exact List.mem_cons_of_mem _ (List.mem_cons_of_mem _ he)
    · intro l hl
      obtain rfl | hl := List.mem_cons.1 hl
      · exact hfirst.trans ho
      obtain rfl | hl := List.mem_cons.1 hl
      · exact hfirst.trans hq
      · exact hle l (List.mem_cons_of_mem _ hl)

theorem le_foldl_max (key : Nat → Nat) (r : List Nat) : ∀ a : Nat,
    a ≤ r.foldl (fun n l => max n (key l)) a ∧ ∀ l ∈ r, key l ≤ r.foldl (fun n l => max n (key l)) a := by
  induction r with
  | nil => simp
  | cons q r ih =>
    intro a
    obtain ⟨ha, hle⟩ := ih (max a (key q))
    rw [List.foldl_cons]
    refine ⟨(le_max_left _ _).trans ha, fun l hl => ?_⟩
    obtain rfl | hl := List.mem_cons.1 hl
    · exact (le_max_right _ _).trans ha
    · exact hle l hl

/-! ## The lane of least program counter, and a lane's bundle (R89) -/

section
variable {k : Skein} {ls : Mask} {l o : Nat}

theorem lowest_spec (h : l ∈ lanesOf ls) :
    lowest k ls ∈ lanesOf ls ∧ (threadOf k (lowest k ls)).pc.toNat ≤ (threadOf k l).pc.toNat := by
  unfold lowest
  cases hls : lanesOf ls with
  | nil => rw [hls] at h; cases h
  | cons a r =>
    rw [hls] at h
    obtain ⟨hm, hle⟩ := foldl_lesser_spec (fun l => (threadOf k l).pc.toNat) r a
    exact ⟨hm, hle l h⟩

theorem mem_bundleOf : l ∈ lanesOf (bundleOf k ls o) ↔ l ∈ lanesOf ls ∧ (threadOf k l).pc = (threadOf k o).pc := by
  rw [bundleOf, mem_lanesOf_maskOf, mem_lanesOf, Bool.and_eq_true, beq_iff_eq, and_assoc]

theorem mem_lowBundle : l ∈ lanesOf (lowBundle k).1 ↔ l ∈ lanesOf (readyMask k) ∧ (threadOf k l).pc = (lowBundle k).2 := mem_bundleOf

theorem lowBundle_le (h : l ∈ lanesOf (readyMask k)) : (lowBundle k).2.toNat ≤ (threadOf k l).pc.toNat := (lowest_spec h).2

theorem lowBundle_ne_zero (h : readyMask k ≠ 0) : (lowBundle k).1 ≠ 0 := by
  obtain ⟨l, hl⟩ := exists_lane_of_ne_zero h
  exact ne_zero_of_mem_lanesOf (mem_bundleOf.2 ⟨(lowest_spec hl).1, rfl⟩)

end

/-! ## The bundle of the rotation (R90) -/

/-- The threads that may issue outside the bundle of least program counter. -/
def otherLanes (k : Skein) : Mask := readyMask k &&& ~~~(lowBundle k).1

/-- The time of the oldest last issue of the lanes of a mask, its lanes of that time, and the lowest of these. -/
def oldestLast (k : Skein) (ls : Mask) : Nat :=
  (lanesOf ls).foldl (fun n l => min n (threadOf k l).last) ((lanesOf ls).foldl (fun n l => max n (threadOf k l).last) 0)
def oldestLanes (k : Skein) (ls : Mask) : Mask := maskOf fun l => ls.getLsbD l && (threadOf k l).last == oldestLast k ls
def oldestLane (k : Skein) (ls : Mask) : Nat := lowest k (oldestLanes k ls)

theorem oldBundle_eq (k : Skein) : oldBundle k = if otherLanes k = 0 then none
    else some (bundleOf k (otherLanes k) (oldestLane k (otherLanes k)), (threadOf k (oldestLane k (otherLanes k))).pc) := by
  by_cases h : otherLanes k = 0
  · rw [if_pos h]; exact if_pos (beq_iff_eq.2 h)
  · rw [if_neg h]; exact if_neg (mt beq_iff_eq.1 h)

theorem mem_otherLanes {k : Skein} {l : Nat} :
    l ∈ lanesOf (otherLanes k) ↔ l ∈ lanesOf (readyMask k) ∧ (lowBundle k).1.getLsbD l = false := by
  simp only [mem_lanesOf, otherLanes, BitVec.getLsbD_and, BitVec.getLsbD_not, Bool.and_eq_true, Bool.not_eq_true', decide_eq_true_eq]
  constructor
  · rintro ⟨h32, hr, -, hl⟩; exact ⟨⟨h32, hr⟩, hl⟩
  · rintro ⟨⟨h32, hr⟩, hl⟩; exact ⟨h32, hr, h32, hl⟩

section
variable {k : Skein} {ls : Mask}

/-- The oldest time is that of some lane, and no lane's is older. -/
theorem oldestLast_spec (h : ls ≠ 0) :
    (∃ o ∈ lanesOf ls, (threadOf k o).last = oldestLast k ls) ∧ ∀ l ∈ lanesOf ls, oldestLast k ls ≤ (threadOf k l).last := by
  let key (l : Nat) : Nat := (threadOf k l).last
  obtain ⟨a, ha⟩ := exists_lane_of_ne_zero h
  obtain ⟨b, r, hls⟩ := List.exists_cons_of_ne_nil (List.ne_nil_of_mem ha)
  obtain ⟨hm, hle⟩ := foldl_lesser_spec key r b
  rw [← hls] at hm hle
  have hmin : oldestLast k ls = key (r.foldl (lesser key) b) :=
    foldl_min_eq key _ _ _ hle ((le_foldl_max key _ 0).2 _ hm) (.inr ⟨_, hm, rfl⟩)
  rw [hmin]
  exact ⟨⟨_, hm, rfl⟩, hle⟩

theorem mem_oldestLanes {l : Nat} : l ∈ lanesOf (oldestLanes k ls) ↔ l ∈ lanesOf ls ∧ (threadOf k l).last = oldestLast k ls := by
  rw [oldestLanes, mem_lanesOf_maskOf, mem_lanesOf, Bool.and_eq_true, beq_iff_eq, and_assoc]

/-- No lane has gone longer without issuing than the oldest one, nor as long at a lower program counter. -/
theorem oldestLane_spec (h : ls ≠ 0) : oldestLane k ls ∈ lanesOf ls ∧ ∀ l ∈ lanesOf ls,
    (threadOf k (oldestLane k ls)).last ≤ (threadOf k l).last ∧ ((threadOf k (oldestLane k ls)).last = (threadOf k l).last →
      (threadOf k (oldestLane k ls)).pc.toNat ≤ (threadOf k l).pc.toNat) := by
  obtain ⟨⟨a, ha, hlast⟩, hle⟩ := oldestLast_spec (k := k) h
  obtain ⟨hm, ho⟩ := mem_oldestLanes.1 (lowest_spec (k := k) (mem_oldestLanes.2 ⟨ha, hlast⟩)).1
  refine ⟨hm, fun l hl => ⟨ho.trans_le (hle l hl), fun he => (lowest_spec (mem_oldestLanes.2 ⟨hl, ?_⟩)).2⟩⟩
  exact he.symm.trans ho

end

theorem otherLanes_of_oldBundle_none {k : Skein} (h : oldBundle k = none) : otherLanes k = 0 := by
  rw [oldBundle_eq] at h
  by_contra hn
  rw [if_neg hn] at h
  cases h

/-- The bundle of the rotation holds the other lanes at its address, one of which no other lane is older than. -/
theorem oldBundle_spec {k : Skein} {b : Mask} {pc : DWord} (h : oldBundle k = some (b, pc)) :
    (∀ l, l ∈ lanesOf b ↔ l ∈ lanesOf (otherLanes k) ∧ (threadOf k l).pc = pc) ∧ ∃ o ∈ lanesOf b, ∀ l ∈ lanesOf (otherLanes k),
      (threadOf k o).last ≤ (threadOf k l).last ∧ ((threadOf k o).last = (threadOf k l).last → pc.toNat ≤ (threadOf k l).pc.toNat) := by
  rw [oldBundle_eq] at h
  split at h
  · cases h
  · next hn =>
    cases h
    obtain ⟨ho, hold⟩ := oldestLane_spec (k := k) hn
    exact ⟨fun l => mem_bundleOf, _, mem_bundleOf.2 ⟨ho, rfl⟩, hold⟩

/-! ## The statement -/

/-- Settles O54: the lowest lane's bundle, and that of the lane that has gone longest without issuing among the others. -/
theorem bundleChoice : Obligations.BundleChoice := by
  intro k ls low
  refine ⟨lowBundle_ne_zero, fun l hl hb => ?_, fun l hl hr hp => ?_, fun l hl hr => lowBundle_le (mem_lanesOf.2 ⟨hl, hr⟩),
    otherLanes_of_oldBundle_none, fun b pc h => ?_⟩
  · obtain ⟨hr, hp⟩ := mem_lowBundle.1 (mem_lanesOf.2 ⟨hl, hb⟩)
    exact ⟨(mem_lanesOf.1 hr).2, hp⟩
  · exact (mem_lanesOf.1 (mem_lowBundle.2 ⟨mem_lanesOf.2 ⟨hl, hr⟩, hp⟩)).2
  · obtain ⟨hmem, o, ho, hold⟩ := oldBundle_spec h
    obtain ⟨ho32, hob⟩ := mem_lanesOf.1 ho
    refine ⟨ne_zero_of_mem_lanesOf ho, ?_, fun l hl hb => ?_, o, ho32, hob,
      fun l hl hr hnl => hold l (mem_otherLanes.2 ⟨mem_lanesOf.2 ⟨hl, hr⟩, hnl⟩)⟩
    · by_contra hne
      obtain ⟨l, hl⟩ := exists_lane_of_ne_zero hne
      obtain ⟨h32, hboth⟩ := mem_lanesOf.1 hl
      obtain ⟨hb, hlow⟩ := Bool.and_eq_true_iff.1 (BitVec.getLsbD_and.symm.trans hboth)
      obtain ⟨hother, -⟩ := (hmem l).1 (mem_lanesOf.2 ⟨h32, hb⟩)
      exact Bool.false_ne_true ((mem_otherLanes.1 hother).2.symm.trans hlow)
    · obtain ⟨hother, hp⟩ := (hmem l).1 (mem_lanesOf.2 ⟨hl, hb⟩)
      exact ⟨(mem_lanesOf.1 (mem_otherLanes.1 hother).1).2, hp⟩

end Sys2Proof.Machine
end

section
/-!
PROOFS. Values of registers (R107, R109): the patterns and integers of a type, naturals and integers in the machine, words in the
statements.
-/

namespace Sys2Proof.Machine
open Claims

/-- The types whose values fill their registers: the integer types of R112 and the 64-bit pattern. -/
def Filling (ty : BitVec 4) : Prop := ty = 0 ∨ ty = 1 ∨ ty = 2 ∨ ty = 3 ∨ ty = 14

theorem intType_cases {ty : BitVec 4} (h : intType ty) : ty = 0 ∨ ty = 1 ∨ ty = 2 ∨ ty = 3 := by
  have key : ∀ t : BitVec 4, t.toNat < 4 → t = 0 ∨ t = 1 ∨ t = 2 ∨ t = 3 := by decide
  exact key ty h

theorem filling_of_intType {ty : BitVec 4} (h : intType ty) : Filling ty := by
  rcases intType_cases h with rfl | rfl | rfl | rfl
  · exact .inl rfl
  · exact .inr (.inl rfl)
  · exact .inr (.inr (.inl rfl))
  · exact .inr (.inr (.inr (.inl rfl)))

theorem filling_of_bitType {ty : BitVec 4} (h : bitType ty) : Filling ty := by
  rcases h with rfl | rfl
  · exact .inl rfl
  · exact .inr (.inr (.inr (.inr rfl)))

section
variable {ty : BitVec 4} (h : Filling ty)
include h

theorem tyBits_eq_width : tyBits ty = width ty := by
  rcases h with rfl | rfl | rfl | rfl | rfl <;> rfl

theorem regPattern_eq (x : Nat) : regPattern ty x = x % 2 ^ width ty := by
  rcases h with rfl | rfl | rfl | rfl | rfl <;> rfl

theorem tyRegs_eq : tyRegs ty = if wide ty then 2 else 1 := by
  rcases h with rfl | rfl | rfl | rfl | rfl <;> rfl

end

theorem width_of_wide {ty : BitVec 4} (h : wide ty = true) : width ty = 64 := if_pos h
theorem width_of_narrow {ty : BitVec 4} (h : wide ty = false) : width ty = 32 := if_neg (Bool.eq_false_iff.1 h)

theorem width_le (ty : BitVec 4) : width ty ≤ 64 := by unfold width; split <;> decide
theorem width_pos (ty : BitVec 4) : 0 < width ty := by unfold width; split <;> decide

/-! ### Patterns -/

theorem res1_eq_putWord (wr : Writer) (r : BitVec 7) (x : Nat) : res1 wr r x = putWord wr r (BitVec.ofNat 32 x) := rfl

/-- A pattern put into the registers of a type is told by its low bits. -/
theorem putBits_congr {wr : Writer} {r : BitVec 7} {ty : BitVec 4} {x y : DWord}
    (h : x.toNat % 2 ^ width ty = y.toNat % 2 ^ width ty) : putBits wr r ty x = putBits wr r ty y := by
  unfold putBits
  cases hw : wide ty
  · rw [width_of_narrow hw] at h
    have hxy : x.extractLsb' 0 32 = y.extractLsb' 0 32 := BitVec.eq_of_toNat_eq (by simpa using h)
    simp only [hxy, Bool.false_eq_true, if_false]
  · rw [width_of_wide hw, Nat.mod_eq_of_lt x.isLt, Nat.mod_eq_of_lt y.isLt] at h
    rw [BitVec.eq_of_toNat_eq h]

theorem resOf_eq_putBits {ty : BitVec 4} (h : Filling ty) (wr : Writer) (r : BitVec 7) (x : Nat) :
    resOf wr r ty x = putBits wr r ty (BitVec.ofNat 64 x) := by
  rw [resOf, regPattern_eq h, tyRegs_eq h]
  cases hw : wide ty
  · have hx : BitVec.ofNat 32 (x % 2 ^ 32) = (BitVec.ofNat 64 x).extractLsb' 0 32 :=
      BitVec.eq_of_toNat_eq (by simp only [BitVec.toNat_ofNat, BitVec.extractLsb'_toNat, Nat.shiftRight_zero]; omega)
    rw [width_of_narrow hw, putBits, hw]
    simp only [Bool.false_eq_true, if_false, splitRegs, putWord, hx]
  · rw [width_of_wide hw, putBits, hw, if_pos rfl, if_pos rfl, ← splitRegs_pair, BitVec.toNat_ofNat]

/-- Two patterns with the same low bits give the same result. -/
theorem resOf_eq_of_toNat {ty : BitVec 4} (h : Filling ty) {wr : Writer} {r : BitVec 7} {x : Nat} {y : DWord}
    (hxy : x % 2 ^ width ty = y.toNat % 2 ^ width ty) : resOf wr r ty x = putBits wr r ty y := by
  rw [resOf_eq_putBits h]
  refine putBits_congr ?_
  rw [BitVec.toNat_ofNat, Nat.mod_mod_of_dvd _ (Nat.pow_dvd_pow 2 (width_le ty)), hxy]

theorem patOf_eq_getBits {ty : BitVec 4} (h : Filling ty) (rd : Reader) (r : BitVec 7) : patOf rd r ty = (getBits rd r ty).toNat := by
  rw [patOf, tyBits_eq_width h, tyRegs_eq h, getBits]
  cases hw : wide ty
  · have hr : (rd r.toNat).toNat < 2 ^ 32 := (rd r.toNat).isLt
    simp only [Bool.false_eq_true, if_false, joinRegs, width_of_narrow hw, BitVec.toNat_setWidth]
    omega
  · have hp := congrArg BitVec.toNat (getBits_pair rd r)
    rw [BitVec.toNat_ofNat] at hp
    simp only [if_true, width_of_wide hw]
    exact hp.symm

theorem getBits_lt (rd : Reader) (r : BitVec 7) (ty : BitVec 4) : (getBits rd r ty).toNat < 2 ^ width ty := by
  cases hw : wide ty
  · rw [width_of_narrow hw, getBits, hw]
    simp only [Bool.false_eq_true, if_false, BitVec.toNat_setWidth]
    have := (rd r.toNat).isLt
    omega
  · rw [width_of_wide hw]
    exact (getBits rd r ty).isLt

/-! ### Integers -/

theorem wrapInt_eq_toNat (w : Nat) (x : Int) : wrapInt w x = (BitVec.ofInt w x).toNat := by
  rw [wrapInt, BitVec.toNat_ofInt]
  norm_cast

theorem readInt_unsigned {w x : Nat} (h : x < 2 ^ w) : readInt w false x = x := by
  simp [readInt, Nat.mod_eq_of_lt h]

theorem readInt_signed {w : Nat} (x : BitVec w) : readInt w true x.toNat = x.toInt := by
  rw [readInt, BitVec.toInt_eq_toNat_cond, Nat.mod_eq_of_lt x.isLt]
  cases w with
  | zero => simp [BitVec.of_length_zero]
  | succ n =>
    have hp : 2 ^ (n + 1) = 2 * 2 ^ n := by rw [pow_succ, Nat.mul_comm]
    by_cases h : 2 ^ n ≤ x.toNat
    · have h2 : ¬ 2 * x.toNat < 2 ^ (n + 1) := by omega
      simp [h, h2]
    · have h2 : 2 * x.toNat < 2 ^ (n + 1) := by omega
      simp [h, h2]

theorem intOf_eq_intVal {ty : BitVec 4} (h : intType ty) (rd : Reader) (r : BitVec 7) : intOf rd r ty = intVal rd r ty := by
  have narrow (sg : Bool) : readInt 32 sg ((rd r.toNat).setWidth 64).toNat = readInt 32 sg (rd r.toNat).toNat := by
    rw [BitVec.toNat_setWidth, Nat.mod_eq_of_lt ((rd r.toNat).isLt.trans (by decide))]
  rw [intOf, patOf_eq_getBits (filling_of_intType h)]
  rcases intType_cases h with rfl | rfl | rfl | rfl
  · exact (narrow true).trans (readInt_signed _)
  · exact (narrow false).trans (readInt_unsigned (rd r.toNat).isLt)
  · exact readInt_signed (rd (r.toNat + 1) ++ rd r.toNat)
  · exact readInt_unsigned (rd (r.toNat + 1) ++ rd r.toNat).isLt

theorem clampInt_eq_max_min {lo hi : Int} (h : lo ≤ hi) (x : Int) : clampInt lo hi x = max lo (min hi x) := by
  unfold clampInt
  split
  · omega
  · split <;> omega

/-- The bounds of an integer type (R107, R112). -/
theorem clampInt_type {ty : BitVec 4} (h : intType ty) (x : Int) :
    clampInt (intMin (tyBits ty) (tySigned ty)) (intMax (tyBits ty) (tySigned ty)) x = clampTo ty x := by
  rcases intType_cases h with rfl | rfl | rfl | rfl <;> exact clampInt_eq_max_min (by decide) x

/-- An integer wrapped to a type (R107). -/
theorem resOf_wrapInt {ty : BitVec 4} (h : Filling ty) (wr : Writer) (r : BitVec 7) (x : Int) :
    resOf wr r ty (wrapInt (tyBits ty) x) = putInt wr r ty x := by
  refine resOf_eq_of_toNat h ?_
  rw [tyBits_eq_width h, wrapInt, BitVec.toNat_ofInt]
  cases hw : wide ty
  · rw [width_of_narrow hw]; omega
  · rw [width_of_wide hw]; omega

/-- An exact integer, clamped where it saturates, wrapped otherwise (R114). -/
theorem intRes_eq_putInt {ty : BitVec 4} (h : intType ty) (wr : Writer) (r : BitVec 7) (sat : Bool) (x : Int) :
    intRes wr r ty sat x = putInt wr r ty (if sat then clampTo ty x else x) := by
  rw [intRes, resOf_wrapInt (filling_of_intType h), clampInt_type h]

theorem ofNat_wrapInt (x : Int) : BitVec.ofNat 32 (wrapInt 32 x) = BitVec.ofInt 32 x := by
  rw [wrapInt_eq_toNat, BitVec.ofNat_toNat, BitVec.setWidth_eq]

theorem res1_wrapInt (wr : Writer) (r : BitVec 7) (x : Int) : res1 wr r (wrapInt 32 x) = putWord wr r (BitVec.ofInt 32 x) := by
  rw [res1_eq_putWord, ofNat_wrapInt]

/-- The integers that a type holds. -/
def InType (ty : BitVec 4) (x : Int) : Prop := intMin (tyBits ty) (tySigned ty) ≤ x ∧ x ≤ intMax (tyBits ty) (tySigned ty)

theorem clampTo_of_inType {ty : BitVec 4} (h : intType ty) {x : Int} (hx : InType ty x) : clampTo ty x = x := by
  obtain ⟨hlo, hhi⟩ := hx
  rw [← clampInt_type h, clampInt, if_neg (Int.not_lt.2 hlo), if_neg (Int.not_lt.2 hhi)]

theorem intVal_inType {ty : BitVec 4} (h : intType ty) (rd : Reader) (r : BitVec 7) : InType ty (intVal rd r ty) := by
  have signed {w : Nat} (x : BitVec w) (hw : 0 < w) : -(2 ^ (w - 1) : Int) ≤ x.toInt ∧ x.toInt ≤ 2 ^ (w - 1) - 1 :=
    ⟨BitVec.le_toInt x, Int.le_sub_one_of_lt (BitVec.toInt_lt)⟩
  have natural {w : Nat} (x : BitVec w) : (0 : Int) ≤ x.toNat ∧ (x.toNat : Int) ≤ 2 ^ w - 1 :=
    ⟨Int.natCast_nonneg _, Int.le_sub_one_of_lt (by exact_mod_cast x.isLt)⟩
  rcases intType_cases h with rfl | rfl | rfl | rfl
  · exact signed (rd r.toNat) (by decide)
  · exact natural (rd r.toNat)
  · exact signed (rd (r.toNat + 1) ++ rd r.toNat) (by decide)
  · exact natural (rd (r.toNat + 1) ++ rd r.toNat)

/-- The lesser and the greater of two integers of a type, and the high half of their product, are of the type. -/
theorem InType.min {ty : BitVec 4} {a b : Int} (ha : InType ty a) (hb : InType ty b) : InType ty (min a b) :=
  ⟨le_min ha.1 hb.1, (min_le_left _ _).trans ha.2⟩
theorem InType.max {ty : BitVec 4} {a b : Int} (ha : InType ty a) (hb : InType ty b) : InType ty (max a b) :=
  ⟨ha.1.trans (le_max_left _ _), max_le ha.2 hb.2⟩

theorem InType.mulHigh {ty : BitVec 4} (h : intType ty) {a b : Int} (ha : InType ty a) (hb : InType ty b) :
    InType ty (a * b / 2 ^ width ty) := by
  have signed (n : Int) (hn : 0 < n) (ha : -n ≤ a ∧ a ≤ n - 1) (hb : -n ≤ b ∧ b ≤ n - 1) :
      -n ≤ a * b / (2 * n) ∧ a * b / (2 * n) ≤ n - 1 := by
    have hab : |a * b| ≤ n * n := by
      rw [abs_mul]
      exact mul_le_mul (abs_le.2 ⟨ha.1, by omega⟩) (abs_le.2 ⟨hb.1, by omega⟩) (abs_nonneg b) hn.le
    obtain ⟨hlo, hhi⟩ := abs_le.1 hab
    exact ⟨Int.le_ediv_of_mul_le (by omega) (by nlinarith), Int.le_sub_one_of_lt (Int.ediv_lt_of_lt_mul (by omega) (by nlinarith))⟩
  have natural (n : Int) (hn : 0 < n) (ha : 0 ≤ a ∧ a ≤ n - 1) (hb : 0 ≤ b ∧ b ≤ n - 1) : 0 ≤ a * b / n ∧ a * b / n ≤ n - 1 :=
    ⟨Int.ediv_nonneg (mul_nonneg ha.1 hb.1) hn.le, Int.le_sub_one_of_lt (Int.ediv_lt_of_lt_mul hn (by nlinarith))⟩
  rcases intType_cases h with rfl | rfl | rfl | rfl
  · exact signed (2 ^ 31) (by decide) ha hb
  · exact natural (2 ^ 32) (by decide) ha hb
  · exact signed (2 ^ 63) (by decide) ha hb
  · exact natural (2 ^ 64) (by decide) ha hb

/-! ### Copies -/

theorem joinRegs_lt (rd : Nat → Word) (n : Nat) : ∀ r, joinRegs rd r n < 2 ^ (32 * n) := by
  induction n with
  | zero => intro r; simp [joinRegs]
  | succ n ih =>
    intro r
    have h0 := (rd r).isLt
    have h1 := ih (r + 1)
    have hp : 2 ^ (32 * (n + 1)) = 2 ^ 32 * 2 ^ (32 * n) := by rw [← Nat.pow_add]; congr 1; omega
    rw [joinRegs, hp]
    nlinarith

/-- Registers joined and cut again are copied. -/
theorem splitRegs_joinRegs (rd : Reader) (wr : Writer) (n : Nat) : ∀ a r,
    splitRegs wr r (joinRegs rd a n) n = (List.range n).map fun i => wr (r + i) (rd (a + i)) := by
  induction n with
  | zero => exact fun a r => rfl
  | succ n ih =>
    intro a r
    have h0 := (rd a).isLt
    have hlow : BitVec.ofNat 32 ((rd a).toNat + 2 ^ 32 * joinRegs rd (a + 1) n) = rd a :=
      BitVec.eq_of_toNat_eq (by rw [BitVec.toNat_ofNat]; omega)
    have hhigh : ((rd a).toNat + 2 ^ 32 * joinRegs rd (a + 1) n) / 2 ^ 32 = joinRegs rd (a + 1) n := by omega
    rw [joinRegs, splitRegs, hlow, hhigh, ih, List.range_succ_eq_map, List.map_cons, List.map_map]
    simp only [Function.comp_def, Nat.add_zero, Nat.succ_eq_add_one, Nat.add_assoc, Nat.add_comm 1]

/-- The pattern of one, two or four whole registers, put where it is copied to (R109, R124). -/
theorem resOf_patOf {ty : BitVec 4} (h : bitType ty ∨ ty = 15) (rd : Reader) (wr : Writer) (a r : BitVec 7) :
    resOf wr r ty (patOf rd a ty) = copyRegs rd wr a r (tyRegs ty) := by
  have hbits : tyBits ty = 32 * tyRegs ty := by rcases h with (rfl | rfl) | rfl <;> rfl
  have hreg (x : Nat) : regPattern ty x = x % 2 ^ tyBits ty := by rcases h with (rfl | rfl) | rfl <;> rfl
  rw [resOf, hreg, patOf, hbits, Nat.mod_mod, Nat.mod_eq_of_lt (joinRegs_lt rd _ _), splitRegs_joinRegs, copyRegs]

end Sys2Proof.Machine
end

section
/-!
PROOFS. Lane integer arithmetic (R113 to R115): exact results of the operations on integers of a type.
-/

namespace Sys2Proof.Machine
open Claims

/-! ## Lane instructions that compute values -/

section
variable {i : Instr} {s : State} {h : Hd} {lat : Nat} (hi : Issuing s) (hends : h.ends = 0)
include hi hends

/-- A lane instruction whose results have the values `g` (R108). -/
theorem laneRuns_of_values {f : Nat → Reader → Writer → List PWrite × FFlags} {g : Nat → List PWrite × FFlags}
    (he : exec i s = .next { s with dev := laneAlu s.mgmt s.dev h lat f }) (hv : ∀ l, f l (laneReader s.dev l) (wrV l) = g l) :
    LaneRuns i s h.p h.n h.len lat h.rds g := (laneRuns_alu hi hends he).congr hv

/-- The same of one that raises no flag. -/
theorem laneRuns_of_ints {f : Reader → Writer → List PWrite} {g : Nat → List PWrite}
    (he : exec i s = .next { s with dev := laneInt s.mgmt s.dev h lat f }) (hv : ∀ l, f (laneReader s.dev l) (wrV l) = g l) :
    LaneRuns i s h.p h.n h.len lat h.rds fun l => quiet (g l) :=
  laneRuns_of_values hi hends he fun l => congrArg quiet (hv l)

end

/-- The reads of an instruction, written otherwise. -/
theorem LaneRuns.reads {i : Instr} {s : State} {p : BitVec 3} {n : Bool} {len lat : Nat} {r q : List Rd}
    {f : Nat → List PWrite × FFlags} (h : LaneRuns i s p n len lat r f) (hr : r = q) : LaneRuns i s p n len lat q f := hr ▸ h

/-! ## Values (R114, R115) -/

section
variable {o : Lr} (hty : intType (lrXm o 0).ty) (rd : Reader) (wr : Writer)
include hty

theorem intBin_eq (f : Int → Int → Int) : intBin f o rd wr = putInt wr o.d (lrXm o 0).ty
    (if (lrXm o 0).sat then clampTo (lrXm o 0).ty (f (intVal rd o.a (lrXm o 0).ty) (intVal rd o.b (lrXm o 0).ty))
      else f (intVal rd o.a (lrXm o 0).ty) (intVal rd o.b (lrXm o 0).ty)) := by
  simp only [intBin, intRes_eq_putInt hty, intOf_eq_intVal hty]

/-- An operation whose results are of the type needs no clamp. -/
theorem intBin_of_inType {f g : Int → Int → Int} (hf : ∀ a b, f a b = g a b)
    (hg : ∀ a b, InType (lrXm o 0).ty a → InType (lrXm o 0).ty b → InType (lrXm o 0).ty (g a b)) :
    intBin f o rd wr = putInt wr o.d (lrXm o 0).ty (g (intVal rd o.a (lrXm o 0).ty) (intVal rd o.b (lrXm o 0).ty)) := by
  rw [intBin_eq hty, hf, clampTo_of_inType hty (hg _ _ (intVal_inType hty rd o.a) (intVal_inType hty rd o.b)), ite_self]

theorem intBin_min : intBin min o rd wr =
    putInt wr o.d (lrXm o 0).ty (min (intVal rd o.a (lrXm o 0).ty) (intVal rd o.b (lrXm o 0).ty)) :=
  intBin_of_inType hty rd wr (fun _ _ => rfl) fun _ _ => InType.min

theorem intBin_max : intBin max o rd wr =
    putInt wr o.d (lrXm o 0).ty (max (intVal rd o.a (lrXm o 0).ty) (intVal rd o.b (lrXm o 0).ty)) :=
  intBin_of_inType hty rd wr (fun _ _ => rfl) fun _ _ => InType.max

theorem intBin_mulHigh : intBin (mulHigh (lrXm o 0).ty) o rd wr = putInt wr o.d (lrXm o 0).ty
    (intVal rd o.a (lrXm o 0).ty * intVal rd o.b (lrXm o 0).ty / 2 ^ width (lrXm o 0).ty) :=
  intBin_of_inType hty rd wr (g := fun a b => a * b / 2 ^ width (lrXm o 0).ty)
    (fun a b => by rw [mulHigh, tyBits_eq_width (filling_of_intType hty)]) fun _ _ => InType.mulHigh hty

theorem intMad_eq : intMad o rd wr = putInt wr o.d (lrXm o 0).ty
    (if (lrXm o 0).sat then clampTo (lrXm o 0).ty (intVal rd o.a (lrXm o 0).ty * intVal rd o.b (lrXm o 0).ty +
        intVal rd (lrXm o 0).c (lrXm o 0).ty)
      else intVal rd o.a (lrXm o 0).ty * intVal rd o.b (lrXm o 0).ty + intVal rd (lrXm o 0).c (lrXm o 0).ty) := by
  simp only [intMad, intRes_eq_putInt hty, intOf_eq_intVal hty]

end

/-- Quotient and remainder on the integers of a type (R115). -/
theorem divInt_eq {ty : BitVec 4} (h : intType ty) (r : Bool) (a b : Int) :
    divInt (tyBits ty) (tySigned ty) r a b = if r then rema ty a b else quot ty a b := by
  rcases intType_cases h with rfl | rfl | rfl | rfl <;> cases r <;>
    simp [divInt, rema, quot, tyBits, tySigned, intMin]

theorem intDiv_eq {o : Lr} (hty : intType (lrXm o 0).ty) (rd : Reader) (wr : Writer) : intDiv o rd wr = putInt wr o.d (lrXm o 0).ty
    (if (lrXm o 0).opx = 1 then rema (lrXm o 0).ty (intVal rd o.a (lrXm o 0).ty) (intVal rd o.b (lrXm o 0).ty)
      else quot (lrXm o 0).ty (intVal rd o.a (lrXm o 0).ty) (intVal rd o.b (lrXm o 0).ty)) := by
  simp only [intDiv, intRes_eq_putInt hty, intOf_eq_intVal hty, divInt_eq hty, Bool.false_eq_true, if_false, beq_iff_eq]

/-- K read as signed (R113). -/
theorem immOf_signed (o : Lk) : immOf o true = kSigned o := by
  cases h : o.xl <;> simp [immOf, kSigned, h]

theorem res1_toNat (wr : Writer) (r : BitVec 7) (x : Word) : res1 wr r x.toNat = putWord wr r x := by
  rw [res1_eq_putWord, BitVec.ofNat_toNat, BitVec.setWidth_eq]

theorem intAddK_eq (o : Lk) (rd : Reader) (wr : Writer) : intAddK o rd wr = putWord wr o.d (rd o.a.toNat + kSigned o) := by
  rw [intAddK, immOf_signed, res1_eq_putWord, BitVec.ofNat_add, BitVec.ofNat_toNat, BitVec.ofNat_toNat, BitVec.setWidth_eq,
    BitVec.setWidth_eq]

/-! ## The statement -/

/-- Settles O1: each instruction puts the value of its operation. -/
theorem laneIntegerArithmetic : Obligations.LaneIntegerArithmetic := by
  refine ⟨fun o s hi hty => ?_, fun o s hi => ⟨?_, ?_⟩⟩
  · have two {i : Instr} {lat : Nat} {f : Reader → Writer → List PWrite} {g : Nat → List PWrite}
        (he : exec i s = .next { s with dev := laneInt s.mgmt s.dev (hdAB false o 0) lat f })
        (hv : ∀ l, f (laneReader s.dev l) (wrV l) = g l) :=
      laneRuns_of_ints (h := hdAB false o 0) hi rfl he hv
    exact ⟨two rfl fun l => intBin_eq hty _ _ _, two rfl fun l => intBin_eq hty _ _ _, two rfl fun l => intBin_eq hty _ _ _,
      two rfl fun l => intBin_mulHigh hty _ _, two rfl fun l => intBin_min hty _ _, two rfl fun l => intBin_max hty _ _,
      two rfl fun l => intDiv_eq hty _ _,
      laneRuns_of_ints (h := hdABC false o 0) hi rfl rfl fun l => intMad_eq hty _ _⟩
  · exact laneRuns_of_ints (h := hdK false o) hi rfl rfl fun l => intAddK_eq o _ _
  · exact laneRuns_of_ints (h := hd o.w (lenOf o.xl) []) hi rfl rfl fun l => by rw [immOf_signed, res1_toNat]

end Sys2Proof.Machine
end

section
/-!
PROOFS. Lane logic, shifts, counts, bit fields and address forms (R116 to R121): the machine's naturals and the bits that the rules name.
-/

namespace Sys2Proof.Machine
open Claims

/-! ## Naturals and their bits -/

/-- The natural whose bits below `n` are `p`. -/
def bitsNat (n : Nat) (p : Nat → Bool) : Nat := ((List.range n).map fun i => if p i then 2 ^ i else 0).sum

theorem bitsNat_succ (n : Nat) (p : Nat → Bool) : bitsNat (n + 1) p = bitsNat n p + if p n then 2 ^ n else 0 := by
  simp [bitsNat, List.range_succ]

theorem bitsNat_lt (n : Nat) (p : Nat → Bool) : bitsNat n p < 2 ^ n := by
  induction n with
  | zero => simp [bitsNat]
  | succ n ih => rw [bitsNat_succ, pow_succ]; split <;> omega

theorem testBit_bitsNat (n : Nat) (p : Nat → Bool) (j : Nat) : (bitsNat n p).testBit j = (decide (j < n) && p j) := by
  induction n with
  | zero => simp [bitsNat]
  | succ n ih =>
    have hlt := bitsNat_lt n p
    have hadd : bitsNat (n + 1) p = 2 ^ n * (p n).toNat + bitsNat n p := by
      rw [bitsNat_succ, Nat.add_comm]; cases p n <;> simp
    rw [hadd, Nat.testBit_two_pow_mul_add _ hlt, Nat.testBit_bool_toNat, ih]
    rcases Nat.lt_trichotomy j n with h | rfl | h
    · simp [h, Nat.lt_succ_of_lt h]
    · simp
    · have h0 : j - n ≠ 0 := by omega
      have h1 : ¬ j < n := by omega
      have h2 : ¬ j < n + 1 := by omega
      simp [h0, h1, h2]

theorem getLsbD_ofNat_bitsNat (w : Nat) (p : Nat → Bool) (j : Nat) :
    (BitVec.ofNat w (bitsNat w p)).getLsbD j = (decide (j < w) && p j) := by
  rw [BitVec.getLsbD_ofNat, testBit_bitsNat, ← Bool.and_assoc, Bool.and_self]

/-! ## Logic (R116) -/

theorem andNot_eq {w : Nat} (x y : BitVec w) : andNot x.toNat y.toNat = (x &&& ~~~y).toNat := by
  have h : x &&& ~~~y = x ^^^ (x &&& y) := by
    ext i hi
    simp only [BitVec.getElem_and, BitVec.getElem_not, BitVec.getElem_xor]
    cases x[i] <;> cases y[i] <;> rfl
  rw [h, BitVec.toNat_xor, BitVec.toNat_and, andNot]

section
variable {o : Lr} (hty : bitType (lrXm o 0).ty) (rd : Reader) (wr : Writer)
include hty

theorem bitBin_eq {f : Nat → Nat → Nat} {g : DWord → DWord → DWord} (hf : ∀ x y : DWord, f x.toNat y.toNat = (g x y).toNat) :
    bitBin f o rd wr = putBits wr o.d (lrXm o 0).ty (g (getBits rd o.a (lrXm o 0).ty) (getBits rd o.b (lrXm o 0).ty)) := by
  have ht := filling_of_bitType hty
  simp only [bitBin, patOf_eq_getBits ht, hf]
  exact resOf_eq_of_toNat ht rfl

end

theorem bitK_eq (o : Lk) (rd : Reader) (wr : Writer) {f : Nat → Nat → Nat} {g : Word → Word → Word}
    (hf : ∀ x y : Word, f x.toNat y.toNat = (g x y).toNat) : bitK f o rd wr = putWord wr o.d (g (rd o.a.toNat) (kNatural o)) := by
  rw [bitK, immOf_natural, hf, res1_toNat]

/-! ## Shifts (R117) -/

theorem shlNat_eq {w : Nat} (x : BitVec w) (n : Nat) : shlNat w x.toNat n = (if w ≤ n then 0 else x <<< n).toNat := by
  unfold shlNat
  split
  · simp
  · rw [BitVec.toNat_shiftLeft, Nat.shiftLeft_eq]

theorem shrNat_eq {w : Nat} (x : BitVec w) (n : Nat) : shrNat w x.toNat n = (if w ≤ n then 0 else x >>> n).toNat := by
  unfold shrNat
  split
  · simp
  · rw [BitVec.toNat_ushiftRight, Nat.shiftRight_eq_div_pow]

/-- The sign of a value fills its shift from the width on. -/
theorem toInt_ediv_pow {w : Nat} (x : BitVec w) {n : Nat} (h : w ≤ n) : x.toInt / 2 ^ n = if x.toInt < 0 then -1 else 0 := by
  have hp : (2 : Int) ^ w ≤ 2 ^ n := pow_le_pow_right₀ (by decide) h
  have hlo := BitVec.le_two_mul_toInt (x := x)
  have hhi := BitVec.two_mul_toInt_lt (x := x)
  split
  · exact (Int.ediv_eq_iff_of_pos (by positivity)).2 ⟨by omega, by omega⟩
  · exact Int.ediv_eq_zero_of_lt (by omega) (by omega)

theorem sarNat_eq {w : Nat} (x : BitVec w) (n : Nat) : sarNat w x.toNat n = (x.sshiftRight n).toNat := by
  have h : x.toInt / 2 ^ min n w = x.toInt / 2 ^ n := by
    rcases Nat.le_total n w with hn | hn
    · rw [Nat.min_eq_left hn]
    · rw [Nat.min_eq_right hn, toInt_ediv_pow x le_rfl, toInt_ediv_pow x hn]
  rw [sarNat, readInt_signed, wrapInt_eq_toNat, BitVec.sshiftRight, Int.shiftRight_eq_div_pow]
  exact_mod_cast congrArg (fun z => (BitVec.ofInt w z).toNat) h


/-- The shifts on the registers of a type. -/
theorem shl_toNat_mod (ty : BitVec 4) (x : DWord) (n : Nat) :
    shlNat (width ty) x.toNat n % 2 ^ width ty = (shl ty x n).toNat % 2 ^ width ty := by
  unfold shlNat shl
  split
  · rfl
  · rw [BitVec.toNat_shiftLeft, Nat.shiftLeft_eq, Nat.mod_mod, Nat.mod_mod_of_dvd _ (Nat.pow_dvd_pow 2 (width_le ty))]

theorem shr_toNat (ty : BitVec 4) (x : DWord) (n : Nat) : shrNat (width ty) x.toNat n = (shr ty x n).toNat := by
  unfold shrNat shr
  split
  · rfl
  · rw [BitVec.toNat_ushiftRight, Nat.shiftRight_eq_div_pow]

theorem readInt_mod (w : Nat) (sg : Bool) (x : Nat) : readInt w sg (x % 2 ^ w) = readInt w sg x := by
  simp only [readInt, Nat.mod_mod]

theorem sar_toNat (ty : BitVec 4) (x : DWord) (n : Nat) : sarNat (width ty) x.toNat n = (sar ty x n).toNat := by
  cases hw : wide ty
  · rw [width_of_narrow hw, sar, hw, if_neg Bool.false_ne_true, sarNat, ← readInt_mod]
    have h := sarNat_eq (x.extractLsb' 0 32) n
    have h32 := ((x.extractLsb' 0 32).sshiftRight n).isLt
    rw [sarNat] at h
    rw [BitVec.toNat_setWidth, Nat.mod_eq_of_lt (h32.trans (by decide)), ← h, BitVec.extractLsb'_toNat, Nat.shiftRight_zero]
  · rw [width_of_wide hw, sar, hw, if_pos rfl, sarNat_eq]

theorem shiftR_eq {o : Lr} (hty : bitType (lrXm o 0).ty) (rd : Reader) (wr : Writer) {f : Nat → Nat → Nat → Nat}
    {g : BitVec 4 → DWord → Nat → DWord} (hf : ∀ (ty : BitVec 4) (x : DWord) (n : Nat),
      f (width ty) x.toNat n % 2 ^ width ty = (g ty x n).toNat % 2 ^ width ty) :
    shiftR f o rd wr =
      putBits wr o.d (lrXm o 0).ty (g (lrXm o 0).ty (getBits rd o.a (lrXm o 0).ty) (rd o.b.toNat).toNat) := by
  have ht := filling_of_bitType hty
  simp only [shiftR, tyBits_eq_width ht, patOf_eq_getBits ht]
  exact resOf_eq_of_toNat ht (hf _ _ _)

theorem shiftK_eq (o : Lk) (rd : Reader) (wr : Writer) {f : Nat → Nat → Nat → Nat} {g : Word → Nat → Word}
    (hf : ∀ (x : Word) (n : Nat), f 32 x.toNat n = (g x n).toNat) :
    shiftK f o rd wr = putWord wr o.d (g (rd o.a.toNat) (kNatural o).toNat) := by
  rw [shiftK, immOf_natural, hf, res1_toNat]

/-! ## Counts and reversal (R118) -/

theorem popNat_eq (w : Nat) : ∀ x, popNat w x = (List.range w).countP fun i => x.testBit i := by
  induction w with
  | zero => exact fun _ => rfl
  | succ w ih =>
    intro x
    have hs : (fun i => (x / 2).testBit i) = (fun i => x.testBit i) ∘ Nat.succ := by
      funext i; simp [Nat.testBit_succ]
    rw [popNat, ih, hs, List.range_succ_eq_map, List.countP_cons, List.countP_map, Nat.add_comm, Nat.testBit_zero]
    rcases Nat.mod_two_eq_zero_or_one x with h | h <;> simp [h]

theorem revNat_eq (w : Nat) : ∀ x, revNat w x = bitsNat w fun i => x.testBit (w - 1 - i) := by
  induction w with
  | zero => exact fun _ => rfl
  | succ w ih =>
    intro x
    have hs : bitsNat w (fun i => (x / 2).testBit (w - 1 - i)) = bitsNat w fun i => x.testBit (w - i) := by
      unfold bitsNat
      congr 1
      refine List.map_congr_left fun i hi => ?_
      have h : w - i = w - 1 - i + 1 := by have := List.mem_range.1 hi; omega
      simp only [h, Nat.testBit_succ]
    rw [revNat, ih, hs, bitsNat_succ, Nat.add_sub_cancel, Nat.sub_self, Nat.testBit_zero, Nat.add_comm]
    rcases Nat.mod_two_eq_zero_or_one x with h | h <;> simp [h]

/-- The zeros above the highest one. -/
theorem clzNat_eq {w x : Nat} (h : x < 2 ^ w) : clzNat w x = ((List.range w).find? fun i => x.testBit (w - 1 - i)).getD w := by
  unfold clzNat bitLen
  by_cases h0 : x = 0
  · have hn : (List.range w).find? (fun i => x.testBit (w - 1 - i)) = none := by simp [h0]
    rw [if_pos h0, hn]
    rfl
  · have hl : x.log2 < w := (Nat.log2_lt h0).2 h
    have hf : (List.range w).find? (fun i => x.testBit (w - 1 - i)) = some (w - (x.log2 + 1)) := by
      rw [List.find?_range_eq_some]
      refine ⟨?_, List.mem_range.2 (by omega), fun j hj => ?_⟩
      · rw [show w - 1 - (w - (x.log2 + 1)) = x.log2 by omega]
        exact Nat.testBit_log2 h0
      · rw [Nat.testBit_lt_two_pow ((Nat.log2_lt h0).1 (by omega : x.log2 < w - 1 - j))]
        rfl
    rw [if_neg h0, hf]
    rfl

section
variable {o : Lr} (hty : bitType (lrXm o 0).ty) (rd : Reader) (wr : Writer)
include hty

theorem popc_eq : count1 popNat o rd wr =
    putWord wr o.d (BitVec.ofNat 32 (ones (width (lrXm o 0).ty) (getBits rd o.a (lrXm o 0).ty))) := by
  have ht := filling_of_bitType hty
  simp only [count1, tyBits_eq_width ht, patOf_eq_getBits ht, popNat_eq, BitVec.testBit_toNat, ones, res1_eq_putWord]

theorem clz_eq : count1 clzNat o rd wr =
    putWord wr o.d (BitVec.ofNat 32 (zerosAbove (width (lrXm o 0).ty) (getBits rd o.a (lrXm o 0).ty))) := by
  have ht := filling_of_bitType hty
  simp only [count1, tyBits_eq_width ht, patOf_eq_getBits ht, clzNat_eq (getBits_lt rd o.a _), BitVec.testBit_toNat, zerosAbove,
    res1_eq_putWord]

theorem brev_eq : bitRev o rd wr =
    putBits wr o.d (lrXm o 0).ty (reversed (width (lrXm o 0).ty) (getBits rd o.a (lrXm o 0).ty)) := by
  have ht := filling_of_bitType hty
  simp only [bitRev, tyBits_eq_width ht, patOf_eq_getBits ht, revNat_eq, BitVec.testBit_toNat, resOf_eq_putBits ht]
  rfl

end

/-! ## Bit fields (R119, R120) -/

theorem bfeNat_eq (signed : Bool) (a b : Word) :
    BitVec.ofNat 32 (bfeNat signed a.toNat b.toNat) = extractField signed a b := by
  have hread : readInt 32 signed a.toNat = if signed then a.toInt else (a.toNat : Int) := by
    cases signed
    · exact readInt_unsigned a.isLt
    · exact readInt_signed a
  unfold bfeNat extractField
  simp only [hread]
  generalize (if signed then a.toInt else (a.toNat : Int)) / 2 ^ (b.toNat % 256) = x
  generalize min (b.toNat / 256 % 256) 32 = len
  by_cases hl : len = 0
  · simp [hl]
  · have hpos : (0 : Int) < 2 ^ len := by positivity
    have hf : ((wrapInt len x : Nat) : Int) = x % 2 ^ len := Int.toNat_of_nonneg (Int.emod_nonneg _ hpos.ne')
    have hlt : wrapInt len x < 2 ^ len := by
      have := Int.emod_lt_of_pos x hpos
      exact_mod_cast hf ▸ this
    have hle : (2 ^ (len - 1) ≤ wrapInt len x) ↔ ((2 : Int) ^ (len - 1) ≤ x % 2 ^ len) := by rw [← hf]; norm_cast
    rw [if_neg hl, if_neg hl, ofNat_wrapInt, readInt, Nat.mod_eq_of_lt hlt, hf]
    simp only [Bool.and_eq_true, decide_eq_true_eq, hle]

theorem testBit_andNot (x y j : Nat) : (andNot x y).testBit j = (x.testBit j && !y.testBit j) := by
  rw [andNot, Nat.testBit_xor, Nat.testBit_and]
  cases x.testBit j <;> cases y.testBit j <;> rfl

/-- The bits of a field of `len` bits moved to `pos`. -/
theorem testBit_field (a len pos j : Nat) : (a % 2 ^ len * 2 ^ pos % 2 ^ 32).testBit j =
    (decide (j < 32) && (decide (pos ≤ j) && (decide (j < pos + len) && a.testBit (j - pos)))) := by
  rw [Nat.testBit_mod_two_pow, Nat.mul_comm, Nat.testBit_two_pow_mul, Nat.testBit_mod_two_pow]
  by_cases h : pos ≤ j
  · have hj : j - pos < len ↔ j < pos + len := by omega
    simp only [hj]
  · simp [h]

theorem testBit_fieldMask (len pos j : Nat) : ((2 ^ len - 1) * 2 ^ pos % 2 ^ 32).testBit j =
    (decide (j < 32) && (decide (pos ≤ j) && decide (j < pos + len))) := by
  rw [Nat.testBit_mod_two_pow, Nat.mul_comm, Nat.testBit_two_pow_mul, Nat.testBit_two_pow_sub_one]
  by_cases h : pos ≤ j
  · have hj : j - pos < len ↔ j < pos + len := by omega
    simp only [hj]
  · simp [h]

theorem bfiNat_eq (a b c : Word) : BitVec.ofNat 32 (bfiNat a.toNat b.toNat c.toNat) = insertField a b c := by
  refine BitVec.eq_of_getLsbD_eq fun j hj => ?_
  unfold insertField
  simp only
  rw [BitVec.getLsbD_ofNat, decide_eq_true hj, Bool.true_and]
  refine Eq.trans ?_ (getLsbD_ofNat_bitsNat 32 _ j).symm
  unfold bfiNat
  simp only [show (2 : Nat) ^ 8 = 256 from rfl]
  generalize b.toNat % 256 = pos
  generalize min (b.toNat / 256 % 256) 32 = len
  rw [decide_eq_true hj, Bool.true_and]
  split
  · next h =>
    have hout : ¬ (pos ≤ j ∧ j < pos + len) := by
      simp only [Bool.or_eq_true, decide_eq_true_eq] at h
      omega
    rw [if_neg hout, BitVec.testBit_toNat]
  · rw [Nat.testBit_or, testBit_andNot, testBit_fieldMask, testBit_field, decide_eq_true hj]
    by_cases hin : pos ≤ j ∧ j < pos + len
    · simp [hin.1, hin.2, BitVec.testBit_toNat]
    · rw [if_neg hin]
      rcases not_and_or.1 hin with h | h <;> simp [h, BitVec.testBit_toNat]

/-! ## Address forms (R121) -/

theorem leaRes_eq {o : Lr} (hty : bitType (lrXm o 0).ty) (rd : Reader) (wr : Writer) : leaRes o rd wr =
    putBits wr o.d (lrXm o 0).ty (getBits rd o.a (lrXm o 0).ty + BitVec.ofInt 64
      ((if (lrXm o 0).opx.getLsbD 5 then (rd o.b.toNat).toInt else ((rd o.b.toNat).toNat : Int)) *
        2 ^ bitsOf (lrXm o 0).opx 0 5)) := by
  have ht := filling_of_bitType hty
  have hread : readInt 32 ((lrXm o 0).opx.getLsbD 5) (rd o.b.toNat).toNat =
      if (lrXm o 0).opx.getLsbD 5 then (rd o.b.toNat).toInt else ((rd o.b.toNat).toNat : Int) := by
    cases (lrXm o 0).opx.getLsbD 5
    · exact readInt_unsigned (rd o.b.toNat).isLt
    · exact readInt_signed _
  simp only [leaRes, hread, patOf_eq_getBits ht, resOf_wrapInt ht, putInt, BitVec.ofInt_add, BitVec.ofInt_natCast,
    BitVec.ofNat_toNat, BitVec.setWidth_eq]

end Sys2Proof.Machine

/-! ## The statement -/

namespace Sys2Proof.Claims
open Machine

/-- Settles O2: each instruction puts the value of its operation, on the type's width or with K. -/
theorem laneBits : Obligations.LaneBits := by
  refine ⟨fun o s hi hty => ?_, fun o s hi => ?_, fun o s hi => ?_⟩
  · have bits {i : Instr} {f : Reader → Writer → List PWrite} {g : Nat → List PWrite}
        (he : exec i s = .next { s with dev := laneInt s.mgmt s.dev (hdAB false o 0) latAlu f })
        (hv : ∀ l, f (laneReader s.dev l) (wrV l) = g l) := laneRuns_of_ints (h := hdAB false o 0) hi rfl he hv
    have shift {i : Instr} {f : Reader → Writer → List PWrite} {g : Nat → List PWrite}
        (he : exec i s = .next { s with dev := laneInt s.mgmt s.dev (hdAB1 false o 0) latAlu f })
        (hv : ∀ l, f (laneReader s.dev l) (wrV l) = g l) := laneRuns_of_ints (h := hdAB1 false o 0) hi rfl he hv
    exact ⟨bits rfl fun l => bitBin_eq hty _ _ fun _ _ => rfl, bits rfl fun l => bitBin_eq hty _ _ fun _ _ => rfl,
      bits rfl fun l => bitBin_eq hty _ _ fun _ _ => rfl, bits rfl fun l => bitBin_eq hty _ _ (g := fun x y => x &&& ~~~y) andNot_eq,
      shift rfl fun l => shiftR_eq hty _ _ shl_toNat_mod, shift rfl fun l => shiftR_eq hty _ _ fun ty x n => by rw [shr_toNat],
      shift rfl fun l => shiftR_eq hty _ _ fun ty x n => by rw [sar_toNat]⟩
  · have one {i : Instr} {f : Reader → Writer → List PWrite} {g : Nat → List PWrite}
        (he : exec i s = .next { s with dev := laneInt s.mgmt s.dev (hdK false o) latAlu f })
        (hv : ∀ l, f (laneReader s.dev l) (wrV l) = g l) := laneRuns_of_ints (h := hdK false o) hi rfl he hv
    exact ⟨one rfl fun l => bitK_eq o _ _ fun _ _ => rfl, one rfl fun l => bitK_eq o _ _ fun _ _ => rfl,
      one rfl fun l => bitK_eq o _ _ fun _ _ => rfl, one rfl fun l => shiftK_eq o _ _ shlNat_eq,
      one rfl fun l => shiftK_eq o _ _ shrNat_eq, one rfl fun l => shiftK_eq o _ _ sarNat_eq⟩
  · refine ⟨fun hty => ?_, fun hty => ?_, fun hty => ?_⟩
    · have one {i : Instr} {f : Reader → Writer → List PWrite} {g : Nat → List PWrite}
          (he : exec i s = .next { s with dev := laneInt s.mgmt s.dev (hdA false o 0) latAlu f })
          (hv : ∀ l, f (laneReader s.dev l) (wrV l) = g l) := laneRuns_of_ints (h := hdA false o 0) hi rfl he hv
      exact ⟨one rfl fun l => popc_eq hty _ _, one rfl fun l => clz_eq hty _ _, one rfl fun l => brev_eq hty _ _,
        laneRuns_of_ints (h := hdAB1 false o 0) hi rfl rfl fun l => leaRes_eq hty _ _⟩
    · have hregs : tyRegs (lrXm o 0).ty = 1 := by rw [hty]; rfl
      exact (laneRuns_of_ints (h := hdABC false o 0) hi rfl rfl fun l => congrArg (putWord (wrV l) o.d) (bfiNat_eq _ _ _)).reads
        (by rw [hdABC, hregs]; rfl)
    · have hregs : tyRegs (lrXm o 1).ty = 1 := by rcases hty with h | h <;> rw [h] <;> rfl
      exact (laneRuns_of_ints (h := hdAB false o 1) hi rfl rfl fun l => congrArg (putWord (wrV l) o.d) (bfeNat_eq _ _ _)).reads
        (by rw [hdAB, hregs]; rfl)

end Sys2Proof.Claims
end

section
/-!
PROOFS. Lane selects, moves, byte permute and flag read (R123, R124, R139, R140), and the integer compares and predicate instructions
(R122, R126, R127).
-/

namespace Sys2Proof.Machine
open Claims

/-! ## Selects and moves (R123, R124) -/

/-- A copy of the registers of either source. -/
theorem resOf_select {ty : BitVec 4} (h : bitType ty) (c : Bool) (rd : Reader) (wr : Writer) (a b r : BitVec 7) :
    resOf wr r ty (if c then patOf rd a ty else patOf rd b ty) = copyRegs rd wr (if c then a else b) r (tyRegs ty) := by
  cases c
  · exact resOf_patOf (.inl h) rd wr b r
  · exact resOf_patOf (.inl h) rd wr a r

theorem isQ_of_lt {r : BitVec 7} (h : r.toNat < 120) : isQ r = false := decide_eq_false (by omega)
theorem isQ_of_le {r : BitVec 7} (h : 120 ≤ r.toNat) : isQ r = true := decide_eq_true h

/-- MOV between registers computes (R124). -/
theorem exec_mov_regs {o : Lr} (s : State) (ha : o.a.toNat < 120) (hdst : o.d.toNat < 120) : exec (.mov o) s =
    .next { s with
      dev := laneInt s.mgmt s.dev (hdXm o.w (lenOf o.xm) (lrXm o 0) [.v o.a (tyRegs (lrXm o 0).ty)]) latAlu
        (fun rd wr => resOf wr o.d (lrXm o 0).ty (patOf rd o.a (lrXm o 0).ty)) } := by
  show execMov o s = _
  simp only [execMov, isQ_of_lt ha, isQ_of_lt hdst, Bool.false_eq_true, if_false, State.run]

theorem mov_runs {o : Lr} {s : State} (hi : Issuing s) (hty : bitType (lrXm o 0).ty ∨ (lrXm o 0).ty = 15) (ha : o.a.toNat < 120)
    (hdst : o.d.toNat < 120) : LaneRuns (.mov o) s (lrXm o 0).p (lrXm o 0).n (lenOf o.xm) 4 [.v o.a (tyRegs (lrXm o 0).ty)]
      fun l => quiet (copyRegs (laneReader s.dev l) (wrV l) o.a o.d (tyRegs (lrXm o 0).ty)) :=
  laneRuns_of_ints (h := hdXm o.w (lenOf o.xm) (lrXm o 0) [.v o.a (tyRegs (lrXm o 0).ty)]) hi rfl (exec_mov_regs s ha hdst)
    fun _ => resOf_patOf hty _ _ _ _

/-! ## Byte permute (R139) -/

theorem toNat_append_add {n m : Nat} (x : BitVec n) (y : BitVec m) : (x ++ y).toNat = x.toNat * 2 ^ m + y.toNat := by
  rw [BitVec.toNat_append, ← Nat.shiftLeft_add_eq_or_of_lt y.isLt, Nat.shiftLeft_eq]

theorem prmtByte_eq (pool : DWord) (nib : Nat) : prmtByte pool.toNat nib = (pick pool nib).toNat := by
  have hb : pool.toNat / 2 ^ (8 * (nib % 8)) % 2 ^ 8 = (pool.extractLsb' (8 * (nib % 8)) 8).toNat := by
    rw [BitVec.extractLsb'_toNat, Nat.shiftRight_eq_div_pow]
  unfold prmtByte pick
  simp only [hb, decide_eq_true_eq]
  generalize pool.extractLsb' (8 * (nib % 8)) 8 = b
  have hsign : b.getLsbD 7 = decide (128 ≤ b.toNat) := by
    rw [show b.getLsbD 7 = b.msb from (BitVec.msb_eq_getLsbD_last b).symm, BitVec.msb_eq_decide]
  rw [hsign]
  by_cases hn : nib < 8
  · rw [if_neg (by omega), if_pos hn]
  · rw [if_pos (by omega), if_neg hn]
    by_cases h128 : 128 ≤ b.toNat <;> simp [h128]

theorem prmtNat_eq (a c b : Word) : BitVec.ofNat 32 (prmtNat a.toNat c.toNat b.toNat) = permute (c ++ a) b := by
  have hpool : a.toNat + 2 ^ 32 * c.toNat = (c ++ a).toNat := by rw [toNat_append_add]; omega
  have h0 := (pick (c ++ a) (b.toNat % 16)).isLt
  have h1 := (pick (c ++ a) (b.toNat / 16 % 16)).isLt
  have h2 := (pick (c ++ a) (b.toNat / 256 % 16)).isLt
  have h3 := (pick (c ++ a) (b.toNat / 4096 % 16)).isLt
  refine BitVec.eq_of_toNat_eq ?_
  simp only [prmtNat, hpool, prmtByte_eq, permute, BitVec.toNat_ofNat, pow_zero, pow_one, Nat.div_one,
    show (16 : Nat) ^ 2 = 256 from rfl, show (16 : Nat) ^ 3 = 4096 from rfl]
  rw [toNat_append_add, toNat_append_add, toNat_append_add]
  omega

/-- Without an XM the upper half of the pool is zero. -/
theorem prmt_eq (o : Lr) (rd : Reader) (wr : Writer) :
    res1 wr o.d (prmtNat (rd o.a.toNat).toNat (if o.xm.isSome then (rd (lrXm o 0).c.toNat).toNat else 0) (rd o.b.toNat).toNat) =
      putWord wr o.d (permute ((if o.xm.isSome then rd (lrXm o 0).c.toNat else 0) ++ rd o.a.toNat) (rd o.b.toNat)) := by
  rw [res1_eq_putWord, ← prmtNat_eq, apply_ite BitVec.toNat]
  rfl

end Sys2Proof.Machine

/-! ## The statement about moves -/

namespace Sys2Proof.Claims
open Machine

/-- Settles O3: each instruction puts the value of its move. -/
theorem laneMoves : Obligations.LaneMoves := by
  intro o s hi x n rd
  refine ⟨fun hty => ⟨?_, ?_⟩, fun hty ha hdst => mov_runs hi hty ha hdst, ?_, ?_⟩
  · exact laneRuns_of_values (h := hd o.w (lenOf o.xm) [.pb x.p.toNat, .v o.a n, .v o.b n]) hi rfl rfl
      fun l => congrArg quiet (resOf_select hty _ _ _ _ _ _)
  · exact laneRuns_of_ints (h := hdXm o.w (lenOf o.xm) x [.s o.a n]) hi rfl rfl fun l => resOf_patOf (.inl hty) _ _ _ _
  · exact laneRuns_of_ints
      (h := hdXm o.w (lenOf o.xm) x (.v o.a 1 :: .v o.b 1 :: if o.xm.isSome then [.v x.c 1] else [])) hi rfl rfl
      fun l => prmt_eq o _ _
  · exact laneRuns_of_values (h := hdXm o.w (lenOf o.xm) x []) hi rfl rfl
      fun l => congrArg quiet (by rw [res1_eq_putWord, BitVec.ofNat_toNat])

end Sys2Proof.Claims

/-! ## Compares and predicates (R122, R126, R127) -/

namespace Sys2Proof.Machine
open Claims

theorem predRes_eq (l : Nat) (i : BitVec 3) (b : Bool) : predRes l i b = putPred l i b := by
  simp only [predRes, putPred, beq_iff_eq]

theorem intRel_eq {cc : Nat} (h : cc < 6) (a b : Int) : intRel cc a b = relation cc a b := by
  unfold intRel relation
  match cc, h with
  | 0, _ => exact (beq_eq_decide a b).symm
  | 1, _ => simp [bne, beq_eq_decide]
  | 2, _ => rfl
  | 3, _ => rfl
  | 4, _ => rfl
  | 5, _ => rfl

theorem intCmp_eq {o : Lp} (hty : intType (lpXm o 0).ty) (hcc : o.cc.toNat < 6) (rd : Reader) :
    intCmp o rd = relation o.cc.toNat (intVal rd o.a (lpXm o 0).ty) (intVal rd o.b (lpXm o 0).ty) := by
  rw [intCmp, intRel_eq hcc, intOf_eq_intVal hty, intOf_eq_intVal hty]

theorem lutOf_eq (lut : BitVec 8) (a b c : Bool) : lutOf lut a b c = table lut a b c := by
  cases a <;> cases b <;> cases c <;> rfl

/-- Bits summed one after the other. -/
theorem foldl_bits_eq (p : Nat → Bool) (ls : List Nat) : ∀ x : Nat,
    ls.foldl (fun x i => x + 2 ^ i * (p i).toNat) x = x + (ls.map fun i => if p i then 2 ^ i else 0).sum := by
  induction ls with
  | nil => exact fun x => rfl
  | cons a ls ih =>
    intro x
    rw [List.foldl_cons, ih, List.map_cons, List.sum_cons, Nat.add_assoc]
    cases p a <;> simp

theorem foldl_bits_range (n : Nat) (p : Nat → Bool) :
    (List.range n).foldl (fun x i => x + 2 ^ i * (p i).toNat) 0 = bitsNat n p := by
  rw [foldl_bits_eq, Nat.zero_add, bitsNat]

/-- What PMOV reads and what it puts, by its mode (R127). -/
def pmovReads (o : Lv) : Nat → List Rd
  | 0 => [.p o.ps.toNat]
  | 2 => [.p 0, .p 1, .p 2, .p 3, .p 4, .p 5, .p 6]
  | _ => [.v o.d 1]

def pmovRes (d : Dev) (o : Lv) (mode l : Nat) (rd : Reader) (wr : Writer) : List PWrite × FFlags :=
  match mode with
  | 0 => quiet (res1 wr o.d (readP d (curSkein d) l o.ps.toNat != o.n).toNat)
  | 1 => quiet (predRes l o.pd ((rd o.d.toNat).getLsbD 0 != o.n))
  | 2 => quiet (res1 wr o.d ((List.range 8).foldl (fun x i => x + 2 ^ i * (readP d (curSkein d) l i).toNat) 0))
  | _ => quiet ((List.range 7).map fun i => .p l i ((rd o.d.toNat).getLsbD i))

theorem exec_pmov {o : Lv} {mode : Nat} (hm : o.mode.toNat = mode) (s : State) : exec (.pmov o) s =
    .next { s with
      dev := laneAlu s.mgmt s.dev (hdXm o.w (lenOf o.xm) (lvXm o) (pmovReads o mode)) latAlu
        (pmovRes s.dev o mode) } := by
  subst hm
  rfl

theorem pmov_runs {o : Lv} {s : State} {mode : Nat} {g : Nat → List PWrite × FFlags} (hi : Issuing s) (hm : o.mode.toNat = mode)
    (hv : ∀ l, pmovRes s.dev o mode l (laneReader s.dev l) (wrV l) = g l) :
    LaneRuns (.pmov o) s (lvXm o).p (lvXm o).n (lenOf o.xm) 4 (pmovReads o mode) g :=
  laneRuns_of_values (h := hdXm o.w (lenOf o.xm) (lvXm o) (pmovReads o mode)) hi rfl (exec_pmov hm s) hv

theorem res1_bool (wr : Writer) (r : BitVec 7) (b : Bool) : res1 wr r b.toNat = putWord wr r (if b then 1 else 0) := by
  cases b <;> rfl

end Sys2Proof.Machine

/-! ## The statement about predicates -/

namespace Sys2Proof.Claims
open Machine

/-- Settles O4: each compare and each predicate instruction puts what its rule names; PMOV by its mode. -/
theorem lanePredicates : Obligations.LanePredicates := by
  intro s hi rd P
  refine ⟨fun o hty hcc => ?_, fun o => ?_, fun o => ⟨fun hm => ?_, fun hm => ?_, fun hm => ?_, fun hm => ?_⟩⟩
  · exact laneRuns_of_values (h := hdCmp false o 0) hi rfl rfl fun l => congrArg quiet (by rw [predRes_eq, intCmp_eq hty hcc])
  · exact laneRuns_of_values (h := hdXm o.w (lenOf o.xm) (plopXm o) [.p o.pa.toNat, .p o.pb.toNat, .p o.pc.toNat]) hi rfl rfl
      fun l => congrArg quiet (by rw [predRes_eq, lutOf_eq])
  · exact pmov_runs hi (congrArg BitVec.toNat hm) fun l => congrArg quiet (res1_bool _ _ _)
  · exact pmov_runs hi (congrArg BitVec.toNat hm) fun l => congrArg quiet (predRes_eq _ _ _)
  · exact pmov_runs hi (congrArg BitVec.toNat hm) fun l => congrArg quiet (by rw [foldl_bits_range, res1_eq_putWord]; rfl)
  · exact pmov_runs hi (congrArg BitVec.toNat hm) fun l => rfl

end Sys2Proof.Claims
end

section
/-!
PROOFS. Lane floating point (R122, R129 to R138): each instruction puts what its operation gives, at the latency of its type (R97).
-/

namespace Sys2Proof.Machine
open Claims

theorem fltLat_eq (ty : BitVec 4) (base : Nat) : fltLat ty base = if ty = 5 then max base 8 else base := by
  simp only [fltLat, beq_iff_eq, latF64]

/-- An instruction's latency, written otherwise. -/
theorem LaneRuns.latency {i : Instr} {s : State} {p : BitVec 3} {n : Bool} {len lat lat' : Nat} {r : List Rd}
    {f : Nat → List PWrite × FFlags} (h : LaneRuns i s p n len lat r f) (hl : lat = lat') : LaneRuns i s p n len lat' r f := hl ▸ h

/-- A floating instruction at its type's latency (R97). -/
theorem laneRuns_of_floats {i : Instr} {s : State} {h : Hd} {ty : BitVec 4} {base : Nat}
    {f : Nat → Reader → Writer → List PWrite × FFlags} (hi : Issuing s) (hends : h.ends = 0)
    (he : exec i s = .next { s with dev := laneAlu s.mgmt s.dev h (fltLat ty base) f }) :
    LaneRuns i s h.p h.n h.len (if ty = 5 then max base 8 else base) h.rds fun l => f l (laneReader s.dev l) (wrV l) :=
  (laneRuns_alu hi hends he).latency (fltLat_eq ty base)

/-- The conversions between a float of 64 bits and any other take the longer latency (R97). -/
theorem cvt_runs {o : Lr} {s : State} (hi : Issuing s) :
    LaneRuns (.cvt o) s (lrXm o 0).p (lrXm o 0).n (lenOf o.xm) (if (lrXm o 0).ty = 5 ∨ (lrXm o 0).opx = 5 then 8 else 4)
      [.v o.a (tyRegs (lrXm o 0).ty)] fun l => cvtRes (curSkein s.dev) o (laneReader s.dev l) (wrV l) := by
  have hlat : (if ((lrXm o 0).ty == 5 || (lrXm o 0).opx == 5) = true then latF64 else latAlu) =
      if (lrXm o 0).ty = 5 ∨ (lrXm o 0).opx = 5 then 8 else 4 := by
    simp only [Bool.or_eq_true, beq_iff_eq, latF64, latAlu]
  exact (laneRuns_alu (h := { hdA false o 0 with fp64 := (lrXm o 0).ty == 5 || (lrXm o 0).opx == 5 }) hi rfl rfl).latency hlat

/-- CVTP reads its third source where it packs bytes (R138). -/
theorem cvtp_runs {o : Lr} {s : State} (hi : Issuing s) :
    LaneRuns (.cvtp o) s (lrXm o 4).p (lrXm o 4).n (lenOf o.xm) 4
      (.v o.a (tyRegs (lrXm o 4).ty) :: .v o.b (tyRegs (lrXm o 4).ty) ::
        if (lrXm o 4).opx.toNat < 0x10 then [] else [.v (lrXm o 4).c (tyRegs (lrXm o 4).ty)])
      fun l => cvtpRes (curSkein s.dev) o (laneReader s.dev l) (wrV l) := by
  have he : exec (.cvtp o) s = .next { s with
      dev := laneAlu s.mgmt s.dev (if (lrXm o 4).opx.toNat < 0x10 then hdAB false o 4 else hdABC false o 4) latAlu
        (fun _ => cvtpRes (curSkein s.dev) o) } := by
    show execCvtp o s = _
    simp only [execCvtp, decide_eq_true_eq, State.run]
  by_cases h : (lrXm o 4).opx.toNat < 0x10
  · rw [if_pos h] at he ⊢
    exact laneRuns_alu (h := hdAB false o 4) hi rfl he
  · rw [if_neg h] at he ⊢
    exact laneRuns_alu (h := hdABC false o 4) hi rfl he

end Sys2Proof.Machine

/-! ## The statement -/

namespace Sys2Proof.Claims
open Machine

/-- Settles O5: each instruction is its operation on each executing lane's sources. -/
theorem laneFloat : Obligations.LaneFloat := by
  intro o s hi x n k run lat one two
  have two' {i : Instr} {f : Reader → Writer → List PWrite × FFlags} (he : exec i s = .next { s with
      dev := laneAlu s.mgmt s.dev (hdF (lrXm o 4).ty (hdAB false o 4)) (fltLat (lrXm o 4).ty latAlu) fun _ => f }) : two i lat f :=
    laneRuns_of_floats (h := hdF (lrXm o 4).ty (hdAB false o 4)) hi rfl he
  have long {i : Instr} {f : Reader → Writer → List PWrite × FFlags} (he : exec i s = .next { s with
      dev := laneAlu s.mgmt s.dev (hdF (lrXm o 4).ty (hdA false o 4)) latLong fun _ => f }) : one i 16 f :=
    laneRuns_alu (h := hdF (lrXm o 4).ty (hdA false o 4)) hi rfl he
  refine ⟨two' rfl, two' rfl, ?_, two' rfl, two' rfl, ?_, long rfl, long rfl, long rfl, long rfl, long rfl, long rfl, long rfl,
    ?_, ?_, ?_, ?_, cvt_runs hi, cvtp_runs hi, fun q => ?_⟩
  · exact laneRuns_of_floats (h := hdF x.ty (hdABC false o 4)) hi rfl rfl
  · exact laneRuns_alu (h := hdF x.ty (hdAB false o 4)) hi rfl rfl
  · exact laneRuns_of_floats (h := hdF x.ty (hdA false o 4)) hi rfl rfl
  · exact (laneRuns_of_floats (i := .fclass o) (h := hdF x.ty (hdA false o 4)) (ty := x.ty) (base := latAlu) hi rfl rfl).congr
      fun _ => rfl
  · exact laneRuns_of_floats (h := hdF x.ty (hdAB1 false o 4)) hi rfl rfl
  · exact laneRuns_alu (h := hdABC false o 8) hi rfl rfl
  · exact (laneRuns_of_floats (h := hdF (lpXm q 4).ty (hdCmp false q 4)) hi rfl rfl).congr
      fun l => congrArg (Prod.mk · _) (predRes_eq l q.pd _)

end Sys2Proof.Claims
end

section
/-!
PROOFS. Special values of the floating operations (R110, R129 to R131): NaN, zeros, infinities and negative sources, in the four formats
of IEEE 754.
-/

namespace Sys2Proof.Machine
open Claims

/-- The formats of IEEE 754 (R240). -/
def IsIeee (f : Fmt) : Prop := f ∈ [fmtF64, fmtF32, fmtF16, fmtBF16]

theorem IsIeee.cases {f : Fmt} (h : IsIeee f) : f = fmtF64 ∨ f = fmtF32 ∨ f = fmtF16 ∨ f = fmtBF16 := by
  simpa [IsIeee] using h

/-- The canonical quiet NaN (R110). -/
def quietNan (f : Fmt) : Nat :=
  if f = fmtF64 then 0x7FF8000000000000 else if f = fmtF32 then 0x7FC00000 else if f = fmtF16 then 0x7E00 else 0x7FC0

theorem fnan_eq {f : Fmt} (h : IsIeee f) : fnan f false = quietNan f := by
  rcases h.cases with rfl | rfl | rfl | rfl <;> decide

theorem fnanRes_eq {f : Fmt} (h : IsIeee f) (fl : FFlags) : fnanRes f fl = (quietNan f, fl) := by rw [fnanRes, fnan_eq h]

@[simp] theorem fsignBit_false (f : Fmt) : fsignBit f false = 0 := rfl

/-! ## NaN sources -/

/-- What holds of a NaN on either side holds when one of two values is a NaN. -/
theorem nan_cases {P : FVal → FVal → Prop} (left : ∀ s n b, P (.nan s n) b) (right : ∀ a s n, P a (.nan s n)) {a b : FVal}
    (h : fisNan a = true ∨ fisNan b = true) : P a b := by
  rcases h with h | h
  · cases a with
    | nan s n => exact left s n b
    | inf | fin => cases h
  · cases b with
    | nan s n => exact right a s n
    | inf | fin => cases h

section
variable {f : Fmt} (hf : IsIeee f) (env : FEnv) {a b : FVal} (h : fisNan a = true ∨ fisNan b = true)
include hf h

theorem faddVal_nan : (faddVal f env a b).1 = quietNan f :=
  nan_cases (P := fun a b => (faddVal f env a b).1 = quietNan f)
    (fun _ _ b => by cases b <;> exact fnan_eq hf) (fun a _ _ => by cases a <;> exact fnan_eq hf) h

theorem fmulVal_nan : (fmulVal f env a b).1 = quietNan f :=
  nan_cases (P := fun a b => (fmulVal f env a b).1 = quietNan f)
    (fun _ _ b => by cases b <;> exact fnan_eq hf) (fun a _ _ => by cases a <;> exact fnan_eq hf) h

theorem fdivVal_nan : (fdivVal f env a b).1 = quietNan f :=
  nan_cases (P := fun a b => (fdivVal f env a b).1 = quietNan f)
    (fun _ _ b => by cases b <;> exact fnan_eq hf) (fun a _ _ => by cases a <;> exact fnan_eq hf) h

end

/-! ## Zeros and ones -/

/-- One in a format. -/
def oneOf (f : Fmt) : Nat := f.bias * 2 ^ f.f

/-- Exactly one is rounded to itself in every direction. -/
theorem frnd'_one {f : Fmt} (hf : IsIeee f) (env : FEnv) : frnd' f env false 1 0 false = (oneOf f, 0) := by
  have hr : fround f env.rm false false 1 0 false = (oneOf f, 0) := by
    have hunits (q : Int) (hq : q ≤ 0) : roundUnits env.rm false 1 0 q false = (2 ^ (-q).toNat, false) := by
      rw [roundUnits, if_pos hq, Nat.one_mul, zero_sub]
    have hlen : bitLen 1 = 1 := by decide
    rcases hf.cases with rfl | rfl | rfl | rfl <;>
      simp [fround, hunits, hlen, fmtF64, fmtF32, fmtF16, fmtBF16, fmaxMag, oneOf, fsignBit, fWhen]
  have hmag : ∀ ftz : Bool, (ftz && f == fmtF32 && oneOf f % 2 ^ (f.e + f.f) != 0 && decide (oneOf f % 2 ^ (f.e + f.f) < 2 ^ f.f)) =
      false := by
    rcases hf.cases with rfl | rfl | rfl | rfl <;> decide
  rw [frnd', hr, fflush]
  simp only [hmag, Bool.false_eq_true, if_false]

/-- Exactly zero is +0. -/
theorem frnd'_zero (f : Fmt) (env : FEnv) (e : Int) : frnd' f env false 0 e false = (0, 0) := by
  simp [frnd', fround, fflush]

/-! ## The rows of the special cases (R131) -/

section
variable (f : Fmt) (env : FEnv) (neg : Bool) (e : Int)

theorem frcpVal_zero : frcpVal f env (.fin neg 0 e) = (finf f neg, fDivZero) := by cases neg <;> rfl
theorem frsqVal_zero : frsqVal f env (.fin neg 0 e) = (finf f neg, fDivZero) := rfl
theorem fsqrtVal_zero : fsqrtVal f env (.fin neg 0 e) = (fsignBit f neg, 0) := rfl
theorem flg2Val_zero : flg2Val f env (.fin neg 0 e) = (finf f true, fDivZero) := rfl
theorem fsinpiVal_zero : fsinpiVal f env false (.fin neg 0 e) = (fsignBit f neg, 0) := by simp [fsinpiVal]

theorem frcpVal_inf : frcpVal f env (.inf neg) = (fsignBit f neg, 0) := by cases neg <;> rfl
theorem fex2Val_inf : fex2Val f env (.inf neg) = (if neg then 0 else finf f false, 0) := by cases neg <;> rfl

theorem flg2Val_one : flg2Val f env (.fin false 1 0) = (0, 0) := by
  have h : flg2Val f env (.fin false 1 0) = frnd' f env false 0 0 false := rfl
  rw [h, frnd'_zero]

end

section
variable {f : Fmt} (hf : IsIeee f) (env : FEnv)
include hf

theorem fex2Val_zero (neg : Bool) (e : Int) : fex2Val f env (.fin neg 0 e) = (oneOf f, 0) := frnd'_one hf env
theorem fcospiVal_zero (neg : Bool) (e : Int) : fsinpiVal f env true (.fin neg 0 e) = (oneOf f, 0) := by
  simp only [fsinpiVal, if_true]
  exact frnd'_one hf env

theorem fsinpiVal_inf (cos neg : Bool) : fsinpiVal f env cos (.inf neg) = (quietNan f, fInvalid) := fnanRes_eq hf _

/-- A negative source of a root or a logarithm is invalid. -/
theorem roots_negative {m : Nat} (hm : m ≠ 0) (e : Int) : fsqrtVal f env (.fin true m e) = (quietNan f, fInvalid) ∧
    frsqVal f env (.fin true m e) = (quietNan f, fInvalid) ∧ flg2Val f env (.fin true m e) = (quietNan f, fInvalid) := by
  simp only [fsqrtVal, frsqVal, flg2Val, if_neg hm, if_true, fnanRes_eq hf, and_self]

theorem roots_inf : frsqVal f env (.inf false) = (0, 0) ∧ fsqrtVal f env (.inf false) = (finf f false, 0) ∧
    flg2Val f env (.inf false) = (finf f false, 0) ∧ flg2Val f env (.fin false 1 0) = (0, 0) ∧
    frsqVal f env (.inf true) = (quietNan f, fInvalid) ∧ fsqrtVal f env (.inf true) = (quietNan f, fInvalid) ∧
    flg2Val f env (.inf true) = (quietNan f, fInvalid) :=
  ⟨rfl, rfl, rfl, flg2Val_one f env, fnanRes_eq hf _, fnanRes_eq hf _, fnanRes_eq hf _⟩

theorem fdivVal_special (n1 n2 : Bool) (m : Nat) (e1 e2 : Int) :
    (m ≠ 0 → fdivVal f env (.fin n1 m e1) (.fin n2 0 e2) = (finf f (n1 != n2), fDivZero)) ∧
      fdivVal f env (.fin n1 0 e1) (.fin n2 0 e2) = (quietNan f, fInvalid) ∧
      fdivVal f env (.inf n1) (.inf n2) = (quietNan f, fInvalid) ∧
      fdivVal f env (.inf n1) (.fin n2 m e2) = (finf f (n1 != n2), 0) ∧
      fdivVal f env (.fin n1 m e1) (.inf n2) = (fsignBit f (n1 != n2), 0) :=
  ⟨fun hm => if_neg hm, fnanRes_eq hf _, fnanRes_eq hf _, rfl, rfl⟩

end

/-! ## The lesser and the greater of two sources (R130) -/

/-- What a chosen source gives: its pattern, or the zero of its sign. -/
def chosen (f : Fmt) (p : Nat) (v : FVal) : Nat := if fisZero v then fsignBit f (fsign v) else p

/-- The flag of signalling sources. -/
def sigFlag (a b : FVal) : FFlags := if fisSig a || fisSig b then fInvalid else 0

theorem not_nan_of_fcmp {a b : FVal} {c : Ordering} (h : fcmp a b = some c) : fisNan a = false ∧ fisNan b = false := by
  cases a with
  | nan => cases h
  | inf | fin =>
    cases b with
    | nan => cases h
    | inf | fin => exact ⟨rfl, rfl⟩

/-- Whether the first of two numbers is the lesser, −0 below +0. -/
def isLess (a b : FVal) : Bool :=
  match fcmp a b with
  | some .lt => true
  | some .eq => fsign a && !fsign b
  | _ => false

section
variable {f : Fmt} {env : FEnv} {mx : Bool} {x y : Nat}

/-- Of two numbers the lesser source is chosen, or for the greatest the other one. -/
theorem fminmax_numbers (ha : fisNan (fread f env x) = false) (hb : fisNan (fread f env y) = false) :
    fminmax f env mx x y = (if isLess (fread f env x) (fread f env y) != mx
      then chosen f x (fread f env x) else chosen f y (fread f env y), sigFlag (fread f env x) (fread f env y)) := by
  unfold fminmax
  simp only [ha, hb]
  rfl

theorem fminmax_lt (h : fcmp (fread f env x) (fread f env y) = some .lt) : fminmax f env mx x y =
    (if mx then chosen f y (fread f env y) else chosen f x (fread f env x), sigFlag (fread f env x) (fread f env y)) := by
  obtain ⟨ha, hb⟩ := not_nan_of_fcmp h
  rw [fminmax_numbers ha hb, isLess, h]
  cases mx <;> rfl

theorem fminmax_gt (h : fcmp (fread f env x) (fread f env y) = some .gt) : fminmax f env mx x y =
    (if mx then chosen f x (fread f env x) else chosen f y (fread f env y), sigFlag (fread f env x) (fread f env y)) := by
  obtain ⟨ha, hb⟩ := not_nan_of_fcmp h
  rw [fminmax_numbers ha hb, isLess, h]
  cases mx <;> rfl

/-- A zero compares equal to a zero and signals nothing. -/
theorem fcmp_zeros {a b : FVal} (ha : fisZero a = true) (hb : fisZero b = true) : fcmp a b = some .eq ∧ sigFlag a b = 0 := by
  cases a with
  | nan | inf => cases ha
  | fin n1 m1 e1 =>
    cases b with
    | nan | inf => cases hb
    | fin n2 m2 e2 =>
      obtain rfl : m1 = 0 := by simpa [fisZero] using ha
      obtain rfl : m2 = 0 := by simpa [fisZero] using hb
      exact ⟨by simp [fcmp, funits], rfl⟩

/-- −0 is below +0. -/
theorem fminmax_zeros (ha : fisZero (fread f env x) = true) (hb : fisZero (fread f env y) = true)
    (hs : fsign (fread f env x) ≠ fsign (fread f env y)) : fminmax f env mx x y = (fsignBit f !mx, 0) := by
  obtain ⟨hc, hsig⟩ := fcmp_zeros ha hb
  obtain ⟨hna, hnb⟩ := not_nan_of_fcmp hc
  rw [fminmax_numbers hna hnb, isLess, hc, hsig, chosen, chosen, ha, hb, Bool.eq_not.2 hs.symm]
  cases fsign (fread f env x) <;> cases mx <;> rfl

theorem fminmax_left_nan (ha : fisNan (fread f env x) = true) (hb : fisNan (fread f env y) = false) :
    fminmax f env mx x y = (chosen f y (fread f env y), sigFlag (fread f env x) (fread f env y)) := by
  simp only [fminmax, ha, hb, fWhen, sigFlag, chosen]

theorem fminmax_right_nan (ha : fisNan (fread f env x) = false) (hb : fisNan (fread f env y) = true) :
    fminmax f env mx x y = (chosen f x (fread f env x), sigFlag (fread f env x) (fread f env y)) := by
  simp only [fminmax, ha, hb, fWhen, sigFlag, chosen]

theorem fminmax_both_nan (hf : IsIeee f) (ha : fisNan (fread f env x) = true) (hb : fisNan (fread f env y) = true) :
    fminmax f env mx x y = (quietNan f, sigFlag (fread f env x) (fread f env y)) := by
  simp only [fminmax, ha, hb, fWhen, sigFlag, fnan_eq hf]

end

/-- Settles O6: each row of the special cases. -/
theorem floatSpecialCases : Obligations.FloatSpecialCases := by
  intro f env hf quietNan one
  refine ⟨fun a b h => ⟨faddVal_nan hf env h, fmulVal_nan hf env h, fdivVal_nan hf env h⟩,
    fun neg e => ⟨frcpVal_zero f env neg e, frsqVal_zero f env neg e, fsqrtVal_zero f env neg e, flg2Val_zero f env neg e,
      fex2Val_zero hf env neg e, fcospiVal_zero hf env neg e, fsinpiVal_zero f env neg e⟩,
    fun neg => ⟨frcpVal_inf f env neg, fex2Val_inf f env neg, fsinpiVal_inf hf env false neg, fsinpiVal_inf hf env true neg⟩,
    fun m e hm => roots_negative hf env hm e, roots_inf hf env, fun n1 n2 m e1 e2 => fdivVal_special hf env n1 n2 m e1 e2, ?_⟩
  intro mx x y a b put flags
  exact ⟨fminmax_both_nan hf, fminmax_left_nan, fminmax_right_nan, fminmax_lt, fminmax_gt, fminmax_zeros⟩

end Sys2Proof.Machine
end

section
/-!
PROOFS. The cross-lane instructions (R141 to R145): what each executing lane takes from the executing lanes.
-/

namespace Sys2Proof.Machine
open Claims

/-! ## Masks made by sums over lanes -/

theorem contains_lanesOf (m : Mask) (q : Nat) : (lanesOf m).contains q = true ↔ q < 32 ∧ m.getLsbD q = true := by
  rw [List.contains_iff_mem, mem_lanesOf]

theorem sum_map_filter (c : Nat → Bool) (g : Nat → Nat) (ls : List Nat) :
    ((ls.filter c).map g).sum = (ls.map fun i => if c i then g i else 0).sum := by
  induction ls with
  | nil => rfl
  | cons a ls ih =>
    rw [List.map_cons, List.sum_cons, ← ih, List.filter_cons]
    cases c a <;> simp

/-- The mask of the lanes that pass a test, summed lane by lane. -/
theorem ofNat_foldl_lanes (ex : Mask) (p : Nat → Bool) :
    BitVec.ofNat 32 ((lanesOf ex).foldl (fun x q => x + 2 ^ q * (p q).toNat) 0) = maskOf fun q => ex.getLsbD q && p q := by
  have hsum : (lanesOf ex).foldl (fun x q => x + 2 ^ q * (p q).toNat) 0 = bitsNat 32 fun q => ex.getLsbD q && p q := by
    rw [foldl_bits_eq, Nat.zero_add, lanesOf, sum_map_filter, bitsNat]
    congr 2
    funext i
    cases ex.getLsbD i <;> simp
  refine BitVec.eq_of_getLsbD_eq fun j hj => ?_
  rw [hsum, getLsbD_ofNat_bitsNat, getLsbD_maskOf]

/-! ## Shuffles (R142) -/

/-- The lane that a lane copies from: the one named, if it executes, else itself. -/
def supplier (ex : Mask) (l : Nat) (q : Option Nat) : Nat :=
  match q with
  | some q => if q < 32 ∧ ex.getLsbD q = true then q else l
  | none => l

/-- What a shuffle puts in a lane (R142). -/
def shuffleRes (d : Dev) (o : Lr) (src : Nat → Nat → Nat → Nat → Option Nat) (ex : List Nat) (l : Nat) : List PWrite × FFlags :=
  let x := lrXm o 0
  let w := 32 / 2 ^ bitsOf x.opx 0 3
  let v := match src w (l / w * w) l (laneReader d l o.b.toNat).toNat with
    | some q => if ex.contains q then patOf (laneReader d q) o.a x.ty else patOf (laneReader d l) o.a x.ty
    | none => patOf (laneReader d l) o.a x.ty
  quiet (resOf (wrV l) o.d x.ty v)

theorem shuffle_eq (m : Mgmt) (d : Dev) (o : Lr) (src : Nat → Nat → Nat → Nat → Option Nat) : shuffle m d o src =
    crossLane m d (hdXm o.w (lenOf o.xm) (lrXm o 0) [.v o.a (tyRegs (lrXm o 0).ty), .v o.b 1]) latCross (shuffleRes d o src) := rfl

theorem shuffle_runs {i : Instr} {o : Lr} {s : State} (hi : Issuing s) (hty : bitType (lrXm o 0).ty)
    {src : Nat → Nat → Nat → Nat → Option Nat} (he : exec i s = s.run fun m d => shuffle m d o src) :
    LaneRuns i s (lrXm o 0).p (lrXm o 0).n (lenOf o.xm) 6 [.v o.a (tyRegs (lrXm o 0).ty), .v o.b 1] fun l =>
      quiet (copyRegs (laneReader s.dev (supplier (lanesUnder s (lrXm o 0).p (lrXm o 0).n) l
        (src (32 / 2 ^ bitsOf (lrXm o 0).opx 0 3)
          (l / (32 / 2 ^ bitsOf (lrXm o 0).opx 0 3) * (32 / 2 ^ bitsOf (lrXm o 0).opx 0 3)) l
          (laneReader s.dev l o.b.toNat).toNat))) (wrV l) o.a o.d (tyRegs (lrXm o 0).ty)) := by
  have hr := laneRuns_cross (h := hdXm o.w (lenOf o.xm) (lrXm o 0) [.v o.a (tyRegs (lrXm o 0).ty), .v o.b 1]) (lat := latCross)
    (f := shuffleRes s.dev o src) hi rfl (by rw [he, State.run, shuffle_eq])
  refine hr.congr fun l => congrArg quiet ?_
  rw [← resOf_patOf (.inl hty)]
  congr 1
  generalize src _ _ l _ = q
  cases q with
  | none => rfl
  | some q =>
    simp only [supplier, contains_lanesOf]
    rw [apply_ite (fun q => patOf (laneReader s.dev q) o.a (lrXm o 0).ty)]
    rfl

/-! ## Votes, reductions and matches (R143 to R145) -/

section
variable {s : State} (hi : Issuing s)
include hi

theorem vote_runs (o : Lv) (hm : o.mode.toNat < 3) : LaneRuns (.vote o) s (lvXm o).p (lvXm o).n (lenOf o.xm) 6 [.p o.ps.toNat]
    fun l =>
      let X (l : Nat) : Bool := readP s.dev (curSkein s.dev) l o.ps.toNat != o.n
      let all := (lanesOf (lanesUnder s (lvXm o).p (lvXm o).n)).all X
      let any := (lanesOf (lanesUnder s (lvXm o).p (lvXm o).n)).any X
      quiet (putPred l o.pd (if o.mode = 0 then all else if o.mode = 1 then any else all || !any)) := by
  refine (laneRuns_cross (i := .vote o) (h := hdXm o.w (lenOf o.xm) (lvXm o) [.p o.ps.toNat]) (lat := latCross) hi rfl rfl).congr fun l =>
    congrArg quiet ?_
  rw [predRes_eq]
  congr 1
  have key : ∀ mode : BitVec 3, mode.toNat < 3 → mode = 0 ∨ mode = 1 ∨ mode = 2 := by decide
  simp only [voteValues, List.all_map, List.any_map, Function.comp_def, id]
  rcases key o.mode hm with h | h | h <;> rw [h] <;> rfl

theorem ballot_runs (o : Lv) : LaneRuns (.ballot o) s (lvXm o).p (lvXm o).n (lenOf o.xm) 6 [.p o.ps.toNat] fun l =>
    quiet (putWord (wrV l) o.d (maskOf fun r => (lanesUnder s (lvXm o).p (lvXm o).n).getLsbD r &&
      (readP s.dev (curSkein s.dev) r o.ps.toNat != o.n))) :=
  (laneRuns_cross (i := .ballot o) (h := hdXm o.w (lenOf o.xm) (lvXm o) [.p o.ps.toNat]) (lat := latCross) hi rfl rfl).congr
    fun l => congrArg (fun x => quiet (putWord (wrV l) o.d x)) (ofNat_foldl_lanes _ _)

theorem matchLanes_runs (o : Lr) (hty : bitType (lrXm o 0).ty) :
    LaneRuns (.matchLanes o) s (lrXm o 0).p (lrXm o 0).n (lenOf o.xm) 6 [.v o.a (tyRegs (lrXm o 0).ty)] fun l =>
      quiet (putWord (wrV l) o.d (maskOf fun q => (lanesUnder s (lrXm o 0).p (lrXm o 0).n).getLsbD q &&
        getBits (laneReader s.dev q) o.a (lrXm o 0).ty == getBits (laneReader s.dev l) o.a (lrXm o 0).ty)) := by
  refine (laneRuns_cross (i := .matchLanes o) (h := hdXm o.w (lenOf o.xm) (lrXm o 0) [.v o.a (tyRegs (lrXm o 0).ty)])
    (lat := latCross) hi rfl rfl).congr fun l => congrArg (fun x => quiet (putWord (wrV l) o.d x)) ?_
  have ht := filling_of_bitType hty
  have hbeq (x y : DWord) : (x.toNat == y.toNat) = (x == y) := by
    rw [Bool.eq_iff_iff, beq_iff_eq, beq_iff_eq, BitVec.toNat_inj]
  rw [← ofNat_foldl_lanes]
  simp only [patOf_eq_getBits ht, hbeq]
  rfl

theorem lred_runs (o : Lr) : LaneRuns (.lred o) s (lrXm o 0).p (lrXm o 0).n (lenOf o.xm) (if (lrXm o 0).ty = 5 then 8 else 6)
    [.v o.a (tyRegs (lrXm o 0).ty)] fun l =>
      let r := lredRun s.dev o (lrXm o 0) (lanesOf (lanesUnder s (lrXm o 0).p (lrXm o 0).n))
      (resOf (wrV l) o.d (lrXm o 0).ty r.2.1, if o.f then 0 else r.2.2) :=
  have hr := laneRuns_cross (i := .lred o) (h := hdF (lrXm o 0).ty (hdXm o.w (lenOf o.xm) (lrXm o 0) [.v o.a (tyRegs (lrXm o 0).ty)]))
    (lat := fltLat (lrXm o 0).ty latCross) hi rfl rfl
  hr.latency (fltLat_eq _ latCross)

theorem lscan_runs (o : Lr) : LaneRuns (.lscan o) s (lrXm o 0).p (lrXm o 0).n (lenOf o.xm) (if (lrXm o 0).ty = 5 then 8 else 6)
    [.v o.a (tyRegs (lrXm o 0).ty)] fun l =>
      let r := lredRun s.dev o (lrXm o 0) (lanesOf (lanesUnder s (lrXm o 0).p (lrXm o 0).n))
      let v := ((r.1.find? fun e => e.1 == l).map fun e => if (lrXm o 0).opx.getLsbD 4 then e.2.1 else e.2.2).getD 0
      (resOf (wrV l) o.d (lrXm o 0).ty v, if o.f then 0 else r.2.2) :=
  have hr := laneRuns_cross (i := .lscan o) (h := hdF (lrXm o 0).ty (hdXm o.w (lenOf o.xm) (lrXm o 0) [.v o.a (tyRegs (lrXm o 0).ty)]))
    (lat := fltLat (lrXm o 0).ty latCross) hi rfl rfl
  hr.latency (fltLat_eq _ latCross)

end

end Sys2Proof.Machine

/-! ## The statement -/

namespace Sys2Proof.Claims
open Machine

/-- Settles O7: each instruction takes its values from the executing lanes alone. -/
theorem crossLane : Obligations.CrossLane := by
  intro o s hi x n rd ex W J from_ shuffle lat
  exact ⟨fun hty => ⟨shuffle_runs hi hty (src := fun w base _ j => some (base + j % w)) rfl,
      shuffle_runs hi hty (src := fun _ base l j => if l < base + j then none else some (l - j)) rfl,
      shuffle_runs hi hty (src := fun w base l j => if base + w ≤ l + j then none else some (l + j)) rfl,
      shuffle_runs hi hty (src := fun w _ l j => some (l ^^^ (j % w))) rfl, matchLanes_runs hi o hty⟩,
    lred_runs hi o, lscan_runs hi o, fun q => ⟨vote_runs hi q, ballot_runs hi q⟩⟩

end Sys2Proof.Claims
end

section
/-!
PROOFS. The uniform integer instructions (R155, R157 to R159): the values of the lane set's rules, once, on the uniform registers.
-/

namespace Sys2Proof.Machine
open Claims

/-- A uniform instruction that computes `ws` and raises no flag (R155). -/
theorem uniRuns_of_ints {i : Instr} {s : State} {h : Hd} {lat : Nat} {f : Reader → Writer → List PWrite} {ws : List PWrite}
    (hi : Issuing s) (hends : h.ends = 0) (he : exec i s = .next { s with dev := uniInt s.mgmt s.dev h lat f })
    (hv : f (uniReader s.dev) wrS = ws) : UniRuns i s h.p h.n h.len lat h.rds (quiet ws) := by
  subst hv
  exact uniRuns_alu (f := fun rd wr => quiet (f rd wr)) hi hends he

/-- SMOV between registers computes (R160). -/
theorem exec_smov_regs {o : Lr} (s : State) (ha : o.a.toNat < 120) (hdst : o.d.toNat < 120) : exec (.smov o) s =
    .next { s with
      dev := uniInt s.mgmt s.dev (hdXm o.w (lenOf o.xm) (lrXm o 0) [.s o.a (tyRegs (lrXm o 0).ty)]) latUni
        (fun rd wr => resOf wr o.d (lrXm o 0).ty (patOf rd o.a (lrXm o 0).ty)) } := by
  show execSmov o s = _
  simp only [execSmov, isQ_of_lt ha, isQ_of_lt hdst, Bool.false_eq_true, if_false, State.run]

section
variable {o : Lr} {s : State} (hi : Issuing s)
include hi

theorem smov_runs (hty : bitType (lrXm o 0).ty ∨ (lrXm o 0).ty = 15) (ha : o.a.toNat < 120) (hdst : o.d.toNat < 120) :
    UniRuns (.smov o) s (lrXm o 0).p (lrXm o 0).n (lenOf o.xm) 2 [.s o.a (tyRegs (lrXm o 0).ty)]
      (quiet (copyRegs (uniReader s.dev) wrS o.a o.d (tyRegs (lrXm o 0).ty))) :=
  uniRuns_of_ints (h := hdXm o.w (lenOf o.xm) (lrXm o 0) [.s o.a (tyRegs (lrXm o 0).ty)]) hi rfl (exec_smov_regs s ha hdst)
    (resOf_patOf hty _ _ _ _)

theorem ssel_runs (hty : bitType (lrXm o 0).ty) : UniRuns (.ssel o) s 7 false (lenOf o.xm) 2
    [.c (lrXm o 0).p.toNat, .s o.a (tyRegs (lrXm o 0).ty), .s o.b (tyRegs (lrXm o 0).ty)]
    (quiet (copyRegs (uniReader s.dev) wrS (if condUnder s (lrXm o 0).p (lrXm o 0).n then o.a else o.b) o.d
      (tyRegs (lrXm o 0).ty))) :=
  uniRuns_of_ints
    (h := hd o.w (lenOf o.xm) [.c (lrXm o 0).p.toNat, .s o.a (tyRegs (lrXm o 0).ty), .s o.b (tyRegs (lrXm o 0).ty)]) hi rfl rfl
    (resOf_select hty _ _ _ _ _ _)

end

/-! ## The statement -/

/-- Settles O8: each instruction puts the value of its operation once. -/
theorem uniformInteger : Obligations.UniformInteger := by
  refine ⟨fun o s hi => ?_, fun o s hi => ?_⟩
  · have two {i : Instr} {f : Reader → Writer → List PWrite} {ws : List PWrite}
        (he : exec i s = .next { s with dev := uniInt s.mgmt s.dev (hdAB true o 0) latUni f }) (hv : f (uniReader s.dev) wrS = ws) :=
      uniRuns_of_ints (h := hdAB true o 0) hi rfl he hv
    have amount {i : Instr} {f : Reader → Writer → List PWrite} {ws : List PWrite}
        (he : exec i s = .next { s with dev := uniInt s.mgmt s.dev (hdAB1 true o 0) latUni f }) (hv : f (uniReader s.dev) wrS = ws) :=
      uniRuns_of_ints (h := hdAB1 true o 0) hi rfl he hv
    have count {i : Instr} {f : Reader → Writer → List PWrite} {ws : List PWrite}
        (he : exec i s = .next { s with dev := uniInt s.mgmt s.dev (hdA true o 0) latUni f }) (hv : f (uniReader s.dev) wrS = ws) :=
      uniRuns_of_ints (h := hdA true o 0) hi rfl he hv
    refine ⟨fun hty => ?_, fun hty => ?_, smov_runs hi⟩
    · exact ⟨two rfl (intBin_eq hty _ _ _), two rfl (intBin_eq hty _ _ _), two rfl (intBin_eq hty _ _ _),
        two rfl (intBin_min hty _ _), two rfl (intBin_max hty _ _),
        uniRuns_of_ints (h := hdABC true o 0) hi rfl rfl (intMad_eq hty _ _)⟩
    · exact ⟨two rfl (bitBin_eq hty _ _ fun _ _ => rfl), two rfl (bitBin_eq hty _ _ fun _ _ => rfl),
        two rfl (bitBin_eq hty _ _ fun _ _ => rfl), amount rfl (shiftR_eq hty _ _ shl_toNat_mod),
        amount rfl (shiftR_eq hty _ _ fun ty x n => by rw [shr_toNat]),
        amount rfl (shiftR_eq hty _ _ fun ty x n => by rw [sar_toNat]), count rfl (popc_eq hty _ _), count rfl (clz_eq hty _ _),
        amount rfl (leaRes_eq hty _ _), ssel_runs hi hty⟩
  · have one {i : Instr} {f : Reader → Writer → List PWrite} {ws : List PWrite}
        (he : exec i s = .next { s with dev := uniInt s.mgmt s.dev (hdK true o) latUni f }) (hv : f (uniReader s.dev) wrS = ws) :=
      uniRuns_of_ints (h := hdK true o) hi rfl he hv
    exact ⟨one rfl (intAddK_eq o _ _), one rfl (shiftK_eq o _ _ shlNat_eq), one rfl (shiftK_eq o _ _ shrNat_eq),
      uniRuns_of_ints (h := hd o.w (lenOf o.xl) []) hi rfl rfl (by rw [immOf_signed, res1_toNat])⟩

end Sys2Proof.Machine
end

section
/-!
PROOFS. FLGCLR and WRSR (R140, R167): the special registers that they write, and what WRSR faults on.
-/

namespace Sys2Proof.Machine
open Claims

/-- The hazards of a uniform instruction without a guard are those of its reads. -/
theorem uniClear_seven {s : State} {rds : List Rd} (h : Clear s s.dev.cur.lanes (.c 7 :: rds)) : UniClear s 7 false rds := by
  rw [UniClear, condUnder_seven, if_pos rfl]
  exact h

theorem flgclr_goes {o : Lk} {s : State} (hc : LaneClear s 7 false []) :
    Goes (.flgclr o) s (modSkein (moved s o.w (lenOf o.xl) false) s.dev.cur.skein fun k =>
      modThreads k (lanesOf s.dev.cur.lanes) fun _ t => { t with flags := t.flags &&& ~~~((kNatural o).setWidth 5) }) :=
  goes_laneDone (h := hd o.w (lenOf o.xl) []) (f := fun m d => laneIssue m d (hd o.w (lenOf o.xl) []) _) rfl rfl rfl rfl hc
    (by rw [← immOf_natural]; rfl)

/-- A rounding field of 5 to 7 is written as 0 (R167). -/
theorem fpmodeOf_eq (a : Word) :
    fpmodeOf a = (if 5 ≤ a.toNat % 8 then 0 else a.setWidth 3).setWidth 4 ||| (a.setWidth 4 &&& 8) := by
  have hlow : ∀ x : BitVec 4, x = (x.setWidth 3).setWidth 4 ||| (x &&& 8) := by decide
  have hx : a.extractLsb' 0 4 = a.setWidth 4 := BitVec.eq_of_toNat_eq (by simp)
  have h3 : a.setWidth 3 = (a.setWidth 4).setWidth 3 := (BitVec.setWidth_setWidth_of_le a (by decide)).symm
  have hbits : bitsOf a 0 3 = a.toNat % 8 := congrArg (· % 8) (Nat.div_one _)
  rw [fpmodeOf, hx, hbits, h3]
  by_cases h : 5 ≤ a.toNat % 8
  · simp [h]
  · simp only [h, decide_false, Bool.false_eq_true, if_false]
    exact hlow _

section
variable {o : Lk} {s : State}

theorem wrsr_fpmode (hk : kNatural o = 0x0F) (hc : UniClear s 7 false [.s o.a 1]) :
    Goes (.wrsr o) s (modSkein (moved s o.w (lenOf o.xl) false) s.dev.cur.skein fun k =>
      { k with fpmode := fpmodeOf (uniReader s.dev o.a.toNat) }) := by
  have he : exec (.wrsr o) s = s.run fun m d => uniIssue m d (hd o.w (lenOf o.xl) [.s o.a 1]) fun da =>
      .done (modSkein da d.cur.skein fun k => { k with fpmode := fpmodeOf (uniReader d o.a.toNat) }) := by
    show execWrsr o s = _
    simp only [execWrsr, lkNat_eq, hk]
    rfl
  exact he.trans (run_uni (h := hd o.w (lenOf o.xl) [.s o.a 1]) hc (condUnder_seven s) rfl rfl)

/-- WRSR of %gublock (R167): the value checked, then written. -/
def gublockBody (o : Lk) (d da : Dev) : Res :=
  let x := readS64 d (curSkein d) o.a.toNat
  if x.toNat % 64 ≠ 0 then .fault (uniFault d .align x)
  else if nonCanon x then .fault { uniFault d .xlate x with sub := xlateCode .noncanon }
  else .done (modGroup da (curSkein d).gid fun g => { g with gublockNext := some x })

theorem exec_wrsr_gublock (hk : kNatural o = 0x11) : exec (.wrsr o) s = s.run fun m d =>
    uniIssue m d (hd o.w (lenOf o.xl) [.s o.a 2]) (gublockBody o d) := by
  have hbits (x : DWord) : bitsOf x 0 6 = x.toNat % 64 := bitsOf_zero 6
  show execWrsr o s = _
  simp only [execWrsr, lkNat_eq, hk, hbits, bne_iff_ne]
  rfl

variable (hk : kNatural o = 0x11) (hc : UniClear s 7 false [.s o.a 2])
include hk hc

theorem wrsr_gublock_done (ha : (readS64 s.dev (curSkein s.dev) o.a.toNat).toNat % 64 = 0)
    (hn : nonCanon (readS64 s.dev (curSkein s.dev) o.a.toNat) = false) :
    Goes (.wrsr o) s (modGroup (moved s o.w (lenOf o.xl) false) (curSkein s.dev).gid fun g =>
      { g with gublockNext := some (readS64 s.dev (curSkein s.dev) o.a.toNat) }) :=
  (exec_wrsr_gublock hk).trans (run_uni (h := hd o.w (lenOf o.xl) [.s o.a 2]) (body := fun _ => gublockBody o) hc (condUnder_seven s)
    (by simp only [gublockBody, ha, hn, ne_eq, not_true_eq_false, if_false, Bool.false_eq_true]; rfl) rfl)

theorem wrsr_gublock_fault {f : FaultInfo} (hb : ∀ da, gublockBody o s.dev da = .fault f) :
    Goes (.wrsr o) s (trapped s o.w (lenOf o.xl) false f) :=
  (exec_wrsr_gublock hk).trans (run_uni_fault (h := hd o.w (lenOf o.xl) [.s o.a 2]) (body := fun _ => gublockBody o) false hc
    (condUnder_seven s) (hb _) rfl)

end

/-! ## The statement -/

/-- Settles O12: each clause is the lemma of its register and outcome. -/
theorem specialRegistersWritten : Obligations.SpecialRegistersWritten := by
  intro o s _ u on a p wrsr fault
  refine ⟨flgclr_goes, fun hk hc => ?_, fun hk hc => ⟨wrsr_gublock_done hk (uniClear_seven hc), fun ha => ?_, fun ha hn => ?_⟩⟩
  · have h := wrsr_fpmode hk (uniClear_seven hc)
    rw [fpmodeOf_eq] at h
    exact h
  · exact wrsr_gublock_fault hk (uniClear_seven hc) fun da => if_pos ha
  · exact wrsr_gublock_fault hk (uniClear_seven hc) fun da => (if_neg (not_not.2 ha)).trans (if_pos hn)

end Sys2Proof.Machine
end

section
/-!
PROOFS. MOV with queue registers (R124, R125, R394): pushes of one word and pops of one element for each executing lane.
-/

namespace Sys2Proof.Machine
open Claims

/-! ## Breakers of the lane set -/

section
variable {i : Instr} {s : State} {h : Hd} {body : Mgmt → Dev → Mask → Dev → Res}
  (he : exec i s = s.run fun m d => laneIssue m d h (body m d)) (hf : h.fp64 = false) (hc : LaneClear s h.p h.n h.rds)
  (hends : h.ends = BitVec.allOnes 32)
include he hf hc hends

/-- A lane instruction that ends the regions of the executing lanes and is performed, faults, or parks (R65). -/
theorem goes_breakerDone {d1 : Dev}
    (hb : body s.mgmt s.dev (lanesUnder s h.p h.n) (movedIn s h.w h.len (lanesUnder s h.p h.n)) = .done d1) : Goes i s d1 :=
  he.trans (run_lane hc (by rw [hends, BitVec.allOnes_and]; exact hb) hf)

theorem goes_breakerFault {f : FaultInfo}
    (hb : body s.mgmt s.dev (lanesUnder s h.p h.n) (movedIn s h.w h.len (lanesUnder s h.p h.n)) = .fault f) :
    Goes i s (trapped s h.w h.len true f) := he.trans (run_lane_fault true hc (by rw [hends, BitVec.allOnes_and]; exact hb) hf)

theorem goes_breakerPark {d1 : Dev} {p : Park}
    (hb : body s.mgmt s.dev (lanesUnder s h.p h.n) (movedIn s h.w h.len (lanesUnder s h.p h.n)) = .park d1 p) :
    Goes i s (parkedIn s h.w h.len (lanesUnder s h.p h.n) d1 p) := by
  have hr := run_lane_park hc (by rw [hends, BitVec.allOnes_and]; exact hb) hf
  rw [hends, BitVec.allOnes_and] at hr
  exact he.trans hr

end

theorem lanesOf_eq_nil_iff {m : Mask} : lanesOf m = [] ↔ m = 0 := by
  refine ⟨fun h => ?_, fun h => ?_⟩
  · by_contra hne
    obtain ⟨l, hl⟩ := exists_lane_of_ne_zero hne
    rw [h] at hl
    cases hl
  · rw [h]; decide

/-! ## What a push and a pop come to -/

section
variable {m : Mgmt} {d da : Dev} {o : Lr} {ty : BitVec 4} {ex : Mask}

theorem movPush_of_idle (h : lanesOf ex = []) : movPush m d da o ty ex = .done da := by
  rw [movPush, lanesOf_eq_nil_iff.1 h]
  rfl

theorem movPop_of_idle (h : lanesOf ex = []) : movPop d da o ty ex = .done da := by
  simp only [movPop, h, List.isEmpty_nil, if_true]

variable (hex : lanesOf ex ≠ [])
include hex

theorem movPush_of_unbound (h : (qOf (curSkein d) (qNo o.d)).bound = false ∨ (qOf (curSkein d) (qNo o.d)).ep ≠ 0 ∨ tyRegs ty ≠ 1) :
    movPush m d da o ty ex = .fault (faultAt .queueuse 0 ex) := by
  have h0 : (ex == 0) = false := beq_eq_false_iff_ne.2 (mt lanesOf_eq_nil_iff.2 hex)
  have hbad : (!(qOf (curSkein d) (qNo o.d)).bound || (qOf (curSkein d) (qNo o.d)).ep != 0 || tyRegs ty != 1) = true := by
    simpa [or_assoc] using h
  simp only [movPush, h0, hbad, Bool.false_eq_true, if_false, if_true]

theorem movPop_of_unbound (h : (qOf (curSkein d) (qNo o.a)).bound = false ∨ (qOf (curSkein d) (qNo o.a)).ep ≠ 6 ∨ tyRegs ty ≠ 1) :
    movPop d da o ty ex = .fault (faultAt .queueuse 0 ex) := by
  have hbad : (!(qOf (curSkein d) (qNo o.a)).bound || (qOf (curSkein d) (qNo o.a)).ep != 6 || tyRegs ty != 1) = true := by
    simpa [or_assoc] using h
  simp only [movPop, List.isEmpty_iff, hex, hbad, if_false, if_true]

section
variable (hb : (qOf (curSkein d) (qNo o.d)).bound = true) (hep : (qOf (curSkein d) (qNo o.d)).ep = 0) (hn : tyRegs ty = 1)
include hb hep hn

/-- A push of a word for each executing lane is what the tiler makes of it (R394). -/
theorem movPush_of_bound {r : TilerPush} (hr : pushTiler m d da (qNo o.d) ((lanesOf ex).map fun l => laneReader d l o.a.toNat) = r) :
    (∀ d1, r = .ok d1 → movPush m d da o ty ex = .done d1) ∧
      (r = .refused → movPush m d da o ty ex = .fault (faultAt .queueuse 0 ex)) ∧
      (r = .full → movPush m d da o ty ex = .park d .tiler) := by
  have h0 : (ex == 0) = false := beq_eq_false_iff_ne.2 (mt lanesOf_eq_nil_iff.2 hex)
  refine ⟨fun d1 h => ?_, fun h => ?_, fun h => ?_⟩ <;>
    simp only [movPush, h0, hb, hep, hn, hr, h, bne_self_eq_false, Bool.not_true, Bool.or_self, Bool.false_eq_true, if_false]

end

variable (hb : (qOf (curSkein d) (qNo o.a)).bound = true) (hep : (qOf (curSkein d) (qNo o.a)).ep = 6) (hn : tyRegs ty = 1)
include hb hep hn

theorem movPop_of_few (h : (qOf (curSkein d) (qNo o.a)).elems.length < (lanesOf ex).length) :
    movPop d da o ty ex = .park d .queue := by
  simp only [movPop, List.isEmpty_iff, hex, hb, hep, hn, h, bne_self_eq_false, Bool.not_true, Bool.or_self, Bool.false_eq_true,
    if_false, if_true]

theorem movPop_of_enough (h : (lanesOf ex).length ≤ (qOf (curSkein d) (qNo o.a)).elems.length) :
    movPop d da o ty ex = .done (addPend (setQ da d.cur.skein (qNo o.a) { qOf (curSkein d) (qNo o.a) with
        elems := (qOf (curSkein d) (qNo o.a)).elems.drop (lanesOf ex).length }) d.cur.skein latAlu
      (((lanesOf ex).zip (qOf (curSkein d) (qNo o.a)).elems).flatMap fun e => res1 (wrV e.1) o.d e.2.toNat)) := by
  simp only [movPop, List.isEmpty_iff, hex, hb, hep, hn, Nat.not_lt.2 h, bne_self_eq_false, Bool.not_true, Bool.or_self,
    Bool.false_eq_true, if_false]

end

/-! ## MOV -/

theorem exec_mov_push {o : Lr} (s : State) (hdst : 120 ≤ o.d.toNat) (ha : o.a.toNat < 120) : exec (.mov o) s =
    s.run fun m d => laneIssue m d
      { hdXm o.w (lenOf o.xm) (lrXm o 0) [.v o.a (tyRegs (lrXm o 0).ty)] with ends := endsIf true }
      fun ex da => movPush m d da o (lrXm o 0).ty ex := by
  show execMov o s = _
  simp only [execMov, isQ_of_lt ha, isQ_of_le hdst, Bool.false_eq_true, if_false, if_true]

theorem exec_mov_pop {o : Lr} (s : State) (hdst : o.d.toNat < 120) (ha : 120 ≤ o.a.toNat) : exec (.mov o) s =
    s.run fun m d => laneIssue m d { hdXm o.w (lenOf o.xm) (lrXm o 0) [] with ends := endsIf true }
      fun ex da => movPop d da o (lrXm o 0).ty ex := by
  show execMov o s = _
  simp only [execMov, isQ_of_le ha, isQ_of_lt hdst, Bool.false_eq_true, if_false, if_true]

section
variable {o : Lr} {s : State}

section
variable (hdst : 120 ≤ o.d.toNat) (ha : o.a.toNat < 120) (hc : LaneClear s (lrXm o 0).p (lrXm o 0).n [.v o.a (tyRegs (lrXm o 0).ty)])
include hdst ha hc

theorem mov_push_done {d1 : Dev} (hb : movPush s.mgmt s.dev (movedIn s o.w (lenOf o.xm) (lanesUnder s (lrXm o 0).p (lrXm o 0).n)) o
    (lrXm o 0).ty (lanesUnder s (lrXm o 0).p (lrXm o 0).n) = .done d1) : Goes (.mov o) s d1 :=
  goes_breakerDone (body := fun m d ex da => movPush m d da o (lrXm o 0).ty ex) (exec_mov_push s hdst ha) rfl hc rfl hb

theorem mov_push_fault {f : FaultInfo}
    (hb : movPush s.mgmt s.dev (movedIn s o.w (lenOf o.xm) (lanesUnder s (lrXm o 0).p (lrXm o 0).n)) o (lrXm o 0).ty
      (lanesUnder s (lrXm o 0).p (lrXm o 0).n) = .fault f) :
    Goes (.mov o) s (trapped s o.w (lenOf o.xm) true f) :=
  goes_breakerFault (body := fun m d ex da => movPush m d da o (lrXm o 0).ty ex) (exec_mov_push s hdst ha) rfl hc rfl hb

theorem mov_push_park {d1 : Dev} {p : Park}
    (hb : movPush s.mgmt s.dev (movedIn s o.w (lenOf o.xm) (lanesUnder s (lrXm o 0).p (lrXm o 0).n)) o (lrXm o 0).ty
      (lanesUnder s (lrXm o 0).p (lrXm o 0).n) = .park d1 p) :
    Goes (.mov o) s (parkedIn s o.w (lenOf o.xm) (lanesUnder s (lrXm o 0).p (lrXm o 0).n) d1 p) :=
  goes_breakerPark (body := fun m d ex da => movPush m d da o (lrXm o 0).ty ex) (exec_mov_push s hdst ha) rfl hc rfl hb

end

variable (hdst : o.d.toNat < 120) (ha : 120 ≤ o.a.toNat) (hc : LaneClear s (lrXm o 0).p (lrXm o 0).n [])
include hdst ha hc

theorem mov_pop_done {d1 : Dev} (hb : movPop s.dev (movedIn s o.w (lenOf o.xm) (lanesUnder s (lrXm o 0).p (lrXm o 0).n)) o
    (lrXm o 0).ty (lanesUnder s (lrXm o 0).p (lrXm o 0).n) = .done d1) : Goes (.mov o) s d1 :=
  goes_breakerDone (body := fun _ d ex da => movPop d da o (lrXm o 0).ty ex) (exec_mov_pop s hdst ha) rfl hc rfl hb

theorem mov_pop_fault {f : FaultInfo}
    (hb : movPop s.dev (movedIn s o.w (lenOf o.xm) (lanesUnder s (lrXm o 0).p (lrXm o 0).n)) o (lrXm o 0).ty
      (lanesUnder s (lrXm o 0).p (lrXm o 0).n) = .fault f) :
    Goes (.mov o) s (trapped s o.w (lenOf o.xm) true f) :=
  goes_breakerFault (body := fun _ d ex da => movPop d da o (lrXm o 0).ty ex) (exec_mov_pop s hdst ha) rfl hc rfl hb

theorem mov_pop_park {d1 : Dev} {p : Park}
    (hb : movPop s.dev (movedIn s o.w (lenOf o.xm) (lanesUnder s (lrXm o 0).p (lrXm o 0).n)) o (lrXm o 0).ty
      (lanesUnder s (lrXm o 0).p (lrXm o 0).n) = .park d1 p) :
    Goes (.mov o) s (parkedIn s o.w (lenOf o.xm) (lanesUnder s (lrXm o 0).p (lrXm o 0).n) d1 p) :=
  goes_breakerPark (body := fun _ d ex da => movPop d da o (lrXm o 0).ty ex) (exec_mov_pop s hdst ha) rfl hc rfl hb

end

end Sys2Proof.Machine
end

section
/-!
PROOFS. SMOV with queue registers (R160): pushes of one element, pops of one element, and commands pushed to an engine's queue (R282,
R293).
-/

namespace Sys2Proof.Machine
open Claims

/-! ## A load made once for the bundle, and a command's block (R282) -/

theorem bundleLoad_of_loaded {m : Mgmt} {d da d1 : Dev} {p : DWord} {n pol pa x lat : Nat} {undef : List PWrite} {undefPc : Bool}
    {f : Nat → Dev → Nat → Res} {a : LAcc} {l : Leaf} (hk : bundleChecks m d p n pol = .go [(a, l, pa)])
    (ho : ownedLine d [(a, l, pa)] = none) (hl : loadVia m da (curCtx d) (curSpindle d) p l pa n pol 0 = .ok (x, d1, lat)) :
    bundleLoad m d da p n pol undef undefPc f = f (bundleOver m d pa n x) (useCurr d1 (usedBy pol l pa)) (max lat latL1) := by
  simp only [bundleLoad, hk, ho, hl]

section
variable {m : Mgmt} {d da d1 : Dev} {op tag pa x lat : Nat} {rel : Bool} {p : DWord} {a : LAcc} {l : Leaf}
  (hk : bundleChecks m d p 64 0 = .go [(a, l, pa)]) (ho : ownedLine d [(a, l, pa)] = none)
  (hl : loadVia m (if (curGroup d).busy.getLsbD tag then d else da) (curCtx d) (curSpindle d) p l pa 64 0 0 = .ok (x, d1, lat))
include hk ho hl

/-- A command whose tag is busy keeps the block it has read (R259). -/
theorem commandAt_of_busy (hb : (curGroup d).busy.getLsbD tag = true) : commandAt m d da op tag rel p =
    .park (useCurr d1 (usedBy 0 l pa)) (.tag tag op rel p (BitVec.ofNat 512 (bundleOver m d pa 64 x))) := by
  rw [commandAt, cmdBase, bundleLoad_of_loaded hk ho hl, handOver, if_pos hb]
  rfl

theorem commandAt_of_sent {d3 : Dev} (hb : (curGroup d).busy.getLsbD tag = false)
    (hh : cmdHazard m d d.cur.skein op (BitVec.ofNat 512 (bundleOver m d pa 64 x)) = false)
    (hs : sendCmd m (useCurr d1 (usedBy 0 l pa)) d.cur.skein d.cur.pc op tag rel p (BitVec.ofNat 512 (bundleOver m d pa 64 x)) =
      .ok d3) : commandAt m d da op tag rel p = .done d3 := by
  rw [commandAt, cmdBase, bundleLoad_of_loaded hk ho hl]
  simp only [handOver, hb, hh, hs, Bool.false_eq_true, if_false, wordFault]

end

/-! ## What a push comes to -/

section
variable {m : Mgmt} {d da : Dev} {o : Lr} {ty : BitVec 4}

theorem smovPush_of_unbound (h : uniBound (qOf (curSkein d) (qNo o.d)) (tyRegs ty) = none) :
    smovPush m d da o ty = .fault (faultAt .queueuse 0 d.cur.lanes) := by
  unfold smovPush
  simp only [h, uniFault]

section
variable (h : uniBound (qOf (curSkein d) (qNo o.d)) (tyRegs ty) = some 1)
include h

/-- The first element of a record is kept. -/
theorem smovPush_of_first (hy : (qOf (curSkein d) (qNo o.d)).half = none) : smovPush m d da o ty =
    .done (setQ da d.cur.skein (qNo o.d) { qOf (curSkein d) (qNo o.d) with
      half := some (BitVec.ofNat 128 (joinRegs (uniReader d) o.a.toNat (tyRegs ty))) }) := by
  unfold smovPush
  simp only [h, hy]

variable {y : BitVec 128} (hy : (qOf (curSkein d) (qNo o.d)).half = some y)
include hy

theorem smovPush_of_full (hf : spoolFull m d (curCtx d) (qOf (curSkein d) (qNo o.d)).prio = true) :
    smovPush m d da o ty = .park d .queue := by
  unfold smovPush
  simp only [h, hy, hf, if_true]

/-- The second element of a record is written with the first. -/
theorem smovPush_of_room {d1 : Dev} (hf : spoolFull m d (curCtx d) (qOf (curSkein d) (qNo o.d)).prio = false)
    (hp : pushSpool m da (curCtx d) (qOf (curSkein d) (qNo o.d)).prio
      (y.toNat + 2 ^ 128 * joinRegs (uniReader d) o.a.toNat (tyRegs ty)) = .ok d1) : smovPush m d da o ty =
    .done (setQ d1 d.cur.skein (qNo o.d) { qOf (curSkein d) (qNo o.d) with half := none }) := by
  unfold smovPush
  simp only [h, hy, hf, hp, Bool.false_eq_true, if_false, distRes]

end

/-- The elements that are commands of the engine of an endpoint, for tags of the group (R285, R293). -/
def Commands (g : Group) (ep v : Nat) : Prop :=
  ((ep = 2 ∧ 0x53 ≤ v / 2 ^ 64 % 256 ∧ v / 2 ^ 64 % 256 ≤ 0x57) ∨ (ep = 3 ∧ 0x50 ≤ v / 2 ^ 64 % 256 ∧ v / 2 ^ 64 % 256 ≤ 0x52)) ∧
    (hTagBase g.header ≤ v / 2 ^ 72 % 64 ∧ v / 2 ^ 72 % 64 < hTagBase g.header + hTagCnt g.header) ∧ v < 2 ^ 78

/-- The test of an element pushed to an engine's queue is that it is a command. -/
theorem commands_iff (g : Group) (ep v : Nat) : Commands g ep v ↔ (ep != 2 && ep != 3) = false ∧
    (!(if ep == 2 then decide (0x53 ≤ v / 2 ^ 64 % 256) && decide (v / 2 ^ 64 % 256 ≤ 0x57)
        else decide (0x50 ≤ v / 2 ^ 64 % 256) && decide (v / 2 ^ 64 % 256 ≤ 0x52)) || v / 2 ^ 78 != 0 ||
      !(decide (hTagBase g.header ≤ v / 2 ^ 72 % 64) && decide (v / 2 ^ 72 % 64 < hTagBase g.header + hTagCnt g.header))) = false := by
  have hv : v < 2 ^ 78 ↔ v / 2 ^ 78 = 0 := (Nat.div_eq_zero_iff_lt (by decide)).symm
  rw [Commands, hv]
  generalize v / 2 ^ 64 % 256 = op
  generalize v / 2 ^ 72 % 64 = tag
  generalize v / 2 ^ 78 = high
  by_cases h2 : ep = 2
  · subst h2; simp; tauto
  · by_cases h3 : ep = 3
    · subst h3; simp; tauto
    · simp [h2, h3]

/-- Two tests with one outcome. -/
theorem ite_ite_of_tests {α : Type} (a b : Bool) (x y : α) :
    (¬ (a = false ∧ b = false) → (if a then x else if b then x else y) = x) ∧
      (a = false ∧ b = false → (if a then x else if b then x else y) = y) := by
  cases a <;> cases b <;> simp

/-- A push to an engine's queue is a command, if the element is one. -/
theorem smovPush_engine {ep : Nat} (h : uniBound (qOf (curSkein d) (qNo o.d)) (tyRegs ty) = some ep) (h1 : ep ≠ 1) :
    let v := joinRegs (uniReader d) o.a.toNat (tyRegs ty)
    (¬ Commands (curGroup d) ep v → smovPush m d da o ty = .fault (faultAt .queueuse 0 d.cur.lanes)) ∧
      (Commands (curGroup d) ep v →
        smovPush m d da o ty = commandAt m d da (v / 2 ^ 64 % 256) (v / 2 ^ 72 % 64) false (BitVec.ofNat 64 v)) := by
  intro v
  rw [commands_iff]
  unfold smovPush
  simp only [h]
  exact ite_ite_of_tests _ _ _ _

end

/-! ## What a pop comes to -/

section
variable {m : Mgmt} {d da : Dev} {o : Lr} {ty : BitVec 4}

theorem smovPop_of_unbound (h : uniBound (qOf (curSkein d) (qNo o.a)) (tyRegs ty) = none) :
    smovPop m d da o ty = .fault (faultAt .queueuse 0 d.cur.lanes) := by
  unfold smovPop
  simp only [h, uniFault]

theorem smovPop_of_engine (h : uniBound (qOf (curSkein d) (qNo o.a)) (tyRegs ty) = some 2 ∨
    uniBound (qOf (curSkein d) (qNo o.a)) (tyRegs ty) = some 3) : smovPop m d da o ty = .fault (faultAt .queueuse 0 d.cur.lanes) := by
  unfold smovPop
  rcases h with h | h <;> simp only [h] <;> rfl

section
variable (h : uniBound (qOf (curSkein d) (qNo o.a)) (tyRegs ty) = some 4 ∨ uniBound (qOf (curSkein d) (qNo o.a)) (tyRegs ty) = some 5)
include h

theorem smovPop_of_empty (he : (qOf (curSkein d) (qNo o.a)).elems = []) : smovPop m d da o ty = .park d .queue := by
  unfold smovPop
  rcases h with h | h <;> simp only [h, he] <;> rfl

theorem smovPop_of_element {e : DWord} {r : List DWord} (he : (qOf (curSkein d) (qNo o.a)).elems = e :: r) : smovPop m d da o ty =
    .done (addPend (setQ da d.cur.skein (qNo o.a) { qOf (curSkein d) (qNo o.a) with elems := r }) d.cur.skein latUni
      (splitRegs wrS o.d.toNat e.toNat (tyRegs ty))) := by
  unfold smovPop
  rcases h with h | h <;> simp only [h, he] <;> rfl

end

variable (h : uniBound (qOf (curSkein d) (qNo o.a)) (tyRegs ty) = some 1)
include h

/-- The second element of a record is the half kept. -/
theorem smovPop_of_half {y : BitVec 128} (hy : (qOf (curSkein d) (qNo o.a)).popHalf = some y) : smovPop m d da o ty =
    .done (addPend (setQ da d.cur.skein (qNo o.a) { qOf (curSkein d) (qNo o.a) with popHalf := none }) d.cur.skein latUni
      (splitRegs wrS o.d.toNat y.toNat (tyRegs ty))) := by
  unfold smovPop
  simp only [h, hy]

variable (hy : (qOf (curSkein d) (qNo o.a)).popHalf = none)
include hy

theorem smovPop_of_no_record (hs : (spoolOf d (curCtx d) (qOf (curSkein d) (qNo o.a)).prio).push ≤
    (spoolOf d (curCtx d) (qOf (curSkein d) (qNo o.a)).prio).pop) : smovPop m d da o ty = .park d .queue := by
  unfold smovPop
  simp only [h, hy, hs, if_true]

theorem smovPop_of_record {y : Nat} {d1 : Dev} (hs : (spoolOf d (curCtx d) (qOf (curSkein d) (qNo o.a)).prio).pop <
      (spoolOf d (curCtx d) (qOf (curSkein d) (qNo o.a)).prio).push)
    (hr : distRead m da (curCtx d) (spoolEntry m (curCtx d) (qOf (curSkein d) (qNo o.a)).prio
      (spoolOf d (curCtx d) (qOf (curSkein d) (qNo o.a)).prio).pop) 32 32 = .ok (y, d1)) : smovPop m d da o ty =
    .done (addPend (setQ (spoolPopped d1 (curCtx d) (qOf (curSkein d) (qNo o.a)).prio) d.cur.skein (qNo o.a)
      { qOf (curSkein d) (qNo o.a) with popHalf := some (BitVec.ofNat 128 (y / 2 ^ 128)) }) d.cur.skein latUni
      (splitRegs wrS o.d.toNat (y % 2 ^ 128) (tyRegs ty))) := by
  unfold smovPop
  simp only [h, hy, Nat.not_le.2 hs, if_false, hr]

end

/-! ## SMOV -/

theorem exec_smov_push {o : Lr} (s : State) (hdst : 120 ≤ o.d.toNat) : exec (.smov o) s = s.run fun m d => uniIssue m d
    { hdXm o.w (lenOf o.xm) (lrXm o 0) (if isQ o.a then [] else [.s o.a (tyRegs (lrXm o 0).ty)]) with ends := endsIf true }
    fun da => smovPush m d da o (lrXm o 0).ty := by
  show execSmov o s = _
  simp only [execSmov, isQ_of_le hdst, if_true]

theorem exec_smov_push_regs {o : Lr} (s : State) (hdst : 120 ≤ o.d.toNat) (ha : o.a.toNat < 120) : exec (.smov o) s =
    s.run fun m d => uniIssue m d { hdXm o.w (lenOf o.xm) (lrXm o 0) [.s o.a (tyRegs (lrXm o 0).ty)] with ends := endsIf true }
      fun da => smovPush m d da o (lrXm o 0).ty := by
  rw [exec_smov_push s hdst, isQ_of_lt ha, if_neg Bool.false_ne_true]

theorem exec_smov_pop {o : Lr} (s : State) (hdst : o.d.toNat < 120) (ha : 120 ≤ o.a.toNat) : exec (.smov o) s =
    s.run fun m d => uniIssue m d { hdXm o.w (lenOf o.xm) (lrXm o 0) [] with ends := endsIf true }
      fun da => smovPop m d da o (lrXm o 0).ty := by
  show execSmov o s = _
  simp only [execSmov, isQ_of_le ha, isQ_of_lt hdst, Bool.false_eq_true, if_false, if_true]

end Sys2Proof.Machine
end

section
/-!
PROOFS. Queue registers bound, freed and read (R290 to R293), SPAWN (R177), and the statement about queues.
-/

namespace Sys2Proof.Machine
open Claims

/-! ## Instructions of the uniform set that are performed, fault or park -/

section
variable {i : Instr} {s : State} {h : Hd} {body : Mgmt → Dev → Dev → Res}
  (he : exec i s = s.run fun m d => uniIssue m d h (body m d)) (hf : h.fp64 = false) (hc : UniClear s h.p h.n h.rds)
  (hg : condUnder s h.p h.n = true)
include he hf hc hg

theorem goes_uniformDone {d1 : Dev} (hb : body s.mgmt s.dev (movedIn s h.w h.len h.ends) = .done d1) : Goes i s d1 :=
  he.trans (run_uni hc hg hb hf)

theorem goes_uniformFault {f : FaultInfo} (brk : Bool) (hb : body s.mgmt s.dev (movedIn s h.w h.len h.ends) = .fault f) :
    Goes i s (trapped s h.w h.len brk f) := he.trans (run_uni_fault brk hc hg hb hf)

theorem goes_uniformPark {d1 : Dev} {p : Park} (hb : body s.mgmt s.dev (movedIn s h.w h.len h.ends) = .park d1 p) :
    Goes i s (parkedIn s h.w h.len h.ends d1 p) := he.trans (run_uni_park hc hg hb hf)

end

/-! ## SMOV -/

section
variable {o : Lr} {s : State}

/-- Under a guard condition that fails no source is read. -/
theorem uniClear_of_off {p : BitVec 3} {n : Bool} (rds : List Rd) (hg : condUnder s p n = false) (hc : UniClear s p n []) :
    UniClear s p n rds := by
  rw [UniClear, hg] at hc ⊢
  exact hc

theorem smov_skip (hq : 120 ≤ o.d.toNat ∨ 120 ≤ o.a.toNat) (hg : condUnder s (lrXm o 0).p (lrXm o 0).n = false)
    (hc : UniClear s (lrXm o 0).p (lrXm o 0).n []) : Goes (.smov o) s (moved s o.w (lenOf o.xm) false) := by
  by_cases hdst : 120 ≤ o.d.toNat
  · exact (exec_smov_push s hdst).trans
      (run_uni_skip (body := fun m d da => smovPush m d da o (lrXm o 0).ty) (uniClear_of_off _ hg hc) hg rfl)
  · have ha := hq.resolve_left hdst
    exact (exec_smov_pop s (Nat.not_le.1 hdst) ha).trans
      (run_uni_skip (h := { hdXm o.w (lenOf o.xm) (lrXm o 0) [] with ends := endsIf true })
        (body := fun m d da => smovPop m d da o (lrXm o 0).ty) (uniClear_of_off _ hg hc) hg rfl)

variable (hg : condUnder s (lrXm o 0).p (lrXm o 0).n = true)
include hg

section
variable (hdst : 120 ≤ o.d.toNat) (ha : o.a.toNat < 120) (hc : UniClear s (lrXm o 0).p (lrXm o 0).n [.s o.a (tyRegs (lrXm o 0).ty)])
include hdst ha hc

theorem smov_push_done {d1 : Dev} (hb : smovPush s.mgmt s.dev (moved s o.w (lenOf o.xm) true) o (lrXm o 0).ty = .done d1) :
    Goes (.smov o) s d1 :=
  goes_uniformDone (body := fun m d da => smovPush m d da o (lrXm o 0).ty) (exec_smov_push_regs s hdst ha) rfl hc hg hb

theorem smov_push_fault {f : FaultInfo} (hb : smovPush s.mgmt s.dev (moved s o.w (lenOf o.xm) true) o (lrXm o 0).ty = .fault f) :
    Goes (.smov o) s (trapped s o.w (lenOf o.xm) true f) :=
  goes_uniformFault (body := fun m d da => smovPush m d da o (lrXm o 0).ty) (exec_smov_push_regs s hdst ha) rfl hc hg true hb

theorem smov_push_park {d1 : Dev} {p : Park} (hb : smovPush s.mgmt s.dev (moved s o.w (lenOf o.xm) true) o (lrXm o 0).ty = .park d1 p) :
    Goes (.smov o) s (parked s o.w (lenOf o.xm) true d1 p) :=
  goes_uniformPark (body := fun m d da => smovPush m d da o (lrXm o 0).ty) (exec_smov_push_regs s hdst ha) rfl hc hg hb

end

variable (hdst : o.d.toNat < 120) (ha : 120 ≤ o.a.toNat) (hc : UniClear s (lrXm o 0).p (lrXm o 0).n [])
include hdst ha hc

theorem smov_pop_done {d1 : Dev} (hb : smovPop s.mgmt s.dev (moved s o.w (lenOf o.xm) true) o (lrXm o 0).ty = .done d1) :
    Goes (.smov o) s d1 :=
  goes_uniformDone (body := fun m d da => smovPop m d da o (lrXm o 0).ty) (exec_smov_pop s hdst ha) rfl hc hg hb

theorem smov_pop_fault {f : FaultInfo} (hb : smovPop s.mgmt s.dev (moved s o.w (lenOf o.xm) true) o (lrXm o 0).ty = .fault f) :
    Goes (.smov o) s (trapped s o.w (lenOf o.xm) true f) :=
  goes_uniformFault (body := fun m d da => smovPop m d da o (lrXm o 0).ty) (exec_smov_pop s hdst ha) rfl hc hg true hb

theorem smov_pop_park {d1 : Dev} {p : Park} (hb : smovPop s.mgmt s.dev (moved s o.w (lenOf o.xm) true) o (lrXm o 0).ty = .park d1 p) :
    Goes (.smov o) s (parked s o.w (lenOf o.xm) true d1 p) :=
  goes_uniformPark (body := fun m d da => smovPop m d da o (lrXm o 0).ty) (exec_smov_pop s hdst ha) rfl hc hg hb

end

/-! ## QBIND, QFREE and QSTAT -/

theorem exec_qbind (o : Ue) (s : State) : exec (.qbind o) s = execQbind o s := rfl
theorem exec_qfree (o : Ue) (s : State) : exec (.qfree o) s = execQfree o s := rfl
theorem exec_qstat (o : Lk) (s : State) : exec (.qstat o) s = execQstat o s := rfl
theorem exec_spawn (o : Ue) (s : State) : exec (.spawn o) s = execSpawn o s := rfl

theorem curSkein_uid {s : State} (hi : Issuing s) : (curSkein s.dev).uid = s.dev.cur.skein := by
  obtain ⟨k, hk⟩ := Option.isSome_iff_exists.1 hi
  have huid : (k.uid == s.dev.cur.skein) = true :=
    List.find?_some (p := fun k : Skein => k.uid == s.dev.cur.skein) hk
  rw [curSkein, skeinOf, hk]
  exact beq_iff_eq.1 huid

section
variable {o : Ue} {s : State} (hc : UniClear s 7 false [])
include hc

/-- A binding that QBIND refuses (R291): of a bound register, of an unset spool queue, a second one of an endpoint from 4 on. -/
def badBinding (m : Mgmt) (d : Dev) (o : Ue) : Bool :=
  (qOf (curSkein d) (qNo o.sp)).bound || (bitsOf o.tag 0 4 == 1 && spoolBase m (curCtx d) (bitsOf o.tag 4 2) == 0) ||
    (decide (4 ≤ bitsOf o.tag 0 4) && (curSkein d).q.toList.any fun q => q.bound && q.ep == bitsOf o.tag 0 4)

theorem qbind_of_bad (hb : badBinding s.mgmt s.dev o = true) :
    Goes (.qbind o) s (trapped s o.w 4 true (faultAt .queueuse 0 s.dev.cur.lanes)) :=
  goes_uniformFault (h := hdUe o 4 []) (exec_qbind o s) rfl hc (condUnder_seven s) true (if_pos hb)

theorem qbind_of_free (hi : Issuing s) (hb : badBinding s.mgmt s.dev o = false) :
    Goes (.qbind o) s (setQ (moved s o.w 4 true) s.dev.cur.skein (qNo o.sp) { blankQ with
      bound := true
      ep := bitsOf o.tag 0 4
      prio := bitsOf o.tag 4 2 }) := by
  rw [← curSkein_uid hi]
  exact goes_uniformDone (h := hdUe o 4 []) (exec_qbind o s) rfl hc (condUnder_seven s) (if_neg (Bool.eq_false_iff.1 hb))

theorem qfree_goes : Goes (.qfree o) s (setQ (moved s o.w 4 true) s.dev.cur.skein (qNo o.sp) blankQ) :=
  goes_uniformDone (h := hdUe o 4 []) (exec_qfree o s) rfl hc (condUnder_seven s) rfl

end

section
variable {o : Lk} {s : State} (hc : UniClear s 7 false [])
include hc

theorem qstat_of_det (hdet : isDet s.mgmt (curCtx s.dev) = true) : Goes (.qstat o) s
    (trapped s o.w (lenOf o.xl) false (detRead s.dev.cur.lanes false o.d.toNat 1)) :=
  goes_uniformFault (h := hd o.w (lenOf o.xl) []) (exec_qstat o s) rfl hc (condUnder_seven s) false (if_pos hdet)

/-- The state of a queue register as QSTAT writes it (R293). -/
def queueState (m : Mgmt) (d : Dev) (q : QReg) : Nat :=
  if q.bound then
    2 ^ 31 + (if q.ovf then 2 ^ 30 else 0) + (if q.half.isSome then 2 ^ 29 else 0) + qCount m d q * 2 ^ 16 + q.prio * 2 ^ 4 + q.ep
  else 0

theorem qstat_of_free (hdet : isDet s.mgmt (curCtx s.dev) = false) : Goes (.qstat o) s
    (addPend (moved s o.w (lenOf o.xl) false) s.dev.cur.skein 2 [.s o.d.toNat
      (BitVec.ofNat 32 (queueState s.mgmt s.dev (qOf (curSkein s.dev) ((kNatural o).toNat % 8))))]) := by
  refine goes_uniformDone (h := hd o.w (lenOf o.xl) []) (exec_qstat o s) rfl hc (condUnder_seven s) ?_
  simp only [hdet, Bool.false_eq_true, if_false, immOf_natural]
  generalize qOf (curSkein s.dev) ((kNatural o).toNat % 8) = q
  unfold queueState
  cases q.bound <;> cases q.ovf <;> cases q.half.isSome <;> rfl

end

/-! ## SPAWN (R177) -/

theorem curSpindle_moved {s : State} (hi : Issuing s) (w : Bool) (len : Nat) (brk : Bool) :
    curSpindle (moved s w len brk) = curSpindle s.dev := by
  have hgid : (curSkein (moved s w len brk)).gid = (curSkein s.dev).gid := by
    rw [curSkein, moved_cur]
    exact skeinOf_moved_gid w len brk hi
  obtain ⟨ks, qs, st, he⟩ := moved_eq s w len brk
  have hgroup : groupOf (moved s w len brk) = groupOf s.dev := by rw [he]; rfl
  rw [curSpindle, curSpindle, curGroup, curGroup, hgid, hgroup]

/-- The release that SPAWN makes when it asks for one. -/
def spawnRelease (m : Mgmt) (d0 d : Dev) (o : Ue) : MemM Dev :=
  if o.sub.getLsbD 2 then releaseAt m d (curCtx d0) (curSpindle d0) 4 else .ok d

section
variable {m : Mgmt} {d0 d : Dev} {o : Ue}

theorem spawnRelease_off (h : o.sub.getLsbD 2 = false) : spawnRelease m d0 d o = .ok d := if_neg (Bool.eq_false_iff.1 h)
theorem spawnRelease_on (h : o.sub.getLsbD 2 = true) :
    spawnRelease m d0 d o = releaseAt m d (curCtx d0) (curSpindle d0) 4 := if_pos h

end

section
variable {o : Ue} {s : State} (hc : UniClear s 7 false [.s o.sp 8])
include hc

theorem spawn_of_unset (hb : spoolBase s.mgmt (curCtx s.dev) (bitsOf o.sub 0 2) = 0) :
    Goes (.spawn o) s (trapped s o.w 4 true (faultAt .queueuse 0 s.dev.cur.lanes)) :=
  goes_uniformFault (h := hdUe o 4 [.s o.sp 8]) (exec_spawn o s) rfl hc (condUnder_seven s) true
    (if_pos (beq_iff_eq.2 hb))

variable (hb : spoolBase s.mgmt (curCtx s.dev) (bitsOf o.sub 0 2) ≠ 0)
include hb

/-- SPAWN waits while the queue is full, after its release. -/
theorem spawn_of_full {d1 : Dev} (hf : spoolFull s.mgmt s.dev (curCtx s.dev) (bitsOf o.sub 0 2) = true)
    (hr : spawnRelease s.mgmt s.dev s.dev o = .ok d1) : Goes (.spawn o) s (parked s o.w 4 true d1 .queue) := by
  refine goes_uniformPark (h := hdUe o 4 [.s o.sp 8]) (exec_spawn o s) rfl hc (condUnder_seven s) ?_
  rw [spawnRelease] at hr
  simp only [beq_eq_false_iff_ne.2 hb, hf, hr, Bool.false_eq_true, if_false, if_true]

/-- SPAWN writes its record, after its release. -/
theorem spawn_of_room (hi : Issuing s) {d1 d2 : Dev} (hf : spoolFull s.mgmt s.dev (curCtx s.dev) (bitsOf o.sub 0 2) = false)
    (hr : spawnRelease s.mgmt s.dev (moved s o.w 4 true) o = .ok d1)
    (hp : pushSpool s.mgmt d1 (curCtx s.dev) (bitsOf o.sub 0 2) (joinRegs (uniReader s.dev) o.sp.toNat 8) = .ok d2) :
    Goes (.spawn o) s d2 := by
  refine goes_uniformDone (h := hdUe o 4 [.s o.sp 8]) (exec_spawn o s) rfl hc (condUnder_seven s) ?_
  rw [spawnRelease, ← curSpindle_moved hi o.w 4 true] at hr
  show (if spoolBase s.mgmt (curCtx s.dev) (bitsOf o.sub 0 2) == 0 then _ else if spoolFull s.mgmt s.dev (curCtx s.dev) (bitsOf o.sub 0 2)
    then _ else match (if o.sub.getLsbD 2 then releaseAt s.mgmt (moved s o.w 4 true) (curCtx s.dev)
      (curSpindle (moved s o.w 4 true)) 4 else Except.ok (moved s o.w 4 true) : MemM Dev) with
      | .error _ => _
      | .ok _ => _) = _
  simp only [beq_eq_false_iff_ne.2 hb, hf, hr, Bool.false_eq_true, if_false, hp, distRes]

end

end Sys2Proof.Machine

/-! ## The statement -/

namespace Sys2Proof.Claims
open Machine

/-- Settles O37: each clause is the lemma of its instruction and outcome. -/
theorem queues : Obligations.Queues := by
  refine ⟨fun o s hi => ⟨fun hdst ha hty => mov_runs hi hty ha hdst, fun hdst ha hc => ⟨fun hl => ?_, fun hl hb => ?_,
      fun hl hb he hn => ?_⟩, fun hdst ha hc => ⟨fun hl => ?_, fun hl hb => ?_, fun hl hb he hn => ⟨fun hf => ?_, fun hf => ?_⟩⟩,
    fun hq hg hc => smov_skip hq hg hc, fun hdst ha hc hg => ⟨fun hu => ?_, fun hu => ⟨fun hy => ?_, fun y hy =>
      ⟨fun hf => ?_, fun d1 hf hp => ?_⟩⟩, fun ep hu h1 => ?_⟩, fun hdst ha hc hg => ⟨fun hu => ?_, fun hu => ⟨fun he => ?_,
      fun e r he => ?_⟩, fun hu => ?_, fun hu => ⟨fun y hy => ?_, fun hy hs => ?_, fun y d1 hy hs hr => ?_⟩⟩⟩,
    fun s hi => ⟨fun o => ⟨fun hc => ⟨qbind_of_bad hc, qbind_of_free hc hi, qfree_goes hc⟩, fun hc => ⟨spawn_of_unset hc,
      fun hb hf hr => ?_, fun d1 hb hf hr hd1 => ?_, fun d1 hb hf hr hp => ?_, fun d1 d2 hb hf hr hd1 hp => ?_⟩⟩,
      fun o hc => ⟨qstat_of_det hc, qstat_of_free hc⟩⟩⟩
  -- MOV pushes
  · exact mov_push_done hdst ha hc (movPush_of_idle hl)
  · exact mov_push_fault hdst ha hc (movPush_of_unbound hl hb)
  · obtain ⟨hok, hrefused, hfull⟩ := movPush_of_bound (da := movedIn s o.w (lenOf o.xm) (lanesUnder s (lrXm o 0).p (lrXm o 0).n))
      (m := s.mgmt) hl hb he hn rfl
    exact ⟨fun d1 h => mov_push_done hdst ha hc (hok d1 h), fun h => mov_push_fault hdst ha hc (hrefused h),
      fun h => mov_push_park hdst ha hc (hfull h)⟩
  -- MOV pops
  · exact mov_pop_done hdst ha hc (movPop_of_idle hl)
  · exact mov_pop_fault hdst ha hc (movPop_of_unbound hl hb)
  · exact mov_pop_park hdst ha hc (movPop_of_few hl hb he hn hf)
  · exact mov_pop_done hdst ha hc (movPop_of_enough hl hb he hn hf)
  -- SMOV pushes
  · exact smov_push_fault hg hdst ha hc (smovPush_of_unbound hu)
  · exact smov_push_done hg hdst ha hc (smovPush_of_first hu hy)
  · exact smov_push_park hg hdst ha hc (smovPush_of_full hu hy hf)
  · exact smov_push_done hg hdst ha hc (smovPush_of_room hu hy hf hp)
  · obtain ⟨hno, hyes⟩ := smovPush_engine (m := s.mgmt) (da := moved s o.w (lenOf o.xm) true) hu h1
    refine ⟨fun h => smov_push_fault hg hdst ha hc (hno h), fun a l pa y lat d1 hfits hmine hv hk ho hl => ?_⟩
    have hcmd := hyes ⟨hfits, hmine, hv⟩
    exact ⟨fun hb => smov_push_park hg hdst ha hc (hcmd.trans (commandAt_of_busy hk ho hl hb)),
      fun d3 hb hh hs => smov_push_done hg hdst ha hc (hcmd.trans (commandAt_of_sent hk ho hl hb hh hs))⟩
  -- SMOV pops
  · exact smov_pop_fault hg hdst ha hc (smovPop_of_unbound hu)
  · exact smov_pop_park hg hdst ha hc (smovPop_of_empty hu he)
  · exact smov_pop_done hg hdst ha hc (smovPop_of_element hu he)
  · exact smov_pop_fault hg hdst ha hc (smovPop_of_engine hu)
  · exact smov_pop_done hg hdst ha hc (smovPop_of_half hu hy)
  · exact smov_pop_park hg hdst ha hc (smovPop_of_no_record hu hy hs)
  · exact smov_pop_done hg hdst ha hc (smovPop_of_record hu hy hs hr)
  -- SPAWN
  · exact spawn_of_full hc hb hf (spawnRelease_off hr)
  · exact spawn_of_full hc hb hf ((spawnRelease_on hr).trans hd1)
  · exact spawn_of_room hc hb hi hf (spawnRelease_off hr) hp
  · exact spawn_of_room hc hb hi hf ((spawnRelease_on hr).trans hd1) hp

end Sys2Proof.Claims
end

section
/-!
PROOFS. Service calls (R153, R457, R458): SVC, the slots that it writes, and the resumption with the response words.
-/

namespace Sys2Proof.Machine
open Claims

theorem exec_svc (o : Lk) (s : State) : exec (.svc o) s = execSvc o s := rfl
theorem exec_requestRingWrite (u : Nat) (s : State) : exec (.requestRingWrite u) s = execRequestRingWrite u s := rfl
theorem exec_svcResume (u : Nat) (s : State) : exec (.svcResume u) s = execSvcResume u s := rfl

/-! ## SVC -/

section
variable {o : Lk} {s : State} (hc : Clear s s.dev.cur.lanes [.v 0 12])
include hc

theorem svc_of_no_ring (hr : ringLog (ctxOf s.mgmt (curCtx s.dev)).ring = 0) : Goes (.svc o) s (trapped s o.w (lenOf o.xl) true
    { faultAt .svc 0 s.dev.cur.lanes with data := (kNatural o).setWidth 64 }) := by
  refine goes_run (exec_svc o s) ((issue_fault (h := { hd o.w (lenOf o.xl) [.v 0 12] with ends := endsIf true }) hc ?_).trans
    (faulted_trapped true rfl))
  rw [← immOf_natural]
  exact if_pos hr

theorem svc_of_ring {d1 : Dev} (hr : ringLog (ctxOf s.mgmt (curCtx s.dev)).ring ≠ 0)
    (hd1 : releaseAt s.mgmt s.dev (curCtx s.dev) (curSpindle s.dev) 5 = .ok d1) : Goes (.svc o) s
      (parked s o.w (lenOf o.xl) true (post d1 (.requestRingWrite s.dev.cur.skein)) (.ring (kNatural o) s.dev.cur.lanes s.dev.cur.pc)) := by
  refine goes_run (exec_svc o s) ((issue_park (h := { hd o.w (lenOf o.xl) [.v 0 12] with ends := endsIf true }) hc ?_).trans
    (parkSkein_parked rfl))
  rw [← immOf_natural]
  simp only [if_neg hr, hd1]

end

/-! ## REQUEST_RING_WRITE (R457) -/

section
variable {s : State} {u : Nat} {n : Word} {ls : Mask} {pc : DWord} (hp : (skeinOf s.dev u).park = some (.ring n ls pc))
include hp

/-- A call that is woken before its slots are written tries again. -/
theorem svcResume_of_ring : Goes (.svcResume u) s (post s.dev (.requestRingWrite u)) :=
  goes_run (exec_svcResume u s) (by simp only [hp])

end

/-- The slots of a call: its header and a block for each lane. -/
def svcSlots (d : Dev) (u : Nat) (n : Word) (ls : Mask) (pc : DWord) : List (BitVec 512) :=
  svcHeader (groupOf d (skeinOf d u).gid) (skeinOf d u) ls pc ::
    (lanesOf ls).map (svcBlock d (groupOf d (skeinOf d u).gid) (skeinOf d u) n pc)

theorem svcSlots_length (d : Dev) (u : Nat) (n : Word) (ls : Mask) (pc : DWord) :
    (svcSlots d u n ls pc).length = 1 + (lanesOf ls).length := by
  rw [svcSlots, List.length_cons, List.length_map, Nat.add_comm]

section
variable {s : State} {u : Nat} {n : Word} {ls : Mask} {pc : DWord} (hp : (skeinOf s.dev u).park = some (.ring n ls pc))
  {g : Group} (hgr : groupOf s.dev (skeinOf s.dev u).gid = g) {ring : DWord} (hring : (ctxOf s.mgmt g.ctx).ring = ring)
  {tail room : Nat} (hroom : ringRoom s.mgmt s.dev g.ctx ring = .ok (tail, room))
include hp hgr hring hroom

/-- A call whose slots do not fit waits for room. -/
theorem requestRingWrite_of_full (hl : room < 1 + (lanesOf ls).length) : Goes (.requestRingWrite u) s
    (waitAt s.mgmt (dropWaiter s.dev (.svc u)) g.ctx (ringBase ring) (.svc u)) := by
  rw [← svcSlots_length s.dev u n ls pc] at hl
  refine goes_run (exec_requestRingWrite u s) ?_
  simp only [hp, hgr, hring, hroom]
  rw [svcSlots, hgr] at hl
  exact if_pos hl

/-- A call with room writes its slots, raises the service vector and waits for the answer. -/
theorem requestRingWrite_of_room {d1 : Dev} (hl : 1 + (lanesOf ls).length ≤ room)
    (hput : ringPut s.mgmt (dropWaiter s.dev (.svc u)) g.ctx ring tail (svcSlots s.dev u n ls pc) = .ok d1) :
    Goes (.requestRingWrite u) s (waitAt s.mgmt
      (modSkein (interrupt d1 (18 * g.ctx + 16)) u fun k => { k with park := some (.svc tail ls pc) })
      g.ctx (ringSlot ring tail) (.svc u)) := by
  rw [← svcSlots_length s.dev u n ls pc] at hl
  refine goes_run (exec_requestRingWrite u s) ?_
  rw [svcSlots, hgr] at hl hput
  simp only [hp, hgr, hring, hroom, if_neg (Nat.not_lt.2 hl), hput]

end

/-! ## SVC_RESUME (R458) -/

/-- The words of lanes read one after the other are all of them, when each read succeeds. -/
theorem foldl_svcWords {m : Mgmt} {d : Dev} {ctx slot : Nat} (ws : List (Nat × Nat)) : ∀ (acc : List (Nat × Nat)) (k : Nat),
    (∀ i x, ws[i]? = some x → svcWords m d ctx slot (k + i) = .ok x.2) →
      ((ws.map Prod.fst).zipIdx k).foldl (fun (a : Dist (List (Nat × Nat))) x =>
        a.bind fun ws => (svcWords m d ctx slot x.2).bind fun y => .ok (ws ++ [(x.1, y)])) (.ok acc) = .ok (acc ++ ws) := by
  induction ws with
  | nil => intro acc k _; simp
  | cons w ws ih =>
    intro acc k h
    have h0 : svcWords m d ctx slot k = .ok w.2 := h 0 w rfl
    have hrest (i : Nat) (x : Nat × Nat) (hx : ws[i]? = some x) : svcWords m d ctx slot (k + 1 + i) = .ok x.2 := by
      rw [Nat.add_assoc, Nat.add_comm 1]
      exact h (i + 1) x hx
    rw [List.map_cons, List.zipIdx_cons, List.foldl_cons]
    simp only [Dist.bind, h0]
    rw [show (w.1, w.2) = w from rfl]
    have := ih (acc ++ [w]) (k + 1) hrest
    simp only [Dist.bind] at this
    rw [this, List.append_assoc, List.singleton_append]

section
variable {s : State} {u slot : Nat} {ls : Mask} {pc : DWord} (hp : (skeinOf s.dev u).park = some (.svc slot ls pc))
include hp

/-- A call that is not answered waits on. -/
theorem svcResume_of_unanswered (hdone : svcDone s.mgmt s.dev u = some (.ok 0)) : Goes (.svcResume u) s s.dev :=
  goes_run (exec_svcResume u s) (by simp only [hp, hdone]; rfl)

theorem svcResume_of_bad_answer {x : Nat} (hdone : svcDone s.mgmt s.dev u = some (.ok x)) (h0 : x ≠ 0) (h1 : x ≠ 1) :
    Goes (.svcResume u) s (post (dropWaiter s.dev (.svc u)) (.svcKill u)) :=
  goes_run (exec_svcResume u s) (by simp [hp, hdone, h0, h1])

/-- An answered call waits until its skein is on a spindle. -/
theorem svcResume_of_away (hdone : svcDone s.mgmt s.dev u = some (.ok 1)) (hr : (skeinOf s.dev u).resident = false) :
    Goes (.svcResume u) s s.dev :=
  goes_run (exec_svcResume u s) (by simp only [hp, hdone, hr]; rfl)

theorem svcResume_of_answered {g : Group} (hgr : groupOf s.dev (skeinOf s.dev u).gid = g) {ws : List (Nat × Nat)} {d1 : Dev}
    (hdone : svcDone s.mgmt s.dev u = some (.ok 1)) (hr : (skeinOf s.dev u).resident = true) (hls : ws.map Prod.fst = lanesOf ls)
    (hw : ∀ i x, ws[i]? = some x → svcWords s.mgmt s.dev g.ctx slot i = .ok x.2)
    (ha : acquireAt s.mgmt s.dev g.ctx (spindleNo g) 5 = .ok d1) :
    Goes (.svcResume u) s (modSkein (unpark (dropWaiter d1 (.svc u)) u) u fun k =>
      writeNow k (ws.flatMap fun x => splitRegs (wrV x.1) 0 x.2 4)) := by
  have hwords := foldl_svcWords ws [] 0 fun i x hx => by rw [Nat.zero_add]; exact hw i x hx
  rw [hls, List.nil_append] at hwords
  refine goes_run (exec_svcResume u s) ?_
  simp only [hp, hdone, hr, hgr, hwords, ha]
  rfl

end

/-! ## The statement -/

/-- Settles O38: each clause is the lemma of its instruction or event and outcome. -/
theorem serviceCalls : Obligations.ServiceCalls := by
  intro s m d
  refine ⟨fun o _ hc => ⟨svc_of_no_ring hc, fun d1 => svc_of_ring hc⟩, fun u n ls pc hp => ?_, fun u n ls pc => svcResume_of_ring,
    fun u slot ls pc hp => ⟨svcResume_of_unanswered hp, fun x => svcResume_of_bad_answer hp, svcResume_of_away hp,
      fun ws d1 => svcResume_of_answered hp rfl⟩⟩
  intro k g ring xs tail room hroom
  exact ⟨requestRingWrite_of_full hp rfl rfl hroom, fun d1 => requestRingWrite_of_room hp rfl rfl hroom⟩

end Sys2Proof.Machine
end

section
/-!
PROOFS. The uniform compares, floats, conversions and conditions (R156, R158, R161 to R163, R165), and MOVVS (R164).
-/

namespace Sys2Proof.Machine
open Claims

/-! ## Uniform results and their latencies -/

theorem condRes_eq (i : BitVec 3) (b : Bool) : condRes i b = putCond i b := by
  simp only [condRes, putCond, beq_iff_eq]

/-- A uniform instruction by its value and its latency, each written otherwise. -/
theorem uniRuns_of_values {i : Instr} {s : State} {h : Hd} {lat lat' : Nat} {f : Reader → Writer → List PWrite × FFlags}
    {r : List PWrite × FFlags} (hi : Issuing s) (hends : h.ends = 0) (he : exec i s = .next { s with dev := uniAlu s.mgmt s.dev h lat f })
    (hl : lat = lat') (hv : f (uniReader s.dev) wrS = r) : UniRuns i s h.p h.n h.len lat' h.rds r := by
  subst hl hv
  exact uniRuns_alu hi hends he

/-- The latency of a conversion: that of .f64 where either side is one (R97). -/
theorem cvtLat_eq (a : BitVec 4) (b : BitVec 7) (base : Nat) :
    (if a == 5 || b == 5 then latF64 else base) = if a = 5 ∨ b = 5 then 8 else base := by
  simp only [Bool.or_eq_true, beq_iff_eq, latF64]

/-! ## Conditions from the predicates of the bundle (R165) -/

/-- The reductions of PTOC by their mode: any, all, all or none. -/
def reduced (mode : Nat) (xs : List Bool) : Bool :=
  match mode with
  | 0 => xs.any id
  | 1 => xs.all id
  | _ => xs.all id || !xs.any id

theorem reduced_map (cc : BitVec 4) (f : Nat → Bool) (ls : List Nat) :
    reduced cc.toNat (ls.map f) = if cc = 0 then ls.any f else if cc = 1 then ls.all f else ls.all f || !ls.any f := by
  have hany : (ls.map f).any id = ls.any f := List.any_map
  have hall : (ls.map f).all id = ls.all f := List.all_map
  by_cases h0 : cc = 0
  · subst h0
    exact hany
  by_cases h1 : cc = 1
  · subst h1
    exact hall
  have hn0 : cc.toNat ≠ 0 := fun h => h0 (BitVec.eq_of_toNat_eq h)
  have hn1 : cc.toNat ≠ 1 := fun h => h1 (BitVec.eq_of_toNat_eq h)
  have hmode : reduced cc.toNat (ls.map f) = ((ls.map f).all id || !(ls.map f).any id) := by
    unfold reduced
    split
    · next h => exact absurd h hn0
    · next h => exact absurd h hn1
    · rfl
  rw [hmode, hany, hall, if_neg h0, if_neg h1]

/-! ## MOVVS -/

/-- The registers that MOVVS moves and the lane it takes them from (R164). -/
def movvsRegs (o : Lk) : Nat := if (kNatural o).getLsbD 6 then 2 else 1
def movvsLane (d : Dev) (o : Lk) : Nat :=
  if (kNatural o).getLsbD 7 then (lanesOf d.cur.lanes).headD 0 else (kNatural o).toNat % 32

/-- No result is in flight to what MOVVS reads, where the context is deterministic (R99). -/
def MovvsClear (s : State) (o : Lk) : Prop :=
  isDet s.mgmt (curCtx s.dev) = true → s.dev.cur.lanes.getLsbD (movvsLane s.dev o) = true →
    hazV (curSkein s.dev) (maskOf (· == movvsLane s.dev o)) o.a.toNat (movvsRegs o) = 0

/-- Registers joined are zero where each is. -/
theorem joinRegs_guarded (c : Bool) (rd : Reader) (n : Nat) : ∀ a,
    (if c then joinRegs rd a n else 0) = joinRegs (fun r => if c then rd r else 0) a n := by
  cases c
  · induction n with
    | zero => exact fun a => rfl
    | succ n ih =>
      intro a
      have hrest := ih (a + 1)
      simp only [Bool.false_eq_true, if_false] at hrest ⊢
      rw [joinRegs, ← hrest]
      rfl
  · exact fun a => rfl

/-- Without a hazard MOVVS computes. -/
theorem exec_movvs_clear {o : Lk} {s : State} (hz : MovvsClear s o) :
    exec (.movvs o) s = .next { s with
      dev := uniInt s.mgmt s.dev (hd o.w (lenOf o.xl) []) latUni fun _ wr => splitRegs wr o.d.toNat
        (if s.dev.cur.lanes.getLsbD (movvsLane s.dev o) then
          joinRegs (laneReader s.dev (movvsLane s.dev o)) o.a.toNat (movvsRegs o) else 0) (movvsRegs o) } := by
  have hlane : (if (kNatural o).getLsbD 7 then (lanesOf s.dev.cur.lanes).headD 0 else bitsOf (kNatural o) 0 5) = movvsLane s.dev o := by
    rw [bitsOf, pow_zero, Nat.div_one]
    rfl
  have hregs : (if (kNatural o).getLsbD 6 then 2 else 1) = movvsRegs o := rfl
  show execMovvs o s = _
  simp only [execMovvs, immOf_natural, hlane, hregs, State.run]
  cases hd : isDet s.mgmt (curCtx s.dev)
  · rfl
  cases hin : s.dev.cur.lanes.getLsbD (movvsLane s.dev o)
  · rfl
  · simp only [if_true, hz hd hin]
    rfl

theorem movvs_runs {o : Lk} {s : State} (hi : Issuing s) (hz : MovvsClear s o) :
    UniRuns (.movvs o) s 7 false (lenOf o.xl) 2 [] (quiet ((List.range (movvsRegs o)).map fun i => .s (o.d.toNat + i)
      (if s.dev.cur.lanes.getLsbD (movvsLane s.dev o) then readV s.dev (curSkein s.dev) (movvsLane s.dev o) (o.a.toNat + i) else 0))) :=
  uniRuns_of_ints (h := hd o.w (lenOf o.xl) []) hi rfl (exec_movvs_clear hz) (by rw [joinRegs_guarded, splitRegs_joinRegs]; rfl)

end Sys2Proof.Machine

/-! ## The statements -/

namespace Sys2Proof.Claims
open Machine

/-- Settles O9: each float is its operation on the uniform sources, each compare and condition puts what its rule names. -/
theorem uniformFloatsAndConditions : Obligations.UniformFloatsAndConditions := by
  intro s hi rd k
  refine ⟨?_, ?_, fun o => ?_⟩
  · intro o x n lat run
    have flt {i : Instr} {h : Hd} {f : Reader → Writer → List PWrite × FFlags} (hends : h.ends = 0)
        (he : exec i s = .next { s with dev := uniAlu s.mgmt s.dev h (fltLat (lrXm o 4).ty latUni) f }) :
        UniRuns i s h.p h.n h.len lat h.rds (f rd wrS) := uniRuns_of_values hi hends he (fltLat_eq _ _) rfl
    exact ⟨flt (h := hdAB true o 4) rfl rfl, flt (h := hdAB true o 4) rfl rfl, flt (h := hdABC true o 4) rfl rfl,
      uniRuns_of_values (h := hdA true o 0) hi rfl rfl (cvtLat_eq _ _ _) rfl⟩
  · intro o y x pred all any
    refine ⟨?_, fun hty hcc => ?_, fun _ => ?_⟩
    · exact uniRuns_of_values (h := hdCmp true o 4) hi rfl rfl (fltLat_eq _ _) (congrArg (Prod.mk · _) (condRes_eq o.pd _))
    · exact uniRuns_of_ints (h := hdCmp true o 0) hi rfl rfl (by rw [condRes_eq, intCmp_eq hty hcc])
    · have hval : condRes o.pd (reduced o.cc.toNat ((lanesOf s.dev.cur.lanes).map pred)) =
          putCond o.pd (if o.cc = 0 then any else if o.cc = 1 then all else all || !any) := by rw [condRes_eq, reduced_map]
      exact uniRuns_of_ints (h := hdXm o.w (lenOf o.xm) x [.pb (bitsOf o.a 0 3)]) (f := fun _ _ =>
        condRes o.pd (reduced o.cc.toNat ((lanesOf s.dev.cur.lanes).map pred))) hi rfl rfl hval
  · exact uniRuns_of_ints (h := hdXm o.w (lenOf o.xm) (plopXm o) [.c o.pa.toNat, .c o.pb.toNat, .c o.pc.toNat]) hi rfl rfl
      (by rw [condRes_eq, lutOf_eq])

/-- Settles O10: one lane's registers are copied, or zeros. -/
theorem laneToUniform : Obligations.LaneToUniform := by
  intro o s hi k n lane inside hz
  exact movvs_runs hi hz

end Sys2Proof.Claims
end

section
/-!
PROOFS. The table branch (R173), and the loads and stores made once for the bundle (R168 to R170).
-/

namespace Sys2Proof.Machine

/-! ## BRX -/

def hdBrx (o : Lr) : Hd := hdXm o.w (lenOf o.xm) (lrXm o 1) [.s o.d 1, .s o.a 2, .s o.b 1]

/-- The base of BRX's table, its index, and the place of the entry. -/
def tableBase (d : Dev) (o : Lr) : DWord := readS64 d (curSkein d) o.a.toNat
def tableIndex (d : Dev) (o : Lr) : Nat := (uniReader d o.b.toNat).toNat
def tablePtr (d : Dev) (o : Lr) : DWord := tableBase d o + BitVec.ofNat 64 (4 * tableIndex d o)

/-- What an entry comes to: a target, or a fault. -/
def takeEntry (d d1 : Dev) (p : DWord) (e : Int) (lat : Nat) : Res :=
  if e = 0 then .fault (uniFault d .nulltgt p)
  else if e % 4 != 0 then .fault (uniFault d .align p)
  else .done (modSkein (setPcs d1 d.cur.skein d.cur.lanes (d.cur.pc + BitVec.ofInt 64 e)) d.cur.skein fun k =>
    { k with hold := cyclesOf d (curGroup d).die + lat + 1 })

/-- BRX under a guard that holds: the index and the table checked, then the entry read. -/
def brxBody (m : Mgmt) (d : Dev) (o : Lr) (da : Dev) : Res :=
  if (tableBase d o).toNat % 4 != 0 then .fault (uniFault d .align (tableBase d o))
  else if (uniReader d o.d.toNat).toNat ≤ tableIndex d o then .fault (uniFault d .bounds (tablePtr d o))
  else wordFault (tablePtr d o) (bundleLoad m d da (tablePtr d o) 4 0 [] true fun x d1 lat =>
    takeEntry d d1 (tablePtr d o) (readInt 32 true x) lat)

theorem exec_brx (o : Lr) (s : State) :
    exec (.brx o) s = s.run fun m d => uniIssue m d (hdBrx o) (brxBody m d o) := rfl

theorem readInt_word (x : Nat) : readInt 32 true x = (BitVec.ofNat 32 x).toInt := by
  rw [← readInt_mod, ← readInt_signed, BitVec.toNat_ofNat]

section
variable {o : Lr} {s : State} (hc : UniClear s (lrXm o 1).p (lrXm o 1).n [.s o.d 1, .s o.a 2, .s o.b 1])
include hc

theorem brx_skip (hg : condUnder s (lrXm o 1).p (lrXm o 1).n = false) : Goes (.brx o) s (moved s o.w (lenOf o.xm) false) :=
  (exec_brx o s).trans (run_uni_skip (h := hdBrx o) (body := fun m d => brxBody m d o) hc hg rfl)

variable (hg : condUnder s (lrXm o 1).p (lrXm o 1).n = true)
include hg

theorem brx_done {d1 : Dev} (hb : brxBody s.mgmt s.dev o (moved s o.w (lenOf o.xm) false) = .done d1) : Goes (.brx o) s d1 :=
  goes_uniformDone (h := hdBrx o) (exec_brx o s) rfl hc hg hb

theorem brx_fault {f : FaultInfo} (hb : brxBody s.mgmt s.dev o (moved s o.w (lenOf o.xm) false) = .fault f) :
    Goes (.brx o) s (trapped s o.w (lenOf o.xm) false f) :=
  goes_uniformFault (h := hdBrx o) (exec_brx o s) rfl hc hg false hb

end

section
variable {m : Mgmt} {d da : Dev} {o : Lr}

theorem brxBody_of_misaligned (hb : (tableBase d o).toNat % 4 ≠ 0) :
    brxBody m d o da = .fault (uniFault d .align (tableBase d o)) := if_pos (bne_iff_ne.2 hb)

variable (hb : (tableBase d o).toNat % 4 = 0)
include hb

theorem brxBody_of_index_out (hi : (uniReader d o.d.toNat).toNat ≤ tableIndex d o) :
    brxBody m d o da = .fault (uniFault d .bounds (tablePtr d o)) :=
  (if_neg (mt bne_iff_ne.1 (not_not.2 hb))).trans (if_pos hi)

theorem brxBody_of_loaded {a : LAcc} {l : Leaf} {pa x lat : Nat} {d1 : Dev} (hi : tableIndex d o < (uniReader d o.d.toNat).toNat)
    (hk : bundleChecks m d (tablePtr d o) 4 0 = .go [(a, l, pa)]) (ho : ownedLine d [(a, l, pa)] = none)
    (hl : loadVia m da (curCtx d) (curSpindle d) (tablePtr d o) l pa 4 0 0 = .ok (x, d1, lat)) :
    brxBody m d o da = wordFault (tablePtr d o) (takeEntry d (useCurr d1 (usedBy 0 l pa)) (tablePtr d o)
      (BitVec.ofNat 32 (bundleOver m d pa 4 x)).toInt (max lat latL1)) := by
  rw [brxBody, if_neg (mt bne_iff_ne.1 (not_not.2 hb)), if_neg (Nat.not_le.2 hi), bundleLoad_of_loaded hk ho hl, readInt_word]

end

section
variable {d d1 : Dev} {p : DWord} {e : Int} {lat : Nat}

theorem takeEntry_of_zero (h0 : e = 0) : takeEntry d d1 p e lat = .fault (uniFault d .nulltgt p) := if_pos h0

theorem takeEntry_of_misaligned (h4 : e % 4 ≠ 0) : takeEntry d d1 p e lat = .fault (uniFault d .align p) :=
  (if_neg fun h0 => h4 (by rw [h0]; rfl)).trans (if_pos (bne_iff_ne.2 h4))

theorem takeEntry_of_target (h0 : e ≠ 0) (h4 : e % 4 = 0) : takeEntry d d1 p e lat =
    .done (modSkein (setPcs d1 d.cur.skein d.cur.lanes (d.cur.pc + BitVec.ofInt 64 e)) d.cur.skein fun k =>
      { k with hold := cyclesOf d (curGroup d).die + lat + 1 }) :=
  (if_neg h0).trans (if_neg (mt bne_iff_ne.1 (not_not.2 h4)))

end

/-! ## SLD and SST -/

theorem exec_sld (o : Lm) (s : State) : exec (.sld o) s = execSld o s := rfl
theorem exec_sst (o : Lm) (s : State) : exec (.sst o) s = execSst o s := rfl

theorem uniPtr_eq (d : Dev) (o : Lm) : uniPtr d o = readS64 d (curSkein d) o.sb.toNat +
    (if ixOf o then (uniReader d o.a.toNat).setWidth 64 else 0) + BitVec.ofInt 64 o.xw.disp.toInt := by
  rw [uniPtr, addDisp, disp14]
  cases ixOf o
  · exact congrArg (· + _) (BitVec.add_zero _).symm
  · rfl

section
variable {o : Lm} {s : State}

theorem sld_skip (hc : UniClear s o.xw.p o.xw.n (uniRds o)) (hg : condUnder s o.xw.p o.xw.n = false) :
    Goes (.sld o) s (moved s o.w 8 false) :=
  (exec_sld o s).trans (run_uni_skip (h := hdXw o (uniRds o) false) (body := fun m d da => bundleLoad m d da (uniPtr d o)
    (tyBytes o.xw.ty) o.xw.pol.toNat (resOf wrS o.d o.xw.ty 0) false fun x d1 lat =>
      .done (addPend d1 d.cur.skein lat (resOf wrS o.d o.xw.ty x))) hc hg rfl)

theorem sld_loaded {a : LAcc} {l : Leaf} {pa x lat : Nat} {d1 : Dev} (hc : UniClear s o.xw.p o.xw.n (uniRds o))
    (hg : condUnder s o.xw.p o.xw.n = true)
    (hk : bundleChecks s.mgmt s.dev (uniPtr s.dev o) (tyBytes o.xw.ty) o.xw.pol.toNat = .go [(a, l, pa)])
    (ho : ownedLine s.dev [(a, l, pa)] = none)
    (hl : loadVia s.mgmt (moved s o.w 8 false) (curCtx s.dev) (curSpindle s.dev) (uniPtr s.dev o) l pa (tyBytes o.xw.ty)
      o.xw.pol.toNat 0 = .ok (x, d1, lat)) :
    Goes (.sld o) s (addPend (useCurr d1 (usedBy o.xw.pol.toNat l pa)) s.dev.cur.skein (max lat 20)
      (resOf wrS o.d o.xw.ty (bundleOver s.mgmt s.dev pa (tyBytes o.xw.ty) x))) :=
  goes_uniformDone (h := hdXw o (uniRds o) false) (exec_sld o s) rfl hc hg (bundleLoad_of_loaded hk ho hl)

end

/-- SST's store under a guard that holds. -/
def sstBody (o : Lm) (m : Mgmt) (d da : Dev) : Res :=
  let n := tyBytes o.xw.ty
  let pol := o.xw.pol.toNat
  let x := patOf (uniReader d) o.d o.xw.ty
  match sstChecks m d (uniPtr d o) n pol with
  | .fault f => .fault { f with lanes := d.cur.lanes }
  | .wait q => waitFor d q
  | .go ls =>
    if runsAhead d then .done da
    else
      match ownedLine d ls with
      | some line => .park d (.recall line)
      | none =>
        if isDet m (curCtx d) then
          match sbufPush da d.cur.skein (bundleEntries m d (uniPtr d o) n x pol) with
          | some d1 => .done (spillLog m d1 (curCtx d) (curSpindle d) d.cur.skein (curSkein d).spilled)
          | none => .fault (faultAt .detviol 0 d.cur.lanes)
        else
          match storeLanes m da (curCtx d) (curSpindle d) n pol (fun _ => x) ls with
          | .error e => waitRes d e (faultAt .dataerr 0 d.cur.lanes)
          | .ok d1 => .done d1

def hdSst (o : Lm) : Hd := hdXw o (.s o.d (tyRegs o.xw.ty) :: uniRds o) false

theorem exec_sst_body (o : Lm) (s : State) : exec (.sst o) s = s.run fun m d => uniIssue m d (hdSst o) (sstBody o m d) := rfl

section
variable {o : Lm} {s : State} (hc : UniClear s o.xw.p o.xw.n (.s o.d (tyRegs o.xw.ty) :: uniRds o))
include hc

theorem sst_skip (hg : condUnder s o.xw.p o.xw.n = false) : Goes (.sst o) s (moved s o.w 8 false) :=
  (exec_sst_body o s).trans (run_uni_skip (h := hdSst o) (body := sstBody o) hc hg rfl)

theorem sst_done (hg : condUnder s o.xw.p o.xw.n = true) {d1 : Dev}
    (hb : sstBody o s.mgmt s.dev (moved s o.w 8 false) = .done d1) : Goes (.sst o) s d1 :=
  goes_uniformDone (h := hdSst o) (exec_sst_body o s) rfl hc hg hb

end

section
variable {o : Lm} {m : Mgmt} {d da : Dev} {ls : List (LAcc × Leaf × Nat)}
  (hk : sstChecks m d (uniPtr d o) (tyBytes o.xw.ty) o.xw.pol.toNat = .go ls)
include hk

/-- Running ahead nothing is stored (R456). -/
theorem sstBody_of_runsAhead (hr : runsAhead d = true) : sstBody o m d da = .done da := by
  simp only [sstBody, hk, hr, if_true]

variable (hr : runsAhead d = false) (ho : ownedLine d ls = none)
include hr ho

theorem sstBody_of_stored {d1 : Dev} (hdet : isDet m (curCtx d) = false)
    (hs : storeLanes m da (curCtx d) (curSpindle d) (tyBytes o.xw.ty) o.xw.pol.toNat (fun _ => patOf (uniReader d) o.d o.xw.ty) ls =
      .ok d1) : sstBody o m d da = .done d1 := by
  simp only [sstBody, hk, hr, ho, hdet, hs, Bool.false_eq_true, if_false]

/-- In a deterministic context the store is buffered (R170). -/
theorem sstBody_of_buffered {d1 : Dev} (hdet : isDet m (curCtx d) = true)
    (hs : sbufPush da d.cur.skein (bundleEntries m d (uniPtr d o) (tyBytes o.xw.ty) (patOf (uniReader d) o.d o.xw.ty)
      o.xw.pol.toNat) = some d1) :
    sstBody o m d da = .done (spillLog m d1 (curCtx d) (curSpindle d) d.cur.skein (curSkein d).spilled) := by
  simp only [sstBody, hk, hr, ho, hdet, hs, Bool.false_eq_true, if_false, if_true]

end

end Sys2Proof.Machine

/-! ## The statements -/

namespace Sys2Proof.Claims
open Machine

/-- Settles O15: each clause is the lemma of its outcome. -/
theorem tableBranch : Obligations.TableBranch := by
  intro o s _ m d x n base i p ls hc
  refine ⟨brx_skip hc, fun hg => ⟨fun hb => brx_fault hc hg (brxBody_of_misaligned hb),
    fun hb hi => brx_fault hc hg (brxBody_of_index_out hb hi), fun a l pa v lat d1 hb hi hk ho hl => ?_⟩⟩
  have hentry := brxBody_of_loaded (m := m) (d := d) (o := o) hb hi hk ho hl
  exact ⟨fun h0 => brx_fault hc hg (hentry.trans (congrArg _ (takeEntry_of_zero h0))),
    fun h4 => brx_fault hc hg (hentry.trans (congrArg _ (takeEntry_of_misaligned h4))),
    fun h0 h4 => brx_done hc hg (hentry.trans (congrArg _ (takeEntry_of_target h0 h4)))⟩

/-- Settles O26: each clause is the lemma of its instruction and outcome. -/
theorem uniformLoadsAndStores : Obligations.UniformLoadsAndStores := by
  intro o s _ m d u n pol on rds p x c
  refine ⟨uniPtr_eq d o, fun hc hg => sld_skip hc hg, fun hc hg => sst_skip hc hg,
    fun a l pa v lat d1 hc hg hk ho hl => sld_loaded hc hg hk ho hl, fun ls hc hg hk => ⟨fun hr => ?_, fun d1 hr ho hdet hs => ?_,
      fun d1 hr ho hdet hs => ?_⟩⟩
  · exact sst_done hc hg (sstBody_of_runsAhead hk hr)
  · exact sst_done hc hg (sstBody_of_stored hk hr ho hdet hs)
  · exact sst_done hc hg (sstBody_of_buffered hk hr ho hdet hs)

end Sys2Proof.Claims
end

section
/-!
PROOFS. EVENT and RTRIG (R180, R181): the release, the store, the interrupt, and the write of a trigger register.
-/

namespace Sys2Proof.Machine

theorem exec_event (o : Ue) (s : State) : exec (.event o) s = s.run fun m d => eventInstr m d o 4 1 := rfl
theorem exec_eventLiteral (o : Ux) (s : State) : exec (.eventLiteral o) s = s.run fun m d => eventInstr m d o.ue 8 o.xl.toNat := rfl
theorem exec_rtrig (o : Ue) (s : State) : exec (.rtrig o) s = execRtrig o s := rfl

theorem movedIn_ue (s : State) (o : Ue) (len : Nat) (rds : List Rd) :
    movedIn s (hdUe o len rds).w (hdUe o len rds).len (hdUe o len rds).ends = moved s o.w len true := rfl

/-! ## EVENT -/

/-- The interrupt of an EVENT that asks for one. -/
def eventRaise (ctx : Nat) (o : Ue) (d : Dev) : Dev := if o.sub.getLsbD 3 then interrupt d (18 * ctx + o.tag.toNat) else d

section
variable {i : Instr} {o : Ue} {len value : Nat} {s : State} (he : exec i s = s.run fun m d => eventInstr m d o len value)
  (hc : UniClear s 7 false (if o.sub.getLsbD 4 then [.s o.sp 2] else []))
include he hc

/-- An EVENT that stores nothing releases. -/
theorem event_of_release {d1 : Dev} (hw : o.sub.getLsbD 4 = false)
    (hr : releaseAt s.mgmt (moved s o.w len true) (curCtx s.dev) (curSpindle s.dev) (bitsOf o.sub 0 3) = .ok d1) :
    Goes i s (eventRaise (curCtx s.dev) o d1) := by
  unfold eventInstr at he
  refine goes_uniformDone (h := hdUe o len (if o.sub.getLsbD 4 then [.s o.sp 2] else [])) he rfl hc (condUnder_seven s) ?_
  simp only [hw, Bool.false_eq_true, if_false, movedIn_ue, hr]
  rfl

/-- An EVENT that stores does so at the slice, and its spindle's own copy follows. -/
theorem event_of_store {l : Leaf} {pa : Nat} {d1 d2 : Dev} (hw : o.sub.getLsbD 4 = true)
    (hk : checkPtr s.mgmt s.dev (curCtx s.dev) (curSpindle s.dev) (readS64 s.dev (curSkein s.dev) o.sp.toNat) 8 8 true = .ok l pa)
    (hlink : isDevice pa = true ∨ linkUp s.dev pa = true) (ho : engineOwns s.dev (pa / 128) = false)
    (hr : releaseAt s.mgmt (moved s o.w len true) (curCtx s.dev) (curSpindle s.dev) (bitsOf o.sub 0 3) = .ok d1)
    (hs : writeSlice s.mgmt (curCtx s.dev) d1 (some (curSpindle s.dev)) (pa / 128) (byteMask (pa % 128) 8)
      (atByte (pa % 128) value) l.cmp = .ok d2) :
    Goes i s (eventRaise (curCtx s.dev) o
      (patchCopy d2 (curSpindle s.dev) (pa / 128) (byteMask (pa % 128) 8) (atByte (pa % 128) value))) := by
  have hreach : (!isDevice pa && !linkUp s.dev pa) = false := by
    rcases hlink with h | h <;> simp [h]
  unfold eventInstr at he
  refine goes_uniformDone (h := hdUe o len (if o.sub.getLsbD 4 then [.s o.sp 2] else [])) he rfl hc (condUnder_seven s) ?_
  simp only [hw, if_true, hk, hreach, ho, Bool.false_eq_true, if_false, movedIn_ue, hr, hs]
  rfl

end

/-! ## RTRIG -/

section
variable {o : Ue} {s : State} (hc : UniClear s 7 false [.s o.sp 2])
include hc

theorem rtrig_plain (hr : o.sub.getLsbD 0 = false) : Goes (.rtrig o) s
    (post (moved s o.w 4 true) (.triggerWrite (curCtx s.dev) o.tag.toNat (readS64 s.dev (curSkein s.dev) o.sp.toNat))) := by
  refine goes_uniformDone (h := hdUe o 4 [.s o.sp 2]) (exec_rtrig o s) rfl hc (condUnder_seven s) ?_
  simp only [hr, Bool.false_eq_true, if_false]
  rfl

theorem rtrig_of_release {d1 : Dev} (hr : o.sub.getLsbD 0 = true)
    (hd : releaseAt s.mgmt (moved s o.w 4 true) (curCtx s.dev) (curSpindle s.dev) 4 = .ok d1) : Goes (.rtrig o) s
      (post d1 (.triggerWrite (curCtx s.dev) o.tag.toNat (readS64 s.dev (curSkein s.dev) o.sp.toNat))) := by
  refine goes_uniformDone (h := hdUe o 4 [.s o.sp 2]) (exec_rtrig o s) rfl hc (condUnder_seven s) ?_
  simp only [hr, if_true, movedIn_ue, hd]

end

end Sys2Proof.Machine

/-! ## The statement -/

namespace Sys2Proof.Claims
open Machine

/-- Settles O31: each clause is the lemma of its instruction and outcome. -/
theorem eventsAndTriggers : Obligations.EventsAndTriggers := by
  intro s _ m d ctx sp event
  have holds {i : Instr} {o : Ue} {len value : Nat} (he : exec i s = s.run fun m d => eventInstr m d o len value) : event i o len value :=
    fun hc => ⟨fun d1 hw hr => event_of_release he hc hw hr,
      fun l pa d1 d2 hw hk hlink ho hr hs => event_of_store he hc hw hk hlink ho hr hs⟩
  exact ⟨fun o => holds (exec_event o s), fun o => holds (exec_eventLiteral o s),
    fun o hc => ⟨rtrig_plain hc, fun d1 => rtrig_of_release hc⟩⟩

end Sys2Proof.Claims
end

section
/-!
PROOFS. WAITX, WAITV and JOIN (R179, R347, R362, R363), and the device steps of waiting (R338, R344, R348).
-/

namespace Sys2Proof.Machine

theorem exec_join (o : Ue) (s : State) : exec (.join o) s = execJoin o s := rfl
theorem exec_lockTimeout (u : Nat) (s : State) : exec (.lockTimeout u) s = execLockTimeout u s := rfl
theorem exec_deadlockCheck (u : Nat) (s : State) : exec (.deadlockCheck u) s = execDeadlockCheck u s := rfl
theorem exec_waitWake (line : Nat) (s : State) : exec (.waitWake line) s = execWaitWake line s := rfl

/-! ## Checks that a pointer passes -/

section
variable {s : State} {p : DWord} {n pa : Nat} {l : Leaf} (hr : Reaches s p n l pa)
include hr

theorem linearChk_ok {mid : Leaf → Nat → Option Cause} (hm : mid l pa = none) : linearChk s.mgmt s.dev p n mid = .ok l pa := by
  obtain ⟨hcanon, halign, hfound, htag, -⟩ := hr
  simp [linearChk, hcanon, halign, hfound, htag, hm]

theorem linearChk_bad {mid : Leaf → Nat → Option Cause} {c : Cause} (hm : mid l pa = some c) :
    linearChk s.mgmt s.dev p n mid = .bad { stage := stPerm, cause := c, sub := 0, addr := p } := by
  obtain ⟨hcanon, halign, hfound, -, -⟩ := hr
  simp [linearChk, hcanon, halign, hfound, hm]

end

/-- An aligned word lies in one line. -/
theorem pieces_word {p : DWord} (ha : p.toNat % 8 = 0) : pieces p 8 = [(p, 8)] := by
  have hfits : bitsOf p 0 7 + 8 ≤ 128 := by
    rw [bitsOf_zero]
    omega
  exact if_pos hfits

theorem checkPtr_ok {s : State} {p : DWord} {l : Leaf} {pa : Nat} (hr : Reaches s p 8 l pa) :
    checkPtr s.mgmt s.dev (curCtx s.dev) (curSpindle s.dev) p 8 8 false = .ok l pa := by
  obtain ⟨hcanon, halign, hfound, htag, -⟩ := hr
  simp [checkPtr, hcanon, halign, pieces_word halign, checkAt, hfound, htag]

/-- Only an XLATE's destinations and pages are kept, by a run-ahead. -/
theorem faulted_hidden {m : Mgmt} {d : Dev} {h : Hd} {f : FaultInfo} (us : List PWrite) (ps : List DWord) (hc : f.cause ≠ .xlate) :
    faulted m d h { f with undef := us, pages := ps } = faulted m d h f := by
  have hs : (f.cause == Cause.xlate) = false := beq_eq_false_iff_ne.2 hc
  unfold faulted
  simp only [hs, Bool.false_and, Bool.false_eq_true, if_false]
  rfl

/-! ## A wait registered, read and tested -/

section
variable {m : Mgmt} {d da d1 : Dev} {q : WaitReq}

theorem waitInstr_of_held {x : Nat} (h : waitTest m da d.cur.skein q = .ok (some x, d1)) :
    waitInstr m d da q = .done (addPend d1 d.cur.skein 20 (waitDst q x)) := by
  rw [waitInstr, h]
  rfl

theorem waitInstr_of_not_held {d0 : Dev} {r : Option Nat} (h : waitTest m da d.cur.skein q = .ok (none, d0))
    (h1 : waitTest m d d.cur.skein q = .ok (r, d1)) :
    waitInstr m d da q = .park { d1 with waiters := d1.waiters ++ [(q.line, .skein d.cur.skein)] } (.wait q) := by
  simp only [waitInstr, h, h1]

end

/-- What a wait comes to: its value and the move, or a park with its waiter registered. -/
def WaitRuns (i : Instr) (s : State) (w : Bool) (len : Nat) (q : WaitReq) : Prop :=
  (∀ (x : Nat) (d1 : Dev), waitTest s.mgmt (moved s w len true) s.dev.cur.skein q = .ok (some x, d1) →
    Goes i s (addPend d1 s.dev.cur.skein 20 (waitDst q x))) ∧
  ∀ (d0 d1 : Dev) (r : Option Nat), waitTest s.mgmt (moved s w len true) s.dev.cur.skein q = .ok (none, d0) →
    waitTest s.mgmt s.dev s.dev.cur.skein q = .ok (r, d1) →
    Goes i s (parked s w len true { d1 with waiters := d1.waiters ++ [(q.line, .skein s.dev.cur.skein)] } (.wait q))

theorem waitRuns_of {i : Instr} {s : State} {h : Hd} {q : WaitReq} {body : Mgmt → Dev → Dev → Res}
    (he : exec i s = s.run fun m d => uniIssue m d h (body m d)) (hends : h.ends = endsIf true) (hf : h.fp64 = false)
    (hc : UniClear s h.p h.n h.rds) (hg : condUnder s h.p h.n = true)
    (hb : body s.mgmt s.dev (moved s h.w h.len true) = waitInstr s.mgmt s.dev (moved s h.w h.len true) q) :
    WaitRuns i s h.w h.len q := by
  have hmoved : movedIn s h.w h.len h.ends = moved s h.w h.len true := by rw [hends]; rfl
  have hparked (d : Dev) (p : Park) : parkedIn s h.w h.len h.ends d p = parked s h.w h.len true d p := by rw [hends]; rfl
  rw [← hmoved] at hb
  refine ⟨fun x d1 hx => ?_, fun d0 d1 r h0 h1 => ?_⟩
  · exact goes_uniformDone he hf hc hg (hb.trans (waitInstr_of_held (hmoved ▸ hx)))
  · rw [← hparked]
    exact goes_uniformPark he hf hc hg (hb.trans (waitInstr_of_not_held (hmoved ▸ h0) h1))

/-! ## WAITX and WAITV -/

/-- The form of the instruction by the kind of word it waits on. -/
def waitForm (o : Lm) (ext : Bool) : Instr := if ext then .waitx o else .waitv o

theorem exec_waitForm (o : Lm) (ext : Bool) (s : State) : exec (waitForm o ext) s = s.run fun m d => waitOn m d o ext := by
  cases ext <;> rfl

def hdWait (o : Lm) : Hd := hdXw o [.s o.sb 2, .s o.a (tyRegs o.xw.ty)] true

/-- What WAITX and WAITV wait for. -/
def waitReq (d : Dev) (o : Lm) (ext : Bool) (pa : Nat) : WaitReq :=
  { external := ext, join := false, line := pa / 128, va := linePtr d o, ty := o.xw.ty.toNat, cc := bitsOf o.xw.sub 0 3,
    v := BitVec.ofNat 64 (patOf (uniReader d) o.a o.xw.ty), d := o.d.toNat, acq := if o.xw.sub.getLsbD 3 then o.xw.sc.toNat else 0 }

/-- A WAITV of a deterministic context that acquires wider than .gr (R363). -/
def Barred (m : Mgmt) (d : Dev) (o : Lm) (ext : Bool) : Prop :=
  isDet m (curCtx d) = true ∧ ext = false ∧ o.xw.sub.getLsbD 3 = true ∧ 2 < o.xw.sc.toNat

theorem barred_iff {m : Mgmt} {d : Dev} {o : Lm} {ext : Bool} :
    (isDet m (curCtx d) && !ext && o.xw.sub.getLsbD 3 && decide (2 < o.xw.sc.toNat)) = true ↔ Barred m d o ext := by
  simp only [Barred, Bool.and_eq_true, Bool.not_eq_true', decide_eq_true_eq, and_assoc]

/-- The kind of word that the instruction wants. -/
def waitMid (m : Mgmt) (d : Dev) (o : Lm) (ext : Bool) (l : Leaf) (_ : Nat) : Option Cause :=
  if isExternal m (curCtx d) (linePtr d o) l == ext then none else some .perm

/-- A wait that is not barred, behind the checks of its word. -/
def waitBody (o : Lm) (ext : Bool) (m : Mgmt) (d da : Dev) : Res :=
  match linearChk m d (linePtr d o) (tyBytes o.xw.ty) (waitMid m d o ext) with
  | .bad b => .fault { faultAt b.cause b.addr d.cur.lanes with
      sub := b.sub, undef := resOf wrS o.d o.xw.ty 0, pages := [pageEntry b.addr false false b.sub] }
  | .wait _ q => waitFor d q
  | .ok _ pa => if engineOwns d (pa / 128) then .park d (.recall (pa / 128)) else waitInstr m d da (waitReq d o ext pa)
  | .drop => .done da

section
variable {s : State} {o : Lm} {ext : Bool}

theorem exec_wait_barred (hb : Barred s.mgmt s.dev o ext) : exec (waitForm o ext) s =
    s.run fun m d => uniIssue m d (hdWait o) fun _ => .fault (faultAt .detviol 0 d.cur.lanes) :=
  (exec_waitForm o ext s).trans (congrArg (fun x => Host.Outcome.next (s.dev' x)) (if_pos (barred_iff.2 hb)))

theorem exec_wait_free (hb : ¬ Barred s.mgmt s.dev o ext) : exec (waitForm o ext) s =
    s.run fun m d => uniIssue m d (hdWait o) (waitBody o ext m d) :=
  (exec_waitForm o ext s).trans (congrArg (fun x => Host.Outcome.next (s.dev' x)) (if_neg (mt barred_iff.1 hb)))

theorem wait_skip (hc : UniClear s o.xw.p o.xw.n []) (hg : condUnder s o.xw.p o.xw.n = false) :
    Goes (waitForm o ext) s (moved s o.w 8 false) := by
  have hc := uniClear_of_off [.s o.sb 2, .s o.a (tyRegs o.xw.ty)] hg hc
  by_cases hb : Barred s.mgmt s.dev o ext
  · exact (exec_wait_barred hb).trans (run_uni_skip (h := hdWait o)
      (body := fun _ d _ => .fault (faultAt .detviol 0 d.cur.lanes)) hc hg rfl)
  · exact (exec_wait_free hb).trans (run_uni_skip (h := hdWait o) (body := waitBody o ext) hc hg rfl)

section
variable (hc : UniClear s o.xw.p o.xw.n [.s o.sb 2, .s o.a (tyRegs o.xw.ty)]) (hg : condUnder s o.xw.p o.xw.n = true)
include hc hg

theorem wait_of_barred (hb : Barred s.mgmt s.dev o ext) :
    Goes (waitForm o ext) s (trapped s o.w 8 true (faultAt .detviol 0 s.dev.cur.lanes)) :=
  goes_uniformFault (h := hdWait o) (exec_wait_barred hb) rfl hc hg true rfl

section
variable {l : Leaf} {pa : Nat} (hr : Reaches s (linePtr s.dev o) (tyBytes o.xw.ty) l pa) (hb : ¬ Barred s.mgmt s.dev o ext)
include hr hb

/-- A word of the wrong kind. -/
theorem wait_of_wrong_kind (hx : isExternal s.mgmt (curCtx s.dev) (linePtr s.dev o) l ≠ ext) :
    Goes (waitForm o ext) s (trapped s o.w 8 true (faultAt .perm (linePtr s.dev o) s.dev.cur.lanes)) := by
  have hchk := linearChk_bad hr (mid := waitMid s.mgmt s.dev o ext) (if_neg (mt beq_iff_eq.1 hx))
  have hfault := goes_uniformFault (h := hdWait o) (exec_wait_free hb) rfl hc hg true (by rw [waitBody, hchk])
  exact Goes.congr hfault (faulted_hidden _ _ Cause.noConfusion)

theorem wait_runs (hx : isExternal s.mgmt (curCtx s.dev) (linePtr s.dev o) l = ext) :
    WaitRuns (waitForm o ext) s o.w 8 (waitReq s.dev o ext pa) := by
  have hchk := linearChk_ok hr (mid := waitMid s.mgmt s.dev o ext) (if_pos (beq_iff_eq.2 hx))
  exact waitRuns_of (h := hdWait o) (exec_wait_free hb) rfl rfl hc hg (by simp only [waitBody, hchk, hr.unowned]; rfl)

end

end

end

/-! ## JOIN -/

/-- What JOIN waits for: a counter that is at most 0, then an acquire at .dev (R179). -/
def joinReq (d : Dev) (o : Ue) (pa : Nat) : WaitReq :=
  { external := false, join := true, line := pa / 128, va := readS64 d (curSkein d) o.sp.toNat, ty := 2, cc := 3, v := 0, d := 0,
    acq := 4 }

theorem join_runs {s : State} {o : Ue} {l : Leaf} {pa : Nat} (hc : UniClear s 7 false [.s o.sp 2])
    (hr : Reaches s (readS64 s.dev (curSkein s.dev) o.sp.toNat) 8 l pa) : WaitRuns (.join o) s o.w 4 (joinReq s.dev o pa) :=
  waitRuns_of (h := hdUe o 4 [.s o.sp 2]) (exec_join o s) rfl rfl hc (condUnder_seven s)
    (by simp only [checkPtr_ok hr, hr.unowned]; rfl)

/-! ## The timeout of a lock request (R338) -/

section
variable {s : State} {u : Nat}

theorem lockTimeout_of_queued {line va dst sc set : Nat} (hp : (skeinOf s.dev u).park = some (.lock line va dst sc set)) :
    Goes (.lockTimeout u) s (addPend (unpark (dropEntry s.dev u line) u) u 20 [.s dst 2]) :=
  goes_run (exec_lockTimeout u s) (by rw [hp]; rfl)

theorem lockTimeout_of_gone (hp : ∀ line va dst sc set, (skeinOf s.dev u).park ≠ some (.lock line va dst sc set)) :
    Goes (.lockTimeout u) s s.dev := by
  refine goes_run (exec_lockTimeout u s) ?_
  split
  · next h => exact absurd h (hp _ _ _ _ _)
  · rfl

end

/-! ## Deadlocks (R344) -/

/-- The members of a cycle in order, as its records are told apart. -/
def cycleKey (cycle : List (Nat × Nat)) : List Nat := (cycle.map fun x => x.1).insertionSort (· ≤ ·)

/-- A cycle noted as reported at one of its lines, and at each. -/
def markLine (key : List Nat) (d : Dev) (x : Nat × Nat) : Dev :=
  setLock d x.2 { lockOf d x.2 with reported := (lockOf d x.2).reported ++ [key] }
def markCycle (d : Dev) (cycle : List (Nat × Nat)) : Dev := cycle.foldl (markLine (cycleKey cycle)) d

/-- The records of the first `n` members. -/
def reportMembers (m : Mgmt) (cycle : List (Nat × Nat)) (d : Dev) (n : Nat) : Dev :=
  (List.range n).foldl (fun d i => deadlockRecord m d cycle i) d

theorem foldl_markLine_spec (key : List Nat) (xs : List (Nat × Nat)) :
    ∀ d : Dev, ∃ ls, xs.foldl (markLine key) d = { d with locks := ls } := by
  induction xs with
  | nil => exact fun d => ⟨d.locks, rfl⟩
  | cons x xs ih =>
    intro d
    obtain ⟨ls, h⟩ := ih (markLine key d x)
    exact ⟨ls, h⟩

/-- A record handed over is added, under its name. -/
theorem addRecord_adds (m : Mgmt) (d : Dev) (r : Rec) : ∃ r' : Rec, (addRecord m d r).mem = d.mem ∧
    (addRecord m d r).nextId = d.nextId ∧ (addRecord m d r).records = d.records ++ [r'] ∧ r'.id = r.id ∧ r'.cause = r.cause := by
  obtain ⟨ans, kill, he, -⟩ := addRecord_spec m d r
  rw [he]
  exact ⟨_, rfl, rfl, rfl, rfl, rfl⟩

/-- The record of a member is one more, under the next name. -/
theorem deadlockRecord_adds (m : Mgmt) (d : Dev) {cycle : List (Nat × Nat)} {i : Nat} (hi : i < cycle.length) : ∃ r : Rec,
    (deadlockRecord m d cycle i).mem = d.mem ∧ (deadlockRecord m d cycle i).nextId = d.nextId + 1 ∧
    (deadlockRecord m d cycle i).records = d.records ++ [r] ∧ r.id = d.nextId ∧ r.cause = .deadlock := by
  have hne : turnTo cycle i ≠ [] := fun h =>
    absurd (List.drop_eq_nil_iff.1 (List.append_eq_nil_iff.1 h).1) (Nat.not_le.2 hi)
  obtain ⟨⟨u, line⟩, rest, hturn⟩ := List.exists_cons_of_ne_nil hne
  obtain ⟨d1, r0, he, hmem, hid, hrecs, hr, hcause⟩ : ∃ (d1 : Dev) (r0 : Rec), deadlockRecord m d cycle i = addRecord m d1 r0 ∧
      d1.mem = d.mem ∧ d1.nextId = d.nextId + 1 ∧ d1.records = d.records ∧ r0.id = d.nextId ∧ r0.cause = .deadlock := by
    rw [deadlockRecord, hturn]
    exact ⟨_, _, rfl, rfl, rfl, rfl, rfl, rfl⟩
  obtain ⟨r, hmem', hid', hrecs', hr', hcause'⟩ := addRecord_adds m d1 r0
  rw [he]
  exact ⟨r, hmem'.trans hmem, hid'.trans hid, hrecs'.trans (by rw [hrecs]), hr'.trans hr, hcause'.trans hcause⟩

/-- The records of the first members: as many, under names that follow one another. -/
theorem reportMembers_spec (m : Mgmt) (cycle : List (Nat × Nat)) (d : Dev) : ∀ n, n ≤ cycle.length →
    (reportMembers m cycle d n).mem = d.mem ∧ (reportMembers m cycle d n).nextId = d.nextId + n ∧
    (reportMembers m cycle d n).records.length = d.records.length + n ∧
    ∀ i, i < n → ∃ r ∈ (reportMembers m cycle d n).records, r.id = d.nextId + i ∧ r.cause = .deadlock := by
  intro n
  induction n with
  | zero => exact fun _ => ⟨rfl, rfl, rfl, fun i hi => absurd hi (Nat.not_lt_zero i)⟩
  | succ n ih =>
    intro hn
    obtain ⟨hmem, hid, hlen, hrecs⟩ := ih (Nat.le_of_succ_le hn)
    have hstep : reportMembers m cycle d (n + 1) = deadlockRecord m (reportMembers m cycle d n) cycle n := by
      rw [reportMembers, List.range_succ, List.foldl_append]
      rfl
    obtain ⟨r, hmem', hid', hrec', hr, hcause⟩ := deadlockRecord_adds m (reportMembers m cycle d n) hn
    rw [hstep]
    refine ⟨hmem'.trans hmem, by rw [hid', hid, Nat.add_assoc], by rw [hrec', List.length_append, hlen]; rfl, fun i hi => ?_⟩
    rw [hrec']
    rcases Nat.lt_succ_iff_lt_or_eq.1 hi with h | rfl
    · obtain ⟨r', hr', hspec⟩ := hrecs i h
      exact ⟨r', List.mem_append_left _ hr', hspec⟩
    · exact ⟨r, List.mem_append_right _ (List.mem_singleton.2 rfl), hr.trans hid, hcause⟩

section
variable {s : State} {u : Nat}

theorem deadlockCheck_of_no_cycle (hw : waitChain s.dev [] (s.dev.skeins.length + 1) u = none) : Goes (.deadlockCheck u) s s.dev :=
  goes_run (exec_deadlockCheck u s) (by rw [hw])

variable {cycle : List (Nat × Nat)} (hw : waitChain s.dev [] (s.dev.skeins.length + 1) u = some cycle)
include hw

theorem deadlockCheck_of_told (ht : (cycle.any fun x => (lockOf s.dev x.2).reported.contains (cycleKey cycle)) = true) :
    Goes (.deadlockCheck u) s s.dev :=
  goes_run (exec_deadlockCheck u s) (by rw [hw]; exact if_pos ht)

theorem deadlockCheck_of_new (ht : (cycle.any fun x => (lockOf s.dev x.2).reported.contains (cycleKey cycle)) = false) :
    Goes (.deadlockCheck u) s (reportMembers s.mgmt cycle (markCycle s.dev cycle) cycle.length) :=
  goes_run (exec_deadlockCheck u s) (by rw [hw]; exact if_neg (Bool.eq_false_iff.1 ht))

/-- A new cycle is posted: one DEADLOCK record for each member. -/
theorem deadlockCheck_posts (ht : (cycle.any fun x => (lockOf s.dev x.2).reported.contains (cycleKey cycle)) = false) :
    ∃ t : Dev, Goes (.deadlockCheck u) s t ∧ t.mem = s.dev.mem ∧ t.records.length = s.dev.records.length + cycle.length ∧
      ∀ i, i < cycle.length → ∃ r ∈ t.records, r.id = s.dev.nextId + i ∧ r.cause = .deadlock := by
  obtain ⟨ls, hmark⟩ := foldl_markLine_spec (cycleKey cycle) cycle s.dev
  have hgoes := deadlockCheck_of_new hw ht
  rw [markCycle, hmark] at hgoes
  obtain ⟨hmem, -, hlen, hrecs⟩ := reportMembers_spec s.mgmt cycle { s.dev with locks := ls } cycle.length le_rfl
  exact ⟨_, hgoes, hmem, hlen, hrecs⟩

end

/-! ## Wake-up (R348) -/

theorem waitWake_goes {s : State} {line : Nat} {d1 : Dev}
    (h : wakeEach s.mgmt s.dev line ((s.dev.waiters.filter fun w => w.1 == line).map fun w => w.2) = .ok d1) :
    Goes (.waitWake line) s d1 := goes_run (exec_waitWake line s) (by rw [h])

section
variable {m : Mgmt} {d d1 : Dev} {line u : Nat} {q : WaitReq} (hp : (skeinOf d u).park = some (.wait q))
include hp

theorem wakeOne_of_not_held (h : waitTest m d u q = .ok (none, d1)) : wakeOne m d line (.skein u) = .ok d1 := by
  simp only [wakeOne, hp, h]

theorem wakeOne_of_held {x : Nat} (h : waitTest m d u q = .ok (some x, d1)) : wakeOne m d line (.skein u) = .ok (addPend
    (unpark { d1 with waiters := d1.waiters.filter fun e => e != (line, .skein u) } u) u 20 (waitDst q x)) := by
  simp only [wakeOne, hp, h, latL1]

end

end Sys2Proof.Machine

/-! ## The statement -/

namespace Sys2Proof.Claims
open Machine

/-- Settles O30: each clause is the lemma of its instruction or event and outcome. -/
theorem waits : Obligations.Waits := by
  refine ⟨fun s l pa _ => ⟨fun o ext => ?_, fun o => join_runs⟩, fun s => ?_⟩
  -- WAITX and WAITV
  · refine ⟨fun hg hc => wait_skip hc hg, fun hc hg => ⟨wait_of_barred hc hg, fun hr hb => ?_⟩⟩
    exact ⟨wait_of_wrong_kind hc hg hr hb, wait_runs hc hg hr hb⟩
  -- the device steps
  · refine ⟨fun u line va dst sc set => lockTimeout_of_queued, fun u => lockTimeout_of_gone, fun u => deadlockCheck_of_no_cycle,
      fun u cycle hw => ?_, fun line d1 => waitWake_goes, fun line u x q d1 hp => ?_, fun line c n => ⟨rfl, rfl, rfl⟩⟩
    · exact ⟨deadlockCheck_of_told hw, deadlockCheck_posts hw⟩
    · exact ⟨wakeOne_of_not_held hp, wakeOne_of_held hp⟩

end Sys2Proof.Claims
end

section
/-!
PROOFS. STQ and LDQ (R235 to R237): one staple stored or read for the bundle.
-/

namespace Sys2Proof.Machine

/-- The lanes that execute a memory instruction (R108). -/
abbrev execLanes (s : State) (o : Lm) : Mask := lanesUnder s o.xw.p o.xw.n

/-- The heads of STQ and LDQ, which end no region. -/
def hdStq (o : Lm) : Hd := hdXw o [.v o.d (stapleG o / 32), .s o.sb 2] false
def hdLdq (o : Lm) : Hd := hdXw o [.s o.sb 2] false

theorem exec_stq (o : Lm) (s : State) : exec (.stq o) s = execStq o s := rfl
theorem exec_ldq (o : Lm) (s : State) : exec (.ldq o) s = execLdq o s := rfl

/-! ## STQ -/

section
variable {o : Lm} {s : State} (hc : LaneClear s o.xw.p o.xw.n [.v o.d (stapleG o / 32), .s o.sb 2])
include hc

theorem stq_of_idle (hex : execLanes s o = 0) : Goes (.stq o) s (moved s o.w 8 false) :=
  goes_laneDone (h := hdStq o) (exec_stq o s) rfl rfl rfl hc
    (if_pos (beq_iff_eq.2 hex))

variable {ls : List (LAcc × Leaf × Nat)} (hex : execLanes s o ≠ 0) (hk : stqChecks s.mgmt s.dev o = .go ls)
include hex hk

/-- Running ahead nothing is stored (R456). -/
theorem stq_of_runsAhead (hr : runsAhead s.dev = true) : Goes (.stq o) s (moved s o.w 8 false) :=
  goes_laneDone (h := hdStq o) (exec_stq o s) rfl rfl rfl hc
    (by simp only [hdStq, hdXw, beq_iff_eq, hex, hk, hr, if_false, if_true])

variable {d1 : Dev} (hr : runsAhead s.dev = false) (ho : ownedLine s.dev ls = none)
include hr ho

theorem stq_of_stored (hdet : isDet s.mgmt (curCtx s.dev) = false)
    (hs : storeSpan s.mgmt (moved s o.w 8 false) (curCtx s.dev) (curSpindle s.dev) (stapleAcc s.dev o).p
      (stapleBytes (stapleG o) (stapleW o)) (stqValue s.mgmt s.dev o (execLanes s o)) o.xw.pol.toNat 0 = .ok d1) :
    Goes (.stq o) s d1 :=
  goes_laneDone (h := hdStq o) (exec_stq o s) rfl rfl rfl hc
    (by simp only [hdStq, hdXw, beq_iff_eq, hex, hk, hr, ho, hdet, hs, Bool.false_eq_true, if_false])

/-- In a deterministic context the store is buffered (R313). -/
theorem stq_of_buffered (hdet : isDet s.mgmt (curCtx s.dev) = true)
    (hs : sbufPush (moved s o.w 8 false) s.dev.cur.skein (bundleEntries s.mgmt s.dev (stapleAcc s.dev o).p
      (stapleBytes (stapleG o) (stapleW o)) (stqValue s.mgmt s.dev o (execLanes s o)) o.xw.pol.toNat) = some d1) :
    Goes (.stq o) s (spillLog s.mgmt d1 (curCtx s.dev) (curSpindle s.dev) s.dev.cur.skein (curSkein s.dev).spilled) :=
  goes_laneDone (h := hdStq o) (exec_stq o s) rfl rfl rfl hc
    (by simp only [hdStq, hdXw, beq_iff_eq, hex, hk, hr, ho, hdet, hs, Bool.false_eq_true, if_false, if_true])

end

/-! ## LDQ -/

/-- Whether a lane of a mask sees an invalid header in the staple that was read. -/
def badHeader (m : Mgmt) (d : Dev) (o : Lm) (ex : Mask) (x : Nat) : Bool :=
  (lanesOf ex).any fun l => selectorBad (stapleW o) (stapleSeen m d o x l % 2 ^ 32)

section
variable {o : Lm} {s : State} (hc : LaneClear s o.xw.p o.xw.n [.s o.sb 2])
include hc

theorem ldq_of_idle (hex : execLanes s o = 0) : Goes (.ldq o) s (moved s o.w 8 false) :=
  goes_laneDone (h := hdLdq o) (exec_ldq o s) rfl rfl rfl hc (if_pos (beq_iff_eq.2 hex))

variable {ls : List (LAcc × Leaf × Nat)} {x lat : Nat} {d1 : Dev} (hex : execLanes s o ≠ 0)
  (hk : ldqChecks s.mgmt s.dev o = .go ls) (ho : ownedLine s.dev ls = none)
  (hl : loadSpan s.mgmt (moved s o.w 8 false) (curCtx s.dev) (curSpindle s.dev) (stapleAcc s.dev o).p
    (stapleBytes (stapleG o) (stapleW o)) o.xw.pol.toNat 0 = .ok (x, d1, lat))
include hex hk ho hl

theorem ldq_of_valid (hv : badHeader s.mgmt s.dev o (execLanes s o) x = false) :
    Goes (.ldq o) s (addPend d1 s.dev.cur.skein (max lat 20)
      ((lanesOf (execLanes s o)).flatMap (ldqLane s.mgmt s.dev o x))) := by
  rw [badHeader] at hv
  exact goes_laneDone (h := hdLdq o) (exec_ldq o s) rfl rfl rfl hc
    (by simp only [hdLdq, hdXw, beq_iff_eq, hex, hk, ho, hl, hv, Bool.false_eq_true, if_false, latL1])

theorem ldq_of_invalid (hv : badHeader s.mgmt s.dev o (execLanes s o) x = true) :
    Goes (.ldq o) s (trapped s o.w 8 false (faultAt .selector (stapleAcc s.dev o).p (execLanes s o))) := by
  rw [badHeader] at hv
  exact goes_laneFault (h := hdLdq o) (exec_ldq o s) rfl rfl rfl hc
    (by simp only [hdLdq, hdXw, beq_iff_eq, hex, hk, ho, hl, hv, if_false, if_true])

end

end Sys2Proof.Machine

/-! ## The statement -/

namespace Sys2Proof.Claims
open Machine

/-- Settles O28: each clause is the lemma of its instruction and outcome. -/
theorem stapleInstructions : Obligations.StapleInstructions := by
  intro o s _ m d u ex on n pol p
  refine ⟨fun hc => ⟨stq_of_idle hc, fun ls hex hk => ⟨stq_of_runsAhead hc hex hk, fun d1 hr ho => stq_of_stored hc hex hk hr ho,
    fun d1 hr ho => stq_of_buffered hc hex hk hr ho⟩⟩, fun hc => ⟨ldq_of_idle hc, fun ls x lat d1 hex hk ho hl => ⟨fun hv => ?_,
      fun hv => ?_⟩⟩⟩
  · exact ldq_of_valid hc hex hk ho hl (List.any_eq_false.2 fun l hm => Bool.eq_false_iff.1 (hv l hm))
  · exact ldq_of_invalid hc hex hk ho hl (List.any_eq_true.2 hv)

end Sys2Proof.Claims
end

section
/-!
PROOFS. The new value of an atomic, by operation (R229).
-/

namespace Sys2Proof.Machine
open Claims

/-- The integer that a pattern of a 32-bit or 64-bit type names (R107). -/
def typedInt (ty : BitVec 4) (v : Nat) : Int :=
  if ty = 0 ∨ ty = 2 then (BitVec.ofNat (width ty) v).toInt else ((v % 2 ^ width ty : Nat) : Int)

theorem readInt_ofNat (w v : Nat) : readInt w true v = (BitVec.ofNat w v).toInt := by
  rw [← readInt_mod, ← readInt_signed, BitVec.toNat_ofNat]

theorem wrapInt_readInt (w : Nat) (sg : Bool) (v : Nat) : wrapInt w (readInt w sg v) = v % 2 ^ w := by
  have hlow : ((v % 2 ^ w : Nat) : Int) % 2 ^ w = (v % 2 ^ w : Nat) := by norm_cast; exact Nat.mod_mod _ _
  unfold wrapInt readInt
  dsimp only
  split
  · rw [Int.sub_emod_right, hlow, Int.toNat_natCast]
  · rw [hlow, Int.toNat_natCast]

/-! ## Integers -/

section
variable {ty : BitVec 4} (h : intType ty)
include h

theorem readInt_eq_typedInt (v : Nat) : readInt (tyBits ty) (tySigned ty) v = typedInt ty v := by
  rcases intType_cases h with rfl | rfl | rfl | rfl
  · exact readInt_ofNat 32 v
  · rfl
  · exact readInt_ofNat 64 v
  · rfl

/-- The integer of a pattern, wrapped to the type, is that integer again. -/
theorem typedInt_wrapInt (v : Nat) : typedInt ty (wrapInt (tyBits ty) (typedInt ty v)) = typedInt ty v := by
  rw [← readInt_eq_typedInt h v, wrapInt_readInt, ← readInt_eq_typedInt h, readInt_mod]

variable (old x x2 : Nat)

theorem atomNew_add_int : atomNew 0 ty old x x2 = (old + x) % 2 ^ width ty := by
  rcases intType_cases h with rfl | rfl | rfl | rfl <;> rfl

theorem atomNew_min_int : atomNew 1 ty old x x2 = wrapInt (tyBits ty) (min (typedInt ty old) (typedInt ty x)) := by
  rw [← readInt_eq_typedInt h, ← readInt_eq_typedInt h]
  rcases intType_cases h with rfl | rfl | rfl | rfl <;> rfl

theorem atomNew_max_int : atomNew 2 ty old x x2 = wrapInt (tyBits ty) (max (typedInt ty old) (typedInt ty x)) := by
  rw [← readInt_eq_typedInt h, ← readInt_eq_typedInt h]
  rcases intType_cases h with rfl | rfl | rfl | rfl <;> rfl

theorem typedInt_atomNew_min : typedInt ty (atomNew 1 ty old x x2) = min (typedInt ty old) (typedInt ty x) := by
  rw [atomNew_min_int h]
  obtain hm | hm := min_choice (typedInt ty old) (typedInt ty x) <;> rw [hm, typedInt_wrapInt h]

theorem typedInt_atomNew_max : typedInt ty (atomNew 2 ty old x x2) = max (typedInt ty old) (typedInt ty x) := by
  rw [atomNew_max_int h]
  obtain hm | hm := max_choice (typedInt ty old) (typedInt ty x) <;> rw [hm, typedInt_wrapInt h]

end

/-! ## Patterns -/

/-- AND, OR, XOR, EXCH and CAS do not read the type. -/
theorem atomNew_bits (ty : BitVec 4) (old x x2 : Nat) :
    atomNew 3 ty old x x2 = old &&& x ∧ atomNew 4 ty old x x2 = old ||| x ∧ atomNew 5 ty old x x2 = old ^^^ x ∧
      atomNew 6 ty old x x2 = x ∧ atomNew 7 ty old x x2 = if old = x then x2 else old :=
  ⟨rfl, rfl, rfl, rfl, rfl⟩

/-! ## Floats -/

/-- FADD's sum of two patterns, rounded to nearest even. -/
def sumRne (f : Fmt) (a b : Nat) : Nat := (faddVal f envRne (fdecode f a) (fdecode f b)).1

section
variable {ty : BitVec 4} (old x x2 : Nat)

theorem atomNew_float (h : ty = 4 ∨ ty = 5) : atomNew 0 ty old x x2 = sumRne (fmtOf ty) old x ∧
    atomNew 1 ty old x x2 = (fminmax (fmtOf ty) envRne false old x).1 ∧
    atomNew 2 ty old x x2 = (fminmax (fmtOf ty) envRne true old x).1 := by
  rcases h with rfl | rfl <;> exact ⟨rfl, rfl, rfl⟩

/-- A packed sum is that of the low elements, and above it that of the high ones. -/
theorem atomNew_packed (h : ty = 8 ∨ ty = 9) : atomNew 0 ty old x x2 =
    sumRne (fmtOf ty) (old % 2 ^ 16) (x % 2 ^ 16) + 2 ^ 16 * sumRne (fmtOf ty) (old / 2 ^ 16) (x / 2 ^ 16) := by
  rcases h with rfl | rfl <;> rfl

end

end Sys2Proof.Machine
end

section
/-!
PROOFS. The checks of scratch accesses (R198, R224): the fault they make, which names the lanes of the earliest failing check.
-/

namespace Sys2Proof.Machine

/-! ## The fault of lanes that fail alike -/

/-- Of failures whose least place is that of some lanes with one cause, the fault is that cause's, with those lanes and the lowest one's
address. -/
theorem pickFault_of_lanes {bads : List (Nat × Bad)} {ls : Mask} {c : Cause} {st : Nat} {addr : Nat → DWord} (store : Bool)
    (hst : st ≤ 100) (hle : ∀ x ∈ bads, st ≤ x.2.stage) (hne : ls ≠ 0)
    (h : bads.filter (fun x => x.2.stage == st) = (lanesOf ls).map fun l => (l, { stage := st, cause := c, sub := 0, addr := addr l })) :
    ∃ ps, pickFault bads store = some { faultAt c (addr ((lanesOf ls).headD 0)) ls with pages := ps } := by
  obtain ⟨l0, r, hl⟩ := List.exists_cons_of_ne_nil (mt lanesOf_eq_nil_iff.1 hne)
  have hleast : ∃ x ∈ bads, x.2.stage = st := by
    have hm : (l0, { stage := st, cause := c, sub := 0, addr := addr l0 }) ∈ bads.filter fun x => x.2.stage == st := by
      simp [h, hl]
    exact ⟨_, (List.mem_filter.1 hm).1, rfl⟩
  have hmin : bads.foldl (fun s x => min s x.2.stage) 100 = st :=
    foldl_min_eq (fun x : Nat × Bad => x.2.stage) st bads 100 hle hst (.inr hleast)
  have hmask : (maskOf fun l => ((lanesOf ls).map fun l => (l, ({ stage := st, cause := c, sub := 0, addr := addr l } : Bad))).any
      fun x => x.1 == l) = ls := by
    refine BitVec.eq_of_getLsbD_eq fun j hj => ?_
    rw [getLsbD_maskOf]
    simp [List.any_map, Function.comp_def, List.any_beq', List.contains_eq_mem, mem_lanesOf, hj]
  simp only [pickFault, hmin, h, hmask]
  rw [hl]
  exact ⟨_, rfl⟩

/-! ## Offsets -/

/-- Whether an offset of `n` bytes leaves a group's scratchpad, and whether it is no multiple of the size. -/
def outside (g : Group) (n : Nat) (x : Int) : Bool := decide (x < 0) || decide ((1024 * hScratch g.header : Int) < x + n)
def uneven (n : Nat) (x : Int) : Bool := decide (x % n ≠ 0)

/-- The failures of an offset. -/
def outBad (x : Int) : Bad := { stage := stBounds, cause := .bounds, sub := 0, addr := BitVec.ofInt 64 x }
def oddBad (x : Int) : Bad := { stage := stAlign, cause := .align, sub := 0, addr := BitVec.ofInt 64 x }

@[simp] theorem outBad_stage (x : Int) : (outBad x).stage = stBounds := rfl
@[simp] theorem oddBad_stage (x : Int) : (oddBad x).stage = stAlign := rfl

theorem outside_eq_false_iff {g : Group} {n : Nat} {x : Int} :
    outside g n x = false ↔ 0 ≤ x ∧ x + n ≤ 1024 * hScratch g.header := by
  simp [outside]

theorem uneven_eq_false_iff {n : Nat} {x : Int} : uneven n x = false ↔ x % n = 0 := by
  simp [uneven]

section
variable {g : Group} {n : Nat} {x : Int}

theorem scratchBad_of_outside (h : outside g n x = true) : scratchBad g x n n = some (outBad x) := by
  have hout : (decide (x < 0) || decide ((hScratchBytes g.header : Int) < x + n)) = true := by
    rw [← h, outside, hScratchBytes, Nat.mul_comm]
    rfl
  exact if_pos hout

theorem scratchBad_of_inside (h : outside g n x = false) : scratchBad g x n n = if uneven n x then some (oddBad x) else none := by
  have hout : (decide (x < 0) || decide ((hScratchBytes g.header : Int) < x + n)) = false := by
    rw [← h, outside, hScratchBytes, Nat.mul_comm]
    rfl
  have hodd : (x.toNat % n != 0) = uneven n x := by
    obtain ⟨y, rfl⟩ := Int.eq_ofNat_of_zero_le (outside_eq_false_iff.1 h).1
    rw [uneven, Int.toNat_natCast, bne, Bool.beq_eq_decide_eq, ← decide_not]
    norm_cast
  rw [scratchBad, hout, hodd]
  rfl

end

/-! ## The failures of lanes -/

/-- The failures of the lanes at their offsets. -/
def scratchBads (g : Group) (n : Nat) (off : Nat → Int) (ls : List Nat) : List (Nat × Bad) :=
  ls.filterMap fun l => (scratchBad g (off l) n n).map fun b => (l, b)

theorem scratchFault_eq (g : Group) (n : Nat) (off : Nat → Int) (ls : List Nat) :
    scratchFault g (ls.map fun l => (l, off l)) n n = pickFault (scratchBads g n off ls) false := by
  rw [scratchFault, List.filterMap_map]
  rfl

section
variable {g : Group} {n : Nat} {off : Nat → Int}

theorem scratchBads_stage {ls : List Nat} : ∀ x ∈ scratchBads g n off ls, stBounds ≤ x.2.stage := by
  intro x hx
  obtain ⟨l, -, hb⟩ := List.mem_filterMap.1 hx
  obtain ⟨b, hb, rfl⟩ := Option.map_eq_some_iff.1 hb
  cases ho : outside g n (off l)
  · rw [scratchBad_of_inside ho] at hb
    split at hb <;> cases hb
    exact (by decide : stBounds ≤ stAlign)
  · rw [scratchBad_of_outside ho] at hb
    cases hb
    exact Nat.le_refl _

theorem scratchBads_out (ls : List Nat) : (scratchBads g n off ls).filter (fun x => x.2.stage == stBounds) =
    (ls.filter fun l => outside g n (off l)).map fun l => (l, outBad (off l)) := by
  induction ls with
  | nil => rfl
  | cons l r ih =>
    cases ho : outside g n (off l)
    · cases hu : uneven n (off l) <;>
        simp [scratchBads, scratchBad_of_inside ho, hu, ho, ← ih, stAlign, stBounds]
    · simp [scratchBads, scratchBad_of_outside ho, ho, ← ih]

theorem scratchBads_inside (ls : List Nat) (h : ∀ l ∈ ls, outside g n (off l) = false) :
    scratchBads g n off ls = (ls.filter fun l => uneven n (off l)).map fun l => (l, oddBad (off l)) := by
  induction ls with
  | nil => rfl
  | cons l r ih =>
    have ho := h l List.mem_cons_self
    have ih := ih fun j hj => h j (List.mem_cons_of_mem _ hj)
    cases hu : uneven n (off l) <;> simp [scratchBads, scratchBad_of_inside ho, hu, ← ih]

end

/-! ## The fault -/

section
variable {g : Group} {n : Nat} {off : Nat → Int} {ex : Mask}

/-- Lanes outside the scratchpad raise BOUNDS. -/
theorem scratchFault_of_out (h : maskOf (fun l => ex.getLsbD l && outside g n (off l)) ≠ 0) : ∃ ps,
    scratchFault g ((lanesOf ex).map fun l => (l, off l)) n n = some { faultAt .bounds (BitVec.ofInt 64 (off
      ((lanesOf (maskOf fun l => ex.getLsbD l && outside g n (off l))).headD 0)))
      (maskOf fun l => ex.getLsbD l && outside g n (off l)) with pages := ps } := by
  rw [scratchFault_eq]
  refine pickFault_of_lanes (addr := fun l => BitVec.ofInt 64 (off l)) false (by decide) scratchBads_stage h ?_
  rw [scratchBads_out, lanesOf_maskOf, filter_lanesOf]
  rfl

theorem inside_of_mask_eq_zero (h : maskOf (fun l => ex.getLsbD l && outside g n (off l)) = 0) :
    ∀ l ∈ lanesOf ex, outside g n (off l) = false := by
  rw [maskOf_eq_zero_iff, ← filter_lanesOf] at h
  exact fun l hl => Bool.eq_false_iff.2 (List.filter_eq_nil_iff.1 h l hl)

/-- Lanes inside it at an uneven offset raise ALIGN. -/
theorem scratchFault_of_odd (h0 : maskOf (fun l => ex.getLsbD l && outside g n (off l)) = 0)
    (h : maskOf (fun l => ex.getLsbD l && uneven n (off l)) ≠ 0) : ∃ ps,
    scratchFault g ((lanesOf ex).map fun l => (l, off l)) n n = some { faultAt .align (BitVec.ofInt 64 (off
      ((lanesOf (maskOf fun l => ex.getLsbD l && uneven n (off l))).headD 0)))
      (maskOf fun l => ex.getLsbD l && uneven n (off l)) with pages := ps } := by
  have hbads := scratchBads_inside (lanesOf ex) (inside_of_mask_eq_zero h0)
  have hstage : ∀ x ∈ scratchBads g n off (lanesOf ex), x.2.stage = stAlign := by
    rw [hbads]
    intro x hx
    obtain ⟨l, -, rfl⟩ := List.mem_map.1 hx
    rfl
  rw [scratchFault_eq]
  refine pickFault_of_lanes (addr := fun l => BitVec.ofInt 64 (off l)) (st := stAlign) false (by decide)
    (fun x hx => (hstage x hx).ge) h ?_
  rw [List.filter_eq_self.2 fun x hx => beq_iff_eq.2 (hstage x hx), hbads, lanesOf_maskOf, filter_lanesOf]
  rfl

theorem scratchFault_of_fit (h : ∀ l ∈ lanesOf ex, outside g n (off l) = false ∧ uneven n (off l) = false) :
    scratchFault g ((lanesOf ex).map fun l => (l, off l)) n n = none := by
  rw [scratchFault_eq, scratchBads_inside _ fun l hl => (h l hl).1,
    List.filter_eq_nil_iff.2 fun l hl => Bool.eq_false_iff.1 (h l hl).2]
  rfl

end

end Sys2Proof.Machine
end

section
/-!
PROOFS. An access that the spindle's L1 answers (`Hits`): its place, its checks, and its way.
-/

namespace Sys2Proof.Machine

/-! ## Its place -/

theorem place_line (line : Nat) (p : DWord) : (128 * line + p.toNat % 128) / 128 = line := by omega
theorem place_byte (line : Nat) (p : DWord) : (128 * line + p.toNat % 128) % 128 = p.toNat % 128 := by omega

/-- An aligned access whose size divides a line lies in one line. -/
theorem pieces_of_aligned {p : DWord} {n : Nat} (ha : p.toNat % n = 0) (hn : n ∣ 128) : pieces p n = [(p, n)] := by
  have hfits : p.toNat % 128 + n ≤ 128 := by
    obtain ⟨k, hk⟩ := hn
    have hmod : p.toNat % 128 % n = 0 := by rw [Nat.mod_mod_of_dvd _ ⟨k, hk⟩, ha]
    obtain ⟨j, hj⟩ := Nat.dvd_of_mod_eq_zero hmod
    have hlt : n * j < n * k := hj ▸ hk ▸ Nat.mod_lt _ (by decide)
    calc p.toNat % 128 + n = n * (j + 1) := by rw [hj, Nat.mul_succ]
      _ ≤ n * k := Nat.mul_le_mul_left n (Nat.lt_of_mul_lt_mul_left hlt)
      _ = 128 := hk.symm
  exact if_pos (by rw [bitsOf_zero]; exact hfits)

/-- A copy found at a virtual line stands there. -/
theorem va_of_l1Hit {d : Dev} {sp asid va : Nat} {c : L1Line} (h : l1Hit d sp asid va = some c) : c.va = va := by
  have hc := List.find?_some h
  simp only [Bool.and_eq_true, beq_iff_eq] at hc
  exact hc.2

/-- A copy that stands in the access's set brings no way along from another. -/
theorem waysAlong_of_stands {d : Dev} {sp line : Nat} {c : L1Line} (h : l1Phys d sp line = some c) :
    waysAlong d sp (setOf c.va) line = 0 := by
  have hset (made : Nat) : standSet d sp line made = setOf c.va := by rw [standSet, h]; rfl
  have hpins : (pinWays d sp).filter (fun e => e.1 == line && e.2 != setOf c.va) = [] := by
    refine List.filter_eq_nil_iff.2 fun e he => ?_
    simp only [pinWays, List.mem_dedup, List.mem_flatMap, List.mem_map] at he
    obtain ⟨k, -, q, -, rfl⟩ := he
    simp only [Bool.and_eq_true, beq_iff_eq, bne_iff_ne, not_and, not_not]
    rintro rfl
    exact hset _
  simp [waysAlong, hpins, hset]

/-! ## Its checks -/

section
variable {s : State} {p : DWord} {n pol : Nat} {store : Bool} {c : L1Line} (h : Hits s p n pol store c)
include h

theorem Hits.locate_eq :
    locate s.mgmt s.dev (curCtx s.dev) (curSpindle s.dev) p = .ok (c.leaf, 128 * c.pa + p.toNat % 128) := by
  have hva : bitsOf p 0 48 / 128 = bitsOf p 7 41 := by simp only [bitsOf]; omega
  have hbyte : bitsOf p 0 48 % 128 = p.toNat % 128 := by simp only [bitsOf]; omega
  simp only [locate, h.canon, hva, h.line, h.current, hbyte, Bool.false_eq_true, if_false]

theorem Hits.checkAt_eq :
    checkAt s.mgmt s.dev (curCtx s.dev) (curSpindle s.dev) p n store = .ok (c.leaf, 128 * c.pa + p.toNat % 128) := by
  have hw : (store && !c.leaf.w) = false := by
    cases hs : store
    · rfl
    · rw [h.writable hs]; rfl
  simp only [checkAt, h.locate_eq, hw, h.tag, Bool.not_true, Bool.false_eq_true, if_false]

theorem Hits.checkPtr_eq :
    checkPtr s.mgmt s.dev (curCtx s.dev) (curSpindle s.dev) p n n store = .ok c.leaf (128 * c.pa + p.toNat % 128) := by
  simp [checkPtr, h.aligned, h.canon, pieces_of_aligned h.aligned h.size.2, h.checkAt_eq]

theorem Hits.checkLane_eq {probe : Leaf → Nat → Option (DWord × MemErr)} {a : LAcc} (hp : a.p = p) (hpre : a.pre = none)
    (hdrop : a.drop = false) (hprobe : probe c.leaf (128 * c.pa + p.toNat % 128) = none) :
    checkLane s.mgmt s.dev (curCtx s.dev) (curSpindle s.dev) n n store probe a = .ok c.leaf (128 * c.pa + p.toNat % 128) := by
  simp only [checkLane, hdrop, hpre, hp, h.canon, checkUni, h.checkPtr_eq, hprobe, Bool.false_eq_true, if_false]

theorem Hits.ownedLine_eq (a : LAcc) : ownedLine s.dev [(a, c.leaf, 128 * c.pa + p.toNat % 128)] = none := by
  simp [ownedLine, place_line, h.unowned]

end

theorem checkAll_single {store : Bool} {chk : LAcc → Chk} {a : LAcc} {l : Leaf} {pa : Nat} (h : chk a = .ok l pa) :
    checkAll store chk [a] = .go [(a, l, pa)] := by
  simp [checkAll, h, pickFault]

/-! ## Locks and an issue -/

/-- An update of a skein that keeps its group and its locks keeps the reserved ways. -/
theorem emptyWay_modSkein {d : Dev} {u sp line : Nat} {f : Skein → Skein} (hu : ∀ k, (f k).uid = k.uid)
    (hg : ∀ k, (f k).gid = k.gid) (hl : ∀ k, (f k).locks = k.locks) : emptyWay (modSkein d u f) sp line = emptyWay d sp line := by
  have hon (k : Skein) : onSpindle (modSkein d u f) sp k = onSpindle d sp k := rfl
  have honf (k : Skein) : onSpindle d sp (f k) = onSpindle d sp k := by rw [onSpindle, onSpindle, hg]
  rw [emptyWay, emptyWay, modSkein_skeins, modWhere, List.findSome?_map]
  congr 1
  funext k
  simp only [Function.comp_apply, hon]
  split
  · rw [honf, hu, hl]
  · rfl

theorem modThreads_gid (k : Skein) (ls : List Nat) (f : Nat → Thread → Thread) : (modThreads k ls f).gid = k.gid := by
  rw [modThreads_frame]
theorem modThreads_locks (k : Skein) (ls : List Nat) (f : Nat → Thread → Thread) : (modThreads k ls f).locks = k.locks := by
  rw [modThreads_frame]

theorem emptyWay_modThreads (d : Dev) (u sp line : Nat) (ls : List Nat) (f : Nat → Thread → Thread) :
    emptyWay (modSkein d u fun k => modThreads k ls f) sp line = emptyWay d sp line :=
  emptyWay_modSkein (fun k => modThreads_uid k ls f) (fun k => modThreads_gid k ls f) fun k => modThreads_locks k ls f

theorem emptyWay_advance (m : Mgmt) (d : Dev) (h : Hd) (sp line : Nat) : emptyWay (advance m d h) sp line = emptyWay d sp line := by
  obtain ⟨qs, st, he⟩ := noteIssue_eq m d h
  have hnote : emptyWay (noteIssue m d h) sp line = emptyWay d sp line := by
    rw [he]
    exact emptyWay_modSkein (d := d) (u := d.cur.skein) (f := noted d h _) (noted_uid d h _)
      (fun k => modThreads_gid k _ _) fun k => modThreads_locks k _ _
  have hpcs : emptyWay (setPcs (noteIssue m d h) d.cur.skein d.cur.lanes (nextPc d h.len)) sp line = emptyWay d sp line :=
    (emptyWay_modThreads ..).trans hnote
  unfold advance
  dsimp only
  split
  · exact hpcs
  · exact (emptyWay_modThreads ..).trans hpcs

/-- An issue changes no cache and no memory. -/
theorem movedIn_eq (s : State) (w : Bool) (len : Nat) (ends : Mask) : ∃ ks qs st,
    movedIn s w len ends = { s.dev with skeins := ks, quarters := qs, stalled := st } := by
  obtain ⟨ks, qs, st, he, -⟩ := advance_spec s.mgmt s.dev
    { w := w, len := len, p := 7, n := false, rds := [], ends := ends, fp64 := false }
  exact ⟨ks, qs, st, he⟩

end Sys2Proof.Machine
end

section
/-!
PROOFS. ATOM and ATOMB (R228 to R232): what the accesses of the lanes come to, and the atomic of one lane in a line its L1 owns.
-/

namespace Sys2Proof.Machine

/-! ## ATOM and ATOMB on their accesses -/

/-- The head of an atomic whose address form reads `rds`; it ends the regions of the executing lanes. -/
def hdAtom (o : Lm) (rds : List Rd) : Hd := hdXw o (.v o.d (atomRegs o) :: rds) true

/-- The accesses of ATOM and of ATOMB. -/
def atomAccs (o : Lm) (d : Dev) (ex : Mask) : List LAcc := globalAccs d o (if atomForm o then 2 else 1) (atomDisp o) (lanesOf ex)
def atombAccs (o : Lm) (d : Dev) (ex : Mask) : List LAcc :=
  bufferAccs d o (atomForm o) (atomDisp o) (tyBytes o.xw.ty) true (lanesOf ex)

theorem exec_atom (o : Lm) (s : State) : exec (.atom o) s = s.run fun m d =>
    laneIssue m d (hdAtom o (globalRds o (if atomForm o then 2 else 1))) fun ex da => atomInstr m d da o ex (atomAccs o d ex) := rfl
theorem exec_atomb (o : Lm) (s : State) : exec (.atomb o) s = s.run fun m d =>
    laneIssue m d (hdAtom o (bufferRds o (atomForm o))) fun ex da => atomInstr m d da o ex (atombAccs o d ex) := rfl

section
variable {m : Mgmt} {d da : Dev} {o : Lm} {ex : Mask} {as : List LAcc}

theorem atomInstr_of_idle (hex : ex = 0) : atomInstr m d da o ex as = .done da := if_pos (beq_iff_eq.2 hex)

variable (hex : ex ≠ 0)
include hex

/-- A deterministic context has no atomics wider than the group (R231). -/
theorem atomInstr_of_wide (hdet : isDet m (curCtx d) = true) (hsc : 3 ≤ o.xw.sc.toNat) :
    atomInstr m d da o ex as = .fault (faultAt .detviol 0 ex) := by
  simp only [atomInstr, beq_iff_eq, hex, hdet, hsc, decide_true, Bool.and_self, if_false, if_true]

theorem atomInstr_of_done {ls : List (LAcc × Leaf × Nat)} {vs : List (Nat × Nat)} {d3 : Dev} {lat : Nat}
    (hsc : isDet m (curCtx d) = false ∨ o.xw.sc.toNat < 3) (hk : atomChecks m d o as = .go ls) (ho : ownedLine d ls = none)
    (hv : atomDone m d da o ls = .ok (vs, d3, lat)) :
    atomInstr m d da o ex as = .done (addPend d3 d.cur.skein (max lat 20) (vs.flatMap (fun v => atomDst o v.1 v.2) ++
      (as.filter fun a => a.drop).flatMap fun a => atomDst o a.lane 0)) := by
  have hnarrow : (isDet m (curCtx d) && decide (3 ≤ o.xw.sc.toNat)) = false := by
    rcases hsc with h | h
    · rw [h]; rfl
    · rw [decide_eq_false (Nat.not_le.2 h), Bool.and_false]
  simp only [atomInstr, beq_iff_eq, hex, hnarrow, hk, ho, hv, Bool.false_eq_true, if_false, latL1]

end

/-! ## The atomic of one lane in a line that the L1 owns (R231) -/

/-- The new value of a lane's atomic on an old one. -/
def laneNew (d : Dev) (o : Lm) (l old : Nat) : Nat :=
  atomNew (atomOp o) o.xw.ty old (atomOperands d o l).1 (atomOperands d o l).2

/-- A value of a type put into a copy: its words are dirty. -/
def ownPut (o : Lm) (b x : Nat) (k : L1Line) : L1Line :=
  let bm := byteMask b (tyBytes o.xw.ty)
  { k with data := overlay k.data (atByte b x) bm, dirty := k.dirty ||| wordsTouched bm, filled := k.filled &&& ~~~(wordsTouched bm) }

/-- Outside a deterministic context a lane sees no buffered bytes. -/
theorem atomRun_single {m : Mgmt} {d : Dev} (hdet : isDet m (curCtx d) = false) (o : Lm) (pa l v : Nat) :
    atomRun m d o pa [l] v = ([(l, v)], laneNew d o l v) := by
  have hown : ownStores m d [ownNo (curSkein d) l] = [] := by simp only [ownStores, hdet, Bool.false_eq_true, if_false]
  simp only [atomRun, List.foldl_cons, List.foldl_nil, hown]
  rfl

/-- An atomic at .sk or .gr in a line whose whole copy the L1 owns is performed there. -/
theorem atomAt_owned {m : Mgmt} {d0 d : Dev} {ctx sp pa l : Nat} {o : Lm} {p : DWord} {leaf : Leaf} {c : L1Line}
    (hdet : isDet m (curCtx d0) = false) (hsc : o.xw.sc.toNat ≤ 2) (hpeer : isPeer pa = false)
    (hway : claimWay m d ctx sp p leaf pa l = .ok (d, false)) (hhome : isHome sp (pa / 128) leaf = true)
    (hit : l1Hit d sp (ctxAsid m ctx) (bitsOf p 7 41) = some c) (hphys : l1Phys d sp (pa / 128) = some c) (hst : c.st = .e)
    (hwhole : holds c (BitVec.allOnes 128) = true) (hcur : c.stale = false)
    (hsound : cleanLost d c (byteMask (pa % 128) (tyBytes o.xw.ty)) = false) :
    atomAt m d0 d ctx sp o p leaf pa [l] =
      let old := takeBytes c.data (pa % 128) (tyBytes o.xw.ty)
      .ok ([(l, old)], modL1 d sp (pa / 128) (ownPut o (pa % 128) (laneNew d0 o l old)), latL1) := by
  unfold atomAt
  simp only [List.headD_cons, hpeer, hway, hsc, hhome, hit, hst, hwhole, hcur, hsound, atomRun_single hdet, Bool.false_eq_true, if_false,
    decide_true, Bool.not_false, Bool.and_self, if_true, beq_self_eq_true, Except.map, hphys, Option.map_some, Option.getD_some]
  rfl

/-- One access, neither released nor acquired, is its atomic alone. -/
theorem atomDone_of_single {m : Mgmt} {d da d1 : Dev} {o : Lm} {a : LAcc} {leaf : Leaf} {pa lat : Nat} {olds : List (Nat × Nat)}
    (hdet : isDet m (curCtx d) = false) (hord : atomOrd o = 0)
    (hat : atomAt m d da (curCtx d) (curSpindle d) o a.p leaf pa [a.lane] = .ok (olds, d1, lat)) :
    atomDone m d da o [(a, leaf, pa)] = .ok (olds, d1, lat) := by
  have hgroups : atomGroups [(a, leaf, pa)] = [(a.p, leaf, pa, [a.lane])] := rfl
  have hrel : atomRel o = false := by rw [atomRel, hord]; rfl
  have hacq : atomAcq o = false := by rw [atomAcq, hord]; rfl
  have hlanes : atomLanes m da d o (curCtx d) (curSpindle d) [(a, leaf, pa)] = .ok (olds, d1, lat) := by
    simp only [atomLanes, hgroups, List.foldlM_cons, List.foldlM_nil, hat, hdet, Except.map, Bool.false_eq_true, if_false,
      List.nil_append, Nat.zero_max]
    rfl
  simp only [atomDone, hrel, hacq, hlanes, Except.map, Bool.false_eq_true, if_false]

section
variable {s : State} {o : Lm} {p : DWord} {c : L1Line} (h : Owns s p (tyBytes o.xw.ty) c)
  (hdet : isDet s.mgmt (curCtx s.dev) = false) (hsc : o.xw.sc.toNat ≤ 2)
include h hdet hsc

/-- The atomic of a lane in a device that differs from the one at issue in what an issue changes. -/
theorem Owns.atomAt_eq {d : Dev} (l : Nat) (hl1 : d.l1 = s.dev.l1) (hf : d.forms = s.dev.forms) (hh : d.halves = s.dev.halves)
    (he : emptyWay d (curSpindle s.dev) c.pa = none) :
    atomAt s.mgmt s.dev d (curCtx s.dev) (curSpindle s.dev) o p c.leaf (128 * c.pa + p.toNat % 128) [l] =
      let old := takeBytes c.data (p.toNat % 128) (tyBytes o.xw.ty)
      .ok ([(l, old)], modL1 d (curSpindle s.dev) c.pa (ownPut o (p.toNat % 128) (laneNew s.dev o l old)), latL1) := by
  have hit : l1Hit d (curSpindle s.dev) (ctxAsid s.mgmt (curCtx s.dev)) (bitsOf p 7 41) = some c := by
    rw [l1Hit, hl1]; exact h.hit.line
  have hphys : l1Phys d (curSpindle s.dev) c.pa = some c := by rw [l1Phys, hl1]; exact h.hit.own
  have hsound : cleanLost d c (byteMask (p.toNat % 128) (tyBytes o.xw.ty)) = false := by
    rw [cleanLost, contentLost, formOf, hf, hh]; exact h.unspoilt
  have hline := place_line c.pa p
  have hbyte := place_byte c.pa p
  have hway : claimWay s.mgmt d (curCtx s.dev) (curSpindle s.dev) p c.leaf (128 * c.pa + p.toNat % 128) l = .ok (d, false) :=
    claimWay_none (by rw [hline]; exact he) (by rw [hline, ← va_of_l1Hit hit]; exact waysAlong_of_stands hphys)
  have key := atomAt_owned (o := o) hdet hsc h.hit.near hway (by rw [hline]; exact h.home) hit (by rw [hline]; exact hphys) h.state
    h.whole h.hit.current (by rw [hbyte]; exact hsound)
  rw [hline, hbyte] at key
  exact key

theorem Owns.atomChecks_eq {a : LAcc} (hp : a.p = p) (hpre : a.pre = none) (hdrop : a.drop = false) :
    atomChecks s.mgmt s.dev o [a] = .go [(a, c.leaf, 128 * c.pa + p.toNat % 128)] := by
  refine checkAll_single (h.hit.checkLane_eq hp hpre hdrop ?_)
  dsimp only
  rw [hp, h.atomAt_eq hdet hsc a.lane rfl rfl rfl h.hit.unreserved]
  rfl

theorem Owns.atomDone_eq {a : LAcc} (w : Bool) (len : Nat) (ends : Mask) (hp : a.p = p) (hord : atomOrd o = 0) :
    atomDone s.mgmt s.dev (movedIn s w len ends) o [(a, c.leaf, 128 * c.pa + p.toNat % 128)] =
      let old := takeBytes c.data (p.toNat % 128) (tyBytes o.xw.ty)
      .ok ([(a.lane, old)], modL1 (movedIn s w len ends) (curSpindle s.dev) c.pa
        (ownPut o (p.toNat % 128) (laneNew s.dev o a.lane old)), latL1) := by
  obtain ⟨ks, qs, st, hm⟩ := movedIn_eq s w len ends
  refine atomDone_of_single hdet hord ?_
  rw [hp]
  exact h.atomAt_eq hdet hsc a.lane (by rw [hm]) (by rw [hm]) (by rw [hm]) ((emptyWay_advance ..).trans h.hit.unreserved)

end

/-! ## The instructions -/

section
variable {i : Instr} {o : Lm} {s : State} {rds : List Rd} {accs : Dev → Mask → List LAcc}
  (he : exec i s = s.run fun m d => laneIssue m d (hdAtom o rds) fun ex da => atomInstr m d da o ex (accs d ex))
  (hc : LaneClear s o.xw.p o.xw.n (.v o.d (atomRegs o) :: rds))
include he hc

theorem atom_done {d1 : Dev} (hb : atomInstr s.mgmt s.dev (movedIn s o.w 8 (execLanes s o)) o
    (execLanes s o) (accs s.dev (execLanes s o)) = .done d1) : Goes i s d1 :=
  goes_breakerDone (h := hdAtom o rds) (body := fun m d ex da => atomInstr m d da o ex (accs d ex)) he rfl hc rfl hb

theorem atom_fault {f : FaultInfo} (hb : atomInstr s.mgmt s.dev (movedIn s o.w 8 (execLanes s o)) o
    (execLanes s o) (accs s.dev (execLanes s o)) = .fault f) : Goes i s (trapped s o.w 8 true f) :=
  goes_breakerFault (h := hdAtom o rds) (body := fun m d ex da => atomInstr m d da o ex (accs d ex)) he rfl hc rfl hb

theorem atom_of_owned {l : Nat} {a : LAcc} {c : L1Line} (hl : lanesOf (execLanes s o) = [l])
    (has : accs s.dev (execLanes s o) = [a]) (hpre : a.pre = none) (hdrop : a.drop = false) (hlane : a.lane = l)
    (ho : Owns s a.p (tyBytes o.xw.ty) c) (hdet : isDet s.mgmt (curCtx s.dev) = false) (hord : atomOrd o = 0)
    (hsc : o.xw.sc.toNat ≤ 2) :
    let old := takeBytes c.data (a.p.toNat % 128) (tyBytes o.xw.ty)
    Goes i s (addPend (modL1 (movedIn s o.w 8 (execLanes s o)) (curSpindle s.dev) c.pa
      (ownPut o (a.p.toNat % 128) (laneNew s.dev o l old))) s.dev.cur.skein 20 (atomDst o l old)) := by
  have hex : execLanes s o ≠ 0 := mt lanesOf_eq_nil_iff.2 (by rw [hl]; exact List.cons_ne_nil _ _)
  subst hlane
  refine atom_done he hc ?_
  rw [has, atomInstr_of_done hex (.inl hdet) (ho.atomChecks_eq hdet hsc rfl hpre hdrop) (ho.hit.ownedLine_eq a)
    (ho.atomDone_eq hdet hsc _ _ _ rfl hord)]
  simp only [List.flatMap_cons, List.flatMap_nil, List.append_nil, List.filter_cons, hdrop, Bool.false_eq_true, if_false,
    List.filter_nil, latL1, Nat.max_self]

end

end Sys2Proof.Machine
end

section
/-!
PROOFS. ATOMS (R230, R383): the scratchpad's atomics, their faults, and the release that waits for surface writes.
-/

namespace Sys2Proof.Machine

/-- A lane's offset. -/
def atomsOff (d : Dev) (o : Lm) (l : Nat) : Int := scratchOff d o (atomForm o) (atomDisp o) l

/-- The surface write that a release has to wait for. -/
def atomsDue (d : Dev) (o : Lm) (ex : Mask) : Option Nat :=
  if atomRel o && ex != 0 then surfaceDue d (spindleNo (curGroup d)) else none

/-- A lane's atomic in the scratchpad, and its old value among the results. -/
def atomsLane (d : Dev) (o : Lm) (r : Group × List PWrite) (l : Nat) : Group × List PWrite :=
  let old := memNat r.1.scratch (atomsOff d o l).toNat (tyBytes o.xw.ty)
  ({ r.1 with scratch := memPut r.1.scratch (atomsOff d o l).toNat (laneNew d o l old) (tyBytes o.xw.ty) }, r.2 ++ atomDst o l old)

/-- What ATOMS comes to in the executing lanes. -/
def atomsBody (o : Lm) (d : Dev) (ex : Mask) (da : Dev) : Res :=
  let n := tyBytes o.xw.ty
  let g := curGroup d
  match scratchFault g ((lanesOf ex).map fun l => (l, atomsOff d o l)) n n, atomsDue d o ex with
  | some f, _ => .fault f
  | none, some line => .park d (.half (2 * line))
  | none, none =>
    let r := (lanesOf ex).foldl (atomsLane d o) (g, [])
    .done (addPend (modGroup da g.gid fun _ => r.1) d.cur.skein latScratch r.2)

theorem exec_atoms (o : Lm) (s : State) : exec (.atoms o) s =
    s.run fun m d => laneIssue m d (hdAtom o (scratchRds o (atomForm o))) (atomsBody o d) := by
  show execAtoms o s = _
  unfold execAtoms atomsBody
  simp only [List.foldl_map]
  rfl

section
variable {o : Lm} {s : State} (hc : LaneClear s o.xw.p o.xw.n (.v o.d (atomRegs o) :: scratchRds o (atomForm o)))
include hc

/-- A fault keeps no pages of the scratchpad. -/
theorem atoms_fault {c : Cause} {addr : DWord} {ls : Mask} (hx : c ≠ .xlate)
    (hf : ∃ ps, scratchFault (curGroup s.dev) ((lanesOf (execLanes s o)).map fun l => (l, atomsOff s.dev o l))
      (tyBytes o.xw.ty) (tyBytes o.xw.ty) = some { faultAt c addr ls with pages := ps }) :
    Goes (.atoms o) s (trapped s o.w 8 true (faultAt c addr ls)) := by
  obtain ⟨ps, hf⟩ := hf
  have hg := goes_breakerFault (h := hdAtom o (scratchRds o (atomForm o))) (body := fun _ => atomsBody o)
    (f := { faultAt c addr ls with pages := ps }) (exec_atoms o s) rfl hc rfl (by simp only [atomsBody, hdAtom, hdXw, hf])
  exact hg.congr (faulted_pages ps hx)

variable (hf : scratchFault (curGroup s.dev) ((lanesOf (execLanes s o)).map fun l => (l, atomsOff s.dev o l))
  (tyBytes o.xw.ty) (tyBytes o.xw.ty) = none)
include hf

theorem atoms_done (hd : atomsDue s.dev o (execLanes s o) = none) :
    Goes (.atoms o) s (addPend (modGroup (movedIn s o.w 8 (execLanes s o)) (curGroup s.dev).gid fun _ =>
        ((lanesOf (execLanes s o)).foldl (atomsLane s.dev o) (curGroup s.dev, [])).1) s.dev.cur.skein 14
      ((lanesOf (execLanes s o)).foldl (atomsLane s.dev o) (curGroup s.dev, [])).2) :=
  goes_breakerDone (h := hdAtom o (scratchRds o (atomForm o))) (body := fun _ => atomsBody o) (exec_atoms o s) rfl hc rfl
    (by simp only [atomsBody, hdAtom, hdXw, hf, hd, latScratch])

theorem atoms_waits {line : Nat} (hd : atomsDue s.dev o (execLanes s o) = some line) :
    Goes (.atoms o) s (parkedIn s o.w 8 (execLanes s o) s.dev (.half (2 * line))) :=
  goes_breakerPark (h := hdAtom o (scratchRds o (atomForm o))) (body := fun _ => atomsBody o) (exec_atoms o s) rfl hc rfl
    (by simp only [atomsBody, hdAtom, hdXw, hf, hd])

end

end Sys2Proof.Machine

/-! ## The statement -/

namespace Sys2Proof.Claims
open Machine

/-- Settles O25: the values by operation and type, then each clause is the lemma of its instruction and outcome. -/
theorem atomics : Obligations.Atomics := by
  refine ⟨?_, fun ty old x x2 _ => atomNew_bits ty old x x2, ?_, ?_⟩
  · intro ty old x x2 hty w i _ _ _
    exact ⟨atomNew_add_int hty old x x2, typedInt_atomNew_min hty old x x2, typedInt_atomNew_max hty old x x2,
      atomNew_bits ty old x x2⟩
  · intro ty old x x2 f sum
    exact ⟨atomNew_float old x x2, atomNew_packed old x x2⟩
  intro o s _ m d n ex on dst am both off
  have memory {i : Instr} {rds : List Rd} {accs : Dev → Mask → List LAcc}
      (he : exec i s = s.run fun m d => laneIssue m d (hdAtom o rds) fun ex da => atomInstr m d da o ex (accs d ex)) :
      both i (accs d ex) rds := fun hc =>
    ⟨fun hex => atom_done he hc (atomInstr_of_idle hex), fun hex hdet hsc => atom_fault he hc (atomInstr_of_wide hex hdet hsc),
      fun l a c hl has hpre hdrop hlane ho hdet hord hsc => atom_of_owned he hc hl has hpre hdrop hlane ho hdet hord hsc,
      fun ls vs d3 lat hex hsc hk ho hv => atom_done he hc (atomInstr_of_done hex hsc hk ho hv)⟩
  refine ⟨memory (exec_atom o s), memory (exec_atomb o s), ?_⟩
  intro out odd fault
  refine ⟨fun hc _ => ⟨fun hout => atoms_fault hc (by decide) (scratchFault_of_out hout),
    fun hout hodd => atoms_fault hc (by decide) (scratchFault_of_odd hout hodd)⟩, ?_⟩
  intro hc _ hfit due r
  have hf := scratchFault_of_fit (g := curGroup d) (n := n) (off := atomsOff d o) (ex := ex) fun l hl => by
    obtain ⟨hlow, hhigh, heven⟩ := hfit l hl
    exact ⟨outside_eq_false_iff.2 ⟨hlow, hhigh⟩, uneven_eq_false_iff.2 heven⟩
  have hdue : atomsDue d o ex = due := by simp only [atomsDue, due, Bool.and_eq_true, bne_iff_ne]; rfl
  exact ⟨fun h => atoms_done hc hf (hdue.trans h), fun line h => atoms_waits hc hf (hdue.trans h)⟩

end Sys2Proof.Claims
end

section
/-!
PROOFS. What an access to memory leaves a skein's command to be made from: the groups, the free values, and the skein's group, results
in flight and descriptors. No operation of the slices or of an L1 changes them; a load may fill the reserved way of a lock.
-/

namespace Sys2Proof.Machine

/-- What a command of a skein is made from, beside its block. -/
def cmdSource (u : Nat) (d : Dev) : List Group × Nat × Nat × List Pend × Vector (BitVec 128) 16 :=
  (d.groups, d.free, (skeinOf d u).gid, (skeinOf d u).pend, (skeinOf d u).td)

/-! ## Accesses that come through -/

section
variable {ε α β : Type}

theorem map_ok {r : Except ε α} {f : α → β} {y : β} (h : r.map f = .ok y) : ∃ x, r = .ok x ∧ f x = y := by
  cases r with
  | error e => cases h
  | ok x => exact ⟨x, rfl, Except.ok.inj h⟩

theorem bind_ok {r : Except ε α} {f : α → Except ε β} {y : β} (h : r.bind f = .ok y) : ∃ x, r = .ok x ∧ f x = .ok y := by
  cases r with
  | error e => cases h
  | ok x => exact ⟨x, rfl, h⟩

/-- What every step of a list keeps, the list keeps. -/
theorem foldlM_keeps {γ : Type} (v : β → γ) {f : β → α → Except ε β} (hf : ∀ b a c, f b a = .ok c → v c = v b) :
    ∀ {xs : List α} {b c : β}, xs.foldlM f b = .ok c → v c = v b := by
  intro xs
  induction xs with
  | nil => intro b c h; rw [Except.ok.inj h]
  | cons a xs ih =>
    intro b c h
    obtain ⟨b1, h1, h2⟩ := bind_ok (f := fun b => xs.foldlM f b) h
    exact (ih h2).trans (hf b a b1 h1)

theorem foldl_keeps {γ : Type} (v : β → γ) {f : β → α → β} (hf : ∀ b a, v (f b a) = v b) (xs : List α) (b : β) :
    v (xs.foldl f b) = v b := by
  induction xs generalizing b with
  | nil => rfl
  | cons a xs ih => exact (ih (f b a)).trans (hf b a)

end

/-! ## The slices -/

section
variable {m : Mgmt} {d e : Dev} {u ctx sp line : Nat}

@[simp] theorem poisonRecord_cmdSource (m : Mgmt) (d : Dev) (u ctx line : Nat) :
    cmdSource u (poisonRecord m d ctx line) = cmdSource u d := by
  obtain ⟨r, kill, he, -⟩ := takeDeviceFault_spec m d ctx .dataerr 0 (BitVec.ofNat 64 (128 * line)) 0
  rw [poisonRecord, he]
  rfl

@[simp] theorem wakeLine_cmdSource (d : Dev) (u line : Nat) : cmdSource u (wakeLine d line) = cmdSource u d := by
  unfold wakeLine; split <;> rfl
@[simp] theorem markWritten_cmdSource (d : Dev) (u line : Nat) : cmdSource u (markWritten d line) = cmdSource u d := by
  unfold markWritten; split <;> rfl
@[simp] theorem dropTiles_cmdSource (d : Dev) (u line : Nat) : cmdSource u (dropTiles d line) = cmdSource u d := by
  unfold dropTiles; split <;> rfl
@[simp] theorem ageProg_cmdSource (d : Dev) (u line : Nat) : cmdSource u (ageProg d line) = cmdSource u d := by
  unfold ageProg; split <;> rfl
@[simp] theorem pruneRp_cmdSource (d : Dev) (u : Nat) : cmdSource u (pruneRp d) = cmdSource u d := by
  unfold pruneRp; split <;> rfl
@[simp] theorem recompress_cmdSource (d : Dev) (u line : Nat) (cmp : Bool) : cmdSource u (recompress d line cmp) = cmdSource u d := by
  unfold recompress; split <;> rfl

@[simp] theorem noteRp_cmdSource (d : Dev) (u line : Nat) (x : Line) : cmdSource u (noteRp d line x) = cmdSource u d := by
  refine foldl_keeps (cmdSource u) (fun d i => ?_) _ d
  dsimp only
  split
  · rfl
  · split
    · exact pruneRp_cmdSource _ u
    · exact pruneRp_cmdSource _ u

@[simp] theorem putLine_cmdSource (d : Dev) (u line : Nat) (x : Line) (cmp : Bool) :
    cmdSource u (putLine d line x cmp) = cmdSource u d := noteRp_cmdSource d u line x

@[simp] theorem takeWords_cmdSource (d : Dev) (u line : Nat) (base : Line) (bm : BitVec 128) (x : Line) (cmp : Bool) :
    cmdSource u (takeWords d line base bm x cmp) = cmdSource u d := by simp [takeWords]

/-- Bytes merged at a slice, with a record where they cannot be. -/
theorem mergeLine_cmdSource {bm : BitVec 128} {x : Line} {cmp : Bool} (h : mergeLine m ctx d line bm x cmp = .ok e) :
    cmdSource u e = cmdSource u d := by
  unfold mergeLine at h
  dsimp only at h
  split at h
  · cases h; rfl
  split at h
  · cases h
  split at h
  · split at h
    · cases h
    split at h
    · cases h; exact poisonRecord_cmdSource ..
    · cases h; exact takeWords_cmdSource ..
  split at h
  · cases h; exact poisonRecord_cmdSource ..
  split at h
  · split at h
    · cases h; exact poisonRecord_cmdSource ..
    · cases h
    · cases h; exact wakeLine_cmdSource ..
  · cases h; rfl

/-! ## Copies in the L1 arrays -/

@[simp] theorem modL1_cmdSource (d : Dev) (u sp line : Nat) (f : L1Line → L1Line) :
    cmdSource u (modL1 d sp line f) = cmdSource u d := rfl
@[simp] theorem dirAdd_cmdSource (d : Dev) (u sp line : Nat) : cmdSource u (dirAdd d sp line) = cmdSource u d := by
  unfold dirAdd; dsimp only; split <;> rfl
@[simp] theorem dirDel_cmdSource (d : Dev) (u sp line : Nat) : cmdSource u (dirDel d sp line) = cmdSource u d := rfl

theorem invalidateCopy_cmdSource (h : invalidateCopy m ctx d sp line = .ok e) : cmdSource u e = cmdSource u d := by
  unfold invalidateCopy at h
  split at h
  · cases h; rfl
  split at h
  · cases h
  next d1 h1 =>
  have hmerged : cmdSource u d1 = cmdSource u d := (mergeLine_cmdSource h1).trans (modL1_cmdSource ..)
  cases h
  refine Eq.trans ?_ hmerged
  rw [dirDel_cmdSource, modL1_cmdSource]
  split
  · exact recompress_cmdSource ..
  · rfl

theorem invalidateOthers_cmdSource {keep : Option Nat} (h : invalidateOthers m ctx d keep line = .ok e) :
    cmdSource u e = cmdSource u d := foldlM_keeps (cmdSource u) (fun _ _ _ => invalidateCopy_cmdSource) h

theorem recallOwner_cmdSource {keep : Option Nat} (h : recallOwner m ctx d keep line = .ok e) :
    cmdSource u e = cmdSource u d := by
  refine foldlM_keeps (cmdSource u) (fun d l e h => ?_) h
  dsimp only at h
  split at h
  · cases h; exact recompress_cmdSource ..
  · exact (mergeLine_cmdSource h).trans (modL1_cmdSource ..)

theorem writeSlice_cmdSource {keep : Option Nat} {bm : BitVec 128} {x : Line} {cmp : Bool}
    (h : writeSlice m ctx d keep line bm x cmp = .ok e) : cmdSource u e = cmdSource u d := by
  unfold writeSlice at h
  split at h
  · cases h
  next d1 h1 =>
  split at h
  · cases h
  next d2 h2 =>
  exact (invalidateOthers_cmdSource h).trans ((mergeLine_cmdSource h2).trans (recallOwner_cmdSource h1))

theorem readSlice_cmdSource {keep : Option Nat} {rp : Bool} {hs : List Nat} {r : HostReq} {k : Nat} {x : Line}
    (h : readSlice m ctx d keep line rp hs r k = .ok (x, e)) : cmdSource u e = cmdSource u d := by
  unfold readSlice at h
  split at h
  · cases h
  next d1 h1 =>
  obtain ⟨y, -, hy⟩ := map_ok h
  cases hy
  refine Eq.trans ?_ (recallOwner_cmdSource h1)
  split <;> rfl

theorem writeBackLine_cmdSource (h : writeBackLine m d ctx sp line = .ok e) : cmdSource u e = cmdSource u d := by
  unfold writeBackLine at h
  split at h
  · cases h; rfl
  split at h
  · cases h; rfl
  obtain ⟨d1, h1, rfl⟩ := map_ok h
  refine (modL1_cmdSource ..).trans ((writeSlice_cmdSource h1).trans ?_)
  split
  · rfl
  · exact modL1_cmdSource ..

@[simp] theorem dropLine_cmdSource (d : Dev) (u sp line : Nat) : cmdSource u (dropLine d sp line) = cmdSource u d := by
  unfold dropLine
  dsimp only
  split
  · split
    · exact recompress_cmdSource ..
    · rfl
  · rfl

@[simp] theorem giveUpE_cmdSource (d : Dev) (u sp line : Nat) : cmdSource u (giveUpE d sp line) = cmdSource u d := by
  unfold giveUpE
  split
  · split
    · exact recompress_cmdSource ..
    · rfl
  · rfl

@[simp] theorem tlbFill_cmdSource (m : Mgmt) (d : Dev) (u ctx sp va : Nat) (l : Leaf) :
    cmdSource u (tlbFill m d ctx sp va l) = cmdSource u d := rfl
@[simp] theorem refetch_cmdSource (d : Dev) (u sp line : Nat) : cmdSource u (refetch d sp line) = cmdSource u d := rfl

/-! ## Lines brought into an L1 -/

theorem evictLines_cmdSource {set : Nat} :
    ∀ {n : Nat} {d : Dev}, evictLines m ctx sp set n d = .ok e → cmdSource u e = cmdSource u d := by
  intro n
  induction n with
  | zero => intro d h; cases h; rfl
  | succ n ih =>
    intro d h
    unfold evictLines at h
    dsimp only at h
    split at h
    · cases h; rfl
    obtain ⟨d1, h1, h2⟩ := bind_ok h
    exact (ih h2).trans ((dropLine_cmdSource ..).trans (writeBackLine_cmdSource h1))

theorem makeRoom_cmdSource {set : Nat} (h : makeRoom m d ctx sp set = .ok e) : cmdSource u e = cmdSource u d :=
  evictLines_cmdSource h

@[simp] theorem retag_cmdSource (m : Mgmt) (d : Dev) (u ctx sp va : Nat) (leaf : Leaf) (line : Nat) :
    cmdSource u (retag m d ctx sp va leaf line) = cmdSource u d := by
  have hbase : cmdSource u (if isHome sp line leaf then d else giveUpE d sp line) = cmdSource u d := by
    split
    · rfl
    · exact giveUpE_cmdSource ..
  unfold retag
  rw [tlbFill_cmdSource]
  split
  · exact (dirDel_cmdSource ..).trans hbase
  split
  · exact (dirAdd_cmdSource ..).trans hbase
  · exact hbase

@[simp] theorem freshLine_cmdSource (m : Mgmt) (d : Dev) (u ctx sp va : Nat) (leaf : Leaf) (line : Nat) :
    cmdSource u (freshLine m d ctx sp va leaf line) = cmdSource u d := by
  unfold freshLine
  dsimp only
  split
  · exact dirAdd_cmdSource ..
  · rfl

theorem allocLine_cmdSource {va pa : Nat} {leaf : Leaf} (h : allocLine m d ctx sp va leaf pa = .ok e) :
    cmdSource u e = cmdSource u d := by
  unfold allocLine at h
  dsimp only at h
  split at h
  · cases h
  next d1 h1 =>
  have hclear : cmdSource u d1 = cmdSource u d := by
    split at h1
    · split at h1
      · cases h1; rfl
      · obtain ⟨d2, h2, rfl⟩ := map_ok h1
        exact (dropLine_cmdSource ..).trans ((dirDel_cmdSource ..).trans (writeBackLine_cmdSource h2))
    · cases h1; rfl
  refine Eq.trans ?_ hclear
  split at h
  · split at h
    · cases h; rfl
    obtain ⟨d2, h2, rfl⟩ := map_ok h
    refine (retag_cmdSource ..).trans ?_
    split at h2
    · cases h2; rfl
    · exact makeRoom_cmdSource h2
  · obtain ⟨d2, h2, rfl⟩ := map_ok h
    exact (freshLine_cmdSource ..).trans (makeRoom_cmdSource h2)

theorem fillLine_cmdSource {va pa k : Nat} {leaf : Leaf} (h : fillLine m d ctx sp va leaf pa k = .ok e) :
    cmdSource u e = cmdSource u d := by
  unfold fillLine at h
  dsimp only at h
  split at h
  · cases h
  next d1 h1 =>
  refine Eq.trans ?_ (allocLine_cmdSource h1)
  split at h
  · cases h; rfl
  obtain ⟨⟨x, d2⟩, h2, rfl⟩ := map_ok h
  exact (modL1_cmdSource ..).trans (readSlice_cmdSource h2)

theorem grantE_cmdSource {va pa k : Nat} {leaf : Leaf} (h : grantE m d ctx sp va leaf pa k = .ok e) :
    cmdSource u e = cmdSource u d := by
  unfold grantE at h
  dsimp only at h
  split at h
  · cases h
  next d1 h1 =>
  split at h
  · cases h
  next d2 h2 =>
  split at h
  · cases h
  next d3 h3 =>
  split at h
  · cases h
  obtain ⟨d4, h4, rfl⟩ := map_ok h
  have hhost : cmdSource u d3 = cmdSource u d2 := by
    split at h3
    all_goals obtain ⟨-, -, rfl⟩ := map_ok h3; rfl
  have hfill : cmdSource u d4 = cmdSource u d3 := (fillLine_cmdSource h4).trans (refetch_cmdSource ..)
  have hothers : cmdSource u d2 = cmdSource u d := (invalidateOthers_cmdSource h2).trans (recallOwner_cmdSource h1)
  refine (markWritten_cmdSource ..).trans (Eq.trans ?_ (hfill.trans (hhost.trans hothers)))
  show cmdSource u (dirAdd (modL1 d4 sp (pa / 128) fun l => { l with st := .e }) sp (pa / 128)) = cmdSource u d4
  exact dirAdd_cmdSource ..

/-! ## Loads -/

/-- A skein's locks are no part of what its commands are made from. -/
theorem modSkein_locks_cmdSource (d : Dev) (u v : Nat) (f : Skein → List HeldLock) :
    cmdSource u (modSkein d v fun k => { k with locks := f k }) = cmdSource u d := by
  have hskein := skein_modSkein d v u (fun k => { k with locks := f k }) fun _ => rfl
  rw [cmdSource, cmdSource, skeinOf, skeinOf, hskein]
  cases skein? d u with
  | none => rfl
  | some k =>
    rw [Option.map_some]
    split <;> rfl

theorem claimWay_cmdSource {p : DWord} {leaf : Leaf} {pa k : Nat} {away : Bool}
    (h : claimWay m d ctx sp p leaf pa k = .ok (e, away)) : cmdSource u e = cmdSource u d := by
  unfold claimWay at h
  dsimp only at h
  split at h
  · cases h; rfl
  split at h
  · cases h; rfl
  split at h
  · cases h; rfl
  obtain ⟨d1, h1, he⟩ := map_ok h
  cases he
  rw [modSkein_locks_cmdSource, modL1_cmdSource]
  split at h1
  · exact grantE_cmdSource h1
  · exact fillLine_cmdSource h1

/-- A load made at the caching slice, the dirty words of the spindle's own copy over it. -/
def loadAtLevel (m : Mgmt) (d : Dev) (ctx sp : Nat) (leaf : Leaf) (pa n k : Nat) (r : HostReq) (rp : Bool) :
    MemM (Nat × Dev × Nat) :=
  match readSlice m ctx d (some sp) (pa / 128) rp (halvesOf (pa / 128) (byteMask (pa % 128) n)) r k with
  | .error e => .error e
  | .ok (x, d1) =>
    let y := match l1Phys d1 sp (pa / 128) with
      | some l => overlay x l.data (wordBytes l.dirty)
      | none => x
    .ok (takeBytes y (pa % 128) n, d1, missLat d sp pa k leaf.rp)

/-- A load that fills its line first. -/
def loadFilling (m : Mgmt) (d : Dev) (ctx sp : Nat) (p : DWord) (leaf : Leaf) (pa n k : Nat) : MemM (Nat × Dev × Nat) :=
  (fillLine m d ctx sp (bitsOf p 7 41) leaf pa k).map fun d1 =>
    (takeBytes (((l1Phys d1 sp (pa / 128)).map fun l => l.data).getD 0) (pa % 128) n, d1, missLat d sp pa k leaf.rp)

theorem loadAt_eq (m : Mgmt) (d : Dev) (ctx sp : Nat) (p : DWord) (leaf : Leaf) (pa n pol k : Nat) :
    loadAt m d ctx sp p leaf pa n pol k =
      if isPeer pa then loadAtLevel m d ctx sp leaf pa n k .rdCurr false
      else if policyAt pol leaf false = 4 then loadAtLevel m d ctx sp leaf pa n k .rdCurr false
      else if policyAt pol leaf false = 3 then loadAtLevel m d ctx sp leaf pa n k .rdShared false
      else if policyAt pol leaf false = 2 then loadAtLevel m d ctx sp leaf pa n k .rdShared leaf.rp
      else
        match l1Hit d sp (ctxAsid m ctx) (bitsOf p 7 41 % 2 ^ 41) with
        | some l =>
          if !l.stale && holds l (byteMask (pa % 128) n) then
            if cleanLost d l (byteMask (pa % 128) n) then .error .dataerr
            else .ok (takeBytes l.data (pa % 128) n, d, latL1)
          else loadFilling m d ctx sp p leaf pa n k
        | none =>
          if policyAt pol leaf false = 5 && (l1Phys d sp (pa / 128)).isNone then loadAtLevel m d ctx sp leaf pa n k .rdShared leaf.rp
          else loadFilling m d ctx sp p leaf pa n k := rfl

section
variable {p : DWord} {leaf : Leaf} {pa n pol k x lat : Nat}

theorem loadAtLevel_cmdSource {r : HostReq} {rp : Bool} (h : loadAtLevel m d ctx sp leaf pa n k r rp = .ok (x, e, lat)) :
    cmdSource u e = cmdSource u d := by
  unfold loadAtLevel at h
  split at h
  · cases h
  next h1 =>
  cases h
  exact readSlice_cmdSource h1

theorem loadFilling_cmdSource (h : loadFilling m d ctx sp p leaf pa n k = .ok (x, e, lat)) :
    cmdSource u e = cmdSource u d := by
  obtain ⟨d1, h1, he⟩ := map_ok h
  cases he
  exact fillLine_cmdSource h1

theorem loadAt_cmdSource (h : loadAt m d ctx sp p leaf pa n pol k = .ok (x, e, lat)) : cmdSource u e = cmdSource u d := by
  rw [loadAt_eq] at h
  split at h
  · exact loadAtLevel_cmdSource h
  split at h
  · exact loadAtLevel_cmdSource h
  split at h
  · exact loadAtLevel_cmdSource h
  split at h
  · exact loadAtLevel_cmdSource h
  split at h
  · split at h
    · split at h
      · cases h
      · cases h; rfl
    · exact loadFilling_cmdSource h
  · split at h
    · exact loadAtLevel_cmdSource h
    · exact loadFilling_cmdSource h

theorem loadVia_cmdSource (h : loadVia m d ctx sp p leaf pa n pol k = .ok (x, e, lat)) : cmdSource u e = cmdSource u d := by
  unfold loadVia at h
  split at h
  · cases h
  next d1 away h1 =>
  exact (loadAt_cmdSource h).trans (claimWay_cmdSource h1)

end

@[simp] theorem useCurr_cmdSource (d : Dev) (u : Nat) (lines : List Nat) : cmdSource u (useCurr d lines) = cmdSource u d := by
  unfold useCurr; dsimp only; split <;> rfl

end

end Sys2Proof.Machine
end

section
/-!
PROOFS. The eight command instructions (R280 to R282): the block read, the wait for a busy tag, and the command handed to its engine.
-/

namespace Sys2Proof.Machine

/-! ## A command and what it is made from -/

/-- The command that the issuing skein hands over with a block. -/
def issuedCmd (m : Mgmt) (d : Dev) (op tag : Nat) (addr : DWord) (blk : BitVec 512) : Cmd :=
  { op := op, block := blk, blockAddr := addr, tag := tag, skein := d.cur.skein, gid := (curGroup d).gid, ctx := curCtx d,
    pc := d.cur.pc, tds := (cmdTds (curGroup d) op blk).map (readT d (curSkein d)), nlt := (ctxOf m (curCtx d)).nlt }

/-- The release at cluster scope that a command may ask for. -/
def cmdRelease (m : Mgmt) (d d0 : Dev) (rel : Bool) : MemM Dev :=
  if rel then releaseAt m d0 (curCtx d) (curSpindle d) 3 else .ok d0

theorem cmdRelease_off (m : Mgmt) (d d0 : Dev) : cmdRelease m d d0 false = .ok d0 := rfl
theorem cmdRelease_on (m : Mgmt) (d d0 : Dev) : cmdRelease m d d0 true = releaseAt m d0 (curCtx d) (curSpindle d) 3 := rfl

theorem readT_congr {d e : Dev} {j k : Skein} (hf : e.free = d.free) (hp : j.pend = k.pend) (ht : j.td = k.td) (i : Nat) :
    readT e j i = readT d k i := by
  unfold readT pendLast regT freeBit freeVal
  rw [hf, hp, ht]

section
variable {m : Mgmt} {d d0 d1 : Dev} {op tag : Nat} {rel : Bool} {addr : DWord} {blk : BitVec 512}
  (hsrc : cmdSource d.cur.skein d0 = cmdSource d.cur.skein d)
include hsrc

/-- A device that differs in nothing a command is made from gives the same command. -/
theorem sendCmd_of_cmdSource (hr : cmdRelease m d d0 rel = .ok d1) :
    sendCmd m d0 d.cur.skein d.cur.pc op tag rel addr blk = .ok (submit d1 (issuedCmd m d op tag addr blk)) := by
  simp only [cmdSource, Prod.mk.injEq] at hsrc
  obtain ⟨hgroups, hfree, hgid, hpend, htd⟩ := hsrc
  have hgroup : groupOf d0 (skeinOf d0 d.cur.skein).gid = curGroup d := by
    rw [hgid, groupOf, group?, hgroups]
    rfl
  have hread : readT d0 (skeinOf d0 d.cur.skein) = readT d (curSkein d) := funext (readT_congr hfree hpend htd)
  have hr : (if rel then releaseAt m d0 (curGroup d).ctx (spindleNo (curGroup d)) 3 else .ok d0 : MemM Dev) = .ok d1 := hr
  simp only [sendCmd, hgroup, hread, hr]
  rfl

end

theorem handOver_of_busy {m : Mgmt} {d : Dev} {tag : Nat} (d0 : Dev) (op : Nat) (rel : Bool) (addr : DWord) (blk : BitVec 512)
    (hb : (curGroup d).busy.getLsbD tag = true) :
    handOver m d d0 op tag rel addr blk = .park d0 (.tag tag op rel addr blk) := if_pos hb

theorem handOver_of_sent {m : Mgmt} {d d0 d1 : Dev} {op tag : Nat} {rel : Bool} {addr : DWord} {blk : BitVec 512}
    (hb : (curGroup d).busy.getLsbD tag = false) (hh : cmdHazard m d d.cur.skein op blk = false)
    (hs : sendCmd m d0 d.cur.skein d.cur.pc op tag rel addr blk = .ok d1) : handOver m d d0 op tag rel addr blk = .done d1 := by
  simp only [handOver, hb, hh, hs, Bool.false_eq_true, if_false]

theorem cmdHazard_eq_false {m : Mgmt} {d : Dev} {op : Nat} {blk : BitVec 512}
    (h : isDet m (curCtx d) = true → (cmdTds (curGroup d) op blk).any (pendT (curSkein d)) = false) :
    cmdHazard m d d.cur.skein op blk = false :=
  Bool.and_eq_false_imp.2 h

/-- An issue changes nothing that the commands of its skein are made from. -/
theorem moved_cmdSource {s : State} (hi : Issuing s) (w : Bool) (len : Nat) (brk : Bool) :
    cmdSource s.dev.cur.skein (moved s w len brk) = cmdSource s.dev.cur.skein s.dev := by
  obtain ⟨ks, qs, st, he, -, -, hk⟩ := advance_spec s.mgmt s.dev
    { w := w, len := len, p := 7, n := false, rds := [], ends := endsIf brk, fp64 := false }
  have hskein : curSkein (moved s w len brk) = advanced s.dev _ (curSkein s.dev) := hk hi
  rw [curSkein, moved_cur] at hskein
  have hdev : moved s w len brk = { s.dev with skeins := ks, quarters := qs, stalled := st } := he
  rw [cmdSource, hskein, advanced_frame, hdev]
  rfl

theorem cmdBase_cmdSource {s : State} (hi : Issuing s) (w : Bool) (len tag : Nat) (brk : Bool) :
    cmdSource s.dev.cur.skein (cmdBase s.dev (moved s w len brk) tag) = cmdSource s.dev.cur.skein s.dev := by
  unfold cmdBase
  split
  · rfl
  · exact moved_cmdSource hi w len brk

/-! ## The instructions -/

/-- What a command instruction comes to: its block is read from the scratchpad or from memory. -/
def commandBody (op : Nat) (o : Ue) (m : Mgmt) (d da : Dev) : Res :=
  if o.sub.getLsbD 1 then
    if (uniReader d o.sp.toNat).toNat % 64 != 0 then
      .fault (uniFault d .align (BitVec.ofNat 64 (uniReader d o.sp.toNat).toNat))
    else if hScratchBytes (curGroup d).header < (uniReader d o.sp.toNat).toNat + 64 then
      .fault (uniFault d .bounds (BitVec.ofNat 64 (uniReader d o.sp.toNat).toNat))
    else handOver m d (cmdBase d da o.tag.toNat) op o.tag.toNat (o.sub.getLsbD 0) (BitVec.ofNat 64 (uniReader d o.sp.toNat).toNat)
      (BitVec.ofNat 512 (scratchRead (curGroup d) (uniReader d o.sp.toNat).toNat 64))
  else commandAt m d da op o.tag.toNat (o.sub.getLsbD 0) (readS64 d (curSkein d) o.sp.toNat)

def hdCommand (o : Ue) : Hd := hdUe o 4 [.s o.sp (if o.sub.getLsbD 1 then 1 else 2)]

/-- The command instructions with their operation codes. -/
def commandOps (o : Ue) : List (Instr × Nat) :=
  [(.cpy o, 0x50), (.cpyg o, 0x51), (.cpyd o, 0x52), (.mxa o, 0x53), (.mxc o, 0x54), (.mxz o, 0x55), (.mxld o, 0x56), (.mxst o, 0x57)]

theorem exec_command {i : Instr} {op : Nat} {o : Ue} (h : (i, op) ∈ commandOps o) (s : State) :
    exec i s = s.run fun m d => uniIssue m d (hdCommand o) (commandBody op o m d) := by
  simp only [commandOps, List.mem_cons, Prod.mk.injEq, List.not_mem_nil, or_false] at h
  rcases h with ⟨rfl, rfl⟩ | ⟨rfl, rfl⟩ | ⟨rfl, rfl⟩ | ⟨rfl, rfl⟩ | ⟨rfl, rfl⟩ | ⟨rfl, rfl⟩ | ⟨rfl, rfl⟩ | ⟨rfl, rfl⟩ <;> rfl

section
variable {i : Instr} {op : Nat} {o : Ue} {s : State} (h : (i, op) ∈ commandOps o)
  (hc : UniClear s 7 false [.s o.sp (if o.sub.getLsbD 1 then 1 else 2)])
include h hc

theorem command_done {d1 : Dev} (hb : commandBody op o s.mgmt s.dev (moved s o.w 4 true) = .done d1) : Goes i s d1 :=
  goes_uniformDone (h := hdCommand o) (exec_command h s) rfl hc (condUnder_seven s) hb

theorem command_fault {f : FaultInfo} (hb : commandBody op o s.mgmt s.dev (moved s o.w 4 true) = .fault f) :
    Goes i s (trapped s o.w 4 true f) :=
  goes_uniformFault (h := hdCommand o) (exec_command h s) rfl hc (condUnder_seven s) true hb

theorem command_park {d1 : Dev} {p : Park} (hb : commandBody op o s.mgmt s.dev (moved s o.w 4 true) = .park d1 p) :
    Goes i s (parked s o.w 4 true d1 p) :=
  goes_uniformPark (h := hdCommand o) (exec_command h s) rfl hc (condUnder_seven s) hb

end

/-! ## Where the block lies -/

section
variable {op : Nat} {o : Ue} {m : Mgmt} {d da : Dev}

section
variable (hs : o.sub.getLsbD 1 = true)
include hs

theorem commandBody_of_misaligned (ha : (uniReader d o.sp.toNat).toNat % 64 ≠ 0) :
    commandBody op o m d da = .fault (faultAt .align (BitVec.ofNat 64 (uniReader d o.sp.toNat).toNat) d.cur.lanes) :=
  (if_pos hs).trans (if_pos (bne_iff_ne.2 ha))

variable (ha : (uniReader d o.sp.toNat).toNat % 64 = 0)
include ha

theorem commandBody_of_outside (hb : 1024 * hScratch (curGroup d).header < (uniReader d o.sp.toNat).toNat + 64) :
    commandBody op o m d da = .fault (faultAt .bounds (BitVec.ofNat 64 (uniReader d o.sp.toNat).toNat) d.cur.lanes) := by
  rw [Nat.mul_comm] at hb
  exact (if_pos hs).trans ((if_neg (mt bne_iff_ne.1 (not_not.2 ha))).trans (if_pos hb))

theorem commandBody_of_scratch (hb : (uniReader d o.sp.toNat).toNat + 64 ≤ 1024 * hScratch (curGroup d).header) :
    commandBody op o m d da = handOver m d (cmdBase d da o.tag.toNat) op o.tag.toNat (o.sub.getLsbD 0)
      (BitVec.ofNat 64 (uniReader d o.sp.toNat).toNat)
      (BitVec.ofNat 512 (memNat (curGroup d).scratch (uniReader d o.sp.toNat).toNat 64)) := by
  rw [Nat.mul_comm] at hb
  exact (if_pos hs).trans ((if_neg (mt bne_iff_ne.1 (not_not.2 ha))).trans (if_neg (Nat.not_lt.2 hb)))

end

theorem commandBody_of_memory (hs : o.sub.getLsbD 1 = false) : commandBody op o m d da =
    commandAt m d da op o.tag.toNat (o.sub.getLsbD 0) (readS64 d (curSkein d) o.sp.toNat) := if_neg (Bool.eq_false_iff.1 hs)

end

/-- Once its block has been read on `d0` a command whose tag is free, and whose descriptors are written where that is asked, goes to its
engine after its release. -/
theorem command_sent {i : Instr} {op : Nat} {o : Ue} {s : State} {d0 d1 : Dev} {addr : DWord} {blk : BitVec 512}
    (h : (i, op) ∈ commandOps o) (hc : UniClear s 7 false [.s o.sp (if o.sub.getLsbD 1 then 1 else 2)])
    (hb : ∀ d3, cmdHazard s.mgmt s.dev s.dev.cur.skein op blk = false →
      sendCmd s.mgmt d0 s.dev.cur.skein s.dev.cur.pc op o.tag.toNat (o.sub.getLsbD 0) addr blk = .ok d3 →
      commandBody op o s.mgmt s.dev (moved s o.w 4 true) = .done d3)
    (hsrc : cmdSource s.dev.cur.skein d0 = cmdSource s.dev.cur.skein s.dev)
    (hready : isDet s.mgmt (curCtx s.dev) = true → (cmdTds (curGroup s.dev) op blk).any (pendT (curSkein s.dev)) = false)
    (hr : cmdRelease s.mgmt s.dev d0 (o.sub.getLsbD 0) = .ok d1) :
    Goes i s (submit d1 (issuedCmd s.mgmt s.dev op o.tag.toNat addr blk)) :=
  command_done h hc (hb _ (cmdHazard_eq_false hready) (sendCmd_of_cmdSource hsrc hr))

end Sys2Proof.Machine

/-! ## The statement -/

namespace Sys2Proof.Claims
open Machine

/-- Settles O39: each clause is the lemma of where the block lies and of what becomes of it. -/
theorem engineCommands : Obligations.EngineCommands := by
  intro o s hi m d k g ctx tag base ops i op hop descs cmd ready sent
  have hcmd (addr : DWord) (blk : BitVec 512) : issuedCmd m d op tag addr blk = cmd addr blk := by
    have huid : k.uid = d.cur.skein := curSkein_uid hi
    simp only [cmd, huid]
    rfl
  -- A block that has been read on `d0` is kept by the parked skein or sent.
  have outcomes {d0 : Dev} {addr : DWord} {blk : BitVec 512} (hc : UniClear s 7 false [.s o.sp (if o.sub.getLsbD 1 then 1 else 2)])
      (hsrc : cmdSource d.cur.skein d0 = cmdSource d.cur.skein d)
      (hpark : g.busy.getLsbD tag = true →
        commandBody op o m d (moved s o.w 4 true) = .park d0 (.tag tag op (o.sub.getLsbD 0) addr blk))
      (hsend : ∀ d3, g.busy.getLsbD tag = false → cmdHazard m d d.cur.skein op blk = false →
        sendCmd m d0 d.cur.skein d.cur.pc op tag (o.sub.getLsbD 0) addr blk = .ok d3 →
        commandBody op o m d (moved s o.w 4 true) = .done d3) : sent d0 addr blk := by
    refine ⟨fun hb => command_park hop hc (hpark hb), fun hb hready hrel => ?_, fun d1 hb hready hrel hr => ?_⟩
    · rw [← hcmd]
      exact command_sent hop hc (hsend · hb) hsrc hready (by rw [hrel, cmdRelease_off])
    · rw [← hcmd]
      exact command_sent hop hc (hsend · hb) hsrc hready (by rw [hrel, cmdRelease_on]; exact hr)
  have hbase : cmdSource d.cur.skein base = cmdSource d.cur.skein d := cmdBase_cmdSource hi o.w 4 tag true
  constructor
  · intro hs hc a
    have hc : UniClear s 7 false [.s o.sp (if o.sub.getLsbD 1 then 1 else 2)] := by rw [hs]; exact hc
    exact ⟨fun ha => command_fault hop hc (commandBody_of_misaligned hs ha),
      fun ha hb => command_fault hop hc (commandBody_of_outside hs ha hb),
      fun ha hb => outcomes hc hbase (fun h => (commandBody_of_scratch hs ha hb).trans (handOver_of_busy _ _ _ _ _ h))
        fun d3 h hh hd => (commandBody_of_scratch hs ha hb).trans (handOver_of_sent h hh hd)⟩
  · intro hs hc p ac l pa x lat d1 hk ho hl
    have hc : UniClear s 7 false [.s o.sp (if o.sub.getLsbD 1 then 1 else 2)] := by rw [hs]; exact hc
    have hload : cmdSource d.cur.skein (useCurr d1 (usedBy 0 l pa)) = cmdSource d.cur.skein d :=
      (useCurr_cmdSource ..).trans ((loadVia_cmdSource hl).trans hbase)
    exact outcomes hc hload (fun h => (commandBody_of_memory hs).trans (commandAt_of_busy hk ho hl h))
      fun d3 h hh hd => (commandBody_of_memory hs).trans (commandAt_of_sent hk ho hl h hh hd)

end Sys2Proof.Claims
end

section
/-!
PROOFS. TWAIT, TFIRST, TSTAT and TDESC (R287 to R290, R295): one lemma per instruction and outcome.
-/

namespace Sys2Proof.Machine
open Claims

theorem exec_twait (o : Ue) (s : State) : exec (.twait o) s = execTwait o s := rfl
theorem exec_tdesc (o : Ue) (s : State) : exec (.tdesc o) s = execTdesc o s := rfl
theorem exec_tfirst (o : Lr) (s : State) : exec (.tfirst o) s = execTfirst o s := rfl
theorem exec_tstat (o : Lk) (s : State) : exec (.tstat o) s = execTstat o s := rfl

/-! ## TWAIT -/

/-- The tags of the group's range that TWAIT names, and whether they are as it asks. -/
def waitedTags (d : Dev) (o : Ue) : DWord := readS64 d (curSkein d) o.sp.toNat &&& tagRange (curGroup d)
def waitMet (d : Dev) (o : Ue) : Bool :=
  let ready := (curGroup d).tags &&& ~~~(curGroup d).busy
  if o.sub.getLsbD 0 then waitedTags d o &&& ready != 0 else waitedTags d o &&& ~~~ready == 0

/-- With some tag named the wait is satisfied as its tags are. -/
theorem tagsReady_of_named {d : Dev} {o : Ue} (h : waitedTags d o ≠ 0) :
    tagsReady (curGroup d) (readS64 d (curSkein d) o.sp.toNat) (o.sub.getLsbD 0) = waitMet d o := by
  have h : (readS64 d (curSkein d) o.sp.toNat &&& tagRange (curGroup d) == 0) = false := beq_eq_false_iff_ne.2 h
  rw [tagsReady, h, Bool.false_or]
  rfl

def hdTwait (o : Ue) : Hd := { hdUe o 4 [.s o.sp 2] with ends := 0 }

section
variable {o : Ue} {s : State} (hc : UniClear s 7 false [.s o.sp 2])
include hc

theorem twait_of_none (hw : waitedTags s.dev o = 0) : Goes (.twait o) s (moved s o.w 4 false) :=
  goes_uniformDone (h := hdTwait o) (exec_twait o s) rfl hc (condUnder_seven s) (if_pos (beq_iff_eq.2 hw))

variable (hw : waitedTags s.dev o ≠ 0)
include hw

theorem twait_of_met {d1 : Dev} (hm : waitMet s.dev o = true)
    (ha : acquireAt s.mgmt (moved s o.w 4 false) (curCtx s.dev) (curSpindle s.dev) 3 = .ok d1) : Goes (.twait o) s d1 := by
  refine goes_uniformDone (h := hdTwait o) (exec_twait o s) rfl hc (condUnder_seven s) ?_
  exact (if_neg (mt beq_iff_eq.1 hw)).trans ((if_pos ((tagsReady_of_named hw).trans hm)).trans (congrArg (opRes s.dev) ha))

theorem twait_of_unmet (hm : waitMet s.dev o = false) : Goes (.twait o) s
    (parked s o.w 4 false s.dev (.twait (readS64 s.dev (curSkein s.dev) o.sp.toNat) (o.sub.getLsbD 0))) := by
  refine goes_uniformPark (h := hdTwait o) (exec_twait o s) rfl hc (condUnder_seven s) ?_
  exact (if_neg (mt beq_iff_eq.1 hw)).trans (if_neg (Bool.eq_false_iff.1 ((tagsReady_of_named hw).trans hm)))

end

/-! ## TDESC -/

theorem tdesc_goes {o : Ue} {s : State} (hc : UniClear s 7 false [.s o.sp 4]) : Goes (.tdesc o) s
    (addPend (moved s o.w 4 true) s.dev.cur.skein 2
      [.t (o.tag.toNat % 16) (BitVec.ofNat 128 (joinRegs (uniReader s.dev) o.sp.toNat 4))]) :=
  goes_uniformDone (h := hdUe o 4 [.s o.sp 4]) (exec_tdesc o s) rfl hc (condUnder_seven s) rfl

/-! ## TFIRST -/

def hdTfirst (o : Lr) : Hd := hdXm o.w (lenOf o.xm) (lrXm o 14) [.s o.a 2]

/-- TFIRST under a guard that holds. -/
def tfirstBody (o : Lr) (m : Mgmt) (d da : Dev) : Res :=
  if isDet m (curCtx d) then .fault (detRead d.cur.lanes false o.d.toNat 1)
  else .done (addPend da d.cur.skein latUni
    (res1 wrS o.d (lowestBit (readS64 d (curSkein d) o.a.toNat &&& tagRange (curGroup d) &&& (curGroup d).tags))))

theorem exec_tfirst_body (o : Lr) (s : State) :
    exec (.tfirst o) s = s.run fun m d => uniIssue m d (hdTfirst o) (tfirstBody o m d) := rfl

section
variable {o : Lr} {s : State}

theorem tfirst_skip (hg : condUnder s (lrXm o 14).p (lrXm o 14).n = false) (hc : UniClear s (lrXm o 14).p (lrXm o 14).n []) :
    Goes (.tfirst o) s (moved s o.w (lenOf o.xm) false) :=
  (exec_tfirst_body o s).trans (run_uni_skip (h := hdTfirst o) (body := tfirstBody o) (uniClear_of_off _ hg hc) hg rfl)

variable (hc : UniClear s (lrXm o 14).p (lrXm o 14).n [.s o.a 2]) (hg : condUnder s (lrXm o 14).p (lrXm o 14).n = true)
include hc hg

theorem tfirst_of_det (hdet : isDet s.mgmt (curCtx s.dev) = true) : Goes (.tfirst o) s
    (trapped s o.w (lenOf o.xm) false (detRead s.dev.cur.lanes false o.d.toNat 1)) :=
  goes_uniformFault (h := hdTfirst o) (exec_tfirst_body o s) rfl hc hg false (if_pos hdet)

theorem tfirst_of_free (hdet : isDet s.mgmt (curCtx s.dev) = false) : Goes (.tfirst o) s
    (addPend (moved s o.w (lenOf o.xm) false) s.dev.cur.skein 2 [.s o.d.toNat (BitVec.ofNat 32
      (lowestBit (readS64 s.dev (curSkein s.dev) o.a.toNat &&& tagRange (curGroup s.dev) &&& (curGroup s.dev).tags)))]) :=
  goes_uniformDone (h := hdTfirst o) (exec_tfirst_body o s) rfl hc hg (if_neg (Bool.eq_false_iff.1 hdet))

end

/-! ## TSTAT -/

/-- TSTAT of the immediate `n`: the mask of completed tags, or a tag's status entry. -/
def tstatBody (o : Lk) (n : Nat) (m : Mgmt) (d da : Dev) : Res :=
  let g := curGroup d
  if n / 128 % 2 = 1 then
    if isDet m (curCtx d) then .fault (detRead d.cur.lanes false o.d.toNat 2)
    else .done (addPend da d.cur.skein latUni (splitRegs wrS o.d.toNat (g.tags &&& tagRange g).toNat 2))
  else if isDet m (curCtx d) && !g.tags.getLsbD (n % 64) then .fault (detRead d.cur.lanes false o.d.toNat 4)
  else .done (addPend da d.cur.skein latUni
    (splitRegs wrS o.d.toNat (tget g.status (n % 64) (statusEntry (n % 64) 0 0 0 0)).toNat 4))

theorem exec_tstat_body (o : Lk) (s : State) :
    exec (.tstat o) s = s.run fun m d => uniIssue m d (hd o.w (lenOf o.xl) []) (tstatBody o (kNatural o).toNat m d) := by
  rw [← immOf_natural]
  rfl

theorem testBit_seven (n : Nat) : n.testBit 7 = decide (n / 128 % 2 = 1) := Nat.testBit_eq_decide_div_mod_eq

section
variable {o : Lk} {n : Nat} {m : Mgmt} {d da : Dev}

section
variable (h : n.testBit 7 = true)
include h

theorem tstatBody_of_mask_det (hdet : isDet m (curCtx d) = true) :
    tstatBody o n m d da = .fault (detRead d.cur.lanes false o.d.toNat 2) := by
  rw [testBit_seven, decide_eq_true_iff] at h
  exact (if_pos h).trans (if_pos hdet)

theorem tstatBody_of_mask (hdet : isDet m (curCtx d) = false) : tstatBody o n m d da = .done (addPend da d.cur.skein 2
    (splitRegs wrS o.d.toNat ((curGroup d).tags &&& tagRange (curGroup d)).toNat 2)) := by
  rw [testBit_seven, decide_eq_true_iff] at h
  exact (if_pos h).trans (if_neg (Bool.eq_false_iff.1 hdet))

end

section
variable (h : n.testBit 7 = false)
include h

theorem tstatBody_of_entry_det (hdet : isDet m (curCtx d) = true) (ht : (curGroup d).tags.getLsbD (n % 64) = false) :
    tstatBody o n m d da = .fault (detRead d.cur.lanes false o.d.toNat 4) := by
  rw [testBit_seven, decide_eq_false_iff_not] at h
  exact (if_neg h).trans (if_pos (by rw [hdet, ht]; rfl))

theorem tstatBody_of_entry (hread : isDet m (curCtx d) = false ∨ (curGroup d).tags.getLsbD (n % 64) = true) :
    tstatBody o n m d da = .done (addPend da d.cur.skein 2
      (splitRegs wrS o.d.toNat (tget (curGroup d).status (n % 64) (statusEntry (n % 64) 0 0 0 0)).toNat 4)) := by
  rw [testBit_seven, decide_eq_false_iff_not] at h
  exact (if_neg h).trans (if_neg (by rcases hread with h | h <;> simp [h]))

end

end

section
variable {o : Lk} {s : State} (hc : UniClear s 7 false [])
include hc

theorem tstat_done {d1 : Dev} (hb : tstatBody o (kNatural o).toNat s.mgmt s.dev (moved s o.w (lenOf o.xl) false) = .done d1) :
    Goes (.tstat o) s d1 :=
  goes_uniformDone (h := hd o.w (lenOf o.xl) []) (exec_tstat_body o s) rfl hc (condUnder_seven s) hb

theorem tstat_fault {f : FaultInfo}
    (hb : tstatBody o (kNatural o).toNat s.mgmt s.dev (moved s o.w (lenOf o.xl) false) = .fault f) :
    Goes (.tstat o) s (trapped s o.w (lenOf o.xl) false f) :=
  goes_uniformFault (h := hd o.w (lenOf o.xl) []) (exec_tstat_body o s) rfl hc (condUnder_seven s) false hb

end

end Sys2Proof.Machine

/-! ## The statement -/

namespace Sys2Proof.Claims
open Machine

/-- Settles O40: each clause is the lemma of its instruction and outcome. -/
theorem tagInstructions : Obligations.TagInstructions := by
  intro s _ m d u g ctx det mine
  refine ⟨fun o => ⟨fun hc => ⟨twait_of_none hc, fun d1 hw hm ha => twait_of_met hc hw hm ha,
    fun hw hm => twait_of_unmet hc hw hm⟩, tdesc_goes⟩,
    fun o => ⟨tfirst_skip, fun hc hg => ⟨tfirst_of_det hc hg, tfirst_of_free hc hg⟩⟩,
    fun o hc => ⟨fun h => ⟨fun hdet => ?_, fun hdet => ?_⟩, fun h => ⟨fun hdet ht => ?_, fun hread => ?_⟩⟩⟩
  · exact tstat_fault hc (tstatBody_of_mask_det h hdet)
  · exact tstat_done hc (tstatBody_of_mask h hdet)
  · exact tstat_fault hc (tstatBody_of_entry_det h hdet ht)
  · exact tstat_done hc (tstatBody_of_entry h hread)

end Sys2Proof.Claims
end

section
/-!
PROOFS. The engines' events (R258, R260, R263, R265, R266): how a command starts, when an event changes nothing, and what the end of a
command leaves of its tag.
-/

namespace Sys2Proof.Machine

theorem exec_engineStart (e : Nat) (s : State) : exec (.engineStart e) s = execEngineStart e s := rfl
theorem exec_engineComplete (e : Nat) (s : State) :
    exec (.engineComplete e) s = s.run fun m d => endCommand m d e (.engineComplete e) := rfl
theorem exec_engineStop (e : Nat) (s : State) : exec (.engineStop e) s = s.run fun m d => endCommand m d e (.engineStop e) := rfl

/-! ## Events that change nothing -/

section
variable {m : Mgmt} {d : Dev} {e : Nat}

/-- An engine that does not run, or that has no command, ends none. -/
theorem endCommand_of_idle (ev : Instr) (h : (engine d e).running = false ∨ (engine d e).queue = []) :
    endCommand m d e ev = d := by
  unfold endCommand
  dsimp only
  split
  · next hr hq =>
    rw [hr, hq] at h
    rcases h with h | h <;> cases h
  · rfl

/-- A command of a context that is not enabled stands still (R184). -/
theorem endCommand_of_disabled {c : Cmd} {rest : List Cmd} (ev : Instr) (hq : (engine d e).queue = c :: rest)
    (hc : ctxEnabled m c.ctx = false) : endCommand m d e ev = d := by
  cases hr : (engine d e).running with
  | false => exact endCommand_of_idle ev (.inl hr)
  | true =>
    unfold endCommand
    simp only [hr, hq, hc, Bool.not_false, if_true]

end

section
variable {e : Nat} {s : State}

theorem engineStart_of_none (h : (engine s.dev e).running = true ∨ (engine s.dev e).queue = []) :
    Goes (.engineStart e) s s.dev := by
  refine goes_run (exec_engineStart e s) ?_
  dsimp only
  split
  · next hr hq =>
    rw [hr, hq] at h
    rcases h with h | h <;> cases h
  · rfl

theorem engineStart_of_disabled {c : Cmd} {rest : List Cmd} (hq : (engine s.dev e).queue = c :: rest)
    (hc : ctxEnabled s.mgmt c.ctx = false) : Goes (.engineStart e) s s.dev := by
  cases hr : (engine s.dev e).running with
  | true => exact engineStart_of_none (.inl hr)
  | false =>
    refine goes_run (exec_engineStart e s) ?_
    simp only [hr, hq, hc, Bool.not_false, if_true]

/-- The end of a command is the same for both of its events. -/
theorem engineEnd_goes {i : Instr} (h : i = .engineComplete e ∨ i = .engineStop e) : Goes i s (endCommand s.mgmt s.dev e i) := by
  rcases h with rfl | rfl
  · exact goes_run (exec_engineComplete e s) rfl
  · exact goes_run (exec_engineStop e s) rfl

theorem engineEnd_of_unchanged (h : ∀ ev, endCommand s.mgmt s.dev e ev = s.dev) :
    Goes (.engineComplete e) s s.dev ∧ Goes (.engineStop e) s s.dev :=
  ⟨(engineEnd_goes (.inl rfl)).congr (h _), (engineEnd_goes (.inr rfl)).congr (h _)⟩

end

/-! ## The start of a command (R258, R260) -/

/-- An engine that runs its first command, with the lines the run takes. -/
def engineRuns (d d1 : Dev) (e : Nat) (r : ERun) : Dev :=
  setEngine d1 e { engine d e with running := true, owned := takenLines r }
/-- Whether a run ends at a record, and the event of its end. -/
def runStops (r : ERun) : Bool := match runEnd r with | .record _ _ => true | _ => false
def endEvent (e : Nat) (r : ERun) : Instr := if runStops r then .engineStop e else .engineComplete e

theorem endEvent_of_status {e : Nat} {r : ERun} {code detail cause : Nat} {addr : DWord}
    (h : runEnd r = .status code detail addr cause) : endEvent e r = .engineComplete e := by
  simp only [endEvent, runStops, h, Bool.false_eq_true, if_false]

theorem endEvent_of_record {e : Nat} {r : ERun} {cause : Cause} {addr : DWord} (h : runEnd r = .record cause addr) :
    endEvent e r = .engineStop e := by
  simp only [endEvent, runStops, h, if_true]

section
variable {e : Nat} {s : State} {c : Cmd} {rest : List Cmd} {r : ERun} {d1 : Dev}
  (hr : (engine s.dev e).running = false) (hq : (engine s.dev e).queue = c :: rest) (hc : ctxEnabled s.mgmt c.ctx = true)
  (hrun : runCmd s.mgmt s.dev c = .ok r)
  (ht : ((writtenLines r).foldlM (fun d l => engTake s.mgmt c.ctx d l) s.dev : MemM Dev) = .ok d1)
include hr hq hc hrun ht

theorem engineStart_starts : Goes (.engineStart e) s
    (if cmdBad (groupOf s.dev c.gid) c then post (engineRuns s.dev d1 e r) (endEvent e r)
    else postAfter (engineRuns s.dev d1 e r) (.die (groupOf s.dev c.gid).die) (1 + freeBelow s.dev 29001 65536) (endEvent e r)) := by
  refine goes_run (exec_engineStart e s) ?_
  cases hend : runEnd r with
  | status =>
    simp only [hr, hq, hc, hrun, ht, hend, endEvent_of_status hend, Bool.not_true, Bool.false_eq_true, if_false, engineRuns]
  | record =>
    simp only [hr, hq, hc, hrun, ht, hend, endEvent_of_record hend, Bool.not_true, Bool.false_eq_true, if_false, engineRuns]

theorem engineStart_of_bad (hb : cmdBad (groupOf s.dev c.gid) c = true) :
    Goes (.engineStart e) s (post (engineRuns s.dev d1 e r) (endEvent e r)) :=
  (engineStart_starts hr hq hc hrun ht).congr (if_pos hb)

theorem engineStart_of_sound (hb : cmdBad (groupOf s.dev c.gid) c = false) : ∃ n, Goes (.engineStart e) s
    (postAfter (engineRuns s.dev d1 e r) (.die (groupOf s.dev c.gid).die) n (endEvent e r)) :=
  ⟨_, (engineStart_starts hr hq hc hrun ht).congr (if_neg (Bool.eq_false_iff.1 hb))⟩

end

/-! ## What the end of a command leaves of its tag (R263, R265, R266) -/

/-- The tag of a command free, and a status entry noted with the tag's bit set. -/
def freeTag (c : Cmd) (g : Group) : Group := { g with busy := g.busy &&& ~~~(bit64 c.tag) }
def noteStatus (c : Cmd) (x : BitVec 128) (g : Group) : Group :=
  { g with status := tset g.status c.tag x, tags := g.tags ||| bit64 c.tag }

theorem groupOf_modGroup {d : Dev} {gid : Nat} (f : Group → Group) (hf : ∀ g, (f g).gid = g.gid)
    (h : (group? d gid).isSome = true) : groupOf (modGroup d gid f) gid = f (groupOf d gid) := by
  obtain ⟨g, hg⟩ := Option.isSome_iff_exists.1 h
  simp [groupOf, group_modGroup d gid gid f hf, hg]

theorem group_modGroup_isSome (d : Dev) (gid : Nat) (f : Group → Group) (hf : ∀ g, (f g).gid = g.gid) :
    (group? (modGroup d gid f) gid).isSome = (group? d gid).isSome := by
  rw [group_modGroup d gid gid f hf, Option.isSome_map]

/-- A record of an engine is one more, with the command's address; memory and the groups stay. -/
theorem engRecord_spec (m : Mgmt) (d : Dev) (c : Cmd) (cause : Cause) (addr : DWord) : ∃ r : Rec,
    (engRecord m d c cause addr).mem = d.mem ∧ (engRecord m d c cause addr).groups = d.groups ∧
    (engRecord m d c cause addr).records = d.records ++ [r] ∧ r.cause = cause ∧ r.addr = addr ∧ r.pc = c.pc ∧ r.eng = true := by
  obtain ⟨ans, kill, he, -⟩ := addRecord_spec m
    (modSkein (fresh d).2 c.skein fun k => { k with stops := k.stops ++ [(fresh d).1] })
    (recGroup (groupOf d (skeinOf d c.skein).gid) (skeinOf d c.skein)
      { blankRec (fresh d).1 c.ctx cause with addr := addr, pc := c.pc, eng := true })
  have he : engRecord m d c cause addr = _ := he
  rw [he]
  exact ⟨_, rfl, rfl, rfl, rfl, rfl, rfl, rfl⟩

theorem groupOf_congr {d e : Dev} (h : e.groups = d.groups) (gid : Nat) : groupOf e gid = groupOf d gid := by
  rw [groupOf, groupOf, group?, group?, h]

/-- An end with a status that leaves no record delivers it beside freeing the tag. -/
theorem tagEnd_status (m : Mgmt) (d : Dev) (c : Cmd) {code detail cause : Nat} {addr : DWord}
    (h : code ≠ 2 ∨ c.block.getLsbD 41 = false) : tagEnd m d c (.status code detail addr cause) =
      deliverStatus (modGroup (modGroup d c.gid (noteStatus c (statusEntry c.tag code detail addr cause))) c.gid (freeTag c)) c
        (statusEntry c.tag code detail addr cause) :=
  if_neg fun hrec => by
    obtain ⟨h2, h41⟩ := Bool.and_eq_true_iff.1 hrec
    exact h.elim (fun h => h (beq_iff_eq.1 h2)) fun h => Bool.eq_false_iff.1 h h41

theorem tagEnd_record (m : Mgmt) (d : Dev) (c : Cmd) (cause : Cause) (addr : DWord) :
    tagEnd m d c (.record cause addr) = engRecord m (modGroup d c.gid (freeTag c)) c cause addr := rfl

theorem groupOf_tagEnd_status (m : Mgmt) {d : Dev} {c : Cmd} {code detail cause : Nat} {addr : DWord}
    (hg : (group? d c.gid).isSome = true) (h : code ≠ 2 ∨ c.block.getLsbD 41 = false) :
    groupOf (tagEnd m d c (.status code detail addr cause)) c.gid =
      freeTag c (noteStatus c (statusEntry c.tag code detail addr cause) (groupOf d c.gid)) := by
  have hnoted := group_modGroup_isSome d c.gid (noteStatus c (statusEntry c.tag code detail addr cause)) fun _ => rfl
  rw [tagEnd_status m d c h, ← groupOf_modGroup (noteStatus c _) (fun _ => rfl) hg,
    ← groupOf_modGroup (freeTag c) (fun _ => rfl) (hnoted.trans hg)]
  exact groupOf_congr rfl c.gid

end Sys2Proof.Machine

/-! ## The statement -/

namespace Sys2Proof.Claims
open Machine

/-- Settles O41: each clause is the lemma of its event and outcome. -/
theorem engineSteps : Obligations.EngineSteps := by
  intro e s m d x
  refine ⟨engineStart_of_none, fun h => engineEnd_of_unchanged fun ev => endCommand_of_idle ev h,
    fun c rest hq hc => ⟨engineStart_of_disabled hq hc, engineEnd_of_unchanged fun ev => endCommand_of_disabled ev hq hc⟩,
    fun c rest r d1 hr hq hc hrun ht => ⟨engineStart_of_bad hr hq hc hrun ht, engineStart_of_sound hr hq hc hrun ht⟩,
    fun i h => engineEnd_goes h, fun c code detail cause addr d1 hg h => ?status, fun c cause addr d1 hg => ?record⟩
  case status =>
    intro t
    have ht : t = deliverStatus _ c _ := tagEnd_status m d1 c h
    have hgroup : groupOf t c.gid = freeTag c (noteStatus c _ (groupOf d1 c.gid)) := groupOf_tagEnd_status m hg h
    rw [hgroup]
    exact ⟨(congrArg Dev.mem ht).trans rfl, (congrArg Dev.records ht).trans rfl, rfl, rfl, tget_tset_same ..⟩
  case record =>
    intro t
    have ht : t = engRecord m (modGroup d1 c.gid (freeTag c)) c cause addr := tagEnd_record m d1 c cause addr
    obtain ⟨r, hmem, hgroups, hrecs, hr⟩ := engRecord_spec m (modGroup d1 c.gid (freeTag c)) c cause addr
    rw [← ht] at hmem hgroups hrecs
    have hgroup : groupOf t c.gid = freeTag c (groupOf d1 c.gid) :=
      (groupOf_congr hgroups c.gid).trans (groupOf_modGroup (freeTag c) (fun _ => rfl) hg)
    rw [hgroup]
    exact ⟨hmem, rfl, rfl, r, hrecs, hr⟩

end Sys2Proof.Claims
end

section
/-!
PROOFS. BAR, BARP and FENCE (R300, R352 to R355): the release, the arrival at a slot, and the fence that is complete or parks.
-/

namespace Sys2Proof.Machine

theorem exec_bar (o : Ue) (s : State) : exec (.bar o) s = execBar o s := rfl
theorem exec_barp (o : Ue) (s : State) : exec (.barp o) s = execBarp o s := rfl
theorem exec_fence (o : Ue) (s : State) : exec (.fence o) s = execFence o s := rfl

/-! ## Arrivals -/

theorem arriveAfter_of_release {m : Mgmt} {d da d1 d2 : Dev} {slot n : Nat} {barp arv : Bool}
    (hr : releaseAt m da (curCtx d) (curSpindle d) 2 = .ok d1) (ha : arrive m d1 slot n barp arv = .ok d2) :
    arriveAfter m d da slot n barp arv = .done d2 := by
  rw [arriveAfter, hr]
  exact congrArg (opRes d) ha

theorem bar_arrives {o : Ue} {s : State} {d1 d2 : Dev} (hc : UniClear s 7 false [])
    (hr : releaseAt s.mgmt (moved s o.w 4 true) (curCtx s.dev) (curSpindle s.dev) 2 = .ok d1)
    (ha : arrive s.mgmt d1 o.tag.toNat 0 false false = .ok d2) : Goes (.bar o) s d2 :=
  goes_uniformDone (h := hdUe o 4 []) (exec_bar o s) rfl hc (condUnder_seven s) (arriveAfter_of_release hr ha)

section
variable {o : Ue} {s : State} (hc : UniClear s 7 false [.s o.sp 1])
include hc

theorem barp_of_bad_count (hn : (uniReader s.dev o.sp.toNat).toNat = 0 ∨
      32 * hSkeins (curGroup s.dev).header < (uniReader s.dev o.sp.toNat).toNat) :
    Goes (.barp o) s (trapped s o.w 4 true (faultAt .bounds 0 s.dev.cur.lanes)) :=
  goes_uniformFault (h := hdUe o 4 [.s o.sp 1]) (exec_barp o s) rfl hc (condUnder_seven s) true (if_pos hn)

theorem barp_arrives {d1 d2 : Dev} (hpos : 0 < (uniReader s.dev o.sp.toNat).toNat)
    (hle : (uniReader s.dev o.sp.toNat).toNat ≤ 32 * hSkeins (curGroup s.dev).header)
    (hr : releaseAt s.mgmt (moved s o.w 4 true) (curCtx s.dev) (curSpindle s.dev) 2 = .ok d1)
    (ha : arrive s.mgmt d1 o.tag.toNat (uniReader s.dev o.sp.toNat).toNat true (o.sub.getLsbD 0) = .ok d2) : Goes (.barp o) s d2 :=
  goes_uniformDone (h := hdUe o 4 [.s o.sp 1]) (exec_barp o s) rfl hc (condUnder_seven s)
    ((if_neg (not_or.2 ⟨hpos.ne', hle.not_gt⟩)).trans (arriveAfter_of_release hr ha))

end

/-! ## A phase that is not complete -/

theorem switchPoint_groups (d : Dev) (u : Nat) : (switchPoint d u).groups = d.groups := by
  unfold switchPoint
  dsimp only
  split
  · split <;> rfl
  · rfl

theorem tryBarrier_of_open {m : Mgmt} {d : Dev} {gid slot : Nat} {p : Phase} (hp : tget? (groupOf d gid).bars slot = some p)
    (hopen : phaseDone d gid p = false) : tryBarrier m d gid slot = .ok d := by
  simp [tryBarrier, hp, hopen]

/-- The phase of a slot after the bundle's arrival. -/
def phaseAfter (d : Dev) (slot n : Nat) (barp : Bool) : Phase :=
  let k := curSkein d
  let old := (tget? (groupOf d k.gid).bars slot).getD { barp := barp, n := n, arrived := [] }
  { old with arrived := old.arrived ++
    ((lanesOf d.cur.lanes).map fun l => (threadOf k l).num0).filter fun t => !old.arrived.contains t }

/-- The group with a phase at a slot. -/
def setPhase (slot : Nat) (p : Phase) (g : Group) : Group := { g with bars := tset g.bars slot p }

/-- The device that holds the phase, and in which the bundle waits unless it only arrives. -/
def arrived (d : Dev) (slot n : Nat) (barp arv : Bool) : Dev :=
  let d1 := modGroup d (curSkein d).gid (setPhase slot (phaseAfter d slot n barp))
  if arv then d1
  else modSkein d1 d.cur.skein fun k => modThreads k (lanesOf d.cur.lanes) fun _ t => { t with st := .bar slot }

theorem arrive_eq (m : Mgmt) (d : Dev) (slot n : Nat) (barp arv : Bool) : arrive m d slot n barp arv =
    tryBarrier m (switchPoint (arrived d slot n barp arv) d.cur.skein) (curSkein d).gid slot := rfl

/-- The slot holds the phase, whether the bundle waits or not. -/
theorem bars_arrived {d : Dev} (slot n : Nat) (barp arv : Bool) (hg : (group? d (curSkein d).gid).isSome = true) :
    tget? (groupOf (arrived d slot n barp arv) (curSkein d).gid).bars slot = some (phaseAfter d slot n barp) := by
  have hgroups : (arrived d slot n barp arv).groups =
      (modGroup d (curSkein d).gid (setPhase slot (phaseAfter d slot n barp))).groups := by cases arv <;> rfl
  rw [groupOf_congr hgroups, groupOf_modGroup (setPhase slot _) (fun _ => rfl) hg]
  exact tget_tset_same ..

theorem arrive_of_open {m : Mgmt} {d : Dev} {slot n : Nat} {barp arv : Bool} (hg : (group? d (curSkein d).gid).isSome = true)
    (hopen : phaseDone (switchPoint (arrived d slot n barp arv) d.cur.skein) (curSkein d).gid (phaseAfter d slot n barp) = false) :
    arrive m d slot n barp arv = .ok (switchPoint (arrived d slot n barp arv) d.cur.skein) := by
  have hbars := bars_arrived slot n barp arv hg
  rw [← groupOf_congr (switchPoint_groups _ d.cur.skein)] at hbars
  rw [arrive_eq]
  exact tryBarrier_of_open hbars hopen

/-! ## FENCE -/

/-- The fences that are complete at once. -/
theorem fence_atOnce_iff {d : Dev} {sp kind sc : Nat} :
    (decide (sc ≤ 2) && (decide (kind < 2) || (surfaceDue d sp).isNone)) = true ↔ sc ≤ 2 ∧ (kind < 2 ∨ surfaceDue d sp = none) := by
  simp

/-- The write-backs that a fence posts before it waits. -/
def fenceMerges (d : Dev) (kind sc : Nat) : List Instr :=
  if kind ≥ 2 && 2 < sc then (dirtyLines d (curSpindle d)).map fun line => .writebackMerge (curSpindle d) line else []

theorem fenceMerges_narrow (d : Dev) (kind : Nat) {sc : Nat} (h : sc ≤ 2) : fenceMerges d kind sc = [] := by
  simp [fenceMerges, h.not_gt]

theorem fenceMerges_wide (d : Dev) (kind : Nat) {sc : Nat} (h : 2 < sc) : fenceMerges d kind sc =
    if 2 ≤ kind then (dirtyLines d (curSpindle d)).map fun line => .writebackMerge (curSpindle d) line else [] := by
  simp [fenceMerges, h]

/-- The device in which a fence waits for the events `es` and its completion. -/
def fenceParked (s : State) (o : Ue) (es : List Instr) : Dev :=
  parked s o.w 4 false (post (postAll s.dev es) (.fenceComplete s.dev.cur.skein)) (.fence (bitsOf o.sub 3 2) (bitsOf o.sub 0 3))

section
variable {o : Ue} {s : State} (hc : UniClear s 7 false [])
include hc

theorem fence_of_done (hsc : bitsOf o.sub 0 3 ≤ 2) (hdue : bitsOf o.sub 3 2 < 2 ∨ surfaceDue s.dev (curSpindle s.dev) = none) :
    Goes (.fence o) s (moved s o.w 4 false) :=
  goes_uniformDone (h := { hdUe o 4 [] with ends := 0 }) (exec_fence o s) rfl hc (condUnder_seven s)
    (if_pos (fence_atOnce_iff.2 ⟨hsc, hdue⟩))

theorem fence_of_not_done (hlate : ¬ (bitsOf o.sub 0 3 ≤ 2 ∧
    (bitsOf o.sub 3 2 < 2 ∨ surfaceDue s.dev (curSpindle s.dev) = none))) :
    Goes (.fence o) s (fenceParked s o (fenceMerges s.dev (bitsOf o.sub 3 2) (bitsOf o.sub 0 3))) :=
  goes_uniformPark (h := { hdUe o 4 [] with ends := 0 }) (exec_fence o s) rfl hc (condUnder_seven s)
    (if_neg (mt fence_atOnce_iff.1 hlate))

/-- A narrow release waits for an earlier surface write (R383). -/
theorem fence_of_due (hsc : bitsOf o.sub 0 3 ≤ 2) (hkind : 2 ≤ bitsOf o.sub 3 2)
    (hdue : surfaceDue s.dev (curSpindle s.dev) ≠ none) : Goes (.fence o) s
      (parked s o.w 4 false (post s.dev (.fenceComplete s.dev.cur.skein)) (.fence (bitsOf o.sub 3 2) (bitsOf o.sub 0 3))) := by
  have hparks := fence_of_not_done (o := o) hc fun h => h.2.elim hkind.not_gt hdue
  rwa [fenceMerges_narrow _ _ hsc, fenceParked, postAll, List.append_nil] at hparks

theorem fence_of_wide (hsc : 2 < bitsOf o.sub 0 3) : Goes (.fence o) s (fenceParked s o (if 2 ≤ bitsOf o.sub 3 2 then
    (dirtyLines s.dev (curSpindle s.dev)).map fun line => .writebackMerge (curSpindle s.dev) line else [])) := by
  rw [← fenceMerges_wide s.dev _ hsc]
  exact fence_of_not_done hc fun h => h.1.not_gt hsc

end

end Sys2Proof.Machine

/-! ## The statement -/

namespace Sys2Proof.Claims
open Machine

/-- Settles O32: each clause is the lemma of its instruction and outcome. -/
theorem barriersAndFences : Obligations.BarriersAndFences := by
  intro s _ m d ctx sp
  refine ⟨fun o => ⟨fun d1 d2 => bar_arrives, fun hc => ⟨barp_of_bad_count hc, fun d1 d2 => barp_arrives hc⟩,
    fun hc => ⟨fence_of_done hc, fence_of_due hc, fence_of_wide hc⟩⟩, ?arrival⟩
  case arrival =>
    intro slot n barp arv k old p d1 d2 hg hopen
    exact arrive_of_open hg hopen

end Sys2Proof.Claims
end

section
/-!
PROOFS. Every row answers a next state and only register writes and resets change a management register (R49, R325, R328, R329); a step
of the machine answers a next state where no instruction word is a due event.
-/

namespace Sys2Proof.Machine

/-- A step that writes management registers is a step of the device, and answers a next state. -/
theorem writesMgmt_completes {i : Instr} (h : writesMgmt i = true) (s : State) : isWord i = false ∧ ∃ t, exec i s = .next t := by
  unfold writesMgmt at h
  split at h
  case h_1 bar p v =>
    cases bar
    · exact ⟨rfl, _, exec_bar0 p.off p.bytes v s⟩
    · exact ⟨rfl, _, exec_bar2 p.off p.bytes v s⟩
  case h_6 => cases h
  all_goals exact ⟨rfl, _, rfl⟩

theorem writesMgmt_cases {i : Instr} (h : writesMgmt i = true) :
    (∃ bar p v, i = .registerWrite bar p v) ∨ (∃ ctx v, i = .detctlWrite ctx v) ∨
      (∃ ctx die v, i = .partitionWrite ctx die v) ∨ i = .reset ∨ ∃ die, i = .criticalTemperature die := by
  unfold writesMgmt at h
  split at h
  case h_1 bar p v => exact .inl ⟨bar, p, v, rfl⟩
  case h_2 ctx v => exact .inr (.inl ⟨ctx, v, rfl⟩)
  case h_3 ctx die v => exact .inr (.inr (.inl ⟨ctx, die, v, rfl⟩))
  case h_4 => exact .inr (.inr (.inr (.inl rfl)))
  case h_5 die => exact .inr (.inr (.inr (.inr ⟨die, rfl⟩)))
  case h_6 => cases h

theorem exec_completes (i : Instr) (s : State) : ∃ t, exec i s = .next t := by
  cases hw : writesMgmt i
  · obtain ⟨d, hd⟩ := goes_of_not_writesMgmt hw s
    exact ⟨_, hd⟩
  · exact (writesMgmt_completes hw s).2

/-- An event that the device chooses comes from the agenda, or is the age rotation's or the end of a run-ahead. -/
theorem isWord_of_choose_event {m : Mgmt} {d d1 : Dev} {e : Instr} (ha : AgendaOk d) (h : choose m d = .event e d1) :
    isWord e = false := by
  cases hd : d.agenda with
  | cons a r =>
    rw [choose_event hd] at h
    cases h
    exact ha _ (hd ▸ List.mem_cons_self)
  | nil =>
    cases hp : pickQuarter m d with
    | none => rw [choose_quiet hd hp] at h; cases h
    | some c =>
      obtain ⟨q, k, g⟩ := c
      by_cases hr : k.rot = 64 ∧ rotated k ≠ none
      · rw [choose_rotation hd hp hr.1 hr.2] at h
        cases h; rfl
      · rw [choose_served hd hp (by tauto)] at h
        cases hf : fetchInstr m (served d q k) g (servedBundle k).2 with
        | wait n d2 => rw [hf] at h; cases h
        | run i d2 =>
          rw [hf, Todo.choice] at h
          split at h
          · cases h; rfl
          · cases h

theorem steps_of_agendaOk {s : State} (ha : AgendaOk s.dev) : Steps s := by
  unfold Steps
  cases hc : choose s.mgmt s.dev.fresh with
  | event e d => rw [step_event hc (isWord_of_choose_event (d := s.dev.fresh) ha hc)]; exact exec_completes _ _
  | issue i d => rw [step, hc]; exact exec_completes _ _
  | quiet d => exact ⟨_, step_quiet hc⟩

/-- Settles O56: a row writes management registers or goes to a device with them as they were, and the agenda alone can hold a word. -/
theorem everyStepCompletes : Obligations.EveryStepCompletes := by
  refine ⟨fun i s => ?_, fun s => steps_of_agendaOk⟩
  cases hw : writesMgmt i
  · obtain ⟨d, hd⟩ := goes_of_not_writesMgmt hw s
    exact ⟨_, hd, .inl rfl, fun _ => rfl⟩
  · obtain ⟨hword, t, ht⟩ := writesMgmt_completes hw s
    exact ⟨t, ht, .inr (writesMgmt_cases hw), fun h => absurd h (Bool.eq_false_iff.1 hword)⟩

end Sys2Proof.Machine
end

section
/-!
PROOFS. Taking an exception (R442 to R446, R448): the skein stops with nothing of the instruction done, and one record names the fault.
-/

namespace Sys2Proof.Machine

/-- The record of a skein's fault before POLICY is looked at (R443, R444). -/
def faultRec (d : Dev) (u : Nat) (pc next : DWord) (bundle : Mask) (f : FaultInfo) : Rec :=
  recGroup (groupOf d (skeinOf d u).gid) (skeinOf d u)
    { blankRec d.nextId (groupOf d (skeinOf d u).gid).ctx f.cause with
      sub := BitVec.ofNat 8 f.sub
      addr := f.addr
      pc := pc
      lanes := f.lanes
      data := f.data
      bundle := bundle
      next := next
      sup := f.sup }

/-- A skein that a record stops. -/
def stoppedBy (id : Nat) (k : Skein) : Skein :=
  { k with
    stops := k.stops ++ [id]
    park := none }

/-- Taking an exception stops the skein and hands over its record, which POLICY may have answered. -/
theorem takeFault_eq (m : Mgmt) (d : Dev) (u : Nat) (pc next : DWord) (bundle : Mask) (f : FaultInfo) :
    ∃ (ans : Option (BitVec 8)) (kill : List Instr), takeFault m d u pc next bundle f =
      { modSkein d u (stoppedBy d.nextId) with
        nextId := d.nextId + 1
        records := d.records ++ [{ faultRec d u pc next bundle f with
          ans := ans
          due := ans.isSome }]
        agenda := d.agenda ++ .faultRecord d.nextId :: kill } := by
  obtain ⟨ans, kill, he, -⟩ := addRecord_spec m (modSkein (fresh d).2 u (stoppedBy (fresh d).1)) (faultRec d u pc next bundle f)
  exact ⟨ans, kill, he⟩

/-- A fault other than a soft XLATE inside a region, of a bundle that does not run ahead, is taken (R448, R456). -/
theorem faulted_taken_of_hard {m : Mgmt} {d : Dev} {h : Hd} {f : FaultInfo} (hr : raOf (curSkein d) d.cur.lanes = none)
    (hf : f.cause ≠ .xlate ∨ f.sub = 1 ∨ entryOf (curSkein d) f.lanes = none) :
    faulted m d h f = takeFault m d d.cur.skein d.cur.pc (nextPc d h.len) d.cur.lanes f := by
  by_cases he : entryOf (curSkein d) f.lanes = none
  · exact faulted_taken hr he
  · have hard : (f.cause == Cause.xlate && f.sub != xlateCode .noncanon) = false := by
      rcases hf with hc | hs | hn
      · simp [hc]
      · simp [hs, xlateCode]
      · exact absurd hn he
    simp only [curSkein] at hr
    unfold faulted
    simp only [hr, hard]

/-- A skein that a record stops does not issue (R448). -/
theorem skeinGoes_of_stopped {k : Skein} (h : k.stops ≠ []) : skeinGoes k = false := by
  simp [skeinGoes, h]

/-- Settles O16: the fault is taken, and taking it is stopping the skein and handing over the record. -/
theorem exceptionEntry : Obligations.ExceptionEntry := by
  intro s w brk len f hi hr hf d id g
  obtain ⟨ans, kill, he⟩ := takeFault_eq s.mgmt s.dev s.dev.cur.skein s.dev.cur.pc (nextPc s.dev len) s.dev.cur.lanes f
  have hd : d = _ := (faulted_taken_of_hard hr hf).trans he
  have hk : curSkein d = stoppedBy id (curSkein s.dev) := by
    rw [hd]
    exact skeinOf_modSkein (stoppedBy id) (fun _ => rfl) hi
  refine ⟨by rw [hd]; rfl, hk, fun u hu => ?_, skeinGoes_of_stopped (by rw [hk]; simp [stoppedBy]), by rw [hd]; simp [id], ?_⟩
  · rw [hd]
    exact skein_modSkein_ne (stoppedBy id) (fun _ => rfl) hu
  · exact ⟨_, by rw [hd], rfl, rfl, rfl, rfl, rfl, rfl, rfl, rfl, congrArg some (curSkein_uid hi), rfl, rfl, rfl⟩

end Sys2Proof.Machine
end

section
/-!
PROOFS. Run-ahead (R456): how a soft XLATE inside a region begins one, and how one ends.
-/

namespace Sys2Proof.Machine

theorem exec_runAheadEnd (u : Nat) (s : State) : exec (.runAheadEnd u) s = execRunAheadEnd u s := rfl

/-! ## Passing over an instruction -/

theorem skeinOf_addPend (d : Dev) (u lat : Nat) (ws : List PWrite) (h : (skein? d u).isSome = true) : ∃ ps,
    skeinOf (addPend d u lat ws) u = { skeinOf d u with pend := ps } := by
  obtain ⟨n, he⟩ := addPend_eq d u lat ws
  rw [he]
  exact ⟨_, skeinOf_modSkein (d := { d with nextId := n }) _ (fun _ => rfl) h⟩

/-- The bundle's program counters made free values where the fault leaves them undefined (R456). -/
def freePcs (d : Dev) (f : FaultInfo) (k : Skein) : Skein :=
  if f.undefPc then
    modThreads k (lanesOf d.cur.lanes) fun l t => { t with pc := freeVal d (16384 + l) &&& 0x0000FFFFFFFFFFFC }
  else k

theorem freePcs_uid (d : Dev) (f : FaultInfo) (k : Skein) : (freePcs d f k).uid = k.uid := by
  unfold freePcs; split <;> simp

theorem freePcs_of_defined (d : Dev) {f : FaultInfo} (k : Skein) (h : f.undefPc = false) : freePcs d f k = k := by
  simp [freePcs, h]

theorem threadOf_freePcs_outside {d : Dev} {l : Nat} (f : FaultInfo) (k : Skein) (hl : l < 32) (h : d.cur.lanes.getLsbD l = false) :
    threadOf (freePcs d f k) l = threadOf k l := by
  unfold freePcs
  split
  · rw [threadOf_modLanes _ _ _ _ hl]; simp [h]
  · rfl

section
variable (m : Mgmt) {d : Dev} (h : Hd) (ra : RunAhead) (f : FaultInfo)

/-- Passing over an instruction is the move of the bundle, undefined results in flight, and the run-ahead kept; it may end at once. -/
theorem passOver_eq : ∃ ws e, passOver m d h ra f = { modSkein (addPend
      (modSkein (advance m d { h with ends := 0 }) d.cur.skein (freePcs d f)) d.cur.skein latAlu ws) d.cur.skein
        (fun k => setRa k { ra with pages := addPages ra.pages f.pages }) with agenda := e } := by
  refine ⟨undefine d (f.undef.filter (destIn d.cur.lanes)), (passOver m d h ra f).agenda, ?_⟩
  have hfree : (if f.undefPc then
      modSkein (advance m d { h with ends := 0 }) d.cur.skein fun k => modThreads k (lanesOf d.cur.lanes) fun l t =>
        { t with pc := freeVal d (16384 + l) &&& 0x0000FFFFFFFFFFFC }
      else advance m d { h with ends := 0 }) = modSkein (advance m d { h with ends := 0 }) d.cur.skein (freePcs d f) := by
    unfold freePcs
    split
    · rfl
    · simp [modSkein, modWhere]
  unfold passOver
  simp only [hfree]
  split <;> rfl

theorem passOver_keeps : (passOver m d h ra f).records = d.records ∧ (passOver m d h ra f).mem = d.mem ∧
    (passOver m d h ra f).cur = d.cur := by
  obtain ⟨ws, e, he⟩ := passOver_eq m h ra f (d := d)
  obtain ⟨n, hp⟩ := addPend_eq (modSkein (advance m d { h with ends := 0 }) d.cur.skein (freePcs d f)) d.cur.skein latAlu ws
  obtain ⟨ks, qs, st, ha, -⟩ := advance_spec m d { h with ends := 0 }
  rw [he, hp, ha]
  exact ⟨rfl, rfl, rfl⟩

/-- The skein that has passed over an instruction keeps the run-ahead; its other changes are of threads and results. -/
theorem skeinOf_passOver (hi : (skein? d d.cur.skein).isSome = true) : ∃ ps,
    skeinOf (passOver m d h ra f) d.cur.skein =
      setRa { freePcs d f (advanced d { h with ends := 0 } (curSkein d)) with pend := ps }
        { ra with pages := addPages ra.pages f.pages } := by
  obtain ⟨ws, e, he⟩ := passOver_eq m h ra f (d := d)
  obtain ⟨ks, qs, st, ha, -, hsome, hcur⟩ := advance_spec m d { h with ends := 0 }
  have hadv : skeinOf (advance m d { h with ends := 0 }) d.cur.skein = advanced d { h with ends := 0 } (curSkein d) := by
    rw [← hcur hi, curSkein, show (advance m d { h with ends := 0 }).cur = d.cur by rw [ha]]
  have h1 : (skein? (advance m d { h with ends := 0 }) d.cur.skein).isSome = true := hsome.trans hi
  have h2 : (skein? (modSkein (advance m d { h with ends := 0 }) d.cur.skein (freePcs d f)) d.cur.skein).isSome = true := by
    rw [skein_modSkein_isSome _ _ _ _ (freePcs_uid d f)]; exact h1
  obtain ⟨ps, hps⟩ := skeinOf_addPend _ d.cur.skein latAlu ws h2
  refine ⟨ps, ?_⟩
  rw [he]
  calc skeinOf _ _ = _ := skeinOf_modSkein (fun k => setRa k { ra with pages := addPages ra.pages f.pages }) (fun _ => rfl)
        (by rw [skein_addPend_isSome]; exact h2)
    _ = _ := by rw [hps, skeinOf_modSkein _ (freePcs_uid d f) h1, hadv]

end

/-! ## The beginning -/

/-- The run-ahead that a soft XLATE begins (R456). -/
def newRa (s : State) (len : Nat) (f : FaultInfo) (e : Region) : RunAhead :=
  { lanes := inRegions (curSkein s.dev) s.dev.cur.lanes
    pc := s.dev.cur.pc
    addr := f.addr
    flanes := f.lanes &&& inRegions (curSkein s.dev) s.dev.cur.lanes
    sub := BitVec.ofNat 8 f.sub
    entry := e.entry
    next := nextPc s.dev len
    issues := 0
    pages := [] }

/-- The device whose issuing bundle is the threads that run ahead. -/
def inRegionsOnly (s : State) : Dev :=
  { s.dev with cur := { s.dev.cur with lanes := inRegions (curSkein s.dev) s.dev.cur.lanes } }

section
variable {s : State} {f : FaultInfo} {e : Region}

theorem trapped_begins {w brk : Bool} {len : Nat} (hr : raOf (curSkein s.dev) s.dev.cur.lanes = none) (hc : f.cause = .xlate)
    (hs : f.sub ≠ 1) (he : entryOf (curSkein s.dev) f.lanes = some e) : ∃ h : Hd, h.len = len ∧
    trapped s w len brk f = passOver s.mgmt (inRegionsOnly s) h (newRa s len f e) f := by
  refine ⟨{ w := w, len := len, p := 7, n := false, rds := [], ends := endsIf brk, fp64 := false }, rfl, ?_⟩
  have soft : (f.cause == Cause.xlate && f.sub != xlateCode .noncanon) = true := by simp [hc, hs, xlateCode]
  simp only [curSkein] at hr he
  unfold trapped faulted
  simp only [hr, he, soft]
  rfl

/-- The lowest faulting thread is in a region and in the bundle, so that some thread of the bundle runs ahead. -/
theorem inRegions_meets (he : entryOf (curSkein s.dev) f.lanes = some e) (hsub : f.lanes &&& s.dev.cur.lanes = f.lanes) :
    inRegions (curSkein s.dev) s.dev.cur.lanes &&& s.dev.cur.lanes ≠ 0 := by
  unfold entryOf at he
  split at he
  · next l r hl =>
    obtain ⟨hlt, hmem⟩ := mem_lanesOf.1 (hl ▸ List.mem_cons_self : l ∈ lanesOf f.lanes)
    have hcur : s.dev.cur.lanes.getLsbD l = true := by
      rw [← hsub, BitVec.getLsbD_and, Bool.and_eq_true] at hmem
      exact hmem.2
    intro h0
    have hin : (inRegions (curSkein s.dev) s.dev.cur.lanes &&& s.dev.cur.lanes).getLsbD l = true := by
      rw [BitVec.getLsbD_and, inRegions, getLsbD_maskOf, hcur, he, decide_eq_true hlt]
      rfl
    rw [h0] at hin
    simp at hin
  · cases he

theorem runAhead_begins {w brk : Bool} {len : Nat} (hi : Issuing s) (hr : raOf (curSkein s.dev) s.dev.cur.lanes = none)
    (hc : f.cause = .xlate) (hs : f.sub ≠ 1) (he : entryOf (curSkein s.dev) f.lanes = some e)
    (hsub : f.lanes &&& s.dev.cur.lanes = f.lanes) :
    (trapped s w len brk f).records = s.dev.records ∧ (trapped s w len brk f).mem = s.dev.mem ∧
    raOf (curSkein (trapped s w len brk f)) s.dev.cur.lanes = some { newRa s len f e with pages := addPages [] f.pages } ∧
    ∀ l, l < 32 →
      ((inRegions (curSkein s.dev) s.dev.cur.lanes).getLsbD l = true → f.undefPc = false →
        (threadOf (curSkein (trapped s w len brk f)) l).pc = nextPc s.dev len) ∧
      ((inRegions (curSkein s.dev) s.dev.cur.lanes).getLsbD l = false →
        threadOf (curSkein (trapped s w len brk f)) l = threadOf (curSkein s.dev) l) := by
  obtain ⟨h, hlen, ht⟩ := trapped_begins (w := w) (brk := brk) (len := len) hr hc hs he
  obtain ⟨hrec, hmem, hcur⟩ := passOver_keeps s.mgmt h (newRa s len f e) f (d := inRegionsOnly s)
  obtain ⟨ps, hk⟩ := skeinOf_passOver s.mgmt h (newRa s len f e) f (d := inRegionsOnly s) hi
  have hk := (show curSkein (trapped s w len brk f) = _ by rw [curSkein, ht, hcur]).trans hk
  refine ⟨by rw [ht, hrec]; rfl, by rw [ht, hmem]; rfl, ?_, fun l hl => ⟨fun hin hpc => ?_, fun hout => ?_⟩⟩
  · rw [hk, raOf]
    exact List.find?_cons_of_pos (by simpa [newRa] using inRegions_meets he hsub)
  · rw [hk]
    rw [freePcs_of_defined _ _ hpc]
    show (threadOf (advanced _ _ _) l).pc = _
    rw [threadOf_advanced _ _ _ _ hl]
    simp only [inRegionsOnly, hin, if_true, hlen]
    rfl
  · rw [hk]
    show threadOf (freePcs _ _ _) l = _
    rw [threadOf_freePcs_outside (d := inRegionsOnly s) _ _ hl hout, threadOf_advanced _ _ _ _ hl]
    simp only [inRegionsOnly, hout, Bool.false_and, Bool.false_eq_true, if_false]
    rfl

end

/-! ## The end -/

/-- The threads of a run-ahead that go back to their region's entry (R456). -/
def goesBack (k : Skein) (ra : RunAhead) : List Nat :=
  (lanesOf ra.lanes).filter fun l => (threadOf k l).region.isSome && (threadOf k l).st != .exited
def atEntry (_ : Nat) (t : Thread) : Thread :=
  match t.region with
  | some r => { t with
      pc := r.entry
      region := none }
  | none => t

theorem threadOf_goesBack (k : Skein) (ra : RunAhead) {l : Nat} (hl : l < 32) :
    threadOf (modThreads k (goesBack k ra) atEntry) l =
      match ra.lanes.getLsbD l && (threadOf k l).st != .exited, (threadOf k l).region with
      | true, some r => { threadOf k l with
          pc := r.entry
          region := none }
      | _, _ => threadOf k l := by
  have hnodup : (goesBack k ra).Nodup := (lanesOf_nodup _).filter _
  rw [threadOf_modThreads atEntry l _ _ hnodup fun j hj => lanesOf_lt j (List.mem_filter.1 hj).1]
  have hmem : l ∈ goesBack k ra ↔ ra.lanes.getLsbD l = true ∧ (threadOf k l).region.isSome = true ∧
      ((threadOf k l).st != .exited) = true := by
    simp [goesBack, mem_lanesOf, hl]
  by_cases hb : l ∈ goesBack k ra
  · obtain ⟨hin, hreg, hst⟩ := hmem.1 hb
    obtain ⟨r, hr⟩ := Option.isSome_iff_exists.1 hreg
    rw [if_pos hb, hin, hst, hr, atEntry, hr]
    rfl
  · rw [if_neg hb]
    split
    · next r hgo hr =>
      obtain ⟨hin, hst⟩ := Bool.and_eq_true_iff.1 hgo
      exact absurd (hmem.2 ⟨hin, by rw [hr]; rfl, hst⟩) hb
    · rfl

/-- Whether a result is one of a thread that goes back. -/
def ofThreads (back : List Nat) (w : PWrite) : Bool :=
  match w with
  | .v l _ _ => back.contains l
  | .p l _ _ => back.contains l
  | _ => false

/-- The skein whose run-ahead has ended, before it is stopped. -/
def sentBack (back : List Nat) (ra : RunAhead) (id : Nat) (k : Skein) : Skein :=
  { modThreads k back atEntry with
    pend := ((modThreads k back atEntry).pend.map fun p => { p with ws := p.ws.filter fun w => !ofThreads back w }).filter
      fun p => !p.ws.isEmpty
    runAhead := (dropRa (modThreads k back atEntry) ra.lanes).runAhead
    stops := (modThreads k back atEntry).stops ++ [id] }

/-- The record of a run-ahead that has ended (R456). -/
def raRec (d : Dev) (u : Nat) (ra : RunAhead) : Rec :=
  recGroup (groupOf d (skeinOf d u).gid) (skeinOf d u)
    { blankRec d.nextId (groupOf d (skeinOf d u).gid).ctx .xlate with
      sub := ra.sub
      addr := ra.addr
      pc := ra.pc
      lanes := ra.flanes
      data := ra.entry
      ra := true
      more := pageSlots ra.pages
      bundle := ra.lanes
      next := ra.next }

theorem endRunAhead_eq (m : Mgmt) (d : Dev) (u : Nat) (ra : RunAhead) : endRunAhead m d u ra =
    addRecord m (modSkein (fresh d).2 u (sentBack (goesBack (skeinOf d u) ra) ra d.nextId)) (raRec d u ra) := rfl

theorem sentBack_uid (back : List Nat) (ra : RunAhead) (id : Nat) (k : Skein) : (sentBack back ra id k).uid = k.uid :=
  modThreads_uid k back atEntry

theorem sentBack_runAhead (back : List Nat) (ra : RunAhead) (id : Nat) (k : Skein) :
    (sentBack back ra id k).runAhead = k.runAhead.filter fun x => x.lanes &&& ra.lanes == 0 := by
  rw [sentBack, dropRa, modThreads_frame]

theorem sentBack_stops (back : List Nat) (ra : RunAhead) (id : Nat) (k : Skein) :
    (sentBack back ra id k).stops = k.stops ++ [id] := by
  rw [sentBack, modThreads_frame]

/-- A run-ahead that ends changes its skein so and posts one record of its first fault (R456). -/
theorem endRunAhead_spec (m : Mgmt) {d : Dev} {u : Nat} (ra : RunAhead) (hi : (skein? d u).isSome = true) :
    (endRunAhead m d u ra).mem = d.mem ∧ (endRunAhead m d u ra).cur = d.cur ∧
    skeinOf (endRunAhead m d u ra) u = sentBack (goesBack (skeinOf d u) ra) ra d.nextId (skeinOf d u) ∧
    ∃ r : Rec, (endRunAhead m d u ra).records = d.records ++ [r] ∧ r.id = d.nextId ∧ r.cause = .xlate ∧ r.sub = ra.sub ∧
      r.addr = ra.addr ∧ r.pc = ra.pc ∧ r.lanes = ra.flanes ∧ r.data = ra.entry ∧ r.ra = true ∧ r.more = pageSlots ra.pages := by
  obtain ⟨ans, kill, he, -⟩ := addRecord_spec m
    (modSkein (fresh d).2 u (sentBack (goesBack (skeinOf d u) ra) ra d.nextId)) (raRec d u ra)
  rw [endRunAhead_eq, he]
  exact ⟨rfl, rfl, skeinOf_modSkein (d := (fresh d).2) _ (sentBack_uid _ ra _) hi, _, rfl, rfl, rfl, rfl, rfl, rfl, rfl, rfl, rfl, rfl⟩

theorem runAheadEnd_of_none {s : State} (hr : raOf (curSkein s.dev) s.dev.cur.lanes = none) :
    Goes (.runAheadEnd s.dev.cur.skein) s s.dev :=
  goes_run (exec_runAheadEnd _ s) (by simp only [curSkein] at hr; simp only [hr])

theorem runAheadEnd_of_some {s : State} {ra : RunAhead} (hr : raOf (curSkein s.dev) s.dev.cur.lanes = some ra) :
    Goes (.runAheadEnd s.dev.cur.skein) s (endRunAhead s.mgmt s.dev s.dev.cur.skein ra) :=
  goes_run (exec_runAheadEnd _ s) (by simp only [curSkein] at hr; simp only [hr])

/-- Settles O18: the beginning, the end, and the event without a run-ahead. -/
theorem runAheadBeginsAndEnds : Obligations.RunAheadBeginsAndEnds := by
  intro s hi u
  refine ⟨?begins, ?ends, runAheadEnd_of_none⟩
  case begins =>
    intro w brk len f e hr hc hs he hsub d mine
    obtain ⟨hrec, hmem, hra, hth⟩ := runAhead_begins (w := w) (brk := brk) (len := len) hi hr hc hs he hsub
    exact ⟨hrec, hmem, _, hra, rfl, rfl, rfl, rfl, rfl, rfl, rfl, rfl, hth⟩
  case ends =>
    intro ra hra
    obtain ⟨hmem, hcur, hk, hrec⟩ := endRunAhead_spec s.mgmt ra hi
    have hk := (show curSkein (endRunAhead s.mgmt s.dev u ra) = _ by rw [curSkein, hcur]).trans hk
    refine ⟨_, runAheadEnd_of_some hra, hmem, by rw [hk, sentBack_runAhead]; rfl, by rw [hk, sentBack_stops]; rfl, fun l hl => ?_, hrec⟩
    rw [hk]
    exact threadOf_goesBack (curSkein s.dev) ra hl

end Sys2Proof.Machine
end

section
/-!
PROOFS. RETRY, SKIP and SUPPLY (R105, R154, R350, R448): what each comes to for the records that it answers.
-/

namespace Sys2Proof.Machine

theorem exec_retry (id : Nat) (s : State) : exec (.retry id) s = execRetry id s := rfl
theorem exec_skip (id : Nat) (s : State) : exec (.skip id) s = execSkip id s := rfl
theorem exec_supply (id : Nat) (s : State) : exec (.supply id) s = execSupply id s := rfl

/-! ## The end of a stop -/

/-- The device whose record no longer stops the skein (R448). -/
def stopEnded (d : Dev) (u : Nat) (r : Rec) : Dev := releaseStop (dropWaiter d (.resp r.id)) u r.id

/-- The lanes of a record that still stand at its instruction. -/
def standing (d : Dev) (u : Nat) (r : Rec) : Mask := maskOf fun l =>
  r.bundle.getLsbD l && (threadOf (skeinOf d u) l).pc == (if r.ra then r.data else r.pc) && (threadOf (skeinOf d u) l).st == .ready

theorem release_of_skein {d : Dev} {r : Rec} {u : Nat} (hu : r.skein = some u) : release d r = stopEnded d u r := by
  rw [release, hu]; rfl

theorem goOn_of_skein {d : Dev} {r : Rec} {u : Nat} (hu : r.skein = some u) : goOn d r = setPcs d u (standing d u r) r.next := by
  rw [goOn, hu]; rfl

theorem skeinOf_stopEnded {d : Dev} {u : Nat} (r : Rec) (h : skein? d u ≠ none) : skeinOf (stopEnded d u r) u =
    { skeinOf d u with stops := (skeinOf d u).stops.filter fun j => j != r.id } :=
  releaseStop_skein (d := dropWaiter d (.resp r.id)) (Option.isSome_iff_ne_none.2 h)

/-! ## Going on after the instruction -/

section
variable {d : Dev} {r : Rec} {u : Nat} (hu : r.skein = some u)
include hu

theorem skipOver_of_engine (he : r.eng = true) : skipOver d r = stopEnded d u r := by
  rw [← release_of_skein hu, skipOver]
  simp only [hu, he, if_true]

theorem skipOver_of_instruction (he : r.eng = false) (hc : r.cause ≠ .deadlock) :
    skipOver d r = stopEnded (setPcs d u (standing d u r) r.next) u r := by
  rw [← release_of_skein hu, ← goOn_of_skein hu, skipOver]
  simp [hu, he, hc]

/-- A lock request without its timers and its other entries, as SKIP of a DEADLOCK withdraws it. -/
def withdrawn (d : Dev) (u : Nat) : Dev := dropLockTimers (dropOtherEntries d u none) u

theorem skipOver_of_request (he : r.eng = false) (hc : r.cause = .deadlock) {line va dst sc set : Nat}
    (hp : (skeinOf (withdrawn d u) u).park = some (.lock line va dst sc set)) :
    skipOver d r = stopEnded (unpark (withdrawn d u) u) u r := by
  rw [← release_of_skein hu, skipOver]
  rw [withdrawn] at hp
  simp only [hu, he, hc, hp, beq_self_eq_true, if_true, Bool.false_eq_true, if_false]
  rfl

theorem skipOver_of_no_request (he : r.eng = false) (hc : r.cause = .deadlock) (hp : (skeinOf (withdrawn d u) u).park = none) :
    skipOver d r = stopEnded (setPcs (withdrawn d u) u (standing (withdrawn d u) u r) r.next) u r := by
  rw [← release_of_skein hu, ← goOn_of_skein hu, skipOver]
  rw [withdrawn] at hp
  simp only [hu, he, hc, hp, beq_self_eq_true, if_true, Bool.false_eq_true, if_false]
  rfl

end

/-! ## The three answers -/

section
variable {s : State} {id : Nat} {r : Rec} (hr : rec? s.dev id = some r)
include hr

theorem retry_of_reorder (ho : r.reorder = true) (hc : r.cause ≠ .watchdog) :
    Goes (.retry id) s (reorderAnswer s.mgmt s.dev r true (.retry id)) :=
  goes_run (exec_retry id s) (by simp [hr, ho, hc])

theorem skip_of_reorder (ho : r.reorder = true) : Goes (.skip id) s (reorderAnswer s.mgmt s.dev r false (.skip id)) :=
  goes_run (exec_skip id s) (by simp [hr, ho])

theorem retry_passes (ho : r.reorder = false) (hc : r.cause ≠ .watchdog) (hb : r.cause = .bkpt ∨ r.eng = true) :
    Goes (.retry id) s (skipOver s.dev r) :=
  goes_run (exec_retry id s) (by simp [hr, ho, hc, hb])

theorem retry_again {u : Nat} (hu : r.skein = some u) (ho : r.reorder = false) (hc : r.cause ≠ .watchdog) (hb : r.cause ≠ .bkpt)
    (he : r.eng = false) :
    Goes (.retry id) s (stopEnded s.dev u r) :=
  goes_run (exec_retry id s) (by rw [← release_of_skein hu]; simp [hr, ho, hc, hb, he])

theorem skip_passes (ho : r.reorder = false) : Goes (.skip id) s (skipOver s.dev r) :=
  goes_run (exec_skip id s) (by simp [hr, ho])

theorem supply_of_read {u : Nat} (hu : r.skein = some u) {slot reg n x : Nat} {lane : Bool} {d1 : Dev} (hs : r.slot = some slot)
    (hp : r.sup = some (lane, reg, n))
    (hx : distRead s.mgmt s.dev r.ctx (ringSlot (ctxOf s.mgmt r.ctx).faultq slot + 48) 8 8 = .ok (x, d1)) :
    Goes (.supply id) s (stopEnded (modSkein (setPcs s.dev u (standing s.dev u r) r.next) u fun k =>
      writeNow k (if lane then (lanesOf r.lanes).flatMap fun l => splitRegs (wrV l) reg x n else splitRegs wrS reg x n)) u r) :=
  goes_run (exec_supply id s) (by rw [← release_of_skein hu, ← goOn_of_skein hu]; simp only [hr, hu, hs, hp, hx])

end

theorem retry_of_watchdog {s : State} {id : Nat} {r : Rec} (hr : rec? s.dev id = some r) (hc : r.cause = .watchdog)
    (hu : r.skein = none) : Goes (.retry id) s { dropRec s.dev r.id with stalled := tdel s.dev.stalled r.ctx } :=
  goes_run (exec_retry id s) (by simp [hr, hc, release, hu])

/-! ## A failed reorder point (R105) -/

section
variable {m : Mgmt} {d : Dev} {r : Rec} {u : Nat} (hu : r.skein = some u)
include hu

theorem reorderAnswer_of_not_ready (again : Bool) (ev : Instr) (h : reorderReady (stopEnded d u r) (r.group.getD 0) = false) :
    reorderAnswer m d r again ev = stopEnded d u r := by
  rw [← release_of_skein hu] at h ⊢
  simp [reorderAnswer, h]

theorem reorderAnswer_skip (ev : Instr) (h : reorderReady (stopEnded d u r) (r.group.getD 0) = true) :
    reorderAnswer m d r false ev = reorderDone m (stopEnded d u r) (r.group.getD 0) none := by
  rw [← release_of_skein hu] at h ⊢
  simp [reorderAnswer, h]

theorem reorderAnswer_retry (ev : Instr) {d2 : Dev} (h : reorderReady (stopEnded d u r) (r.group.getD 0) = true)
    (ht : tryReorder m (stopEnded d u r) (r.group.getD 0) = .ok d2) : reorderAnswer m d r true ev = d2 := by
  rw [← release_of_skein hu] at h ht
  simp [reorderAnswer, h, ht]

end

/-- Settles O19: each clause is the lemma of its answer and record. -/
theorem exceptionReturn : Obligations.ExceptionReturn := by
  intro s id r hr ended stands waiting
  refine ⟨?reorder, ?answers, retry_of_watchdog hr, ?stop⟩
  case reorder =>
    intro u hu ho hc gid d1
    refine ⟨fun hn => ⟨(retry_of_reorder hr ho hc).congr ?_, (skip_of_reorder hr ho).congr ?_⟩,
      fun hy => ⟨(skip_of_reorder hr ho).congr ?_, fun d2 ht => (retry_of_reorder hr ho hc).congr ?_⟩⟩
    · exact reorderAnswer_of_not_ready hu _ _ hn
    · exact reorderAnswer_of_not_ready hu _ _ hn
    · exact reorderAnswer_skip hu _ hy
    · exact reorderAnswer_retry hu _ hy ht
  case answers =>
    intro u hu ho
    refine ⟨fun he hc => ?engine, fun hc he => ?deadlock, fun hc hb he => retry_again hr hu ho hc hb he, fun hb he => ?bkpt,
      fun hc he => ?skip, fun slot reg n x lane d1 hs hp hx => supply_of_read hr hu hs hp hx⟩
    case engine =>
      exact ⟨(retry_passes hr ho hc (.inr he)).congr (skipOver_of_engine hu he),
        (skip_passes hr ho).congr (skipOver_of_engine hu he)⟩
    case deadlock =>
      exact ⟨fun line va dst sc set hp => (skip_passes hr ho).congr (skipOver_of_request hu he hc hp),
        fun hp => (skip_passes hr ho).congr (skipOver_of_no_request hu he hc hp)⟩
    case bkpt =>
      exact (retry_passes hr ho (by simp [hb]) (.inl hb)).congr (skipOver_of_instruction hu he (by simp [hb]))
    case skip => exact (skip_passes hr ho).congr (skipOver_of_instruction hu he hc)
  case stop =>
    intro d u l _ hk
    have hs : skeinOf (ended d u) u = _ := skeinOf_stopEnded r hk
    exact ⟨by rw [hs], by rw [hs]; rfl, rfl⟩

end Sys2Proof.Machine
end

section
/-!
PROOFS. Kills (R449), the watchdog (R350) and a service call that is killed (R458): what each event comes to.
-/

namespace Sys2Proof.Machine

theorem exec_killSkein (id : Nat) (s : State) : exec (.killSkein id) s = execKillSkein id s := rfl
theorem exec_killLaunch (id : Nat) (s : State) : exec (.killLaunch id) s = execKillLaunch id s := rfl
theorem exec_killContext (id : Nat) (s : State) : exec (.killContext id) s = execKillContext id s := rfl
theorem exec_svcKill (u : Nat) (s : State) : exec (.svcKill u) s = execSvcKill u s := rfl
theorem exec_watchdogExpiry (ctx : Nat) (s : State) : exec (.watchdogExpiry ctx) s = execWatchdogExpiry ctx s := rfl

/-! ## Kills of a record -/

/-- A kill that finds its record and comes through ends the record. -/
theorem killEvent_done {d d1 : Dev} {id : Nat} {r : Rec} {ev : Instr} {f : Rec → ERunM Dev} (hr : rec? d id = some r)
    (hf : f r = .ok d1) : killEvent d id ev f = killed d1 id := by
  simp only [killEvent, hr, hf]

/-- The queues of a context with EN cleared (R449). -/
def halted (m : Mgmt) (d : Dev) (ctx : Nat) : Dev :=
  (List.range 32).foldl (fun d n => if (subq d ctx n).en then haltQueue m d ctx n else d) d

section
variable {s : State} {id : Nat} {r : Rec} {d1 : Dev} (hr : rec? s.dev id = some r)
include hr

theorem killSkein_of_present {u : Nat} (hu : r.skein = some u) (hp : (skein? s.dev u).isSome = true)
    (hk : killOne s.mgmt s.dev u = .ok d1) : Goes (.killSkein id) s (killed d1 id) :=
  goes_run (exec_killSkein id s) (killEvent_done hr (by simp only [hu, hp, hk, if_true]))

theorem killSkein_of_none (hu : r.skein = none) : Goes (.killSkein id) s (killed s.dev id) :=
  goes_run (exec_killSkein id s) (killEvent_done hr (by simp only [hu]))

theorem killLaunch_of_launch {i : Nat} (hl : r.launch = some i) (hk : endLaunches s.mgmt s.dev [i] = .ok d1) :
    Goes (.killLaunch id) s (killed d1 id) :=
  goes_run (exec_killLaunch id s) (killEvent_done hr (by simp only [hl, hk]))

theorem killLaunch_of_watchdog (hl : r.launch = none) (hc : r.cause = .watchdog) (hk : endLaunches s.mgmt s.dev
    ((s.dev.groups.filter fun g => g.ctx == r.ctx && g.resident).map fun g => g.launch) = .ok d1) :
    Goes (.killLaunch id) s (killed d1 id) :=
  goes_run (exec_killLaunch id s) (killEvent_done hr (by simp only [hl, hc, hk, beq_self_eq_true, if_true]))

theorem killLaunch_of_none (hl : r.launch = none) (hc : r.cause ≠ .watchdog) : Goes (.killLaunch id) s (killed s.dev id) :=
  goes_run (exec_killLaunch id s) (killEvent_done hr (by simp [hl, hc]))

theorem killContext_goes (hk : endLaunches s.mgmt (halted s.mgmt s.dev r.ctx)
    ((((halted s.mgmt s.dev r.ctx).launches.filter fun l => l.ctx == r.ctx).map fun l => l.id) ++
      ((halted s.mgmt s.dev r.ctx).groups.filter fun g => g.ctx == r.ctx).map fun g => g.launch) = .ok d1) :
    Goes (.killContext id) s (killed d1 id) :=
  goes_run (exec_killContext id s) (killEvent_done hr hk)

end

/-! ## The watchdog and the service call -/

/-- Whether a resident skein of a context waits internally (R350). -/
def waitsInside (d : Dev) (ctx : Nat) : Bool :=
  d.skeins.any fun k => k.resident && (groupOf d k.gid).ctx == ctx && skeinWait k == some false

theorem watchdogExpiry_of_running {s : State} {ctx : Nat} (h : isStalled s.dev ctx = false) : Goes (.watchdogExpiry ctx) s s.dev :=
  goes_run (exec_watchdogExpiry ctx s) (by simp [h])

theorem watchdogExpiry_of_stalled {s : State} {ctx : Nat} (h : isStalled s.dev ctx = true) : Goes (.watchdogExpiry ctx) s
    (addRecord s.mgmt { s.dev with nextId := s.dev.nextId + 1 }
      (blankRec s.dev.nextId ctx (if waitsInside s.dev ctx then .watchdog else .allExternal))) :=
  goes_run (exec_watchdogExpiry ctx s) (by simp only [h, Bool.not_true, Bool.false_eq_true, if_false]; rfl)

theorem svcKill_of_call {s : State} {u slot : Nat} {ls : Mask} {pc : DWord} {d1 : Dev}
    (hp : (skeinOf s.dev u).park = some (.svc slot ls pc)) (hk : killOne s.mgmt s.dev u = .ok d1) : Goes (.svcKill u) s d1 :=
  goes_run (exec_svcKill u s) (by simp only [hp, hk])

/-- Settles O20: each clause is the lemma of its event and outcome. -/
theorem kills : Obligations.Kills := by
  refine ⟨?records, ?events⟩
  case records =>
    intro s id r hr m d
    refine ⟨fun u d1 => killSkein_of_present hr, fun i d1 => killLaunch_of_launch hr, fun d1 => killLaunch_of_watchdog hr,
      fun d1 => killContext_goes hr, fun i hu hl hc hi => ?_⟩
    subst hi
    exact ⟨killSkein_of_none hr hu, killLaunch_of_none hr hl hc⟩
  case events =>
    intro s
    exact ⟨fun ctx => ⟨watchdogExpiry_of_running, watchdogExpiry_of_stalled⟩, fun u slot ls pc d1 => svcKill_of_call⟩

end Sys2Proof.Machine
end

section
/-!
PROOFS. The delivery of a fault record (R341, R446): it is written to its ring, waits for HEAD, or is lost.
-/

namespace Sys2Proof.Machine

theorem exec_faultRecord (id : Nat) (s : State) : exec (.faultRecord id) s = execFaultRecord id s := rfl

/-- The locked lines of the skein that a record stops, out of its L1 (R341). -/
def recordLinesOut (m : Mgmt) (d : Dev) (r : Rec) : MemM Dev :=
  match r.skein with
  | some u => dropLocked m d u
  | none => .ok d

theorem exec_faultRecord_of_found {s : State} {id : Nat} {r : Rec} (hr : rec? s.dev id = some r) (hs : r.slot = none) :
    exec (.faultRecord id) s = s.run fun m d =>
      if r.lost || (d.records.find? fun q => q.ctx == r.ctx && unwritten q).map (fun q => q.id) != some id then d
      else
        match needOnly d (recordLinesOut m d r) with
        | .error w => defer d w (.faultRecord id)
        | .ok d1 => writeRec m d1 r := by
  rw [exec_faultRecord, execFaultRecord, State.run]
  simp only [hr, hs]
  rfl

/-- The first unwritten record of its context is written once its skein's lines are out. -/
theorem faultRecord_writes {s : State} {id : Nat} {r : Rec} {d0 : Dev} (hr : rec? s.dev id = some r) (hs : r.slot = none)
    (hl : r.lost = false)
    (hfirst : (s.dev.records.find? fun q => q.ctx == r.ctx && unwritten q).map (fun q => q.id) = some id)
    (h0 : recordLinesOut s.mgmt s.dev r = .ok d0) : Goes (.faultRecord id) s (writeRec s.mgmt d0 r) := by
  refine goes_run (exec_faultRecord_of_found hr hs) ?_
  simp only [hl, hfirst, h0, bne_self_eq_false, Bool.or_self, Bool.false_eq_true, if_false]
  rfl

/-! ## What writing a record comes to -/

/-- Whether a handler is to take a record (R447). -/
def handlerTakes (m : Mgmt) (d : Dev) (r : Rec) : Bool :=
  !r.byHandler && r.cause != .allExternal &&
    match hrec m d r.ctx with
    | .ok x => startsHandler x
    | _ => false

/-- The device with a record in its slot, its vector raised unless a handler takes it, and looked at. -/
def recordPlaced (m : Mgmt) (d : Dev) (r : Rec) (tail : Nat) (hand : Bool) : Dev :=
  let r1 := { r with
    slot := some tail
    hand := hand }
  let d1 := modRec d r.id fun _ => r1
  lookAt m (nextRec (if hand then d1 else faultVector d1 r.ctx) r.ctx) r1 tail

theorem handlerTakes_of_code {m : Mgmt} {d : Dev} {r : Rec} {x : Nat} (hb : r.byHandler = false) (hc : r.cause ≠ .allExternal)
    (hx : hrec m d r.ctx = .ok x) (hs : startsHandler x = true) : handlerTakes m d r = true := by
  simp [handlerTakes, hb, hc, hx, hs]

/-- No handler takes a handler's own record, ALL-EXTERNAL, or one of a context whose HREC names none. -/
theorem handlerTakes_eq_false {m : Mgmt} {d : Dev} {r : Rec} (h : r.byHandler = true ∨ r.cause = .allExternal ∨
    ∀ x, hrec m d r.ctx = .ok x → startsHandler x = false) : handlerTakes m d r = false := by
  rw [handlerTakes]
  rcases h with hb | hc | hx
  · simp [hb]
  · simp [hc]
  · cases hh : hrec m d r.ctx with
    | ok x => simp [hx x hh]
    | bad e => simp
    | wait w => simp

section
variable {m : Mgmt} {d : Dev} {r : Rec}

theorem writeRec_of_no_ring (hq : ringLog (ctxOf m r.ctx).faultq = 0) : writeRec m d r = loseRec d r := if_pos hq

theorem loseRec_of_allExternal (hc : r.cause = .allExternal) : loseRec d r =
    nextRec (dropRec (interrupt (dropWaiter d (.resp r.id)) 1152) r.id) r.ctx := by
  simp [loseRec, hc]

theorem loseRec_of_fault (hc : r.cause ≠ .allExternal) : loseRec d r =
    nextRec (postKill (modRec (interrupt (dropWaiter d (.resp r.id)) 1152) r.id fun r => { r with lost := true }) r.id 6) r.ctx := by
  simp [loseRec, hc]

variable (hq : ringLog (ctxOf m r.ctx).faultq ≠ 0)
include hq

theorem writeRec_of_unread_ring {e : DistErr} (he : ringRoom m d r.ctx (ctxOf m r.ctx).faultq = .bad e) :
    writeRec m d r = loseRec d r := by
  simp only [writeRec, hq, he, if_false]

variable {tail room : Nat} (hroom : ringRoom m d r.ctx (ctxOf m r.ctx).faultq = .ok (tail, room))
include hroom

theorem writeRec_of_full (hf : room < 1 + r.more.length) : writeRec m d r =
    waitAt m (dropWaiter d (.resp r.id)) r.ctx (ringBase (ctxOf m r.ctx).faultq) (.resp r.id) := by
  simp only [writeRec, hq, hroom, hf, if_false, if_true]

variable (hf : 1 + r.more.length ≤ room)
include hf

theorem writeRec_of_unwritten {e : DistErr} (hp : ringPut m (dropWaiter d (.resp r.id)) r.ctx (ctxOf m r.ctx).faultq tail
    (recordWord r :: r.more) = .bad e) : writeRec m d r = loseRec d r := by
  simp only [writeRec, hq, hroom, Nat.not_lt.2 hf, hp, if_false]

variable {d1 : Dev} (hp : ringPut m (dropWaiter d (.resp r.id)) r.ctx (ctxOf m r.ctx).faultq tail (recordWord r :: r.more) = .ok d1)
include hp

theorem writeRec_of_room : writeRec m d r = recordPlaced m d1 r tail (handlerTakes m d1 r) := by
  simp only [writeRec, hq, hroom, Nat.not_lt.2 hf, hp, if_false]
  rfl

end

/-- Settles O21: the record's skein's lines are out, and each outcome of writing the record is its lemma. -/
theorem recordDelivery : Obligations.RecordDelivery := by
  intro s id r hr hs hl hfirst d0 h0 q told isLost
  have hw := faultRecord_writes hr hs hl hfirst h0
  have hlost : writeRec s.mgmt d0 r = loseRec d0 r → isLost := fun he =>
    ⟨fun hc => hw.congr (he.trans (loseRec_of_allExternal hc)), fun hc => hw.congr (he.trans (loseRec_of_fault hc))⟩
  refine ⟨fun hq => hlost (writeRec_of_no_ring hq), fun e hq he => hlost (writeRec_of_unread_ring hq he), ?ring⟩
  case ring =>
    intro tail room hq hroom
    refine ⟨fun hf => hw.congr (writeRec_of_full hq hroom hf), fun e hf hp => hlost (writeRec_of_unwritten hq hroom hf hp),
      fun d1 hf hp => ?_⟩
    have hroom := hw.congr (writeRec_of_room hq hroom hf hp)
    exact ⟨fun x hb hc hx hh => by rw [handlerTakes_of_code hb hc hx hh] at hroom; exact hroom,
      fun h => by rw [handlerTakes_eq_false h] at hroom; exact hroom⟩

end Sys2Proof.Machine
end

section
/-!
PROOFS. Pre-emption, save areas and retirement (R341, R452 to R454, R460): what a saved skein keeps, and what each event comes to.
-/

namespace Sys2Proof.Machine

theorem exec_preemptComplete (u : Nat) (s : State) : exec (.preemptComplete u) s = execPreemptComplete u s := rfl
theorem exec_groupSave (gid : Nat) (s : State) : exec (.groupSave gid) s = execGroupSave gid s := rfl
theorem exec_groupRetire (gid : Nat) (s : State) : exec (.groupRetire gid) s = execGroupRetire gid s := rfl

/-! ## Results written leave a skein's threads where they are -/

/-- A change of a thread that keeps a view of every thread keeps that view of the skein's. -/
theorem threadOf_modThread_view {γ : Type} (v : Thread → γ) {f : Thread → Thread} (hv : ∀ t, v (f t) = v t) (k : Skein)
    (l j : Nat) :
    v (threadOf (modThread k l f) j) = v (threadOf k j) := by
  by_cases hl : l < 32
  · rw [modThread, threadOf_setThread k l j _ hl]
    split
    · next h => rw [hv, h]
    · rfl
  · have : modThread k l f = k := by
      rw [modThread, setThread_eq, Vector.setIfInBounds_eq_of_size_le (Nat.not_lt.1 hl)]
    rw [this]

/-- What names a skein, its locks, and where its threads and their regions stand. -/
def stance (k : Skein) : Nat × Nat × List HeldLock × (Nat → DWord × Option Region) :=
  (k.uid, k.gid, k.locks, fun l => ((threadOf k l).pc, (threadOf k l).region))

theorem stance_modThread {f : Thread → Thread} (hf : ∀ t, ((f t).pc, (f t).region) = (t.pc, t.region)) (k : Skein) (l : Nat) :
    stance (modThread k l f) = stance k := by
  have hth : (fun j => ((threadOf (modThread k l f) j).pc, (threadOf (modThread k l f) j).region)) =
      fun j => ((threadOf k j).pc, (threadOf k j).region) :=
    funext fun j => threadOf_modThread_view (fun t => (t.pc, t.region)) hf k l j
  rw [stance, hth]
  rfl

theorem stance_applyWrite (k : Skein) (w : PWrite) : stance (applyWrite k w) = stance k := by
  cases w with
  | v l r x => exact stance_modThread (f := fun t => { t with v := t.v.setIfInBounds r x }) (fun _ => rfl) k l
  | p l i b => exact stance_modThread (f := fun t => { t with p := setBit8 t.p i b }) (fun _ => rfl) k l
  | s | c | t => rfl

/-- Writing every result in flight, in program order. -/
theorem stance_drainPend (k : Skein) (ps : List Pend) : stance (drainPend { k with pend := ps }) = stance k :=
  (foldl_keeps stance (fun k p => foldl_keeps stance stance_applyWrite p.ws k) ps { k with pend := ps } :)

/-! ## A saved skein (R452, R453) -/

/-- A skein with uniform registers and accumulators replaced under a condition. -/
theorem exists_of_ite (c : Bool) (k : Skein) (s : Vector Word 120) (acc : Table (BitVec 32768)) : ∃ s' acc',
    (if c then { k with
      s := s
      acc := acc } else k) = { k with
      s := s'
      acc := acc' } := by
  cases c
  · exact ⟨_, _, rfl⟩
  · exact ⟨_, _, rfl⟩

/-- A saved skein is the drained one with its restarting threads at their region entries, and not resident. -/
theorem savedSkein_eq (d : Dev) (k : Skein) (n : Nat) : ∃ ps f s acc park q,
    savedSkein d k n = { modThreads (drainPend { k with pend := ps }) ((List.range 32).filter (restarts k)) f with
      s := s
      acc := acc
      resident := false
      preempt := false
      marker := false
      runAhead := []
      rot := 0
      park := park
      q := q } ∧
    ∀ l t r, t.region = some r → (f l t).pc = r.entry := by
  generalize ht : savedSkein d k n = t
  unfold savedSkein at ht
  extract_lets back live all keep k1 regions ns acc base thread k2 k3 park status q at ht
  obtain ⟨s', acc', h3⟩ : ∃ s' acc', k3 = { k2 with
      s := s'
      acc := acc' } := exists_of_ite _ _ _ _
  refine ⟨_, thread, s', acc', park, k3.q.map q, ht.symm.trans (by rw [h3]), fun l t r hr => ?_⟩
  simp only [thread, hr]
theorem savedSkein_keeps (d : Dev) (k : Skein) (n : Nat) :
    (savedSkein d k n).resident = false ∧ (savedSkein d k n).preempt = false ∧ (savedSkein d k n).pend = [] ∧
    (savedSkein d k n).runAhead = [] ∧ (savedSkein d k n).uid = k.uid ∧ (savedSkein d k n).gid = k.gid ∧
    (savedSkein d k n).locks = k.locks ∧
    ∀ l, l < 32 → (restarts k l = false → (threadOf (savedSkein d k n) l).pc = (threadOf k l).pc) ∧
      ∀ r, restarts k l = true → (threadOf k l).region = some r → (threadOf (savedSkein d k n) l).pc = r.entry := by
  obtain ⟨ps, f, s, acc, park, q, he, hf⟩ := savedSkein_eq d k n
  have hst := stance_drainPend k ps
  obtain ⟨huid, hrest⟩ := Prod.ext_iff.1 hst
  obtain ⟨hgid, hrest⟩ := Prod.ext_iff.1 hrest
  obtain ⟨hlocks, hthreads⟩ := Prod.ext_iff.1 hrest
  have hpend : (drainPend { k with pend := ps }).pend = [] := rfl
  have hth : ∀ l, l < 32 → threadOf (savedSkein d k n) l =
      if restarts k l = true then f l (threadOf (drainPend { k with pend := ps }) l)
      else threadOf (drainPend { k with pend := ps }) l := by
    intro l hl
    rw [he]
    show threadOf (modThreads _ _ _) l = _
    rw [threadOf_modThreads f l _ _ (List.nodup_range.filter _) fun j hj => by simpa using (List.mem_filter.1 hj).1]
    simp [hl]
  have hfr := modThreads_frame ((List.range 32).filter (restarts k)) f (drainPend { k with pend := ps })
  rw [hfr] at he
  refine ⟨by rw [he], by rw [he], by rw [he]; exact hpend, by rw [he], by rw [he]; exact huid, by rw [he]; exact hgid,
    by rw [he]; exact hlocks, fun l hl => ?_⟩
  obtain ⟨hpc, hreg⟩ := Prod.ext_iff.1 (congrFun hthreads l)
  dsimp only [stance] at hpc hreg
  refine ⟨fun hno => by rw [hth l hl, if_neg (by simp [hno]), hpc], fun r hyes hr => ?_⟩
  rw [hth l hl, if_pos hyes, hf l _ r (hreg.trans hr)]

/-! ## PREEMPT_COMPLETE -/

section
variable {s : State} {u : Nat}

theorem preemptComplete_of_idle (h : (skeinOf s.dev u).preempt = false ∨ (skeinOf s.dev u).resident = false) :
    Goes (.preemptComplete u) s s.dev :=
  goes_run (exec_preemptComplete u s) (by rcases h with h | h <;> simp [h])

variable (hp : (skeinOf s.dev u).preempt = true) (hr : (skeinOf s.dev u).resident = true)
include hp hr

theorem preemptComplete_of_draining (hd : drains (skeinOf s.dev u) = true) : Goes (.preemptComplete u) s
    (postAfter s.dev (.die (groupOf s.dev (skeinOf s.dev u).gid).die) 1 (.preemptComplete u)) :=
  goes_run (exec_preemptComplete u s) (by simp [hp, hr, hd])

theorem preemptComplete_of_drained {d1 : Dev} (hd : drains (skeinOf s.dev u) = false)
    (hl : dropLocked s.mgmt (givenUp s.dev u) u = .ok d1) : Goes (.preemptComplete u) s (putAway s.mgmt d1 u) :=
  goes_run (exec_preemptComplete u s) (by simp [hp, hr, hd, hl])

end

/-! ## GROUP_SAVE and GROUP_RETIRE -/

section
variable {s : State} {gid : Nat}

theorem groupSave_of_none (h : group? s.dev gid = none) : Goes (.groupSave gid) s s.dev :=
  goes_run (exec_groupSave gid s) (by simp only [h])

theorem groupRetire_of_none (h : group? s.dev gid = none) : Goes (.groupRetire gid) s s.dev :=
  goes_run (exec_groupRetire gid s) (by simp only [h])

variable {g : Group} (hg : group? s.dev gid = some g)
include hg

theorem groupSave_of_unready (h : g.saveReq = false ∨ g.resident = false ∨ hasCommands s.dev gid = true ∨
    ∃ k ∈ skeinsOf s.dev gid, k.resident = true) : Goes (.groupSave gid) s s.dev := by
  refine goes_run (exec_groupSave gid s) ?_
  simp only [hg]
  refine if_pos ?_
  rcases h with h | h | h | h
  · simp [h]
  · simp [h]
  · simp [h]
  · rw [List.any_eq_true.2 h, Bool.or_true]

theorem groupSave_of_ready {d0 d1 : Dev} (hs : g.saveReq = true) (hr : g.resident = true) (hc : hasCommands s.dev gid = false)
    (hk : ∀ k ∈ skeinsOf s.dev gid, k.resident = false) (h0 : giveUpLines s.mgmt s.dev gid = .ok d0)
    (h1 : releaseAt s.mgmt d0 g.ctx (spindleNo g) 4 = .ok d1) : Goes (.groupSave gid) s
      (retryDispatch s.mgmt (modGroup (writeArea d1 g.saveAt (groupArea g)) gid fun g => { g with
        resident := false
        saveReq := false })) := by
  have hany : ((skeinsOf s.dev gid).any fun k => k.resident) = false :=
    List.any_eq_false.2 fun k hm => Bool.eq_false_iff.1 (hk k hm)
  have hrel : ((giveUpLines s.mgmt s.dev gid).bind fun d0 => releaseAt s.mgmt d0 g.ctx (spindleNo g) 4) = .ok d1 := by
    rw [h0]; exact h1
  refine goes_run (exec_groupSave gid s) ?_
  simp only [hg, hs, hr, hc, hany, hrel, Bool.not_true, Bool.or_self, Bool.false_eq_true, if_false]

theorem groupRetire_of_unready (h : (∃ k ∈ skeinsOf s.dev gid, allExited k = false) ∨ hasCommands s.dev gid = true) :
    Goes (.groupRetire gid) s s.dev := by
  refine goes_run (exec_groupRetire gid s) ?_
  simp only [hg]
  refine if_pos ?_
  rcases h with h | h
  · rw [List.all_eq_false.2 (by simpa using h), Bool.not_false, Bool.true_or]
  · rw [h, Bool.or_true]

theorem groupRetire_of_ready {d1 : Dev} (hk : ∀ k ∈ skeinsOf s.dev gid, allExited k = true) (hc : hasCommands s.dev gid = false)
    (h1 : retireGroup s.mgmt s.dev g = .ok d1) : Goes (.groupRetire gid) s d1 := by
  refine goes_run (exec_groupRetire gid s) ?_
  simp only [hg, List.all_eq_true.2 hk, hc, h1, Bool.not_true, Bool.or_self, Bool.false_eq_true, if_false]

end

@[simp] theorem needOnly_ok (d d1 : Dev) : needOnly d (.ok d1) = .ok d1 := rfl

/-- The steps of R460, each come through, of a group that no kill has ended and whose context is not deterministic. -/
theorem retireGroup_of_steps {m : Mgmt} {d d1 d2 d3 d4 : Dev} {g : Group} (hk : g.killed = false) (hdet : isDet m g.ctx = false)
    (h1 : releaseAt m d g.ctx (spindleNo g) 4 = .ok d1) (h2 : eventWord m d1 g = .ok d2) (h3 : countRetired m d2 g = .ok d3)
    (h4 : (skeinsOf d3 g.gid).foldlM (fun d k => needOnly d (unlockAll m d k.uid)) d3 = .ok d4) :
    retireGroup m d g = afterGroup m (reportRetired m (removeGroup d4 g.gid) g) g := by
  simp [retireGroup, hk, hdet, h1, h2, h3, h4]

/-- Settles O46: what a saved skein keeps, and each event's outcomes. -/
theorem savingAndRetiring : Obligations.SavingAndRetiring := by
  intro s m d
  refine ⟨fun u => ⟨preemptComplete_of_idle, preemptComplete_of_draining, fun d1 hp hr => preemptComplete_of_drained hp hr⟩,
    savedSkein_keeps d, fun gid => ⟨fun h => ⟨groupSave_of_none h, groupRetire_of_none h⟩, fun g hg => ?_⟩,
    fun g d1 d2 d3 d4 => retireGroup_of_steps⟩
  exact ⟨groupSave_of_unready hg, fun d0 d1 => groupSave_of_ready hg, groupRetire_of_unready hg, fun d1 => groupRetire_of_ready hg⟩

end Sys2Proof.Machine
end

section
/-!
PROOFS. Host snoops (R319, R320, R364), CXL.mem requests (R322, R325), the host's answers (R319, R323) and peers (R316, R326): what each
event comes to.
-/

namespace Sys2Proof.Machine

theorem exec_snpdata (half : Nat) (s : State) : exec (.snpdata half) s = execSnpdata half s := rfl
theorem exec_snpinv (half : Nat) (s : State) : exec (.snpinv half) s = execSnpinv half s := rfl
theorem exec_snpcur (half : Nat) (s : State) : exec (.snpcur half) s = execSnpcur half s := rfl
theorem exec_hostMemRead (half : Nat) (keep : HostKeep) (s : State) :
    exec (.hostMemRead half keep) s = execHostMemRead half keep s := rfl
theorem exec_hostMemWrite (half : Nat) (data : BitVec 512) (keep : HostKeep) (s : State) :
    exec (.hostMemWrite half data keep) s = execHostMemWrite half data keep s := rfl
theorem exec_hostLineGrant (half : Nat) (req : HostReq) (excl : Bool) (data : BitVec 512) (s : State) :
    exec (.hostLineGrant half req excl data) s = execHostLineGrant half req excl data s := rfl
theorem exec_bisnpResponse (half : Nat) (data : BitVec 512) (s : State) :
    exec (.bisnpResponse half data) s = execBisnpResponse half data s := rfl
theorem exec_peerMemWrite (pa : Nat) (bytes : List Byte) (s : State) :
    exec (.peerMemWrite pa bytes) s = execPeerMemWrite pa bytes s := rfl
theorem exec_peerMemRead (pa n : Nat) (s : State) : exec (.peerMemRead pa n) s = execPeerMemRead pa n s := rfl
theorem exec_peerAtomicIn (op : PeerOp) (wide : Bool) (pa : Nat) (x y : DWord) (s : State) :
    exec (.peerAtomicIn op wide pa x y) s = execPeerAtomicIn op wide pa x y s := rfl

/-- An event whose accesses come through is what follows them. -/
theorem memEvent_map_ok {d d1 : Dev} {ev : Instr} {r : MemM Dev} (f : Dev → Dev) (hr : r = .ok d1) :
    memEvent d ev (r.map f) = f d1 := by
  rw [hr]; rfl

/-! ## Snoops (R320) -/

section
variable {m : Mgmt} {d d1 : Dev} {half : Nat} {ev : Instr} {f : Half → Dev → Dev} {done : Dev → Dev}

/-- A half that no engine and no lock holds, and whose line's L1 copies have been invalidated. -/
structure Snooped (m : Mgmt) (d : Dev) (half : Nat) (d1 : Dev) : Prop where
  unowned : engineOwns d (half / 2) = false
  unlocked : lockHolds d (half / 2) = false
  alone : invalidateOthers m 0 d none (half / 2) = .ok d1

theorem snoop_of_absent (hs : Snooped m d half d1) (hh : tget? d1.halves half = none) : snoop m d half ev f done = done d1 := by
  simp only [snoop, hs.unowned, hs.unlocked, Bool.or_self, Bool.false_eq_true, if_false]
  rw [memEvent_map_ok _ hs.alone]
  simp only [hh]

theorem snoop_of_held {h : Half} (hs : Snooped m d half d1) (hh : tget? d1.halves half = some h) :
    snoop m d half ev f done = done (f h d1) := by
  simp only [snoop, hs.unowned, hs.unlocked, Bool.or_self, Bool.false_eq_true, if_false]
  rw [memEvent_map_ok _ hs.alone]
  simp only [hh]

end

section
variable {s : State} {half : Nat} {d1 : Dev} (hs : Snooped s.mgmt s.dev half d1)
include hs

theorem snpdata_of_absent (hh : tget? d1.halves half = none) : Goes (.snpdata half) s d1 :=
  goes_run (exec_snpdata half s) (snoop_of_absent hs hh)
theorem snpcur_of_absent (hh : tget? d1.halves half = none) : Goes (.snpcur half) s d1 :=
  goes_run (exec_snpcur half s) (snoop_of_absent hs hh)
theorem snpinv_of_absent (hh : tget? d1.halves half = none) : Goes (.snpinv half) s (wakeLine d1 (half / 2)) :=
  goes_run (exec_snpinv half s) (snoop_of_absent hs hh)

variable {h : Half} (hh : tget? d1.halves half = some h)
include hh

theorem snpdata_of_modified (hst : h.st = .m) :
    Goes (.snpdata half) s (setHalf (sendHalf h d1) half { h with st := .s }) :=
  (goes_run (exec_snpdata half s) (snoop_of_held hs hh)).congr (by simp only [hst])
theorem snpdata_of_exclusive (hst : h.st = .e) : Goes (.snpdata half) s (setHalf d1 half { h with st := .s }) :=
  (goes_run (exec_snpdata half s) (snoop_of_held hs hh)).congr (by simp only [hst])
theorem snpdata_of_shared (hst : h.st = .s) : Goes (.snpdata half) s d1 :=
  (goes_run (exec_snpdata half s) (snoop_of_held hs hh)).congr (by simp only [hst])

theorem snpcur_of_valid (hst : h.st ≠ .i) : Goes (.snpcur half) s (sendHalf h d1) :=
  (goes_run (exec_snpcur half s) (snoop_of_held hs hh)).congr (by simp [hst])

theorem snpinv_of_modified (hst : h.st = .m) : Goes (.snpinv half) s
    (wakeLine { sendHalf h d1 with halves := tdel (sendHalf h d1).halves half } (half / 2)) :=
  (goes_run (exec_snpinv half s) (snoop_of_held hs hh)).congr (by simp [hst])
theorem snpinv_of_unmodified (hst : h.st ≠ .m) : Goes (.snpinv half) s
    (wakeLine { d1 with halves := tdel d1.halves half } (half / 2)) :=
  (goes_run (exec_snpinv half s) (snoop_of_held hs hh)).congr (by simp [hst])

end

/-! ## CXL.mem (R322, R325) -/

section
variable {s : State} {half : Nat} {data : BitVec 512} {keep : HostKeep}

theorem hostMem_before_fullFn (hst : s.dev.stage ≠ 2) :
    Goes (.hostMemRead half keep) s (answer { s.dev with linkErr := s.dev.linkErr + 1 } []) ∧
      Goes (.hostMemWrite half data keep) s { s.dev with linkErr := s.dev.linkErr + 1 } := by
  have hf : fullFn s.dev = false := by simp [fullFn, hst]
  exact ⟨goes_run (exec_hostMemRead half keep s) (by rw [hf]; rfl), goes_run (exec_hostMemWrite half data keep s) (by rw [hf]; rfl)⟩

variable (hst : s.dev.stage = 2)
include hst

theorem hostMem_of_absent (hp : present s.dev (half / 2) = false) :
    Goes (.hostMemRead half keep) s (answer s.dev []) ∧ Goes (.hostMemWrite half data keep) s s.dev := by
  have hf : fullFn s.dev = true := by simp [fullFn, hst]
  exact ⟨goes_run (exec_hostMemRead half keep s) (by simp [hf, hp]), goes_run (exec_hostMemWrite half data keep s) (by simp [hf, hp])⟩

theorem hostMemRead_of_present {d1 : Dev} (hp : present s.dev (half / 2) = true) (he : engineOwns s.dev (half / 2) = false)
    (hr : (if keep = .owned then invalidateOthers s.mgmt 0 (wakeSlice s.dev (half / 2)) none (half / 2)
      else recallOwner s.mgmt 0 (wakeSlice s.dev (half / 2)) none (half / 2)) = .ok d1) :
    Goes (.hostMemRead half keep) s (answer (setHostState d1 half keep)
      (if badForm (formOf (setHostState d1 half keep) (half / 2)) then []
        else natBytes (halfData (memLine (setHostState d1 half keep) (half / 2)) (half % 2 == 1)).toNat 64)) := by
  have hf : fullFn s.dev = true := by simp [fullFn, hst]
  refine goes_run (exec_hostMemRead half keep s) ?_
  simp only [hf, hp, he, Bool.not_true, Bool.false_eq_true, if_false]
  exact memEvent_map_ok _ hr

theorem hostMemWrite_of_present {d1 : Dev} (hp : present s.dev (half / 2) = true)
    (hw : writeSlice s.mgmt 0 (wakeSlice { s.dev with hostState := tdel s.dev.hostState half } (half / 2)) none (half / 2)
      (halfMask half) (putHalf 0 (half % 2 == 1) data) false = .ok d1) :
    Goes (.hostMemWrite half data keep) s (setHostState d1 half keep) := by
  have hf : fullFn s.dev = true := by simp [fullFn, hst]
  refine goes_run (exec_hostMemWrite half data keep s) ?_
  simp only [hf, hp, Bool.not_true, Bool.false_eq_true, if_false]
  exact memEvent_map_ok _ hw

end

/-! ## Grants (R319) -/

/-- A half that is not listed. -/
def noHalf : Half := { st := .i, data := 0, poison := false, curr := none }

/-- The half that a grant leaves. -/
def grantedHalf (old : Half) (req : HostReq) (excl : Bool) (data : BitVec 512) : Half :=
  match req with
  | .rdShared =>
    if old.st == .e || old.st == .m then old else { st := if excl then .e else .s, data := data, poison := false, curr := none }
  | .rdOwn => if old.st == .e || old.st == .m then old else { st := .e, data := data, poison := false, curr := none }
  | .rdCurr => if old.st == .i then { old with curr := some data } else old

theorem grantedHalf_of_owned {old : Half} (req : HostReq) (excl : Bool) (data : BitVec 512) (h : old.st = .e ∨ old.st = .m) :
    grantedHalf old req excl data = old := by
  rcases h with h | h <;> cases req <;> simp [grantedHalf, h]

theorem grantedHalf_rdShared {old : Half} (excl : Bool) (data : BitVec 512) (he : old.st ≠ .e) (hm : old.st ≠ .m) :
    grantedHalf old .rdShared excl data = { st := if excl then .e else .s, data := data, poison := false, curr := none } := by
  simp [grantedHalf, he, hm]

theorem grantedHalf_rdOwn {old : Half} (excl : Bool) (data : BitVec 512) (he : old.st ≠ .e) (hm : old.st ≠ .m) :
    grantedHalf old .rdOwn excl data = { st := .e, data := data, poison := false, curr := none } := by
  simp [grantedHalf, he, hm]

theorem grantedHalf_rdCurr (old : Half) (excl : Bool) (data : BitVec 512) : grantedHalf old .rdCurr excl data =
    if old.st = .i then { old with curr := some data } else old := by
  simp [grantedHalf]

/-- The device whose slice has made way for a granted half. -/
def madeWay (d : Dev) (half : Nat) (req : HostReq) : Dev :=
  match req, halfVictim d half with
  | .rdCurr, _ => d
  | _, some v => evictHalf d v
  | _, none => d

/-- A half given up leaves memory and the requests as they were. -/
theorem evictHalf_spec (d : Dev) (v : Nat) : (evictHalf d v).mem = d.mem ∧ (evictHalf d v).hostReqs = d.hostReqs ∧
    ∀ x, tget? (evictHalf d v).halves x = tget? d.halves x ∨ tget? (evictHalf d v).halves x = none := by
  have hdel : ∀ x, tget? (tdel d.halves v) x = tget? d.halves x ∨ tget? (tdel d.halves v) x = none := by
    intro x
    rw [tget_tdel]
    split
    · exact .inr rfl
    · exact .inl rfl
  unfold evictHalf
  split
  · dsimp only
    split
    · exact ⟨rfl, rfl, hdel⟩
    · split
      · exact ⟨rfl, rfl, hdel⟩
      · exact ⟨rfl, rfl, hdel⟩
  · exact ⟨rfl, rfl, fun x => .inl rfl⟩

theorem madeWay_spec (d : Dev) (half : Nat) (req : HostReq) : (madeWay d half req).mem = d.mem ∧
    (madeWay d half req).hostReqs = d.hostReqs ∧ ∀ x, tget? (madeWay d half req).halves x = tget? d.halves x ∨
      (req ≠ .rdCurr ∧ tget? (madeWay d half req).halves x = none) := by
  unfold madeWay
  split
  · exact ⟨rfl, rfl, fun x => .inl rfl⟩
  · next v hreq _ =>
    obtain ⟨hm, hq, hx⟩ := evictHalf_spec d v
    exact ⟨hm, hq, fun x => (hx x).imp_right fun h => ⟨hreq, h⟩⟩
  · exact ⟨rfl, rfl, fun x => .inl rfl⟩

/-- The device with a half granted, before what waits for it goes on. -/
def grantedDev (d : Dev) (half : Nat) (req : HostReq) (excl : Bool) (data : BitVec 512) : Dev :=
  setHalf { madeWay d half req with
    hostReqs := (madeWay d half req).hostReqs.filter fun q => q != (half, req)
    gatedSlices := (madeWay d half req).gatedSlices.filter fun x => x != portSlice half } half
    (grantedHalf ((tget? d.halves half).getD noHalf) req excl data)

section
variable {s : State} {half : Nat} {req : HostReq} {excl : Bool} {data : BitVec 512}

theorem hostLineGrant_of_unasked (h : (half, req) ∉ s.dev.hostReqs) : Goes (.hostLineGrant half req excl data) s s.dev := by
  refine goes_run (exec_hostLineGrant half req excl data s) (if_pos ?_)
  simpa using h

theorem hostLineGrant_of_asked (h : (half, req) ∈ s.dev.hostReqs) : Goes (.hostLineGrant half req excl data) s
    (resumeHalf (grantedDev s.dev half req excl data) half) := by
  refine goes_run (exec_hostLineGrant half req excl data s) ((if_neg ?_).trans rfl)
  simpa using h

theorem resumeHalf_granted : ∃ sk df ag, resumeHalf (grantedDev s.dev half req excl data) half =
    { grantedDev s.dev half req excl data with skeins := sk, deferred := df, agenda := ag } :=
  foldl_resumeHalf_spec [half] _

end

/-! ## Answers to snoops of the device (R322, R323) -/

section
variable {s : State} {half : Nat} {data : BitVec 512}

theorem bisnpResponse_of_none (h : ∀ q ∈ s.dev.snoops, q.1 ≠ half) : Goes (.bisnpResponse half data) s s.dev := by
  have hn : (s.dev.snoops.find? fun q => q.1 == half) = none := List.find?_eq_none.2 fun q hq => by simpa using h q hq
  exact goes_run (exec_bisnpResponse half data s) (by simp only [hn])

theorem bisnpResponse_of_snoop {q : Nat} {inv : Bool} (h : s.dev.snoops.find? (fun q => q.1 == half) = some (q, inv)) :
    let d0 := { s.dev with snoops := s.dev.snoops.filter fun q => q.1 != half }
    let d1 := if tget? s.dev.hostState half = some .a then takeHostData s.mgmt d0 half data else d0
    Goes (.bisnpResponse half data) s (resumeHalf { d1 with
      hostState := if inv then tdel d1.hostState half else tset d1.hostState half .s } half) :=
  goes_run (exec_bisnpResponse half data s) (by simp only [h, beq_iff_eq])

end

/-! ## Peers (R316, R326) -/

section
variable {s : State} {pa n : Nat}

theorem peerMemWrite_of_unreached {bytes : List Byte} (h : peerMay s.dev pa bytes.length = false) :
    Goes (.peerMemWrite pa bytes) s s.dev :=
  goes_run (exec_peerMemWrite pa bytes s) (by simp [h])

theorem peerMemWrite_of_written {bytes : List Byte} {d1 : Dev} (h : peerMay s.dev pa bytes.length = true)
    (hw : peerWrite s.mgmt s.dev pa bytes = .ok d1) : Goes (.peerMemWrite pa bytes) s d1 :=
  goes_run (exec_peerMemWrite pa bytes s) (by simp [h, hw])

theorem peerMemRead_of_unreached (h : peerMay s.dev pa n = false) : Goes (.peerMemRead pa n) s (answer s.dev []) :=
  goes_run (exec_peerMemRead pa n s) (by simp [h])

theorem peerMemRead_of_read {o : List Byte} {d1 : Dev} (h : peerMay s.dev pa n = true)
    (hr : peerRead s.mgmt s.dev pa n = .ok (o, d1)) : Goes (.peerMemRead pa n) s (answer d1 o) :=
  goes_run (exec_peerMemRead pa n s) (by simp [h, hr])

variable {op : PeerOp} {wide : Bool} {x y : DWord}

theorem peerAtomicIn_of_unreached (h : peerMay s.dev pa (if wide then 8 else 4) = false ∨ pa % (if wide then 8 else 4) ≠ 0) :
    Goes (.peerAtomicIn op wide pa x y) s (answer s.dev []) := by
  refine goes_run (exec_peerAtomicIn op wide pa x y s) (if_pos ?_)
  rcases h with h | h
  · rw [h]; rfl
  · rw [bne_iff_ne.2 h, Bool.or_true]

theorem peerAtomicIn_of_done {o : List Byte} {d1 d2 : Dev} (h : peerMay s.dev pa (if wide then 8 else 4) = true)
    (ha : pa % (if wide then 8 else 4) = 0) (hr : peerRead s.mgmt s.dev pa (if wide then 8 else 4) = .ok (o, d1))
    (hw : peerWrite s.mgmt d1 pa (natBytes (peerNew op (bytesNat o) (x.toNat % 2 ^ (8 * if wide then 8 else 4))
      (y.toNat % 2 ^ (8 * if wide then 8 else 4))) (if wide then 8 else 4)) = .ok d2) :
    Goes (.peerAtomicIn op wide pa x y) s (answer d2 o) := by
  refine goes_run (exec_peerAtomicIn op wide pa x y s) ?_
  simp only [h, ha, hr, hw, Bool.not_true, bne_self_eq_false, Bool.or_self, Bool.false_eq_true, if_false]
  rfl

end

/-- Settles O48: each clause is the lemma of its event and outcome. -/
theorem hostAndPeers : Obligations.HostAndPeers := by
  intro s m d
  refine ⟨?snoops, ?invalidations, ?requests, ?grants, ?answers, ?peers⟩
  case snoops =>
    intro half d1 he hl h1
    have hs : Snooped m d half d1 := ⟨he, hl, h1⟩
    refine ⟨fun hh => ⟨snpdata_of_absent hs hh, snpcur_of_absent hs hh⟩, fun h hh => ⟨fun hm => ?_, fun hm => ?_, fun hm => ?_⟩⟩
    · exact ⟨snpdata_of_modified hs hh hm, snpcur_of_valid hs hh (by simp [hm])⟩
    · exact ⟨snpdata_of_exclusive hs hh hm, snpcur_of_valid hs hh (by simp [hm])⟩
    · exact ⟨snpdata_of_shared hs hh hm, snpcur_of_valid hs hh (by simp [hm])⟩
  case invalidations =>
    intro half d1 he hl h1
    have hs : Snooped m d half d1 := ⟨he, hl, h1⟩
    exact ⟨snpinv_of_absent hs, fun h hh => ⟨snpinv_of_modified hs hh, snpinv_of_unmodified hs hh⟩⟩
  case requests =>
    intro half data keep line kept
    exact ⟨hostMem_before_fullFn, hostMem_of_absent, fun d1 h2 hp he hr => hostMemRead_of_present h2 hp he hr,
      fun d1 h2 hp hw => hostMemWrite_of_present h2 hp hw⟩
  case grants =>
    intro half req excl data i
    refine ⟨hostLineGrant_of_unasked, fun hreq => ?_⟩
    intro old
    obtain ⟨sk, df, ag, he⟩ := resumeHalf_granted (s := s) (half := half) (req := req) (excl := excl) (data := data)
    obtain ⟨hmem, hreqs, hx⟩ := madeWay_spec d half req
    have hhalf : tget? (resumeHalf (grantedDev s.dev half req excl data) half).halves half =
        some (grantedHalf old req excl data) := by
      rw [he]; exact tget_tset_same _ _ _
    refine ⟨_, hostLineGrant_of_asked hreq, rfl, by rw [State.dev', he]; exact hmem, ?_, fun x hne => ?_, fun ho => ?_,
      fun h1 h2 hr => ?_, fun h1 h2 hr => ?_, fun hr => ?_⟩
    · rw [State.dev', he]
      show (half, req) ∉ List.filter _ _
      simp
    · have : tget? (resumeHalf (grantedDev s.dev half req excl data) half).halves x = tget? (madeWay d half req).halves x := by
        rw [he]; exact tget_tset_ne (Ne.symm hne)
      rw [State.dev', this]
      exact hx x
    · exact hhalf.trans (congrArg some (grantedHalf_of_owned req excl data ho))
    · subst hr; exact hhalf.trans (congrArg some (grantedHalf_rdShared excl data h1 h2))
    · subst hr; exact hhalf.trans (congrArg some (grantedHalf_rdOwn excl data h1 h2))
    · subst hr; exact hhalf.trans (congrArg some (grantedHalf_rdCurr old excl data))
  case answers =>
    intro half data i
    exact ⟨bisnpResponse_of_none, fun q inv h => bisnpResponse_of_snoop h⟩
  case peers =>
    intro pa n bytes op wide x y size
    exact ⟨peerMemWrite_of_unreached, fun d1 => peerMemWrite_of_written, peerMemRead_of_unreached, fun o d1 => peerMemRead_of_read,
      peerAtomicIn_of_unreached, fun o d1 d2 h ha hr hw => peerAtomicIn_of_done h ha hr hw⟩

end Sys2Proof.Machine
end

section
/-!
PROOFS. Resets (R206, R325, R475) and the start of the device (R465 to R470): what each of them leaves.
-/

namespace Sys2Proof.Machine

theorem exec_reset (s : State) : exec .reset s = .next (resetAll s) := rfl
theorem exec_criticalTemperature (die : Nat) (s : State) : exec (.criticalTemperature die) s = .next (resetAll s) := rfl
theorem exec_deviceStart (r : StartReport) (s : State) : exec (.deviceStart r) s = execDeviceStart r s := rfl

/-! ## Resets -/

/-- Asking for a half back with invalidation adds to the snoops only, and the half is among them. -/
theorem askFor_snoop_true (d : Dev) (h : Nat) : ∃ ss, askFor d (.snoop h true) = { d with snoops := ss } ∧ (h, true) ∈ ss := by
  rw [askFor]
  split
  next e he =>
    have h1 : (e.1 == h) = true := List.find?_some (p := fun s : Nat × Bool => s.1 == h) he
    refine ⟨_, rfl, List.mem_map.2 ⟨e, List.mem_of_find?_eq_some he, ?_⟩⟩
    simp [eq_of_beq h1]
  next => exact ⟨_, rfl, by simp⟩

/-- The event waits until the half that was asked back has come. -/
theorem defer_snoop_true (d : Dev) (h : Nat) (ev : Instr) : ∃ ss,
    defer d (.snoop h true) ev = { d with
      snoops := ss
      deferred := d.deferred ++ [(h, ev)] } ∧ (h, true) ∈ ss := by
  obtain ⟨ss, ha, hm⟩ := askFor_snoop_true d h
  exact ⟨ss, (show defer d (.snoop h true) ev = { askFor d (.snoop h true) with
      deferred := (askFor d (.snoop h true)).deferred ++ [(h, ev)] } from rfl).trans (by rw [ha]), hm⟩

/-- With nothing at the host the reset is complete. -/
theorem resetAll_of_none {s : State} (hh : s.dev.hostState = []) :
    resetAll s = { mgmt := resetMgmt, dev := { resetOf s.dev with
      snoops := []
      portUp := 0
      portPeer := 0 } } := by
  simp only [resetAll]
  have h1 : (resetOf s.dev).hostState = [] := hh
  rw [h1]

/-- The device in which a reset waits for the host's halves. -/
def resetPending (d : Dev) : Dev := { resetOf d with resetting := true }

/-- Else the first half the host holds is asked back, and the reset goes on when it has come (notes/assumptions/77). -/
theorem resetAll_of_held {s : State} {e : Nat × HostSt} {r : List (Nat × HostSt)} (hh : s.dev.hostState = e :: r) : ∃ ss,
    resetAll s = { mgmt := resetMgmt, dev := { resetPending s.dev with
      snoops := ss
      deferred := [(e.1, .reset)] } } ∧ (e.1, true) ∈ ss := by
  have h1 : (resetOf s.dev).hostState = e :: r := hh
  obtain ⟨ss, hd, hm⟩ := defer_snoop_true (resetPending s.dev) e.1 .reset
  refine ⟨ss, ?_, hm⟩
  simp only [resetAll]
  split
  next e' r' he =>
    obtain ⟨rfl, rfl⟩ := List.cons.inj (h1.symm.trans he)
    exact congrArg (State.mk resetMgmt) hd
  next he => exact absurd (h1.symm.trans he) (List.cons_ne_nil e r)

/-- What a reset leaves of the device besides the halves that the host holds. -/
theorem reset_leaves (s : State) :
    let t := resetAll s
    t.mgmt = resetMgmt ∧ t.dev.mem = s.dev.mem ∧ t.dev.tags = [] ∧ t.dev.forms = s.dev.forms ∧
      t.dev.nextImages = s.dev.nextImages ∧ t.dev.startLog = s.dev.startLog ∧ t.dev.startNo = s.dev.startNo ∧
      t.dev.skeins = [] ∧ t.dev.groups = [] ∧ t.dev.launches = [] ∧ t.dev.l1 = [] ∧ t.dev.tlb = [] ∧ t.dev.halves = [] ∧
      t.dev.stage = 0 ∧ t.dev.records = [] ∧ t.dev.agenda = [] ∧
      t.dev.linkErr = (if s.dev.resetting then s.dev.linkErr else 0) ∧
      t.dev.outbox = s.dev.outbox ++
        (s.dev.halves.filter fun e => e.2.st == .m && !e.2.poison).map (fun e => Msg.dirtyEvict e.1 e.2.data) := by
  cases hh : s.dev.hostState with
  | nil =>
    rw [resetAll_of_none hh]
    exact ⟨rfl, rfl, rfl, rfl, rfl, rfl, rfl, rfl, rfl, rfl, rfl, rfl, rfl, rfl, rfl, rfl, rfl, rfl⟩
  | cons e r =>
    obtain ⟨ss, ht, -⟩ := resetAll_of_held hh
    rw [ht]
    exact ⟨rfl, rfl, rfl, rfl, rfl, rfl, rfl, rfl, rfl, rfl, rfl, rfl, rfl, rfl, rfl, rfl, rfl, rfl⟩

/-! ## The steps of a start (R465, R468) -/

section
variable {log : List DWord} {no : Nat} {r : StartReport} {step unit : Nat} {l : List (Nat × Nat)}

theorem runSteps_cons_stop (h : (failsNow log r step unit && stopsStart step) = true) :
    (runSteps log no r ((step, unit) :: l)).2 = some step := by
  simp only [runSteps, h, if_true]

theorem runSteps_cons_go (h : (failsNow log r step unit && stopsStart step) = false) :
    (runSteps log no r ((step, unit) :: l)).2 = (runSteps log no r l).2 ∧
      (runSteps log no r ((step, unit) :: l)).1.length = (runSteps log no r l).1.length + 1 := by
  simp [runSteps, h]

theorem failsNow_of_no_failure (h : r.failed = []) : failsNow log r step unit = false := by
  simp [failsNow, h]

/-- With no failure every step is run and none ends the start. -/
theorem runSteps_of_no_failure (h : r.failed = []) (l : List (Nat × Nat)) :
    (runSteps log no r l).2 = none ∧ (runSteps log no r l).1.length = l.length := by
  induction l with
  | nil => exact ⟨rfl, rfl⟩
  | cons p l ih =>
    obtain ⟨step, unit⟩ := p
    obtain ⟨h2, h1⟩ := runSteps_cons_go (log := log) (no := no) (r := r) (step := step) (unit := unit) (l := l)
      (by rw [failsNow_of_no_failure h]; rfl)
    exact ⟨h2.trans ih.1, by rw [h1, ih.2, List.length_cons]⟩

/-- A step of stage 1 is never skipped, so it fails exactly when the start reports it. -/
theorem failsNow_stage1 (h : step = 0x01 ∨ step = 0x02 ∨ step = 0x03) :
    failsNow log r step unit = r.failed.contains (BitVec.ofNat 8 step, unit) := by
  have ha : startAct log step unit = 0 := by
    rcases h with rfl | rfl | rfl <;> exact ite_self 0
  simp [failsNow, ha]

theorem stops_stage1 (h : step = 0x01 ∨ step = 0x02 ∨ step = 0x03) :
    (failsNow log r step unit && stopsStart step) = r.failed.contains (BitVec.ofNat 8 step, unit) := by
  have hs : stopsStart step = true := by
    rcases h with rfl | rfl | rfl <;> rfl
  rw [failsNow_stage1 h, hs, Bool.and_true]

/-- The steps after those of stage 1. -/
def laterSteps : List (Nat × Nat) := startSteps.drop 3

theorem startSteps_eq : startSteps = (0x01, 0) :: (0x02, 0) :: (0x03, 0) :: laterSteps := rfl

/-- A start ends with the first step of stage 1 that fails. -/
theorem runSteps_of_second (h1 : ((0x01, 0) : BitVec 8 × Nat) ∉ r.failed) (h2 : ((0x02, 0) : BitVec 8 × Nat) ∈ r.failed) :
    (runSteps log no r startSteps).2 = some 0x02 := by
  rw [startSteps_eq, (runSteps_cons_go (by rw [stops_stage1 (.inl rfl)]; simpa using h1)).1]
  exact runSteps_cons_stop (by rw [stops_stage1 (.inr (.inl rfl))]; simpa using h2)

/-- A start in which a step of stage 1 fails ends with a step of stage 1. -/
theorem runSteps_of_stage1 (h : ((0x01, 0) : BitVec 8 × Nat) ∈ r.failed ∨ ((0x02, 0) : BitVec 8 × Nat) ∈ r.failed ∨
    ((0x03, 0) : BitVec 8 × Nat) ∈ r.failed) :
    ∃ k, (runSteps log no r startSteps).2 = some k ∧ (k = 0x01 ∨ k = 0x02 ∨ k = 0x03) := by
  by_cases h1 : ((0x01, 0) : BitVec 8 × Nat) ∈ r.failed
  · exact ⟨0x01, runSteps_cons_stop (by rw [stops_stage1 (.inl rfl)]; simpa using h1), .inl rfl⟩
  by_cases h2 : ((0x02, 0) : BitVec 8 × Nat) ∈ r.failed
  · exact ⟨0x02, runSteps_of_second h1 h2, .inr (.inl rfl)⟩
  have h3 : ((0x03, 0) : BitVec 8 × Nat) ∈ r.failed := (h.resolve_left h1).resolve_left h2
  refine ⟨0x03, ?_, .inr (.inr rfl)⟩
  rw [startSteps_eq, (runSteps_cons_go (by rw [stops_stage1 (.inl rfl)]; simpa using h1)).1,
    (runSteps_cons_go (by rw [stops_stage1 (.inr (.inl rfl))]; simpa using h2)).1]
  exact runSteps_cons_stop (by rw [stops_stage1 (.inr (.inr rfl))]; simpa using h3)

end

/-! ## The start -/

/-- A start in full function or during a reset does nothing (notes/assumptions/76). -/
theorem deviceStart_idle {s : State} (r : StartReport) (h : s.dev.stage = 2 ∨ s.dev.resetting = true) :
    Goes (.deviceStart r) s s.dev :=
  goes_run (exec_deviceStart r s) (if_pos (by simpa using h))

/-- What a start leaves, by the step that ended it. -/
structure Started (d : Dev) (es : List DWord) (x : Option Nat) (t : Dev) : Prop where
  mem : t.mem = d.mem
  startNo : t.startNo = d.startNo + 1
  startLog : t.startLog = d.startLog ++ es
  nextImages : t.nextImages = [none, none, none]
  host : ∀ k, x = some k → k = 0x01 ∨ k = 0x02 ∨ k = 0x03 → t.portPeer = 0
  second : x = some 0x02 → t.stage = 0 ∧ t.failStage = 1
  full : x = none → t.stage = 2 ∧ t.failStage = 0xFF

theorem deviceStart_started {s : State} (r : StartReport) (h2 : s.dev.stage ≠ 2) (hr : s.dev.resetting = false) :
    ∃ t, exec (.deviceStart r) s = .next t ∧ t.mgmt = s.mgmt ∧
      Started s.dev (runSteps s.dev.startLog (s.dev.startNo + 1) r startSteps).1
        (runSteps s.dev.startLog (s.dev.startNo + 1) r startSteps).2 t.dev := by
  refine ⟨_, rfl, rfl, ?_⟩
  have hc : (s.dev.stage == 2 || s.dev.resetting) = false := by simp [h2, hr]
  simp only [hc]
  split
  next h => simp at h
  next =>
    split
    next hx => exact ⟨rfl, rfl, rfl, rfl, fun _ _ _ => rfl, fun h => by simp [hx] at h, fun h => by simp [hx] at h⟩
    next hx => exact ⟨rfl, rfl, rfl, rfl, fun _ _ _ => rfl, fun _ => ⟨rfl, rfl⟩, fun h => by simp [hx] at h⟩
    next hx => exact ⟨rfl, rfl, rfl, rfl, fun _ _ _ => rfl, fun h => by simp [hx] at h, fun h => by simp [hx] at h⟩
    next hx =>
      exact ⟨rfl, rfl, rfl, rfl, fun k h hk => by simp only [hx, Option.some.injEq] at h; omega, fun h => by simp [hx] at h,
        fun h => by simp [hx] at h⟩
    next v h1 h2 h3 _ hx =>
      refine ⟨rfl, rfl, rfl, rfl, fun k h hk => ?_, fun h => ?_, fun h => by simp [hx] at h⟩
      · obtain rfl := Option.some.inj (hx.symm.trans h)
        exact (hk.elim h1 (Or.elim · h2 h3)).elim
      · exact (h2 (Option.some.inj (hx.symm.trans h))).elim
    next hx => exact ⟨rfl, rfl, rfl, rfl, fun k h => by simp [hx] at h, fun h => by simp [hx] at h, fun _ => ⟨rfl, rfl⟩⟩

/-- Settles O52: a reset's fields, and a start's by the step that ends it. -/
theorem resetAndStart : Obligations.ResetAndStart := by
  intro s
  refine ⟨fun i hi => ⟨resetAll s, ?_, ?_⟩, fun r => ⟨deviceStart_idle r, fun h2 hr => ?_⟩⟩
  · rcases hi with rfl | ⟨die, rfl⟩
    · exact exec_reset s
    · exact exec_criticalTemperature die s
  · obtain ⟨hm, hmem, htags, hforms, hni, hlog, hno, hsk, hg, hl, hl1, htlb, hha, hst, hrec, hag, hle, hout⟩ := reset_leaves s
    refine ⟨hm, hmem, htags, hforms, hni, hlog, hno, hsk, hg, hl, hl1, htlb, hha, hst, hrec, hag, hle, hout, fun hh => ?_,
      fun e r hh => ?_⟩
    · rw [resetAll_of_none hh]
      exact ⟨hh, rfl, rfl, rfl, rfl⟩
    · obtain ⟨ss, ht, hmem⟩ := resetAll_of_held hh
      rw [ht]
      exact ⟨rfl, rfl, rfl, hmem⟩
  · obtain ⟨t, he, hm, ht⟩ := deviceStart_started r h2 hr
    refine ⟨t, he, hm, ht.mem, ht.startNo, ⟨_, ht.startLog⟩, ht.nextImages, fun h => ?_, fun h => ?_, fun h h1 => ?_⟩
    · obtain ⟨k, hk, h⟩ := runSteps_of_stage1 h
      exact ht.host k hk h
    · obtain ⟨hx, hlen⟩ := runSteps_of_no_failure h startSteps
      obtain ⟨hst, hfs⟩ := ht.full hx
      exact ⟨hst, hfs, by rw [ht.startLog, List.length_append, hlen]⟩
    · exact ht.second (runSteps_of_second h1 h)

end Sys2Proof.Machine
end

section
/-!
PROOFS. The mailbox (R471 to R474): what each command comes to, and the end of a stream that was told to stop.
-/

namespace Sys2Proof.Machine

theorem exec_mailboxComplete (st : BitVec 8) (detail : BitVec 32) (outlen : Nat) (s : State) :
    exec (.mailboxComplete st detail outlen) s = execMailboxComplete st detail outlen s := rfl
theorem exec_image (cmd : DWord) (s : State) : exec (.image cmd) s = execImage cmd s := rfl
theorem exec_attest (cmd : DWord) (s : State) : exec (.attest cmd) s = execAttest cmd s := rfl
theorem exec_identity (cmd : DWord) (s : State) : exec (.identity cmd) s = execIdentity cmd s := rfl
theorem exec_readlog (cmd : DWord) (s : State) : exec (.readlog cmd) s = execReadlog cmd s := rfl
theorem exec_clearlog (cmd : DWord) (s : State) : exec (.clearlog cmd) s = execClearlog cmd s := rfl
theorem exec_streamtab (cmd : DWord) (s : State) : exec (.streamtab cmd) s = execStreamtab cmd s := rfl
theorem exec_streamstart (cmd : DWord) (s : State) : exec (.streamstart cmd) s = execStreamstart cmd s := rfl
theorem exec_streamstop (cmd : DWord) (s : State) : exec (.streamstop cmd) s = execStreamstop cmd s := rfl

/-! ## The completion (R471) -/

/-- The word that a completion puts into MBSTAT. -/
def mbStatOf (cmd : DWord) (st : BitVec 8) (detail : BitVec 32) (outlen : Nat) : DWord :=
  BitVec.ofNat 64 (st.toNat + 2 ^ 8 * mbSeq cmd + 2 ^ 16 * detail.toNat + 2 ^ 48 * outlen)

theorem mailboxComplete_goes (st : BitVec 8) (detail : BitVec 32) (outlen : Nat) (s : State) :
    Goes (.mailboxComplete st detail outlen) s
      (interrupt { s.dev with mbstat := mbStatOf s.dev.mbcmd st detail outlen } 1158) :=
  goes_run (exec_mailboxComplete st detail outlen s) rfl

/-- MBSTAT's fields are STATE, SEQ, DETAIL and OUTLEN. -/
theorem mbStatOf_fields (cmd : DWord) (st : BitVec 8) (detail : BitVec 32) {outlen : Nat} (ho : outlen < 2 ^ 16) :
    (mbStatOf cmd st detail outlen).extractLsb' 0 8 = st ∧
      (mbStatOf cmd st detail outlen).extractLsb' 8 8 = cmd.extractLsb' 8 8 ∧
      (mbStatOf cmd st detail outlen).extractLsb' 16 32 = detail ∧
      ((mbStatOf cmd st detail outlen).extractLsb' 48 16).toNat = outlen := by
  have hst := st.isLt
  have hde := detail.isLt
  have hseq : mbSeq cmd < 2 ^ 8 := Nat.mod_lt _ (by decide)
  have hc : mbSeq cmd = cmd.toNat / 2 ^ 8 % 2 ^ 8 := rfl
  refine ⟨BitVec.eq_of_toNat_eq ?_, BitVec.eq_of_toNat_eq ?_, BitVec.eq_of_toNat_eq ?_, ?_⟩ <;>
    simp only [mbStatOf, BitVec.extractLsb'_toNat, BitVec.toNat_ofNat, Nat.shiftRight_eq_div_pow, ← hc] <;> omega

/-! ## Commands without a stream (R472) -/

section
variable {cmd : DWord} {s : State}

theorem image_refused (h : mbArg cmd < 1 ∨ 3 < mbArg cmd ∨ 2 ^ 26 < (mbWord s.dev 1).toNat) :
    Goes (.image cmd) s (mbRefused s.dev) :=
  goes_run (exec_image cmd s) (if_pos h)

section
variable (h1 : 1 ≤ mbArg cmd) (h3 : mbArg cmd ≤ 3) (hl : (mbWord s.dev 1).toNat ≤ 2 ^ 26)
include h1 h3 hl

theorem image_kept {x : List Byte} (hx : Config.hostImage s.dev.free (mbWord s.dev 0).toNat (mbWord s.dev 1).toNat = some x) :
    Goes (.image cmd) s (mbDone { s.dev with nextImages := s.dev.nextImages.set (mbArg cmd - 1) (some x) }) :=
  goes_run (exec_image cmd s) ((if_neg (by omega)).trans (by rw [hx]))

theorem image_failed (hx : Config.hostImage s.dev.free (mbWord s.dev 0).toNat (mbWord s.dev 1).toNat = none) :
    Goes (.image cmd) s (mbFailed s.dev) :=
  goes_run (exec_image cmd s) ((if_neg (by omega)).trans (by rw [hx]))

end

/-- CLEARLOG keeps the entries that are no failure of the step and unit named, or no failure when all are. -/
theorem clearlog_goes : ∃ l, Goes (.clearlog cmd) s (mbDone { s.dev with startLog := l }) ∧ ∀ e, e ∈ l ↔ e ∈ s.dev.startLog ∧
    ¬ (leFailed e = true ∧
      (mbArg cmd = 2 ^ 32 - 1 ∨ (leStep e = mbArg cmd % 256 ∧ leUnit e = mbArg cmd / 256 % 256))) :=
  ⟨_, goes_run (exec_clearlog cmd s) rfl, fun e => by
    simp only [List.mem_filter, Bool.not_eq_true', Bool.and_eq_false_iff, Bool.or_eq_false_iff, beq_eq_false_iff_ne]
    cases leFailed e
    · simp
    · simp
      tauto⟩

/-! ## Streams (R473) -/

theorem streamtab_refused (h : s.dev.stage ≠ 2 ∨ 15 < mbArg cmd ∨ (mbWord s.dev 0).toNat % 1024 ≠ 0 ∨
    isDevice (mbWord s.dev 0).toNat = false ∨ (s.dev.streams.any fun e => e.1 / 16 == mbArg cmd) = true) :
    Goes (.streamtab cmd) s (mbRefused s.dev) :=
  goes_run (exec_streamtab cmd s) (if_pos (by
    simp only [Bool.or_eq_true, Bool.not_eq_true', decide_eq_true_eq, bne_iff_ne, fullFn, beq_eq_false_iff_ne]
    tauto))

theorem streamtab_set (h2 : s.dev.stage = 2) (hk : mbArg cmd ≤ 15) (ha : (mbWord s.dev 0).toNat % 1024 = 0)
    (hd : isDevice (mbWord s.dev 0).toNat = true) (hb : (s.dev.streams.any fun e => e.1 / 16 == mbArg cmd) = false) :
    Goes (.streamtab cmd) s (mbDone { s.dev with streamTab := tset s.dev.streamTab (mbArg cmd) (mbWord s.dev 0) }) :=
  goes_run (exec_streamtab cmd s) (if_neg (by simp [fullFn, h2, ha, hd, hb]; omega))

theorem streamstart_refused (h : s.dev.stage ≠ 2 ∨ mbStreamOk cmd = false ∨
    (stream? s.dev (mbDie cmd) (mbStream cmd)).isSome = true) : Goes (.streamstart cmd) s (mbRefused s.dev) :=
  goes_run (exec_streamstart cmd s) (if_pos (by
    simp only [Bool.or_eq_true, Bool.not_eq_true', fullFn, beq_eq_false_iff_ne]
    tauto))

/-- A die without a stream table starts no stream. -/
theorem streamstart_of_no_table (h : tget? s.dev.streamTab (mbDie cmd) = none) :
    Goes (.streamstart cmd) s (mbRefused s.dev) :=
  goes_run (exec_streamstart cmd s) (by simp only [h]; exact ite_self _)

theorem streamstart_read {tab : DWord} {x : Line} {d1 : Dev} (h2 : s.dev.stage = 2) (hok : mbStreamOk cmd = true)
    (hn : stream? s.dev (mbDie cmd) (mbStream cmd) = none) (ht : tget? s.dev.streamTab (mbDie cmd) = some tab)
    (hr : readSlice s.mgmt 0 s.dev none ((tab.toNat + 64 * mbStream cmd) / 128) false [(tab.toNat + 64 * mbStream cmd) / 64]
      .rdShared 72 = .ok (x, d1)) :
    let r := halfData x ((tab.toNat + 64 * mbStream cmd) / 64 % 2 == 1)
    Goes (.streamstart cmd) s
      (if srBad s.mgmt r then mbRefused d1 else mbDone (startStream d1 (mbDie cmd) (mbStream cmd) r)) :=
  goes_run (exec_streamstart cmd s) (by simp [fullFn, h2, hok, hn, ht, hr])

theorem streamstop_of_none (h : stream? s.dev (mbDie cmd) (mbStream cmd) = none) :
    Goes (.streamstop cmd) s (mbRefused s.dev) :=
  goes_run (exec_streamstop cmd s) (by simp only [h])

section
variable {x : Stream} (hx : stream? s.dev (mbDie cmd) (mbStream cmd) = some x)
include hx

theorem streamstop_refused (h : s.dev.stage ≠ 2 ∨ mbStreamOk cmd = false) : Goes (.streamstop cmd) s (mbRefused s.dev) :=
  goes_run (exec_streamstop cmd s) (by
    simp only [hx]
    exact if_pos (by simpa [fullFn] using h))

variable (h2 : s.dev.stage = 2) (hok : mbStreamOk cmd = true)
include h2 hok

/-- A stream that has something to emit goes on till it has been emitted. -/
theorem streamstop_emitting (he : x.emitting ≠ none) :
    Goes (.streamstop cmd) s (setStream s.dev (mbDie cmd) (mbStream cmd) { x with
      stopping := true
      queue := [] }) := by
  obtain ⟨f, hf⟩ := Option.ne_none_iff_exists'.1 he
  refine goes_run (exec_streamstop cmd s) ?_
  simp only [hx]
  rw [if_neg (by simp [fullFn, h2, hok])]
  exact if_pos (by rw [nextEmit]; split <;> simp [hf])

theorem streamstop_idle (he : x.emitting = none) (ho : x.owed = 0) :
    Goes (.streamstop cmd) s (afterEmit s.mgmt (setStream s.dev (mbDie cmd) (mbStream cmd) { x with
      stopping := true
      queue := [] }) (mbDie cmd) (mbStream cmd)) := by
  refine goes_run (exec_streamstop cmd s) ?_
  simp only [hx]
  rw [if_neg (by simp [fullFn, h2, hok])]
  exact if_neg (by simp [nextEmit, he, ho])

end

end

@[simp] theorem stream_setStream (d : Dev) (die n : Nat) (x : Stream) : stream? (setStream d die n x) die n = some x :=
  tget_tset_same _ _ _

/-- A stopping stream with nothing left to emit ends once its counts are written. -/
theorem afterEmit_of_stopped {m : Mgmt} {d d1 : Dev} {die n : Nat} {x : Stream} (hx : stream? d die n = some x)
    (hs : x.stopping = true) (he : x.emitting = none) (ho : x.owed = 0) (hw : writeStat m d x = .ok d1) :
    afterEmit m d die n = endStream d1 die n := by
  have hn : nextEmit d die x = none := by simp [nextEmit, he, ho]
  simp [afterEmit, hx, hn, hs, hw]

/-- A stopped stream is gone, and its STREAMSTOP is done with the number of frames it emitted (R473). -/
theorem endStream_of_stopping {d : Dev} {die n : Nat} {x : Stream} (hx : stream? d die n = some x) (hs : x.stopping = true) :
    stream? (endStream d die n) die n = none ∧
      Instr.mailboxComplete 2 (BitVec.ofNat 32 x.frames) 0 ∈ (endStream d die n).agenda := by
  simp only [endStream, hx, hs, if_true]
  exact ⟨(tget_tdel _ _ _).trans (if_pos rfl), by simp [pokeSeals]⟩

/-- Settles O51: each clause is the lemma of its command and outcome. -/
theorem mailbox : Obligations.Mailbox := by
  intro cmd s
  refine ⟨fun st detail outlen ho => ⟨_, mailboxComplete_goes st detail outlen s, rfl, mbStatOf_fields _ st detail ho⟩,
    image_refused, ?_, goes_run (exec_attest cmd s) rfl, goes_run (exec_identity cmd s) rfl,
    goes_run (exec_readlog cmd s) rfl, ?_, ?_, ?_, fun e die n x => endStream_of_stopping, streamstop_of_none⟩
  · intro h1 h3 hl
    split
    next x hx => exact image_kept h1 h3 hl hx
    next hx => exact image_failed h1 h3 hl hx
  · obtain ⟨l, hg, hl⟩ := clearlog_goes (cmd := cmd) (s := s)
    exact ⟨_, hg, rfl, hl⟩
  · intro h2
    exact ⟨streamtab_refused (.inl h2), streamstart_refused (.inl h2), fun x hx => streamstop_refused hx (.inl h2)⟩
  · intro h2
    refine ⟨fun h => streamtab_refused (.inr h), streamtab_set h2, fun h => ?_, fun hok => ?_, ?_, ?_⟩
    · rcases h with hok | hsome | hnone
      · exact streamstart_refused (.inr (.inl hok))
      · exact streamstart_refused (.inr (.inr hsome))
      · exact streamstart_of_no_table hnone
    · cases hx : stream? s.dev (mbDie cmd) (mbStream cmd) with
      | none => exact streamstop_of_none hx
      | some x => exact streamstop_refused hx (.inr hok)
    · intro tab x d1 hok hn ht pa hr r
      have hg := streamstart_read h2 hok hn ht hr
      exact ⟨fun hb => hg.congr (if_pos hb), fun hb => hg.congr (if_neg (Bool.eq_false_iff.1 hb))⟩
    · intro x hok hx d1
      refine ⟨streamstop_emitting hx h2 hok, streamstop_idle hx h2 hok, fun d2 he ho hw => ?_⟩
      exact (streamstop_idle hx h2 hok he ho).congr (afterEmit_of_stopped (stream_setStream _ _ _ _) rfl he ho hw)

end Sys2Proof.Machine
end

section
/-!
PROOFS. LOCKL, UNLOCKL, PINL, UNPINL and LSTAT (R332 to R361): what each comes to on a line that passes the checks of R357.
-/

namespace Sys2Proof.Machine
open Claims

/-! ## Instructions on a line -/

/-- A line instruction's own action under a guard that holds: the checks, then `f`. -/
def lineBody (m : Mgmt) (d : Dev) (o : Lm) (dst : List PWrite) (mid : Leaf → Nat → Option Cause) (f : Leaf → Nat → Dev → Res)
    (da : Dev) : Res :=
  match linearChk m d (linePtr d o) 128 mid with
  | .bad b => .fault { faultAt b.cause b.addr d.cur.lanes with
      sub := b.sub, undef := dst, pages := [pageEntry b.addr false false b.sub] }
  | .wait _ q => waitFor d q
  | .ok l pa => if engineOwns d (pa / 128) then .park d (.recall (pa / 128)) else f l pa da
  | .drop => .done da

theorem lineIssue_eq (m : Mgmt) (d : Dev) (o : Lm) (rds : List Rd) (dst : List PWrite) (mid : Leaf → Nat → Option Cause)
    (f : Leaf → Nat → Dev → Res) :
    lineIssue m d o rds 128 dst mid f = uniIssue m d (hdXw o (.s o.sb 2 :: rds) true) (lineBody m d o dst mid f) := rfl

/-- Behind the checks of a line that passes them. -/
theorem lineBody_passed {s : State} {o : Lm} {dst : List PWrite} {mid : Leaf → Nat → Option Cause} {f : Leaf → Nat → Dev → Res}
    {l : Leaf} {pa : Nat} (hr : Reaches s (linePtr s.dev o) 128 l pa) (hm : mid l pa = none) (da : Dev) :
    lineBody s.mgmt s.dev o dst mid f da = f l pa da := by
  have hu : engineOwns s.dev (pa / 128) = false := hr.unowned
  simp only [lineBody, linearChk_ok hr hm, hu]
  rfl

section
variable {i : Instr} {s : State} {o : Lm} {rds : List Rd} {dst : List PWrite} {mid : Mgmt → Dev → Leaf → Nat → Option Cause}
  {f : Mgmt → Dev → Leaf → Nat → Dev → Res}
  (he : exec i s = s.run fun m d => lineIssue m d o rds 128 dst (mid m d) (f m d))
include he

/-- Under a guard condition that fails a line instruction only moves on. -/
theorem line_skip (hc : UniClear s o.xw.p o.xw.n []) (hg : condUnder s o.xw.p o.xw.n = false) :
    Goes i s (moved s o.w 8 false) :=
  he.trans (run_uni_skip (h := hdXw o (.s o.sb 2 :: rds) true) (body := fun m d => lineBody m d o dst (mid m d) (f m d))
    (uniClear_of_off _ hg hc) hg rfl)

variable {l : Leaf} {pa : Nat} (hr : Reaches s (linePtr s.dev o) 128 l pa) (hg : condUnder s o.xw.p o.xw.n = true)
  (hc : UniClear s o.xw.p o.xw.n (.s o.sb 2 :: rds))
include hr hg hc

/-- A line that the check between translation and guard refuses. -/
theorem line_refused {c : Cause} (hx : c ≠ .xlate) (hm : mid s.mgmt s.dev l pa = some c) :
    Goes i s (trapped s o.w 8 true (faultAt c (linePtr s.dev o) s.dev.cur.lanes)) := by
  have hf := goes_uniformFault (h := hdXw o (.s o.sb 2 :: rds) true) he rfl hc hg true
    (body := fun m d => lineBody m d o dst (mid m d) (f m d)) (by rw [lineBody, linearChk_bad hr hm])
  exact hf.congr (faulted_hidden _ _ hx)

/-- A line that passes its checks: the instruction is performed, or parks. -/
theorem line_done {d1 : Dev} (hm : mid s.mgmt s.dev l pa = none)
    (hb : f s.mgmt s.dev l pa (moved s o.w 8 true) = .done d1) : Goes i s d1 :=
  goes_uniformDone (h := hdXw o (.s o.sb 2 :: rds) true) he rfl hc hg
    (body := fun m d => lineBody m d o dst (mid m d) (f m d)) ((lineBody_passed hr hm _).trans hb)

theorem line_park {d1 : Dev} {p : Park} (hm : mid s.mgmt s.dev l pa = none)
    (hb : f s.mgmt s.dev l pa (moved s o.w 8 true) = .park d1 p) : Goes i s (parked s o.w 8 true d1 p) :=
  goes_uniformPark (h := hdXw o (.s o.sb 2 :: rds) true) he rfl hc hg
    (body := fun m d => lineBody m d o dst (mid m d) (f m d)) ((lineBody_passed hr hm _).trans hb)

end

/-! ## LOCKL (R332, R333, R358) -/

/-- Whether LOCKL may ask for a line. -/
def lockBad (o : Lm) (m : Mgmt) (d : Dev) (l : Leaf) (pa : Nat) : Option Cause :=
  if !l.w || isPeer pa || (curSkein d).locks.any (fun h => h.line == pa / 128) ||
      (isDet m (curCtx d) && decide (2 < o.xw.sc.toNat)) then some .lockuse
  else none

/-- The queue of a line with the current skein's request in it. -/
def lockQueue (d : Dev) (o : Lm) (line : Nat) : List LockWait :=
  let u := d.cur.skein
  let l := lockOf (dropOtherEntries d u (some line)) line
  if (lockOf d line).queue.any fun w => w.skein == u then
    modWhere (fun w => w.skein == u) (fun w => { w with present := true, sc := o.xw.sc.toNat }) l.queue
  else l.queue ++ [{ skein := u, sc := o.xw.sc.toNat, present := true }]

/-- Whether the request is a free line's first present one. -/
def lockMine (d : Dev) (o : Lm) (line : Nat) : Bool :=
  let l := lockOf (dropOtherEntries d d.cur.skein (some line)) line
  l.holder.isNone && ((firstPresent { l with queue := lockQueue d o line }).map fun w => w.skein) == some d.cur.skein

theorem lockMine_iff {d : Dev} {o : Lm} {line : Nat} : lockMine d o line = true ↔
    (lockOf (dropOtherEntries d d.cur.skein (some line)) line).holder = none ∧
      ((firstPresent { lockOf (dropOtherEntries d d.cur.skein (some line)) line with queue := lockQueue d o line }).map
        fun w => w.skein) = some d.cur.skein := by
  simp only [lockMine, Bool.and_eq_true, Option.isNone_iff_eq_none, beq_iff_eq]

/-- The device with the request queued, its timeout running. -/
def lockQueued (d : Dev) (o : Lm) (line : Nat) : Dev :=
  let u := d.cur.skein
  let d1 := dropOtherEntries d u (some line)
  let d2 := setLock (dropTimeout d1 u) line { lockOf d1 line with queue := lockQueue d o line }
  let n := (uniReader d o.a.toNat).toNat
  let d3 := if o.xw.sub.getLsbD 3 && n != 0 then postAfter d2 (.die (curSpindle d / 48)) (1024 * n) (.lockTimeout u) else d2
  if (lockOf d line).queue.any fun w => w.skein == u then d3 else postAfter d3 .slice (2 ^ 16) (.deadlockCheck u)

/-- A status given to the current skein. -/
def giveStatus (d : Dev) (o : Lm) (da : Dev) (x : Word) : Dev := addPend da d.cur.skein latL1 [.s o.d.toNat x]

/-- LOCKL behind its checks. -/
def lockBody (o : Lm) (m : Mgmt) (d : Dev) (_ : Leaf) (pa : Nat) (da : Dev) : Res :=
  let line := pa / 128
  let u := d.cur.skein
  let p := linePtr d o
  let set := setOf (bitsOf p 7 41)
  if (curSkein d).locks.length ≥ 8 then .done (giveStatus d o (dropOtherEntries da u (some line)) stLimit)
  else if !(lockFits d (curSpindle d) set line && quotaLeft m d (curCtx d)) then
    .done (giveStatus d o (dropOtherEntries da u none) stQuota)
  else if lockMine d o line then
    lineRes d p [.s o.d.toNat 0]
      ((grantLock m { da with locks := (dropOtherEntries d u (some line)).locks } u line p o.xw.sc.toNat true).map fun d2 =>
        giveStatus d o d2 (if (lockOf (dropOtherEntries d u (some line)) line).broken then stBroken else stGranted))
  else .park (lockQueued d o line) (.lock line p.toNat o.d.toNat o.xw.sc.toNat set)

theorem exec_lockl (o : Lm) (s : State) : exec (.lockl o) s = s.run fun m d =>
    lineIssue m d o (if o.xw.sub.getLsbD 3 then [.s o.a 1] else []) 128 [.s o.d.toNat 0] (lockBad o m d) (lockBody o m d) := rfl

section
variable {o : Lm} {m : Mgmt} {d da : Dev} {l : Leaf} {pa : Nat}

theorem lockBad_eq_some (h : l.w = false ∨ isPeer pa = true ∨ ((curSkein d).locks.any fun h => h.line == pa / 128) = true ∨
    (isDet m (curCtx d) = true ∧ 2 < o.xw.sc.toNat)) : lockBad o m d l pa = some .lockuse :=
  if_pos (by
    simp only [Bool.or_eq_true, Bool.not_eq_true', Bool.and_eq_true, decide_eq_true_eq]
    tauto)

theorem lockBad_eq_none (hw : l.w = true) (hp : isPeer pa = false)
    (hh : ((curSkein d).locks.any fun h => h.line == pa / 128) = false) (hd : isDet m (curCtx d) = false ∨ o.xw.sc.toNat ≤ 2) :
    lockBad o m d l pa = none :=
  if_neg (by
    simp only [hw, hp, hh, Bool.or_eq_true, Bool.and_eq_true, decide_eq_true_eq, Bool.not_true, Bool.false_eq_true, false_or]
    rintro ⟨h1, h2⟩
    rcases hd with h | h
    · simp [h] at h1
    · omega)

/-- A ninth lock. -/
theorem lockBody_of_limit (h : 8 ≤ (curSkein d).locks.length) : lockBody o m d l pa da =
    .done (giveStatus d o (dropOtherEntries da d.cur.skein (some (pa / 128))) 4) := if_pos h

variable (h8 : (curSkein d).locks.length < 8)
include h8

theorem lockBody_of_quota
    (hr : (lockFits d (curSpindle d) (setOf (bitsOf (linePtr d o) 7 41)) (pa / 128) && quotaLeft m d (curCtx d)) = false) :
    lockBody o m d l pa da = .done (giveStatus d o (dropOtherEntries da d.cur.skein none) 1) :=
  (if_neg (Nat.not_le.2 h8)).trans (if_pos (by rw [hr]; rfl))

variable (hr : (lockFits d (curSpindle d) (setOf (bitsOf (linePtr d o) 7 41)) (pa / 128) && quotaLeft m d (curCtx d)) = true)
include hr

theorem lockBody_of_granted {d2 : Dev} (hm : lockMine d o (pa / 128) = true)
    (hg : grantLock m { da with locks := (dropOtherEntries d d.cur.skein (some (pa / 128))).locks } d.cur.skein (pa / 128)
      (linePtr d o) o.xw.sc.toNat true = .ok d2) : lockBody o m d l pa da = .done (giveStatus d o d2
      (if (lockOf (dropOtherEntries d d.cur.skein (some (pa / 128))) (pa / 128)).broken then 3 else 0)) := by
  rw [lockBody, if_neg (Nat.not_le.2 h8), if_neg (by rw [hr]; decide), if_pos hm, hg]
  rfl

theorem lockBody_of_queued (hm : lockMine d o (pa / 128) = false) : lockBody o m d l pa da =
    .park (lockQueued d o (pa / 128)) (.lock (pa / 128) (linePtr d o).toNat o.d.toNat o.xw.sc.toNat
      (setOf (bitsOf (linePtr d o) 7 41))) := by
  rw [lockBody, if_neg (Nat.not_le.2 h8), if_neg (by rw [hr]; decide), hm]
  rfl

end

/-! ## UNLOCKL (R335, R359) -/

/-- Whether UNLOCKL may release a line. -/
def unlockBad (o : Lm) (m : Mgmt) (d : Dev) (_ : Leaf) (pa : Nat) : Option Cause :=
  if !((curSkein d).locks.any fun h => h.line == pa / 128) || (isDet m (curCtx d) && decide (2 < o.xw.sc.toNat)) then
    some .lockuse
  else none

/-- A line released at its scope, and its lock handed on. -/
def unlockBody (o : Lm) (m : Mgmt) (d : Dev) (_ : Leaf) (pa : Nat) (da : Dev) : Res :=
  lineRes d (linePtr d o) [] (match releaseAt m da (curCtx d) (curSpindle d) o.xw.sc.toNat with
    | .error e => .error e
    | .ok d1 => unlockLine m d1 d.cur.skein (pa / 128))

theorem exec_unlockl (o : Lm) (s : State) : exec (.unlockl o) s = s.run fun m d =>
    lineIssue m d o [] 128 [] (unlockBad o m d) (unlockBody o m d) := rfl

section
variable {o : Lm} {m : Mgmt} {d da : Dev} {l : Leaf} {pa : Nat}

theorem unlockBad_eq_some (h : ((curSkein d).locks.any fun h => h.line == pa / 128) = false ∨
    (isDet m (curCtx d) = true ∧ 2 < o.xw.sc.toNat)) : unlockBad o m d l pa = some .lockuse :=
  if_pos (by simpa only [Bool.or_eq_true, Bool.not_eq_true', Bool.and_eq_true, decide_eq_true_eq] using h)

theorem unlockBad_eq_none (hh : ((curSkein d).locks.any fun h => h.line == pa / 128) = true)
    (hd : isDet m (curCtx d) = false ∨ o.xw.sc.toNat ≤ 2) : unlockBad o m d l pa = none :=
  if_neg (by
    simp only [hh, Bool.or_eq_true, Bool.and_eq_true, decide_eq_true_eq, Bool.not_true, Bool.false_eq_true, false_or]
    rintro ⟨h1, h2⟩
    rcases hd with h | h
    · simp [h] at h1
    · omega)

theorem unlockBody_of_released {d1 d2 : Dev} (h1 : releaseAt m da (curCtx d) (curSpindle d) o.xw.sc.toNat = .ok d1)
    (h2 : unlockLine m d1 d.cur.skein (pa / 128) = .ok d2) : unlockBody o m d l pa da = .done d2 := by
  simp only [unlockBody, h1, h2, lineRes]

end

/-! ## PINL and UNPINL (R345, R360) -/

/-- Whether PINL may pin a line. -/
def pinBad (o : Lm) (m : Mgmt) (d : Dev) (_ : Leaf) (pa : Nat) : Option Cause :=
  if isPeer pa then some .perm else if isDet m (curCtx d) && o.xw.sc.toNat != 0 then some .lockuse else none

/-- The die whose slice takes a pin, and whether one does. -/
def pinDie (d : Dev) (l : Leaf) (pa : Nat) : Nat := cachingDie (curSpindle d / 48) pa l.rp
def pinsSlice (d : Dev) (o : Lm) (l : Leaf) (pa : Nat) : Bool :=
  o.xw.sc.toNat == 4 || (o.xw.sc.toNat == 3 && pinDie d l pa == curSpindle d / 48)

/-- A line that has come, pinned for the current skein. -/
def pinned (d : Dev) (o : Lm) (l : Leaf) (pa : Nat) (d1 : Dev) : Dev :=
  let d2 := modSkein (modL1 d1 (curSpindle d) (pa / 128) fun c => { c with pin := true }) d.cur.skein fun k =>
    { k with pins := k.pins ++ [{ line := pa / 128, va := bitsOf (linePtr d o) 7 41 }] }
  if pinsSlice d o l pa then { d2 with l2pins := d2.l2pins ++ [(d.cur.skein, pa / 128, pinDie d l pa)] } else d2

/-- PINL behind its checks. -/
def pinBody (o : Lm) (m : Mgmt) (d : Dev) (l : Leaf) (pa : Nat) (da : Dev) : Res :=
  let va := bitsOf (linePtr d o) 7 41
  if (curSkein d).pins.any fun p => p.line == pa / 128 then .done (giveStatus d o da stGranted)
  else if !(pinFits d (curSpindle d) (setOf va) (pa / 128) && quotaLeft m d (curCtx d)) ||
      (pinsSlice d o l pa && decide (1024 ≤ slicePins d (pinDie d l pa) (pa / 128))) then
    .done (giveStatus d o da stQuota)
  else lineRes d (linePtr d o) [.s o.d.toNat 0] ((fillLine m da (curCtx d) (curSpindle d) va l pa 40).map fun d1 =>
    giveStatus d o (pinned d o l pa d1) stGranted)

theorem exec_pinl (o : Lm) (s : State) : exec (.pinl o) s = s.run fun m d =>
    lineIssue m d o [] 128 [.s o.d.toNat 0] (pinBad o m d) (pinBody o m d) := rfl

theorem exec_unpinl (o : Lm) (s : State) : exec (.unpinl o) s = s.run fun m d =>
    lineIssue m d o [] 128 [] (fun _ _ => none) fun _ pa da => .done (unpin da d.cur.skein (pa / 128)) := rfl

section
variable {o : Lm} {m : Mgmt} {d da : Dev} {l : Leaf} {pa : Nat}

theorem pinBad_of_peer (hp : isPeer pa = true) : pinBad o m d l pa = some .perm := if_pos hp

theorem pinBad_of_scope (hp : isPeer pa = false) (hd : isDet m (curCtx d) = true) (hs : o.xw.sc.toNat ≠ 0) :
    pinBad o m d l pa = some .lockuse := by simp [pinBad, hp, hd, hs]

theorem pinBad_eq_none (hp : isPeer pa = false) (hd : isDet m (curCtx d) = false ∨ o.xw.sc.toNat = 0) :
    pinBad o m d l pa = none := by
  rcases hd with h | h <;> simp [pinBad, hp, h]

theorem pinBody_of_pinned (h : ((curSkein d).pins.any fun p => p.line == pa / 128) = true) :
    pinBody o m d l pa da = .done (giveStatus d o da 0) := if_pos h

/-- Room for another pin of a line. -/
def pinRoom (m : Mgmt) (d : Dev) (o : Lm) (l : Leaf) (pa : Nat) : Bool :=
  pinFits d (curSpindle d) (setOf (bitsOf (linePtr d o) 7 41)) (pa / 128) && quotaLeft m d (curCtx d) &&
    !(pinsSlice d o l pa && decide (1024 ≤ slicePins d (pinDie d l pa) (pa / 128)))

variable (hp : ((curSkein d).pins.any fun p => p.line == pa / 128) = false)
include hp

theorem pinBody_of_quota (hr : pinRoom m d o l pa = false) : pinBody o m d l pa da = .done (giveStatus d o da 1) := by
  rw [pinRoom, ← Bool.not_eq_true', Bool.not_and, Bool.not_not] at hr
  rw [pinBody, hp]
  exact (if_neg Bool.false_ne_true).trans (if_pos hr)

theorem pinBody_of_room {d1 : Dev} (hr : pinRoom m d o l pa = true)
    (hf : fillLine m da (curCtx d) (curSpindle d) (bitsOf (linePtr d o) 7 41) l pa 40 = .ok d1) :
    pinBody o m d l pa da = .done (giveStatus d o (pinned d o l pa d1) 0) := by
  rw [pinRoom, ← Bool.not_eq_false', Bool.not_and, Bool.not_not] at hr
  rw [pinBody, hp, hf]
  exact (if_neg Bool.false_ne_true).trans (if_neg (Bool.eq_false_iff.1 hr))

end

/-! ## LSTAT (R361) -/

/-- LSTAT outside a deterministic context. -/
def statBody (o : Lm) (m : Mgmt) (d da : Dev) : Res :=
  match linearChk m d (linePtr d o) 128 (fun _ _ => none) with
  | .bad b => .fault { faultAt b.cause b.addr d.cur.lanes with
      sub := b.sub, undef := [.s o.d.toNat 0], pages := [pageEntry b.addr false false b.sub] }
  | .wait _ q => waitFor d q
  | .ok _ pa => .done (addPend da d.cur.skein latL1 [.s o.d.toNat (BitVec.ofNat 32 (lockStat d d.cur.skein (pa / 128)))])
  | .drop => .done da

/-- LSTAT's fault in a deterministic context (notes/assumptions/6). -/
def statFault (o : Lm) (d : Dev) : FaultInfo := { faultAt .detviol 0 d.cur.lanes with sup := some (false, o.d.toNat, 1) }

section
variable {o : Lm} {s : State}

theorem exec_lstat_of_det (hd : isDet s.mgmt (curCtx s.dev) = true) : exec (.lstat o) s =
    s.run fun m d => uniIssue m d { hdXw o [.s o.sb 2] false with ends := 0 } fun _ => .fault (statFault o d) :=
  congrArg (fun x => Host.Outcome.next (s.dev' x)) (if_pos hd)

theorem exec_lstat_of_not_det (hd : isDet s.mgmt (curCtx s.dev) = false) : exec (.lstat o) s =
    s.run fun m d => uniIssue m d (hdXw o [.s o.sb 2] false) (statBody o m d) :=
  congrArg (fun x => Host.Outcome.next (s.dev' x)) (if_neg (Bool.eq_false_iff.1 hd))

theorem lstat_skip (hc : UniClear s o.xw.p o.xw.n []) (hg : condUnder s o.xw.p o.xw.n = false) :
    Goes (.lstat o) s (moved s o.w 8 false) := by
  have hc := uniClear_of_off [.s o.sb 2] hg hc
  cases hd : isDet s.mgmt (curCtx s.dev) with
  | true =>
    exact (exec_lstat_of_det hd).trans (run_uni_skip (h := { hdXw o [.s o.sb 2] false with ends := 0 })
      (body := fun _ d _ => .fault (statFault o d)) hc hg rfl)
  | false => exact (exec_lstat_of_not_det hd).trans (run_uni_skip (h := hdXw o [.s o.sb 2] false) (body := statBody o) hc hg rfl)

variable (hg : condUnder s o.xw.p o.xw.n = true) (hc : UniClear s o.xw.p o.xw.n [.s o.sb 2])
include hg hc

theorem lstat_of_det (hd : isDet s.mgmt (curCtx s.dev) = true) :
    Goes (.lstat o) s (trapped s o.w 8 false (statFault o s.dev)) :=
  goes_uniformFault (h := { hdXw o [.s o.sb 2] false with ends := 0 }) (exec_lstat_of_det hd) rfl hc hg false rfl

theorem lstat_reads {l : Leaf} {pa : Nat} (hr : Reaches s (linePtr s.dev o) 128 l pa) (hd : isDet s.mgmt (curCtx s.dev) = false) :
    Goes (.lstat o) s (addPend (moved s o.w 8 false) s.dev.cur.skein 20
      [.s o.d.toNat (BitVec.ofNat 32 (lockStat s.dev s.dev.cur.skein (pa / 128)))]) :=
  goes_uniformDone (h := hdXw o [.s o.sb 2] false) (exec_lstat_of_not_det hd) rfl hc hg
    (by rw [statBody, linearChk_ok hr rfl]; rfl)

end

/-! ## The statement -/

/-- Settles O29: each clause is the lemma of its instruction and outcome. -/
theorem locksAndPins : Obligations.LocksAndPins := by
  refine ⟨fun o s l pa _ => ⟨fun hg hc => ⟨line_skip (exec_lockl o s) hc hg, line_skip (exec_unlockl o s) hc hg⟩,
      fun hr hg => ⟨?_, ?_⟩⟩,
    fun o s l pa _ => ⟨fun hg hc => ⟨line_skip (exec_pinl o s) hc hg, line_skip (exec_unpinl o s) hc hg, lstat_skip hc hg⟩,
      fun hg hc => ⟨lstat_of_det hg hc, fun hr =>
        ⟨lstat_reads hg hc hr, line_done (exec_unpinl o s) hr hg hc rfl rfl, ?_, ?_, ?_⟩⟩⟩⟩
  · intro hc
    refine ⟨fun h => line_refused (exec_lockl o s) hr hg hc Cause.noConfusion (lockBad_eq_some h), fun hw hp hh hd => ?_⟩
    have hm := lockBad_eq_none (o := o) hw hp hh hd
    refine ⟨fun h8 => line_done (exec_lockl o s) hr hg hc hm (lockBody_of_limit h8), fun h8 hroom =>
      line_done (exec_lockl o s) hr hg hc hm (lockBody_of_quota h8 hroom), fun h8 hroom => ⟨fun d2 hmine hgr =>
      line_done (exec_lockl o s) hr hg hc hm (lockBody_of_granted h8 hroom ?_ hgr), fun hmine =>
      line_park (exec_lockl o s) hr hg hc hm (lockBody_of_queued h8 hroom ?_)⟩⟩
    · exact lockMine_iff.2 hmine
    · exact Bool.eq_false_iff.2 (mt lockMine_iff.1 hmine)
  · intro hc
    exact ⟨fun h => line_refused (exec_unlockl o s) hr hg hc Cause.noConfusion (unlockBad_eq_some h), fun d1 d2 hh hd h1 h2 =>
      line_done (exec_unlockl o s) hr hg hc (unlockBad_eq_none hh hd) (unlockBody_of_released h1 h2)⟩
  · exact fun hp => line_refused (exec_pinl o s) hr hg hc Cause.noConfusion (pinBad_of_peer hp)
  · exact fun hp hd hs => line_refused (exec_pinl o s) hr hg hc Cause.noConfusion (pinBad_of_scope hp hd hs)
  · intro hp hd
    have hm := pinBad_eq_none (o := o) (l := l) hp hd
    exact ⟨fun h => line_done (exec_pinl o s) hr hg hc hm (pinBody_of_pinned h), fun h hroom =>
      line_done (exec_pinl o s) hr hg hc hm (pinBody_of_quota h hroom), fun d1 h hroom hf =>
      line_done (exec_pinl o s) hr hg hc hm (pinBody_of_room h hroom hf)⟩

end Sys2Proof.Machine
end

section
/-!
PROOFS. The tiler (R393, R396 to R398, R438, R439): TBEGIN, TFLUSH, the start of a round, and the end of a partial render.
-/

namespace Sys2Proof.Machine
open Claims

theorem exec_tileRoundStart (die tile : Nat) (s : State) : exec (.tileRoundStart die tile) s = execTileRoundStart die tile s := rfl
theorem exec_partialRenderEnd (die : Nat) (s : State) : exec (.partialRenderEnd die) s = execPartialRenderEnd die s := rfl

/-! ## TBEGIN (R438) -/

/-- The block of a pass: its address. -/
def passPtr (d : Dev) (o : Ue) : DWord := readS64 d (curSkein d) o.sp.toNat

/-- TBEGIN behind its block, read on `d1`. -/
def tbeginWith (o : Ue) (m : Mgmt) (d d1 : Dev) (b : BitVec 512) : Res :=
  match tbeginHeader m d (passPtr d o) b with
  | .error e => surfRes d d.cur.lanes true [] e
  | .ok h =>
    let busy := (tget? d.tilers (curGroup d).die).isSome
    match releaseAt m (if busy then d else d1) (curCtx d) (curSpindle d) 4 with
    | .error e => waitRes d e (faultAt .dataerr 0 d.cur.lanes)
    | .ok d2 => if busy then .park d2 .tiler else .done (openPass m d2 (curGroup d) b h)

def tbeginBody (o : Ue) (m : Mgmt) (d da : Dev) : Res :=
  bundleLoad m d da (passPtr d o) 64 0 [] false fun x d1 _ => tbeginWith o m d d1 (BitVec.ofNat 512 x)

theorem exec_tbegin (o : Ue) (s : State) :
    exec (.tbegin o) s = s.run fun m d => uniIssue m d (hdUe o 4 [.s o.sp 2]) (tbeginBody o m d) := rfl

section
variable {m : Mgmt} {d d1 d2 : Dev} {o : Ue} {b : BitVec 512} {h : BitVec 1024} (hh : tbeginHeader m d (passPtr d o) b = .ok h)
include hh

theorem tbeginWith_of_idle (ht : tget? d.tilers (curGroup d).die = none)
    (hr : releaseAt m d1 (curCtx d) (curSpindle d) 4 = .ok d2) :
    tbeginWith o m d d1 b = .done (openPass m d2 (curGroup d) b h) := by
  simp [tbeginWith, hh, ht, hr]

theorem tbeginWith_of_busy (ht : tget? d.tilers (curGroup d).die ≠ none)
    (hr : releaseAt m d (curCtx d) (curSpindle d) 4 = .ok d2) : tbeginWith o m d d1 b = .park d2 .tiler := by
  simp [tbeginWith, hh, Option.isSome_iff_ne_none.2 ht, hr]

end

section
variable {s : State} {o : Ue} {a : LAcc} {l : Leaf} {pa x lat : Nat} {d1 : Dev} (hc : UniClear s 7 false [.s o.sp 2])
  (hk : bundleChecks s.mgmt s.dev (passPtr s.dev o) 64 0 = .go [(a, l, pa)]) (ho : ownedLine s.dev [(a, l, pa)] = none)
  (hl : loadVia s.mgmt (moved s o.w 4 true) (curCtx s.dev) (curSpindle s.dev) (passPtr s.dev o) l pa 64 0 0 = .ok (x, d1, lat))
include hc hk ho hl

theorem tbegin_done {d2 : Dev} (hb : tbeginWith o s.mgmt s.dev (useCurr d1 (usedBy 0 l pa))
    (BitVec.ofNat 512 (bundleOver s.mgmt s.dev pa 64 x)) = .done d2) : Goes (.tbegin o) s d2 :=
  goes_uniformDone (h := hdUe o 4 [.s o.sp 2]) (exec_tbegin o s) rfl hc (condUnder_seven s)
    ((bundleLoad_of_loaded hk ho hl).trans hb)

theorem tbegin_park {d2 : Dev} {q : Park} (hb : tbeginWith o s.mgmt s.dev (useCurr d1 (usedBy 0 l pa))
    (BitVec.ofNat 512 (bundleOver s.mgmt s.dev pa 64 x)) = .park d2 q) : Goes (.tbegin o) s (parked s o.w 4 true d2 q) :=
  goes_uniformPark (h := hdUe o 4 [.s o.sp 2]) (exec_tbegin o s) rfl hc (condUnder_seven s)
    ((bundleLoad_of_loaded hk ho hl).trans hb)

end

/-! ## TFLUSH (R439) -/

/-- The pass whose bins are about to be closed, `n` partly assembled records having been discarded. -/
def closedPass (p : Pass) (n : Nat) : Pass := { p with
  discarded := p.discarded + n
  open_ := false }

/-- TFLUSH with a pass of its context open and no partial render under way. -/
def tflushOpen (m : Mgmt) (d da : Dev) (p : Pass) : Res :=
  let g := curGroup d
  match releaseAt m da g.ctx (curSpindle d) 4 with
  | .error e => waitRes d e (faultAt .dataerr 0 d.cur.lanes)
  | .ok d1 =>
    match closeBins m (dropPartial d1 g.die g.ctx).2 g.die (closedPass p (dropPartial d1 g.die g.ctx).1) g.launch
        (groupCls m d g) with
    | .error w => waitFor d w
    | .ok (p2, d3) =>
      match passProgress m { d3 with tilers := tset d3.tilers g.die p2 } g.die with
      | .error w => waitFor d w
      | .ok d4 => .done d4

def tflushBody (m : Mgmt) (d da : Dev) : Res :=
  match tget? d.tilers (curGroup d).die with
  | none => .fault (uniFault d .queueuse 0)
  | some p =>
    if !p.open_ || p.ctx != (curGroup d).ctx then .fault (uniFault d .queueuse 0)
    else if p.rendering then .park d .tiler
    else tflushOpen m d da p

theorem exec_tflush (o : Ue) (s : State) :
    exec (.tflush o) s = s.run fun m d => uniIssue m d (hdUe o 4 []) (tflushBody m d) := rfl

section
variable {m : Mgmt} {d da : Dev}

theorem tflushBody_of_none (ht : tget? d.tilers (curGroup d).die = none) :
    tflushBody m d da = .fault (faultAt .queueuse 0 d.cur.lanes) := by
  simp only [tflushBody, ht]
  rfl

variable {p : Pass} (ht : tget? d.tilers (curGroup d).die = some p)
include ht

theorem tflushBody_of_not_open (h : p.open_ = false ∨ p.ctx ≠ (curGroup d).ctx) :
    tflushBody m d da = .fault (faultAt .queueuse 0 d.cur.lanes) := by
  simp only [tflushBody, ht]
  exact if_pos (by simpa using h)

variable (ho : p.open_ = true) (hx : p.ctx = (curGroup d).ctx)
include ho hx

theorem tflushBody_of_rendering (hr : p.rendering = true) : tflushBody m d da = .park d .tiler := by
  simp [tflushBody, ht, ho, hx, hr]

theorem tflushBody_of_closed {d1 d3 d4 : Dev} {p2 : Pass} (hr : p.rendering = false)
    (h1 : releaseAt m da (curGroup d).ctx (curSpindle d) 4 = .ok d1)
    (h3 : closeBins m (dropPartial d1 (curGroup d).die (curGroup d).ctx).2 (curGroup d).die
      (closedPass p (dropPartial d1 (curGroup d).die (curGroup d).ctx).1) (curGroup d).launch (groupCls m d (curGroup d)) =
        .ok (p2, d3))
    (h4 : passProgress m { d3 with tilers := tset d3.tilers (curGroup d).die p2 } (curGroup d).die = .ok d4) :
    tflushBody m d da = .done d4 := by
  have hopen : tflushBody m d da = tflushOpen m d da p := by simp [tflushBody, ht, ho, hx, hr]
  rw [hopen]
  simp only [tflushOpen, h1, h3, h4]

end

section
variable {o : Ue} {s : State} (hc : UniClear s 7 false [])
include hc

theorem tflush_done {d1 : Dev} (hb : tflushBody s.mgmt s.dev (moved s o.w 4 true) = .done d1) : Goes (.tflush o) s d1 :=
  goes_uniformDone (h := hdUe o 4 []) (exec_tflush o s) rfl hc (condUnder_seven s) hb

theorem tflush_fault {f : FaultInfo} (hb : tflushBody s.mgmt s.dev (moved s o.w 4 true) = .fault f) :
    Goes (.tflush o) s (trapped s o.w 4 true f) :=
  goes_uniformFault (h := hdUe o 4 []) (exec_tflush o s) rfl hc (condUnder_seven s) true hb

theorem tflush_park {d1 : Dev} {q : Park} (hb : tflushBody s.mgmt s.dev (moved s o.w 4 true) = .park d1 q) :
    Goes (.tflush o) s (parked s o.w 4 true d1 q) :=
  goes_uniformPark (h := hdUe o 4 []) (exec_tflush o s) rfl hc (condUnder_seven s) hb

end

/-! ## Rounds (R397, R398) -/

theorem seatSkeins_groups (d : Dev) (gid q0 : Nat) : (seatSkeins d gid q0).groups = d.groups := by
  refine foldl_keeps (fun d : Dev => d.groups) ?_ _ d
  exact fun _ _ => rfl

/-- A group that starts stands among the device's groups. -/
theorem startGroup_groups (d : Dev) (g : Group) (thread : Nat → Thread) (v : Vector Word 120) :
    (startGroup d g thread v).groups = d.groups ++ [g] := by
  refine (seatSkeins_groups _ _ _).trans (foldl_keeps (fun d : Dev => d.groups) ?_ _ _)
  exact fun _ _ => rfl

/-- Lines that make way for a scratchpad leave the groups as they are. -/
theorem clearWays_groups {m : Mgmt} {d e : Dev} {ctx sp : Nat} (h : clearWays m d ctx sp = .ok e) : e.groups = d.groups :=
  congrArg Prod.fst (foldlM_keeps (cmdSource 0) (fun _ _ _ => evictLines_cmdSource) h)

@[simp] theorem offerRound_mem (d : Dev) (die : Nat) : (offerRound d die).mem = d.mem := by
  unfold offerRound
  split
  · dsimp only
    split <;> rfl
  · rfl
@[simp] theorem offerRound_groups (d : Dev) (die : Nat) : (offerRound d die).groups = d.groups := by
  unfold offerRound
  split
  · dsimp only
    split <;> rfl
  · rfl

/-- The group of a round. -/
def roundGroup (d : Dev) (l : Launch) (r : RoundReq) (tile die sp : Nat) : Group :=
  { (launchGroup d l tile die sp).1 with
    tile := some r.round
    scratch := memBytes [] 0 r.input }

/-- The device with a round's group started, and the lines in its way still to leave. -/
def roundStarted (d : Dev) (p : Pass) (l : Launch) (r : RoundReq) (tile die sp : Nat) : Dev :=
  startGroup (launchGroup d l tile die sp).2 (roundGroup d l r tile die sp) (startThread p.header tile) (startS l.args tile)

/-- The pass with a round begun. -/
def roundTaken (p : Pass) (r : RoundReq) : Pass := { p with
  rounds := p.rounds.erase r
  groups := p.groups + 1 }

/-- What the placing of a round comes to: the next one is offered, or it waits for a half. -/
def roundPlaced (d : Dev) (die tile : Nat) (p : Pass) (r : RoundReq) : MemM Dev → Dev
  | .error (.need w) => defer d w (.tileRoundStart die tile)
  | .error _ => d
  | .ok d3 => offerRound { d3 with tilers := tset d3.tilers die (roundTaken p r) } die

theorem tileRoundStart_placed {s : State} {die tile sp : Nat} {p : Pass} {r : RoundReq} {l : Launch} {d1 d3 : Dev}
    (ht : tget? s.dev.tilers die = some p) (hn : nextRound s.dev p = some r) (hl : launch? s.dev p.launch = some l)
    (hr : r.tile = tile) (hf : findSpindle s.mgmt s.dev die (startDemand p.ctx p.header) = some sp)
    (ha : acquireAt s.mgmt s.dev p.ctx (48 * die + sp) 4 = .ok d1)
    (hw : clearWays s.mgmt (roundStarted d1 p l r tile die sp) p.ctx (48 * die + sp) = .ok d3) :
    Goes (.tileRoundStart die tile) s (offerRound { d3 with tilers := tset d3.tilers die (roundTaken p r) } die) := by
  refine goes_run (exec_tileRoundStart die tile s) ?_
  have hplaced : ((acquireAt s.mgmt s.dev p.ctx (48 * die + sp) 4).bind fun d1 =>
      clearWays s.mgmt (roundStarted d1 p l r tile die sp) p.ctx (48 * die + sp)) = .ok d3 := by rw [ha]; exact hw
  simp only [ht, hn, hl, hf]
  rw [if_neg (by simp [hr])]
  exact congrArg (roundPlaced s.dev die tile p r) hplaced

theorem tileRoundStart_of_none {s : State} {die tile : Nat} (ht : tget? s.dev.tilers die = none) :
    Goes (.tileRoundStart die tile) s s.dev := goes_run (exec_tileRoundStart die tile s) (by simp only [ht])

/-! ## The end of a partial render (R396) -/

section
variable {s : State} {die : Nat}

theorem partialRenderEnd_of_none (ht : tget? s.dev.tilers die = none) : Goes (.partialRenderEnd die) s s.dev :=
  goes_run (exec_partialRenderEnd die s) (by simp only [ht])

variable {p : Pass} (ht : tget? s.dev.tilers die = some p)
include ht

theorem partialRenderEnd_of_busy (h : p.rendering = false ∨ p.rounds ≠ [] ∨ passGroups s.dev p ≠ []) :
    Goes (.partialRenderEnd die) s s.dev :=
  goes_run (exec_partialRenderEnd die s) (by
    simp only [ht]
    exact if_pos (by simpa [List.isEmpty_iff, or_assoc] using h))

/-- The pass with its bins empty and open to pushes again. -/
def emptied (p : Pass) : Pass := { p with
  rendering := false
  recs := []
  used := 0
  partials := p.partials + 1
  held := [] }

theorem partialRenderEnd_of_done (hr : p.rendering = true) (hrounds : p.rounds = []) (hg : passGroups s.dev p = [])
    (hh : p.held = []) :
    Goes (.partialRenderEnd die) s (wakeTiler { s.dev with tilers := tset s.dev.tilers die (emptied p) }) :=
  goes_run (exec_partialRenderEnd die s) (by
    simp only [ht]
    rw [if_neg (by simp [hr, hrounds, hg])]
    simp [hh, acceptRecs, emptied])

end

/-! ## The statement -/

/-- Settles O36: each clause is the lemma of its instruction or event and outcome. -/
theorem tiler : Obligations.Tiler := by
  intro s
  refine ⟨fun _ => ⟨?_, fun o hc => ⟨fun ht => tflush_fault hc (tflushBody_of_none ht), fun p ht =>
      ⟨fun h => tflush_fault hc (tflushBody_of_not_open ht h), fun ho hx =>
        ⟨fun hr => tflush_park hc (tflushBody_of_rendering ht ho hx hr), ?_⟩⟩⟩⟩,
    fun die tile ht => ⟨tileRoundStart_of_none ht, partialRenderEnd_of_none ht⟩, ?_, fun die p => partialRenderEnd_of_busy,
    fun die p => partialRenderEnd_of_done⟩
  · intro o a l pa x lat d1 h p b hc hk ho hl hh
    exact ⟨fun d2 ht hr => tbegin_done hc hk ho hl (tbeginWith_of_idle hh ht hr), fun d2 ht hr =>
      tbegin_park hc hk ho hl (tbeginWith_of_busy hh ht hr)⟩
  · intro d1 d3 d4 p2 hr h1 c h3 h4
    exact tflush_done hc (tflushBody_of_closed ht ho hx hr h1 h3 h4)
  · intro die tile sp p r l d1 ht hn hl hr hf ha gr d3 hw
    refine ⟨_, tileRoundStart_placed ht hn hl hr hf ha hw, offerRound_mem _ _,
      roundGroup d1 l r tile die sp, ?_, rfl, rfl, rfl, rfl, rfl⟩
    rw [offerRound_groups]
    show _ ∈ d3.groups
    rw [clearWays_groups hw, startGroup_groups]
    exact List.mem_append_right _ (List.mem_singleton.2 rfl)

end Sys2Proof.Machine
end

section
/-!
PROOFS. LDPX and LDCF (R424, R426, R429): a lane load from a surface is performed, only moves on, or faults.
-/

namespace Sys2Proof.Machine
open Claims

/-- The value of a lane load from a surface: its results, and the blocks it reconstructed. -/
abbrev SurfValue := Mgmt → Dev → Surf → Nat → SurfM (List PWrite × List (Nat × Nat × Nat × List Nat))

/-- A lane load from a surface by the lanes `ex`. -/
def surfLoadBody (o : Lm) (ncomp : Nat) (predicts : Bool) (comps : List Nat) (dst : Nat → List PWrite) (value : SurfValue) (m : Mgmt)
    (d : Dev) (ex : Mask) (da : Dev) : Res :=
  let ls := lanesOf ex
  if ls.isEmpty then .done da
  else
    match loadSurf m d o ncomp predicts comps ls with
    | .error e => surfRes d ex false (ls.flatMap dst) e
    | .ok s =>
      match pixHalf m d o s ls with
      | some h => .park d (.half h)
      | none =>
        match perLane ls (value m d s) with
        | .error e => surfRes d ex false (ls.flatMap dst) e
        | .ok vs =>
          let d1 := keepBlocks m (noteTiles m da (curCtx d) s predicts (pixList d o ls)) (curCtx d) s (vs.flatMap fun v => v.2.2)
          .done (addPend d1 d.cur.skein (surfLat d) (vs.flatMap fun v => v.2.1))

def hdSurf (o : Lm) : Hd := hdXw o [.s o.sb 2, .v o.a 1] false

theorem exec_ldpx (o : Lm) (s : State) : exec (.ldpx o) s = s.run fun m d => laneIssue m d (hdSurf o)
    (surfLoadBody o (pixC0 o + pixNc o) true (pixComps o) (fun l => splitRegs (wrV l) o.d.toNat 0 (pixNc o))
      (fun m d => ldpxValue m d o) m d) := rfl

theorem exec_ldcf (o : Lm) (s : State) : exec (.ldcf o) s = s.run fun m d => laneIssue m d (hdSurf o)
    (surfLoadBody o (coefComp o + 1) false [coefComp o] (fun l => res1 (wrV l) o.d 0) (fun m d => ldcfValue m d o) m d) := rfl

section
variable {i : Instr} {s : State} {o : Lm} {ncomp : Nat} {predicts : Bool} {comps : List Nat} {dst : Nat → List PWrite}
  {value : SurfValue}
  (he : exec i s = s.run fun m d => laneIssue m d (hdSurf o) (surfLoadBody o ncomp predicts comps dst value m d))
  (hc : LaneClear s o.xw.p o.xw.n [.s o.sb 2, .v o.a 1])
include he hc

/-- Without an executing lane the load only moves on. -/
theorem surfLoad_idle (h : lanesOf (lanesUnder s o.xw.p o.xw.n) = []) : Goes i s (moved s o.w 8 false) :=
  goes_laneDone (h := hdSurf o) he rfl rfl rfl hc (by
    simp only [surfLoadBody, hdSurf, hdXw, h, List.isEmpty_nil, if_true])

variable (hne : lanesOf (lanesUnder s o.xw.p o.xw.n) ≠ [])
include hne

/-- The checks pass and no write of a tile has to be waited for: the values go in flight, the blocks are kept. -/
theorem surfLoad_loaded {sf : Surf} {vs : List (Nat × (List PWrite × List (Nat × Nat × Nat × List Nat)))}
    (hl : loadSurf s.mgmt s.dev o ncomp predicts comps (lanesOf (lanesUnder s o.xw.p o.xw.n)) = .ok sf)
    (hp : pixHalf s.mgmt s.dev o sf (lanesOf (lanesUnder s o.xw.p o.xw.n)) = none)
    (hv : perLane (lanesOf (lanesUnder s o.xw.p o.xw.n)) (value s.mgmt s.dev sf) = .ok vs) :
    Goes i s (addPend (keepBlocks s.mgmt (noteTiles s.mgmt (moved s o.w 8 false) (curCtx s.dev) sf predicts
      (pixList s.dev o (lanesOf (lanesUnder s o.xw.p o.xw.n)))) (curCtx s.dev) sf (vs.flatMap fun v => v.2.2))
      s.dev.cur.skein (surfLat s.dev) (vs.flatMap fun v => v.2.1)) :=
  goes_laneDone (h := hdSurf o) he rfl rfl rfl hc (by
    simp only [surfLoadBody, hdSurf, hdXw, List.isEmpty_iff, hne, if_false, hl, hp, hv])

/-- A failed check of the surface, the pixels or the blocks. -/
theorem surfLoad_refused {b : Bad} {who : Mask} {each : List Bad}
    (hl : loadSurf s.mgmt s.dev o ncomp predicts comps (lanesOf (lanesUnder s o.xw.p o.xw.n)) = .error (.badAt b who each)) :
    Goes i s (trapped s o.w 8 false (surfFault (lanesUnder s o.xw.p o.xw.n) false
      ((lanesOf (lanesUnder s o.xw.p o.xw.n)).flatMap dst) b who each)) :=
  goes_laneFault (h := hdSurf o) he rfl rfl rfl hc (by
    simp only [surfLoadBody, hdSurf, hdXw, List.isEmpty_iff, hne, if_false, hl, surfRes])

end

/-- Settles O33: the outcomes of a lane load from a surface, for each of the two. -/
theorem surfaceLoads : Obligations.SurfaceLoads := by
  intro o s _ m d ex ls on load hc
  exact ⟨⟨surfLoad_idle (exec_ldpx o s) hc, fun sf vs hne hl hp hv => surfLoad_loaded (exec_ldpx o s) hc hne hl hp hv,
      fun b who each hne hl => surfLoad_refused (exec_ldpx o s) hc hne hl⟩,
    ⟨surfLoad_idle (exec_ldcf o s) hc, fun sf vs hne hl hp hv => surfLoad_loaded (exec_ldcf o s) hc hne hl hp hv,
      fun b who each hne hl => surfLoad_refused (exec_ldcf o s) hc hne hl⟩⟩

end Sys2Proof.Machine
end

section
/-!
PROOFS. What an operation on a predictive surface (R378 to R381, R386, R387) leaves unchanged: the groups of the device, and so the
spindle that it acts for.
-/

namespace Sys2Proof.Machine

/-! ## Bytes written by the codec -/

theorem writeSlice_groups {m : Mgmt} {d e : Dev} {ctx line : Nat} {keep : Option Nat} {bm : BitVec 128} {x : Line} {cmp : Bool}
    (h : writeSlice m ctx d keep line bm x cmp = .ok e) : e.groups = d.groups :=
  congrArg Prod.fst (writeSlice_cmdSource (u := 0) h)

/-- What each piece of a range keeps, the range keeps. -/
theorem distPut_go_groups {chunk : Dev → DWord → Nat → MemM Dev}
    (hc : ∀ {d e : Dev} {q : DWord} {k : Nat}, chunk d q k = .ok e → e.groups = d.groups) :
    ∀ {fuel left : Nat} {d e : Dev} {q : DWord}, distPut.go chunk d q fuel left = .ok e → e.groups = d.groups := by
  intro fuel
  induction fuel with
  | zero =>
    intro left d e q h
    cases left <;> (cases h; rfl)
  | succ fuel ih =>
    intro left d e q h
    cases left with
    | zero => cases h; rfl
    | succ left =>
      rw [distPut.go] at h
      · split at h
        · cases h
        next d1 h1 => exact (ih h).trans (hc h1)
      · exact Nat.succ_ne_zero _

theorem distPut_groups {m : Mgmt} {d e : Dev} {keep : Option Nat} {ctx n al x : Nat} {p : DWord}
    (h : distPut m d keep ctx p n al x = .ok e) : e.groups = d.groups := by
  unfold distPut at h
  cases hk : distCheck m d ctx p n al true with
  | bad e1 => rw [hk] at h; cases h
  | wait w => rw [hk] at h; cases h
  | ok _ =>
    rw [hk] at h
    simp only [Dist.bind] at h
    split at h
    · next r hr =>
      cases h
      refine distPut_go_groups (fun {d e q k} hc => ?_) hr
      split at hc
      · cases hc
      obtain ⟨d1, h1, rfl⟩ := map_ok hc
      refine Eq.trans ?_ (writeSlice_groups h1)
      split <;> rfl
    · next e1 _ => cases e1 <;> cases h

section
variable {m : Mgmt} {d e : Dev} {sp ctx : Nat} {s : Surf} {t comp blk : Nat}

theorem surfWrite_groups {p : DWord} {n x : Nat} (h : surfWrite m d sp ctx p n x = .ok e) : e.groups = d.groups := by
  unfold surfWrite at h
  split at h
  · next h1 =>
    have hput := distPut_groups h1
    cases h
    exact hput
  · cases h
  · cases h

@[simp] theorem takeDeviceFault_groups (m : Mgmt) (d : Dev) (ctx : Nat) (c : Cause) (sub : Nat) (addr hdr : DWord) :
    (takeDeviceFault m d ctx c sub addr hdr).groups = d.groups := by
  obtain ⟨r, kill, he, -⟩ := takeDeviceFault_spec m d ctx c sub addr hdr
  rw [he]

/-! ## What the codec holds -/

@[simp] theorem noteTile_groups (m : Mgmt) (d : Dev) (ctx : Nat) (s : Surf) (t : Nat) : (noteTile m d ctx s t).groups = d.groups := by
  unfold noteTile
  split
  · rfl
  · dsimp only
    split <;> rfl

@[simp] theorem noteRefs_groups (m : Mgmt) (d : Dev) (ctx : Nat) (s : Surf) (h : THdr) (pix : List (Nat × Nat)) :
    (noteRefs m d ctx s h pix).groups = d.groups := by
  unfold noteRefs
  split
  · refine foldl_keeps (fun d : Dev => d.groups) ?_ _ d
    exact fun d x => noteTile_groups m d ctx x.1 x.2
  · rfl

@[simp] theorem forgetTile_groups (m : Mgmt) (d : Dev) (ctx : Nat) (s : Surf) (t : Nat) :
    (forgetTile m d ctx s t).groups = d.groups := by unfold forgetTile; split <;> rfl

@[simp] theorem keepBlock_groups (m : Mgmt) (d : Dev) (ctx : Nat) (s : Surf) (t comp blk : Nat) (pix : List Nat) :
    (keepBlock m d ctx s t comp blk pix).groups = d.groups := by
  unfold keepBlock
  split
  · exact noteTile_groups m d ctx s t
  · rfl

/-! ## Blocks -/

theorem slotWrite_groups {x : Nat} (h : slotWrite m d sp ctx s t comp blk x = .ok e) : e.groups = d.groups := by
  obtain ⟨d1, h1, rfl⟩ := map_ok h
  refine Eq.trans ?_ ((surfWrite_groups h1).trans (noteTile_groups m d ctx s t))
  split <;> rfl

theorem bumpOvf_groups (h : bumpOvf m d sp ctx s = .ok e) : e.groups = d.groups := by
  unfold bumpOvf at h
  dsimp only at h
  split at h
  · cases h
  · cases h; exact takeDeviceFault_groups ..
  · cases h; exact takeDeviceFault_groups ..
  split at h
  · cases h
  · cases h; exact takeDeviceFault_groups ..
  · cases h; exact takeDeviceFault_groups ..
  · next h1 => cases h; exact surfWrite_groups h1

theorem codeBlock_groups {h : THdr} {c : List Int} {p : List Nat} {r : Dev × THdr}
    (hr : codeBlock m d sp ctx s h t comp blk c p = .ok r) : r.1.groups = d.groups := by
  unfold codeBlock at hr
  dsimp only at hr
  split at hr
  · cases hr
  next d1 h1 =>
  have hkept (pix : List Nat) : (keepBlock m d1 ctx s t comp blk pix).groups = d.groups :=
    (keepBlock_groups ..).trans (slotWrite_groups h1)
  split at hr
  · split at hr
    · cases hr
    next d3 h3 =>
    obtain ⟨d4, h4, rfl⟩ := map_ok hr
    exact (bumpOvf_groups h4).trans ((surfWrite_groups h3).trans (hkept _))
  · cases hr
    exact hkept _

/-! ## Actions -/

theorem writePixels_groups {mask : BitVec 16} {vals : List Nat} (h : writePixels m d sp ctx s t comp blk mask vals = .ok e) :
    e.groups = d.groups := by
  unfold writePixels at h
  split at h
  · cases h
  dsimp only at h
  split at h
  · cases h
  split at h
  · cases h
  obtain ⟨r, hr, rfl⟩ := map_ok h
  exact (codeBlock_groups hr).trans (noteRefs_groups ..)

theorem writeCoef_groups {sc : Nat} {v : Int} (h : writeCoef m d sp ctx s t comp blk sc v = .ok e) : e.groups = d.groups := by
  unfold writeCoef at h
  split at h
  · cases h
  split at h
  · cases h
  obtain ⟨r, hr, rfl⟩ := map_ok h
  exact (forgetTile_groups ..).trans (codeBlock_groups hr)

theorem clearTile_groups (h : clearTile m d sp ctx s t = .ok e) : e.groups = d.groups := by
  unfold clearTile at h
  dsimp only at h
  split at h
  · cases h
  next d1 h1 =>
  exact (foldlM_keeps (fun d : Dev => d.groups) (fun _ _ _ => slotWrite_groups) h).trans
    ((surfWrite_groups h1).trans (forgetTile_groups ..))

theorem rebaseTile_groups {mode mvx mvy : Nat} (h : rebaseTile m d sp ctx s t mode mvx mvy = .ok e) : e.groups = d.groups := by
  unfold rebaseTile at h
  dsimp only at h
  split at h
  · cases h
  split at h
  · cases h
  split at h
  · cases h
  split at h
  · cases h
  next d1 h1 =>
  obtain ⟨r, hr, rfl⟩ := map_ok h
  have hcoded := foldlM_keeps (fun r : Dev × THdr => r.1.groups) (fun _ _ _ => codeBlock_groups) hr
  refine hcoded.trans ((surfWrite_groups h1).trans ?_)
  rw [forgetTile_groups, noteRefs_groups, noteRefs_groups]

/-- An action on a surface leaves the groups as they are. -/
theorem applyAct_groups {a : SurfAct} (h : applyAct m d sp ctx s t a = .ok e) : e.groups = d.groups := by
  unfold applyAct at h
  dsimp only at h
  split at h
  · cases h
  · cases h; exact takeDeviceFault_groups ..
  · cases h; exact takeDeviceFault_groups ..
  next d1 hr =>
  cases h
  cases a with
  | pixels comp blk mask vals => exact writePixels_groups hr
  | coef comp blk sc v => exact writeCoef_groups hr
  | clear => exact clearTile_groups hr
  | rebase mode mvx mvy => exact rebaseTile_groups hr
  | _ => cases hr; rfl

end

/-- Two folds agree whose steps agree wherever a view is as it was, when the steps keep that view. -/
theorem foldlM_eq_of_keeps {ε α β γ : Type} (v : β → γ) {f g : β → α → Except ε β} {c : γ} (hfg : ∀ b a, v b = c → f b a = g b a)
    (hg : ∀ b a b1, g b a = .ok b1 → v b1 = v b) (xs : List α) : ∀ {b : β}, v b = c → xs.foldlM f b = xs.foldlM g b := by
  induction xs with
  | nil => exact fun _ => rfl
  | cons a xs ih =>
    intro b hb
    rw [List.foldlM_cons, List.foldlM_cons, hfg b a hb]
    cases h : g b a with
    | error e => rfl
    | ok b1 => exact ih ((hg b a b1 h).trans hb)

/-- The actions of an operation all act for one spindle, since none of them moves its group. -/
theorem foldlM_applyAct_spindle (m : Mgmt) (d0 : Dev) (gid ctx : Nat) (s : Surf) (t : Nat) (acts : List SurfAct) :
    acts.foldlM (fun d a => applyAct m d (spindleNo (groupOf d gid)) ctx s t a) d0 =
      acts.foldlM (fun d a => applyAct m d (spindleNo (groupOf d0 gid)) ctx s t a) d0 :=
  foldlM_eq_of_keeps (fun d : Dev => d.groups) (c := d0.groups)
    (fun _ a hd => congrArg (fun g => applyAct m _ (spindleNo g) ctx s t a) (groupOf_congr hd gid))
    (fun _ _ _ => applyAct_groups) acts rfl

end Sys2Proof.Machine
end

section
/-!
PROOFS. Writes of predictive surfaces (R382, R388, R402, R425 to R437): the instructions that make out operations, SEAL, and the two
device steps of an operation, its registration and its application.
-/

namespace Sys2Proof.Machine
open Claims

/-! ## Operations sent to be registered (R425) -/

/-- Nothing that the operations need has to be waited for. -/
def OpsFree (m : Mgmt) (d : Dev) (sf : Surf) (ops : List SurfOp) : Prop := ∀ w, tryOps m d (curCtx d) sf ops ≠ .error (.need w)

/-- The device with the operations made out and their registration due. -/
def opsSent (d : Dev) (ops : List SurfOp) : Dev := post (addOps d ops) (.surfaceWriteRegistered d.cur.skein)

theorem sendOps_of_free {m : Mgmt} {d : Dev} {sf : Surf} {ops : List SurfOp} (h : OpsFree m d sf ops) :
    sendOps m d sf ops = .park (opsSent d ops) .surf := by
  unfold sendOps
  split
  next w hw => exact absurd hw (h w)
  next => rfl

/-! ## STPX and STCF (R427, R428, R430) -/

/-- A write of the lanes `ex`: without one it only moves on, else its checks and operations. -/
def laneWriteBody (checks : Mgmt → Dev → Mask → SurfM Surf) (ops : Mgmt → Dev → Mask → Surf → List SurfOp) (m : Mgmt) (d : Dev)
    (ex : Mask) (da : Dev) : Res :=
  if (lanesOf ex).isEmpty then .done da
  else
    match checks m d ex with
    | .error e => surfRes d ex true [] e
    | .ok s => sendOps m d s (ops m d ex s)

theorem exec_stpx (o : Lm) (s : State) : exec (.stpx o) s = s.run fun m d =>
    laneIssue m d (hdXw o [.s o.sb 2, .v o.a 1, .v o.d (pixNc o + if pixOrd o then 1 else 0)] true)
      (laneWriteBody (fun m d => stpxChecks m d o) (fun m d => stpxOps m d o) m d) := rfl
theorem exec_stcf (o : Lm) (s : State) : exec (.stcf o) s = s.run fun m d =>
    laneIssue m d (hdXw o [.s o.sb 2, .v o.a 1, .v o.d 1] true)
      (laneWriteBody (fun m d => stcfChecks m d o) (fun m d => stcfOps m d o) m d) := rfl

section
variable {i : Instr} {s : State} {o : Lm} {rds : List Rd} {checks : Mgmt → Dev → Mask → SurfM Surf}
  {ops : Mgmt → Dev → Mask → Surf → List SurfOp}
  (he : exec i s = s.run fun m d => laneIssue m d (hdXw o rds true) (laneWriteBody checks ops m d))
  (hc : LaneClear s o.xw.p o.xw.n rds)
include he hc

theorem laneWrite_idle (h : lanesUnder s o.xw.p o.xw.n = 0) : Goes i s (moved s o.w 8 false) := by
  refine (goes_breakerDone (h := hdXw o rds true) he rfl hc rfl (if_pos ?_)).congr ?_
  · exact List.isEmpty_iff.2 (lanesOf_eq_nil_iff.2 h)
  · exact congrArg (movedIn s o.w 8) h

theorem laneWrite_sent {sf : Surf} (hne : lanesUnder s o.xw.p o.xw.n ≠ 0)
    (hk : checks s.mgmt s.dev (lanesUnder s o.xw.p o.xw.n) = .ok sf)
    (hf : OpsFree s.mgmt s.dev sf (ops s.mgmt s.dev (lanesUnder s o.xw.p o.xw.n) sf)) :
    Goes i s (parkedIn s o.w 8 (lanesUnder s o.xw.p o.xw.n)
      (opsSent s.dev (ops s.mgmt s.dev (lanesUnder s o.xw.p o.xw.n) sf)) .surf) := by
  refine goes_breakerPark (h := hdXw o rds true) he rfl hc rfl ((if_neg ?_).trans ?_)
  · exact mt List.isEmpty_iff.1 (mt lanesOf_eq_nil_iff.1 hne)
  · exact (congrArg (fun r : SurfM Surf => match r with
      | .error e => surfRes s.dev (lanesUnder s o.xw.p o.xw.n) true [] e
      | .ok sf => sendOps s.mgmt s.dev sf (ops s.mgmt s.dev (lanesUnder s o.xw.p o.xw.n) sf)) hk).trans (sendOps_of_free hf)

end

/-! ## STMV and SURFCLR (R436, R437) -/

def stmvBody (o : Ue) (m : Mgmt) (d : Dev) : Res :=
  match stmvChecks m d o with
  | .error e => surfRes d d.cur.lanes true [] e
  | .ok s => sendOps m d s (stmvOps m d o s)

/-- The operations of SURFCLR. -/
def surfclrOps (m : Mgmt) (d : Dev) (o : Ue) (sf : Surf) : List SurfOp :=
  (clrTiles d o sf).map fun t => surfOp m d (surfPtr d o) d.cur.lanes t [.clear]

def clrBody (o : Ue) (m : Mgmt) (d da : Dev) : Res :=
  match clrChecks m d o with
  | .error e => surfRes d d.cur.lanes true [] e
  | .ok s => if (clrTiles d o s).isEmpty then .done da else sendOps m d s (surfclrOps m d o s)

theorem exec_stmv (o : Ue) (s : State) :
    exec (.stmv o) s = s.run fun m d => uniIssue m d (hdUe o 4 [.s o.sp 4]) fun _ => stmvBody o m d := rfl
theorem exec_surfclr (o : Ue) (s : State) :
    exec (.surfclr o) s = s.run fun m d => uniIssue m d (hdUe o 4 [.s o.sp 4]) (clrBody o m d) := rfl

section
variable {s : State} {o : Ue} {sf : Surf} (hc : UniClear s 7 false [.s o.sp 4])
include hc

theorem stmv_sent (hk : stmvChecks s.mgmt s.dev o = .ok sf) (hf : OpsFree s.mgmt s.dev sf (stmvOps s.mgmt s.dev o sf)) :
    Goes (.stmv o) s (parkedIn s o.w 4 (endsIf true) (opsSent s.dev (stmvOps s.mgmt s.dev o sf)) .surf) :=
  goes_uniformPark (h := hdUe o 4 [.s o.sp 4]) (exec_stmv o s) rfl hc (condUnder_seven s)
    (by rw [stmvBody, hk]; exact sendOps_of_free hf)

variable (hk : clrChecks s.mgmt s.dev o = .ok sf)
include hk

theorem surfclr_idle (h : clrTiles s.dev o sf = []) : Goes (.surfclr o) s (moved s o.w 4 true) :=
  goes_uniformDone (h := hdUe o 4 [.s o.sp 4]) (exec_surfclr o s) rfl hc (condUnder_seven s)
    (by rw [clrBody, hk]; exact if_pos (List.isEmpty_iff.2 h))

theorem surfclr_sent (h : clrTiles s.dev o sf ≠ []) (hf : OpsFree s.mgmt s.dev sf (surfclrOps s.mgmt s.dev o sf)) :
    Goes (.surfclr o) s (parkedIn s o.w 4 (endsIf true) (opsSent s.dev (surfclrOps s.mgmt s.dev o sf)) .surf) :=
  goes_uniformPark (h := hdUe o 4 [.s o.sp 4]) (exec_surfclr o s) rfl hc (condUnder_seven s)
    (by rw [clrBody, hk]; exact (if_neg (mt List.isEmpty_iff.1 h)).trans (sendOps_of_free hf))

end

/-! ## SEAL (R388, R435) -/

/-- The surface that SEAL names, the stream it is for, and whether it is to be queued there. -/
def sealPtr (d : Dev) (o : Ue) : DWord := readS64 d (curSkein d) o.sp.toNat
def sealStream (d : Dev) (o : Ue) : Option Stream := tget? d.streams (streamKey (curGroup d).die (o.tag.toNat % 16))
def sealEgr (d : Dev) (o : Ue) : Bool := o.sub.getLsbD 0 && !d.sealOnly.contains d.cur.skein
def sealMine (d : Dev) (o : Ue) : Bool := ((sealStream d o).map fun x => x.ctx == curCtx d).getD false
def sealFull (d : Dev) (o : Ue) : Bool := ((sealStream d o).map fun x => decide (4 ≤ x.queue.length)).getD false

/-- The device with a SEAL in its place, which is applied next. -/
def sealPlaced (m : Mgmt) (d : Dev) (o : Ue) : Dev :=
  post { d with
    nextId := d.nextId + 1
    surfOps := d.surfOps ++ [{ surfOp m d (sealPtr d o) d.cur.lanes 0 [.seal] with
      id := d.nextId
      reg := true }]
    sealOnly := d.sealOnly.filter fun v => v != d.cur.skein } (.surfaceOpApply d.nextId)

def sealBody (o : Ue) (m : Mgmt) (d : Dev) : Res :=
  match openSurf m d (curCtx d) (sealPtr d o) true fun _ => .ok () with
  | .error e => surfRes d d.cur.lanes true [] e
  | .ok _ =>
    if sealPending d (descNo m d (curCtx d) (sealPtr d o)) || (sealEgr d o && !sealMine d o) then
      .fault (faultAt .perm (sealPtr d o) d.cur.lanes)
    else if sealEgr d o && sealFull d o then .park d (.egress (curGroup d).die (o.tag.toNat % 16))
    else
      match surfCheck m d (curCtx d) (sealPtr d o) 4 4 stTile true with
      | .error e => surfRes d d.cur.lanes true [] e
      | .ok _ =>
        .park (sealPlaced m d o)
          (.seal d.nextId (if sealEgr d o then some (streamKey (curGroup d).die (o.tag.toNat % 16)) else none))

theorem exec_seal (o : Ue) (s : State) :
    exec (.seal o) s = s.run fun m d => uniIssue m d (hdUe o 4 [.s o.sp 2]) fun _ => sealBody o m d := rfl

section
variable {m : Mgmt} {d : Dev} {o : Ue} {sf : Surf}
  (hopen : openSurf m d (curCtx d) (sealPtr d o) true (fun _ => .ok ()) = .ok sf)
include hopen

theorem sealBody_of_refused (h : sealPending d (descNo m d (curCtx d) (sealPtr d o)) = true ∨
    (sealEgr d o = true ∧ sealMine d o = false)) : sealBody o m d = .fault (faultAt .perm (sealPtr d o) d.cur.lanes) := by
  rw [sealBody, hopen]
  exact if_pos (by simpa using h)

variable (hp : sealPending d (descNo m d (curCtx d) (sealPtr d o)) = false)
include hp

theorem sealBody_of_full (he : sealEgr d o = true) (hm : sealMine d o = true) (hf : sealFull d o = true) :
    sealBody o m d = .park d (.egress (curGroup d).die (o.tag.toNat % 16)) := by
  rw [sealBody, hopen]
  simp [hp, he, hm, hf]

theorem sealBody_of_room (h : sealEgr d o = false ∨ (sealMine d o = true ∧ sealFull d o = false))
    (hk : surfCheck m d (curCtx d) (sealPtr d o) 4 4 stTile true = .ok ()) : sealBody o m d =
      .park (sealPlaced m d o)
        (.seal d.nextId (if sealEgr d o then some (streamKey (curGroup d).die (o.tag.toNat % 16)) else none)) := by
  have h1 : (sealEgr d o && !sealMine d o) = false := by rcases h with h | ⟨h, -⟩ <;> simp [h]
  have h2 : (sealEgr d o && sealFull d o) = false := by rcases h with h | ⟨-, h⟩ <;> simp [h]
  rw [sealBody, hopen]
  simp only [hp, h1, h2, hk, Bool.or_self, Bool.false_eq_true, if_false]

end

section
variable {s : State} {o : Ue} (hc : UniClear s 7 false [.s o.sp 2])
include hc

theorem seal_fault {f : FaultInfo} (hb : sealBody o s.mgmt s.dev = .fault f) : Goes (.seal o) s (trapped s o.w 4 true f) :=
  goes_uniformFault (h := hdUe o 4 [.s o.sp 2]) (exec_seal o s) rfl hc (condUnder_seven s) true hb

theorem seal_park {d1 : Dev} {q : Park} (hb : sealBody o s.mgmt s.dev = .park d1 q) :
    Goes (.seal o) s (parked s o.w 4 true d1 q) :=
  goes_uniformPark (h := hdUe o 4 [.s o.sp 2]) (exec_seal o s) rfl hc (condUnder_seven s) hb

end

/-! ## Registration (R388, R402, R425) -/

/-- The operations of a skein that wait for their places. -/
def opsWaiting (d : Dev) (u : Nat) : List SurfOp := d.surfOps.filter fun x => x.skein == u && !x.reg

/-- A skein's write that came after a SEAL: its operations are gone, and it raises PERM. -/
def opsRefused (m : Mgmt) (d : Dev) (u : Nat) (q : SurfOp) : Dev :=
  let k := skeinOf d u
  takeFault m { d with surfOps := d.surfOps.filter fun x => x.reg || x.skein != u } u
    (threadOf k ((lanesOf k.parkLanes).headD 0)).pc k.parkNext k.parkLanes (faultAt .perm q.desc q.lanes)

theorem exec_surfaceWriteRegistered (u : Nat) (s : State) :
    exec (.surfaceWriteRegistered u) s = execSurfaceWriteRegistered u s := rfl

section
variable {s : State} {u : Nat}

theorem surfaceWriteRegistered_of_gone (hp : (skeinOf s.dev u).park ≠ some .surf) :
    Goes (.surfaceWriteRegistered u) s s.dev := by
  refine goes_run (exec_surfaceWriteRegistered u s) ?_
  dsimp only
  split
  · next h _ => exact absurd h hp
  · next h _ => exact absurd h hp
  · rfl

variable {q : SurfOp} {r : List SurfOp} (hp : (skeinOf s.dev u).park = some .surf) (hq : opsWaiting s.dev u = q :: r)
include hp hq

theorem surfaceWriteRegistered_of_open (h : isSealed s.mgmt s.dev q = .ok false) :
    Goes (.surfaceWriteRegistered u) s (if (opsWaiting ((q :: r).foldl registerOp s.dev) u).isEmpty then
      unpark ((q :: r).foldl registerOp s.dev) u else (q :: r).foldl registerOp s.dev) := by
  have hq' : (s.dev.surfOps.filter fun x => x.skein == u && !x.reg) = q :: r := hq
  refine goes_run (exec_surfaceWriteRegistered u s) ?_
  simp only [hp, hq', h]
  rfl

theorem surfaceWriteRegistered_of_sealed (h : isSealed s.mgmt s.dev q = .ok true) :
    Goes (.surfaceWriteRegistered u) s (opsRefused s.mgmt s.dev u q) := by
  have hq' : (s.dev.surfOps.filter fun x => x.skein == u && !x.reg) = q :: r := hq
  refine goes_run (exec_surfaceWriteRegistered u s) ?_
  simp only [hp, hq', h]
  rfl

end

/-! ## Application (R382, R388) -/

theorem exec_surfaceOpApply (id : Nat) (s : State) : exec (.surfaceOpApply id) s = execSurfaceOpApply id s := rfl

/-- The device without an operation, the records it has made named by its group. -/
def opGone (d : Dev) (q : SurfOp) (id : Nat) (d1 : Dev) : Dev :=
  namedBy d (groupOf d q.gid) { d1 with surfOps := d1.surfOps.filter fun x => x.id != id }

theorem namedBy_spec (d0 : Dev) (g : Group) (d : Dev) : ∃ rs, namedBy d0 g d = { d with records := rs } := by
  rw [namedBy]
  split
  · exact ⟨_, rfl⟩
  · exact ⟨_, rfl⟩

/-- A write that has been applied: what waited for it goes on. -/
def opApplied (d : Dev) (q : SurfOp) (id : Nat) (d1 : Dev) : Dev :=
  resumeHalf (pokeOps (modGroup (opGone d q id d1) q.gid fun g =>
    { g with tile := g.tile.map fun r => { r with done := r.done ++ q.marks.filter fun x => !r.done.contains x } }) q.dhalf q.tile)
    (2 * (q.dhalf / 2))

theorem opApplied_mem (d : Dev) (q : SurfOp) (id : Nat) (d1 : Dev) : (opApplied d q id d1).mem = d1.mem := by
  obtain ⟨rs, h⟩ := namedBy_spec d (groupOf d q.gid) { d1 with surfOps := d1.surfOps.filter fun x => x.id != id }
  rw [opApplied, opGone, h]
  rfl

theorem opApplied_surfOps (d : Dev) (q : SurfOp) (id : Nat) (d1 : Dev) :
    (opApplied d q id d1).surfOps = d1.surfOps.filter fun x => x.id != id := by
  obtain ⟨rs, h⟩ := namedBy_spec d (groupOf d q.gid) { d1 with surfOps := d1.surfOps.filter fun x => x.id != id }
  rw [opApplied, opGone, h]
  rfl

section
variable {s : State} {id : Nat} {q : SurfOp} (hq : (s.dev.surfOps.find? fun x => x.id == id && x.reg) = some q)
include hq

theorem surfaceOpApply_of_waits (h : opWaits s.dev q = true) : Goes (.surfaceOpApply id) s s.dev := by
  refine goes_run (exec_surfaceOpApply id s) ?_
  simp only [hq, h, Bool.true_or, if_true, ite_self]

variable (hw : opWaits s.dev q = false)
include hw

theorem surfaceOpApply_of_write {sf : Surf} {d1 : Dev} (ha : q.acts.contains .seal = false) (hm : q.marks = [])
    (hr : readSurfAgain s.mgmt s.dev q.ctx q.desc = .ok sf)
    (hf : (q.acts.foldlM (fun d a => applyAct s.mgmt d (spindleNo (groupOf s.dev q.gid)) q.ctx sf q.tile a) s.dev : SurfM Dev) =
      .ok d1) : Goes (.surfaceOpApply id) s (opApplied s.dev q id d1) := by
  refine goes_run (exec_surfaceOpApply id s) ?_
  simp only [hq, ha, hw, hr, hf, Bool.false_eq_true, if_false, hm, List.isEmpty_nil, if_true]
  rw [opApplied, hm]
  rfl

theorem surfaceOpApply_of_seal {d1 : Dev} (ha : q.acts.contains .seal = true)
    (hp : (skeinOf s.dev q.skein).park = some (.seal id none)) (hn : sealNow s.mgmt s.dev q none = .ok d1) :
    Goes (.surfaceOpApply id) s (unpark (opGone s.dev q id d1) q.skein) := by
  refine goes_run (exec_surfaceOpApply id s) ?_
  simp only [hq, ha, hw, hp, hn, if_true, Bool.not_true, Bool.or_self, Bool.false_eq_true, if_false]
  rfl

end

/-! ## The statement -/

/-- Settles O34: each clause is the lemma of its instruction or step and outcome. -/
theorem surfaceWrites : Obligations.SurfaceWrites := by
  refine ⟨fun s _ => ⟨fun o sf => ⟨fun hc => ⟨laneWrite_idle (exec_stpx o s) hc, laneWrite_sent (exec_stpx o s) hc⟩, fun hc =>
      ⟨laneWrite_idle (exec_stcf o s) hc, laneWrite_sent (exec_stcf o s) hc⟩⟩, fun o sf hc =>
    ⟨stmv_sent hc, fun hk => ⟨surfclr_idle hc hk, surfclr_sent hc hk⟩⟩, ?_⟩, fun s => ⟨?_, ?_, ?_⟩⟩
  · intro o sf hc p egr key mine full hopen sealing
    exact ⟨fun h => seal_fault hc (sealBody_of_refused hopen h), fun hp he hm hf => seal_park hc (sealBody_of_full hopen hp he hm hf),
      fun hp h hk => seal_park hc (sealBody_of_room hopen hp h hk)⟩
  · intro u q r hp hq d1 left
    refine ⟨fun h => ⟨fun hl => ?_, fun hl => ?_⟩, surfaceWriteRegistered_of_sealed hp hq⟩
    · exact (surfaceWriteRegistered_of_open hp hq h).congr (if_pos (List.isEmpty_iff.2 hl))
    · exact (surfaceWriteRegistered_of_open hp hq h).congr (if_neg (mt List.isEmpty_iff.1 hl))
  · exact fun u => surfaceWriteRegistered_of_gone
  · intro id q hq
    refine ⟨surfaceOpApply_of_waits hq, fun sf d1 ha hm hw hr hf => ?_, fun d1 ha hw hp hn => surfaceOpApply_of_seal hq hw ha hp hn⟩
    rw [foldlM_applyAct_spindle s.mgmt s.dev q.gid q.ctx sf q.tile q.acts] at hf
    refine ⟨_, surfaceOpApply_of_write hq hw ha hm hr hf, opApplied_mem _ _ _ _, fun x hx => ?_⟩
    rw [opApplied_surfOps, List.mem_filter] at hx
    simpa using hx.2

end Sys2Proof.Machine
end

section
/-!
PROOFS. SMP (R416 to R422, R431) and the decoupled sampling cache with DSCL and DSCF (R408 to R415, R432, R433).
-/

namespace Sys2Proof.Machine
open Claims

/-! ## Texels (R421) -/

section
variable {m : Mgmt} {d da : Dev} {items : List (Nat × Nat × Nat)} {undef : List PWrite} {f : List (List Nat) → Dev → Res}

theorem plainTexels_of_loaded {g : Image} {acc : List (LAcc × Leaf × Nat)} {vals : List (Nat × Nat)} {d3 : Dev} {t : Nat}
    (hk : loadChecks m d (texelBytes g.fmt) (texelBytes g.fmt) 0 (texelAccs g items) = .go acc) (ho : ownedLine d acc = none)
    (hl : loadLanes m da (curCtx d) (curSpindle d) (texelBytes g.fmt) 0 acc = .ok (vals, d3, t)) :
    plainTexels m d da g items undef f = f (vals.map fun v => texelVals g.fmt v.2) d3 := by
  simp only [plainTexels, hk, ho, hl]

theorem predTexels_of_read {sf : Surf} {p : DWord} {ex : Mask} {c : List (Nat × Unit)}
    {vs : List (Nat × List (List Nat × List (Nat × Nat × Nat × List Nat)))}
    (hk : perLane (lanesOf ex) (predCheck m d sf items) = .ok c)
    (hh : (items.findSome? fun i => tileHalf d (descNo m d (curCtx d) p) (tileOfPix sf i.2.1 i.2.2)) = none)
    (hv : perLane (lanesOf ex) (predValues m d sf items) = .ok vs) :
    predTexels m d da sf p ex items undef f = f (vs.flatMap fun v => v.2.map fun x => x.1)
      (keepBlocks m (noteTiles m da (curCtx d) sf true items) (curCtx d) sf (vs.flatMap fun v => v.2.flatMap fun x => x.2)) := by
  simp only [predTexels, hk, hh, hv]

end

/-! ## SMP's stages (R431) -/

/-- The registers that a fault of SMP leaves undefined. -/
def smpUndef (o : Lm) (ex : Mask) : List PWrite := (lanesOf ex).flatMap fun l => splitRegs (wrV l) o.d.toNat 0 4

/-- The results put in flight from the texels. -/
def smpFinish (o : Lm) (d : Dev) (ex : Mask) (pr : Prog) (lat : Nat) (ts : List (List Nat)) (d3 : Dev) : Res :=
  .done (addPend d3 d.cur.skein (max lat (surfLat d)) (smpWrites d o pr (lanesOf ex) ts))

/-- The lanes whose compare value is still in flight. -/
def smpHazard (o : Lm) (d : Dev) (ex : Mask) (pr : Prog) : Mask :=
  if pr.cmp then hazV (curSkein d) ex (o.a.toNat + 2) 1 else 0

/-- SMP behind its program: the texels of every lane. -/
def smpTexels (o : Lm) (m : Mgmt) (d : Dev) (ex : Mask) (lat : Nat) (g : Image) (pr : Prog) (d2 : Dev) : Res :=
  if isDet m (curCtx d) && smpHazard o d ex pr != 0 then .fault (faultAt .hazard 0 (smpHazard o d ex pr))
  else if g.pred then
    match openSurf m d (curCtx d) g.base false fun _ => .ok () with
    | .error e => surfRes d ex false (smpUndef o ex) e
    | .ok sf => predTexels m d d2 sf g.base ex (smpItems d o pr { g with w := sf.w, h := sf.h } (lanesOf ex)) (smpUndef o ex)
      (smpFinish o d ex pr lat)
  else plainTexels m d d2 g (smpItems d o pr g (lanesOf ex)) (smpUndef o ex) (smpFinish o d ex pr lat)

/-- SMP behind its descriptor: the program of the image's table. -/
def smpProgram (o : Lm) (m : Mgmt) (d : Dev) (ex : Mask) (d1 : Dev) (lat : Nat) (g : Image) : Res :=
  match progLines m d1 (curCtx d) (curGroup d).launch (smpProg o g) with
  | .error e => surfRes d ex false (smpUndef o ex) e
  | .ok (y, d2) =>
    match parseProg (BitVec.ofNat 4096 y) with
    | none => .fault (faultAt .bounds (smpProg o g) ex)
    | some pr => smpTexels o m d ex lat g pr d2

/-- The descriptor's address, and SMP on the descriptor read. -/
def smpPtr (d : Dev) (o : Lm) : DWord := readS64 d (curSkein d) o.sb.toNat
def smpImage (o : Lm) (m : Mgmt) (d : Dev) (ex : Mask) (x : Nat) (d1 : Dev) (lat : Nat) : Res :=
  match parseImage (BitVec.ofNat 256 x) with
  | none => .fault (faultAt .bounds (smpPtr d o) ex)
  | some g => smpProgram o m d ex d1 lat g

def smpBody (o : Lm) (m : Mgmt) (d : Dev) (ex : Mask) (da : Dev) : Res :=
  if (lanesOf ex).isEmpty then .done da
  else bundleLoad m (forLanes d ex) da (smpPtr d o) 32 0 (smpUndef o ex) false (smpImage o m d ex)

theorem exec_smp (o : Lm) (s : State) :
    exec (.smp o) s = s.run fun m d => laneIssue m d (hdXw o [.s o.sb 2, .v o.a 2] false) (smpBody o m d) := rfl

section
variable {o : Lm} {m : Mgmt} {d d1 : Dev} {ex : Mask} {lat : Nat}

theorem smpImage_of_malformed {x : Nat} (h : parseImage (BitVec.ofNat 256 x) = none) :
    smpImage o m d ex x d1 lat = .fault (faultAt .bounds (smpPtr d o) ex) := by rw [smpImage, h]

theorem smpImage_of_image {x : Nat} {g : Image} (h : parseImage (BitVec.ofNat 256 x) = some g) :
    smpImage o m d ex x d1 lat = smpProgram o m d ex d1 lat g := by rw [smpImage, h]

section
variable {g : Image} {y : Nat} {d2 : Dev} (hy : progLines m d1 (curCtx d) (curGroup d).launch (smpProg o g) = .ok (y, d2))
include hy

theorem smpProgram_of_malformed (h : parseProg (BitVec.ofNat 4096 y) = none) :
    smpProgram o m d ex d1 lat g = .fault (faultAt .bounds (smpProg o g) ex) := by simp only [smpProgram, hy, h]

theorem smpProgram_of_program {pr : Prog} (h : parseProg (BitVec.ofNat 4096 y) = some pr) :
    smpProgram o m d ex d1 lat g = smpTexels o m d ex lat g pr d2 := by simp only [smpProgram, hy, h]

end

section
variable {g : Image} {pr : Prog} {d2 : Dev}
  (hz : isDet m (curCtx d) = true → pr.cmp = true → hazV (curSkein d) ex (o.a.toNat + 2) 1 = 0)
include hz

theorem smpHazard_clear : (isDet m (curCtx d) && smpHazard o d ex pr != 0) = false := by
  rw [smpHazard]
  cases hd : isDet m (curCtx d) with
  | false => rfl
  | true =>
    cases hc : pr.cmp with
    | false => rfl
    | true => simp [hz hd hc]

theorem smpTexels_plain (hp : g.pred = false) : smpTexels o m d ex lat g pr d2 =
    plainTexels m d d2 g (smpItems d o pr g (lanesOf ex)) (smpUndef o ex) (smpFinish o d ex pr lat) := by
  rw [smpTexels, smpHazard_clear hz, hp]
  rfl

theorem smpTexels_pred {sf : Surf} (hp : g.pred = true) (hs : openSurf m d (curCtx d) g.base false (fun _ => .ok ()) = .ok sf) :
    smpTexels o m d ex lat g pr d2 =
      predTexels m d d2 sf g.base ex (smpItems d o pr { g with w := sf.w, h := sf.h } (lanesOf ex)) (smpUndef o ex)
        (smpFinish o d ex pr lat) := by
  rw [smpTexels, smpHazard_clear hz, hp, hs]
  rfl

end

end

theorem smp_idle {o : Lm} {s : State} (hc : LaneClear s o.xw.p o.xw.n [.s o.sb 2, .v o.a 2])
    (h : lanesOf (lanesUnder s o.xw.p o.xw.n) = []) : Goes (.smp o) s (moved s o.w 8 false) :=
  goes_laneDone (h := hdXw o [.s o.sb 2, .v o.a 2] false) (exec_smp o s) rfl rfl rfl hc (if_pos (List.isEmpty_iff.2 h))

section
variable {o : Lm} {s : State} {a : LAcc} {l : Leaf} {pa x lat : Nat} {d1 : Dev} (hne : lanesOf (lanesUnder s o.xw.p o.xw.n) ≠ [])
  (hk : bundleChecks s.mgmt (forLanes s.dev (lanesUnder s o.xw.p o.xw.n)) (smpPtr s.dev o) 32 0 = .go [(a, l, pa)])
  (ho : ownedLine s.dev [(a, l, pa)] = none)
  (hl : loadVia s.mgmt (moved s o.w 8 false) (curCtx s.dev) (curSpindle s.dev) (smpPtr s.dev o) l pa 32 0 0 = .ok (x, d1, lat))
include hne hk ho hl

/-- With the descriptor read, SMP comes to what the image makes of it. -/
theorem smpBody_of_loaded : smpBody o s.mgmt s.dev (lanesUnder s o.xw.p o.xw.n) (moved s o.w 8 false) =
    smpImage o s.mgmt s.dev (lanesUnder s o.xw.p o.xw.n)
      (bundleOver s.mgmt (forLanes s.dev (lanesUnder s o.xw.p o.xw.n)) pa 32 x) (useCurr d1 (usedBy 0 l pa)) (max lat 20) :=
  (if_neg (mt List.isEmpty_iff.1 hne)).trans
    (bundleLoad_of_loaded (d := forLanes s.dev (lanesUnder s o.xw.p o.xw.n)) hk ho hl)

variable (hc : LaneClear s o.xw.p o.xw.n [.s o.sb 2, .v o.a 2])
include hc

theorem smp_fault {f : FaultInfo} (hb : smpImage o s.mgmt s.dev (lanesUnder s o.xw.p o.xw.n)
    (bundleOver s.mgmt (forLanes s.dev (lanesUnder s o.xw.p o.xw.n)) pa 32 x) (useCurr d1 (usedBy 0 l pa)) (max lat 20) = .fault f) :
    Goes (.smp o) s (trapped s o.w 8 false f) :=
  goes_laneFault (h := hdXw o [.s o.sb 2, .v o.a 2] false) (exec_smp o s) rfl rfl rfl hc
    ((smpBody_of_loaded hne hk ho hl).trans hb)

theorem smp_done {d4 : Dev} (hb : smpImage o s.mgmt s.dev (lanesUnder s o.xw.p o.xw.n)
    (bundleOver s.mgmt (forLanes s.dev (lanesUnder s o.xw.p o.xw.n)) pa 32 x) (useCurr d1 (usedBy 0 l pa)) (max lat 20) = .done d4) :
    Goes (.smp o) s d4 :=
  goes_laneDone (h := hdXw o [.s o.sb 2, .v o.a 2] false) (exec_smp o s) rfl rfl rfl hc
    ((smpBody_of_loaded hne hk ho hl).trans hb)

end

/-! ## DSCL and DSCF (R432, R433) -/

def dsclBody (o : Lm) (d : Dev) (ex : Mask) (da : Dev) : Res :=
  match passOf d (curGroup d) with
  | none => if ex == 0 then .done da else .fault (faultAt .perm 0 ex)
  | some pass =>
    let r := (lanesOf ex).foldl (dsclStep d o (curGroup d) pass) ([], da)
    .done (addPend r.2 d.cur.skein (surfLat d) r.1)

def dscfBody (o : Lm) (d : Dev) (ex : Mask) (da : Dev) : Res :=
  match passOf d (curGroup d) with
  | none => if ex == 0 then .done da else .fault (faultAt .perm 0 ex)
  | some pass => .done ((lanesOf ex).foldl (dscfStep d o (curGroup d) pass) da)

theorem exec_dscl (o : Lm) (s : State) :
    exec (.dscl o) s = s.run fun m d => laneIssue m d (hdXw o [.v o.a 4] false) (dsclBody o d) := rfl
theorem exec_dscf (o : Lm) (s : State) :
    exec (.dscf o) s = s.run fun m d => laneIssue m d (hdXw o [.v o.a 4, .v o.d 4] false) (dscfBody o d) := rfl

section
variable {o : Lm} {s : State}

theorem dscl_outside (hp : passOf s.dev (curGroup s.dev) = none) (hc : LaneClear s o.xw.p o.xw.n [.v o.a 4])
    (hne : lanesUnder s o.xw.p o.xw.n ≠ 0) :
    Goes (.dscl o) s (trapped s o.w 8 false (faultAt .perm 0 (lanesUnder s o.xw.p o.xw.n))) :=
  goes_laneFault (h := hdXw o [.v o.a 4] false) (exec_dscl o s) rfl rfl rfl hc
    (by rw [dsclBody, hp]; exact if_neg (mt beq_iff_eq.1 hne))

theorem dscf_outside (hp : passOf s.dev (curGroup s.dev) = none) (hc : LaneClear s o.xw.p o.xw.n [.v o.a 4, .v o.d 4])
    (hne : lanesUnder s o.xw.p o.xw.n ≠ 0) :
    Goes (.dscf o) s (trapped s o.w 8 false (faultAt .perm 0 (lanesUnder s o.xw.p o.xw.n))) :=
  goes_laneFault (h := hdXw o [.v o.a 4, .v o.d 4] false) (exec_dscf o s) rfl rfl rfl hc
    (by rw [dscfBody, hp]; exact if_neg (mt beq_iff_eq.1 hne))

section
variable {pass : Nat} (hp : passOf s.dev (curGroup s.dev) = some pass)
include hp

theorem dscl_looks_up (hc : LaneClear s o.xw.p o.xw.n [.v o.a 4]) :
    let r := (lanesOf (lanesUnder s o.xw.p o.xw.n)).foldl (dsclStep s.dev o (curGroup s.dev) pass) ([], moved s o.w 8 false)
    Goes (.dscl o) s (addPend r.2 s.dev.cur.skein (surfLat s.dev) r.1) :=
  goes_laneDone (h := hdXw o [.v o.a 4] false) (exec_dscl o s) rfl rfl rfl hc (by rw [dsclBody, hp]; rfl)

theorem dscf_fills (hc : LaneClear s o.xw.p o.xw.n [.v o.a 4, .v o.d 4]) :
    Goes (.dscf o) s
      ((lanesOf (lanesUnder s o.xw.p o.xw.n)).foldl (dscfStep s.dev o (curGroup s.dev) pass) (moved s o.w 8 false)) :=
  goes_laneDone (h := hdXw o [.v o.a 4, .v o.d 4] false) (exec_dscf o s) rfl rfl rfl hc (by rw [dscfBody, hp]; rfl)

end

end

/-! ## One lookup (R410) -/

/-- Whether an entry waits for its value. -/
def isReserved (st : DscSt) : Bool :=
  match st with
  | .reserved .. => true
  | _ => false

/-- The entry that a MISS of a lane takes in a way. -/
def missEntry (d : Dev) (g : Group) (pass lane : Nat) (key : DWord) (w : Nat) : Dsc :=
  { spindle := spindleNo g, set := dscSet key, way := w, ctx := g.ctx, pass := pass, key := key, val := 0,
    st := .reserved g.gid (threadOf (skeinOf d d.cur.skein) lane).num0, used := d.nextId }

/-- A lookup that finds no entry of its key. -/
def lookupMiss (d : Dev) (g : Group) (pass lane : Nat) (key : DWord) : Nat × BitVec 128 × Dev :=
  match dscWay d (spindleNo g) (dscSet key) lane with
  | none => (2, 0, d)
  | some w =>
    (1, 0, missElem (dscPut (fresh d).2 (missEntry d g pass lane key w)) d.cur.skein
      ((32 * (skeinOf d d.cur.skein).idx + lane) * 2 ^ 12 + 4 * dscSet key + w))

theorem dscLookup_eq (d : Dev) (g : Group) (pass lane : Nat) (key : DWord) : dscLookup d g pass lane key =
    match dscFind d (spindleNo g) g.ctx pass key (· == .valid) with
    | some e => (0, e.val, dscPut (fresh d).2 { e with used := d.nextId })
    | none =>
      match dscFind d (spindleNo g) g.ctx pass key isReserved with
      | some _ => (2, 0, d)
      | none => lookupMiss d g pass lane key := rfl

section
variable {d : Dev} {g : Group} {pass lane : Nat} {key : DWord}

theorem dscLookup_of_valid {e : Dsc} (h : dscFind d (spindleNo g) g.ctx pass key (· == .valid) = some e) :
    (dscLookup d g pass lane key).1 = 0 ∧ (dscLookup d g pass lane key).2.1 = e.val := by
  rw [dscLookup_eq]
  simp only [h, and_self]

variable (hv : dscFind d (spindleNo g) g.ctx pass key (· == .valid) = none)
include hv

theorem dscLookup_of_reserved (h : dscFind d (spindleNo g) g.ctx pass key isReserved ≠ none) :
    (dscLookup d g pass lane key).1 = 2 ∧ (dscLookup d g pass lane key).2.2 = d := by
  obtain ⟨e, he⟩ := Option.ne_none_iff_exists'.1 h
  rw [dscLookup_eq]
  simp only [hv, he, and_self]

variable (hr : dscFind d (spindleNo g) g.ctx pass key isReserved = none)
include hr

theorem dscLookup_of_miss : dscLookup d g pass lane key = lookupMiss d g pass lane key := by
  rw [dscLookup_eq]
  simp only [hv, hr]

theorem dscLookup_of_full (hw : dscWay d (spindleNo g) (dscSet key) lane = none) :
    (dscLookup d g pass lane key).1 = 2 ∧ (dscLookup d g pass lane key).2.2 = d := by
  rw [dscLookup_of_miss hv hr, lookupMiss, hw]
  exact ⟨rfl, rfl⟩

theorem dscLookup_of_way {w : Nat} (hw : dscWay d (spindleNo g) (dscSet key) lane = some w) :
    (dscLookup d g pass lane key).1 = 1 ∧ missEntry d g pass lane key w ∈ (dscLookup d g pass lane key).2.2.dsc := by
  rw [dscLookup_of_miss hv hr, lookupMiss, hw]
  exact ⟨rfl, List.mem_append_right _ (List.mem_singleton.2 rfl)⟩

end

/-! ## The statement -/

/-- Settles O35: SMP by the stage it gets to, the cache's instructions by the pass of their group, and one lookup by what it finds. -/
theorem sampling : Obligations.Sampling := by
  refine ⟨fun o s _ => ?_, fun o s _ => ?_⟩
  · intro m d ex ls p on hc
    refine ⟨smp_idle hc, fun a l pa x lat d1 hne hk ho hl => ?_⟩
    intro desc d1'
    refine ⟨fun h => smp_fault hne hk ho hl hc (smpImage_of_malformed h), fun g y d2 hg hy => ?_⟩
    have himage := smpImage_of_image (o := o) (m := m) (d := d) (d1 := d1') (ex := ex) (lat := max lat 20) hg
    refine ⟨fun h => smp_fault hne hk ho hl hc (himage.trans (smpProgram_of_malformed hy h)), fun pr hpr hz => ?_⟩
    have hrun := himage.trans (smpProgram_of_program hy hpr)
    refine ⟨fun acc vals d3 t hp hacc hown hvals => ?_, fun sf c vs hp hs hcheck hhalf hvs => ?_⟩
    · exact smp_done hne hk ho hl hc (hrun.trans ((smpTexels_plain hz hp).trans (plainTexels_of_loaded hacc hown hvals)))
    · exact smp_done hne hk ho hl hc (hrun.trans ((smpTexels_pred hz hp hs).trans (predTexels_of_read hcheck hhalf hvs)))
  · intro d u g sp ex on resv
    refine ⟨fun hp => ⟨dscl_outside hp, dscf_outside hp⟩, fun pass hp => ⟨dscl_looks_up hp, dscf_fills hp, fun d1 lane key => ?_⟩⟩
    refine ⟨fun e => dscLookup_of_valid, dscLookup_of_reserved, fun hv hr => ⟨dscLookup_of_full hv hr, fun w hw => ?_⟩⟩
    obtain ⟨h1, hmem⟩ := dscLookup_of_way hv hr hw
    exact ⟨h1, _, hmem, rfl, rfl, rfl, rfl, rfl, rfl⟩

end Sys2Proof.Machine
end

section
/-!
PROOFS. LDS and STS (R198, R224, R227): each lane's bytes of the group's scratchpad, the faults of their offsets, and the bytes that no
lane stores to.
-/

namespace Sys2Proof.Machine

theorem exec_lds (o : Lm) (s : State) : exec (.lds o) s = execLds o s := rfl
theorem exec_sts (o : Lm) (s : State) : exec (.sts o) s = execSts o s := rfl

/-- The heads of LDS and STS. -/
def hdLds (o : Lm) : Hd := hdXw o (scratchRds o (ixOf o)) false
def hdSts (o : Lm) : Hd := hdXw o (.v o.d (tyRegs o.xw.ty) :: scratchRds o (ixOf o)) false

/-- A lane's offset. -/
def laneOff (d : Dev) (o : Lm) (l : Nat) : Int := scratchOff d o (ixOf o) (disp14 o) l

/-- The fault that the offsets of the executing lanes make. -/
def offsFault (s : State) (o : Lm) : Option FaultInfo :=
  scratchFault (curGroup s.dev) ((lanesOf (execLanes s o)).map fun l => (l, laneOff s.dev o l)) (tyBytes o.xw.ty) (tyBytes o.xw.ty)

/-- A lane's bytes stored in the scratchpad. -/
def scratchStore (d : Dev) (o : Lm) (mem : List Host.Cell) (l : Nat) : List Host.Cell :=
  memPut mem (laneOff d o l).toNat (storeVal d o l) (tyBytes o.xw.ty)

theorem moved_l1 (s : State) (w : Bool) (len : Nat) (brk : Bool) : (moved s w len brk).l1 = s.dev.l1 := by
  obtain ⟨ks, qs, st, he⟩ := moved_eq s w len brk
  rw [he]

/-! ## Offsets that fit -/

section
variable {o : Lm} {s : State} (hf : offsFault s o = none)
include hf

theorem lds_loads (hc : LaneClear s o.xw.p o.xw.n (scratchRds o (ixOf o))) :
    Goes (.lds o) s (addPend (moved s o.w 8 false) s.dev.cur.skein 14 ((lanesOf (execLanes s o)).flatMap fun l =>
      loadDst o l (memNat (curGroup s.dev).scratch (laneOff s.dev o l).toNat (tyBytes o.xw.ty)))) := by
  unfold offsFault laneOff at hf
  refine goes_laneDone (h := hdLds o) (exec_lds o s) rfl rfl rfl hc ?_
  simp only [hdLds, hdXw, scratchOffs, hf, List.flatMap_map, latScratch]
  rfl

variable (hc : LaneClear s o.xw.p o.xw.n (.v o.d (tyRegs o.xw.ty) :: scratchRds o (ixOf o)))
include hc

theorem sts_stores (hr : runsAhead s.dev = false) : Goes (.sts o) s (modGroup (moved s o.w 8 false) (curGroup s.dev).gid fun g =>
    (lanesOf (execLanes s o)).foldl (fun g l => { g with scratch := scratchStore s.dev o g.scratch l }) g) := by
  unfold offsFault laneOff at hf
  refine goes_laneDone (h := hdSts o) (exec_sts o s) rfl rfl rfl hc ?_
  simp only [hdSts, hdXw, scratchOffs, hf, hr, List.foldl_map, Bool.false_eq_true, if_false]
  rfl

/-- Running ahead nothing is stored (R456). -/
theorem sts_of_runsAhead (hr : runsAhead s.dev = true) : Goes (.sts o) s (moved s o.w 8 false) := by
  unfold offsFault laneOff at hf
  exact goes_laneDone (h := hdSts o) (exec_sts o s) rfl rfl rfl hc (by simp only [hdSts, hdXw, scratchOffs, hf, hr, if_true])

end

/-! ## Offsets that do not -/

section
variable {o : Lm} {s : State} {c : Cause} {addr : DWord} {ls : Mask} (hx : c ≠ .xlate)
  (hf : ∃ ps, offsFault s o = some { faultAt c addr ls with pages := ps })
include hx hf

theorem lds_faults (hc : LaneClear s o.xw.p o.xw.n (scratchRds o (ixOf o))) :
    Goes (.lds o) s (trapped s o.w 8 false (faultAt c addr ls)) := by
  obtain ⟨ps, hf⟩ := hf
  unfold offsFault laneOff at hf
  have hg := goes_laneFault (h := hdLds o) (exec_lds o s) rfl rfl rfl hc (e := { faultAt c addr ls with pages := ps })
    (by simp only [hdLds, hdXw, scratchOffs, hf])
  exact hg.congr (faulted_pages ps hx)

theorem sts_faults (hc : LaneClear s o.xw.p o.xw.n (.v o.d (tyRegs o.xw.ty) :: scratchRds o (ixOf o))) :
    Goes (.sts o) s (trapped s o.w 8 false (faultAt c addr ls)) := by
  obtain ⟨ps, hf⟩ := hf
  unfold offsFault laneOff at hf
  have hg := goes_laneFault (h := hdSts o) (exec_sts o s) rfl rfl rfl hc (e := { faultAt c addr ls with pages := ps })
    (by simp only [hdSts, hdXw, scratchOffs, hf])
  exact hg.congr (faulted_pages ps hx)

end

/-! ## What no lane stores to -/

theorem memByte_foldl_scratchStore (d : Dev) (o : Lm) (a : Nat) : ∀ (ls : List Nat) (mem : List Host.Cell),
    (∀ l ∈ ls, a < (laneOff d o l).toNat ∨ (laneOff d o l).toNat + tyBytes o.xw.ty ≤ a) →
    memByte (ls.foldl (scratchStore d o) mem) a = memByte mem a := by
  intro ls
  induction ls with
  | nil => exact fun _ _ => rfl
  | cons l ls ih =>
    intro mem h
    have hl := h l List.mem_cons_self
    exact (ih _ fun j hj => h j (List.mem_cons_of_mem _ hj)).trans (memByte_memPut_outside (by omega))

end Sys2Proof.Machine

/-! ## The statement -/

namespace Sys2Proof.Claims
open Machine

/-- Settles O22: each clause is the lemma of its instruction and of what its offsets come to. -/
theorem scratchLoadsAndStores : Obligations.ScratchLoadsAndStores := by
  intro o s _ d g n ex rds off outside uneven out odd fault on stored _
  have hfit (hout : out = 0) (hodd : odd = 0) : offsFault s o = none :=
    scratchFault_of_fit (g := g) (n := n) (off := off) fun l hl => ⟨inside_of_mask_eq_zero hout l hl, by
      rw [maskOf_eq_zero_iff, ← filter_lanesOf] at hodd
      exact Bool.eq_false_iff.2 (List.filter_eq_nil_iff.1 hodd l hl)⟩
  have hbounds (hout : out ≠ 0) := scratchFault_of_out (g := g) (n := n) (off := off) (ex := ex) hout
  have halign (hout : out = 0) (hodd : odd ≠ 0) := scratchFault_of_odd (g := g) (n := n) (off := off) (ex := ex) hout hodd
  refine ⟨fun hc => ⟨fun hout hodd => lds_loads (hfit hout hodd) hc, fun hout => lds_faults (by decide) (hbounds hout) hc,
    fun hout hodd => lds_faults (by decide) (halign hout hodd) hc⟩, fun hc => ⟨fun hout hodd hr => sts_stores (hfit hout hodd) hc hr,
    fun hout hodd hr => sts_of_runsAhead (hfit hout hodd) hc hr, fun hout => sts_faults (by decide) (hbounds hout) hc,
    fun hout hodd => sts_faults (by decide) (halign hout hodd) hc⟩, moved_mem s o.w 8 false, moved_l1 s o.w 8 false,
    fun a ha => memByte_foldl_scratchStore d o a (lanesOf ex) g.scratch ha⟩

end Sys2Proof.Claims
end

section
/-!
PROOFS. LD, ST, LDB and STB (R208, R223 to R227, R313): what a load and a store come to whose accesses pass their checks.
-/

namespace Sys2Proof.Machine

theorem exec_ld (o : Lm) (s : State) : exec (.ld o) s = execLd o s := rfl
theorem exec_st (o : Lm) (s : State) : exec (.st o) s = execSt o s := rfl
theorem exec_ldb (o : Lm) (s : State) : exec (.ldb o) s = execLdb o s := rfl
theorem exec_stb (o : Lm) (s : State) : exec (.stb o) s = execStb o s := rfl

/-! ## The accesses behind their checks -/

section
variable {m : Mgmt} {d da : Dev} {n al pol : Nat} {as : List LAcc} {ls : List (LAcc × Leaf × Nat)}

theorem loadInstr_of_loaded {dst : Nat → Nat → List PWrite} {vals : List (Nat × Nat)} {d1 : Dev} {lat : Nat}
    (hk : loadChecks m d n al pol as = .go ls) (ho : ownedLine d ls = none)
    (hl : loadLanes m da (curCtx d) (curSpindle d) n pol ls = .ok (vals, d1, lat)) :
    loadInstr m d da n al pol as dst = .done (addPend d1 d.cur.skein (max lat 20) (vals.flatMap (fun v => dst v.1 v.2) ++
      (as.filter fun a => a.drop).flatMap fun a => dst a.lane 0)) := by
  simp only [loadInstr, hk, ho, hl, latL1]

variable {val : Nat → Nat} (hk : storeChecks m d n al pol as = .go ls)
include hk

/-- Running ahead nothing is stored (R456). -/
theorem storeInstr_of_runsAhead (hr : runsAhead d = true) : storeInstr m d da n al pol as val = .done da := by
  simp only [storeInstr, hk, hr, if_true]

variable {d1 : Dev} (hr : runsAhead d = false) (ho : ownedLine d ls = none)
include hr ho

theorem storeInstr_of_stored (hdet : isDet m (curCtx d) = false)
    (hs : storeLanes m da (curCtx d) (curSpindle d) n pol val ls = .ok d1) : storeInstr m d da n al pol as val = .done d1 := by
  simp only [storeInstr, hk, hr, ho, buffered, hdet, hs, Bool.false_eq_true, if_false]

/-- In a deterministic context the store is buffered (R313). -/
theorem storeInstr_of_buffered (hdet : isDet m (curCtx d) = true)
    (hs : sbufPush da d.cur.skein (storeEntries d n pol val ls) = some d1) : storeInstr m d da n al pol as val =
      .done (spillLog m d1 (curCtx d) (curSpindle d) d.cur.skein (curSkein d).spilled) := by
  simp only [storeInstr, hk, hr, ho, buffered, hdet, hs, Bool.false_eq_true, if_false, if_true]

end

/-! ## The instructions -/

/-- A load, and a store, of the lanes whose address form reads `rds` and makes the accesses `accs`. -/
def IsLoad (i : Instr) (o : Lm) (rds : List Rd) (accs : Dev → Mask → List LAcc) : Prop :=
  ∀ s, exec i s = s.run fun m d => laneIssue m d (hdXw o rds false) fun ex da =>
    loadInstr m d da (tyBytes o.xw.ty) (tyBytes o.xw.ty) o.xw.pol.toNat (accs d ex) (loadDst o)
def IsStore (i : Instr) (o : Lm) (rds : List Rd) (accs : Dev → Mask → List LAcc) : Prop :=
  ∀ s, exec i s = s.run fun m d => laneIssue m d (hdXw o (.v o.d (tyRegs o.xw.ty) :: rds) false) fun ex da =>
    storeInstr m d da (tyBytes o.xw.ty) (tyBytes o.xw.ty) o.xw.pol.toNat (accs d ex) (storeVal d o)

/-- The accesses of LD and ST, and of LDB and STB. -/
def globAccs (o : Lm) (d : Dev) (ex : Mask) : List LAcc := globalAccs d o (amOf o) (disp14 o) (lanesOf ex)
def bufAccs (o : Lm) (store : Bool) (d : Dev) (ex : Mask) : List LAcc :=
  bufferAccs d o (ixOf o) (disp14 o) (tyBytes o.xw.ty) store (lanesOf ex)

theorem isLoad_ld (o : Lm) : IsLoad (.ld o) o (globalRds o (amOf o)) (globAccs o) := exec_ld o
theorem isStore_st (o : Lm) : IsStore (.st o) o (globalRds o (amOf o)) (globAccs o) := exec_st o
theorem isLoad_ldb (o : Lm) : IsLoad (.ldb o) o (bufferRds o (ixOf o)) (bufAccs o false) := exec_ldb o
theorem isStore_stb (o : Lm) : IsStore (.stb o) o (bufferRds o (ixOf o)) (bufAccs o true) := exec_stb o

section
variable {i : Instr} {o : Lm} {s : State} {rds : List Rd} {accs : Dev → Mask → List LAcc}

theorem load_done {d1 : Dev} (hi : IsLoad i o rds accs) (hc : LaneClear s o.xw.p o.xw.n rds)
    (hb : loadInstr s.mgmt s.dev (moved s o.w 8 false) (tyBytes o.xw.ty) (tyBytes o.xw.ty) o.xw.pol.toNat
      (accs s.dev (execLanes s o)) (loadDst o) = .done d1) : Goes i s d1 :=
  goes_laneDone (h := hdXw o rds false) (hi s) rfl rfl rfl hc hb

theorem load_fault {f : FaultInfo} (hi : IsLoad i o rds accs) (hc : LaneClear s o.xw.p o.xw.n rds)
    (hb : loadInstr s.mgmt s.dev (moved s o.w 8 false) (tyBytes o.xw.ty) (tyBytes o.xw.ty) o.xw.pol.toNat
      (accs s.dev (execLanes s o)) (loadDst o) = .fault f) : Goes i s (trapped s o.w 8 false f) :=
  goes_laneFault (h := hdXw o rds false) (hi s) rfl rfl rfl hc hb

variable (hi : IsStore i o rds accs) (hc : LaneClear s o.xw.p o.xw.n (.v o.d (tyRegs o.xw.ty) :: rds))
include hi hc

theorem store_done {d1 : Dev} (hb : storeInstr s.mgmt s.dev (moved s o.w 8 false) (tyBytes o.xw.ty) (tyBytes o.xw.ty) o.xw.pol.toNat
      (accs s.dev (execLanes s o)) (storeVal s.dev o) = .done d1) : Goes i s d1 :=
  goes_laneDone (h := hdXw o (.v o.d (tyRegs o.xw.ty) :: rds) false) (hi s) rfl rfl rfl hc hb

theorem store_fault {f : FaultInfo} (hb : storeInstr s.mgmt s.dev (moved s o.w 8 false) (tyBytes o.xw.ty) (tyBytes o.xw.ty)
      o.xw.pol.toNat (accs s.dev (execLanes s o)) (storeVal s.dev o) = .fault f) : Goes i s (trapped s o.w 8 false f) :=
  goes_laneFault (h := hdXw o (.v o.d (tyRegs o.xw.ty) :: rds) false) (hi s) rfl rfl rfl hc hb

end

end Sys2Proof.Machine

/-! ## The statement -/

namespace Sys2Proof.Claims
open Machine

/-- Settles O23: a load by its values, a store by what is done with it, for each of the two address forms. -/
theorem globalLoadsAndStores : Obligations.GlobalLoadsAndStores := by
  intro o s _ m d u n pol ex on val load store glob buf
  have loads {i : Instr} {rds : List Rd} {accs : Dev → Mask → List LAcc} (hi : IsLoad i o rds accs) : load i (accs d ex) rds :=
    fun ls vals d1 lat hc hk ho hl => load_done hi hc (loadInstr_of_loaded hk ho hl)
  have stores {i : Instr} {rds : List Rd} {accs : Dev → Mask → List LAcc} (hi : IsStore i o rds accs) : store i (accs d ex) rds :=
    fun ls hc hk => ⟨fun hr => store_done hi hc (storeInstr_of_runsAhead hk hr),
      fun d1 hr hdet ho hs => store_done hi hc (storeInstr_of_stored hk hr ho hdet hs),
      fun d1 hr hdet ho hs => store_done hi hc (storeInstr_of_buffered hk hr ho hdet hs)⟩
  exact ⟨loads (isLoad_ld o), stores (isStore_st o), loads (isLoad_ldb o), stores (isStore_stb o)⟩

end Sys2Proof.Claims
end

section
/-!
PROOFS. Fences, write-backs, invalidations, notices and uncorrectable errors (R197, R204, R205, R211, R217, R218, R300): one lemma per
event and outcome.
-/

namespace Sys2Proof.Machine

theorem exec_fenceComplete (u : Nat) (s : State) : exec (.fenceComplete u) s = execFenceComplete u s := rfl
theorem exec_writebackMerge (sp line : Nat) (s : State) : exec (.writebackMerge sp line) s = execWritebackMerge sp line s := rfl
theorem exec_invalidation (sp line : Nat) (s : State) : exec (.invalidation sp line) s = execInvalidation sp line s := rfl
theorem exec_evictionNotice (sp line : Nat) (s : State) : exec (.evictionNotice sp line) s = execEvictionNotice sp line s := rfl
theorem exec_uncorrectableError (line : Nat) (s : State) :
    exec (.uncorrectableError line) s = execUncorrectableError line s := rfl

/-! ## Copies without dirty words (R197) -/

section
variable {m : Mgmt} {d : Dev} {ctx sp line : Nat}

theorem writeBackLine_of_absent (h : l1Phys d sp line = none) : writeBackLine m d ctx sp line = .ok d := by
  simp only [writeBackLine, h]

theorem writeBackLine_of_clean {l : L1Line} (h : l1Phys d sp line = some l) (hd : l.dirty = 0) :
    writeBackLine m d ctx sp line = .ok d := by
  simp only [writeBackLine, h, hd, beq_self_eq_true, if_true]

end

section
variable {s : State}

/-! ## Fences (R300) -/

/-- A fence whose release and acquire come through lets its skein go on. -/
theorem fenceComplete_of_drained {u kind sc : Nat} {d1 d2 : Dev} (hp : (skeinOf s.dev u).park = some (.fence kind sc))
    (hrel : (if kind ≥ 2 then releaseAt s.mgmt s.dev (ctxOfSkein s.dev u) (spOfSkein s.dev u) sc else .ok s.dev) = .ok d1)
    (hacq : (if kind % 2 = 1 then acquireAt s.mgmt d1 (ctxOfSkein s.dev u) (spOfSkein s.dev u) sc else .ok d1) = .ok d2) :
    Goes (.fenceComplete u) s (unpark d2 u) := by
  refine goes_run (exec_fenceComplete u s) ?_
  simp only [hp, hrel, hacq, Except.map, memEvent_ok]

/-! ## Copies in an L1 (R197, R204, R205) -/

variable {sp line : Nat}

theorem writebackMerge_of_written {d1 : Dev}
    (h : writeBackLine s.mgmt s.dev (ctxOfCopy s.mgmt s.dev sp line) sp line = .ok d1) : Goes (.writebackMerge sp line) s d1 :=
  goes_run (exec_writebackMerge sp line s) (congrArg (memEvent s.dev (.writebackMerge sp line)) h)

section
variable (h : l1Phys s.dev sp line = none)
include h

theorem invalidation_of_absent : Goes (.invalidation sp line) s (dirDel s.dev sp line) :=
  goes_run (exec_invalidation sp line s) (by simp only [h])

theorem evictionNotice_of_absent : Goes (.evictionNotice sp line) s (dirDel s.dev sp line) :=
  goes_run (exec_evictionNotice sp line s) (by simp only [h])

end

variable {l : L1Line} (h : l1Phys s.dev sp line = some l)
include h

/-- A remote-origin copy is no copy that the directory counts. -/
theorem invalidation_of_remote (hh : l.home = false) : Goes (.invalidation sp line) s s.dev :=
  goes_run (exec_invalidation sp line s) (by simp only [h, hh, Bool.not_false, if_true])

theorem invalidation_of_home {d1 : Dev} (hh : l.home = true)
    (hi : invalidateCopy s.mgmt (ctxOfCopy s.mgmt s.dev sp line) s.dev sp line = .ok d1) : Goes (.invalidation sp line) s d1 :=
  goes_run (exec_invalidation sp line s) (by simp only [h, hh, Bool.not_true, Bool.false_eq_true, if_false, hi, memEvent_ok])

theorem evictionNotice_of_remote (hh : l.home = false) : Goes (.evictionNotice sp line) s (dirDel s.dev sp line) :=
  goes_run (exec_evictionNotice sp line s) (by simp only [h, hh, Bool.false_and, Bool.false_eq_true, if_false])

/-- A copy that is counted stays counted. -/
theorem evictionNotice_of_counted (hh : l.home = true) (hq : l.queued = false) : Goes (.evictionNotice sp line) s s.dev :=
  goes_run (exec_evictionNotice sp line s) (by simp only [h, hh, hq, Bool.not_false, Bool.and_self, if_true])

end

/-! ## Uncorrectable errors (R211, R218) -/

/-- The host halves of a line that its slice holds, poisoned. -/
theorem uncorrectableError_of_host {s : State} {line : Nat} (h : isDevice (128 * line) = false) :
    Goes (.uncorrectableError line) s (wakeLine { s.dev with
      halves := s.dev.halves.map fun e => if e.1 / 2 == line && e.2.st != .i then (e.1, { e.2 with poison := true }) else e } line) :=
  goes_run (exec_uncorrectableError line s) (by rw [h]; rfl)

/-- A device line whose form is `poison`, with what the codec and the samplers hold of it aged, and its waiters woken. -/
def spoiled (d : Dev) (line : Nat) : Dev :=
  wakeLine (dropTiles { ageProg d line with forms := tput d.forms line poison 0 } line) line

theorem uncorrectableError_of_device {s : State} {line : Nat} (h : isDevice (128 * line) = true) :
    Goes (.uncorrectableError line) s (spoiled s.dev line) :=
  goes_run (exec_uncorrectableError line s) (by rw [h]; rfl)

/-- Beside the line's form, an error of a device line changes only the agenda, the surface cache and the program lines. -/
theorem spoiled_spec (d : Dev) (line : Nat) : ∃ ag sc st pr, spoiled d line =
    { d with forms := tput d.forms line poison 0, agenda := ag, scache := sc, stiles := st, progs := pr } := by
  obtain ⟨pr, hp⟩ : ∃ pr, ageProg d line = { d with progs := pr } := by
    unfold ageProg; split <;> exact ⟨_, rfl⟩
  have htiles (e : Dev) : ∃ sc st, dropTiles e line = { e with scache := sc, stiles := st } := by
    unfold dropTiles; split <;> exact ⟨_, _, rfl⟩
  have hwake (e : Dev) : ∃ ag, wakeLine e line = { e with agenda := ag } := by
    unfold wakeLine; split <;> exact ⟨_, rfl⟩
  obtain ⟨sc, st, ht⟩ := htiles { ageProg d line with forms := tput d.forms line poison 0 }
  obtain ⟨ag, hw⟩ := hwake (dropTiles { ageProg d line with forms := tput d.forms line poison 0 } line)
  exact ⟨ag, sc, st, pr, by rw [spoiled, hw, ht, hp]⟩

theorem formOf_spoiled (d : Dev) (line x : Nat) : formOf (spoiled d line) x = if line = x then poison else formOf d x := by
  obtain ⟨ag, sc, st, pr, he⟩ := spoiled_spec d line
  rw [he]
  exact tget_tput d.forms line x poison 0

theorem spoiled_keeps (d : Dev) (line : Nat) :
    (spoiled d line).mem = d.mem ∧ (spoiled d line).skeins = d.skeins ∧ (spoiled d line).l1 = d.l1 := by
  obtain ⟨ag, sc, st, pr, he⟩ := spoiled_spec d line
  rw [he]
  exact ⟨rfl, rfl, rfl⟩

end Sys2Proof.Machine

/-! ## The statement -/

namespace Sys2Proof.Claims
open Machine

/-- Settles O47: each clause is the lemma of its event and outcome. -/
theorem cacheSteps : Obligations.CacheSteps := by
  intro s m d
  refine ⟨fun u kind sc d1 d2 hp => fenceComplete_of_drained hp, fun sp line h => ?absent, fun sp line l h => ?present,
    fun line => ⟨uncorrectableError_of_host, fun hd => ?device⟩⟩
  case absent =>
    exact ⟨writebackMerge_of_written (writeBackLine_of_absent h), invalidation_of_absent h, evictionNotice_of_absent h⟩
  case present =>
    exact ⟨fun hd => writebackMerge_of_written (writeBackLine_of_clean h hd), fun d1 => writebackMerge_of_written,
      fun hh => ⟨invalidation_of_remote h hh, evictionNotice_of_remote h hh⟩, fun d1 => invalidation_of_home h,
      evictionNotice_of_counted h⟩
  case device =>
    have hform := formOf_spoiled d line
    obtain ⟨hmem, hskeins, hl1⟩ := spoiled_keeps d line
    refine ⟨_, uncorrectableError_of_device hd, rfl, hmem, ?_, fun x hx => ?_, hskeins, hl1⟩
    · exact congrArg badForm ((hform line).trans (if_pos rfl))
    · exact (hform x).trans (if_neg hx.symm)

end Sys2Proof.Claims
end

section
/-!
PROOFS. What the operations of the slices and of the L1 arrays leave as it was: everything of the device but the caches with what they
hold of memory, the messages, the records and the agenda.
-/

namespace Sys2Proof.Machine

/-- The device without what accesses to memory change. -/
def apart (d : Dev) : Dev :=
  { d with
    nextId := 0, agenda := [], mem := [], forms := [], written := [], l1 := [], tlb := [], rpPages := [], rpHeld := [], dir := []
    halves := [], hostReqs := [], snoops := [], outbox := [], records := [], scache := [], stiles := [], progs := [] }

/-- The skeins are apart from memory. -/
theorem skein_of_apart {d e : Dev} (h : apart e = apart d) (u : Nat) : skein? e u = skein? d u := by
  have hs : (apart e).skeins = (apart d).skeins := by rw [h]
  exact congrArg (fun ks => ks.find? fun k => k.uid == u) hs

/-! ## The slices -/

section
variable {m : Mgmt} {d e : Dev} {ctx sp line : Nat}

@[simp] theorem apart_poisonRecord (m : Mgmt) (d : Dev) (ctx line : Nat) : apart (poisonRecord m d ctx line) = apart d := by
  obtain ⟨r, kill, he, -⟩ := takeDeviceFault_spec m d ctx .dataerr 0 (BitVec.ofNat 64 (128 * line)) 0
  rw [poisonRecord, he]
  rfl

@[simp] theorem apart_wakeLine (d : Dev) (line : Nat) : apart (wakeLine d line) = apart d := by unfold wakeLine; split <;> rfl
@[simp] theorem apart_markWritten (d : Dev) (line : Nat) : apart (markWritten d line) = apart d := by unfold markWritten; split <;> rfl
@[simp] theorem apart_dropTiles (d : Dev) (line : Nat) : apart (dropTiles d line) = apart d := by unfold dropTiles; split <;> rfl
@[simp] theorem apart_ageProg (d : Dev) (line : Nat) : apart (ageProg d line) = apart d := by unfold ageProg; split <;> rfl
@[simp] theorem apart_pruneRp (d : Dev) : apart (pruneRp d) = apart d := by unfold pruneRp; split <;> rfl
@[simp] theorem apart_recompress (d : Dev) (line : Nat) (cmp : Bool) : apart (recompress d line cmp) = apart d := by
  unfold recompress; split <;> rfl

@[simp] theorem apart_noteRp (d : Dev) (line : Nat) (x : Line) : apart (noteRp d line x) = apart d := by
  refine foldl_keeps apart (fun d i => ?_) _ d
  dsimp only
  split
  · rfl
  · split <;> exact apart_pruneRp _

@[simp] theorem apart_putLine (d : Dev) (line : Nat) (x : Line) (cmp : Bool) : apart (putLine d line x cmp) = apart d :=
  apart_noteRp d line x

@[simp] theorem apart_takeWords (d : Dev) (line : Nat) (base : Line) (bm : BitVec 128) (x : Line) (cmp : Bool) :
    apart (takeWords d line base bm x cmp) = apart d := by simp [takeWords]

theorem apart_mergeLine {bm : BitVec 128} {x : Line} {cmp : Bool} (h : mergeLine m ctx d line bm x cmp = .ok e) :
    apart e = apart d := by
  unfold mergeLine at h
  dsimp only at h
  split at h
  case isTrue => cases h; rfl
  split at h
  case isTrue => cases h
  split at h
  case isTrue =>
    split at h
    · cases h
    split at h
    · cases h; exact apart_poisonRecord ..
    · cases h; exact apart_takeWords ..
  split at h
  case isTrue => cases h; exact apart_poisonRecord ..
  split at h
  case isTrue =>
    split at h
    · cases h; exact apart_poisonRecord ..
    · cases h
    · cases h; exact apart_wakeLine ..
  cases h; rfl

/-! ## The L1 arrays -/

@[simp] theorem apart_modL1 (d : Dev) (sp line : Nat) (f : L1Line → L1Line) : apart (modL1 d sp line f) = apart d := rfl
@[simp] theorem apart_dirDel (d : Dev) (sp line : Nat) : apart (dirDel d sp line) = apart d := rfl
@[simp] theorem apart_tlbFill (m : Mgmt) (d : Dev) (ctx sp va : Nat) (l : Leaf) : apart (tlbFill m d ctx sp va l) = apart d := rfl
@[simp] theorem apart_dirAdd (d : Dev) (sp line : Nat) : apart (dirAdd d sp line) = apart d := by
  unfold dirAdd; dsimp only; split <;> rfl

theorem apart_invalidateCopy (h : invalidateCopy m ctx d sp line = .ok e) : apart e = apart d := by
  unfold invalidateCopy at h
  split at h
  · cases h; rfl
  split at h
  · cases h
  next h1 =>
  cases h
  refine Eq.trans ?_ ((apart_mergeLine h1).trans (apart_modL1 ..))
  rw [apart_dirDel, apart_modL1]
  split
  · exact apart_recompress ..
  · rfl

theorem apart_recallOwner {keep : Option Nat} (h : recallOwner m ctx d keep line = .ok e) : apart e = apart d := by
  refine foldlM_keeps apart (fun d l e h => ?_) h
  dsimp only at h
  split at h
  · cases h; exact apart_recompress ..
  · exact (apart_mergeLine h).trans (apart_modL1 ..)

theorem apart_writeSlice {keep : Option Nat} {bm : BitVec 128} {x : Line} {cmp : Bool}
    (h : writeSlice m ctx d keep line bm x cmp = .ok e) : apart e = apart d := by
  unfold writeSlice at h
  split at h
  · cases h
  next h1 =>
  split at h
  · cases h
  next h2 =>
  have hothers := foldlM_keeps apart (fun _ _ _ => apart_invalidateCopy) h
  exact hothers.trans ((apart_mergeLine h2).trans (apart_recallOwner h1))

theorem apart_readSlice {keep : Option Nat} {rp : Bool} {hs : List Nat} {r : HostReq} {k : Nat} {x : Line}
    (h : readSlice m ctx d keep line rp hs r k = .ok (x, e)) : apart e = apart d := by
  unfold readSlice at h
  split at h
  · cases h
  next h1 =>
  obtain ⟨y, -, hy⟩ := map_ok h
  cases hy
  exact Eq.trans (by split <;> rfl) (apart_recallOwner h1)

theorem apart_writeBackLine (h : writeBackLine m d ctx sp line = .ok e) : apart e = apart d := by
  unfold writeBackLine at h
  split at h
  · cases h; rfl
  split at h
  · cases h; rfl
  obtain ⟨d1, h1, rfl⟩ := map_ok h
  exact (apart_writeSlice h1).trans (by split <;> rfl)

@[simp] theorem apart_dropLine (d : Dev) (sp line : Nat) : apart (dropLine d sp line) = apart d := by
  unfold dropLine
  split
  · split <;> simp <;> rfl
  · rfl

@[simp] theorem apart_giveUpE (d : Dev) (sp line : Nat) : apart (giveUpE d sp line) = apart d := by
  unfold giveUpE
  split
  · split <;> simp
  · rfl

/-! ## Lines brought into an L1 -/

theorem apart_evictLines {set : Nat} : ∀ {n : Nat} {d : Dev}, evictLines m ctx sp set n d = .ok e → apart e = apart d := by
  intro n
  induction n with
  | zero => intro d h; cases h; rfl
  | succ n ih =>
    intro d h
    unfold evictLines at h
    dsimp only at h
    split at h
    · cases h; rfl
    obtain ⟨d1, h1, h2⟩ := bind_ok h
    exact (ih h2).trans ((apart_dropLine ..).trans (apart_writeBackLine h1))

@[simp] theorem apart_retag (m : Mgmt) (d : Dev) (ctx sp va : Nat) (leaf : Leaf) (line : Nat) :
    apart (retag m d ctx sp va leaf line) = apart d := by
  have hbase : apart (if isHome sp line leaf then d else giveUpE d sp line) = apart d := by split <;> simp
  unfold retag
  rw [apart_tlbFill]
  split
  · exact hbase
  split
  · exact (apart_dirAdd ..).trans hbase
  · exact hbase

@[simp] theorem apart_freshLine (m : Mgmt) (d : Dev) (ctx sp va : Nat) (leaf : Leaf) (line : Nat) :
    apart (freshLine m d ctx sp va leaf line) = apart d := by
  unfold freshLine
  dsimp only
  split
  · exact apart_dirAdd ..
  · rfl

theorem apart_allocLine {va pa : Nat} {leaf : Leaf} (h : allocLine m d ctx sp va leaf pa = .ok e) : apart e = apart d := by
  unfold allocLine at h
  dsimp only at h
  split at h
  · cases h
  next d1 h1 =>
  have hclear : apart d1 = apart d := by
    split at h1
    · split at h1
      · cases h1; rfl
      · obtain ⟨d2, h2, rfl⟩ := map_ok h1
        exact (apart_dropLine ..).trans ((apart_dirDel ..).trans (apart_writeBackLine h2))
    · cases h1; rfl
  refine Eq.trans ?_ hclear
  split at h
  · split at h
    · cases h; rfl
    obtain ⟨d2, h2, rfl⟩ := map_ok h
    refine (apart_retag ..).trans ?_
    split at h2
    · cases h2; rfl
    · exact apart_evictLines h2
  · obtain ⟨d2, h2, rfl⟩ := map_ok h
    exact (apart_freshLine ..).trans (apart_evictLines h2)

theorem apart_fillLine {va pa k : Nat} {leaf : Leaf} (h : fillLine m d ctx sp va leaf pa k = .ok e) : apart e = apart d := by
  unfold fillLine at h
  dsimp only at h
  split at h
  · cases h
  next h1 =>
  refine Eq.trans ?_ (apart_allocLine h1)
  split at h
  · cases h; rfl
  obtain ⟨⟨x, d2⟩, h2, rfl⟩ := map_ok h
  exact (apart_modL1 ..).trans (apart_readSlice h2)

/-! ## Requests -/

@[simp] theorem apart_askFor (d : Dev) (n : Need) : apart (askFor d n) = apart d := by
  unfold askFor
  split
  case h_1 => split <;> rfl
  case h_2 => split <;> rfl
  case h_3 => rfl
  case h_4 =>
    split
    · dsimp only
      split
      · exact apart_recompress ..
      · exact apart_takeWords ..
    · rfl

@[simp] theorem apart_askLine (d : Dev) (line : Nat) : apart (askLine d line) = apart d := by
  unfold askLine
  split
  · refine foldl_keeps apart (fun d h => ?_) _ d
    split
    · exact apart_askFor ..
    · rfl
  · rfl

end

end Sys2Proof.Machine
end

section
/-!
PROOFS. PRF, LDG and STG (R206, R233, R234): what a prefetch asks for and brings, and the guard tags read and written.
-/

namespace Sys2Proof.Machine

theorem exec_prf (o : Lm) (s : State) : exec (.prf o) s = execPrf o s := rfl
theorem exec_ldg (o : Lm) (s : State) : exec (.ldg o) s = execLdg o s := rfl
theorem exec_stg (o : Lm) (s : State) : exec (.stg o) s = execStg o s := rfl

/-- The head of PRF and LDG, and that of STG. -/
def hdPrf (o : Lm) : Hd := hdXw o (globalRds o (amOf o)) false
def hdStg (o : Lm) : Hd := hdXw o (.v o.d 1 :: globalRds o (amOf o)) false

/-! ## Halves asked for (R319) -/

/-- The device with requests of the host made besides those it had, all of them RdShared. -/
def Asked (d e : Dev) : Prop :=
  ∃ rs : List (Nat × HostReq), e = { d with hostReqs := d.hostReqs ++ rs } ∧ ∀ r ∈ rs, r.2 = .rdShared

theorem Asked.refl (d : Dev) : Asked d d := ⟨[], by rw [List.append_nil], fun _ h => absurd h List.not_mem_nil⟩

theorem Asked.trans {d e f : Dev} (h1 : Asked d e) (h2 : Asked e f) : Asked d f := by
  obtain ⟨rs, rfl, hrs⟩ := h1
  obtain ⟨qs, rfl, hqs⟩ := h2
  exact ⟨rs ++ qs, by rw [← List.append_assoc], fun r hr => (List.mem_append.1 hr).elim (hrs r) (hqs r)⟩

theorem asked_foldl {α : Type} {f : Dev → α → Dev} (hf : ∀ d x, Asked d (f d x)) (xs : List α) (d : Dev) :
    Asked d (xs.foldl f d) := by
  induction xs generalizing d with
  | nil => exact Asked.refl d
  | cons x xs ih => exact (hf d x).trans (ih (f d x))

/-- All that a shared use of a half can need is the half itself. -/
theorem need_of_hostNeed {d : Dev} {h : Nat} {n : Need} (he : hostNeed d .rdShared [h] = .error (.need n)) :
    n = .half h .rdShared := by
  unfold hostNeed at he
  split at he
  · next x _ =>
    split at he
    · cases he
    · cases hst : x.st <;> simp only [hst] at he <;> cases he
      rfl
  · cases he; rfl

theorem asked_askFor (d : Dev) (h : Nat) : Asked d (askFor d (.half h .rdShared)) := by
  unfold askFor
  dsimp only
  split
  · exact Asked.refl d
  · exact ⟨[(h, .rdShared)], rfl, fun r hr => by rw [List.mem_singleton.1 hr]⟩

theorem asked_askLine (d : Dev) (line : Nat) : Asked d (askLine d line) := by
  unfold askLine
  split
  · refine asked_foldl (fun d h => ?_) _ d
    split
    · next he =>
      rw [need_of_hostNeed he]
      exact asked_askFor d h
    · exact Asked.refl d
  · exact Asked.refl d

/-! ## PRF (R233) -/

/-- What PRF does for the access of one lane. -/
def prefetched (m : Mgmt) (d0 : Dev) (o : Lm) (d : Dev) (a : LAcc) : Dev :=
  match checkAt m d (curCtx d0) (curSpindle d0) a.p 1 false with
  | .error _ => d
  | .ok (l, pa) =>
    let along := waysAlong d (curSpindle d0) (setOf (bitsOf a.p 7 41)) (pa / 128)
    if isPeer pa || engineOwns d (pa / 128) then d
    else if bitsOf o.xw.sub 0 2 != 0 || (emptyWay d (curSpindle d0) (pa / 128)).isSome ||
        (along != 0 && !waysFit d (curSpindle d0) (setOf (bitsOf a.p 7 41)) along) then askLine d (pa / 128)
    else
      match fillLine m d (curCtx d0) (curSpindle d0) (bitsOf a.p 7 41) l pa a.lane with
      | .ok d1 => d1
      | .error (.need n) => askFor (askLine d (pa / 128)) n
      | .error _ => d

theorem apart_prefetched (m : Mgmt) (d0 : Dev) (o : Lm) (d : Dev) (a : LAcc) : apart (prefetched m d0 o d a) = apart d := by
  unfold prefetched
  split
  · rfl
  dsimp only
  split
  · rfl
  split
  · exact apart_askLine ..
  split
  · next h => exact apart_fillLine h
  · exact (apart_askFor ..).trans (apart_askLine ..)
  · rfl

/-- With another level than the L1 a line's halves are asked for, and that is all. -/
theorem asked_prefetched {o : Lm} (ho : bitsOf o.xw.sub 0 2 ≠ 0) (m : Mgmt) (d0 d : Dev) (a : LAcc) :
    Asked d (prefetched m d0 o d a) := by
  unfold prefetched
  split
  · exact Asked.refl d
  simp only [bne_iff_ne.2 ho, Bool.true_or, if_true]
  split
  · exact Asked.refl d
  · exact asked_askLine ..

/-- What PRF comes to. -/
def prfDev (o : Lm) (s : State) : Dev :=
  if isDet s.mgmt (curCtx s.dev) then moved s o.w 8 false
  else (globAccs o s.dev (execLanes s o)).foldl (prefetched s.mgmt s.dev o) (moved s o.w 8 false)

section
variable {o : Lm} {s : State}

theorem prf_goes (hc : LaneClear s o.xw.p o.xw.n (globalRds o (amOf o))) : Goes (.prf o) s (prfDev o s) := by
  refine goes_laneDone (h := hdPrf o) (exec_prf o s) rfl rfl rfl hc ?_
  unfold prfDev
  split <;> rfl

theorem prfDev_of_det (h : isDet s.mgmt (curCtx s.dev) = true) : prfDev o s = moved s o.w 8 false := if_pos h

theorem apart_prfDev : apart (prfDev o s) = apart (moved s o.w 8 false) := by
  unfold prfDev
  split
  · rfl
  · exact foldl_keeps apart (apart_prefetched s.mgmt s.dev o) _ _

theorem asked_prfDev (ho : bitsOf o.xw.sub 0 2 ≠ 0) : Asked (moved s o.w 8 false) (prfDev o s) := by
  unfold prfDev
  split
  · exact Asked.refl _
  · exact asked_foldl (asked_prefetched ho s.mgmt s.dev) _ _

end

/-! ## LDG and STG (R234) -/

section
variable {o : Lm} {s : State} {ls : List (LAcc × Leaf × Nat)}

theorem ldg_loads (hc : LaneClear s o.xw.p o.xw.n (globalRds o (amOf o)))
    (hk : checkAll false (checkTag s.mgmt s.dev (curCtx s.dev) (curSpindle s.dev) false) (globAccs o s.dev (execLanes s o)) = .go ls)
    (ho : ownedLine s.dev ls = none) : Goes (.ldg o) s (addPend (moved s o.w 8 false) s.dev.cur.skein 20 (ls.flatMap fun x =>
      res1 (wrV x.1.lane) o.d (if x.2.1.tg then tagAt s.dev (curSpindle s.dev) x.2.2 else 0))) := by
  unfold globAccs at hk
  exact goes_laneDone (h := hdPrf o) (exec_ldg o s) rfl rfl rfl hc (by simp only [hdPrf, hdXw, hk, ho, latL1])

variable (hc : LaneClear s o.xw.p o.xw.n (.v o.d 1 :: globalRds o (amOf o)))
  (hk : checkAll true (checkTag s.mgmt s.dev (curCtx s.dev) (curSpindle s.dev) true) (globAccs o s.dev (execLanes s o)) = .go ls)
include hc hk

/-- Running ahead no tag is stored (R456). -/
theorem stg_of_runsAhead (hr : runsAhead s.dev = true) : Goes (.stg o) s (moved s o.w 8 false) := by
  unfold globAccs at hk
  exact goes_laneDone (h := hdStg o) (exec_stg o s) rfl rfl rfl hc (by simp only [hdStg, hdXw, hk, hr, if_true])

theorem stg_stores {d1 : Dev} (hr : runsAhead s.dev = false) (ho : ownedLine s.dev ls = none)
    (hs : (ls.foldlM (fun (d1 : Dev) x => setTag s.mgmt d1 (curCtx s.dev) (curSpindle s.dev) x.2.2
      ((laneReader s.dev x.1.lane o.d.toNat).setWidth 4)) (moved s o.w 8 false) : MemM Dev) = .ok d1) : Goes (.stg o) s d1 := by
  unfold globAccs at hk
  exact goes_laneDone (h := hdStg o) (exec_stg o s) rfl rfl rfl hc
    (by simp only [hdStg, hdXw, hk, hr, ho, hs, Bool.false_eq_true, if_false])

end

end Sys2Proof.Machine

/-! ## The statement -/

namespace Sys2Proof.Claims
open Machine

/-- Settles O27: a prefetch by what its fold over the lanes keeps and asks for, the tags by the lemma of their instruction. -/
theorem prefetchAndTags : Obligations.PrefetchAndTags := by
  intro o s _ m d sp ex on as
  refine ⟨fun hc => ⟨⟨prfDev o s, prf_goes hc, skein_of_apart apart_prfDev⟩, fun h => (prf_goes hc).congr (prfDev_of_det h),
    fun ho => ?other, fun ls => ldg_loads hc⟩, fun hc ls hk => ⟨stg_of_runsAhead hc hk, fun d1 => stg_stores hc hk⟩⟩
  case other =>
    obtain ⟨rs, he, hrs⟩ := asked_prfDev (s := s) ho
    exact ⟨rs, (prf_goes hc).congr he, hrs⟩

end Sys2Proof.Claims
end

section
/-!
PROOFS. Bytes of a line: the masks of bytes, a line with the bytes of a mask replaced, and a natural taken from a line or put into one.
-/

namespace Sys2Proof.Machine

/-! ## Bits of masks and lines -/

theorem getLsbD_byteMask (o n i : Nat) : (byteMask o n).getLsbD i = decide (i < 128 ∧ o ≤ i ∧ i < o + n) := by
  rw [byteMask, BitVec.getLsbD_ofNat, Nat.testBit_mul_two_pow, Nat.testBit_two_pow_sub_one, Bool.eq_iff_iff]
  simp only [Bool.and_eq_true, decide_eq_true_eq]
  omega

/-- Bits above those of a sum of bytes are those of the next byte. -/
theorem testBit_foldl_bytes (f : Nat → Bool) (n : Nat) :
    (List.range n).foldl (fun x i => if f i then x + 255 * 2 ^ (8 * i) else x) 0 < 2 ^ (8 * n) ∧
    ∀ j, ((List.range n).foldl (fun x i => if f i then x + 255 * 2 ^ (8 * i) else x) 0).testBit j = (decide (j < 8 * n) && f (j / 8)) := by
  induction n with
  | zero => simp
  | succ n ih =>
    obtain ⟨hlt, hbit⟩ := ih
    rw [List.range_succ, List.foldl_append]
    generalize (List.range n).foldl (fun x i => if f i then x + 255 * 2 ^ (8 * i) else x) 0 = x at hlt hbit ⊢
    have hpow : (2 : Nat) ^ (8 * (n + 1)) = 256 * 2 ^ (8 * n) := by rw [Nat.mul_succ, pow_add]; omega
    simp only [List.foldl_cons, List.foldl_nil]
    cases hf : f n
    · refine ⟨by simp only [Bool.false_eq_true, if_false]; omega, fun j => ?_⟩
      rw [if_neg Bool.false_ne_true, hbit]
      by_cases hj : j / 8 = n
      · rw [hj, hf, Bool.and_false, Bool.and_false]
      · rw [decide_eq_decide.2 (show j < 8 * n ↔ j < 8 * (n + 1) by omega)]
    · refine ⟨by simp only [if_true]; omega, fun j => ?_⟩
      rw [if_pos rfl, Nat.add_comm, Nat.mul_comm, Nat.testBit_two_pow_mul_add _ hlt, hbit, show 255 = 2 ^ 8 - 1 from rfl,
        Nat.testBit_two_pow_sub_one]
      by_cases hj : j < 8 * n
      · simp [hj, show j < 8 * (n + 1) by omega]
      · by_cases hn : j < 8 * (n + 1)
        · simp [hj, hn, show j / 8 = n by omega, hf, show j - 8 * n < 8 by omega]
        · simp [hj, hn, show ¬ j - 8 * n < 8 by omega]

theorem getLsbD_bitsMask (bm : BitVec 128) (j : Nat) : (bitsMask bm).getLsbD j = bm.getLsbD (j / 8) := by
  rw [bitsMask, BitVec.getLsbD_ofNat, (testBit_foldl_bytes bm.getLsbD 128).2]
  by_cases hj : j < 1024
  · simp [hj]
  · rw [BitVec.getLsbD_of_ge bm (j / 8) (by omega), Bool.and_false, Bool.and_false]

theorem getLsbD_overlay (old new : Line) (bm : BitVec 128) (j : Nat) :
    (overlay old new bm).getLsbD j = if bm.getLsbD (j / 8) then new.getLsbD j else old.getLsbD j := by
  rw [overlay, BitVec.getLsbD_or, BitVec.getLsbD_and, BitVec.getLsbD_and, BitVec.getLsbD_not, getLsbD_bitsMask]
  cases bm.getLsbD (j / 8)
  · by_cases hj : j < 1024
    · simp [hj]
    · simp [BitVec.getLsbD_of_ge old j (by omega)]
  · simp

/-! ## Bytes taken from a line -/

theorem testBit_takeBytes (l : Line) (o n k : Nat) : (takeBytes l o n).testBit k = (decide (k < 8 * n) && l.getLsbD (8 * o + k)) := by
  rw [takeBytes, Nat.testBit_mod_two_pow, Nat.testBit_div_two_pow, BitVec.getLsbD, Nat.add_comm]

section
variable {o n : Nat}

/-- The bytes of a mask are those put there. -/
theorem takeBytes_overlay_same (old new : Line) (h : o + n ≤ 128) : takeBytes (overlay old new (byteMask o n)) o n = takeBytes new o n := by
  refine Nat.eq_of_testBit_eq fun k => ?_
  rw [testBit_takeBytes, testBit_takeBytes, getLsbD_overlay, getLsbD_byteMask]
  by_cases hk : k < 8 * n
  · rw [if_pos (decide_eq_true (by omega))]
  · simp [hk]

/-- A byte outside the mask is that of before. -/
theorem takeBytes_overlay_outside (old new : Line) {a : Nat} (h : a < o ∨ o + n ≤ a) :
    takeBytes (overlay old new (byteMask o n)) a 1 = takeBytes old a 1 := by
  refine Nat.eq_of_testBit_eq fun k => ?_
  rw [testBit_takeBytes, testBit_takeBytes, getLsbD_overlay, getLsbD_byteMask]
  by_cases hk : k < 8 * 1
  · rw [if_neg (by simp only [decide_eq_true_eq]; omega)]
  · simp [hk]

theorem takeBytes_atByte (x : Nat) (h : o + n ≤ 128) : takeBytes (atByte o x) o n = x % 2 ^ (8 * n) := by
  refine Nat.eq_of_testBit_eq fun k => ?_
  rw [testBit_takeBytes, atByte, BitVec.getLsbD_ofNat, Nat.testBit_mul_two_pow, Nat.testBit_mod_two_pow]
  by_cases hk : k < 8 * n
  · simp [hk, show 8 * o + k < 1024 by omega]
  · simp [hk]

end

end Sys2Proof.Machine
end

section
/-!
PROOFS. Loads and stores that hit the L1 (R189, R190, R209, R227): what each lane's access comes to, what a store leaves of the bytes
that a spindle sees, and the instructions.
-/

namespace Sys2Proof.Machine

/-! ## A device whose caches are those at issue -/

/-- A device that differs from the one at issue in nothing that an access which hits looks at. -/
structure AsCached (s : State) (d : Dev) : Prop where
  l1 : d.l1 = s.dev.l1
  forms : d.forms = s.dev.forms
  halves : d.halves = s.dev.halves
  ways : ∀ sp line, emptyWay d sp line = emptyWay s.dev sp line

theorem asCached_refl (s : State) : AsCached s s.dev := ⟨rfl, rfl, rfl, fun _ _ => rfl⟩

theorem asCached_moved (s : State) (w : Bool) (len : Nat) (brk : Bool) : AsCached s (moved s w len brk) := by
  obtain ⟨ks, qs, st, he⟩ := moved_eq s w len brk
  exact ⟨by rw [he], by rw [he], by rw [he], fun sp line => emptyWay_advance ..⟩

theorem curCtx_moved {s : State} (hi : Issuing s) (w : Bool) (len : Nat) (brk : Bool) : curCtx (moved s w len brk) = curCtx s.dev := by
  have hgid : (curSkein (moved s w len brk)).gid = (curSkein s.dev).gid := by
    rw [curSkein, moved_cur]
    exact skeinOf_moved_gid w len brk hi
  obtain ⟨ks, qs, st, he⟩ := moved_eq s w len brk
  have hgroup : groupOf (moved s w len brk) = groupOf s.dev := by rw [he]; rfl
  rw [curCtx, curCtx, curGroup, curGroup, hgid, hgroup]

/-! ## One lane's access -/

/-- An access that hits lies in one line. -/
theorem Hits.fits {s : State} {p : DWord} {n pol : Nat} {store : Bool} {c : L1Line} (h : Hits s p n pol store c) :
    p.toNat % 128 + n ≤ 128 := by
  by_contra hn
  have hpieces := pieces_of_aligned h.aligned h.size.2
  rw [pieces, bitsOf_zero] at hpieces
  simp [hn] at hpieces

/-- Words that are all held, those that a mask covers in part among them. -/
theorem part_held {t w v : Mask} (h : t &&& ~~~v = 0) : (t &&& ~~~w) &&& ~~~v = 0 := by
  rw [BitVec.and_assoc, BitVec.and_comm (~~~w), ← BitVec.and_assoc, h]
  exact BitVec.zero_and

/-- A store never acts under policy 5 (R209). -/
theorem policyAt_store_ne (pol : Nat) (l : Leaf) : policyAt pol l true ≠ 5 := by
  unfold policyAt
  generalize (if pol = 0 then l.pol else pol) = q
  by_cases hq : q = 5 <;> simp [hq]

/-- A copy with the bytes of a mask stored: their words are dirty. -/
def putWords (x : Line) (bm : BitVec 128) (k : L1Line) : L1Line :=
  { k with
    data := overlay k.data x bm, dirty := k.dirty ||| wordsTouched bm, filled := k.filled &&& ~~~(wordsTouched bm)
    st := if k.st == .e then .e else .d }

section
variable {s : State} {p : DWord} {n pol : Nat} {store : Bool} {c : L1Line} {d : Dev} (hd : AsCached s d)
include hd

theorem Hits.claimWay_eq (h : Hits s p n pol store c) (k : Nat) :
    claimWay s.mgmt d (curCtx s.dev) (curSpindle s.dev) p c.leaf (128 * c.pa + p.toNat % 128) k = .ok (d, false) := by
  have hphys : l1Phys d (curSpindle s.dev) c.pa = some c := by rw [l1Phys, hd.l1]; exact h.own
  have hline := place_line c.pa p
  exact claimWay_none (by rw [hline, hd.ways]; exact h.unreserved)
    (by rw [hline, ← va_of_l1Hit h.line]; exact waysAlong_of_stands hphys)

/-- A load that hits reads the copy's bytes, and the device stays as it is. -/
theorem Hits.loadVia_eq (h : Hits s p n pol false c) (k : Nat) :
    loadVia s.mgmt d (curCtx s.dev) (curSpindle s.dev) p c.leaf (128 * c.pa + p.toNat % 128) n pol k =
      .ok (takeBytes c.data (p.toNat % 128) n, d, 20) := by
  have hit : l1Hit d (curSpindle s.dev) (ctxAsid s.mgmt (curCtx s.dev)) (bitsOf p 7 41 % 2 ^ 41) = some c := by
    rw [l1Hit, hd.l1, bitsOf, Nat.mod_mod]; exact h.line
  have hsound : cleanLost d c (byteMask (p.toNat % 128) n) = false := by
    rw [cleanLost, contentLost, formOf, hd.forms, hd.halves]; exact h.sound rfl
  have hpol : policyAt pol c.leaf false ≠ 4 ∧ policyAt pol c.leaf false ≠ 3 ∧ policyAt pol c.leaf false ≠ 2 := by
    rcases h.policy with hp | hp | hp <;> rw [hp] <;> decide
  rw [loadVia, h.claimWay_eq hd]
  simp only [Bool.false_eq_true, if_false, loadAt_eq, h.near, hpol, hit, h.current, place_byte, h.valid, hsound, Bool.not_false,
    Bool.and_self, if_true, latL1]

/-- A store that hits changes the copy alone. -/
theorem Hits.storeVia_eq (h : Hits s p n pol true c) (x : Line) (k : Nat) :
    storeVia s.mgmt d (curCtx s.dev) (curSpindle s.dev) p c.leaf (128 * c.pa + p.toNat % 128) (byteMask (p.toNat % 128) n) x pol k =
      .ok (modL1 d (curSpindle s.dev) c.pa (putWords x (byteMask (p.toNat % 128) n))) := by
  have hit : l1Hit d (curSpindle s.dev) (ctxAsid s.mgmt (curCtx s.dev)) (bitsOf p 7 41) = some c := by
    rw [l1Hit, hd.l1]; exact h.line
  have hphys : l1Phys d (curSpindle s.dev) c.pa = some c := by rw [l1Phys, hd.l1]; exact h.own
  have hname : (c.asid == ctxAsid s.mgmt (curCtx s.dev) && c.va == bitsOf p 7 41 && !c.stale) = true := by
    have hfound := List.find?_some h.line
    simp only [Bool.and_eq_true, beq_iff_eq] at hfound
    obtain ⟨⟨-, hasid⟩, hva⟩ := hfound
    simp [hasid, hva, h.current]
  have halloc : allocLine s.mgmt d (curCtx s.dev) (curSpindle s.dev) (bitsOf p 7 41) c.leaf (128 * c.pa + p.toNat % 128) = .ok d := by
    simp only [allocLine, hit, place_line, beq_self_eq_true, if_true, hphys, hname]
  have hpol : ¬ 2 ≤ policyAt pol c.leaf true := by
    rcases h.policy with hp | hp | hp
    · omega
    · omega
    · exact absurd hp (policyAt_store_ne pol c.leaf)
  have hheld := part_held (w := wordsWhole (byteMask (p.toNat % 128) n)) (beq_iff_eq.1 h.valid)
  rw [storeVia, h.claimWay_eq hd]
  simp only [Bool.false_eq_true, if_false, storeAt, h.near, hpol, decide_false, Bool.or_self, halloc, place_line, hphys, Option.map_some,
    Option.getD_some, hheld, beq_self_eq_true, if_true, Except.map]
  rfl

end

/-! ## What a spindle sees after a store -/

theorem l1Phys_modL1 (d : Dev) (sp line x : Nat) {f : L1Line → L1Line} (hs : ∀ k, (f k).spindle = k.spindle) (hp : ∀ k, (f k).pa = k.pa) :
    l1Phys (modL1 d sp line f) sp x = if x = line then (l1Phys d sp x).map f else l1Phys d sp x := by
  have hkey (k : L1Line) : (if k.spindle == sp && k.pa == line then f k else k).spindle = k.spindle ∧
      (if k.spindle == sp && k.pa == line then f k else k).pa = k.pa := by
    split
    · exact ⟨hs k, hp k⟩
    · exact ⟨rfl, rfl⟩
  simp only [l1Phys, modL1, modWhere, List.find?_map, Function.comp_def, hkey]
  cases hx : d.l1.find? fun l => l.spindle == sp && l.pa == x with
  | none => simp
  | some k =>
    have hk := List.find?_some hx
    simp only [Bool.and_eq_true, beq_iff_eq] at hk
    obtain ⟨hksp, hkx⟩ := hk
    by_cases hxl : x = line <;> simp [hksp, hkx, hxl]

/-- A word that a store makes dirty is no longer filled, and no other word gains or loses its value. -/
theorem words_putWords {f d t : Mask} (h : t &&& ~~~(f ||| d) = 0) : (f &&& ~~~t) ||| (d ||| t) = f ||| d := by
  refine BitVec.eq_of_getLsbD_eq fun i hi => ?_
  have hi' : t[i] = true → f[i] = false → d[i] = true := by
    simpa [hi] using congrArg (fun x : Mask => x.getLsbD i) h
  simp only [BitVec.getLsbD_eq_getElem hi, BitVec.getElem_or, BitVec.getElem_and, BitVec.getElem_not]
  cases ht : t[i]
  · simp
  · cases hf : f[i]
    · simp [hi' ht hf]
    · simp

theorem touched_dirty (d t : Mask) : t &&& ~~~(d ||| t) = 0 := by
  rw [BitVec.not_or, BitVec.and_comm (~~~d), ← BitVec.and_assoc, BitVec.and_not_self]
  exact BitVec.zero_and

theorem holds_putWords {c : L1Line} {bm : BitVec 128} (h : holds c bm = true) (x : Line) (bm' : BitVec 128) :
    holds (putWords x bm c) bm' = holds c bm' := by
  rw [holds, holds, putWords, words_putWords (beq_iff_eq.1 h)]

/-- A store in a copy changes no byte that the spindle sees but those stored. -/
theorem byteSeen_modL1_putWords {d : Dev} {sp o n : Nat} {c : L1Line} (hc : l1Phys d sp c.pa = some c)
    (hh : holds c (byteMask o n) = true) (x : Line) {a : Nat} (ha : a < 128 * c.pa + o ∨ 128 * c.pa + o + n ≤ a) :
    byteSeen (modL1 d sp c.pa (putWords x (byteMask o n))) sp a = byteSeen d sp a := by
  have hmem : (modL1 d sp c.pa (putWords x (byteMask o n))).mem = d.mem := rfl
  rw [byteSeen, byteSeen, l1Phys_modL1 (f := putWords x (byteMask o n)) d sp c.pa (a / 128) (fun _ => rfl) fun _ => rfl,
    hmem]
  by_cases hl : a / 128 = c.pa
  · rw [if_pos hl, hl, hc, Option.map_some]
    simp only [holds_putWords hh]
    rw [putWords, takeBytes_overlay_outside _ _ (by omega)]
  · rw [if_neg hl]

/-! ## The lanes' accesses -/

/-- Accesses that all pass their checks go to what these found. -/
theorem checkAll_of_passed {store : Bool} {chk : LAcc → Chk} {as : List LAcc} {leaf : LAcc → Leaf} {pa : LAcc → Nat}
    (h : ∀ a ∈ as, chk a = .ok (leaf a) (pa a)) : checkAll store chk as = .go (as.map fun a => (a, leaf a, pa a)) := by
  have hmap : (as.map fun a => (a, chk a)) = as.map fun a => (a, Chk.ok (leaf a) (pa a)) :=
    List.map_congr_left fun a ha => by rw [h a ha]
  unfold checkAll
  rw [hmap]
  simp [List.filterMap_map, pickFault]

theorem ownStores_of_free {m : Mgmt} {d : Dev} (h : isDet m (curCtx d) = false) (owns : List Nat) : ownStores m d owns = [] := by
  simp only [ownStores, h, Bool.false_eq_true, if_false]

theorem useCurr_nil (d : Dev) : useCurr d [] = d := by
  simp [useCurr]

/-- The load of one lane after those before it. -/
def loadLane (m : Mgmt) (d : Dev) (ctx sp n pol : Nat) (r : List (Nat × Nat) × Dev × Nat) (x : LAcc × Leaf × Nat) :
    MemM (List (Nat × Nat) × Dev × Nat) :=
  (loadVia m r.2.1 ctx sp x.1.p x.2.1 x.2.2 n pol x.1.lane).map fun y =>
    (r.1 ++ [(x.1.lane, sbufOver (ownStores m d [ownNo (curSkein d) x.1.lane]) x.2.2 n y.1)], y.2.1, max r.2.2 y.2.2)

theorem loadLanes_eq (m : Mgmt) (d : Dev) (ctx sp n pol : Nat) (ls : List (LAcc × Leaf × Nat)) :
    loadLanes m d ctx sp n pol ls = (ls.foldlM (loadLane m d ctx sp n pol) ([], d, 0)).map fun r =>
      (r.1, useCurr r.2.1 (ls.flatMap fun x => usedBy pol x.2.1 x.2.2), r.2.2) := rfl

section
variable {m : Mgmt} {d : Dev} {ctx sp n pol lat : Nat} {v : Nat → Nat} (hdet : isDet m (curCtx d) = false)
include hdet

theorem foldlM_loadLane_of_hits : ∀ {ls : List (LAcc × Leaf × Nat)} {vals : List (Nat × Nat)} {k : Nat}, k ≤ lat →
    (∀ x ∈ ls, loadVia m d ctx sp x.1.p x.2.1 x.2.2 n pol x.1.lane = .ok (v x.1.lane, d, lat)) →
    ∃ k', k' ≤ lat ∧ ls.foldlM (loadLane m d ctx sp n pol) (vals, d, k) =
      .ok (vals ++ ls.map fun x => (x.1.lane, v x.1.lane), d, k') := by
  intro ls
  induction ls with
  | nil => exact fun {vals k} hk _ => ⟨k, hk, by rw [List.map_nil, List.append_nil]; rfl⟩
  | cons x ls ih =>
    intro vals k hk h
    have hx : loadLane m d ctx sp n pol (vals, d, k) x = .ok (vals ++ [(x.1.lane, v x.1.lane)], d, max k lat) := by
      rw [loadLane, h x List.mem_cons_self, ownStores_of_free hdet]
      rfl
    obtain ⟨k', hk', he⟩ := ih (vals := vals ++ [(x.1.lane, v x.1.lane)]) (Nat.max_le.2 ⟨hk, Nat.le_refl lat⟩)
      fun y hy => h y (List.mem_cons_of_mem _ hy)
    refine ⟨k', hk', ?_⟩
    rw [List.append_assoc] at he
    rw [List.foldlM_cons, hx]
    exact he

/-- Loads that leave the device as it is put their values together. -/
theorem loadLanes_of_hits {ls : List (LAcc × Leaf × Nat)}
    (h : ∀ x ∈ ls, loadVia m d ctx sp x.1.p x.2.1 x.2.2 n pol x.1.lane = .ok (v x.1.lane, d, lat))
    (hu : ∀ x ∈ ls, usedBy pol x.2.1 x.2.2 = []) :
    ∃ k, k ≤ lat ∧ loadLanes m d ctx sp n pol ls = .ok (ls.map fun x => (x.1.lane, v x.1.lane), d, k) := by
  obtain ⟨k, hk, he⟩ := foldlM_loadLane_of_hits hdet (vals := []) (Nat.zero_le lat) h
  refine ⟨k, hk, ?_⟩
  rw [loadLanes_eq, he, List.flatMap_eq_nil_iff.2 hu, Except.map, useCurr_nil, List.nil_append]

end

/-- A single lane's store is its own access. -/
theorem storeLanes_single (m : Mgmt) (d : Dev) (ctx sp n pol : Nat) (val : Nat → Nat) (a : LAcc) (l : Leaf) (pa : Nat) :
    storeLanes m d ctx sp n pol val [(a, l, pa)] = storeVia m d ctx sp a.p l pa (byteMask (pa % 128) n)
      (overlay 0 (atByte (pa % 128) (val a.lane % 2 ^ (8 * n))) (byteMask (pa % 128) n)) pol a.lane := by
  simp [storeLanes, laneBytes]

/-! ## Loads of lanes that all hit -/

/-- A lane's pointer and access of LD and ST. -/
abbrev lanePtr (d : Dev) (o : Lm) (l : Nat) : DWord := globalPtr d o (amOf o) (disp14 o) l
def globAcc (d : Dev) (o : Lm) (l : Nat) : LAcc := { lane := l, p := lanePtr d o l, pre := none, drop := false }

theorem globAccs_eq (o : Lm) (d : Dev) (ex : Mask) : globAccs o d ex = (lanesOf ex).map (globAcc d o) := rfl

theorem mem_globAccs {d : Dev} {ex : Mask} {a : LAcc} (h : a ∈ globAccs o d ex) :
    a.lane ∈ lanesOf ex ∧ a.p = lanePtr d o a.lane ∧ a.pre = none ∧ a.drop = false := by
  obtain ⟨l, hl, rfl⟩ := List.mem_map.1 (globAccs_eq o d ex ▸ h)
  exact ⟨hl, rfl, rfl, rfl⟩

/-- A lane's value in its copy. -/
def hitValue (s : State) (o : Lm) (line : Nat → L1Line) (l : Nat) : Nat :=
  takeBytes (line l).data ((lanePtr s.dev o l).toNat % 128) (tyBytes o.xw.ty)

/-- What the checks of the lanes' accesses find. -/
def hitAccs (s : State) (o : Lm) (line : Nat → L1Line) : List (LAcc × Leaf × Nat) :=
  (globAccs o s.dev (execLanes s o)).map fun a => (a, (line a.lane).leaf, 128 * (line a.lane).pa + a.p.toNat % 128)

section
variable {s : State} {o : Lm} {line : Nat → L1Line} (hdet : isDet s.mgmt (curCtx s.dev) = false)
  (hh : ∀ l ∈ lanesOf (execLanes s o), Hits s (lanePtr s.dev o l) (tyBytes o.xw.ty) o.xw.pol.toNat false (line l))
include hh

theorem hits_of_mem {a : LAcc} (h : a ∈ globAccs o s.dev (execLanes s o)) :
    Hits s a.p (tyBytes o.xw.ty) o.xw.pol.toNat false (line a.lane) := by
  obtain ⟨hl, hp, -, -⟩ := mem_globAccs h
  rw [hp]
  exact hh _ hl

theorem loadChecks_of_hits : loadChecks s.mgmt s.dev (tyBytes o.xw.ty) (tyBytes o.xw.ty) o.xw.pol.toNat
    (globAccs o s.dev (execLanes s o)) = .go (hitAccs s o line) := by
  refine checkAll_of_passed fun a ha => ?_
  obtain ⟨-, -, hpre, hdrop⟩ := mem_globAccs ha
  have hhit := hits_of_mem hh ha
  exact hhit.checkLane_eq rfl hpre hdrop (congrArg (failAt a.p) (hhit.loadVia_eq (asCached_refl s) a.lane))

theorem ownedLine_of_hits : ownedLine s.dev (hitAccs s o line) = none := by
  have hnone : (hitAccs s o line).find? (fun x => engineOwns s.dev (x.2.2 / 128)) = none := by
    refine List.find?_eq_none.2 fun x hx => ?_
    obtain ⟨a, ha, rfl⟩ := List.mem_map.1 hx
    rw [place_line, (hits_of_mem hh ha).unowned]
    exact Bool.false_ne_true
  rw [ownedLine, hnone]
  rfl

include hdet

theorem ld_hits (hi : Issuing s) : Goes (.ld o) s (addPend (moved s o.w 8 false) s.dev.cur.skein 20
    ((lanesOf (execLanes s o)).flatMap fun l => resOf (wrV l) o.d o.xw.ty (hitValue s o line l))) := by
  have hloads := loadLanes_of_hits (m := s.mgmt) (d := moved s o.w 8 false) (ctx := curCtx s.dev) (sp := curSpindle s.dev)
    (n := tyBytes o.xw.ty) (pol := o.xw.pol.toNat) (lat := 20) (ls := hitAccs s o line)
    (v := hitValue s o line) (by rw [curCtx_moved hi]; exact hdet) ?loads ?uses
  case loads =>
    intro x hx
    obtain ⟨a, ha, rfl⟩ := List.mem_map.1 hx
    obtain ⟨-, hp, -, -⟩ := mem_globAccs ha
    rw [(hits_of_mem hh ha).loadVia_eq (asCached_moved s o.w 8 false), hitValue, ← hp]
  case uses =>
    intro x hx
    obtain ⟨a, ha, rfl⟩ := List.mem_map.1 hx
    have hpol : policyAt o.xw.pol.toNat (line a.lane).leaf false ≠ 4 := by
      rcases (hits_of_mem hh ha).policy with hp | hp | hp <;> rw [hp] <;> decide
    exact if_neg (by simpa using hpol)
  obtain ⟨k, hk, hl⟩ := hloads
  have hc : LaneClear s o.xw.p o.xw.n (globalRds o (amOf o)) := fun h => absurd (hdet.symm.trans h) Bool.false_ne_true
  refine (load_done (isLoad_ld o) hc (loadInstr_of_loaded (loadChecks_of_hits hh) (ownedLine_of_hits hh) hl)).congr ?_
  have hdrop : (globAccs o s.dev (execLanes s o)).filter (fun a => a.drop) = [] :=
    List.filter_eq_nil_iff.2 fun a ha => by
      obtain ⟨-, -, -, hdrop⟩ := mem_globAccs ha
      rw [hdrop]
      exact Bool.false_ne_true
  rw [Nat.max_eq_right hk, hdrop, List.flatMap_nil, List.append_nil, List.flatMap_map, hitAccs, List.flatMap_map, globAccs_eq,
    List.flatMap_map]
  rfl

end

/-! ## The store of one lane that hits -/

section
variable {s : State} {o : Lm} {l : Nat} {c : L1Line} (hl : lanesOf (execLanes s o) = [l])
  (hh : Hits s (lanePtr s.dev o l) (tyBytes o.xw.ty) o.xw.pol.toNat true c)

/-- The bytes that the lane stores, in the line. -/
def laneLine (s : State) (o : Lm) (l : Nat) : Line :=
  let byte := (lanePtr s.dev o l).toNat % 128
  overlay 0 (atByte byte (storeVal s.dev o l % 2 ^ (8 * tyBytes o.xw.ty))) (byteMask byte (tyBytes o.xw.ty))

/-- The device after the store. -/
def storeHit (s : State) (o : Lm) (l : Nat) (c : L1Line) : Dev :=
  modL1 (moved s o.w 8 false) (curSpindle s.dev) c.pa (putWords (laneLine s o l)
    (byteMask ((lanePtr s.dev o l).toNat % 128) (tyBytes o.xw.ty)))

include hl hh

theorem st_hits (hdet : isDet s.mgmt (curCtx s.dev) = false) (hr : runsAhead s.dev = false) : Goes (.st o) s (storeHit s o l c) := by
  have hc : LaneClear s o.xw.p o.xw.n (.v o.d (tyRegs o.xw.ty) :: globalRds o (amOf o)) :=
    fun h => absurd (hdet.symm.trans h) Bool.false_ne_true
  refine store_done (isStore_st o) hc (storeInstr_of_stored
    (ls := [(globAcc s.dev o l, c.leaf, 128 * c.pa + (lanePtr s.dev o l).toNat % 128)]) ?checks hr ?owned hdet ?stored)
  case checks =>
    rw [globAccs_eq, hl]
    refine checkAll_single (hh.checkLane_eq rfl rfl rfl ?_)
    simp only [globAcc, hr, buffered, hdet, Bool.or_self, Bool.false_eq_true, if_false, place_byte]
    rw [hh.storeVia_eq (asCached_refl s)]
    rfl
  case owned => exact hh.ownedLine_eq _
  case stored =>
    rw [storeLanes_single, place_byte]
    exact hh.storeVia_eq (asCached_moved s o.w 8 false) _ _

omit hl

theorem l1Phys_moved : l1Phys (moved s o.w 8 false) (curSpindle s.dev) c.pa = some c := by
  rw [l1Phys, moved_l1]
  exact hh.own

/-- The bytes outside the lane's are seen as before. -/
theorem byteSeen_storeHit {a : Nat} (ha : a < 128 * c.pa + (lanePtr s.dev o l).toNat % 128 ∨
    128 * c.pa + (lanePtr s.dev o l).toNat % 128 + tyBytes o.xw.ty ≤ a) :
    byteSeen (storeHit s o l c) (curSpindle s.dev) a = byteSeen s.dev (curSpindle s.dev) a := by
  rw [storeHit, byteSeen_modL1_putWords (l1Phys_moved hh) hh.valid _ ha, byteSeen, byteSeen, l1Phys, l1Phys, moved_l1, moved_mem]

/-- The copy holds the lane's bytes, in dirty words. -/
theorem l1Phys_storeHit : ∃ k, l1Phys (storeHit s o l c) (curSpindle s.dev) c.pa = some k ∧
    takeBytes k.data ((lanePtr s.dev o l).toNat % 128) (tyBytes o.xw.ty) =
      storeVal s.dev o l % 2 ^ (8 * tyBytes o.xw.ty) ∧
    wordsTouched (byteMask ((lanePtr s.dev o l).toNat % 128) (tyBytes o.xw.ty)) &&& ~~~k.dirty = 0 := by
  have hfits := hh.fits
  refine ⟨putWords (laneLine s o l) (byteMask _ (tyBytes o.xw.ty)) c, ?_, ?_, touched_dirty c.dirty _⟩
  · rw [storeHit, l1Phys_modL1 (f := putWords _ _) _ _ _ _ (fun _ => rfl) fun _ => rfl, if_pos rfl, l1Phys_moved hh]
    rfl
  · rw [putWords, takeBytes_overlay_same _ _ hfits, laneLine, takeBytes_overlay_same _ _ hfits, takeBytes_atByte _ hfits, Nat.mod_mod]

end

end Sys2Proof.Machine
end

section
/-!
PROOFS. Pointers that are not canonical (R182, R188, R224): LD and ST raise XLATE for exactly the lanes that have one, whatever the
other lanes' accesses come to.
-/

namespace Sys2Proof.Machine

/-! ## The first failures of lanes -/

/-- The fault picked is that of the failures at the least place: with the first one's sub-code and address. -/
theorem pickFault_of_first {bads : List (Nat × Bad)} {st : Nat} {b : Nat × Bad} {r : List (Nat × Bad)} (store : Bool)
    (hle : ∀ x ∈ bads, st ≤ x.2.stage) (hst : st ≤ 100) (h : bads.filter (fun x => x.2.stage == st) = b :: r) :
    ∃ ps, pickFault bads store = some { faultAt b.2.cause b.2.addr (maskOf fun l => (b :: r).any fun x => x.1 == l) with
      sub := b.2.sub, pages := ps } := by
  have hb : b ∈ bads ∧ b.2.stage = st := by
    simpa using List.mem_filter.1 (h ▸ List.mem_cons_self : b ∈ bads.filter fun x => x.2.stage == st)
  have hmin : bads.foldl (fun s x => min s x.2.stage) 100 = st :=
    foldl_min_eq (fun x : Nat × Bad => x.2.stage) st bads 100 hle hst (.inr ⟨b, hb⟩)
  simp only [pickFault, hmin, h]
  exact ⟨_, rfl⟩

section
variable {chk : LAcc → Chk} {acc : Nat → LAcc} {bad : Nat → Bool} {b : Nat → Bad} {st : Nat} (hlane : ∀ l, (acc l).lane = l)
  (hst : ∀ l, (b l).stage = st) (hbad : ∀ l, bad l = true → chk (acc l) = .bad (b l))
  (hgood : ∀ l, bad l = false → FailsAfter st (chk (acc l)))
include hst hbad hgood

/-- No lane fails, or waits, before the place. -/
theorem failuresOf_stage_le (ls : List Nat) : ∀ x ∈ failuresOf chk (ls.map acc), st ≤ x.2.stage := by
  intro x hx
  obtain ⟨a, ha, hc⟩ := mem_failuresOf hx
  obtain ⟨l, -, rfl⟩ := List.mem_map.1 ha
  cases hb : bad l
  · have hg := hgood l hb
    rw [hc] at hg
    exact Nat.le_of_lt hg
  · have he : b l = x.2 := Chk.bad.inj ((hbad l hb).symm.trans hc)
    rw [← he]
    exact (hst l).ge

include hlane

/-- The failures at the place are those of the lanes that fail there. -/
theorem failuresOf_first (ls : List Nat) :
    (failuresOf chk (ls.map acc)).filter (fun x => x.2.stage == st) = (ls.filter bad).map fun l => (l, b l) := by
  induction ls with
  | nil => rfl
  | cons a ls ih =>
    rw [List.map_cons, failuresOf_cons, List.filter_append, ih]
    cases hb : bad a
    · rw [failuresOf_of_failsAfter (hgood a hb), List.nil_append, List.filter_cons_of_neg (by simp [hb])]
    · rw [failuresOf_of_bad (hbad a hb), List.filter_cons_of_pos hb, hlane,
        List.filter_eq_self.2 fun x hx => by rw [List.mem_singleton.1 hx]; exact beq_iff_eq.2 (hst a)]
      rfl

/-- The lanes that fail at the place are those that the fault names, with the lowest one's sub-code and address. -/
theorem checkAll_of_first (store : Bool) {ex : Mask} (h100 : st ≤ 100) (hex : maskOf (fun l => ex.getLsbD l && bad l) ≠ 0) :
    ∃ l ps, l = (lanesOf (maskOf fun l => ex.getLsbD l && bad l)).headD 0 ∧ checkAll store chk ((lanesOf ex).map acc) =
      .fault { faultAt (b l).cause (b l).addr (maskOf fun l => ex.getLsbD l && bad l) with sub := (b l).sub, pages := ps } := by
  have hls : (lanesOf ex).filter bad = lanesOf (maskOf fun l => ex.getLsbD l && bad l) := by rw [filter_lanesOf, lanesOf_maskOf]
  obtain ⟨l0, r, hl⟩ := List.exists_cons_of_ne_nil (mt lanesOf_eq_nil_iff.1 hex)
  have hfirst := failuresOf_first hlane hst hbad hgood (lanesOf ex)
  rw [hls, hl, List.map_cons] at hfirst
  obtain ⟨ps, hf⟩ := pickFault_of_first store (failuresOf_stage_le hst hbad hgood (lanesOf ex)) h100 hfirst
  have hmask : (maskOf fun l => ((l0, b l0) :: r.map fun l => (l, b l)).any fun x => x.1 == l) =
      maskOf fun l => ex.getLsbD l && bad l := by
    refine maskOf_congr fun l hlt => ?_
    have hmem : l ∈ l0 :: r ↔ ex.getLsbD l = true ∧ bad l = true := by
      rw [← hl, mem_lanesOf, getLsbD_maskOf]
      simp [hlt]
    rw [← List.map_cons (f := fun l => (l, b l)), List.any_map, Bool.eq_iff_iff, List.any_eq_true, Bool.and_eq_true, ← hmem]
    simp
  rw [hmask] at hf
  refine ⟨l0, ps, by rw [hl]; rfl, checkAll_of_failures hf fun w hw => List.any_eq_true.2 ⟨(l0, b l0), ?_, decide_eq_true ?_⟩⟩
  · exact List.mem_of_mem_filter (hfirst ▸ List.mem_cons_self)
  · obtain ⟨a, ha, hc⟩ := mem_waitsOf hw
    obtain ⟨l, -, rfl⟩ := List.mem_map.1 ha
    cases hb : bad l
    · have hg := hgood l hb
      rw [hc] at hg
      exact (hst l0).trans_lt hg
    · cases (hbad l hb).symm.trans hc

end

/-! ## Canonical pointers (R182) -/

section
variable {m : Mgmt} {d : Dev} {ctx sp n al : Nat} {store : Bool}

/-- Every check of a canonical pointer comes after that of its form. -/
theorem failsAfter_checkPtr_canon {p : DWord} (hp : nonCanon p = false) : FailsAfter stCanon (checkPtr m d ctx sp p n al store) := by
  unfold checkPtr
  split
  · simp [FailsAfter, stCanon, stAlign]
  rw [if_neg (by rw [hp]; exact Bool.false_ne_true)]
  dsimp only
  split
  · next hw =>
    obtain hm | hm := mem_of_foldl_pick (fun w c => by
      cases w with
      | none => exact .inr rfl
      | some x => exact (ite_eq_or_eq _ _ _).symm) _ _ hw
    · obtain ⟨⟨q, r⟩, -, hr⟩ := List.mem_filterMap.1 hm
      cases r with
      | error e =>
        obtain rfl := Option.some.inj hr
        exact failsAfter_errChk _ _ (by decide) (by decide)
      | ok x => cases hr
    · cases hm
  · trivial
  · trivial

/-- The failure of a lane whose pointer is not canonical (R188). -/
def canonBad (p : DWord) : Bad := { stage := stCanon, cause := .xlate, sub := 1, addr := p }

variable {probe : Leaf → Nat → Option (DWord × MemErr)} {l : Nat} {o : Lm}

theorem checkLane_globAcc : checkLane m d ctx sp n al store probe (globAcc d o l) = if nonCanon (globAcc d o l).p = true then
    .bad (canonBad (globAcc d o l).p) else checkUni m d ctx sp n al store probe (globAcc d o l) := rfl

theorem checkLane_of_nonCanon (h : nonCanon (globAcc d o l).p = true) :
    checkLane m d ctx sp n al store probe (globAcc d o l) = .bad (canonBad (globAcc d o l).p) := if_pos h

theorem failsAfter_checkLane_canon (h : nonCanon (globAcc d o l).p = false) :
    FailsAfter stCanon (checkLane m d ctx sp n al store probe (globAcc d o l)) := by
  rw [checkLane_globAcc, if_neg (by rw [h]; exact Bool.false_ne_true)]
  have hptr := failsAfter_checkPtr_canon (m := m) (d := d) (ctx := ctx) (sp := sp) (n := n) (al := al) (store := store) h
  unfold checkUni
  split
  · split
    · exact failsAfter_errChk _ _ (by decide) (by decide)
    · trivial
  · exact hptr

end

/-! ## The instructions -/

/-- The executing lanes whose pointer is not canonical. -/
def badLanes (s : State) (o : Lm) : Mask := maskOf fun l => (execLanes s o).getLsbD l && nonCanon (globAcc s.dev o l).p

/-- The fault of some lanes with pointers that are not canonical. -/
def NamesBad (s : State) (o : Lm) (f : FaultInfo) : Prop :=
  f.cause = .xlate ∧ f.sub = 1 ∧ f.lanes = badLanes s o ∧ f.addr = (globAcc s.dev o ((lanesOf (badLanes s o)).headD 0)).p

section
variable {s : State} {o : Lm} (h : badLanes s o ≠ 0)
include h

theorem checkAll_of_badLanes (store : Bool) {m : Mgmt} {ctx sp n al : Nat} (probe : LAcc → Leaf → Nat → Option (DWord × MemErr)) :
    ∃ f, NamesBad s o f ∧ checkAll store (fun a => checkLane m s.dev ctx sp n al store (probe a) a)
      (globAccs o s.dev (execLanes s o)) = .fault f := by
  obtain ⟨l, ps, rfl, hf⟩ := checkAll_of_first (chk := fun a => checkLane m s.dev ctx sp n al store (probe a) a)
    (acc := globAcc s.dev o) (bad := fun l => nonCanon (globAcc s.dev o l).p) (b := fun l => canonBad (globAcc s.dev o l).p)
    (fun _ => rfl) (fun _ => rfl) (fun _ => checkLane_of_nonCanon) (fun _ => failsAfter_checkLane_canon) store (by decide) h
  exact ⟨_, ⟨rfl, rfl, rfl, rfl⟩, hf⟩

theorem ld_of_badLanes (hc : LaneClear s o.xw.p o.xw.n (globalRds o (amOf o))) :
    ∃ f, NamesBad s o f ∧ Goes (.ld o) s (trapped s o.w 8 false f) := by
  obtain ⟨f, hf, hk⟩ := checkAll_of_badLanes h false (m := s.mgmt) (ctx := curCtx s.dev) (sp := curSpindle s.dev)
    (n := tyBytes o.xw.ty) (al := tyBytes o.xw.ty) fun a l pa => failAt a.p (loadVia s.mgmt s.dev (curCtx s.dev) (curSpindle s.dev)
      a.p l pa (tyBytes o.xw.ty) o.xw.pol.toNat a.lane)
  have hchecks : loadChecks s.mgmt s.dev (tyBytes o.xw.ty) (tyBytes o.xw.ty) o.xw.pol.toNat (globAccs o s.dev (execLanes s o)) =
    .fault f := hk
  refine ⟨{ f with undef := (globAccs o s.dev (execLanes s o)).flatMap fun a => loadDst o a.lane 0 }, hf, ?_⟩
  exact load_fault (isLoad_ld o) hc (by rw [loadInstr, hchecks])

theorem st_of_badLanes (hc : LaneClear s o.xw.p o.xw.n (.v o.d (tyRegs o.xw.ty) :: globalRds o (amOf o))) :
    ∃ f, NamesBad s o f ∧ Goes (.st o) s (trapped s o.w 8 false f) := by
  obtain ⟨f, hf, hk⟩ := checkAll_of_badLanes h true (m := s.mgmt) (ctx := curCtx s.dev) (sp := curSpindle s.dev)
    (n := tyBytes o.xw.ty) (al := tyBytes o.xw.ty) fun a l pa =>
      if runsAhead s.dev || buffered s.mgmt (curCtx s.dev) then none
      else failAt a.p (storeVia s.mgmt s.dev (curCtx s.dev) (curSpindle s.dev) a.p l pa (byteMask (pa % 128) (tyBytes o.xw.ty)) 0
        o.xw.pol.toNat a.lane)
  have hchecks : storeChecks s.mgmt s.dev (tyBytes o.xw.ty) (tyBytes o.xw.ty) o.xw.pol.toNat (globAccs o s.dev (execLanes s o)) =
    .fault f := hk
  exact ⟨f, hf, store_fault (isStore_st o) hc (by rw [storeInstr, hchecks])⟩

end

end Sys2Proof.Machine

/-! ## The statement -/

namespace Sys2Proof.Claims
open Machine

/-- Settles O24: loads and stores that hit by what the lanes' accesses come to, then the pointers by the first of the checks. -/
theorem cacheHitsAndPointers : Obligations.CacheHitsAndPointers := by
  refine ⟨?hits, ?pointers⟩
  case hits =>
    intro o s line hi hdet hr d sp n ex p val
    refine ⟨fun hh => ⟨_, ld_hits hdet hh hi, ?_⟩, fun l hl hh => ?_⟩
    · exact issued_plain s (hdXw o (globalRds o (amOf o)) false) 20 _ rfl hi
    · exact ⟨storeHit s o l (line l), st_hits hl hh hdet hr, moved_mem s o.w 8 false, fun a => byteSeen_storeHit hh, l1Phys_storeHit hh⟩
  case pointers =>
    intro o s _ ex p bad tells hbad
    exact ⟨ld_of_badLanes hbad, st_of_badLanes hbad⟩

end Sys2Proof.Claims
end
